-- ==== Sys2Proof/Word.lean ====
section
/-! DEFINITION. The word types of the part and nothing else: bytes, 32-bit instruction words, 64-bit registers,
128-bit accumulator values and 2048-bit segments. Every operation on them that a later repair could touch stands in
`Sys2Proof/Machine/Bits.lean`. -/

namespace Sys2Proof

/-- One byte of memory (R4). -/
abbrev Byte := BitVec 8
/-- One instruction word of a code line (R15). -/
abbrev Word := BitVec 32
/-- One general register, parameter register or special register (R26, R33). -/
abbrev Dword := BitVec 64
/-- The 256 bytes of a segment, byte 0 in bits [7:0] (R4, R26). -/
abbrev SegBits := BitVec 2048
/-- The 128 bytes of one memory line, byte 0 in bits [7:0] (R112, R252). -/
abbrev LineBits := BitVec 1024

end Sys2Proof
end

