-- ==== Sys2Proof/Syntax.lean ====
section
/-! DEFINITION. The instructions and events of the part as a type: one constructor of `Instr` per row of
spec/opcode_table.json. A decoded instruction carries its sync request (R42), the squash bit of a control instruction
(R43) and its operand fields as bit vectors of the width the layout gives them; an event carries what distinguishes one
occurrence from another (which bank, which host queue, which packet). -/

namespace Sys2Proof

/-- The five streams of a core, in the numbering of R13. -/
inductive StreamId where
  | c | w | v | m | k
deriving DecidableEq, Repr

/-- The sync field of word 0 (R42): a pop request with its relative source and a push request with its relative target. -/
structure Sync where
  pop : Bool
  psrc : BitVec 2
  push : Bool
  pdst : BitVec 2
deriving DecidableEq, Repr

/-- The sync field and the squashable bit Q of a control instruction (R43). -/
structure CM where
  sync : Sync
  q : Bool
deriving DecidableEq, Repr

/-- The fields of CBSET (R126): offset bits [43:8], SHR, NSLOT and SLOTU. -/
structure CbsetF where
  offHi : BitVec 4
  offLo : BitVec 32
  shr : Bool
  nslot : BitVec 12
  slotu : BitVec 8
deriving DecidableEq, Repr

/-- The ignored words of a long hint (R48). -/
inductive HintExt where
  | two (x1 : Word)
  | four (x1 x2 x3 : Word)
deriving DecidableEq, Repr

/-- WCFG (R175). -/
structure WcfgF where
  mode : Bool
  ovf : Bool
  chk : Bool
  cbh : BitVec 4
  lag : BitVec 8
  skip : BitVec 10
deriving DecidableEq, Repr

/-- WBMAP, WCOORD, WDENSE (R176). -/
structure WalkF where
  da : BitVec 4
  db : BitVec 4
  ccen : Bool
  ccn : BitVec 3
deriving DecidableEq, Repr

/-- MCFG (R187). -/
structure McfgF where
  z : BitVec 1
  mode : BitVec 2
  anchor : BitVec 9
  atag : BitVec 5
  btag : BitVec 5
deriving DecidableEq, Repr

/-- Words 2 and 3 of a four-word VRD, VWR, MLDS, MSTR or MDRN (R149): STEP, then the circular-buffer and counter options. -/
structure LongF where
  step : BitVec 32
  cben : Bool
  cbh : BitVec 4
  wait : BitVec 12
  ccen : Bool
  ccn : BitVec 3
deriving DecidableEq, Repr

/-- Words 0 and 1 of MLDS (R189). -/
structure MldsF where
  pln : BitVec 1
  ds : BitVec 4
  p : BitVec 4
  ncol : BitVec 9
deriving DecidableEq, Repr

/-- Words 0 and 1 of MSTR (R192). -/
structure MstrF where
  z : BitVec 1
  da : BitVec 4
  p : BitVec 4
  nrow : BitVec 8
  zrow : BitVec 7
deriving DecidableEq, Repr

/-- MCONV (R194); the fields KH, KW, SY, SX are stored minus one as the words hold them. -/
structure MconvF where
  z : BitVec 1
  da : BitVec 4
  p : BitVec 4
  npix : BitVec 8
  zrow : BitVec 7
  kh1 : BitVec 3
  kw1 : BitVec 3
  sy1 : BitVec 2
  sx1 : BitVec 2
  py : BitVec 2
  px : BitVec 2
  ow : BitVec 16
  ch : BitVec 16
  ccen : Bool
  ccn : BitVec 3
deriving DecidableEq, Repr

/-- MSPR (R196). -/
structure MsprF where
  z : BitVec 1
  ccen : Bool
  ccn : BitVec 3
deriving DecidableEq, Repr

/-- Words 0 and 1 of MDRN (R199). -/
structure MdrnF where
  z : BitVec 1
  ds : BitVec 4
  p : BitVec 4
  rnd : BitVec 2
  nrow : BitVec 8
  zrow : BitVec 7
deriving DecidableEq, Repr

/-- Words 0 and 1 of VRD (R149). -/
structure VrdF where
  q : BitVec 2
  ds : BitVec 4
  p : BitVec 4
  rat : BitVec 3
  count : BitVec 12
deriving DecidableEq, Repr

/-- Words 0 and 1 of VWR (R152). -/
structure VwrF where
  src : BitVec 6
  ds : BitVec 4
  p : BitVec 4
  rnd : BitVec 2
  count : BitVec 12
  sadv : Bool
  sat : Bool
deriving DecidableEq, Repr

/-- VGATH (R154). -/
structure VgathF where
  a : BitVec 6
  ds : BitVec 4
  p : BitVec 4
  count : BitVec 12
  c : BitVec 6
  d : BitVec 5
  dv : Bool
  dadv : Bool
  aadv : Bool
  cadv : Bool
  men : Bool
deriving DecidableEq, Repr

/-- VSCAT (R154). -/
structure VscatF where
  a : BitVec 6
  b : BitVec 6
  ds : BitVec 4
  count : BitVec 12
  c : BitVec 6
  p : BitVec 4
  aadv : Bool
  badv : Bool
  cadv : Bool
  men : Bool
  ccen : Bool
  ccn : BitVec 3
deriving DecidableEq, Repr

/-- The one-word vector layout V1 (R139). -/
structure V1F where
  a : BitVec 6
  b : BitVec 6
  rnd : BitVec 2
  sub : BitVec 2
deriving DecidableEq, Repr

/-- The two-word vector layout V2 (R139). -/
structure V2F where
  a : BitVec 6
  b : BitVec 6
  rnd : BitVec 2
  sub : BitVec 2
  count : BitVec 12
  c : BitVec 6
  d : BitVec 5
  dv : Bool
  dadv : Bool
  aadv : Bool
  badv : Bool
  cadv : Bool
  x : BitVec 4
deriving DecidableEq, Repr

/-- VSPLAT (R157). -/
structure VsplatF where
  tag : BitVec 5
  d : BitVec 5
  dv : Bool
  imm : Word
deriving DecidableEq, Repr

/-- One-word VCVT (R163). -/
structure Vcvt1F where
  a : BitVec 6
  t : BitVec 5
  s : BitVec 5
deriving DecidableEq, Repr

/-- Two-word VCVT (R163). -/
structure Vcvt2F where
  a : BitVec 6
  t : BitVec 5
  s : BitVec 5
  count : BitVec 12
  d : BitVec 5
  dv : Bool
  dadv : Bool
  aadv : Bool
  rnd : BitVec 2
  sat : Bool
deriving DecidableEq, Repr

/-- VQNT (R165). -/
structure VqntF where
  a : BitVec 6
  b : BitVec 6
  rnd : BitVec 2
  count : BitVec 12
  t : BitVec 5
  d : BitVec 5
  dv : Bool
  dadv : Bool
  aadv : Bool
  badv : Bool
deriving DecidableEq, Repr

/-- The common layout of the copy instructions (R207). -/
structure KF where
  ds : BitVec 4
  dd : BitVec 4
  p : BitVec 4
  rnd : BitVec 2
  sat : Bool
  count : BitVec 12
  sfmt : BitVec 5
  dfmt : BitVec 5
  ccen : Bool
  ccn : BitVec 3
  w2 : BitVec 32
  ckm : BitVec 2
  cksel : BitVec 2
  ckop : BitVec 2
  cben : Bool
  cbside : Bool
  cbh : BitVec 4
  wait : BitVec 12
  ckw : Bool
deriving DecidableEq, Repr

/-- What a bundle's master home answers to an open request (R117): decided by this chip's own record, or by a home on
another chip, whose answer arrives from outside (log 19). -/
inductive RemoteAnswer where
  | here
  | opened (committed : BitVec 16)
  | busy
  | unreachable
  /-- The pages of the bundle on other chips break R251. -/
  | broken
  /-- A core of another chip asks a master home of this chip (R117, R253). -/
  | ask (chip : BitVec 12) (core : BitVec 9) (bid : BitVec 24)
  /-- The version that a core of another chip has open is aborted (R256). -/
  | abort (bid : BitVec 24)
deriving DecidableEq, Repr

/-- The tag of a line (R252). -/
structure LineTag where
  kind : BitVec 2
  bid : BitVec 24
  ver : BitVec 16
  seg : BitVec 6
  cmask : BitVec 64
  rver : BitVec 16
deriving DecidableEq, Repr

/-- A line of another chip as a pass of KVIEW reads it (R258): its window address, its tag, its current data, and its retained copy. -/
structure FarLine where
  addr : BitVec 64
  tag : LineTag
  cur : BitVec 1024
  old : BitVec 1024
deriving DecidableEq, Repr

/-- What other chips answer to a pass of KVIEW beside the bytes (R221, R258): the lines that it reads there, and the versions
that the master homes there have decided. -/
structure FarAnswer where
  lines : List FarLine
  decided : List (BitVec 24 × BitVec 16)
deriving DecidableEq, Repr

/-- The kinds of machine check (R374, R420 code 0x0103). -/
inductive McheckKind where
  | tag | home | phase | splice | context | asid
deriving DecidableEq, Repr

/-- What a scrub finds at a granule (R422). -/
inductive ScrubResult where
  | clean | corrected | uncorrectable
deriving DecidableEq, Repr

/-- Why Gheah orders a pre-emption (R347, R329). -/
inductive PreemptReason where
  | priority | floor | deadline | faultDomain
deriving DecidableEq, Repr

/-- A fabric packet (R395): the fields of its header slot and its data slots. -/
structure Packet where
  ptype : BitVec 4
  aux : BitVec 4
  dst : BitVec 12
  src : BitVec 12
  asid : BitVec 11
  tag : BitVec 18
  empty : Bool
  vc : Bool
  rsv1 : BitVec 5
  ofs : BitVec 36
  len : BitVec 8
  soff : BitVec 4
  eoff : BitVec 4
  rsv0 : BitVec 8
  data : List (BitVec 128)
deriving DecidableEq, Repr

/-- A steal request with the KERNID of the thief's image, its answer, or the word that the item carried back has been inserted (R352,
R353, R405 subtype 4). -/
inductive StealMsg where
  | request (src rid stage : Nat) (kernid : Dword)
  | answer (rid stage : Nat) (item : Option Dword)
  | inserted (rid stage : Nat) (item : Dword)
deriving DecidableEq, Repr

/-- What the sensors read at a telemetry refresh (R427): power in mW, die sensors and coolant in m degrees C. -/
structure TelemetrySample where
  powerMw : Dword
  dieTemp : List Dword
  inlet : Dword
  outlet : Dword
deriving DecidableEq, Repr

/-- The instructions and events of the part: one constructor per row of spec/opcode_table.json, the instructions before the
events. -/
inductive Instr where
  /-- NOP (R135). Takes a sequence number and honours its sync field, doing nothing else. -/
  | nop (m : CM)
  /-- ADD (R108). Writes gb plus gc, modulo 2^64, to ga. -/
  | add (m : CM) (a : BitVec 5) (b : BitVec 5) (c : BitVec 5)
  /-- ADD_I (R108). Writes gb plus the sign-extended 32-bit immediate to ga. -/
  | addI (m : CM) (a : BitVec 5) (b : BitVec 5) (imm : BitVec 32)
  /-- SUB (R108). Writes gb minus gc, modulo 2^64, to ga. -/
  | sub (m : CM) (a : BitVec 5) (b : BitVec 5) (c : BitVec 5)
  /-- SUB_I (R108). Writes gb minus the sign-extended immediate to ga. -/
  | subI (m : CM) (a : BitVec 5) (b : BitVec 5) (imm : BitVec 32)
  /-- AND (R108). Writes the bitwise AND of gb and gc to ga. -/
  | andG (m : CM) (a : BitVec 5) (b : BitVec 5) (c : BitVec 5)
  /-- AND_I (R108). Writes the bitwise AND of gb and the immediate to ga. -/
  | andGI (m : CM) (a : BitVec 5) (b : BitVec 5) (imm : BitVec 32)
  /-- OR (R108). Writes the bitwise OR of gb and gc to ga. -/
  | orG (m : CM) (a : BitVec 5) (b : BitVec 5) (c : BitVec 5)
  /-- OR_I (R108). Writes the bitwise OR of gb and the immediate to ga. -/
  | orGI (m : CM) (a : BitVec 5) (b : BitVec 5) (imm : BitVec 32)
  /-- XOR (R108). Writes the bitwise XOR of gb and gc to ga. -/
  | xorG (m : CM) (a : BitVec 5) (b : BitVec 5) (c : BitVec 5)
  /-- XOR_I (R108). Writes the bitwise XOR of gb and the immediate to ga. -/
  | xorGI (m : CM) (a : BitVec 5) (b : BitVec 5) (imm : BitVec 32)
  /-- ANDN (R108). Writes gb AND NOT gc to ga. -/
  | andn (m : CM) (a : BitVec 5) (b : BitVec 5) (c : BitVec 5)
  /-- ANDN_I (R108). Writes gb AND NOT the immediate to ga. -/
  | andnI (m : CM) (a : BitVec 5) (b : BitVec 5) (imm : BitVec 32)
  /-- SHL (R108). Shifts gb left by gc mod 64 into ga. -/
  | shl (m : CM) (a : BitVec 5) (b : BitVec 5) (c : BitVec 5)
  /-- SHL_I (R108). Shifts gb left by the immediate mod 64 into ga. -/
  | shlI (m : CM) (a : BitVec 5) (b : BitVec 5) (imm : BitVec 32)
  /-- SHR (R108). Shifts gb right, filling zeros, by gc mod 64 into ga. -/
  | shr (m : CM) (a : BitVec 5) (b : BitVec 5) (c : BitVec 5)
  /-- SHR_I (R108). Shifts gb right, filling zeros, by the immediate mod 64 into ga. -/
  | shrI (m : CM) (a : BitVec 5) (b : BitVec 5) (imm : BitVec 32)
  /-- SRA (R108). Shifts gb right arithmetically by gc mod 64 into ga. -/
  | sra (m : CM) (a : BitVec 5) (b : BitVec 5) (c : BitVec 5)
  /-- SRA_I (R108). Shifts gb right arithmetically by the immediate mod 64 into ga. -/
  | sraI (m : CM) (a : BitVec 5) (b : BitVec 5) (imm : BitVec 32)
  /-- ROL (R108). Rotates gb left by gc mod 64 into ga. -/
  | rol (m : CM) (a : BitVec 5) (b : BitVec 5) (c : BitVec 5)
  /-- ROL_I (R108). Rotates gb left by the immediate mod 64 into ga. -/
  | rolI (m : CM) (a : BitVec 5) (b : BitVec 5) (imm : BitVec 32)
  /-- MUL (R108). Writes the low 64 bits of gb times gc to ga after three cycles. -/
  | mul (m : CM) (a : BitVec 5) (b : BitVec 5) (c : BitVec 5)
  /-- MUL_I (R108). Writes the low 64 bits of gb times the immediate to ga. -/
  | mulI (m : CM) (a : BitVec 5) (b : BitVec 5) (imm : BitVec 32)
  /-- MULH (R108). Writes the high 64 bits of the signed product to ga. -/
  | mulh (m : CM) (a : BitVec 5) (b : BitVec 5) (c : BitVec 5)
  /-- MULHU (R108). Writes the high 64 bits of the unsigned product to ga. -/
  | mulhu (m : CM) (a : BitVec 5) (b : BitVec 5) (c : BitVec 5)
  /-- DIV (R108). Writes the signed quotient truncated towards zero to ga after twenty cycles. -/
  | div (m : CM) (a : BitVec 5) (b : BitVec 5) (c : BitVec 5)
  /-- DIVU (R108). Writes the unsigned quotient to ga. -/
  | divu (m : CM) (a : BitVec 5) (b : BitVec 5) (c : BitVec 5)
  /-- REM (R108). Writes the signed remainder with the sign of gb to ga. -/
  | rem (m : CM) (a : BitVec 5) (b : BitVec 5) (c : BitVec 5)
  /-- REMU (R108). Writes the unsigned remainder to ga. -/
  | remu (m : CM) (a : BitVec 5) (b : BitVec 5) (c : BitVec 5)
  /-- MIN (R108). Writes the signed minimum of gb and gc to ga. -/
  | min (m : CM) (a : BitVec 5) (b : BitVec 5) (c : BitVec 5)
  /-- MIN_I (R108). Writes the signed minimum of gb and the immediate to ga. -/
  | minI (m : CM) (a : BitVec 5) (b : BitVec 5) (imm : BitVec 32)
  /-- MAX (R108). Writes the signed maximum of gb and gc to ga. -/
  | max (m : CM) (a : BitVec 5) (b : BitVec 5) (c : BitVec 5)
  /-- MAX_I (R108). Writes the signed maximum of gb and the immediate to ga. -/
  | maxI (m : CM) (a : BitVec 5) (b : BitVec 5) (imm : BitVec 32)
  /-- MINU (R108). Writes the unsigned minimum of gb and gc to ga. -/
  | minu (m : CM) (a : BitVec 5) (b : BitVec 5) (c : BitVec 5)
  /-- MINU_I (R108). Writes the unsigned minimum of gb and the sign-extended immediate to ga. -/
  | minuI (m : CM) (a : BitVec 5) (b : BitVec 5) (imm : BitVec 32)
  /-- MAXU (R108). Writes the unsigned maximum of gb and gc to ga. -/
  | maxu (m : CM) (a : BitVec 5) (b : BitVec 5) (c : BitVec 5)
  /-- MAXU_I (R108). Writes the unsigned maximum of gb and the sign-extended immediate to ga. -/
  | maxuI (m : CM) (a : BitVec 5) (b : BitVec 5) (imm : BitVec 32)
  /-- CLZ (R108). Writes the number of leading zero bits of gb to ga. -/
  | clz (m : CM) (a : BitVec 5) (b : BitVec 5)
  /-- POPC (R108). Writes the number of one bits of gb to ga. -/
  | popc (m : CM) (a : BitVec 5) (b : BitVec 5)
  /-- SEXT (R108). Sign-extends the low 8, 16 or 32 bits of gb into ga. -/
  | sext (m : CM) (a : BitVec 5) (b : BitVec 5) (w : BitVec 2)
  /-- ZEXT (R108). Zero-extends the low 8, 16 or 32 bits of gb into ga. -/
  | zext (m : CM) (a : BitVec 5) (b : BitVec 5) (w : BitVec 2)
  /-- CMPEQ (R108). Writes 1 to ga if gb equals gc, else 0. -/
  | cmpeq (m : CM) (a : BitVec 5) (b : BitVec 5) (c : BitVec 5)
  /-- CMPEQ_I (R108). Writes 1 to ga if gb equals the immediate, else 0. -/
  | cmpeqI (m : CM) (a : BitVec 5) (b : BitVec 5) (imm : BitVec 32)
  /-- CMPLT (R108). Writes 1 to ga if gb is below gc as signed values, else 0. -/
  | cmplt (m : CM) (a : BitVec 5) (b : BitVec 5) (c : BitVec 5)
  /-- CMPLT_I (R108). Writes 1 to ga if gb is below the immediate as signed values, else 0. -/
  | cmpltI (m : CM) (a : BitVec 5) (b : BitVec 5) (imm : BitVec 32)
  /-- CMPLTU (R108). Writes 1 to ga if gb is below gc as unsigned values, else 0. -/
  | cmpltu (m : CM) (a : BitVec 5) (b : BitVec 5) (c : BitVec 5)
  /-- CMPLTU_I (R108). Writes 1 to ga if gb is below the immediate as unsigned values, else 0. -/
  | cmpltuI (m : CM) (a : BitVec 5) (b : BitVec 5) (imm : BitVec 32)
  /-- SEL (R108). Writes gb to ga if the old ga is nonzero, otherwise gc. -/
  | sel (m : CM) (a : BitVec 5) (b : BitVec 5) (c : BitVec 5)
  /-- LI (R109). Loads a sign-extended 32-bit immediate into ga, in the two-word form. -/
  | li (m : CM) (a : BitVec 5) (imm : BitVec 32)
  /-- LI_WIDE (R109). Loads a 64-bit immediate into ga, in the four-word form. -/
  | liWide (m : CM) (a : BitVec 5) (lo : BitVec 32) (hi : BitVec 32)
  /-- LIH (R109). Replaces the upper 32 bits of ga with word 1. -/
  | lih (m : CM) (a : BitVec 5) (imm : BitVec 32)
  /-- LEA (R109). Writes gb plus gc shifted by SH plus a signed displacement to ga. -/
  | lea (m : CM) (a : BitVec 5) (b : BitVec 5) (c : BitVec 5) (sh : BitVec 3) (disp : BitVec 29)
  /-- DSET (R110). Writes gb into one 64-bit quarter of a tile descriptor. -/
  | dset (m : CM) (d : BitVec 4) (b : BitVec 5) (qtr : BitVec 2)
  /-- LD8 (R111). Loads one byte, zero-extended, into ga. -/
  | ld8 (m : CM) (a : BitVec 5) (b : BitVec 5)
  /-- LD8_DISP (R111). Loads one byte, zero-extended, at gb plus a 32-bit displacement. -/
  | ld8Disp (m : CM) (a : BitVec 5) (b : BitVec 5) (disp : BitVec 32)
  /-- LD8S (R111). Loads one byte, sign-extended, into ga. -/
  | ld8s (m : CM) (a : BitVec 5) (b : BitVec 5)
  /-- LD8S_DISP (R111). Loads one byte, sign-extended, at gb plus a displacement. -/
  | ld8sDisp (m : CM) (a : BitVec 5) (b : BitVec 5) (disp : BitVec 32)
  /-- LD16 (R111). Loads two bytes, zero-extended, into ga. -/
  | ld16 (m : CM) (a : BitVec 5) (b : BitVec 5)
  /-- LD16_DISP (R111). Loads two bytes, zero-extended, at gb plus a displacement. -/
  | ld16Disp (m : CM) (a : BitVec 5) (b : BitVec 5) (disp : BitVec 32)
  /-- LD16S (R111). Loads two bytes, sign-extended, into ga. -/
  | ld16s (m : CM) (a : BitVec 5) (b : BitVec 5)
  /-- LD16S_DISP (R111). Loads two bytes, sign-extended, at gb plus a displacement. -/
  | ld16sDisp (m : CM) (a : BitVec 5) (b : BitVec 5) (disp : BitVec 32)
  /-- LD32 (R111). Loads four bytes, zero-extended, into ga. -/
  | ld32 (m : CM) (a : BitVec 5) (b : BitVec 5)
  /-- LD32_DISP (R111). Loads four bytes, zero-extended, at gb plus a displacement. -/
  | ld32Disp (m : CM) (a : BitVec 5) (b : BitVec 5) (disp : BitVec 32)
  /-- LD32S (R111). Loads four bytes, sign-extended, into ga. -/
  | ld32s (m : CM) (a : BitVec 5) (b : BitVec 5)
  /-- LD32S_DISP (R111). Loads four bytes, sign-extended, at gb plus a displacement. -/
  | ld32sDisp (m : CM) (a : BitVec 5) (b : BitVec 5) (disp : BitVec 32)
  /-- LD64 (R111). Loads eight bytes into ga. -/
  | ld64 (m : CM) (a : BitVec 5) (b : BitVec 5)
  /-- LD64_DISP (R111). Loads eight bytes at gb plus a displacement. -/
  | ld64Disp (m : CM) (a : BitVec 5) (b : BitVec 5) (disp : BitVec 32)
  /-- PREF (R111). Brings the line at gb into the data cache, never faulting. -/
  | pref (m : CM) (b : BitVec 5)
  /-- PREF_DISP (R111). Prefetches the line at gb plus a displacement. -/
  | prefDisp (m : CM) (b : BitVec 5) (disp : BitVec 32)
  /-- ST8 (R111). Stores the low byte of gc at gb. -/
  | st8 (m : CM) (b : BitVec 5) (c : BitVec 5)
  /-- ST8_DISP (R111). Stores the low byte of gc at gb plus a displacement. -/
  | st8Disp (m : CM) (b : BitVec 5) (c : BitVec 5) (disp : BitVec 32)
  /-- ST16 (R111). Stores the low two bytes of gc at gb. -/
  | st16 (m : CM) (b : BitVec 5) (c : BitVec 5)
  /-- ST16_DISP (R111). Stores the low two bytes of gc at gb plus a displacement. -/
  | st16Disp (m : CM) (b : BitVec 5) (c : BitVec 5) (disp : BitVec 32)
  /-- ST32 (R111). Stores the low four bytes of gc at gb. -/
  | st32 (m : CM) (b : BitVec 5) (c : BitVec 5)
  /-- ST32_DISP (R111). Stores the low four bytes of gc at gb plus a displacement. -/
  | st32Disp (m : CM) (b : BitVec 5) (c : BitVec 5) (disp : BitVec 32)
  /-- ST64 (R111). Stores gc at gb. -/
  | st64 (m : CM) (b : BitVec 5) (c : BitVec 5)
  /-- ST64_DISP (R111). Stores gc at gb plus a displacement. -/
  | st64Disp (m : CM) (b : BitVec 5) (c : BitVec 5) (disp : BitVec 32)
  /-- AADD (R113). Atomically adds gc to a doubleword and returns the old value in ga. -/
  | aadd (m : CM) (a : BitVec 5) (b : BitVec 5) (c : BitVec 5) (disp : BitVec 24) (scope : BitVec 3)
  /-- AAND (R113). Atomically ANDs gc into a doubleword and returns the old value. -/
  | aand (m : CM) (a : BitVec 5) (b : BitVec 5) (c : BitVec 5) (disp : BitVec 24) (scope : BitVec 3)
  /-- AOR (R113). Atomically ORs gc into a doubleword and returns the old value. -/
  | aor (m : CM) (a : BitVec 5) (b : BitVec 5) (c : BitVec 5) (disp : BitVec 24) (scope : BitVec 3)
  /-- AXOR (R113). Atomically XORs gc into a doubleword and returns the old value. -/
  | axor (m : CM) (a : BitVec 5) (b : BitVec 5) (c : BitVec 5) (disp : BitVec 24) (scope : BitVec 3)
  /-- AMIN (R113). Atomically stores the signed minimum and returns the old value. -/
  | amin (m : CM) (a : BitVec 5) (b : BitVec 5) (c : BitVec 5) (disp : BitVec 24) (scope : BitVec 3)
  /-- AMAX (R113). Atomically stores the signed maximum and returns the old value. -/
  | amax (m : CM) (a : BitVec 5) (b : BitVec 5) (c : BitVec 5) (disp : BitVec 24) (scope : BitVec 3)
  /-- AMINU (R113). Atomically stores the unsigned minimum and returns the old value. -/
  | aminu (m : CM) (a : BitVec 5) (b : BitVec 5) (c : BitVec 5) (disp : BitVec 24) (scope : BitVec 3)
  /-- AMAXU (R113). Atomically stores the unsigned maximum and returns the old value. -/
  | amaxu (m : CM) (a : BitVec 5) (b : BitVec 5) (c : BitVec 5) (disp : BitVec 24) (scope : BitVec 3)
  /-- ASWAP (R113). Atomically swaps gc into a doubleword and returns the old value. -/
  | aswap (m : CM) (a : BitVec 5) (b : BitVec 5) (c : BitVec 5) (disp : BitVec 24) (scope : BitVec 3)
  /-- ACAS (R113). Atomically stores gc if the doubleword equals ga, and returns the old value. -/
  | acas (m : CM) (a : BitVec 5) (b : BitVec 5) (c : BitVec 5) (disp : BitVec 24) (scope : BitVec 3)
  /-- FENCE (R114). Blocks until earlier control accesses are performed within the scope, then joins the fence order. -/
  | fence (m : CM) (scope : BitVec 3)
  /-- XFENCE (R115). Blocks until the accesses of its FROM path classes are visible to its TO classes at its scope. -/
  | xfence (m : CM) (scope : BitVec 3) (src : BitVec 7) (dst : BitVec 7)
  /-- PHASE (R116). Waits for PHASED stores to reach the pending store, then arrives at the core's phase group. -/
  | phase (m : CM)
  /-- BOPEN (R117). Sends an open request for the next version of a bundle to its master home. -/
  | bopen (m : CM) (a : BitVec 5) (b : BitVec 5)
  /-- BSEAL (R118). Stops the open version taking stores and announces line counts and the mask to the homes. -/
  | bseal (m : CM) (a : BitVec 5)
  /-- BABORT (R119). Stops the open version, waits for its stores and restores the retained version everywhere. -/
  | babort (m : CM)
  /-- PBR (R120). Writes a 28-bit branch target from word 1 into bN. -/
  | pbr (m : CM) (n : BitVec 3) (target : BitVec 28)
  /-- PBRR (R120). Writes gb[27:0] into bN. -/
  | pbrr (m : CM) (n : BitVec 3) (b : BitVec 5)
  /-- BR (R120). Branches to bN if gb meets the condition, killing squashable instructions in flight. -/
  | br (m : CM) (n : BitVec 3) (b : BitVec 5) (cond : BitVec 2)
  /-- BRA (R120). Branches unconditionally to bN. -/
  | bra (m : CM) (n : BitVec 3)
  /-- CALL (R122). Branches to bN and writes the return value to g31. -/
  | call (m : CM) (n : BitVec 3)
  /-- FORK (R123). Starts the streams of MASK, the lowest at LINE and the others from their steer queues. -/
  | fork (m : CM) (line : BitVec 24) (mask : BitVec 4)
  /-- RDV (R124). Blocks until every stream of MASK is ENDED or IDLE, then moves the ENDED ones to IDLE. -/
  | rdv (m : CM) (mask : BitVec 4)
  /-- STEER (R125). Appends the line index in gb to an engine stream's steer queue. -/
  | steer (m : CM) (e : BitVec 2) (b : BitVec 5)
  /-- STEER_IMM (R125). Appends the line index in word 1 to an engine stream's steer queue. -/
  | steerImm (m : CM) (e : BitVec 2) (line : BitVec 24)
  /-- EARG (R125). Writes gb into a p register of an engine stream. -/
  | earg (m : CM) (e : BitVec 2) (b : BitVec 5) (n : BitVec 4)
  /-- WAITCC (R125). Blocks until a completion counter is at or below a value. -/
  | waitcc (m : CM) (n : BitVec 3) (value : BitVec 8)
  /-- CBSET (R126). Waits for instructions naming the handle, then configures or releases a circular buffer. -/
  | cbset (m : CM) (h : BitVec 4) (f : CbsetF)
  /-- CBWAIT (R127). Blocks until a handle's filled or free count reaches gc. -/
  | cbwait (m : CM) (h : BitVec 4) (role : Bool) (c : BitVec 5)
  /-- CBADV (R127). Adds gc to a handle's HEAD or TAIL. -/
  | cbadv (m : CM) (h : BitVec 4) (role : Bool) (c : BitVec 5)
  /-- ITEM (R128). Takes the next item from the stage input queue, writing its record address or 0 when closed and empty. -/
  | item (m : CM) (a : BitVec 5)
  /-- EMIT (R129). Hands an item to the stage's output queue, the completion queue or a chained door. -/
  | emit (m : CM) (a : BitVec 5) (b : BitVec 5)
  /-- YIELD (R130). Offers the core to the scheduler, with no effect if the core is not moved. -/
  | yield (m : CM)
  /-- MFS (R131). Reads a special register into ga. -/
  | mfs (m : CM) (a : BitVec 5) (n : BitVec 8)
  /-- MTS (R131). Writes gsrc to a special register field by field, including VBANK transitions and SEED. -/
  | mts (m : CM) (a : BitVec 5) (n : BitVec 8)
  /-- TRAP (R132). Raises a SOFTWARE trap with the code in FADDR. -/
  | trap (m : CM) (code : BitVec 10)
  /-- TRET (R133). Checks SSTAT and the frame, restores g and b, and resumes every stream from the fault frame. -/
  | tret (m : CM)
  /-- END (R134). Moves the control stream to ENDED; at S it abandons the operator. -/
  | endOp (m : CM)
  /-- HINT (R48). A one-word hint in any stream honours its sync field and does nothing else. -/
  | hint (y : Sync) (op : BitVec 4) (opnd : BitVec 16)
  /-- HINT_LONG (R48). A two- or four-word hint honours its sync field and does nothing else. -/
  | hintLong (y : Sync) (op : BitVec 4) (opnd : BitVec 16) (ext : HintExt)
  /-- WCFG (R175). Sets the walker configuration: mode, overflow, pre-check, ring handle, lag and skip threshold. -/
  | wcfg (y : Sync) (f : WcfgF)
  /-- WBMAP (R176). Walks a CBF-B A tile against B and emits matched pairs or list records. -/
  | wbmap (y : Sync) (f : WalkF)
  /-- WCOORD (R176). Walks a CBF-C A tile against B and emits matched pairs or list records. -/
  | wcoord (y : Sync) (f : WalkF)
  /-- WDENSE (R176). Walks a dense A tile against B and emits a pair for every non-empty B row. -/
  | wdense (y : Sync) (f : WalkF)
  /-- WMARK (R179). Sets the walk window to 128 A rows starting at w.pP with bits [6:0] cleared. -/
  | wmark (y : Sync) (p : BitVec 4)
  /-- MLEASE (R186). Asks for the cluster's array for a run of n array commands. -/
  | mlease (y : Sync) (n1 : BitVec 4)
  /-- MREL (R186). Releases the lease. -/
  | mrel (y : Sync)
  /-- MCFG (R187). Sets a tile's mode, anchor and A and B tags after checking the format pair. -/
  | mcfg (y : Sync) (f : McfgF)
  /-- MZERO (R188). Clears the value bits and flags of every cell of a tile. -/
  | mzero (y : Sync) (z : BitVec 1)
  /-- MLDS (R189). Loads a stationary plane from source rows, two-word form. -/
  | mlds (y : Sync) (f : MldsF)
  /-- MLDS_LONG (R189). Loads a stationary plane with a step and ring or counter options, four-word form. -/
  | mldsLong (y : Sync) (f : MldsF) (x : LongF)
  /-- MSWAP (R191). Exchanges planes w0 and w1 after any running MLDS completes. -/
  | mswap (y : Sync)
  /-- MSTR (R192). Streams dense A rows through the array into tile rows. -/
  | mstr (y : Sync) (f : MstrF) (x : LongF)
  /-- MCONV (R194). Streams output pixels of an implicit convolution window through the array. -/
  | mconv (y : Sync) (f : MconvF)
  /-- MSPR (R196). Meets a walk and applies every matched pair's products to tile cells. -/
  | mspr (y : Sync) (f : MsprF)
  /-- MDRN (R199). Drains tile rows to memory, two-word form. -/
  | mdrn (y : Sync) (f : MdrnF)
  /-- MDRN_LONG (R199). Drains tile rows with a step and ring or counter options, four-word form. -/
  | mdrnLong (y : Sync) (f : MdrnF) (x : LongF)
  /-- VRD (R149). Appends a read run of step 256 to an operand queue, two-word form. -/
  | vrd (y : Sync) (f : VrdF)
  /-- VRD_LONG (R149). Appends a read run with step, ring or counter options, four-word form. -/
  | vrdLong (y : Sync) (f : VrdF) (x : LongF)
  /-- VWR (R152). Converts source segments and writes them to memory, two-word form. -/
  | vwr (y : Sync) (f : VwrF)
  /-- VWR_LONG (R152). Writes converted segments with a step and ring or counter options, four-word form. -/
  | vwrLong (y : Sync) (f : VwrF) (x : LongF)
  /-- VGATH (R154). Gathers elements through an index stream into segments. -/
  | vgath (y : Sync) (f : VgathF)
  /-- VSCAT (R154). Scatters data elements to addresses from an index stream. -/
  | vscat (y : Sync) (f : VscatF)
  /-- VMOV (R156). Pushes a copy of a segment, one-word form. -/
  | vmov (y : Sync) (f : V1F)
  /-- VMOV_V2 (R156). Copies segments over several iterations, two-word form. -/
  | vmovV2 (y : Sync) (f : V2F)
  /-- VSPLAT (R157). Pushes a segment with every element set to an immediate pattern. -/
  | vsplat (y : Sync) (f : VsplatF)
  /-- VADD (R158). Adds two segments element by element, one-word form. -/
  | vadd (y : Sync) (f : V1F)
  /-- VADD_V2 (R158). Adds segments element by element over iterations, two-word form. -/
  | vaddV2 (y : Sync) (f : V2F)
  /-- VSUB (R158). Subtracts segments element by element, one-word form. -/
  | vsub (y : Sync) (f : V1F)
  /-- VSUB_V2 (R158). Subtracts segments over iterations, two-word form. -/
  | vsubV2 (y : Sync) (f : V2F)
  /-- VMUL (R158). Multiplies segments element by element, one-word form. -/
  | vmul (y : Sync) (f : V1F)
  /-- VMUL_V2 (R158). Multiplies segments over iterations, two-word form. -/
  | vmulV2 (y : Sync) (f : V2F)
  /-- VFMA (R158). Computes a times b plus h0 with one rounding, one-word form. -/
  | vfma (y : Sync) (f : V1F)
  /-- VFMA_V2 (R158). Computes a times b plus c with one rounding over iterations, two-word form. -/
  | vfmaV2 (y : Sync) (f : V2F)
  /-- VMIN (R158). Takes the element-wise minimum, one-word form. -/
  | vmin (y : Sync) (f : V1F)
  /-- VMIN_V2 (R158). Takes the element-wise minimum over iterations, two-word form. -/
  | vminV2 (y : Sync) (f : V2F)
  /-- VMAX (R158). Takes the element-wise maximum, one-word form. -/
  | vmax (y : Sync) (f : V1F)
  /-- VMAX_V2 (R158). Takes the element-wise maximum over iterations, two-word form. -/
  | vmaxV2 (y : Sync) (f : V2F)
  /-- VABS (R158). Takes the element-wise absolute value, one-word form. -/
  | vabs (y : Sync) (f : V1F)
  /-- VABS_V2 (R158). Takes absolute values over iterations, two-word form. -/
  | vabsV2 (y : Sync) (f : V2F)
  /-- VNEG (R158). Negates elements, one-word form. -/
  | vneg (y : Sync) (f : V1F)
  /-- VNEG_V2 (R158). Negates elements over iterations, two-word form. -/
  | vnegV2 (y : Sync) (f : V2F)
  /-- VAND (R159). Bitwise AND of two segments, one-word form. -/
  | vand (y : Sync) (f : V1F)
  /-- VAND_V2 (R159). Bitwise AND over iterations, two-word form. -/
  | vandV2 (y : Sync) (f : V2F)
  /-- VOR (R159). Bitwise OR of two segments, one-word form. -/
  | vor (y : Sync) (f : V1F)
  /-- VOR_V2 (R159). Bitwise OR over iterations, two-word form. -/
  | vorV2 (y : Sync) (f : V2F)
  /-- VXOR (R159). Bitwise XOR of two segments, one-word form. -/
  | vxor (y : Sync) (f : V1F)
  /-- VXOR_V2 (R159). Bitwise XOR over iterations, two-word form. -/
  | vxorV2 (y : Sync) (f : V2F)
  /-- VSHL (R159). Shifts integer elements left, one-word form. -/
  | vshl (y : Sync) (f : V1F)
  /-- VSHL_V2 (R159). Shifts integer elements left over iterations, two-word form. -/
  | vshlV2 (y : Sync) (f : V2F)
  /-- VSHR (R159). Shifts integer elements right filling zeros, one-word form. -/
  | vshr (y : Sync) (f : V1F)
  /-- VSHR_V2 (R159). Shifts right filling zeros over iterations, two-word form. -/
  | vshrV2 (y : Sync) (f : V2F)
  /-- VSRA (R159). Shifts integer elements right arithmetically, one-word form. -/
  | vsra (y : Sync) (f : V1F)
  /-- VSRA_V2 (R159). Shifts right arithmetically over iterations, two-word form. -/
  | vsraV2 (y : Sync) (f : V2F)
  /-- VCMP (R160). Compares elements under a condition and pushes a mask, one-word form. -/
  | vcmp (y : Sync) (f : V1F)
  /-- VCMP_V2 (R160). Compares elements over iterations, two-word form. -/
  | vcmpV2 (y : Sync) (f : V2F)
  /-- VSEL (R161). Selects elements of A or B by the mask in h0, one-word form. -/
  | vsel (y : Sync) (f : V1F)
  /-- VSEL_V2 (R161). Selects elements by a mask over iterations, two-word form. -/
  | vselV2 (y : Sync) (f : V2F)
  /-- VCLMP (R162). Clamps elements between two bounds. -/
  | vclmp (y : Sync) (f : V2F)
  /-- VCVT (R163). Converts an element stream to a target tag under RNE, one-word form. -/
  | vcvt (y : Sync) (f : Vcvt1F)
  /-- VCVT_V2 (R163). Converts an element stream with rounding and saturation options, two-word form. -/
  | vcvtV2 (y : Sync) (f : Vcvt2F)
  /-- VQNT (R165). Quantises FP elements into block-scaled or QN4 segments with computed scales. -/
  | vqnt (y : Sync) (f : VqntF)
  /-- VRCP (R166). Computes correctly rounded reciprocals, one-word form. -/
  | vrcp (y : Sync) (f : V1F)
  /-- VRCP_V2 (R166). Computes reciprocals over iterations, two-word form. -/
  | vrcpV2 (y : Sync) (f : V2F)
  /-- VRSQ (R166). Computes correctly rounded reciprocal square roots, one-word form. -/
  | vrsq (y : Sync) (f : V1F)
  /-- VRSQ_V2 (R166). Computes reciprocal square roots over iterations, two-word form. -/
  | vrsqV2 (y : Sync) (f : V2F)
  /-- VEXP2 (R166). Computes correctly rounded powers of two, one-word form. -/
  | vexp2 (y : Sync) (f : V1F)
  /-- VEXP2_V2 (R166). Computes powers of two over iterations, two-word form. -/
  | vexp2V2 (y : Sync) (f : V2F)
  /-- VLOG2 (R166). Computes correctly rounded base-2 logarithms, one-word form. -/
  | vlog2 (y : Sync) (f : V1F)
  /-- VLOG2_V2 (R166). Computes base-2 logarithms over iterations, two-word form. -/
  | vlog2V2 (y : Sync) (f : V2F)
  /-- VRED (R167). Reduces a segment by sum, min or max in a fixed tree, one-word form. -/
  | vred (y : Sync) (f : V1F)
  /-- VRED_V2 (R167). Reduces segments over iterations, carrying through h0, two-word form. -/
  | vredV2 (y : Sync) (f : V2F)
  /-- VSCAN (R168). Computes an inclusive scan of a segment, one-word form. -/
  | vscan (y : Sync) (f : V1F)
  /-- VSCAN_V2 (R168). Computes inclusive scans over iterations, two-word form. -/
  | vscanV2 (y : Sync) (f : V2F)
  /-- VPART (R169). Partitions elements by a mask and pushes the data and the counts. -/
  | vpart (y : Sync) (f : V2F)
  /-- VIOTA (R170). Pushes for each element the number of true mask elements below it. -/
  | viota (y : Sync) (f : V1F)
  /-- VSHUF (R171). Permutes elements of A by the indices in B, one-word form. -/
  | vshuf (y : Sync) (f : V1F)
  /-- VSHUF_V2 (R171). Permutes elements over iterations, two-word form. -/
  | vshufV2 (y : Sync) (f : V2F)
  /-- VPACK (R172). Packs the true elements of A to the front. -/
  | vpack (y : Sync) (f : V2F)
  /-- VUNPK (R172). Unpacks consecutive elements of A into the true positions, others from C. -/
  | vunpk (y : Sync) (f : V2F)
  /-- KCOPY (R212). Copies or converts flat byte ranges, iteration by iteration, in chunks. -/
  | kcopy (y : Sync) (f : KF)
  /-- K2D (R213). Copies or converts rows of elements between tiles. -/
  | k2d (y : Sync) (f : KF)
  /-- KGATH (R214). Copies source rows chosen by an index tile to consecutive destination rows. -/
  | kgath (y : Sync) (f : KF)
  /-- KSCAT (R214). Copies consecutive source rows to destination rows chosen by an index tile. -/
  | kscat (y : Sync) (f : KF)
  /-- KFILL (R215). Fills destination row elements with a pattern. -/
  | kfill (y : Sync) (f : KF)
  /-- KPF (R216). Translates and prefetches the pages a K2D would read, never faulting. -/
  | kpf (y : Sync) (f : KF)
  /-- KENC (R218). Encodes a dense tile into a compressed tile, writing the header last. -/
  | kenc (y : Sync) (f : KF)
  /-- KDEC (R219). Decodes directory blocks of a compressed tile into a dense tile. -/
  | kdec (y : Sync) (f : KF)
  /-- KTAB (R220). Checks a table image and replaces a resident Huffman table at completion. -/
  | ktab (y : Sync) (f : KF)
  /-- KVIEW (R221). Copies a list of ranges taking each bundle whole at one version, then writes a report. -/
  | kview (y : Sync) (f : KF)
  /-- KIMG (R222). Hands a page file to a page decoder, which writes a normalised patch record. -/
  | kimg (y : Sync) (f : KF)
  /-- PHASE_COMMIT (R249). When ARRIVED equals MEMBERS the group commits every pending byte, counts conflicts and advances GPHN. -/
  | phaseCommit (g : Nat)
  /-- BOPEN_ANSWER (R117). The master home answers an open request, opening the version or returning 2^63. -/
  | bopenAnswer (answer : RemoteAnswer)
  /-- HOME_COMMIT (R255). A home sets COMMITTED to the pending version, goes IDLE and frees its retained copies. -/
  | homeCommit (bid : BitVec 24) (seg : Nat)
  /-- LEASE_GRANT (R186). Eight cycles after a lease ends, the array is granted to the next asking core in round-robin order. -/
  | leaseGrant (cl : Nat)
  /-- POWER_TOKEN_TAKE (R291). A waiting array command takes a free power token as it reaches its cluster on the ring. -/
  | powerTokenTake (cl : Nat)
  /-- READ_RUN_PLACE (R148). A read run places one segment or decoded block into its q when there is room. -/
  | readRunPlace (q : Nat)
  /-- KVIEW_PASS (R258). One read pass, master query and reread of KVIEW, repeated until the tags are stable. -/
  | kviewPass
  /-- PAGE_DECODER_ASSIGN (R302). A waiting KIMG is served by the lower-numbered page decoder of its die when one is free. -/
  | pageDecoderAssign (die : Nat)
  /-- LINE_FETCH (R17). A stream fetches its next line, from NEXT, its steer queue or a branch target, and checks the link word. -/
  | lineFetch (st : StreamId)
  /-- RETIRING_PUSH (R21). A retiring push held by a full token FIFO completes when the count falls. -/
  | retiringPush (st : StreamId)
  /-- HANG_TIMEOUT (R134). A stream in RUN without progress for more than HANGLIM cycles raises HANG. -/
  | hangTimeout (st : StreamId)
  /-- BANK_WAKE_DONE (R36). A vector bank in RETAIN becomes ON 96 cycles after it is named or written ON. -/
  | bankWakeDone (bank : Nat)
  /-- BANK_GATED_EXIT (R37). A bank leaving GATED becomes usable, or enters RETAIN, 256 cycles after the write. -/
  | bankGatedExit (bank : Nat)
  /-- BANK_ENTER_RETAIN (R37). A bank taken out of ON makes its transition once no issued vector instruction names it. -/
  | bankEnterRetain (bank : Nat)
  /-- FENCE_COMPLETE (R114). A blocked FENCE completes once its accesses are performed, applying its cache action or PEERLOST handling. -/
  | fenceComplete
  /-- XFENCE_COMPLETE (R115). A blocked XFENCE completes when its A set is visible, invalidating control cache lines if c is in TO. -/
  | xfenceComplete
  /-- BSEAL_COMPLETE (R118). BSEAL writes 0 when every home has committed, or 1 after an abort, and clears BOPENID. -/
  | bsealComplete
  /-- BUNDLED_STORE_LAND (R254). A store under an open version lands at its home, saving the retained copy and updating the tag and NLAND. -/
  | bundledStoreLand
  /-- HOME_LOST (R255). Loss of a home aborts an undecided version, or is only reported after DECIDED. -/
  | homeLost (bid : BitVec 24) (seg : Nat)
  /-- RDV_COMPLETE (R124). A waiting RDV completes when its streams are ENDED or IDLE, emptying their steer queues. -/
  | rdvComplete
  /-- STEER_APPEND (R20). A STEER stalled on a full queue appends its entry when an entry frees. -/
  | steerAppend
  /-- WAITCC_COMPLETE (R125). A waiting WAITCC completes when the counter, at the end of a cycle, is at or below its value. -/
  | waitccComplete
  /-- CBSET_COMPLETE (R126). A waiting CBSET sets or releases the handle once earlier instructions naming it have completed. -/
  | cbsetComplete
  /-- CBWAIT_COMPLETE (R127). A waiting CBWAIT completes when its count is reached. -/
  | cbwaitComplete
  /-- ITEM_RETURN (R128). A waiting ITEM returns an item once one is inserted, or 0 when the input closes empty. -/
  | itemReturn
  /-- EMIT_ACCEPT (R129). A waiting EMIT is accepted or refused once its queue has room. -/
  | emitAccept
  /-- WALK_MSPR_MEET (R176). An array-mode walk and an MSPR holding the lease issue together after checking descriptors and tags. -/
  | walkMsprMeet
  /-- ROUND_PREPARE (R182). The walker reads and checks the metadata of a round before emitting it, raising faults it finds. -/
  | roundPrepare
  /-- FLOW_STEP (R280). One step of the sparse flow runs its completion, start and emission phases. -/
  | flowStep
  /-- FLOW_END (R283). The MSPR retires once every pair is done and every product applied. -/
  | flowEnd
  /-- LIST_RECORD_WRITE (R183). A list-mode walk writes pair records to the ring, waiting for free slots and advancing HEAD. -/
  | listRecordWrite
  /-- MLDS_COLUMN (R190). The plane-load unit loads one column once its data arrives. -/
  | mldsColumn
  /-- ROW_STEP (R193). A dense row step or pixel forms its products and applies one addend to each of its 256 cells. -/
  | rowStep
  /-- ARRAY_COMMAND_COMPLETE (R203). An array command completes, counts towards the lease and returns its power token. -/
  | arrayCommandComplete
  /-- MDRN_ROW (R200). One tile row is converted by round_sat and written, or raises POISON. -/
  | mdrnRow
  /-- VECTOR_ITERATION (R143). One iteration of a vector instruction checks, reads its operands and pushes its result. -/
  | vectorIteration
  /-- VECTOR_WRITES_LANDED (R142). A VWR or VSCAT retires when its writes have landed, making its push. -/
  | vectorWritesLanded
  /-- PATCH_ROW_WRITE (R306). The page decoder writes one patch row of area-averaged, normalised samples. -/
  | patchRowWrite
  /-- COPY_UNIT (R205). A copy transfer completes one unit: reads, checks, writes and chain updates. -/
  | copyUnit
  /-- TRANSFER_COMPLETE (R205). A transfer whose writes have all landed completes, decrements its counter and pushes. -/
  | transferComplete
  /-- EXPOSED_RESULT_WRITE (R104). An exposed instruction's result lands in its register at the end of its last cycle in flight. -/
  | exposedResultWrite
  /-- INTERLOCKED_VALUE_ARRIVE (R104). A load, atomic, MFS, BOPEN or BSEAL value arrives and is written, releasing dependent instructions. -/
  | interlockedValueArrive
  /-- OPERATOR_RETIRE (R134). The operator retires when every stream is ENDED or IDLE, every counter is 0 and nothing is in flight. -/
  | operatorRetire
  /-- LAUNCH_BANK_SWAP_IN (R340). The shadow launch bank swaps in, clearing domain state if the ASID changes and starting the control stream. -/
  | launchBankSwapIn
  /-- PREEMPT_REQUEST (R375). A pre-emption order sets PEND, stops issue and drains in-flight work towards a cut. -/
  | preemptRequest
  /-- CONTEXT_SAVE (R375). After the drain the cut is taken and the copy engine writes the context, then the core reports saved. -/
  | contextSave
  /-- MACHINE_CHECK (R374). An uncorrectable error no instruction owns stops the core without saving and stops its fault domain. -/
  | machineCheck (kind : McheckKind) (pa : Nat)
  /-- POOL_STORE_RESUME (R259). A store waiting for a retention copy proceeds when a copy is freed. -/
  | poolStoreResume
  /-- REPLICA_LOCK (R261). A replicated store locks the line in every replica in order, then writes and unlocks each. -/
  | replicaLock
  /-- SCRUB (R422). Periodic scrubbing reads every line, rewriting correctable errors and reporting uncorrectable ones. -/
  | scrub (pa : Nat) (found : ScrubResult)
  /-- KICK_WRITE (R356). A write to a queue's kick register advances PROD only if it is ahead, and prompts a QCB read. -/
  | kickWrite (fn : Nat) (q : Nat) (v : BitVec 64)
  /-- QCB_REREAD (R355). 1,024 cycles after an inconsistent QCB read the service core reads the block again. -/
  | qcbReread (fn : Nat) (q : Nat)
  /-- SUBMIT (R350). Host command that admits an item at the region's door or refuses it FULL. -/
  | submit (fn : Nat) (q : Nat)
  /-- TRIGGER (R357). Host command that writes a value to the region's trigger word. -/
  | trigger (fn : Nat) (q : Nat)
  /-- CLOSE (R335). Host command that closes stage 0's input. -/
  | close (fn : Nat) (q : Nat)
  /-- REGION_ADD (R327). Host command that admits a region after checking its RCB and budgets. -/
  | regionAdd (fn : Nat) (q : Nat)
  /-- REGION_REMOVE (R328). Host command that closes, drains and removes a region and its children. -/
  | regionRemove (fn : Nat) (q : Nat)
  /-- DLT_SET (R349). Host command that sets one deadline class's DUE and DEADLINE. -/
  | dltSet (fn : Nat) (q : Nat)
  /-- BADCMD (R357). A command with an unknown OP completes with status BADCMD. -/
  | badcmd (fn : Nat) (q : Nat)
  /-- COMPLETION_WRITE (R358). A command's completion is written to the completion ring, waiting for a freed entry, then MSI-X is sent. -/
  | completionWrite (fn : Nat) (q : Nat)
  /-- COMPLETION_CONSUMER_WRITE (R358). The driver writes a consumer index that frees completion entries. -/
  | completionConsumerWrite (fn : Nat) (q : Nat) (v : BitVec 64)
  /-- TRIGGER_WORD_WRITE (R341). A write landing on the trigger word starts a graph run or records a pending one. -/
  | triggerWordWrite (rid : Nat) (v : BitVec 64)
  /-- NODE_END (R338). Graph node that ends the run. -/
  | nodeEnd (rid : Nat)
  /-- NODE_LAUNCH (R338). Graph node that launches an operator record, completing when its shadow banks are written. -/
  | nodeLaunch (rid : Nat)
  /-- NODE_LOOP (R338). Graph node that counts iterations and branches back. -/
  | nodeLoop (rid : Nat)
  /-- NODE_COND (R338). Graph node that branches on a PLAIN word. -/
  | nodeCond (rid : Nat)
  /-- NODE_WAIT (R338). Graph node that waits for launched operators to retire or for a word to match. -/
  | nodeWait (rid : Nat)
  /-- NODE_WAIT_POLL (R338). Every 1,024 cycles a waiting node rechecks its word. -/
  | nodeWaitPoll (rid : Nat)
  /-- NODE_SIGNAL (R338). Graph node that writes a word and may send an MSI-X interrupt. -/
  | nodeSignal (rid : Nat)
  /-- SHADOW_BANK_WRITE (R340). The front end writes a launch into a core's empty shadow bank, waiting while it is full. -/
  | shadowBankWrite (rid : Nat)
  /-- CORE_GRANT (R343). A free core is granted by floor, deadline, priority or lottery to a wanting region's stage. -/
  | coreGrant (die : Nat)
  /-- GHEAH_PREEMPT_ORDER (R347). Gheah orders a pre-emption for a higher-priority region, a floor or a deadline. -/
  | gheahPreemptOrder (c : Nat) (rid : Nat) (reason : PreemptReason) (area : Nat)
  /-- INPUT_CLOSE_PROPAGATE (R335). Stage s+1's input closes when stage s's input is closed and empty and no core holds an item. -/
  | inputClosePropagate (rid : Nat)
  /-- FAULT_DOMAIN_STOP (R329). Gheah stops every region of a fault domain and pre-empts their cores. -/
  | faultDomainStop (fdom : Nat)
  /-- STEAL_ADVERT (R352). Every 4,096 cycles the front end advertises stealable input occupancies to neighbours. -/
  | stealAdvert
  /-- STEAL_REQUEST (R353). The queue's chip answers a steal request with at most one entry. -/
  | stealRequest (chip : Nat) (rid : Nat) (stage : Nat)
  /-- STOLEN_EMIT (R353). A thief's EMIT is carried back and inserted on the owning chip, then acknowledged. -/
  | stolenEmit (rid : Nat) (stage : Nat) (item : BitVec 64)
  /-- FLR_VF (R362). Function-level reset of a VF disables its queues, removes its regions and resets its state. -/
  | flrVf (fn : Nat)
  /-- FLR_PF (R362). Function-level reset of the PF resets every VF, removes every region and resets PF blocks. -/
  | flrPf
  /-- SERVICE_CORE_WATCHDOG (R364). A host-queue service core silent for 2^24 cycles is reset, restoring QCBs from shadows. -/
  | serviceCoreWatchdog (sc : Nat)
  /-- MODULE_RESET (R404). Module reset verifies firmware, writes the Almanac and a lone group table, and sets reset values. -/
  | moduleReset (sigOk : Bool)
  /-- INVC_GO (R389). Writing GO starts a TLB invalidation of the selected kind. -/
  | invcGo (fn : Nat) (v : BitVec 64)
  /-- INVALIDATION_COMPLETE (R389). An invalidation completes when no access uses a covered translation; BUSY clears and COUNT rises. -/
  | invalidationComplete (fn : Nat)
  /-- FLIT_SEND (R397). A sender assigns the next SEQ to a flit and places it on a band, waiting for replay buffer room. -/
  | flitSend (port : Nat)
  /-- IDLE_SEND (R397). A direction with nothing to send sends an IDLE flit at least every 128 cycles. -/
  | idleSend (port : Nat)
  /-- FLIT_RECEIVE (R397). A receiver checks a flit's CRC, reads its header, reorders and delivers it in SEQ order. -/
  | flitReceive (port : Nat) (flit : BitVec 1536)
  /-- REPLAY_REQUEST (R397). A receiver missing E for 256 cycles, or seeing SEQ far ahead, sets RPL. -/
  | replayRequest (port : Nat)
  /-- ACK_TIMEOUT (R397). No ACK advance for 8,192 cycles triggers a resend; 64 fruitless replays take the port DOWN. -/
  | ackTimeout (port : Nat)
  /-- PORT_SILENT (R428). No good flit on an UP port for 2^16 cycles takes it DOWN with a PORTDOWN record. -/
  | portSilent (port : Nat)
  /-- LOSS_OF_LIGHT (R401). Power below threshold for 64 cycles declares LOS, discards band flits and sends RSTR. -/
  | lossOfLight (port : Nat) (band : Nat) (waves : BitVec 16)
  /-- RSTR (R401). Management packet on which the sender stops a band and starts its relock at a narrower width. -/
  | rstr (port : Nat) (band : Nat) (lit : BitVec 16)
  /-- RELOCK_END (R401). After 4,096 cycles a relocking band carries flits again and a RESTRIPE record is written. -/
  | relockEnd (port : Nat) (band : Nat)
  /-- REMOTE_REQUEST_SEND (R299). A remote request is sent when the peer's outstanding bytes plus its size fit the allowance. -/
  | remoteRequestSend (chip : Nat)
  /-- WRITE (R396). Packet on which a target performs a remote write once and acknowledges it. -/
  | write (pkt : Packet)
  /-- RDREQ (R293). Packet on which a target translates, checks and serves a remote read. -/
  | rdreq (pkt : Packet)
  /-- ATOMIC (R396). Packet on which a target's memory controller performs a remote atomic once. -/
  | atomic (pkt : Packet)
  /-- RDRESP (R296). Packet returning read data to the issuer. -/
  | rdresp (pkt : Packet)
  /-- WRACK (R298). Packet on which a remote write lands at the issuer, freeing outstanding bytes. -/
  | wrack (pkt : Packet)
  /-- ATRESP (R295). Packet returning an atomic's old value. -/
  | atresp (pkt : Packet)
  /-- ERRRESP (R295). Packet on which the issuer raises REMOTE or BUSERR for a failed access. -/
  | errresp (pkt : Packet)
  /-- HEARTBEAT_SEND (R405). Every 2^20 cycles a chip sends HEARTBEAT to each member. -/
  | heartbeatSend
  /-- HEARTBEAT (R406). Management packet that resets the failure timer of its sender. -/
  | heartbeat (src : Nat) (epoch : BitVec 32)
  /-- PEER_FAIL_TIMEOUT (R406). No HEARTBEAT for four periods declares the member failed and floods a FAILED notice. -/
  | peerFailTimeout (chip : Nat)
  /-- FAILED (R406). Management packet naming a failed member, which the receiver marks failed. -/
  | failed (chip : Nat) (epoch : BitVec 32)
  /-- ADVERT (R352). Management packet carrying a neighbour's stealable input occupancy. -/
  | advert (src : Nat) (rid : Nat) (stage : Nat) (occ : Nat)
  /-- STEAL (R405). Management packet carrying a steal request or answer. -/
  | steal (msg : StealMsg)
  /-- LINKID (R411). Management packet on which a relocking port becomes UP or DOWN with MISMATCH. -/
  | linkid (port : Nat) (peer : Nat) (peerPort : Nat) (epoch : BitVec 32)
  /-- COMMITTED (R412). Management packet after which a port passes DATA flits again. -/
  | committed (port : Nat) (epoch : BitVec 32)
  /-- QUIESCE (R409). Regroup command that checks the plan, freezes allowances and holds new remote requests. -/
  | quiesce
  /-- SETTLED (R409). A quiescing chip is settled when its earlier requests complete, and sends VIGIL round 1. -/
  | settled
  /-- VIGIL (R410). Flit counting quiescence rounds; after round D on every UP port the chip is QUIET and DARK. -/
  | vigil (port : Nat) (round : Nat) (epoch : BitVec 32)
  /-- QUIESCE_TIMEOUT (R410). After 2^24 cycles without QUIET, TIMEOUT is set and outstanding peers are declared failed. -/
  | quiesceTimeout
  /-- RELOCK (R411). Regroup command that relocks every connected port and exchanges LINKID. -/
  | relock
  /-- RELOCK_TIMEOUT (R411). Ports not UP after 2^22 cycles are DOWN and TIMEOUT is set. -/
  | relockTimeout
  /-- REGROUP_COMMIT (R412). When every connected port is UP or DOWN the chip installs the plan and unfreezes. -/
  | regroupCommit
  /-- ALLOW_WRITE (R407). A write to ALLOW sets the allowance, clamped to its range. -/
  | allowWrite (chip : Nat) (v : BitVec 64)
  /-- ALCFG_WRITE (R407). A write to ALCFG sets START, TGT and FACT, leaving FACT unchanged on a code of 3. -/
  | alcfgWrite (chip : Nat) (v : BitVec 64)
  /-- EVIDX_CONS_WRITE (R421). The host writes CONS, ignored if beyond PROD. -/
  | evidxConsWrite (v : BitVec 64)
  /-- PWRCAP_WRITE (R423). A clamped cap write sets each die's NTOK, writes THROTTLE and rewrites the Almanac. -/
  | pwrcapWrite (v : BitVec 64)
  /-- THERMAL_SAMPLE (R424). Every 2^20 cycles Gheah samples die temperatures and throttles, restores or stops. -/
  | thermalSample (die : Nat) (milliC : Nat) (inletMilliC : Nat)
  /-- ATTESTATION_GO (R426). GO copies the nonce and starts a signed attestation report. -/
  | attestationGo (v : BitVec 64)
  /-- ATTESTATION_REPORT_DONE (R426). The report is written whole, BUSY clears and the event vector is sent. -/
  | attestationReportDone
  /-- TELEMETRY_REFRESH (R427). Every 2^20 die-0 cycles the telemetry counters and SNAP are refreshed together. -/
  | telemetryRefresh (t : TelemetrySample)
  /-- REGISTER_WRITE (R7). A write to a register with no row of its own acts by its field access codes. -/
  | registerWrite (fn : Nat) (off : Nat) (v : BitVec 64)
  /-- ILLEGAL_INSTRUCTION (R47). A word whose opcode, length, sync field or reserved bits make it illegal reaches issue and raises an illegal-instruction trap. -/
  | illegalInstruction
  /-- MZERO_COMPLETE (R188). MZERO finishes its 64 cycles, retires and makes its push, letting the next matrix instruction issue. -/
  | mzeroComplete
  /-- MDRN_WRITES_LANDED (R200). MDRN retires when the last of its row writes has landed, making its push and decrementing its counter. -/
  | mdrnWritesLanded
  /-- HOST_BAR2_WRITE (R360). A host write through the PF's BAR2 window stores into device memory as a system-scope thread. -/
  | hostBar2Write (pa : Nat) (bytes : List (BitVec 8))
  /-- LASER_RECOVERY (R401). A laser module that recovers lights its wavelengths again, to be used at the band's next relock. -/
  | laserRecovery (port : Nat) (band : Nat) (lm : Nat)
  /-- PORT_RETRAIN (R401). Gheah retrains a port, relocking its bands at the width that their lit modules allow. -/
  | portRetrain (port : Nat)
deriving DecidableEq, Repr

/-- The stream whose map the instruction stands in (R50 to R54); a hint stands in every map (R48) and an event in none. -/
inductive Place where
  | one (st : StreamId)
  | every
  | event
deriving DecidableEq, Repr

/-- Where an instruction stands: in one stream's map, in every map (hints), or nowhere (events of the machine). -/
def Instr.place : Instr → Place
  | .nop .. => .one .c
  | .add .. => .one .c
  | .addI .. => .one .c
  | .sub .. => .one .c
  | .subI .. => .one .c
  | .andG .. => .one .c
  | .andGI .. => .one .c
  | .orG .. => .one .c
  | .orGI .. => .one .c
  | .xorG .. => .one .c
  | .xorGI .. => .one .c
  | .andn .. => .one .c
  | .andnI .. => .one .c
  | .shl .. => .one .c
  | .shlI .. => .one .c
  | .shr .. => .one .c
  | .shrI .. => .one .c
  | .sra .. => .one .c
  | .sraI .. => .one .c
  | .rol .. => .one .c
  | .rolI .. => .one .c
  | .mul .. => .one .c
  | .mulI .. => .one .c
  | .mulh .. => .one .c
  | .mulhu .. => .one .c
  | .div .. => .one .c
  | .divu .. => .one .c
  | .rem .. => .one .c
  | .remu .. => .one .c
  | .min .. => .one .c
  | .minI .. => .one .c
  | .max .. => .one .c
  | .maxI .. => .one .c
  | .minu .. => .one .c
  | .minuI .. => .one .c
  | .maxu .. => .one .c
  | .maxuI .. => .one .c
  | .clz .. => .one .c
  | .popc .. => .one .c
  | .sext .. => .one .c
  | .zext .. => .one .c
  | .cmpeq .. => .one .c
  | .cmpeqI .. => .one .c
  | .cmplt .. => .one .c
  | .cmpltI .. => .one .c
  | .cmpltu .. => .one .c
  | .cmpltuI .. => .one .c
  | .sel .. => .one .c
  | .li .. => .one .c
  | .liWide .. => .one .c
  | .lih .. => .one .c
  | .lea .. => .one .c
  | .dset .. => .one .c
  | .ld8 .. => .one .c
  | .ld8Disp .. => .one .c
  | .ld8s .. => .one .c
  | .ld8sDisp .. => .one .c
  | .ld16 .. => .one .c
  | .ld16Disp .. => .one .c
  | .ld16s .. => .one .c
  | .ld16sDisp .. => .one .c
  | .ld32 .. => .one .c
  | .ld32Disp .. => .one .c
  | .ld32s .. => .one .c
  | .ld32sDisp .. => .one .c
  | .ld64 .. => .one .c
  | .ld64Disp .. => .one .c
  | .pref .. => .one .c
  | .prefDisp .. => .one .c
  | .st8 .. => .one .c
  | .st8Disp .. => .one .c
  | .st16 .. => .one .c
  | .st16Disp .. => .one .c
  | .st32 .. => .one .c
  | .st32Disp .. => .one .c
  | .st64 .. => .one .c
  | .st64Disp .. => .one .c
  | .aadd .. => .one .c
  | .aand .. => .one .c
  | .aor .. => .one .c
  | .axor .. => .one .c
  | .amin .. => .one .c
  | .amax .. => .one .c
  | .aminu .. => .one .c
  | .amaxu .. => .one .c
  | .aswap .. => .one .c
  | .acas .. => .one .c
  | .fence .. => .one .c
  | .xfence .. => .one .c
  | .phase .. => .one .c
  | .bopen .. => .one .c
  | .bseal .. => .one .c
  | .babort .. => .one .c
  | .pbr .. => .one .c
  | .pbrr .. => .one .c
  | .br .. => .one .c
  | .bra .. => .one .c
  | .call .. => .one .c
  | .fork .. => .one .c
  | .rdv .. => .one .c
  | .steer .. => .one .c
  | .steerImm .. => .one .c
  | .earg .. => .one .c
  | .waitcc .. => .one .c
  | .cbset .. => .one .c
  | .cbwait .. => .one .c
  | .cbadv .. => .one .c
  | .item .. => .one .c
  | .emit .. => .one .c
  | .yield .. => .one .c
  | .mfs .. => .one .c
  | .mts .. => .one .c
  | .trap .. => .one .c
  | .tret .. => .one .c
  | .endOp .. => .one .c
  | .hint .. => .every
  | .hintLong .. => .every
  | .wcfg .. => .one .w
  | .wbmap .. => .one .w
  | .wcoord .. => .one .w
  | .wdense .. => .one .w
  | .wmark .. => .one .w
  | .mlease .. => .one .m
  | .mrel .. => .one .m
  | .mcfg .. => .one .m
  | .mzero .. => .one .m
  | .mlds .. => .one .m
  | .mldsLong .. => .one .m
  | .mswap .. => .one .m
  | .mstr .. => .one .m
  | .mconv .. => .one .m
  | .mspr .. => .one .m
  | .mdrn .. => .one .m
  | .mdrnLong .. => .one .m
  | .vrd .. => .one .v
  | .vrdLong .. => .one .v
  | .vwr .. => .one .v
  | .vwrLong .. => .one .v
  | .vgath .. => .one .v
  | .vscat .. => .one .v
  | .vmov .. => .one .v
  | .vmovV2 .. => .one .v
  | .vsplat .. => .one .v
  | .vadd .. => .one .v
  | .vaddV2 .. => .one .v
  | .vsub .. => .one .v
  | .vsubV2 .. => .one .v
  | .vmul .. => .one .v
  | .vmulV2 .. => .one .v
  | .vfma .. => .one .v
  | .vfmaV2 .. => .one .v
  | .vmin .. => .one .v
  | .vminV2 .. => .one .v
  | .vmax .. => .one .v
  | .vmaxV2 .. => .one .v
  | .vabs .. => .one .v
  | .vabsV2 .. => .one .v
  | .vneg .. => .one .v
  | .vnegV2 .. => .one .v
  | .vand .. => .one .v
  | .vandV2 .. => .one .v
  | .vor .. => .one .v
  | .vorV2 .. => .one .v
  | .vxor .. => .one .v
  | .vxorV2 .. => .one .v
  | .vshl .. => .one .v
  | .vshlV2 .. => .one .v
  | .vshr .. => .one .v
  | .vshrV2 .. => .one .v
  | .vsra .. => .one .v
  | .vsraV2 .. => .one .v
  | .vcmp .. => .one .v
  | .vcmpV2 .. => .one .v
  | .vsel .. => .one .v
  | .vselV2 .. => .one .v
  | .vclmp .. => .one .v
  | .vcvt .. => .one .v
  | .vcvtV2 .. => .one .v
  | .vqnt .. => .one .v
  | .vrcp .. => .one .v
  | .vrcpV2 .. => .one .v
  | .vrsq .. => .one .v
  | .vrsqV2 .. => .one .v
  | .vexp2 .. => .one .v
  | .vexp2V2 .. => .one .v
  | .vlog2 .. => .one .v
  | .vlog2V2 .. => .one .v
  | .vred .. => .one .v
  | .vredV2 .. => .one .v
  | .vscan .. => .one .v
  | .vscanV2 .. => .one .v
  | .vpart .. => .one .v
  | .viota .. => .one .v
  | .vshuf .. => .one .v
  | .vshufV2 .. => .one .v
  | .vpack .. => .one .v
  | .vunpk .. => .one .v
  | .kcopy .. => .one .k
  | .k2d .. => .one .k
  | .kgath .. => .one .k
  | .kscat .. => .one .k
  | .kfill .. => .one .k
  | .kpf .. => .one .k
  | .kenc .. => .one .k
  | .kdec .. => .one .k
  | .ktab .. => .one .k
  | .kview .. => .one .k
  | .kimg .. => .one .k
  | .phaseCommit .. => .event
  | .bopenAnswer .. => .event
  | .homeCommit .. => .event
  | .leaseGrant .. => .event
  | .powerTokenTake .. => .event
  | .readRunPlace .. => .event
  | .kviewPass => .event
  | .pageDecoderAssign .. => .event
  | .lineFetch .. => .event
  | .retiringPush .. => .event
  | .hangTimeout .. => .event
  | .bankWakeDone .. => .event
  | .bankGatedExit .. => .event
  | .bankEnterRetain .. => .event
  | .fenceComplete => .event
  | .xfenceComplete => .event
  | .bsealComplete => .event
  | .bundledStoreLand => .event
  | .homeLost .. => .event
  | .rdvComplete => .event
  | .steerAppend => .event
  | .waitccComplete => .event
  | .cbsetComplete => .event
  | .cbwaitComplete => .event
  | .itemReturn => .event
  | .emitAccept => .event
  | .walkMsprMeet => .event
  | .roundPrepare => .event
  | .flowStep => .event
  | .flowEnd => .event
  | .listRecordWrite => .event
  | .mldsColumn => .event
  | .rowStep => .event
  | .arrayCommandComplete => .event
  | .mdrnRow => .event
  | .vectorIteration => .event
  | .vectorWritesLanded => .event
  | .patchRowWrite => .event
  | .copyUnit => .event
  | .transferComplete => .event
  | .exposedResultWrite => .event
  | .interlockedValueArrive => .event
  | .operatorRetire => .event
  | .launchBankSwapIn => .event
  | .preemptRequest => .event
  | .contextSave => .event
  | .machineCheck .. => .event
  | .poolStoreResume => .event
  | .replicaLock => .event
  | .scrub .. => .event
  | .kickWrite .. => .event
  | .qcbReread .. => .event
  | .submit .. => .event
  | .trigger .. => .event
  | .close .. => .event
  | .regionAdd .. => .event
  | .regionRemove .. => .event
  | .dltSet .. => .event
  | .badcmd .. => .event
  | .completionWrite .. => .event
  | .completionConsumerWrite .. => .event
  | .triggerWordWrite .. => .event
  | .nodeEnd .. => .event
  | .nodeLaunch .. => .event
  | .nodeLoop .. => .event
  | .nodeCond .. => .event
  | .nodeWait .. => .event
  | .nodeWaitPoll .. => .event
  | .nodeSignal .. => .event
  | .shadowBankWrite .. => .event
  | .coreGrant .. => .event
  | .gheahPreemptOrder .. => .event
  | .inputClosePropagate .. => .event
  | .faultDomainStop .. => .event
  | .stealAdvert => .event
  | .stealRequest .. => .event
  | .stolenEmit .. => .event
  | .flrVf .. => .event
  | .flrPf => .event
  | .serviceCoreWatchdog .. => .event
  | .moduleReset .. => .event
  | .invcGo .. => .event
  | .invalidationComplete .. => .event
  | .flitSend .. => .event
  | .idleSend .. => .event
  | .flitReceive .. => .event
  | .replayRequest .. => .event
  | .ackTimeout .. => .event
  | .portSilent .. => .event
  | .lossOfLight .. => .event
  | .rstr .. => .event
  | .relockEnd .. => .event
  | .remoteRequestSend .. => .event
  | .write .. => .event
  | .rdreq .. => .event
  | .atomic .. => .event
  | .rdresp .. => .event
  | .wrack .. => .event
  | .atresp .. => .event
  | .errresp .. => .event
  | .heartbeatSend => .event
  | .heartbeat .. => .event
  | .peerFailTimeout .. => .event
  | .failed .. => .event
  | .advert .. => .event
  | .steal .. => .event
  | .linkid .. => .event
  | .committed .. => .event
  | .quiesce => .event
  | .settled => .event
  | .vigil .. => .event
  | .quiesceTimeout => .event
  | .relock => .event
  | .relockTimeout => .event
  | .regroupCommit => .event
  | .allowWrite .. => .event
  | .alcfgWrite .. => .event
  | .evidxConsWrite .. => .event
  | .pwrcapWrite .. => .event
  | .thermalSample .. => .event
  | .attestationGo .. => .event
  | .attestationReportDone => .event
  | .telemetryRefresh .. => .event
  | .registerWrite .. => .event
  | .illegalInstruction => .event
  | .mzeroComplete => .event
  | .mdrnWritesLanded => .event
  | .hostBar2Write .. => .event
  | .laserRecovery .. => .event
  | .portRetrain .. => .event

end Sys2Proof
end

