-- ==== Sys2Proof/WellFormed.lean ====
section
/-! DEFINITION. Which instructions have an encoding that the maps accept: every static condition under which an
instruction raises ILLEGAL at issue (R42, R47, R28, R103, R108, R115, R123, R124, R131, R139, R149, R157, R160, R163,
R165, R167, R175, R185, R187, R194, R207, R208, R222). Conditions that depend on the state are in the meanings. -/

namespace Sys2Proof

/-- PSRC and PDST are zero where their request is absent (R42). -/
def Sync.wf (y : Sync) : Bool := (y.pop || y.psrc == 0) && (y.push || y.pdst == 0)

/-- Scope codes 6 and 7 are illegal (R103). -/
def scopeOk (s : BitVec 3) : Bool := s.toNat < 6

/-- A format field that holds no reserved tag (R28, R47). -/
def tagCode (t : BitVec 5) : Bool := t.toNat < 26

/-- The block-scaled tags (R28, R57). -/
def blockScaledCode (t : BitVec 5) : Bool := 14 <= t.toNat && t.toNat <= 19

/-- A source code names an operand (R138), and its advance bit is permitted: not on q, and on an h operand of age k only
with k >= COUNT - 1 (R139). -/
def srcOk (code : BitVec 6) (adv : Bool) (count : Nat) : Bool :=
  code.toNat < 52 && (!adv || code.toNat < 32 || (code.toNat < 48 && count <= code.toNat - 32 + 1))

/-- As `srcOk` for an operand read as an element stream, whose age is checked step by step (R139, R164). -/
def streamSrcOk (code : BitVec 6) (adv : Bool) : Bool := code.toNat < 52 && (!adv || code.toNat < 48)

/-- An unused source field and its advance bit are zero (R139). -/
def srcUnused (code : BitVec 6) (adv : Bool) : Bool := code == 0 && !adv

/-- The destination fields: without DV, D and DADV are unused and zero (R139). -/
def dstOk (d : BitVec 5) (dv dadv : Bool) : Bool := dv || (d == 0 && !dadv)

/-- Which of A, B and C a vector instruction uses. -/
inductive VShape where
  | a | ab | abc
deriving DecidableEq, Repr

def VShape.b : VShape → Bool
  | .a => false
  | _ => true

def VShape.c : VShape → Bool
  | .abc => true
  | _ => false

/-- Source fields of V1: COUNT is 1 and nothing is advanced (R139). -/
def V1F.wf (f : V1F) (s : VShape) : Bool :=
  srcOk f.a false 1 && (if s.b then srcOk f.b false 1 else f.b == 0)

/-- Source and destination fields of V2 (R139). -/
def V2F.wf (f : V2F) (s : VShape) : Bool :=
  srcOk f.a f.aadv f.count.toNat
    && (if s.b then srcOk f.b f.badv f.count.toNat else srcUnused f.b f.badv)
    && (if s.c then srcOk f.c f.cadv f.count.toNat else srcUnused f.c f.cadv)
    && dstOk f.d f.dv f.dadv && f.x == 0

/-- WAIT is 1 to 4,095 with CBEN set and 0 without (R149). R149 asks zero of WAIT alone: whether CBH without CBEN, or CCN without CCEN,
must be zero too is open, and the model accepts any value there (DESIGN CHOICE, log 68). -/
def LongF.wf (x : LongF) : Bool := x.cben == (x.wait != 0)

/-- VGATH (R154): A is the index stream; without MEN the mask is unused. -/
def VgathF.wf (f : VgathF) : Bool :=
  streamSrcOk f.a f.aadv && (if f.men then srcOk f.c f.cadv f.count.toNat else srcUnused f.c f.cadv)
    && dstOk f.d f.dv f.dadv

/-- VSCAT (R154): B is the index stream. -/
def VscatF.wf (f : VscatF) : Bool :=
  srcOk f.a f.aadv f.count.toNat && streamSrcOk f.b f.badv
    && (if f.men then srcOk f.c f.cadv f.count.toNat else srcUnused f.c f.cadv)

/-- The tags VSPLAT accepts (R157). -/
def splatCode (t : BitVec 5) : Bool := [1, 2, 3, 4, 5, 9, 10, 22, 23, 24, 25, 21].contains t.toNat

def VsplatF.wf (f : VsplatF) : Bool := splatCode f.tag && dstOk f.d f.dv false

/-- The targets of VCVT: a tag that is not INVALID, block-scaled or QN4 (R163). -/
def cvtTarget (t : BitVec 5) : Bool := tagCode t && t != 0 && !blockScaledCode t && t != 20

def Vcvt1F.wf (f : Vcvt1F) : Bool := streamSrcOk f.a false && cvtTarget f.t && tagCode f.s

def Vcvt2F.wf (f : Vcvt2F) : Bool :=
  streamSrcOk f.a f.aadv && cvtTarget f.t && tagCode f.s && dstOk f.d f.dv f.dadv

/-- VQNT (R165): T is block-scaled or QN4; B is used, and RND must be zero, for QN4 only. -/
def VqntF.wf (f : VqntF) : Bool :=
  streamSrcOk f.a f.aadv && (blockScaledCode f.t || f.t == 20)
    && (if f.t == 20 then srcOk f.b f.badv f.count.toNat && f.rnd == 0 else srcUnused f.b f.badv)
    && dstOk f.d f.dv f.dadv

/-- A range of tile rows (R185, R192, R194, R199). -/
def rowsOk (zrow n : Nat) : Bool := n <= 128 && zrow + n <= 128

/-- Fields common to the copy instructions (R207, R208); `top` is the highest p register used, counted from P. -/
def KF.wf (f : KF) (top : Nat) : Bool :=
  tagCode f.sfmt && tagCode f.dfmt && (f.p.toNat + top < (if f.ckw then 15 else 16))

/-- Checksum fields of an instruction that may feed chains (R207). -/
def KF.ckOk (f : KF) : Bool :=
  f.ckm != 3 && f.cksel != 3 && (f.ckm != 0 || (f.cksel == 0 && f.ckop == 0 && !f.ckw))

/-- Checksum fields of an instruction that may not (R208). -/
def KF.noCk (f : KF) : Bool := f.ckm == 0 && f.cksel == 0 && f.ckop == 0 && !f.ckw

/-- Circular-buffer fields; `s` and `d` say whether the source and the destination side may be a ring (R207, R208). -/
def KF.cbOk (f : KF) (s d : Bool) : Bool :=
  if f.cben then f.wait != 0 && (if f.cbside then d else s)
  else !f.cbside && f.cbh == 0 && f.wait == 0

def KF.nelOnly (f : KF) : Bool := f.w2.extractLsb' 28 4 == 0
def KF.tblOnly (f : KF) : Bool := f.w2.extractLsb' 0 28 == 0
def KF.noSource (f : KF) : Bool := f.ds == 0 && f.sfmt == 0
def KF.noDest (f : KF) : Bool := f.dd == 0 && f.dfmt == 0
def KF.noRound (f : KF) : Bool := f.rnd == 0 && !f.sat

/-- The destination tags of KIMG (R222). -/
def imgCode (t : BitVec 5) : Bool := [1, 2, 3, 4, 5, 9, 10, 13].contains t.toNat

/-- W2 of KIMG holds BUDGET and BIT, and BUDGET is not 0; DFMT is 0 or one of the tags of R222. -/
def KF.imgOk (f : KF) : Bool :=
  f.w2.extractLsb' 16 16 != 0 && f.w2.extractLsb' 0 15 == 0 && (f.dfmt == 0 || imgCode f.dfmt)

/-- The instruction has an encoding its stream accepts (R47). Events have none and are well formed as they stand. RND of a VSCAN .min or
.max applies to nothing; R168 gives the field to VSCAN as a whole, and whether it must then be zero is open: the model accepts any
value (DESIGN CHOICE, log 68). -/
def Instr.wf : Instr → Bool
  | .nop m => m.sync.wf
  | .add m _ _ _ => m.sync.wf
  | .addI m _ _ _ => m.sync.wf
  | .sub m _ _ _ => m.sync.wf
  | .subI m _ _ _ => m.sync.wf
  | .andG m _ _ _ => m.sync.wf
  | .andGI m _ _ _ => m.sync.wf
  | .orG m _ _ _ => m.sync.wf
  | .orGI m _ _ _ => m.sync.wf
  | .xorG m _ _ _ => m.sync.wf
  | .xorGI m _ _ _ => m.sync.wf
  | .andn m _ _ _ => m.sync.wf
  | .andnI m _ _ _ => m.sync.wf
  | .shl m _ _ _ => m.sync.wf
  | .shlI m _ _ _ => m.sync.wf
  | .shr m _ _ _ => m.sync.wf
  | .shrI m _ _ _ => m.sync.wf
  | .sra m _ _ _ => m.sync.wf
  | .sraI m _ _ _ => m.sync.wf
  | .rol m _ _ _ => m.sync.wf
  | .rolI m _ _ _ => m.sync.wf
  | .mul m _ _ _ => m.sync.wf
  | .mulI m _ _ _ => m.sync.wf
  | .mulh m _ _ _ => m.sync.wf
  | .mulhu m _ _ _ => m.sync.wf
  | .div m _ _ _ => m.sync.wf
  | .divu m _ _ _ => m.sync.wf
  | .rem m _ _ _ => m.sync.wf
  | .remu m _ _ _ => m.sync.wf
  | .min m _ _ _ => m.sync.wf
  | .minI m _ _ _ => m.sync.wf
  | .max m _ _ _ => m.sync.wf
  | .maxI m _ _ _ => m.sync.wf
  | .minu m _ _ _ => m.sync.wf
  | .minuI m _ _ _ => m.sync.wf
  | .maxu m _ _ _ => m.sync.wf
  | .maxuI m _ _ _ => m.sync.wf
  | .clz m _ _ => m.sync.wf
  | .popc m _ _ => m.sync.wf
  | .sext m _ _ w => m.sync.wf && w != 3
  | .zext m _ _ w => m.sync.wf && w != 3
  | .cmpeq m _ _ _ => m.sync.wf
  | .cmpeqI m _ _ _ => m.sync.wf
  | .cmplt m _ _ _ => m.sync.wf
  | .cmpltI m _ _ _ => m.sync.wf
  | .cmpltu m _ _ _ => m.sync.wf
  | .cmpltuI m _ _ _ => m.sync.wf
  | .sel m _ _ _ => m.sync.wf
  | .li m _ _ => m.sync.wf
  | .liWide m _ _ _ => m.sync.wf
  | .lih m _ _ => m.sync.wf
  | .lea m _ _ _ _ _ => m.sync.wf
  | .dset m _ _ _ => m.sync.wf
  | .ld8 m _ _ => m.sync.wf
  | .ld8Disp m _ _ _ => m.sync.wf
  | .ld8s m _ _ => m.sync.wf
  | .ld8sDisp m _ _ _ => m.sync.wf
  | .ld16 m _ _ => m.sync.wf
  | .ld16Disp m _ _ _ => m.sync.wf
  | .ld16s m _ _ => m.sync.wf
  | .ld16sDisp m _ _ _ => m.sync.wf
  | .ld32 m _ _ => m.sync.wf
  | .ld32Disp m _ _ _ => m.sync.wf
  | .ld32s m _ _ => m.sync.wf
  | .ld32sDisp m _ _ _ => m.sync.wf
  | .ld64 m _ _ => m.sync.wf
  | .ld64Disp m _ _ _ => m.sync.wf
  | .pref m _ => m.sync.wf
  | .prefDisp m _ _ => m.sync.wf
  | .st8 m _ _ => m.sync.wf
  | .st8Disp m _ _ _ => m.sync.wf
  | .st16 m _ _ => m.sync.wf
  | .st16Disp m _ _ _ => m.sync.wf
  | .st32 m _ _ => m.sync.wf
  | .st32Disp m _ _ _ => m.sync.wf
  | .st64 m _ _ => m.sync.wf
  | .st64Disp m _ _ _ => m.sync.wf
  | .aadd m _ _ _ _ scope => m.sync.wf && scopeOk scope
  | .aand m _ _ _ _ scope => m.sync.wf && scopeOk scope
  | .aor m _ _ _ _ scope => m.sync.wf && scopeOk scope
  | .axor m _ _ _ _ scope => m.sync.wf && scopeOk scope
  | .amin m _ _ _ _ scope => m.sync.wf && scopeOk scope
  | .amax m _ _ _ _ scope => m.sync.wf && scopeOk scope
  | .aminu m _ _ _ _ scope => m.sync.wf && scopeOk scope
  | .amaxu m _ _ _ _ scope => m.sync.wf && scopeOk scope
  | .aswap m _ _ _ _ scope => m.sync.wf && scopeOk scope
  | .acas m _ _ _ _ scope => m.sync.wf && scopeOk scope
  | .fence m scope => m.sync.wf && scopeOk scope
  | .fenceComplete => true
  | .xfence m scope src dst => m.sync.wf && scopeOk scope && src != 0 && dst != 0
  | .xfenceComplete => true
  | .phase m => m.sync.wf
  | .phaseCommit .. => true
  | .bopen m _ _ => m.sync.wf
  | .bopenAnswer .. => true
  | .bseal m _ => m.sync.wf
  | .bsealComplete => true
  | .babort m => m.sync.wf
  | .bundledStoreLand => true
  | .homeCommit .. => true
  | .homeLost .. => true
  | .pbr m _ _ => m.sync.wf
  | .pbrr m _ _ => m.sync.wf
  | .br m _ _ _ => m.sync.wf
  | .bra m _ => m.sync.wf
  | .call m _ => m.sync.wf
  | .fork m _ mask => m.sync.wf && mask != 0
  | .rdv m mask => m.sync.wf && mask != 0
  | .rdvComplete => true
  | .steer m _ _ => m.sync.wf
  | .steerImm m _ _ => m.sync.wf
  | .steerAppend => true
  | .earg m _ _ _ => m.sync.wf
  | .waitcc m _ _ => m.sync.wf
  | .waitccComplete => true
  | .cbset m _ _ => m.sync.wf
  | .cbsetComplete => true
  | .cbwait m _ _ _ => m.sync.wf
  | .cbwaitComplete => true
  | .cbadv m _ _ _ => m.sync.wf
  | .item m _ => m.sync.wf
  | .itemReturn => true
  | .emit m _ _ => m.sync.wf
  | .emitAccept => true
  | .yield m => m.sync.wf
  | .mfs m _ n => m.sync.wf && n.toNat < 0x13
  | .mts m _ n => m.sync.wf && n.toNat < 0x13
  | .trap m _ => m.sync.wf
  | .tret m => m.sync.wf
  | .endOp m => m.sync.wf
  | .hint y _ _ => y.wf
  | .hintLong y _ _ _ => y.wf
  | .wcfg y f => y.wf && (f.mode || f.cbh == 0)
  | .wbmap y _ => y.wf
  | .wcoord y _ => y.wf
  | .wdense y _ => y.wf
  | .wmark y _ => y.wf
  | .walkMsprMeet => true
  | .roundPrepare => true
  | .flowStep => true
  | .flowEnd => true
  | .listRecordWrite => true
  | .mlease y _ => y.wf
  | .leaseGrant .. => true
  | .mrel y => y.wf
  | .mcfg y f => y.wf && f.mode != 3 && tagCode f.atag && tagCode f.btag
  | .mzero y _ => y.wf
  | .mlds y f => y.wf && f.ncol.toNat <= 256
  | .mldsLong y f x => y.wf && f.ncol.toNat <= 256 && x.wf
  | .mldsColumn => true
  | .mswap y => y.wf
  | .mstr y f x => y.wf && rowsOk f.zrow.toNat f.nrow.toNat && x.wf
  | .mconv y f => y.wf && rowsOk f.zrow.toNat f.npix.toNat && f.ow != 0 && f.ch != 0
  | .rowStep => true
  | .mspr y _ => y.wf
  | .arrayCommandComplete => true
  | .powerTokenTake .. => true
  | .mdrn y f => y.wf && rowsOk f.zrow.toNat f.nrow.toNat
  | .mdrnLong y f x => y.wf && rowsOk f.zrow.toNat f.nrow.toNat && x.wf
  | .mdrnRow => true
  | .vrd y f => y.wf && f.rat.toNat < 6
  | .vrdLong y f x => y.wf && f.rat.toNat < 6 && x.wf
  | .readRunPlace .. => true
  | .vwr y f => y.wf && srcOk f.src f.sadv f.count.toNat
  | .vwrLong y f x => y.wf && srcOk f.src f.sadv f.count.toNat && x.wf
  | .vgath y f => y.wf && f.wf
  | .vscat y f => y.wf && f.wf
  | .vectorIteration => true
  | .vectorWritesLanded => true
  | .vmov y f => y.wf && f.wf .a && f.rnd == 0 && f.sub == 0
  | .vmovV2 y f => y.wf && f.wf .a && f.rnd == 0 && f.sub == 0
  | .vsplat y f => y.wf && f.wf
  | .vadd y f => y.wf && f.wf .ab && f.sub == 0
  | .vaddV2 y f => y.wf && f.wf .ab && f.sub == 0
  | .vsub y f => y.wf && f.wf .ab && f.sub == 0
  | .vsubV2 y f => y.wf && f.wf .ab && f.sub == 0
  | .vmul y f => y.wf && f.wf .ab && f.sub == 0
  | .vmulV2 y f => y.wf && f.wf .ab && f.sub == 0
  | .vfma y f => y.wf && f.wf .abc && f.sub == 0
  | .vfmaV2 y f => y.wf && f.wf .abc && f.sub == 0
  | .vmin y f => y.wf && f.wf .ab && f.sub == 0
  | .vminV2 y f => y.wf && f.wf .ab && f.sub == 0
  | .vmax y f => y.wf && f.wf .ab && f.sub == 0
  | .vmaxV2 y f => y.wf && f.wf .ab && f.sub == 0
  | .vabs y f => y.wf && f.wf .a && f.sub == 0
  | .vabsV2 y f => y.wf && f.wf .a && f.sub == 0
  | .vneg y f => y.wf && f.wf .a && f.sub == 0
  | .vnegV2 y f => y.wf && f.wf .a && f.sub == 0
  | .vand y f => y.wf && f.wf .ab && f.rnd == 0 && f.sub == 0
  | .vandV2 y f => y.wf && f.wf .ab && f.rnd == 0 && f.sub == 0
  | .vor y f => y.wf && f.wf .ab && f.rnd == 0 && f.sub == 0
  | .vorV2 y f => y.wf && f.wf .ab && f.rnd == 0 && f.sub == 0
  | .vxor y f => y.wf && f.wf .ab && f.rnd == 0 && f.sub == 0
  | .vxorV2 y f => y.wf && f.wf .ab && f.rnd == 0 && f.sub == 0
  | .vshl y f => y.wf && f.wf .ab && f.rnd == 0 && f.sub == 0
  | .vshlV2 y f => y.wf && f.wf .ab && f.rnd == 0 && f.sub == 0
  | .vshr y f => y.wf && f.wf .ab && f.rnd == 0 && f.sub == 0
  | .vshrV2 y f => y.wf && f.wf .ab && f.rnd == 0 && f.sub == 0
  | .vsra y f => y.wf && f.wf .ab && f.rnd == 0 && f.sub == 0
  | .vsraV2 y f => y.wf && f.wf .ab && f.rnd == 0 && f.sub == 0
  | .vcmp y f => y.wf && f.wf .ab && (f.rnd ++ f.sub : BitVec 4).toNat < 7
  | .vcmpV2 y f => y.wf && f.wf .ab && (f.rnd ++ f.sub : BitVec 4).toNat < 7
  | .vsel y f => y.wf && f.wf .abc && f.rnd == 0 && f.sub == 0
  | .vselV2 y f => y.wf && f.wf .abc && f.rnd == 0 && f.sub == 0
  | .vclmp y f => y.wf && f.wf .abc && f.rnd == 0 && f.sub == 0
  | .vcvt y f => y.wf && f.wf
  | .vcvtV2 y f => y.wf && f.wf
  | .vqnt y f => y.wf && f.wf
  | .vrcp y f => y.wf && f.wf .a && f.sub == 0
  | .vrcpV2 y f => y.wf && f.wf .a && f.sub == 0
  | .vrsq y f => y.wf && f.wf .a && f.sub == 0
  | .vrsqV2 y f => y.wf && f.wf .a && f.sub == 0
  | .vexp2 y f => y.wf && f.wf .a && f.sub == 0
  | .vexp2V2 y f => y.wf && f.wf .a && f.sub == 0
  | .vlog2 y f => y.wf && f.wf .a && f.sub == 0
  | .vlog2V2 y f => y.wf && f.wf .a && f.sub == 0
  | .vred y f => y.wf && f.wf .ab && f.rnd == 0 && f.sub != 3
  | .vredV2 y f => y.wf && f.wf .ab && f.rnd == 0 && f.sub != 3
  | .vscan y f => y.wf && f.wf .ab && f.sub != 3
  | .vscanV2 y f => y.wf && f.wf .ab && f.sub != 3
  | .vpart y f => y.wf && f.wf .ab && f.rnd == 0 && f.sub == 0
  | .viota y f => y.wf && f.wf .a && f.rnd == 0 && f.sub == 0
  | .vshuf y f => y.wf && f.wf .ab && f.rnd == 0 && f.sub == 0
  | .vshufV2 y f => y.wf && f.wf .ab && f.rnd == 0 && f.sub == 0
  | .vpack y f => y.wf && f.wf .ab && f.rnd == 0 && f.sub == 0
  | .vunpk y f => y.wf && f.wf .abc && f.rnd == 0 && f.sub == 0
  | .kcopy y f => y.wf && f.wf 2 && f.ckOk && f.cbOk true true
  | .k2d y f => y.wf && f.wf 1 && f.ckOk && f.cbOk true true && f.nelOnly
  | .kgath y f => y.wf && f.wf 2 && f.ckOk && f.cbOk true true
  | .kscat y f => y.wf && f.wf 2 && f.ckOk && f.cbOk true true
  | .kfill y f => y.wf && f.wf 1 && f.noCk && f.cbOk false true && f.noSource && f.noRound
  | .kpf y f => y.wf && f.wf 0 && f.noCk && f.cbOk false false && f.noDest && f.noRound && f.nelOnly
  | .kenc y f => y.wf && f.wf 2 && f.noCk && f.cbOk true true && f.count == 0 && f.tblOnly
  | .kdec y f => y.wf && f.wf 1 && f.noCk && f.cbOk true true && f.w2 == 0
  | .ktab y f => y.wf && f.wf 0 && f.noCk && f.cbOk false false && f.count == 0 && f.noDest && f.sfmt == 0 && f.noRound && f.tblOnly
  | .kview y f => y.wf && f.wf 1 && f.ckOk && f.cbOk false false && f.sfmt == 0 && f.dfmt == 0 && f.noRound
  | .kviewPass => true
  | .kimg y f => y.wf && f.wf 3 && f.noCk && f.cbOk false false && f.count == 0 && f.sfmt == 0 && f.imgOk
  | .pageDecoderAssign .. => true
  | .patchRowWrite => true
  | .copyUnit => true
  | .transferComplete => true
  | .lineFetch .. => true
  | .exposedResultWrite => true
  | .interlockedValueArrive => true
  | .retiringPush .. => true
  | .hangTimeout .. => true
  | .operatorRetire => true
  | .launchBankSwapIn => true
  | .bankWakeDone .. => true
  | .bankGatedExit .. => true
  | .bankEnterRetain .. => true
  | .preemptRequest => true
  | .contextSave => true
  | .machineCheck .. => true
  | .poolStoreResume => true
  | .replicaLock => true
  | .scrub .. => true
  | .kickWrite .. => true
  | .qcbReread .. => true
  | .submit .. => true
  | .trigger .. => true
  | .close .. => true
  | .regionAdd .. => true
  | .regionRemove .. => true
  | .dltSet .. => true
  | .badcmd .. => true
  | .completionWrite .. => true
  | .completionConsumerWrite .. => true
  | .triggerWordWrite .. => true
  | .nodeEnd .. => true
  | .nodeLaunch .. => true
  | .nodeLoop .. => true
  | .nodeCond .. => true
  | .nodeWait .. => true
  | .nodeWaitPoll .. => true
  | .nodeSignal .. => true
  | .shadowBankWrite .. => true
  | .coreGrant .. => true
  | .gheahPreemptOrder .. => true
  | .inputClosePropagate .. => true
  | .faultDomainStop .. => true
  | .stealAdvert => true
  | .stealRequest .. => true
  | .stolenEmit .. => true
  | .flrVf .. => true
  | .flrPf => true
  | .serviceCoreWatchdog .. => true
  | .moduleReset .. => true
  | .invcGo .. => true
  | .invalidationComplete .. => true
  | .flitSend .. => true
  | .idleSend .. => true
  | .flitReceive .. => true
  | .replayRequest .. => true
  | .ackTimeout .. => true
  | .portSilent .. => true
  | .lossOfLight .. => true
  | .rstr .. => true
  | .relockEnd .. => true
  | .remoteRequestSend .. => true
  | .write .. => true
  | .rdreq .. => true
  | .atomic .. => true
  | .rdresp .. => true
  | .wrack .. => true
  | .atresp .. => true
  | .errresp .. => true
  | .heartbeatSend => true
  | .heartbeat .. => true
  | .peerFailTimeout .. => true
  | .failed .. => true
  | .advert .. => true
  | .steal .. => true
  | .linkid .. => true
  | .committed .. => true
  | .quiesce => true
  | .settled => true
  | .vigil .. => true
  | .quiesceTimeout => true
  | .relock => true
  | .relockTimeout => true
  | .regroupCommit => true
  | .allowWrite .. => true
  | .alcfgWrite .. => true
  | .evidxConsWrite .. => true
  | .pwrcapWrite .. => true
  | .thermalSample .. => true
  | .attestationGo .. => true
  | .attestationReportDone => true
  | .telemetryRefresh .. => true
  | .registerWrite .. => true
  | .illegalInstruction => true
  | .mzeroComplete => true
  | .mdrnWritesLanded => true
  | .hostBar2Write .. => true
  | .laserRecovery .. => true
  | .portRetrain .. => true

end Sys2Proof
end

