-- ==== Sys2Proof/Decode.lean ====
section
/-! DEFINITION. Decoding of instruction words (R40 to R54, R102, R139, R149, R175 to R207) and, after it, the encoder
written from the same layouts. A line's words are given from the instruction's word 0 on; what follows the instruction is
left alone. A word that the maps do not accept is rejected by name; the machine then raises ILLEGAL (R47). -/

namespace Sys2Proof

/-- Why a word is not an instruction (R47). -/
inductive Reject where
  /-- No word is left in the line, or the word is PAD (R45), which is never issued. -/
  | nothing
  /-- Length code 0b11 (R40). -/
  | lengthCode
  /-- The instruction would pass slot 15 (R44). -/
  | lineEnd
  /-- The opcode is not in the stream's map, or not with this length (R50 to R54). -/
  | opcode
  /-- A reserved bit, or a register field that the instruction does not use, is set (R43, R47). -/
  | reservedBit
  /-- A field holds a value its rule makes illegal (R42, R28, R103 and the instruction's rule). -/
  | badField
deriving DecidableEq, Repr

/-- The four words an instruction may span; those it does not have are 0. -/
structure Words where
  w0 : Word
  w1 : Word
  w2 : Word
  w3 : Word
deriving DecidableEq, Repr

/-- Bits [lo + n - 1 : lo] of a word (R3). -/
def fld (w : Word) (lo n : Nat) : BitVec n := w.extractLsb' lo n

/-- Bit `i` of a word as a flag. -/
def flag (w : Word) (i : Nat) : Bool := fld w i 1 == 1#1

/-- The sync field of word 0 (R42). -/
def syncOf (w : Word) : Sync := ⟨flag w 21, fld w 19 2, flag w 18, fld w 16 2⟩

/-- The sync field and Q of a control instruction's word 0 (R42, R43). -/
def cmOf (w : Word) : CM := ⟨syncOf w, flag w 15⟩

/-- The instruction, if its reserved bits are clear (R47). -/
def need (reservedClear : Bool) (i : Instr) : Except Reject Instr :=
  if reservedClear then .ok i else .error .reservedBit

/-- The length in words that a length code gives (R40). -/
def lenOfCode (code : Nat) : Option Nat :=
  match code with
  | 0 => some 1
  | 1 => some 2
  | 2 => some 4
  | _ => none

/-- A hint (R48): operand bits and extra words are ignored, and kept in the syntax as they stand. -/
def parseHint (len : Nat) (w : Words) : Instr :=
  match len with
  | 1 => .hint (syncOf w.w0) (fld w.w0 24 4) (fld w.w0 0 16)
  | 2 => .hintLong (syncOf w.w0) (fld w.w0 24 4) (fld w.w0 0 16) (.two w.w1)
  | _ => .hintLong (syncOf w.w0) (fld w.w0 24 4) (fld w.w0 0 16) (.four w.w1 w.w2 w.w3)

/-- The control map (R50, R102), rows 0x0 and 0x1. -/
def parseControlArith (opc len : Nat) (w : Words) : Except Reject Instr :=
  match opc, len with
  | 0x01, 1 => need (fld w.w0 0 15 == 0)
      (.nop (cmOf w.w0))
  | 0x02, 1 => need (true)
      (.add (cmOf w.w0) (fld w.w0 10 5) (fld w.w0 5 5) (fld w.w0 0 5))
  | 0x02, 2 => need (fld w.w0 0 5 == 0)
      (.addI (cmOf w.w0) (fld w.w0 10 5) (fld w.w0 5 5) (fld w.w1 0 32))
  | 0x03, 1 => need (true)
      (.sub (cmOf w.w0) (fld w.w0 10 5) (fld w.w0 5 5) (fld w.w0 0 5))
  | 0x03, 2 => need (fld w.w0 0 5 == 0)
      (.subI (cmOf w.w0) (fld w.w0 10 5) (fld w.w0 5 5) (fld w.w1 0 32))
  | 0x04, 1 => need (true)
      (.andG (cmOf w.w0) (fld w.w0 10 5) (fld w.w0 5 5) (fld w.w0 0 5))
  | 0x04, 2 => need (fld w.w0 0 5 == 0)
      (.andGI (cmOf w.w0) (fld w.w0 10 5) (fld w.w0 5 5) (fld w.w1 0 32))
  | 0x05, 1 => need (true)
      (.orG (cmOf w.w0) (fld w.w0 10 5) (fld w.w0 5 5) (fld w.w0 0 5))
  | 0x05, 2 => need (fld w.w0 0 5 == 0)
      (.orGI (cmOf w.w0) (fld w.w0 10 5) (fld w.w0 5 5) (fld w.w1 0 32))
  | 0x06, 1 => need (true)
      (.xorG (cmOf w.w0) (fld w.w0 10 5) (fld w.w0 5 5) (fld w.w0 0 5))
  | 0x06, 2 => need (fld w.w0 0 5 == 0)
      (.xorGI (cmOf w.w0) (fld w.w0 10 5) (fld w.w0 5 5) (fld w.w1 0 32))
  | 0x07, 1 => need (true)
      (.andn (cmOf w.w0) (fld w.w0 10 5) (fld w.w0 5 5) (fld w.w0 0 5))
  | 0x07, 2 => need (fld w.w0 0 5 == 0)
      (.andnI (cmOf w.w0) (fld w.w0 10 5) (fld w.w0 5 5) (fld w.w1 0 32))
  | 0x08, 1 => need (true)
      (.shl (cmOf w.w0) (fld w.w0 10 5) (fld w.w0 5 5) (fld w.w0 0 5))
  | 0x08, 2 => need (fld w.w0 0 5 == 0)
      (.shlI (cmOf w.w0) (fld w.w0 10 5) (fld w.w0 5 5) (fld w.w1 0 32))
  | 0x09, 1 => need (true)
      (.shr (cmOf w.w0) (fld w.w0 10 5) (fld w.w0 5 5) (fld w.w0 0 5))
  | 0x09, 2 => need (fld w.w0 0 5 == 0)
      (.shrI (cmOf w.w0) (fld w.w0 10 5) (fld w.w0 5 5) (fld w.w1 0 32))
  | 0x0A, 1 => need (true)
      (.sra (cmOf w.w0) (fld w.w0 10 5) (fld w.w0 5 5) (fld w.w0 0 5))
  | 0x0A, 2 => need (fld w.w0 0 5 == 0)
      (.sraI (cmOf w.w0) (fld w.w0 10 5) (fld w.w0 5 5) (fld w.w1 0 32))
  | 0x0B, 1 => need (true)
      (.rol (cmOf w.w0) (fld w.w0 10 5) (fld w.w0 5 5) (fld w.w0 0 5))
  | 0x0B, 2 => need (fld w.w0 0 5 == 0)
      (.rolI (cmOf w.w0) (fld w.w0 10 5) (fld w.w0 5 5) (fld w.w1 0 32))
  | 0x0C, 1 => need (true)
      (.mul (cmOf w.w0) (fld w.w0 10 5) (fld w.w0 5 5) (fld w.w0 0 5))
  | 0x0C, 2 => need (fld w.w0 0 5 == 0)
      (.mulI (cmOf w.w0) (fld w.w0 10 5) (fld w.w0 5 5) (fld w.w1 0 32))
  | 0x0D, 1 => need (true)
      (.mulh (cmOf w.w0) (fld w.w0 10 5) (fld w.w0 5 5) (fld w.w0 0 5))
  | 0x0E, 1 => need (true)
      (.mulhu (cmOf w.w0) (fld w.w0 10 5) (fld w.w0 5 5) (fld w.w0 0 5))
  | 0x10, 1 => need (true)
      (.div (cmOf w.w0) (fld w.w0 10 5) (fld w.w0 5 5) (fld w.w0 0 5))
  | 0x11, 1 => need (true)
      (.divu (cmOf w.w0) (fld w.w0 10 5) (fld w.w0 5 5) (fld w.w0 0 5))
  | 0x12, 1 => need (true)
      (.rem (cmOf w.w0) (fld w.w0 10 5) (fld w.w0 5 5) (fld w.w0 0 5))
  | 0x13, 1 => need (true)
      (.remu (cmOf w.w0) (fld w.w0 10 5) (fld w.w0 5 5) (fld w.w0 0 5))
  | 0x14, 1 => need (true)
      (.min (cmOf w.w0) (fld w.w0 10 5) (fld w.w0 5 5) (fld w.w0 0 5))
  | 0x14, 2 => need (fld w.w0 0 5 == 0)
      (.minI (cmOf w.w0) (fld w.w0 10 5) (fld w.w0 5 5) (fld w.w1 0 32))
  | 0x15, 1 => need (true)
      (.max (cmOf w.w0) (fld w.w0 10 5) (fld w.w0 5 5) (fld w.w0 0 5))
  | 0x15, 2 => need (fld w.w0 0 5 == 0)
      (.maxI (cmOf w.w0) (fld w.w0 10 5) (fld w.w0 5 5) (fld w.w1 0 32))
  | 0x16, 1 => need (true)
      (.minu (cmOf w.w0) (fld w.w0 10 5) (fld w.w0 5 5) (fld w.w0 0 5))
  | 0x16, 2 => need (fld w.w0 0 5 == 0)
      (.minuI (cmOf w.w0) (fld w.w0 10 5) (fld w.w0 5 5) (fld w.w1 0 32))
  | 0x17, 1 => need (true)
      (.maxu (cmOf w.w0) (fld w.w0 10 5) (fld w.w0 5 5) (fld w.w0 0 5))
  | 0x17, 2 => need (fld w.w0 0 5 == 0)
      (.maxuI (cmOf w.w0) (fld w.w0 10 5) (fld w.w0 5 5) (fld w.w1 0 32))
  | 0x18, 1 => need (fld w.w0 0 5 == 0)
      (.clz (cmOf w.w0) (fld w.w0 10 5) (fld w.w0 5 5))
  | 0x19, 1 => need (fld w.w0 0 5 == 0)
      (.popc (cmOf w.w0) (fld w.w0 10 5) (fld w.w0 5 5))
  | 0x1A, 1 => need (fld w.w0 2 3 == 0)
      (.sext (cmOf w.w0) (fld w.w0 10 5) (fld w.w0 5 5) (fld w.w0 0 2))
  | 0x1B, 1 => need (fld w.w0 2 3 == 0)
      (.zext (cmOf w.w0) (fld w.w0 10 5) (fld w.w0 5 5) (fld w.w0 0 2))
  | 0x1C, 1 => need (true)
      (.cmpeq (cmOf w.w0) (fld w.w0 10 5) (fld w.w0 5 5) (fld w.w0 0 5))
  | 0x1C, 2 => need (fld w.w0 0 5 == 0)
      (.cmpeqI (cmOf w.w0) (fld w.w0 10 5) (fld w.w0 5 5) (fld w.w1 0 32))
  | 0x1D, 1 => need (true)
      (.cmplt (cmOf w.w0) (fld w.w0 10 5) (fld w.w0 5 5) (fld w.w0 0 5))
  | 0x1D, 2 => need (fld w.w0 0 5 == 0)
      (.cmpltI (cmOf w.w0) (fld w.w0 10 5) (fld w.w0 5 5) (fld w.w1 0 32))
  | 0x1E, 1 => need (true)
      (.cmpltu (cmOf w.w0) (fld w.w0 10 5) (fld w.w0 5 5) (fld w.w0 0 5))
  | 0x1E, 2 => need (fld w.w0 0 5 == 0)
      (.cmpltuI (cmOf w.w0) (fld w.w0 10 5) (fld w.w0 5 5) (fld w.w1 0 32))
  | 0x1F, 1 => need (true)
      (.sel (cmOf w.w0) (fld w.w0 10 5) (fld w.w0 5 5) (fld w.w0 0 5))
  | _, _ => .error .opcode

/-- The control map (R50, R102), rows 0x2 to 0x4. -/
def parseControlMemory (opc len : Nat) (w : Words) : Except Reject Instr :=
  match opc, len with
  | 0x20, 2 => need (fld w.w0 0 10 == 0)
      (.li (cmOf w.w0) (fld w.w0 10 5) (fld w.w1 0 32))
  | 0x20, 4 => need (fld w.w0 0 10 == 0 && fld w.w3 0 32 == 0)
      (.liWide (cmOf w.w0) (fld w.w0 10 5) (fld w.w1 0 32) (fld w.w2 0 32))
  | 0x21, 2 => need (fld w.w0 0 10 == 0)
      (.lih (cmOf w.w0) (fld w.w0 10 5) (fld w.w1 0 32))
  | 0x22, 2 => need (true)
      (.lea (cmOf w.w0) (fld w.w0 10 5) (fld w.w0 5 5) (fld w.w0 0 5) (fld w.w1 29 3) (fld w.w1 0 29))
  | 0x23, 1 => need (fld w.w0 2 3 == 0 && fld w.w0 14 1 == 0)
      (.dset (cmOf w.w0) (fld w.w0 10 4) (fld w.w0 5 5) (fld w.w0 0 2))
  | 0x30, 1 => need (fld w.w0 0 5 == 0)
      (.ld8 (cmOf w.w0) (fld w.w0 10 5) (fld w.w0 5 5))
  | 0x30, 2 => need (fld w.w0 0 5 == 0)
      (.ld8Disp (cmOf w.w0) (fld w.w0 10 5) (fld w.w0 5 5) (fld w.w1 0 32))
  | 0x31, 1 => need (fld w.w0 0 5 == 0)
      (.ld8s (cmOf w.w0) (fld w.w0 10 5) (fld w.w0 5 5))
  | 0x31, 2 => need (fld w.w0 0 5 == 0)
      (.ld8sDisp (cmOf w.w0) (fld w.w0 10 5) (fld w.w0 5 5) (fld w.w1 0 32))
  | 0x32, 1 => need (fld w.w0 0 5 == 0)
      (.ld16 (cmOf w.w0) (fld w.w0 10 5) (fld w.w0 5 5))
  | 0x32, 2 => need (fld w.w0 0 5 == 0)
      (.ld16Disp (cmOf w.w0) (fld w.w0 10 5) (fld w.w0 5 5) (fld w.w1 0 32))
  | 0x33, 1 => need (fld w.w0 0 5 == 0)
      (.ld16s (cmOf w.w0) (fld w.w0 10 5) (fld w.w0 5 5))
  | 0x33, 2 => need (fld w.w0 0 5 == 0)
      (.ld16sDisp (cmOf w.w0) (fld w.w0 10 5) (fld w.w0 5 5) (fld w.w1 0 32))
  | 0x34, 1 => need (fld w.w0 0 5 == 0)
      (.ld32 (cmOf w.w0) (fld w.w0 10 5) (fld w.w0 5 5))
  | 0x34, 2 => need (fld w.w0 0 5 == 0)
      (.ld32Disp (cmOf w.w0) (fld w.w0 10 5) (fld w.w0 5 5) (fld w.w1 0 32))
  | 0x35, 1 => need (fld w.w0 0 5 == 0)
      (.ld32s (cmOf w.w0) (fld w.w0 10 5) (fld w.w0 5 5))
  | 0x35, 2 => need (fld w.w0 0 5 == 0)
      (.ld32sDisp (cmOf w.w0) (fld w.w0 10 5) (fld w.w0 5 5) (fld w.w1 0 32))
  | 0x36, 1 => need (fld w.w0 0 5 == 0)
      (.ld64 (cmOf w.w0) (fld w.w0 10 5) (fld w.w0 5 5))
  | 0x36, 2 => need (fld w.w0 0 5 == 0)
      (.ld64Disp (cmOf w.w0) (fld w.w0 10 5) (fld w.w0 5 5) (fld w.w1 0 32))
  | 0x37, 1 => need (fld w.w0 0 5 == 0 && fld w.w0 10 5 == 0)
      (.pref (cmOf w.w0) (fld w.w0 5 5))
  | 0x37, 2 => need (fld w.w0 0 5 == 0 && fld w.w0 10 5 == 0)
      (.prefDisp (cmOf w.w0) (fld w.w0 5 5) (fld w.w1 0 32))
  | 0x38, 1 => need (fld w.w0 10 5 == 0)
      (.st8 (cmOf w.w0) (fld w.w0 5 5) (fld w.w0 0 5))
  | 0x38, 2 => need (fld w.w0 10 5 == 0)
      (.st8Disp (cmOf w.w0) (fld w.w0 5 5) (fld w.w0 0 5) (fld w.w1 0 32))
  | 0x39, 1 => need (fld w.w0 10 5 == 0)
      (.st16 (cmOf w.w0) (fld w.w0 5 5) (fld w.w0 0 5))
  | 0x39, 2 => need (fld w.w0 10 5 == 0)
      (.st16Disp (cmOf w.w0) (fld w.w0 5 5) (fld w.w0 0 5) (fld w.w1 0 32))
  | 0x3A, 1 => need (fld w.w0 10 5 == 0)
      (.st32 (cmOf w.w0) (fld w.w0 5 5) (fld w.w0 0 5))
  | 0x3A, 2 => need (fld w.w0 10 5 == 0)
      (.st32Disp (cmOf w.w0) (fld w.w0 5 5) (fld w.w0 0 5) (fld w.w1 0 32))
  | 0x3B, 1 => need (fld w.w0 10 5 == 0)
      (.st64 (cmOf w.w0) (fld w.w0 5 5) (fld w.w0 0 5))
  | 0x3B, 2 => need (fld w.w0 10 5 == 0)
      (.st64Disp (cmOf w.w0) (fld w.w0 5 5) (fld w.w0 0 5) (fld w.w1 0 32))
  | 0x40, 2 => need (fld w.w1 3 5 == 0)
      (.aadd (cmOf w.w0) (fld w.w0 10 5) (fld w.w0 5 5) (fld w.w0 0 5) (fld w.w1 8 24) (fld w.w1 0 3))
  | 0x41, 2 => need (fld w.w1 3 5 == 0)
      (.aand (cmOf w.w0) (fld w.w0 10 5) (fld w.w0 5 5) (fld w.w0 0 5) (fld w.w1 8 24) (fld w.w1 0 3))
  | 0x42, 2 => need (fld w.w1 3 5 == 0)
      (.aor (cmOf w.w0) (fld w.w0 10 5) (fld w.w0 5 5) (fld w.w0 0 5) (fld w.w1 8 24) (fld w.w1 0 3))
  | 0x43, 2 => need (fld w.w1 3 5 == 0)
      (.axor (cmOf w.w0) (fld w.w0 10 5) (fld w.w0 5 5) (fld w.w0 0 5) (fld w.w1 8 24) (fld w.w1 0 3))
  | 0x44, 2 => need (fld w.w1 3 5 == 0)
      (.amin (cmOf w.w0) (fld w.w0 10 5) (fld w.w0 5 5) (fld w.w0 0 5) (fld w.w1 8 24) (fld w.w1 0 3))
  | 0x45, 2 => need (fld w.w1 3 5 == 0)
      (.amax (cmOf w.w0) (fld w.w0 10 5) (fld w.w0 5 5) (fld w.w0 0 5) (fld w.w1 8 24) (fld w.w1 0 3))
  | 0x46, 2 => need (fld w.w1 3 5 == 0)
      (.aminu (cmOf w.w0) (fld w.w0 10 5) (fld w.w0 5 5) (fld w.w0 0 5) (fld w.w1 8 24) (fld w.w1 0 3))
  | 0x47, 2 => need (fld w.w1 3 5 == 0)
      (.amaxu (cmOf w.w0) (fld w.w0 10 5) (fld w.w0 5 5) (fld w.w0 0 5) (fld w.w1 8 24) (fld w.w1 0 3))
  | 0x48, 2 => need (fld w.w1 3 5 == 0)
      (.aswap (cmOf w.w0) (fld w.w0 10 5) (fld w.w0 5 5) (fld w.w0 0 5) (fld w.w1 8 24) (fld w.w1 0 3))
  | 0x49, 2 => need (fld w.w1 3 5 == 0)
      (.acas (cmOf w.w0) (fld w.w0 10 5) (fld w.w0 5 5) (fld w.w0 0 5) (fld w.w1 8 24) (fld w.w1 0 3))
  | _, _ => .error .opcode

/-- The control map (R50, R102), rows 0x5 to 0x9. -/
def parseControlSystem (opc len : Nat) (w : Words) : Except Reject Instr :=
  match opc, len with
  | 0x50, 1 => need (fld w.w0 3 12 == 0)
      (.fence (cmOf w.w0) (fld w.w0 0 3))
  | 0x51, 2 => need (fld w.w0 3 12 == 0 && fld w.w1 7 1 == 0 && fld w.w1 15 17 == 0)
      (.xfence (cmOf w.w0) (fld w.w0 0 3) (fld w.w1 0 7) (fld w.w1 8 7))
  | 0x52, 1 => need (fld w.w0 0 15 == 0)
      (.phase (cmOf w.w0))
  | 0x53, 1 => need (fld w.w0 0 5 == 0)
      (.bopen (cmOf w.w0) (fld w.w0 10 5) (fld w.w0 5 5))
  | 0x54, 1 => need (fld w.w0 0 10 == 0)
      (.bseal (cmOf w.w0) (fld w.w0 10 5))
  | 0x55, 1 => need (fld w.w0 0 15 == 0)
      (.babort (cmOf w.w0))
  | 0x60, 2 => need (fld w.w0 0 10 == 0 && fld w.w0 13 2 == 0 && fld w.w1 28 4 == 0)
      (.pbr (cmOf w.w0) (fld w.w0 10 3) (fld w.w1 0 28))
  | 0x61, 1 => need (fld w.w0 0 5 == 0 && fld w.w0 13 2 == 0)
      (.pbrr (cmOf w.w0) (fld w.w0 10 3) (fld w.w0 5 5))
  | 0x62, 1 => need (fld w.w0 2 3 == 0 && fld w.w0 13 2 == 0)
      (.br (cmOf w.w0) (fld w.w0 10 3) (fld w.w0 5 5) (fld w.w0 0 2))
  | 0x63, 1 => need (fld w.w0 0 10 == 0 && fld w.w0 13 2 == 0)
      (.bra (cmOf w.w0) (fld w.w0 10 3))
  | 0x64, 1 => need (fld w.w0 0 10 == 0 && fld w.w0 13 2 == 0)
      (.call (cmOf w.w0) (fld w.w0 10 3))
  | 0x70, 2 => need (fld w.w0 0 15 == 0 && fld w.w1 28 4 == 0)
      (.fork (cmOf w.w0) (fld w.w1 0 24) (fld w.w1 24 4))
  | 0x71, 1 => need (fld w.w0 4 11 == 0)
      (.rdv (cmOf w.w0) (fld w.w0 0 4))
  | 0x72, 1 => need (fld w.w0 0 5 == 0 && fld w.w0 12 3 == 0)
      (.steer (cmOf w.w0) (fld w.w0 10 2) (fld w.w0 5 5))
  | 0x72, 2 => need (fld w.w0 0 10 == 0 && fld w.w0 12 3 == 0 && fld w.w1 24 8 == 0)
      (.steerImm (cmOf w.w0) (fld w.w0 10 2) (fld w.w1 0 24))
  | 0x73, 1 => need (fld w.w0 4 1 == 0 && fld w.w0 12 3 == 0)
      (.earg (cmOf w.w0) (fld w.w0 10 2) (fld w.w0 5 5) (fld w.w0 0 4))
  | 0x74, 1 => need (fld w.w0 8 2 == 0 && fld w.w0 13 2 == 0)
      (.waitcc (cmOf w.w0) (fld w.w0 10 3) (fld w.w0 0 8))
  | 0x75, 4 => need (fld w.w0 0 10 == 0 && fld w.w0 14 1 == 0 && fld w.w2 25 7 == 0 && fld w.w3 0 32 == 0)
      (.cbset (cmOf w.w0) (fld w.w0 10 4) ⟨fld w.w2 0 4, fld w.w1 0 32, flag w.w2 24, fld w.w2 12 12, fld w.w2 4 8⟩)
  | 0x76, 1 => need (fld w.w0 5 5 == 0)
      (.cbwait (cmOf w.w0) (fld w.w0 10 4) (flag w.w0 14) (fld w.w0 0 5))
  | 0x77, 1 => need (fld w.w0 5 5 == 0)
      (.cbadv (cmOf w.w0) (fld w.w0 10 4) (flag w.w0 14) (fld w.w0 0 5))
  | 0x80, 1 => need (fld w.w0 0 10 == 0)
      (.item (cmOf w.w0) (fld w.w0 10 5))
  | 0x81, 1 => need (fld w.w0 0 5 == 0)
      (.emit (cmOf w.w0) (fld w.w0 10 5) (fld w.w0 5 5))
  | 0x82, 1 => need (fld w.w0 0 15 == 0)
      (.yield (cmOf w.w0))
  | 0x90, 1 => need (fld w.w0 8 2 == 0)
      (.mfs (cmOf w.w0) (fld w.w0 10 5) (fld w.w0 0 8))
  | 0x91, 1 => need (fld w.w0 8 2 == 0)
      (.mts (cmOf w.w0) (fld w.w0 10 5) (fld w.w0 0 8))
  | 0x92, 1 => need (fld w.w0 10 5 == 0)
      (.trap (cmOf w.w0) (fld w.w0 0 10))
  | 0x93, 1 => need (fld w.w0 0 15 == 0)
      (.tret (cmOf w.w0))
  | 0x94, 1 => need (fld w.w0 0 15 == 0)
      (.endOp (cmOf w.w0))
  | _, _ => .error .opcode

/-- The control map (R50, R102). -/
def parseControl (opc len : Nat) (w : Words) : Except Reject Instr :=
  if opc < 0x20 then parseControlArith opc len w
  else if opc < 0x50 then parseControlMemory opc len w
  else parseControlSystem opc len w

/-- The walker map (R51, R175 to R179). -/
def parseWalker (opc len : Nat) (w : Words) : Except Reject Instr :=
  match opc, len with
  | 0x01, 2 => need (fld w.w0 0 9 == 0 && fld w.w1 0 14 == 0)
      (.wcfg (syncOf w.w0) ⟨flag w.w0 15, flag w.w0 14, flag w.w0 13, fld w.w0 9 4, fld w.w1 24 8, fld w.w1 14 10⟩)
  | 0x02, 2 => need (fld w.w0 0 8 == 0 && fld w.w1 4 28 == 0)
      (.wbmap (syncOf w.w0) ⟨fld w.w0 12 4, fld w.w0 8 4, flag w.w1 3, fld w.w1 0 3⟩)
  | 0x03, 2 => need (fld w.w0 0 8 == 0 && fld w.w1 4 28 == 0)
      (.wcoord (syncOf w.w0) ⟨fld w.w0 12 4, fld w.w0 8 4, flag w.w1 3, fld w.w1 0 3⟩)
  | 0x04, 2 => need (fld w.w0 0 8 == 0 && fld w.w1 4 28 == 0)
      (.wdense (syncOf w.w0) ⟨fld w.w0 12 4, fld w.w0 8 4, flag w.w1 3, fld w.w1 0 3⟩)
  | 0x05, 1 => need (fld w.w0 0 12 == 0)
      (.wmark (syncOf w.w0) (fld w.w0 12 4))
  | _, _ => .error .opcode

/-- The vector map (R52, R139 to R172). -/
def parseVector (opc len : Nat) (w : Words) : Except Reject Instr :=
  match opc, len with
  | 0x01, 2 => need (fld w.w0 0 3 == 0 && fld w.w1 0 20 == 0)
      (.vrd (syncOf w.w0) ⟨fld w.w0 14 2, fld w.w0 10 4, fld w.w0 6 4, fld w.w0 3 3, fld w.w1 20 12⟩)
  | 0x01, 4 => need (fld w.w0 0 3 == 0 && fld w.w1 0 20 == 0 && fld w.w3 0 11 == 0)
      (.vrdLong (syncOf w.w0) ⟨fld w.w0 14 2, fld w.w0 10 4, fld w.w0 6 4, fld w.w0 3 3, fld w.w1 20 12⟩ ⟨fld w.w2 0 32, flag w.w3 31, fld w.w3 27 4, fld w.w3 15 12, flag w.w3 14, fld w.w3 11 3⟩)
  | 0x02, 2 => need (fld w.w1 0 18 == 0)
      (.vwr (syncOf w.w0) ⟨fld w.w0 10 6, fld w.w0 6 4, fld w.w0 2 4, fld w.w0 0 2, fld w.w1 20 12, flag w.w1 19, flag w.w1 18⟩)
  | 0x02, 4 => need (fld w.w1 0 18 == 0 && fld w.w3 0 11 == 0)
      (.vwrLong (syncOf w.w0) ⟨fld w.w0 10 6, fld w.w0 6 4, fld w.w0 2 4, fld w.w0 0 2, fld w.w1 20 12, flag w.w1 19, flag w.w1 18⟩ ⟨fld w.w2 0 32, flag w.w3 31, fld w.w3 27 4, fld w.w3 15 12, flag w.w3 14, fld w.w3 11 3⟩)
  | 0x03, 4 => need (fld w.w0 0 2 == 0 && fld w.w1 0 3 == 0 && fld w.w1 5 1 == 0 && fld w.w2 0 32 == 0 && fld w.w3 0 32 == 0)
      (.vgath (syncOf w.w0) ⟨fld w.w0 10 6, fld w.w0 6 4, fld w.w0 2 4, fld w.w1 20 12, fld w.w1 14 6, fld w.w1 9 5, flag w.w1 8, flag w.w1 7, flag w.w1 6, flag w.w1 4, flag w.w1 3⟩)
  | 0x04, 4 => need (fld w.w1 0 3 == 0 && fld w.w1 7 3 == 0 && fld w.w2 0 32 == 0 && fld w.w3 0 11 == 0 && fld w.w3 15 17 == 0)
      (.vscat (syncOf w.w0) ⟨fld w.w0 10 6, fld w.w0 4 6, fld w.w0 0 4, fld w.w1 20 12, fld w.w1 14 6, fld w.w1 10 4, flag w.w1 6, flag w.w1 5, flag w.w1 4, flag w.w1 3, flag w.w3 14, fld w.w3 11 3⟩)
  | 0x05, 1 => need (true)
      (.vmov (syncOf w.w0) ⟨fld w.w0 10 6, fld w.w0 4 6, fld w.w0 2 2, fld w.w0 0 2⟩)
  | 0x05, 2 => need (true)
      (.vmovV2 (syncOf w.w0) ⟨fld w.w0 10 6, fld w.w0 4 6, fld w.w0 2 2, fld w.w0 0 2, fld w.w1 20 12, fld w.w1 14 6, fld w.w1 9 5, flag w.w1 8, flag w.w1 7, flag w.w1 6, flag w.w1 5, flag w.w1 4, fld w.w1 0 4⟩)
  | 0x06, 2 => need (fld w.w0 0 5 == 0)
      (.vsplat (syncOf w.w0) ⟨fld w.w0 11 5, fld w.w0 6 5, flag w.w0 5, fld w.w1 0 32⟩)
  | 0x10, 1 => need (true)
      (.vadd (syncOf w.w0) ⟨fld w.w0 10 6, fld w.w0 4 6, fld w.w0 2 2, fld w.w0 0 2⟩)
  | 0x10, 2 => need (true)
      (.vaddV2 (syncOf w.w0) ⟨fld w.w0 10 6, fld w.w0 4 6, fld w.w0 2 2, fld w.w0 0 2, fld w.w1 20 12, fld w.w1 14 6, fld w.w1 9 5, flag w.w1 8, flag w.w1 7, flag w.w1 6, flag w.w1 5, flag w.w1 4, fld w.w1 0 4⟩)
  | 0x11, 1 => need (true)
      (.vsub (syncOf w.w0) ⟨fld w.w0 10 6, fld w.w0 4 6, fld w.w0 2 2, fld w.w0 0 2⟩)
  | 0x11, 2 => need (true)
      (.vsubV2 (syncOf w.w0) ⟨fld w.w0 10 6, fld w.w0 4 6, fld w.w0 2 2, fld w.w0 0 2, fld w.w1 20 12, fld w.w1 14 6, fld w.w1 9 5, flag w.w1 8, flag w.w1 7, flag w.w1 6, flag w.w1 5, flag w.w1 4, fld w.w1 0 4⟩)
  | 0x12, 1 => need (true)
      (.vmul (syncOf w.w0) ⟨fld w.w0 10 6, fld w.w0 4 6, fld w.w0 2 2, fld w.w0 0 2⟩)
  | 0x12, 2 => need (true)
      (.vmulV2 (syncOf w.w0) ⟨fld w.w0 10 6, fld w.w0 4 6, fld w.w0 2 2, fld w.w0 0 2, fld w.w1 20 12, fld w.w1 14 6, fld w.w1 9 5, flag w.w1 8, flag w.w1 7, flag w.w1 6, flag w.w1 5, flag w.w1 4, fld w.w1 0 4⟩)
  | 0x13, 1 => need (true)
      (.vfma (syncOf w.w0) ⟨fld w.w0 10 6, fld w.w0 4 6, fld w.w0 2 2, fld w.w0 0 2⟩)
  | 0x13, 2 => need (true)
      (.vfmaV2 (syncOf w.w0) ⟨fld w.w0 10 6, fld w.w0 4 6, fld w.w0 2 2, fld w.w0 0 2, fld w.w1 20 12, fld w.w1 14 6, fld w.w1 9 5, flag w.w1 8, flag w.w1 7, flag w.w1 6, flag w.w1 5, flag w.w1 4, fld w.w1 0 4⟩)
  | 0x14, 1 => need (true)
      (.vmin (syncOf w.w0) ⟨fld w.w0 10 6, fld w.w0 4 6, fld w.w0 2 2, fld w.w0 0 2⟩)
  | 0x14, 2 => need (true)
      (.vminV2 (syncOf w.w0) ⟨fld w.w0 10 6, fld w.w0 4 6, fld w.w0 2 2, fld w.w0 0 2, fld w.w1 20 12, fld w.w1 14 6, fld w.w1 9 5, flag w.w1 8, flag w.w1 7, flag w.w1 6, flag w.w1 5, flag w.w1 4, fld w.w1 0 4⟩)
  | 0x15, 1 => need (true)
      (.vmax (syncOf w.w0) ⟨fld w.w0 10 6, fld w.w0 4 6, fld w.w0 2 2, fld w.w0 0 2⟩)
  | 0x15, 2 => need (true)
      (.vmaxV2 (syncOf w.w0) ⟨fld w.w0 10 6, fld w.w0 4 6, fld w.w0 2 2, fld w.w0 0 2, fld w.w1 20 12, fld w.w1 14 6, fld w.w1 9 5, flag w.w1 8, flag w.w1 7, flag w.w1 6, flag w.w1 5, flag w.w1 4, fld w.w1 0 4⟩)
  | 0x16, 1 => need (true)
      (.vabs (syncOf w.w0) ⟨fld w.w0 10 6, fld w.w0 4 6, fld w.w0 2 2, fld w.w0 0 2⟩)
  | 0x16, 2 => need (true)
      (.vabsV2 (syncOf w.w0) ⟨fld w.w0 10 6, fld w.w0 4 6, fld w.w0 2 2, fld w.w0 0 2, fld w.w1 20 12, fld w.w1 14 6, fld w.w1 9 5, flag w.w1 8, flag w.w1 7, flag w.w1 6, flag w.w1 5, flag w.w1 4, fld w.w1 0 4⟩)
  | 0x17, 1 => need (true)
      (.vneg (syncOf w.w0) ⟨fld w.w0 10 6, fld w.w0 4 6, fld w.w0 2 2, fld w.w0 0 2⟩)
  | 0x17, 2 => need (true)
      (.vnegV2 (syncOf w.w0) ⟨fld w.w0 10 6, fld w.w0 4 6, fld w.w0 2 2, fld w.w0 0 2, fld w.w1 20 12, fld w.w1 14 6, fld w.w1 9 5, flag w.w1 8, flag w.w1 7, flag w.w1 6, flag w.w1 5, flag w.w1 4, fld w.w1 0 4⟩)
  | 0x18, 1 => need (true)
      (.vand (syncOf w.w0) ⟨fld w.w0 10 6, fld w.w0 4 6, fld w.w0 2 2, fld w.w0 0 2⟩)
  | 0x18, 2 => need (true)
      (.vandV2 (syncOf w.w0) ⟨fld w.w0 10 6, fld w.w0 4 6, fld w.w0 2 2, fld w.w0 0 2, fld w.w1 20 12, fld w.w1 14 6, fld w.w1 9 5, flag w.w1 8, flag w.w1 7, flag w.w1 6, flag w.w1 5, flag w.w1 4, fld w.w1 0 4⟩)
  | 0x19, 1 => need (true)
      (.vor (syncOf w.w0) ⟨fld w.w0 10 6, fld w.w0 4 6, fld w.w0 2 2, fld w.w0 0 2⟩)
  | 0x19, 2 => need (true)
      (.vorV2 (syncOf w.w0) ⟨fld w.w0 10 6, fld w.w0 4 6, fld w.w0 2 2, fld w.w0 0 2, fld w.w1 20 12, fld w.w1 14 6, fld w.w1 9 5, flag w.w1 8, flag w.w1 7, flag w.w1 6, flag w.w1 5, flag w.w1 4, fld w.w1 0 4⟩)
  | 0x1A, 1 => need (true)
      (.vxor (syncOf w.w0) ⟨fld w.w0 10 6, fld w.w0 4 6, fld w.w0 2 2, fld w.w0 0 2⟩)
  | 0x1A, 2 => need (true)
      (.vxorV2 (syncOf w.w0) ⟨fld w.w0 10 6, fld w.w0 4 6, fld w.w0 2 2, fld w.w0 0 2, fld w.w1 20 12, fld w.w1 14 6, fld w.w1 9 5, flag w.w1 8, flag w.w1 7, flag w.w1 6, flag w.w1 5, flag w.w1 4, fld w.w1 0 4⟩)
  | 0x1B, 1 => need (true)
      (.vshl (syncOf w.w0) ⟨fld w.w0 10 6, fld w.w0 4 6, fld w.w0 2 2, fld w.w0 0 2⟩)
  | 0x1B, 2 => need (true)
      (.vshlV2 (syncOf w.w0) ⟨fld w.w0 10 6, fld w.w0 4 6, fld w.w0 2 2, fld w.w0 0 2, fld w.w1 20 12, fld w.w1 14 6, fld w.w1 9 5, flag w.w1 8, flag w.w1 7, flag w.w1 6, flag w.w1 5, flag w.w1 4, fld w.w1 0 4⟩)
  | 0x1C, 1 => need (true)
      (.vshr (syncOf w.w0) ⟨fld w.w0 10 6, fld w.w0 4 6, fld w.w0 2 2, fld w.w0 0 2⟩)
  | 0x1C, 2 => need (true)
      (.vshrV2 (syncOf w.w0) ⟨fld w.w0 10 6, fld w.w0 4 6, fld w.w0 2 2, fld w.w0 0 2, fld w.w1 20 12, fld w.w1 14 6, fld w.w1 9 5, flag w.w1 8, flag w.w1 7, flag w.w1 6, flag w.w1 5, flag w.w1 4, fld w.w1 0 4⟩)
  | 0x1D, 1 => need (true)
      (.vsra (syncOf w.w0) ⟨fld w.w0 10 6, fld w.w0 4 6, fld w.w0 2 2, fld w.w0 0 2⟩)
  | 0x1D, 2 => need (true)
      (.vsraV2 (syncOf w.w0) ⟨fld w.w0 10 6, fld w.w0 4 6, fld w.w0 2 2, fld w.w0 0 2, fld w.w1 20 12, fld w.w1 14 6, fld w.w1 9 5, flag w.w1 8, flag w.w1 7, flag w.w1 6, flag w.w1 5, flag w.w1 4, fld w.w1 0 4⟩)
  | 0x20, 1 => need (true)
      (.vcmp (syncOf w.w0) ⟨fld w.w0 10 6, fld w.w0 4 6, fld w.w0 2 2, fld w.w0 0 2⟩)
  | 0x20, 2 => need (true)
      (.vcmpV2 (syncOf w.w0) ⟨fld w.w0 10 6, fld w.w0 4 6, fld w.w0 2 2, fld w.w0 0 2, fld w.w1 20 12, fld w.w1 14 6, fld w.w1 9 5, flag w.w1 8, flag w.w1 7, flag w.w1 6, flag w.w1 5, flag w.w1 4, fld w.w1 0 4⟩)
  | 0x21, 1 => need (true)
      (.vsel (syncOf w.w0) ⟨fld w.w0 10 6, fld w.w0 4 6, fld w.w0 2 2, fld w.w0 0 2⟩)
  | 0x21, 2 => need (true)
      (.vselV2 (syncOf w.w0) ⟨fld w.w0 10 6, fld w.w0 4 6, fld w.w0 2 2, fld w.w0 0 2, fld w.w1 20 12, fld w.w1 14 6, fld w.w1 9 5, flag w.w1 8, flag w.w1 7, flag w.w1 6, flag w.w1 5, flag w.w1 4, fld w.w1 0 4⟩)
  | 0x22, 2 => need (true)
      (.vclmp (syncOf w.w0) ⟨fld w.w0 10 6, fld w.w0 4 6, fld w.w0 2 2, fld w.w0 0 2, fld w.w1 20 12, fld w.w1 14 6, fld w.w1 9 5, flag w.w1 8, flag w.w1 7, flag w.w1 6, flag w.w1 5, flag w.w1 4, fld w.w1 0 4⟩)
  | 0x23, 1 => need (true)
      (.vcvt (syncOf w.w0) ⟨fld w.w0 10 6, fld w.w0 5 5, fld w.w0 0 5⟩)
  | 0x23, 2 => need (fld w.w1 0 1 == 0 && fld w.w1 4 2 == 0 && fld w.w1 14 6 == 0)
      (.vcvtV2 (syncOf w.w0) ⟨fld w.w0 10 6, fld w.w0 5 5, fld w.w0 0 5, fld w.w1 20 12, fld w.w1 9 5, flag w.w1 8, flag w.w1 7, flag w.w1 6, fld w.w1 2 2, flag w.w1 1⟩)
  | 0x24, 2 => need (fld w.w0 0 2 == 0 && fld w.w1 0 5 == 0 && fld w.w1 19 1 == 0)
      (.vqnt (syncOf w.w0) ⟨fld w.w0 10 6, fld w.w0 4 6, fld w.w0 2 2, fld w.w1 20 12, fld w.w1 14 5, fld w.w1 9 5, flag w.w1 8, flag w.w1 7, flag w.w1 6, flag w.w1 5⟩)
  | 0x30, 1 => need (true)
      (.vrcp (syncOf w.w0) ⟨fld w.w0 10 6, fld w.w0 4 6, fld w.w0 2 2, fld w.w0 0 2⟩)
  | 0x30, 2 => need (true)
      (.vrcpV2 (syncOf w.w0) ⟨fld w.w0 10 6, fld w.w0 4 6, fld w.w0 2 2, fld w.w0 0 2, fld w.w1 20 12, fld w.w1 14 6, fld w.w1 9 5, flag w.w1 8, flag w.w1 7, flag w.w1 6, flag w.w1 5, flag w.w1 4, fld w.w1 0 4⟩)
  | 0x31, 1 => need (true)
      (.vrsq (syncOf w.w0) ⟨fld w.w0 10 6, fld w.w0 4 6, fld w.w0 2 2, fld w.w0 0 2⟩)
  | 0x31, 2 => need (true)
      (.vrsqV2 (syncOf w.w0) ⟨fld w.w0 10 6, fld w.w0 4 6, fld w.w0 2 2, fld w.w0 0 2, fld w.w1 20 12, fld w.w1 14 6, fld w.w1 9 5, flag w.w1 8, flag w.w1 7, flag w.w1 6, flag w.w1 5, flag w.w1 4, fld w.w1 0 4⟩)
  | 0x32, 1 => need (true)
      (.vexp2 (syncOf w.w0) ⟨fld w.w0 10 6, fld w.w0 4 6, fld w.w0 2 2, fld w.w0 0 2⟩)
  | 0x32, 2 => need (true)
      (.vexp2V2 (syncOf w.w0) ⟨fld w.w0 10 6, fld w.w0 4 6, fld w.w0 2 2, fld w.w0 0 2, fld w.w1 20 12, fld w.w1 14 6, fld w.w1 9 5, flag w.w1 8, flag w.w1 7, flag w.w1 6, flag w.w1 5, flag w.w1 4, fld w.w1 0 4⟩)
  | 0x33, 1 => need (true)
      (.vlog2 (syncOf w.w0) ⟨fld w.w0 10 6, fld w.w0 4 6, fld w.w0 2 2, fld w.w0 0 2⟩)
  | 0x33, 2 => need (true)
      (.vlog2V2 (syncOf w.w0) ⟨fld w.w0 10 6, fld w.w0 4 6, fld w.w0 2 2, fld w.w0 0 2, fld w.w1 20 12, fld w.w1 14 6, fld w.w1 9 5, flag w.w1 8, flag w.w1 7, flag w.w1 6, flag w.w1 5, flag w.w1 4, fld w.w1 0 4⟩)
  | 0x34, 1 => need (true)
      (.vred (syncOf w.w0) ⟨fld w.w0 10 6, fld w.w0 4 6, fld w.w0 2 2, fld w.w0 0 2⟩)
  | 0x34, 2 => need (true)
      (.vredV2 (syncOf w.w0) ⟨fld w.w0 10 6, fld w.w0 4 6, fld w.w0 2 2, fld w.w0 0 2, fld w.w1 20 12, fld w.w1 14 6, fld w.w1 9 5, flag w.w1 8, flag w.w1 7, flag w.w1 6, flag w.w1 5, flag w.w1 4, fld w.w1 0 4⟩)
  | 0x35, 1 => need (true)
      (.vscan (syncOf w.w0) ⟨fld w.w0 10 6, fld w.w0 4 6, fld w.w0 2 2, fld w.w0 0 2⟩)
  | 0x35, 2 => need (true)
      (.vscanV2 (syncOf w.w0) ⟨fld w.w0 10 6, fld w.w0 4 6, fld w.w0 2 2, fld w.w0 0 2, fld w.w1 20 12, fld w.w1 14 6, fld w.w1 9 5, flag w.w1 8, flag w.w1 7, flag w.w1 6, flag w.w1 5, flag w.w1 4, fld w.w1 0 4⟩)
  | 0x40, 2 => need (true)
      (.vpart (syncOf w.w0) ⟨fld w.w0 10 6, fld w.w0 4 6, fld w.w0 2 2, fld w.w0 0 2, fld w.w1 20 12, fld w.w1 14 6, fld w.w1 9 5, flag w.w1 8, flag w.w1 7, flag w.w1 6, flag w.w1 5, flag w.w1 4, fld w.w1 0 4⟩)
  | 0x41, 1 => need (true)
      (.viota (syncOf w.w0) ⟨fld w.w0 10 6, fld w.w0 4 6, fld w.w0 2 2, fld w.w0 0 2⟩)
  | 0x42, 1 => need (true)
      (.vshuf (syncOf w.w0) ⟨fld w.w0 10 6, fld w.w0 4 6, fld w.w0 2 2, fld w.w0 0 2⟩)
  | 0x42, 2 => need (true)
      (.vshufV2 (syncOf w.w0) ⟨fld w.w0 10 6, fld w.w0 4 6, fld w.w0 2 2, fld w.w0 0 2, fld w.w1 20 12, fld w.w1 14 6, fld w.w1 9 5, flag w.w1 8, flag w.w1 7, flag w.w1 6, flag w.w1 5, flag w.w1 4, fld w.w1 0 4⟩)
  | 0x43, 2 => need (true)
      (.vpack (syncOf w.w0) ⟨fld w.w0 10 6, fld w.w0 4 6, fld w.w0 2 2, fld w.w0 0 2, fld w.w1 20 12, fld w.w1 14 6, fld w.w1 9 5, flag w.w1 8, flag w.w1 7, flag w.w1 6, flag w.w1 5, flag w.w1 4, fld w.w1 0 4⟩)
  | 0x44, 2 => need (true)
      (.vunpk (syncOf w.w0) ⟨fld w.w0 10 6, fld w.w0 4 6, fld w.w0 2 2, fld w.w0 0 2, fld w.w1 20 12, fld w.w1 14 6, fld w.w1 9 5, flag w.w1 8, flag w.w1 7, flag w.w1 6, flag w.w1 5, flag w.w1 4, fld w.w1 0 4⟩)
  | _, _ => .error .opcode

/-- The matrix map (R53, R185 to R200). -/
def parseMatrix (opc len : Nat) (w : Words) : Except Reject Instr :=
  match opc, len with
  | 0x01, 1 => need (fld w.w0 0 12 == 0)
      (.mlease (syncOf w.w0) (fld w.w0 12 4))
  | 0x02, 1 => need (fld w.w0 0 16 == 0)
      (.mrel (syncOf w.w0))
  | 0x03, 2 => need (fld w.w0 0 4 == 0 && fld w.w1 10 22 == 0)
      (.mcfg (syncOf w.w0) ⟨fld w.w0 15 1, fld w.w0 13 2, fld w.w0 4 9, fld w.w1 5 5, fld w.w1 0 5⟩)
  | 0x04, 1 => need (fld w.w0 0 15 == 0)
      (.mzero (syncOf w.w0) (fld w.w0 15 1))
  | 0x10, 2 => need (fld w.w0 0 7 == 0 && fld w.w1 0 23 == 0)
      (.mlds (syncOf w.w0) ⟨fld w.w0 15 1, fld w.w0 11 4, fld w.w0 7 4, fld w.w1 23 9⟩)
  | 0x10, 4 => need (fld w.w0 0 7 == 0 && fld w.w1 0 23 == 0 && fld w.w3 0 11 == 0)
      (.mldsLong (syncOf w.w0) ⟨fld w.w0 15 1, fld w.w0 11 4, fld w.w0 7 4, fld w.w1 23 9⟩ ⟨fld w.w2 0 32, flag w.w3 31, fld w.w3 27 4, fld w.w3 15 12, flag w.w3 14, fld w.w3 11 3⟩)
  | 0x11, 1 => need (fld w.w0 0 16 == 0)
      (.mswap (syncOf w.w0))
  | 0x20, 4 => need (fld w.w0 0 7 == 0 && fld w.w1 0 17 == 0 && fld w.w3 0 11 == 0)
      (.mstr (syncOf w.w0) ⟨fld w.w0 15 1, fld w.w0 11 4, fld w.w0 7 4, fld w.w1 24 8, fld w.w1 17 7⟩ ⟨fld w.w2 0 32, flag w.w3 31, fld w.w3 27 4, fld w.w3 15 12, flag w.w3 14, fld w.w3 11 3⟩)
  | 0x21, 4 => need (fld w.w0 0 7 == 0 && fld w.w1 0 3 == 0 && fld w.w3 0 11 == 0 && fld w.w3 15 17 == 0)
      (.mconv (syncOf w.w0) ⟨fld w.w0 15 1, fld w.w0 11 4, fld w.w0 7 4, fld w.w1 24 8, fld w.w1 17 7, fld w.w1 14 3, fld w.w1 11 3, fld w.w1 9 2, fld w.w1 7 2, fld w.w1 5 2, fld w.w1 3 2, fld w.w2 16 16, fld w.w2 0 16, flag w.w3 14, fld w.w3 11 3⟩)
  | 0x22, 2 => need (fld w.w0 0 15 == 0 && fld w.w1 4 28 == 0)
      (.mspr (syncOf w.w0) ⟨fld w.w0 15 1, flag w.w1 3, fld w.w1 0 3⟩)
  | 0x30, 2 => need (fld w.w0 0 5 == 0 && fld w.w1 0 17 == 0)
      (.mdrn (syncOf w.w0) ⟨fld w.w0 15 1, fld w.w0 11 4, fld w.w0 7 4, fld w.w0 5 2, fld w.w1 24 8, fld w.w1 17 7⟩)
  | 0x30, 4 => need (fld w.w0 0 5 == 0 && fld w.w1 0 17 == 0 && fld w.w3 0 11 == 0)
      (.mdrnLong (syncOf w.w0) ⟨fld w.w0 15 1, fld w.w0 11 4, fld w.w0 7 4, fld w.w0 5 2, fld w.w1 24 8, fld w.w1 17 7⟩ ⟨fld w.w2 0 32, flag w.w3 31, fld w.w3 27 4, fld w.w3 15 12, flag w.w3 14, fld w.w3 11 3⟩)
  | _, _ => .error .opcode

/-- The copy map (R54, R207, R208). -/
def parseCopy (opc len : Nat) (w : Words) : Except Reject Instr :=
  match opc, len with
  | 0x01, 4 => need (fld w.w0 0 1 == 0 && fld w.w1 0 6 == 0 && fld w.w3 0 7 == 0)
      (.kcopy (syncOf w.w0) ⟨fld w.w0 12 4, fld w.w0 8 4, fld w.w0 4 4, fld w.w0 2 2, flag w.w0 1, fld w.w1 20 12, fld w.w1 15 5, fld w.w1 10 5, flag w.w1 9, fld w.w1 6 3, fld w.w2 0 32, fld w.w3 30 2, fld w.w3 28 2, fld w.w3 26 2, flag w.w3 25, flag w.w3 24, fld w.w3 20 4, fld w.w3 8 12, flag w.w3 7⟩)
  | 0x02, 4 => need (fld w.w0 0 1 == 0 && fld w.w1 0 6 == 0 && fld w.w3 0 7 == 0)
      (.k2d (syncOf w.w0) ⟨fld w.w0 12 4, fld w.w0 8 4, fld w.w0 4 4, fld w.w0 2 2, flag w.w0 1, fld w.w1 20 12, fld w.w1 15 5, fld w.w1 10 5, flag w.w1 9, fld w.w1 6 3, fld w.w2 0 32, fld w.w3 30 2, fld w.w3 28 2, fld w.w3 26 2, flag w.w3 25, flag w.w3 24, fld w.w3 20 4, fld w.w3 8 12, flag w.w3 7⟩)
  | 0x03, 4 => need (fld w.w0 0 1 == 0 && fld w.w1 0 6 == 0 && fld w.w3 0 7 == 0)
      (.kgath (syncOf w.w0) ⟨fld w.w0 12 4, fld w.w0 8 4, fld w.w0 4 4, fld w.w0 2 2, flag w.w0 1, fld w.w1 20 12, fld w.w1 15 5, fld w.w1 10 5, flag w.w1 9, fld w.w1 6 3, fld w.w2 0 32, fld w.w3 30 2, fld w.w3 28 2, fld w.w3 26 2, flag w.w3 25, flag w.w3 24, fld w.w3 20 4, fld w.w3 8 12, flag w.w3 7⟩)
  | 0x04, 4 => need (fld w.w0 0 1 == 0 && fld w.w1 0 6 == 0 && fld w.w3 0 7 == 0)
      (.kscat (syncOf w.w0) ⟨fld w.w0 12 4, fld w.w0 8 4, fld w.w0 4 4, fld w.w0 2 2, flag w.w0 1, fld w.w1 20 12, fld w.w1 15 5, fld w.w1 10 5, flag w.w1 9, fld w.w1 6 3, fld w.w2 0 32, fld w.w3 30 2, fld w.w3 28 2, fld w.w3 26 2, flag w.w3 25, flag w.w3 24, fld w.w3 20 4, fld w.w3 8 12, flag w.w3 7⟩)
  | 0x05, 4 => need (fld w.w0 0 1 == 0 && fld w.w1 0 6 == 0 && fld w.w3 0 7 == 0)
      (.kfill (syncOf w.w0) ⟨fld w.w0 12 4, fld w.w0 8 4, fld w.w0 4 4, fld w.w0 2 2, flag w.w0 1, fld w.w1 20 12, fld w.w1 15 5, fld w.w1 10 5, flag w.w1 9, fld w.w1 6 3, fld w.w2 0 32, fld w.w3 30 2, fld w.w3 28 2, fld w.w3 26 2, flag w.w3 25, flag w.w3 24, fld w.w3 20 4, fld w.w3 8 12, flag w.w3 7⟩)
  | 0x06, 4 => need (fld w.w0 0 1 == 0 && fld w.w1 0 6 == 0 && fld w.w3 0 7 == 0)
      (.kpf (syncOf w.w0) ⟨fld w.w0 12 4, fld w.w0 8 4, fld w.w0 4 4, fld w.w0 2 2, flag w.w0 1, fld w.w1 20 12, fld w.w1 15 5, fld w.w1 10 5, flag w.w1 9, fld w.w1 6 3, fld w.w2 0 32, fld w.w3 30 2, fld w.w3 28 2, fld w.w3 26 2, flag w.w3 25, flag w.w3 24, fld w.w3 20 4, fld w.w3 8 12, flag w.w3 7⟩)
  | 0x10, 4 => need (fld w.w0 0 1 == 0 && fld w.w1 0 6 == 0 && fld w.w3 0 7 == 0)
      (.kenc (syncOf w.w0) ⟨fld w.w0 12 4, fld w.w0 8 4, fld w.w0 4 4, fld w.w0 2 2, flag w.w0 1, fld w.w1 20 12, fld w.w1 15 5, fld w.w1 10 5, flag w.w1 9, fld w.w1 6 3, fld w.w2 0 32, fld w.w3 30 2, fld w.w3 28 2, fld w.w3 26 2, flag w.w3 25, flag w.w3 24, fld w.w3 20 4, fld w.w3 8 12, flag w.w3 7⟩)
  | 0x11, 4 => need (fld w.w0 0 1 == 0 && fld w.w1 0 6 == 0 && fld w.w3 0 7 == 0)
      (.kdec (syncOf w.w0) ⟨fld w.w0 12 4, fld w.w0 8 4, fld w.w0 4 4, fld w.w0 2 2, flag w.w0 1, fld w.w1 20 12, fld w.w1 15 5, fld w.w1 10 5, flag w.w1 9, fld w.w1 6 3, fld w.w2 0 32, fld w.w3 30 2, fld w.w3 28 2, fld w.w3 26 2, flag w.w3 25, flag w.w3 24, fld w.w3 20 4, fld w.w3 8 12, flag w.w3 7⟩)
  | 0x12, 4 => need (fld w.w0 0 1 == 0 && fld w.w1 0 6 == 0 && fld w.w3 0 7 == 0)
      (.ktab (syncOf w.w0) ⟨fld w.w0 12 4, fld w.w0 8 4, fld w.w0 4 4, fld w.w0 2 2, flag w.w0 1, fld w.w1 20 12, fld w.w1 15 5, fld w.w1 10 5, flag w.w1 9, fld w.w1 6 3, fld w.w2 0 32, fld w.w3 30 2, fld w.w3 28 2, fld w.w3 26 2, flag w.w3 25, flag w.w3 24, fld w.w3 20 4, fld w.w3 8 12, flag w.w3 7⟩)
  | 0x20, 4 => need (fld w.w0 0 1 == 0 && fld w.w1 0 6 == 0 && fld w.w3 0 7 == 0)
      (.kview (syncOf w.w0) ⟨fld w.w0 12 4, fld w.w0 8 4, fld w.w0 4 4, fld w.w0 2 2, flag w.w0 1, fld w.w1 20 12, fld w.w1 15 5, fld w.w1 10 5, flag w.w1 9, fld w.w1 6 3, fld w.w2 0 32, fld w.w3 30 2, fld w.w3 28 2, fld w.w3 26 2, flag w.w3 25, flag w.w3 24, fld w.w3 20 4, fld w.w3 8 12, flag w.w3 7⟩)
  | 0x21, 4 => need (fld w.w0 0 1 == 0 && fld w.w1 0 6 == 0 && fld w.w3 0 7 == 0)
      (.kimg (syncOf w.w0) ⟨fld w.w0 12 4, fld w.w0 8 4, fld w.w0 4 4, fld w.w0 2 2, flag w.w0 1, fld w.w1 20 12, fld w.w1 15 5, fld w.w1 10 5, flag w.w1 9, fld w.w1 6 3, fld w.w2 0 32, fld w.w3 30 2, fld w.w3 28 2, fld w.w3 26 2, flag w.w3 25, flag w.w3 24, fld w.w3 20 4, fld w.w3 8 12, flag w.w3 7⟩)
  | _, _ => .error .opcode

/-- The map of a stream (R50 to R54). -/
def parseMap (st : StreamId) (opc len : Nat) (w : Words) : Except Reject Instr :=
  match st with
  | .c => parseControl opc len w
  | .w => parseWalker opc len w
  | .v => parseVector opc len w
  | .m => parseMatrix opc len w
  | .k => parseCopy opc len w

/-- One instruction of stream `st` whose words are `w` and whose length is `len` words. -/
def parse (st : StreamId) (len : Nat) (w : Words) : Except Reject Instr :=
  if fld w.w0 28 4 == 0xF then .ok (parseHint len w)
  else parseMap st (fld w.w0 24 8).toNat len w

/-- The first four words of a list, missing ones 0. -/
def wordsOf (ws : List Word) : Words := ⟨ws.getD 0 0, ws.getD 1 0, ws.getD 2 0, ws.getD 3 0⟩

/-- Decoding of the instruction that stands first in `ws`, the rest of a line, in the map of stream `st` (R40, R44, R47). -/
def decode (st : StreamId) (ws : List Word) : Except Reject Instr :=
  if ws.getD 0 0 = 0 then .error .nothing
  else
    match lenOfCode (fld (ws.getD 0 0) 22 2).toNat with
    | none => .error .lengthCode
    | some len =>
      if ws.length < len then .error .lineEnd
      else
        match parse st len (wordsOf (ws.take len)) with
        | .error e => .error e
        | .ok i => if i.wf then .ok i else .error .badField

/-- The length in words of a decoded instruction, read from its word 0 (R40). -/
def lengthOf (ws : List Word) : Nat := (lenOfCode (fld (ws.getD 0 0) 22 2).toNat).getD 1

/-- The words of a number whose bits are laid out as the opcode table numbers them: word 0 in bits [31:0] and so on. -/
def tableWords (w : Nat) : List Word :=
  [BitVec.ofNat 32 w, BitVec.ofNat 32 (w / 2 ^ 32), BitVec.ofNat 32 (w / 2 ^ 64), BitVec.ofNat 32 (w / 2 ^ 96)]

/-- A result of decoding as an option. -/
def foundOf {α : Type} (r : Except Reject α) : Option α :=
  match r with
  | .ok a => some a
  | .error _ => none

/-- The stream in whose map the words are read where only the words are given: the first of C, V, M, W, K that accepts
them (DESIGN CHOICE, log 3: the opcode maps overlap, and a word alone does not name its stream). -/
def tableStream (ws : List Word) : Option StreamId :=
  [StreamId.c, .v, .m, .w, .k].find? fun st => (foundOf (decode st ws)).isSome

/-- The instruction that a word of the opcode table decodes to. The bits above `nbits` are 0. -/
def decodeTableWord (nbits w : Nat) : Option Instr :=
  let ws := tableWords (w % 2 ^ nbits)
  (tableStream ws).bind fun st => foundOf (decode st ws)

/-! The encoder (R41 to R43 and the layouts above). -/

/-- The sync field's six bits (R42). -/
def syncBits (y : Sync) : BitVec 6 := BitVec.ofBool y.pop ++ y.psrc ++ BitVec.ofBool y.push ++ y.pdst

/-- Word 0 from its opcode, length code, sync request and low half (R41). -/
def word0 (opc : BitVec 8) (len : BitVec 2) (y : Sync) (low : BitVec 16) : Word := opc ++ len ++ syncBits y ++ low

/-- The words of a hint (R48). -/
def encodeHint (y : Sync) (op : BitVec 4) (opnd : BitVec 16) (ext : Option HintExt) : List Word :=
  match ext with
  | none => [word0 (0xF#4 ++ op) 0 y opnd]
  | some (.two x1) => [word0 (0xF#4 ++ op) 1 y opnd, x1]
  | some (.four x1 x2 x3) => [word0 (0xF#4 ++ op) 2 y opnd, x1, x2, x3]

/-- The words of an instruction; an event has none. -/
def encode : Instr → List Word
  | .nop m =>
    [word0 0x01 0 m.sync (BitVec.ofBool m.q ++ 0#15)]
  | .add m a b c =>
    [word0 0x02 0 m.sync (BitVec.ofBool m.q ++ a ++ b ++ c)]
  | .addI m a b imm =>
    [word0 0x02 1 m.sync (BitVec.ofBool m.q ++ a ++ b ++ 0#5), (imm)]
  | .sub m a b c =>
    [word0 0x03 0 m.sync (BitVec.ofBool m.q ++ a ++ b ++ c)]
  | .subI m a b imm =>
    [word0 0x03 1 m.sync (BitVec.ofBool m.q ++ a ++ b ++ 0#5), (imm)]
  | .andG m a b c =>
    [word0 0x04 0 m.sync (BitVec.ofBool m.q ++ a ++ b ++ c)]
  | .andGI m a b imm =>
    [word0 0x04 1 m.sync (BitVec.ofBool m.q ++ a ++ b ++ 0#5), (imm)]
  | .orG m a b c =>
    [word0 0x05 0 m.sync (BitVec.ofBool m.q ++ a ++ b ++ c)]
  | .orGI m a b imm =>
    [word0 0x05 1 m.sync (BitVec.ofBool m.q ++ a ++ b ++ 0#5), (imm)]
  | .xorG m a b c =>
    [word0 0x06 0 m.sync (BitVec.ofBool m.q ++ a ++ b ++ c)]
  | .xorGI m a b imm =>
    [word0 0x06 1 m.sync (BitVec.ofBool m.q ++ a ++ b ++ 0#5), (imm)]
  | .andn m a b c =>
    [word0 0x07 0 m.sync (BitVec.ofBool m.q ++ a ++ b ++ c)]
  | .andnI m a b imm =>
    [word0 0x07 1 m.sync (BitVec.ofBool m.q ++ a ++ b ++ 0#5), (imm)]
  | .shl m a b c =>
    [word0 0x08 0 m.sync (BitVec.ofBool m.q ++ a ++ b ++ c)]
  | .shlI m a b imm =>
    [word0 0x08 1 m.sync (BitVec.ofBool m.q ++ a ++ b ++ 0#5), (imm)]
  | .shr m a b c =>
    [word0 0x09 0 m.sync (BitVec.ofBool m.q ++ a ++ b ++ c)]
  | .shrI m a b imm =>
    [word0 0x09 1 m.sync (BitVec.ofBool m.q ++ a ++ b ++ 0#5), (imm)]
  | .sra m a b c =>
    [word0 0x0A 0 m.sync (BitVec.ofBool m.q ++ a ++ b ++ c)]
  | .sraI m a b imm =>
    [word0 0x0A 1 m.sync (BitVec.ofBool m.q ++ a ++ b ++ 0#5), (imm)]
  | .rol m a b c =>
    [word0 0x0B 0 m.sync (BitVec.ofBool m.q ++ a ++ b ++ c)]
  | .rolI m a b imm =>
    [word0 0x0B 1 m.sync (BitVec.ofBool m.q ++ a ++ b ++ 0#5), (imm)]
  | .mul m a b c =>
    [word0 0x0C 0 m.sync (BitVec.ofBool m.q ++ a ++ b ++ c)]
  | .mulI m a b imm =>
    [word0 0x0C 1 m.sync (BitVec.ofBool m.q ++ a ++ b ++ 0#5), (imm)]
  | .mulh m a b c =>
    [word0 0x0D 0 m.sync (BitVec.ofBool m.q ++ a ++ b ++ c)]
  | .mulhu m a b c =>
    [word0 0x0E 0 m.sync (BitVec.ofBool m.q ++ a ++ b ++ c)]
  | .div m a b c =>
    [word0 0x10 0 m.sync (BitVec.ofBool m.q ++ a ++ b ++ c)]
  | .divu m a b c =>
    [word0 0x11 0 m.sync (BitVec.ofBool m.q ++ a ++ b ++ c)]
  | .rem m a b c =>
    [word0 0x12 0 m.sync (BitVec.ofBool m.q ++ a ++ b ++ c)]
  | .remu m a b c =>
    [word0 0x13 0 m.sync (BitVec.ofBool m.q ++ a ++ b ++ c)]
  | .min m a b c =>
    [word0 0x14 0 m.sync (BitVec.ofBool m.q ++ a ++ b ++ c)]
  | .minI m a b imm =>
    [word0 0x14 1 m.sync (BitVec.ofBool m.q ++ a ++ b ++ 0#5), (imm)]
  | .max m a b c =>
    [word0 0x15 0 m.sync (BitVec.ofBool m.q ++ a ++ b ++ c)]
  | .maxI m a b imm =>
    [word0 0x15 1 m.sync (BitVec.ofBool m.q ++ a ++ b ++ 0#5), (imm)]
  | .minu m a b c =>
    [word0 0x16 0 m.sync (BitVec.ofBool m.q ++ a ++ b ++ c)]
  | .minuI m a b imm =>
    [word0 0x16 1 m.sync (BitVec.ofBool m.q ++ a ++ b ++ 0#5), (imm)]
  | .maxu m a b c =>
    [word0 0x17 0 m.sync (BitVec.ofBool m.q ++ a ++ b ++ c)]
  | .maxuI m a b imm =>
    [word0 0x17 1 m.sync (BitVec.ofBool m.q ++ a ++ b ++ 0#5), (imm)]
  | .clz m a b =>
    [word0 0x18 0 m.sync (BitVec.ofBool m.q ++ a ++ b ++ 0#5)]
  | .popc m a b =>
    [word0 0x19 0 m.sync (BitVec.ofBool m.q ++ a ++ b ++ 0#5)]
  | .sext m a b w =>
    [word0 0x1A 0 m.sync (BitVec.ofBool m.q ++ a ++ b ++ 0#3 ++ w)]
  | .zext m a b w =>
    [word0 0x1B 0 m.sync (BitVec.ofBool m.q ++ a ++ b ++ 0#3 ++ w)]
  | .cmpeq m a b c =>
    [word0 0x1C 0 m.sync (BitVec.ofBool m.q ++ a ++ b ++ c)]
  | .cmpeqI m a b imm =>
    [word0 0x1C 1 m.sync (BitVec.ofBool m.q ++ a ++ b ++ 0#5), (imm)]
  | .cmplt m a b c =>
    [word0 0x1D 0 m.sync (BitVec.ofBool m.q ++ a ++ b ++ c)]
  | .cmpltI m a b imm =>
    [word0 0x1D 1 m.sync (BitVec.ofBool m.q ++ a ++ b ++ 0#5), (imm)]
  | .cmpltu m a b c =>
    [word0 0x1E 0 m.sync (BitVec.ofBool m.q ++ a ++ b ++ c)]
  | .cmpltuI m a b imm =>
    [word0 0x1E 1 m.sync (BitVec.ofBool m.q ++ a ++ b ++ 0#5), (imm)]
  | .sel m a b c =>
    [word0 0x1F 0 m.sync (BitVec.ofBool m.q ++ a ++ b ++ c)]
  | .li m a imm =>
    [word0 0x20 1 m.sync (BitVec.ofBool m.q ++ a ++ 0#10), (imm)]
  | .liWide m a lo hi =>
    [word0 0x20 2 m.sync (BitVec.ofBool m.q ++ a ++ 0#10), (lo), (hi), (0#32)]
  | .lih m a imm =>
    [word0 0x21 1 m.sync (BitVec.ofBool m.q ++ a ++ 0#10), (imm)]
  | .lea m a b c sh disp =>
    [word0 0x22 1 m.sync (BitVec.ofBool m.q ++ a ++ b ++ c), (sh ++ disp)]
  | .dset m d b qtr =>
    [word0 0x23 0 m.sync (BitVec.ofBool m.q ++ 0#1 ++ d ++ b ++ 0#3 ++ qtr)]
  | .ld8 m a b =>
    [word0 0x30 0 m.sync (BitVec.ofBool m.q ++ a ++ b ++ 0#5)]
  | .ld8Disp m a b disp =>
    [word0 0x30 1 m.sync (BitVec.ofBool m.q ++ a ++ b ++ 0#5), (disp)]
  | .ld8s m a b =>
    [word0 0x31 0 m.sync (BitVec.ofBool m.q ++ a ++ b ++ 0#5)]
  | .ld8sDisp m a b disp =>
    [word0 0x31 1 m.sync (BitVec.ofBool m.q ++ a ++ b ++ 0#5), (disp)]
  | .ld16 m a b =>
    [word0 0x32 0 m.sync (BitVec.ofBool m.q ++ a ++ b ++ 0#5)]
  | .ld16Disp m a b disp =>
    [word0 0x32 1 m.sync (BitVec.ofBool m.q ++ a ++ b ++ 0#5), (disp)]
  | .ld16s m a b =>
    [word0 0x33 0 m.sync (BitVec.ofBool m.q ++ a ++ b ++ 0#5)]
  | .ld16sDisp m a b disp =>
    [word0 0x33 1 m.sync (BitVec.ofBool m.q ++ a ++ b ++ 0#5), (disp)]
  | .ld32 m a b =>
    [word0 0x34 0 m.sync (BitVec.ofBool m.q ++ a ++ b ++ 0#5)]
  | .ld32Disp m a b disp =>
    [word0 0x34 1 m.sync (BitVec.ofBool m.q ++ a ++ b ++ 0#5), (disp)]
  | .ld32s m a b =>
    [word0 0x35 0 m.sync (BitVec.ofBool m.q ++ a ++ b ++ 0#5)]
  | .ld32sDisp m a b disp =>
    [word0 0x35 1 m.sync (BitVec.ofBool m.q ++ a ++ b ++ 0#5), (disp)]
  | .ld64 m a b =>
    [word0 0x36 0 m.sync (BitVec.ofBool m.q ++ a ++ b ++ 0#5)]
  | .ld64Disp m a b disp =>
    [word0 0x36 1 m.sync (BitVec.ofBool m.q ++ a ++ b ++ 0#5), (disp)]
  | .pref m b =>
    [word0 0x37 0 m.sync (BitVec.ofBool m.q ++ 0#5 ++ b ++ 0#5)]
  | .prefDisp m b disp =>
    [word0 0x37 1 m.sync (BitVec.ofBool m.q ++ 0#5 ++ b ++ 0#5), (disp)]
  | .st8 m b c =>
    [word0 0x38 0 m.sync (BitVec.ofBool m.q ++ 0#5 ++ b ++ c)]
  | .st8Disp m b c disp =>
    [word0 0x38 1 m.sync (BitVec.ofBool m.q ++ 0#5 ++ b ++ c), (disp)]
  | .st16 m b c =>
    [word0 0x39 0 m.sync (BitVec.ofBool m.q ++ 0#5 ++ b ++ c)]
  | .st16Disp m b c disp =>
    [word0 0x39 1 m.sync (BitVec.ofBool m.q ++ 0#5 ++ b ++ c), (disp)]
  | .st32 m b c =>
    [word0 0x3A 0 m.sync (BitVec.ofBool m.q ++ 0#5 ++ b ++ c)]
  | .st32Disp m b c disp =>
    [word0 0x3A 1 m.sync (BitVec.ofBool m.q ++ 0#5 ++ b ++ c), (disp)]
  | .st64 m b c =>
    [word0 0x3B 0 m.sync (BitVec.ofBool m.q ++ 0#5 ++ b ++ c)]
  | .st64Disp m b c disp =>
    [word0 0x3B 1 m.sync (BitVec.ofBool m.q ++ 0#5 ++ b ++ c), (disp)]
  | .aadd m a b c disp scope =>
    [word0 0x40 1 m.sync (BitVec.ofBool m.q ++ a ++ b ++ c), (disp ++ 0#5 ++ scope)]
  | .aand m a b c disp scope =>
    [word0 0x41 1 m.sync (BitVec.ofBool m.q ++ a ++ b ++ c), (disp ++ 0#5 ++ scope)]
  | .aor m a b c disp scope =>
    [word0 0x42 1 m.sync (BitVec.ofBool m.q ++ a ++ b ++ c), (disp ++ 0#5 ++ scope)]
  | .axor m a b c disp scope =>
    [word0 0x43 1 m.sync (BitVec.ofBool m.q ++ a ++ b ++ c), (disp ++ 0#5 ++ scope)]
  | .amin m a b c disp scope =>
    [word0 0x44 1 m.sync (BitVec.ofBool m.q ++ a ++ b ++ c), (disp ++ 0#5 ++ scope)]
  | .amax m a b c disp scope =>
    [word0 0x45 1 m.sync (BitVec.ofBool m.q ++ a ++ b ++ c), (disp ++ 0#5 ++ scope)]
  | .aminu m a b c disp scope =>
    [word0 0x46 1 m.sync (BitVec.ofBool m.q ++ a ++ b ++ c), (disp ++ 0#5 ++ scope)]
  | .amaxu m a b c disp scope =>
    [word0 0x47 1 m.sync (BitVec.ofBool m.q ++ a ++ b ++ c), (disp ++ 0#5 ++ scope)]
  | .aswap m a b c disp scope =>
    [word0 0x48 1 m.sync (BitVec.ofBool m.q ++ a ++ b ++ c), (disp ++ 0#5 ++ scope)]
  | .acas m a b c disp scope =>
    [word0 0x49 1 m.sync (BitVec.ofBool m.q ++ a ++ b ++ c), (disp ++ 0#5 ++ scope)]
  | .fence m scope =>
    [word0 0x50 0 m.sync (BitVec.ofBool m.q ++ 0#12 ++ scope)]
  | .fenceComplete => []
  | .xfence m scope src dst =>
    [word0 0x51 1 m.sync (BitVec.ofBool m.q ++ 0#12 ++ scope), (0#17 ++ dst ++ 0#1 ++ src)]
  | .xfenceComplete => []
  | .phase m =>
    [word0 0x52 0 m.sync (BitVec.ofBool m.q ++ 0#15)]
  | .phaseCommit .. => []
  | .bopen m a b =>
    [word0 0x53 0 m.sync (BitVec.ofBool m.q ++ a ++ b ++ 0#5)]
  | .bopenAnswer .. => []
  | .bseal m a =>
    [word0 0x54 0 m.sync (BitVec.ofBool m.q ++ a ++ 0#10)]
  | .bsealComplete => []
  | .babort m =>
    [word0 0x55 0 m.sync (BitVec.ofBool m.q ++ 0#15)]
  | .bundledStoreLand => []
  | .homeCommit .. => []
  | .homeLost .. => []
  | .pbr m n target =>
    [word0 0x60 1 m.sync (BitVec.ofBool m.q ++ 0#2 ++ n ++ 0#10), (0#4 ++ target)]
  | .pbrr m n b =>
    [word0 0x61 0 m.sync (BitVec.ofBool m.q ++ 0#2 ++ n ++ b ++ 0#5)]
  | .br m n b cond =>
    [word0 0x62 0 m.sync (BitVec.ofBool m.q ++ 0#2 ++ n ++ b ++ 0#3 ++ cond)]
  | .bra m n =>
    [word0 0x63 0 m.sync (BitVec.ofBool m.q ++ 0#2 ++ n ++ 0#10)]
  | .call m n =>
    [word0 0x64 0 m.sync (BitVec.ofBool m.q ++ 0#2 ++ n ++ 0#10)]
  | .fork m line mask =>
    [word0 0x70 1 m.sync (BitVec.ofBool m.q ++ 0#15), (0#4 ++ mask ++ line)]
  | .rdv m mask =>
    [word0 0x71 0 m.sync (BitVec.ofBool m.q ++ 0#11 ++ mask)]
  | .rdvComplete => []
  | .steer m e b =>
    [word0 0x72 0 m.sync (BitVec.ofBool m.q ++ 0#3 ++ e ++ b ++ 0#5)]
  | .steerImm m e line =>
    [word0 0x72 1 m.sync (BitVec.ofBool m.q ++ 0#3 ++ e ++ 0#10), (0#8 ++ line)]
  | .steerAppend => []
  | .earg m e b n =>
    [word0 0x73 0 m.sync (BitVec.ofBool m.q ++ 0#3 ++ e ++ b ++ 0#1 ++ n)]
  | .waitcc m n value =>
    [word0 0x74 0 m.sync (BitVec.ofBool m.q ++ 0#2 ++ n ++ 0#2 ++ value)]
  | .waitccComplete => []
  | .cbset m h f =>
    [word0 0x75 2 m.sync (BitVec.ofBool m.q ++ 0#1 ++ h ++ 0#10), (f.offLo), (0#7 ++ BitVec.ofBool f.shr ++ f.nslot ++ f.slotu ++ f.offHi), (0#32)]
  | .cbsetComplete => []
  | .cbwait m h role c =>
    [word0 0x76 0 m.sync (BitVec.ofBool m.q ++ BitVec.ofBool role ++ h ++ 0#5 ++ c)]
  | .cbwaitComplete => []
  | .cbadv m h role c =>
    [word0 0x77 0 m.sync (BitVec.ofBool m.q ++ BitVec.ofBool role ++ h ++ 0#5 ++ c)]
  | .item m a =>
    [word0 0x80 0 m.sync (BitVec.ofBool m.q ++ a ++ 0#10)]
  | .itemReturn => []
  | .emit m a b =>
    [word0 0x81 0 m.sync (BitVec.ofBool m.q ++ a ++ b ++ 0#5)]
  | .emitAccept => []
  | .yield m =>
    [word0 0x82 0 m.sync (BitVec.ofBool m.q ++ 0#15)]
  | .mfs m a n =>
    [word0 0x90 0 m.sync (BitVec.ofBool m.q ++ a ++ 0#2 ++ n)]
  | .mts m a n =>
    [word0 0x91 0 m.sync (BitVec.ofBool m.q ++ a ++ 0#2 ++ n)]
  | .trap m code =>
    [word0 0x92 0 m.sync (BitVec.ofBool m.q ++ 0#5 ++ code)]
  | .tret m =>
    [word0 0x93 0 m.sync (BitVec.ofBool m.q ++ 0#15)]
  | .endOp m =>
    [word0 0x94 0 m.sync (BitVec.ofBool m.q ++ 0#15)]
  | .hint y op opnd => encodeHint y op opnd none
  | .hintLong y op opnd ext => encodeHint y op opnd (some ext)
  | .wcfg y f =>
    [word0 0x01 1 y (BitVec.ofBool f.mode ++ BitVec.ofBool f.ovf ++ BitVec.ofBool f.chk ++ f.cbh ++ 0#9), (f.lag ++ f.skip ++ 0#14)]
  | .wbmap y f =>
    [word0 0x02 1 y (f.da ++ f.db ++ 0#8), (0#28 ++ BitVec.ofBool f.ccen ++ f.ccn)]
  | .wcoord y f =>
    [word0 0x03 1 y (f.da ++ f.db ++ 0#8), (0#28 ++ BitVec.ofBool f.ccen ++ f.ccn)]
  | .wdense y f =>
    [word0 0x04 1 y (f.da ++ f.db ++ 0#8), (0#28 ++ BitVec.ofBool f.ccen ++ f.ccn)]
  | .wmark y p =>
    [word0 0x05 0 y (p ++ 0#12)]
  | .walkMsprMeet => []
  | .roundPrepare => []
  | .flowStep => []
  | .flowEnd => []
  | .listRecordWrite => []
  | .mlease y n1 =>
    [word0 0x01 0 y (n1 ++ 0#12)]
  | .leaseGrant .. => []
  | .mrel y =>
    [word0 0x02 0 y (0#16)]
  | .mcfg y f =>
    [word0 0x03 1 y (f.z ++ f.mode ++ f.anchor ++ 0#4), (0#22 ++ f.atag ++ f.btag)]
  | .mzero y z =>
    [word0 0x04 0 y (z ++ 0#15)]
  | .mlds y f =>
    [word0 0x10 1 y (f.pln ++ f.ds ++ f.p ++ 0#7), (f.ncol ++ 0#23)]
  | .mldsLong y f x =>
    [word0 0x10 2 y (f.pln ++ f.ds ++ f.p ++ 0#7), (f.ncol ++ 0#23), (x.step), (BitVec.ofBool x.cben ++ x.cbh ++ x.wait ++ BitVec.ofBool x.ccen ++ x.ccn ++ 0#11)]
  | .mldsColumn => []
  | .mswap y =>
    [word0 0x11 0 y (0#16)]
  | .mstr y f x =>
    [word0 0x20 2 y (f.z ++ f.da ++ f.p ++ 0#7), (f.nrow ++ f.zrow ++ 0#17), (x.step), (BitVec.ofBool x.cben ++ x.cbh ++ x.wait ++ BitVec.ofBool x.ccen ++ x.ccn ++ 0#11)]
  | .mconv y f =>
    [word0 0x21 2 y (f.z ++ f.da ++ f.p ++ 0#7), (f.npix ++ f.zrow ++ f.kh1 ++ f.kw1 ++ f.sy1 ++ f.sx1 ++ f.py ++ f.px ++ 0#3), (f.ow ++ f.ch), (0#17 ++ BitVec.ofBool f.ccen ++ f.ccn ++ 0#11)]
  | .rowStep => []
  | .mspr y f =>
    [word0 0x22 1 y (f.z ++ 0#15), (0#28 ++ BitVec.ofBool f.ccen ++ f.ccn)]
  | .arrayCommandComplete => []
  | .powerTokenTake .. => []
  | .mdrn y f =>
    [word0 0x30 1 y (f.z ++ f.ds ++ f.p ++ f.rnd ++ 0#5), (f.nrow ++ f.zrow ++ 0#17)]
  | .mdrnLong y f x =>
    [word0 0x30 2 y (f.z ++ f.ds ++ f.p ++ f.rnd ++ 0#5), (f.nrow ++ f.zrow ++ 0#17), (x.step), (BitVec.ofBool x.cben ++ x.cbh ++ x.wait ++ BitVec.ofBool x.ccen ++ x.ccn ++ 0#11)]
  | .mdrnRow => []
  | .vrd y f =>
    [word0 0x01 1 y (f.q ++ f.ds ++ f.p ++ f.rat ++ 0#3), (f.count ++ 0#20)]
  | .vrdLong y f x =>
    [word0 0x01 2 y (f.q ++ f.ds ++ f.p ++ f.rat ++ 0#3), (f.count ++ 0#20), (x.step), (BitVec.ofBool x.cben ++ x.cbh ++ x.wait ++ BitVec.ofBool x.ccen ++ x.ccn ++ 0#11)]
  | .readRunPlace .. => []
  | .vwr y f =>
    [word0 0x02 1 y (f.src ++ f.ds ++ f.p ++ f.rnd), (f.count ++ BitVec.ofBool f.sadv ++ BitVec.ofBool f.sat ++ 0#18)]
  | .vwrLong y f x =>
    [word0 0x02 2 y (f.src ++ f.ds ++ f.p ++ f.rnd), (f.count ++ BitVec.ofBool f.sadv ++ BitVec.ofBool f.sat ++ 0#18), (x.step), (BitVec.ofBool x.cben ++ x.cbh ++ x.wait ++ BitVec.ofBool x.ccen ++ x.ccn ++ 0#11)]
  | .vgath y f =>
    [word0 0x03 2 y (f.a ++ f.ds ++ f.p ++ 0#2), (f.count ++ f.c ++ f.d ++ BitVec.ofBool f.dv ++ BitVec.ofBool f.dadv ++ BitVec.ofBool f.aadv ++ 0#1 ++ BitVec.ofBool f.cadv ++ BitVec.ofBool f.men ++ 0#3), (0#32), (0#32)]
  | .vscat y f =>
    [word0 0x04 2 y (f.a ++ f.b ++ f.ds), (f.count ++ f.c ++ f.p ++ 0#3 ++ BitVec.ofBool f.aadv ++ BitVec.ofBool f.badv ++ BitVec.ofBool f.cadv ++ BitVec.ofBool f.men ++ 0#3), (0#32), (0#17 ++ BitVec.ofBool f.ccen ++ f.ccn ++ 0#11)]
  | .vectorIteration => []
  | .vectorWritesLanded => []
  | .vmov y f =>
    [word0 0x05 0 y (f.a ++ f.b ++ f.rnd ++ f.sub)]
  | .vmovV2 y f =>
    [word0 0x05 1 y (f.a ++ f.b ++ f.rnd ++ f.sub), (f.count ++ f.c ++ f.d ++ BitVec.ofBool f.dv ++ BitVec.ofBool f.dadv ++ BitVec.ofBool f.aadv ++ BitVec.ofBool f.badv ++ BitVec.ofBool f.cadv ++ f.x)]
  | .vsplat y f =>
    [word0 0x06 1 y (f.tag ++ f.d ++ BitVec.ofBool f.dv ++ 0#5), (f.imm)]
  | .vadd y f =>
    [word0 0x10 0 y (f.a ++ f.b ++ f.rnd ++ f.sub)]
  | .vaddV2 y f =>
    [word0 0x10 1 y (f.a ++ f.b ++ f.rnd ++ f.sub), (f.count ++ f.c ++ f.d ++ BitVec.ofBool f.dv ++ BitVec.ofBool f.dadv ++ BitVec.ofBool f.aadv ++ BitVec.ofBool f.badv ++ BitVec.ofBool f.cadv ++ f.x)]
  | .vsub y f =>
    [word0 0x11 0 y (f.a ++ f.b ++ f.rnd ++ f.sub)]
  | .vsubV2 y f =>
    [word0 0x11 1 y (f.a ++ f.b ++ f.rnd ++ f.sub), (f.count ++ f.c ++ f.d ++ BitVec.ofBool f.dv ++ BitVec.ofBool f.dadv ++ BitVec.ofBool f.aadv ++ BitVec.ofBool f.badv ++ BitVec.ofBool f.cadv ++ f.x)]
  | .vmul y f =>
    [word0 0x12 0 y (f.a ++ f.b ++ f.rnd ++ f.sub)]
  | .vmulV2 y f =>
    [word0 0x12 1 y (f.a ++ f.b ++ f.rnd ++ f.sub), (f.count ++ f.c ++ f.d ++ BitVec.ofBool f.dv ++ BitVec.ofBool f.dadv ++ BitVec.ofBool f.aadv ++ BitVec.ofBool f.badv ++ BitVec.ofBool f.cadv ++ f.x)]
  | .vfma y f =>
    [word0 0x13 0 y (f.a ++ f.b ++ f.rnd ++ f.sub)]
  | .vfmaV2 y f =>
    [word0 0x13 1 y (f.a ++ f.b ++ f.rnd ++ f.sub), (f.count ++ f.c ++ f.d ++ BitVec.ofBool f.dv ++ BitVec.ofBool f.dadv ++ BitVec.ofBool f.aadv ++ BitVec.ofBool f.badv ++ BitVec.ofBool f.cadv ++ f.x)]
  | .vmin y f =>
    [word0 0x14 0 y (f.a ++ f.b ++ f.rnd ++ f.sub)]
  | .vminV2 y f =>
    [word0 0x14 1 y (f.a ++ f.b ++ f.rnd ++ f.sub), (f.count ++ f.c ++ f.d ++ BitVec.ofBool f.dv ++ BitVec.ofBool f.dadv ++ BitVec.ofBool f.aadv ++ BitVec.ofBool f.badv ++ BitVec.ofBool f.cadv ++ f.x)]
  | .vmax y f =>
    [word0 0x15 0 y (f.a ++ f.b ++ f.rnd ++ f.sub)]
  | .vmaxV2 y f =>
    [word0 0x15 1 y (f.a ++ f.b ++ f.rnd ++ f.sub), (f.count ++ f.c ++ f.d ++ BitVec.ofBool f.dv ++ BitVec.ofBool f.dadv ++ BitVec.ofBool f.aadv ++ BitVec.ofBool f.badv ++ BitVec.ofBool f.cadv ++ f.x)]
  | .vabs y f =>
    [word0 0x16 0 y (f.a ++ f.b ++ f.rnd ++ f.sub)]
  | .vabsV2 y f =>
    [word0 0x16 1 y (f.a ++ f.b ++ f.rnd ++ f.sub), (f.count ++ f.c ++ f.d ++ BitVec.ofBool f.dv ++ BitVec.ofBool f.dadv ++ BitVec.ofBool f.aadv ++ BitVec.ofBool f.badv ++ BitVec.ofBool f.cadv ++ f.x)]
  | .vneg y f =>
    [word0 0x17 0 y (f.a ++ f.b ++ f.rnd ++ f.sub)]
  | .vnegV2 y f =>
    [word0 0x17 1 y (f.a ++ f.b ++ f.rnd ++ f.sub), (f.count ++ f.c ++ f.d ++ BitVec.ofBool f.dv ++ BitVec.ofBool f.dadv ++ BitVec.ofBool f.aadv ++ BitVec.ofBool f.badv ++ BitVec.ofBool f.cadv ++ f.x)]
  | .vand y f =>
    [word0 0x18 0 y (f.a ++ f.b ++ f.rnd ++ f.sub)]
  | .vandV2 y f =>
    [word0 0x18 1 y (f.a ++ f.b ++ f.rnd ++ f.sub), (f.count ++ f.c ++ f.d ++ BitVec.ofBool f.dv ++ BitVec.ofBool f.dadv ++ BitVec.ofBool f.aadv ++ BitVec.ofBool f.badv ++ BitVec.ofBool f.cadv ++ f.x)]
  | .vor y f =>
    [word0 0x19 0 y (f.a ++ f.b ++ f.rnd ++ f.sub)]
  | .vorV2 y f =>
    [word0 0x19 1 y (f.a ++ f.b ++ f.rnd ++ f.sub), (f.count ++ f.c ++ f.d ++ BitVec.ofBool f.dv ++ BitVec.ofBool f.dadv ++ BitVec.ofBool f.aadv ++ BitVec.ofBool f.badv ++ BitVec.ofBool f.cadv ++ f.x)]
  | .vxor y f =>
    [word0 0x1A 0 y (f.a ++ f.b ++ f.rnd ++ f.sub)]
  | .vxorV2 y f =>
    [word0 0x1A 1 y (f.a ++ f.b ++ f.rnd ++ f.sub), (f.count ++ f.c ++ f.d ++ BitVec.ofBool f.dv ++ BitVec.ofBool f.dadv ++ BitVec.ofBool f.aadv ++ BitVec.ofBool f.badv ++ BitVec.ofBool f.cadv ++ f.x)]
  | .vshl y f =>
    [word0 0x1B 0 y (f.a ++ f.b ++ f.rnd ++ f.sub)]
  | .vshlV2 y f =>
    [word0 0x1B 1 y (f.a ++ f.b ++ f.rnd ++ f.sub), (f.count ++ f.c ++ f.d ++ BitVec.ofBool f.dv ++ BitVec.ofBool f.dadv ++ BitVec.ofBool f.aadv ++ BitVec.ofBool f.badv ++ BitVec.ofBool f.cadv ++ f.x)]
  | .vshr y f =>
    [word0 0x1C 0 y (f.a ++ f.b ++ f.rnd ++ f.sub)]
  | .vshrV2 y f =>
    [word0 0x1C 1 y (f.a ++ f.b ++ f.rnd ++ f.sub), (f.count ++ f.c ++ f.d ++ BitVec.ofBool f.dv ++ BitVec.ofBool f.dadv ++ BitVec.ofBool f.aadv ++ BitVec.ofBool f.badv ++ BitVec.ofBool f.cadv ++ f.x)]
  | .vsra y f =>
    [word0 0x1D 0 y (f.a ++ f.b ++ f.rnd ++ f.sub)]
  | .vsraV2 y f =>
    [word0 0x1D 1 y (f.a ++ f.b ++ f.rnd ++ f.sub), (f.count ++ f.c ++ f.d ++ BitVec.ofBool f.dv ++ BitVec.ofBool f.dadv ++ BitVec.ofBool f.aadv ++ BitVec.ofBool f.badv ++ BitVec.ofBool f.cadv ++ f.x)]
  | .vcmp y f =>
    [word0 0x20 0 y (f.a ++ f.b ++ f.rnd ++ f.sub)]
  | .vcmpV2 y f =>
    [word0 0x20 1 y (f.a ++ f.b ++ f.rnd ++ f.sub), (f.count ++ f.c ++ f.d ++ BitVec.ofBool f.dv ++ BitVec.ofBool f.dadv ++ BitVec.ofBool f.aadv ++ BitVec.ofBool f.badv ++ BitVec.ofBool f.cadv ++ f.x)]
  | .vsel y f =>
    [word0 0x21 0 y (f.a ++ f.b ++ f.rnd ++ f.sub)]
  | .vselV2 y f =>
    [word0 0x21 1 y (f.a ++ f.b ++ f.rnd ++ f.sub), (f.count ++ f.c ++ f.d ++ BitVec.ofBool f.dv ++ BitVec.ofBool f.dadv ++ BitVec.ofBool f.aadv ++ BitVec.ofBool f.badv ++ BitVec.ofBool f.cadv ++ f.x)]
  | .vclmp y f =>
    [word0 0x22 1 y (f.a ++ f.b ++ f.rnd ++ f.sub), (f.count ++ f.c ++ f.d ++ BitVec.ofBool f.dv ++ BitVec.ofBool f.dadv ++ BitVec.ofBool f.aadv ++ BitVec.ofBool f.badv ++ BitVec.ofBool f.cadv ++ f.x)]
  | .vcvt y f =>
    [word0 0x23 0 y (f.a ++ f.t ++ f.s)]
  | .vcvtV2 y f =>
    [word0 0x23 1 y (f.a ++ f.t ++ f.s), (f.count ++ 0#6 ++ f.d ++ BitVec.ofBool f.dv ++ BitVec.ofBool f.dadv ++ BitVec.ofBool f.aadv ++ 0#2 ++ f.rnd ++ BitVec.ofBool f.sat ++ 0#1)]
  | .vqnt y f =>
    [word0 0x24 1 y (f.a ++ f.b ++ f.rnd ++ 0#2), (f.count ++ 0#1 ++ f.t ++ f.d ++ BitVec.ofBool f.dv ++ BitVec.ofBool f.dadv ++ BitVec.ofBool f.aadv ++ BitVec.ofBool f.badv ++ 0#5)]
  | .vrcp y f =>
    [word0 0x30 0 y (f.a ++ f.b ++ f.rnd ++ f.sub)]
  | .vrcpV2 y f =>
    [word0 0x30 1 y (f.a ++ f.b ++ f.rnd ++ f.sub), (f.count ++ f.c ++ f.d ++ BitVec.ofBool f.dv ++ BitVec.ofBool f.dadv ++ BitVec.ofBool f.aadv ++ BitVec.ofBool f.badv ++ BitVec.ofBool f.cadv ++ f.x)]
  | .vrsq y f =>
    [word0 0x31 0 y (f.a ++ f.b ++ f.rnd ++ f.sub)]
  | .vrsqV2 y f =>
    [word0 0x31 1 y (f.a ++ f.b ++ f.rnd ++ f.sub), (f.count ++ f.c ++ f.d ++ BitVec.ofBool f.dv ++ BitVec.ofBool f.dadv ++ BitVec.ofBool f.aadv ++ BitVec.ofBool f.badv ++ BitVec.ofBool f.cadv ++ f.x)]
  | .vexp2 y f =>
    [word0 0x32 0 y (f.a ++ f.b ++ f.rnd ++ f.sub)]
  | .vexp2V2 y f =>
    [word0 0x32 1 y (f.a ++ f.b ++ f.rnd ++ f.sub), (f.count ++ f.c ++ f.d ++ BitVec.ofBool f.dv ++ BitVec.ofBool f.dadv ++ BitVec.ofBool f.aadv ++ BitVec.ofBool f.badv ++ BitVec.ofBool f.cadv ++ f.x)]
  | .vlog2 y f =>
    [word0 0x33 0 y (f.a ++ f.b ++ f.rnd ++ f.sub)]
  | .vlog2V2 y f =>
    [word0 0x33 1 y (f.a ++ f.b ++ f.rnd ++ f.sub), (f.count ++ f.c ++ f.d ++ BitVec.ofBool f.dv ++ BitVec.ofBool f.dadv ++ BitVec.ofBool f.aadv ++ BitVec.ofBool f.badv ++ BitVec.ofBool f.cadv ++ f.x)]
  | .vred y f =>
    [word0 0x34 0 y (f.a ++ f.b ++ f.rnd ++ f.sub)]
  | .vredV2 y f =>
    [word0 0x34 1 y (f.a ++ f.b ++ f.rnd ++ f.sub), (f.count ++ f.c ++ f.d ++ BitVec.ofBool f.dv ++ BitVec.ofBool f.dadv ++ BitVec.ofBool f.aadv ++ BitVec.ofBool f.badv ++ BitVec.ofBool f.cadv ++ f.x)]
  | .vscan y f =>
    [word0 0x35 0 y (f.a ++ f.b ++ f.rnd ++ f.sub)]
  | .vscanV2 y f =>
    [word0 0x35 1 y (f.a ++ f.b ++ f.rnd ++ f.sub), (f.count ++ f.c ++ f.d ++ BitVec.ofBool f.dv ++ BitVec.ofBool f.dadv ++ BitVec.ofBool f.aadv ++ BitVec.ofBool f.badv ++ BitVec.ofBool f.cadv ++ f.x)]
  | .vpart y f =>
    [word0 0x40 1 y (f.a ++ f.b ++ f.rnd ++ f.sub), (f.count ++ f.c ++ f.d ++ BitVec.ofBool f.dv ++ BitVec.ofBool f.dadv ++ BitVec.ofBool f.aadv ++ BitVec.ofBool f.badv ++ BitVec.ofBool f.cadv ++ f.x)]
  | .viota y f =>
    [word0 0x41 0 y (f.a ++ f.b ++ f.rnd ++ f.sub)]
  | .vshuf y f =>
    [word0 0x42 0 y (f.a ++ f.b ++ f.rnd ++ f.sub)]
  | .vshufV2 y f =>
    [word0 0x42 1 y (f.a ++ f.b ++ f.rnd ++ f.sub), (f.count ++ f.c ++ f.d ++ BitVec.ofBool f.dv ++ BitVec.ofBool f.dadv ++ BitVec.ofBool f.aadv ++ BitVec.ofBool f.badv ++ BitVec.ofBool f.cadv ++ f.x)]
  | .vpack y f =>
    [word0 0x43 1 y (f.a ++ f.b ++ f.rnd ++ f.sub), (f.count ++ f.c ++ f.d ++ BitVec.ofBool f.dv ++ BitVec.ofBool f.dadv ++ BitVec.ofBool f.aadv ++ BitVec.ofBool f.badv ++ BitVec.ofBool f.cadv ++ f.x)]
  | .vunpk y f =>
    [word0 0x44 1 y (f.a ++ f.b ++ f.rnd ++ f.sub), (f.count ++ f.c ++ f.d ++ BitVec.ofBool f.dv ++ BitVec.ofBool f.dadv ++ BitVec.ofBool f.aadv ++ BitVec.ofBool f.badv ++ BitVec.ofBool f.cadv ++ f.x)]
  | .kcopy y f =>
    [word0 0x01 2 y (f.ds ++ f.dd ++ f.p ++ f.rnd ++ BitVec.ofBool f.sat ++ 0#1), (f.count ++ f.sfmt ++ f.dfmt ++ BitVec.ofBool f.ccen ++ f.ccn ++ 0#6), (f.w2), (f.ckm ++ f.cksel ++ f.ckop ++ BitVec.ofBool f.cben ++ BitVec.ofBool f.cbside ++ f.cbh ++ f.wait ++ BitVec.ofBool f.ckw ++ 0#7)]
  | .k2d y f =>
    [word0 0x02 2 y (f.ds ++ f.dd ++ f.p ++ f.rnd ++ BitVec.ofBool f.sat ++ 0#1), (f.count ++ f.sfmt ++ f.dfmt ++ BitVec.ofBool f.ccen ++ f.ccn ++ 0#6), (f.w2), (f.ckm ++ f.cksel ++ f.ckop ++ BitVec.ofBool f.cben ++ BitVec.ofBool f.cbside ++ f.cbh ++ f.wait ++ BitVec.ofBool f.ckw ++ 0#7)]
  | .kgath y f =>
    [word0 0x03 2 y (f.ds ++ f.dd ++ f.p ++ f.rnd ++ BitVec.ofBool f.sat ++ 0#1), (f.count ++ f.sfmt ++ f.dfmt ++ BitVec.ofBool f.ccen ++ f.ccn ++ 0#6), (f.w2), (f.ckm ++ f.cksel ++ f.ckop ++ BitVec.ofBool f.cben ++ BitVec.ofBool f.cbside ++ f.cbh ++ f.wait ++ BitVec.ofBool f.ckw ++ 0#7)]
  | .kscat y f =>
    [word0 0x04 2 y (f.ds ++ f.dd ++ f.p ++ f.rnd ++ BitVec.ofBool f.sat ++ 0#1), (f.count ++ f.sfmt ++ f.dfmt ++ BitVec.ofBool f.ccen ++ f.ccn ++ 0#6), (f.w2), (f.ckm ++ f.cksel ++ f.ckop ++ BitVec.ofBool f.cben ++ BitVec.ofBool f.cbside ++ f.cbh ++ f.wait ++ BitVec.ofBool f.ckw ++ 0#7)]
  | .kfill y f =>
    [word0 0x05 2 y (f.ds ++ f.dd ++ f.p ++ f.rnd ++ BitVec.ofBool f.sat ++ 0#1), (f.count ++ f.sfmt ++ f.dfmt ++ BitVec.ofBool f.ccen ++ f.ccn ++ 0#6), (f.w2), (f.ckm ++ f.cksel ++ f.ckop ++ BitVec.ofBool f.cben ++ BitVec.ofBool f.cbside ++ f.cbh ++ f.wait ++ BitVec.ofBool f.ckw ++ 0#7)]
  | .kpf y f =>
    [word0 0x06 2 y (f.ds ++ f.dd ++ f.p ++ f.rnd ++ BitVec.ofBool f.sat ++ 0#1), (f.count ++ f.sfmt ++ f.dfmt ++ BitVec.ofBool f.ccen ++ f.ccn ++ 0#6), (f.w2), (f.ckm ++ f.cksel ++ f.ckop ++ BitVec.ofBool f.cben ++ BitVec.ofBool f.cbside ++ f.cbh ++ f.wait ++ BitVec.ofBool f.ckw ++ 0#7)]
  | .kenc y f =>
    [word0 0x10 2 y (f.ds ++ f.dd ++ f.p ++ f.rnd ++ BitVec.ofBool f.sat ++ 0#1), (f.count ++ f.sfmt ++ f.dfmt ++ BitVec.ofBool f.ccen ++ f.ccn ++ 0#6), (f.w2), (f.ckm ++ f.cksel ++ f.ckop ++ BitVec.ofBool f.cben ++ BitVec.ofBool f.cbside ++ f.cbh ++ f.wait ++ BitVec.ofBool f.ckw ++ 0#7)]
  | .kdec y f =>
    [word0 0x11 2 y (f.ds ++ f.dd ++ f.p ++ f.rnd ++ BitVec.ofBool f.sat ++ 0#1), (f.count ++ f.sfmt ++ f.dfmt ++ BitVec.ofBool f.ccen ++ f.ccn ++ 0#6), (f.w2), (f.ckm ++ f.cksel ++ f.ckop ++ BitVec.ofBool f.cben ++ BitVec.ofBool f.cbside ++ f.cbh ++ f.wait ++ BitVec.ofBool f.ckw ++ 0#7)]
  | .ktab y f =>
    [word0 0x12 2 y (f.ds ++ f.dd ++ f.p ++ f.rnd ++ BitVec.ofBool f.sat ++ 0#1), (f.count ++ f.sfmt ++ f.dfmt ++ BitVec.ofBool f.ccen ++ f.ccn ++ 0#6), (f.w2), (f.ckm ++ f.cksel ++ f.ckop ++ BitVec.ofBool f.cben ++ BitVec.ofBool f.cbside ++ f.cbh ++ f.wait ++ BitVec.ofBool f.ckw ++ 0#7)]
  | .kview y f =>
    [word0 0x20 2 y (f.ds ++ f.dd ++ f.p ++ f.rnd ++ BitVec.ofBool f.sat ++ 0#1), (f.count ++ f.sfmt ++ f.dfmt ++ BitVec.ofBool f.ccen ++ f.ccn ++ 0#6), (f.w2), (f.ckm ++ f.cksel ++ f.ckop ++ BitVec.ofBool f.cben ++ BitVec.ofBool f.cbside ++ f.cbh ++ f.wait ++ BitVec.ofBool f.ckw ++ 0#7)]
  | .kviewPass => []
  | .kimg y f =>
    [word0 0x21 2 y (f.ds ++ f.dd ++ f.p ++ f.rnd ++ BitVec.ofBool f.sat ++ 0#1), (f.count ++ f.sfmt ++ f.dfmt ++ BitVec.ofBool f.ccen ++ f.ccn ++ 0#6), (f.w2), (f.ckm ++ f.cksel ++ f.ckop ++ BitVec.ofBool f.cben ++ BitVec.ofBool f.cbside ++ f.cbh ++ f.wait ++ BitVec.ofBool f.ckw ++ 0#7)]
  | .pageDecoderAssign .. => []
  | .patchRowWrite => []
  | .copyUnit => []
  | .transferComplete => []
  | .lineFetch .. => []
  | .exposedResultWrite => []
  | .interlockedValueArrive => []
  | .retiringPush .. => []
  | .hangTimeout .. => []
  | .operatorRetire => []
  | .launchBankSwapIn => []
  | .bankWakeDone .. => []
  | .bankGatedExit .. => []
  | .bankEnterRetain .. => []
  | .preemptRequest => []
  | .contextSave => []
  | .machineCheck .. => []
  | .poolStoreResume => []
  | .replicaLock => []
  | .scrub .. => []
  | .kickWrite .. => []
  | .qcbReread .. => []
  | .submit .. => []
  | .trigger .. => []
  | .close .. => []
  | .regionAdd .. => []
  | .regionRemove .. => []
  | .dltSet .. => []
  | .badcmd .. => []
  | .completionWrite .. => []
  | .completionConsumerWrite .. => []
  | .triggerWordWrite .. => []
  | .nodeEnd .. => []
  | .nodeLaunch .. => []
  | .nodeLoop .. => []
  | .nodeCond .. => []
  | .nodeWait .. => []
  | .nodeWaitPoll .. => []
  | .nodeSignal .. => []
  | .shadowBankWrite .. => []
  | .coreGrant .. => []
  | .gheahPreemptOrder .. => []
  | .inputClosePropagate .. => []
  | .faultDomainStop .. => []
  | .stealAdvert => []
  | .stealRequest .. => []
  | .stolenEmit .. => []
  | .flrVf .. => []
  | .flrPf => []
  | .serviceCoreWatchdog .. => []
  | .moduleReset .. => []
  | .invcGo .. => []
  | .invalidationComplete .. => []
  | .flitSend .. => []
  | .idleSend .. => []
  | .flitReceive .. => []
  | .replayRequest .. => []
  | .ackTimeout .. => []
  | .portSilent .. => []
  | .lossOfLight .. => []
  | .rstr .. => []
  | .relockEnd .. => []
  | .remoteRequestSend .. => []
  | .write .. => []
  | .rdreq .. => []
  | .atomic .. => []
  | .rdresp .. => []
  | .wrack .. => []
  | .atresp .. => []
  | .errresp .. => []
  | .heartbeatSend => []
  | .heartbeat .. => []
  | .peerFailTimeout .. => []
  | .failed .. => []
  | .advert .. => []
  | .steal .. => []
  | .linkid .. => []
  | .committed .. => []
  | .quiesce => []
  | .settled => []
  | .vigil .. => []
  | .quiesceTimeout => []
  | .relock => []
  | .relockTimeout => []
  | .regroupCommit => []
  | .allowWrite .. => []
  | .alcfgWrite .. => []
  | .evidxConsWrite .. => []
  | .pwrcapWrite .. => []
  | .thermalSample .. => []
  | .attestationGo .. => []
  | .attestationReportDone => []
  | .telemetryRefresh .. => []
  | .registerWrite .. => []
  | .illegalInstruction => []
  | .mzeroComplete => []
  | .mdrnWritesLanded => []
  | .hostBar2Write .. => []
  | .laserRecovery .. => []
  | .portRetrain .. => []

end Sys2Proof
end

