-- ==== Sys2Proof/Config.lean ====
section
/-! DEFINITION. What one module fixes for itself: fused and firmware values (R8) and the places firmware gives to tables
the spec names without an address (log 5, 6, 7, 21), and the functions of external standards that the spec only refers to
(log 13, 14). The latter are opaque: nothing can be proved about their values. -/

namespace Sys2Proof.Config

/-- The fused chip identifier (R403, R404; log 7). -/
def chipId : BitVec 12 := 0
/-- The serial number (R417; log 7). -/
opaque serial : Nat → Byte

/-- Bytes of the populated range of an HBM stack (R232). -/
def stackBytes : Nat := 96_000_000_000
/-- Bytes of the tag region at the top of a stack (R232). -/
def tagBytes : Nat := 12_000_000_000
/-- Bytes of the retention pool directly below the tag region: the default (R232, R259; log 6). -/
def poolBytes : Nat := 4 * 2 ^ 30
/-- Physical address of the ASID table, 2,048 entries of 8 bytes (R384; log 6). -/
def asidTable : Nat := 0x1280000000
/-- Physical address of the replica table, 4,096 entries of 72 bytes (R260; log 6). -/
def replicaTable : Nat := 0x1280050000
/-- Physical address of the group table (R403; log 6). -/
def groupTable : Nat := 0x1280010000
/-- Physical address of the 64 KiB page, on the first stack of the die, that holds the trap areas of cores 64n to 64n + 63 (R366;
log 6): it stands below the retention pool. -/
def trapPage (n : Nat) : Nat :=
  n / 2 * 0x4000000000 + (stackBytes - tagBytes - poolBytes) / 0x10000 * 0x10000 - (n % 2 + 1) * 0x10000
/-- Where BAR2's window stands after reset (R360; log 6). -/
def bar2Base : Nat := 0
/-- The data slot of a management packet, by subtype and what it carries: R405 gives it no layout (log 43). -/
opaque mgmtBody : Nat → List Nat → BitVec 128
/-- Physical address of ALLOW(0), with ALLOW(c) at + 16c and ALCFG(c) at + 8 + 16c, and of FABCTL (R407, R418; log 6). -/
def allowBase : Nat := 0x1280020000
def fabctl : Nat := 0x1280040000

/-- The members of a phase group that the front end takes from a region's cores when it binds the region's stages, by RID and
group (R246; log 25). -/
opaque phaseMembers : Nat → Nat → BitVec 512
/-- SEV of each fabric record, of which only the range 0 to 2 is given (R420; log 29). -/
opaque fabricSev : Nat → Fin 3
/-- The phase bit of the first pass round a completion ring (R358; log 28). -/
opaque firstPhase : Bool
/-- Where Gheah saves the context of a core whose fault domain it stops: below the pool of the second stack of the core's die,
at its n-th place (R329, R347; log 26). -/
def saveArea (core n : Nat) : Nat :=
  core / 128 * 0x4000000000 + 0x2000000000 + (stackBytes - tagBytes - poolBytes) / 4096 * 4096 - (128 * n + core % 128 + 1) * 1327104

/-- NTOK of every die after reset (R291, R423; log 21). -/
def ntok : Nat := 32
/-- PWRCAP after reset, in watts (R423; log 21). -/
def pwrcap : BitVec 12 := 3000
/-- HANGLIM of every core after reset: no limit (R33, R134; log 5). -/
def hanglim : Dword := 0
/-- The lottery seed of every die (R344; log 21). -/
def lseed : Dword := 0
/-- Send allowance of a peer after reset (R299, R407; log 21). -/
def allow : Nat := 4194304
/-- ALCFG.START, FACT and TGT after reset (R407; log 21). -/
def alcfgStart : BitVec 10 := 0
def alcfgFact : BitVec 2 := 1
def alcfgTgt : BitVec 32 := 2048

/-- The entropy-coded data of a JPEG stream, decoded and dequantised by T.81 (R303, R304; log 13): by component of the frame, its
8 x 8 blocks in raster order with the padding of whole MCUs, each as 64 coefficients row by row; or the offset of the byte at which
the stream is malformed. -/
opaque jpegBlocks : List Byte → Except Nat (List (List (List Int)))

/-- A sub-band of T.800: quantised coefficients, each with the bit planes that were not decoded, and the step size mant * 2^exp. -/
structure J2kBand where
  rows : List (List (Int × Nat))
  mant : Nat
  exp : Int
deriving DecidableEq, Repr, Inhabited

/-- A tile-component: its LL band, and the HL, LH and HH bands of each level, the deepest first. -/
structure J2kComp where
  ll : J2kBand
  levels : List (J2kBand × J2kBand × J2kBand)
deriving DecidableEq, Repr, Inhabited

/-- A tile: its rectangle, 5/3 (`whole`) or 9/7, and whether it uses the multiple component transform. -/
structure J2kTile where
  x0 : Nat
  y0 : Nat
  x1 : Nat
  y1 : Nat
  whole : Bool
  mct : Bool
  comps : List J2kComp
deriving DecidableEq, Repr, Inhabited

/-- The coded data of a JPEG 2000 codestream by T.800 (R303, R304; log 13), or the offset of the byte at which it is malformed or goes
beyond Part 1. -/
opaque j2kTiles : List Byte → Except Nat (List J2kTile)

/-- The rows of so many pixels that T.6 data hold, coded black as true (R303; log 13), or the offset at which they are malformed. -/
opaque t6Rows : List Byte → Nat → Nat → Except Nat (List (List Bool))

/-- The count of a token FIFO that was at 15 when a pop was restored to it (R21, R136; log 62). -/
opaque freeCount : Nat → BitVec 4

/-- The choice between the two QN4 levels that lie equally near to a zero element (R165; log 23). -/
opaque freeBit : Nat → Bool

/-- SHAKE256 of a byte string, to 64 bytes (R425, R426; log 14). -/
opaque shake256 : List Byte → BitVec 512
/-- The loaded images and the firmware configuration that are measured (R425, R426; log 14). -/
opaque gheahImage : List Byte
opaque serviceImage : List Byte
opaque firmwareConfig : List Byte
/-- The module's public key and the signature over it, and what else the Almanac says of the part without a value in the
manual: stepping, and the VER of an entry (R418; log 7). -/
opaque moduleKey : List Byte
opaque moduleKeySignature : List Byte
opaque stepping : Byte
opaque almanacVer : Nat → Byte
/-- The XMSS signature of a message under the leaf of the given index (R425, R426; log 14). -/
opaque xmssSign : Nat → List Byte → List Byte

end Sys2Proof.Config
end

