-- ==== Sys2Proof/Machine/Types.lean ====
section
/-! DEFINITION. The parts of State: registers, streams, tiles, queues, tables and link state, each as plain data. Every
structure's docstring names the rules that give it. Reset values are in `Sys2Proof/Machine/State.lean`. -/

namespace Sys2Proof.Machine

/-- The format tags of R28. -/
inductive Tag where
  | invalid | fp32 | fp16 | bf16 | e4m3 | e5m2 | e3m2 | e2m3 | e2m1
  | int8 | uint8 | int4 | uint4 | int1
  | mxE4m3 | mxE5m2 | mxE3m2 | mxE2m3 | mxFp4 | mxInt8 | qn4
  | e8m10 | int32 | int64 | index16 | index32
deriving DecidableEq, Repr

/-- The four run states of a stream (R19). -/
inductive RunState where
  | idle | run | ended | faulted
deriving DecidableEq, Repr

/-- The cause codes of R367. -/
inductive Cause where
  | illegal | priv | badstat | software | fetch | address | align | tag | desc | fmtpair | streambusy | cbuf | bank
  | lease | verify | metadata | expand | pairlim | overrun | table | index | checksum | view | page | splice | class_
  | phase | bundle | hang | nomap | ptbad | rperm | wperm | xperm | buserr | peer | remote | poison | uncorr
deriving DecidableEq, Repr

/-- A trap to be raised: its cause, the walk level of a translation cause (R367), FADDR and the element index (R38). -/
structure Exc where
  cause : Cause
  level : Nat
  addr : Dword
  elem : BitVec 32
deriving DecidableEq, Repr

/-- A 256-byte segment with its tag: a v, h or q entry (R26, R28). -/
structure Seg where
  bits : SegBits
  tag : Tag
deriving DecidableEq, Repr

/-- The three accumulation modes of a tile (R82, R187). -/
inductive AccMode where
  | arrival | canon | exact
deriving DecidableEq, Repr

/-- An accumulator cell (R32): 128 value bits, the inexact, overflow and poison flags, and the parity bit the hardware
keeps over the value bits (R32, R422 check 7). -/
structure Cell where
  value : BitVec 128
  inx : Bool
  ovf : Bool
  poi : Bool
  par : Bool
deriving DecidableEq, Repr

/-- A z tile (R32, R187). Cells are listed by number 256 * row + column in ascending order; an unlisted cell is clear. -/
structure Tile where
  tag : Tag
  btag : Tag
  mode : AccMode
  anchor : BitVec 9
  cells : List (Nat × Cell)
deriving DecidableEq, Repr

/-- A w plane (R32, R190). Entry (k, j) is number 256 * k + j; an unlisted entry is zero bits. `side` holds the MXINT8
scale byte of block b of column j at number 4 * j + b. -/
structure Plane where
  tag : Tag
  entries : List (Nat × BitVec 19)
  side : List (Nat × Byte)
deriving DecidableEq, Repr

/-- A circular-buffer handle (R24), with the core of the cluster that set it (R126). -/
structure Cb where
  base : BitVec 44
  slotsz : BitVec 16
  nslot : BitVec 12
  head : BitVec 32
  tail : BitVec 32
  shared : Bool
  valid : Bool
  owner : Nat
deriving DecidableEq, Repr

/-- Ring addressing taken at issue from word 3 of R149 or R207: the handle's geometry and the TAIL or HEAD copied. -/
structure RingRef where
  cbh : BitVec 4
  base : BitVec 44
  slotsz : BitVec 16
  nslot : BitVec 12
  start : BitVec 32
  wait : BitVec 12
deriving DecidableEq, Repr

/-- What a read run has of the forwarding store (R273): nothing; a generation of a pair, usable until a segment fails; or a
transient tile's generation that has failed and is consumed, whose segments fail again. -/
inductive Forward where
  | none
  | taken (pair : Nat) (good : Bool)
  | lost
deriving DecidableEq, Repr

/-- A read run of an operand queue (R148, R379). -/
structure ReadRun where
  desc : BitVec 256
  off : Dword
  step : BitVec 32
  count : Nat
  mpc : Nat
  ratio : BitVec 3
  ring : Option RingRef
  cc : Option (BitVec 3)
  decode : Bool
  fwd : Forward
deriving DecidableEq, Repr

/-- An operand queue (R26, R148): up to eight segments and up to four read runs, oldest first. -/
structure OpQueue where
  segs : List Seg
  runs : List ReadRun
deriving DecidableEq, Repr

/-- A line a stream is issuing from: its index in the image (or in the splice buffer), its virtual address and its
sixteen words (R15), and which kernel of a fused operator it came from (R276: 0 producer or plain, 1 consumer). -/
structure CodeLine where
  idx : BitVec 24
  addr : Dword
  words : List Word
  side : Bool
deriving DecidableEq, Repr

/-- Where an instruction stands: line address, slot, sequence number and kernel side (R38, R269). -/
structure Loc where
  lineIdx : BitVec 24
  addr : Dword
  slot : Nat
  seq : BitVec 32
  side : Bool
deriving DecidableEq, Repr

/-- Where a stream goes when its line is used up (R17). -/
inductive NextLine where
  | none
  | at (idx : BitVec 24)
  | steered
  /-- Issue resumes at an instruction whose line is no longer held (R38, R107). -/
  | resume (l : Loc)
deriving DecidableEq, Repr

/-- The element-wise and bitwise operations (R158, R159). -/
inductive VBin where
  | add | sub | mul | min | max | band | bor | bxor | shl | shr | sra
deriving DecidableEq, Repr

/-- The functions of R166. -/
inductive VFn where
  | rcp | rsq | exp2 | log2
deriving DecidableEq, Repr

/-- The operations of VRED and VSCAN (R167, R168). -/
inductive RedOp where
  | sum | min | max
deriving DecidableEq, Repr

/-- What an issued vector instruction computes in each iteration. -/
inductive VKind where
  | move
  | splat (tag : Tag) (imm : Word)
  | bin (op : VBin)
  | fma
  | abs | neg
  | cmp (cond : BitVec 4)
  | sel | clamp
  | cvt (t : Tag) (expect : BitVec 5) (sat : Bool)
  | qnt (t : Tag)
  | fn (f : VFn)
  | red (op : RedOp)
  | scan (op : RedOp)
  | part | iota | shuf | pack | unpk
  | write (sat : Bool)
  | gath (men : Bool)
  | scat (men : Bool)
deriving DecidableEq, Repr

/-- The operand fields of an issued vector instruction (R139), with the copies taken at issue (R27, R80, R142). -/
structure VecOp where
  kind : VKind
  a : BitVec 6
  b : BitVec 6
  c : BitVec 6
  rnd : BitVec 2
  count : Nat
  d : BitVec 5
  dv : Bool
  dadv : Bool
  aadv : Bool
  badv : Bool
  cadv : Bool
  desc : BitVec 256
  off : Dword
  step : Option (BitVec 32)
  ring : Option RingRef
  cc : Option (BitVec 3)
  seed : Dword
  loc : Loc
  wordAddr : Dword
  sync : Sync
  /-- Bytes of earlier iterations of a two-word VWR, each rounded up to 16 (R153). -/
  written : Nat
  /-- Segments of element-stream operands A, B, C read and not used up (R164): step number and segment. -/
  heldA : Option (Nat × Seg)
  heldB : Option (Nat × Seg)
  heldC : Option (Nat × Seg)
  tag0A : Option Tag
  tag0B : Option Tag
  tag0C : Option Tag
  /-- Steps of q operands already removed from their queue. -/
  usedA : Nat
  usedB : Nat
  usedC : Nat
  /-- The forwarding pair a fused writer feeds (R272, R273). -/
  fwd : Option Nat
deriving DecidableEq, Repr

/-- A VWR or VSCAT in its memory phase: its execute phase has ended, its writes land, and it retires when they have (R142). The stream
may have issued later instructions. -/
structure VLanding where
  sync : Sync
  cc : Option (BitVec 3)
  ring : Option RingRef
deriving DecidableEq, Repr

/-- A stored element of a B row (R178): its column, bits and scale, and the flawed granule it lies in, by virtual and
physical address (R382). -/
structure BItem where
  col : Nat
  bits : BitVec 64
  code : Byte
  super : BitVec 32
  flaw : Option (Dword × Nat)
deriving DecidableEq, Repr

/-- A matched pair (R178): row, column k, A element bits and scale, emission sequence, per-row index, and the B row. -/
structure Pair where
  row : Nat
  k : Nat
  a : BitVec 64
  code : Byte
  super : BitVec 32
  seq : Nat
  idx : Nat
  skipped : Bool
  brow : List BItem
deriving DecidableEq, Repr

/-- The kinds of walk (R176). -/
inductive WalkKind where
  | bmap | coord | dense
deriving DecidableEq, Repr

/-- The walker's configuration (R175). -/
structure WCfg where
  mode : Bool
  ovf : Bool
  chk : Bool
  cbh : BitVec 4
  lag : BitVec 8
  skip : BitVec 10
deriving DecidableEq, Repr

/-- A walk: its copies taken at issue (R27, R175, R179), the rounds prepared and emitted (R180, R182) and, in list mode,
the records written (R183, R184). -/
structure Walk where
  kind : WalkKind
  da : BitVec 4
  db : BitVec 4
  cfg : WCfg
  row0 : Nat
  descA : BitVec 256
  descB : BitVec 256
  cc : Option (BitVec 3)
  loc : Loc
  wordAddr : Dword
  sync : Sync
  /-- Still at issue, waiting to meet an MSPR: nothing of it has issued (R176). -/
  waiting : Bool
  /-- Pre-check done (CHK = 1, R182). -/
  checked : Bool
  /-- The next round to be prepared, and the sequence number of its first pair; `recount` has it taken from the metadata
  again (R184, R198). -/
  round : Nat
  seqNext : Nat
  recount : Bool
  /-- Pairs of the prepared round not emitted yet, and whether one of it has been. -/
  ready : List Pair
  begun : Bool
  ended : Bool
  /-- Pairs emitted, skipped ones included, and records written (R184). -/
  emitted : Nat
  records : Nat
  /-- Pairs of each home row done before a resumption: those below are discarded (R289). -/
  resume : List (Nat × Nat)
deriving DecidableEq, Repr

/-- A pair in progress in a lane and the steps left (R280). -/
structure LaneWork where
  lane : Nat
  pair : Pair
  left : Nat
deriving DecidableEq, Repr

/-- The flow of a walk and its MSPR (R278 to R284), with the walk's copies that govern it. -/
structure Flow where
  cfg : WCfg
  tagA : Tag
  tagB : Tag
  step : Nat
  /-- Sequence number of the next pair to be emitted, or the walk's pair count (R279). -/
  next : Nat
  /-- No pair remains to be emitted. -/
  walkDone : Bool
  rowq : List (Nat × List Pair)
  spill : List Pair
  lanes : List LaneWork
  /-- Pairs of each home row done, skipped ones included (R198). -/
  done : List (Nat × Nat)
  /-- CANON pairs arrived and held until every earlier pair of the same home row has been applied (R284). -/
  held : List Pair
  /-- An uncorrectable error in a B row: emission has stopped, and it is raised when the flow has drained (R288, R382). -/
  stop : Option Exc
  poisoned : Bool
deriving DecidableEq, Repr

/-- What an issued matrix instruction is (R185). -/
inductive MatKind where
  | lease (n : Nat)
  | zero (z : BitVec 1) (left : Nat)
  | str (z : BitVec 1) (zrow : Nat) (n : Nat)
  | conv (f : MconvF)
  | spr (z : BitVec 1)
  | drn (z : BitVec 1) (zrow : Nat) (n : Nat) (rnd : BitVec 2)
deriving DecidableEq, Repr

/-- An issued matrix instruction with its copies (R27, R80, R185). `started` is false for an MSPR still at issue, waiting to meet
its walk (R176). -/
structure MatOp where
  kind : MatKind
  desc : BitVec 256
  p : Dword
  step : BitVec 32
  ring : Option RingRef
  cc : Option (BitVec 3)
  seed : Dword
  loc : Loc
  wordAddr : Dword
  sync : Sync
  started : Bool
  landing : Bool
  poisoned : Bool
  fwd : Option Nat
deriving DecidableEq, Repr

/-- The MLDS on the plane-load unit (R185, R189, R190) with its own MPC (R38). -/
structure PlaneLoad where
  pln : BitVec 1
  desc : BitVec 256
  p : Dword
  ncol : Nat
  step : BitVec 32
  ring : Option RingRef
  cc : Option (BitVec 3)
  loc : Loc
  wordAddr : Dword
  sync : Sync
  mpc : Nat
  /-- The other kernel's matrix counter as this MLDS issued (R38, R269). -/
  other : BitVec 32
  /-- The cause if this MLDS raised the fault that stopped the core (R38). -/
  status : Nat
deriving DecidableEq, Repr

/-- The copy instructions (R208). -/
inductive KKind where
  | copy | two | gath | scat | fill | pf | enc | dec | tab | view | img
deriving DecidableEq, Repr

/-- One bundle met by a KVIEW (R258): identifier, newest version seen, version taken and whether it is fractured. -/
structure ViewBundle where
  bid : BitVec 24
  newest : BitVec 16
  taken : BitVec 16
  fract : Bool
deriving DecidableEq, Repr

/-- What the page decoder holds of a running KIMG: dimensions, kind and scale (R303 to R306). -/
structure PageJob where
  width : Nat
  height : Nat
  chan : Nat
  depth : Nat
  src : Nat
  bitonal : Bool
  sk : Nat
  /-- The decoded samples in raster order. -/
  samples : List Nat
deriving DecidableEq, Repr

/-- An issued copy transfer (R205) with its copies, and what its units carry forward: the next write place, stored counts
and directory of KENC (R218), the bundles of KVIEW (R258), the page of KIMG (R302), and completion steps (R227). -/
structure CopyOp where
  kind : KKind
  f : KF
  descS : BitVec 256
  descD : BitVec 256
  descI : BitVec 256
  p : List Dword
  p15 : Dword
  seed : Dword
  ts : Tag
  td : Tag
  ringS : Option RingRef
  ringD : Option RingRef
  loc : Loc
  wordAddr : Dword
  sync : Sync
  /-- Units of the transfer, and the next one. -/
  units : Nat
  unit : Nat
  encPos : Nat
  encCount : Nat
  table : Option (BitVec 16)
  /-- KVIEW: the bundles met, and the view taken, by destination (R258). -/
  views : List ViewBundle
  placed : Option (List (Dword × List Byte))
  /-- KIMG's normalisation block (R307), or KTAB's image (R220). -/
  held : List Byte
  page : Option PageJob
  /-- All is written: only completion remains (R205). -/
  finished : Bool
  /-- The chains before the unit whose remote writes may still fail (R295). -/
  chains : List Dword
  /-- The checksum actions have begun: on TRET nothing more is compared or written out (R227). -/
  compared : Bool
  /-- The compare failed, and CHECKSUM is raised once the bytes written out have landed (R227). -/
  mismatch : Bool
deriving DecidableEq, Repr

/-- An engine stream's issued, unfinished instruction. -/
inductive EngineOp where
  | none
  | vec (o : VecOp)
  | mat (o : MatOp)
  | copy (o : CopyOp)
  | walk (o : Walk)
deriving DecidableEq, Repr

/-- What a held retirement has still to do (R21, R25, R134): a token to be pushed, a completion counter to be counted down,
or the control stream's END. -/
inductive Retiring where
  | push (x : BitVec 2)
  | done (n : BitVec 3)
  | ends
deriving DecidableEq, Repr

/-- A stream of a core (R13, R19 to R22, R31, R38). -/
structure Stream where
  run : RunState
  line : Option CodeLine
  slot : Nat
  next : NextLine
  /-- Next sequence number (of the plain or producer kernel), and of the consumer kernel of a fused operator (R269). -/
  seq : BitVec 32
  seqB : BitVec 32
  /-- The kernel whose instruction the stream issued last: its counter is the one recorded of a stream without a line (R38, R321). -/
  side : Bool
  mpc : BitVec 32
  steer : List (BitVec 24)
  op : EngineOp
  /-- What retirements have still to do, oldest first: pushes land at the end of their cycle, and a push whose FIFO is at 15 holds
  itself and all that comes behind it (R21, R22). -/
  held : List Retiring
  /-- Cycles in RUN without progress, and whether the current cycle had progress (R373). -/
  idle : Nat
  progress : Bool
  /-- Cause recorded as this stream's status (R38). -/
  status : BitVec 32
  /-- Run state to return to at TRET (R19). -/
  saved : RunState
deriving DecidableEq, Repr

/-- Where a control result goes (R104). -/
inductive Dest where
  | none
  | g (n : BitVec 5)
  | desc (n : BitVec 4) (qtr : BitVec 2)
  | param (st : StreamId) (n : BitVec 4)
deriving DecidableEq, Repr

/-- What an in-flight control instruction waits for (R104): cycles left of an exposed one, a value at hand, a remote
reply, the bundle's master home, or the seal (R117, R118). -/
inductive Await where
  | cycles (left : Nat)
  | ready
  | remote (tag : Nat)
  | bopen (bid : BitVec 24)
  | bseal
deriving DecidableEq, Repr

/-- An in-flight control instruction (R104 to R107). -/
structure InFlight where
  dest : Dest
  val : Dword
  wait : Await
  q : Bool
  sync : Sync
  loc : Loc
  fault : Option Exc
  /-- Width in bytes and sign extension of a load whose reply is awaited (R111). -/
  conv : Nat × Bool
deriving DecidableEq, Repr

/-- A blocking control instruction not completed, or a STEER stalled on a full queue (R20, R104). -/
inductive BlockKind where
  | fence (scope : BitVec 3)
  | xfence (scope : BitVec 3) (src dst : BitVec 7)
  /-- The storing engine instructions that had issued before it, by stream and sequence number (R116). -/
  | phase (before : List (StreamId × BitVec 32))
  | rdv (mask : BitVec 4)
  | waitcc (n : BitVec 3) (value : BitVec 8)
  | cbset (h : BitVec 4) (f : CbsetF)
  | cbwait (h : BitVec 4) (role : Bool) (n : Nat)
  | item (a : BitVec 5)
  | emit (a : BitVec 5) (rec : Dword)
  | emitStolen (a : BitVec 5) (rec : Dword)
  | steer (e : BitVec 2) (line : BitVec 24)
  | vbank
  /-- A BABORT until the version's tagged stores are out (R119). -/
  | babort
deriving DecidableEq, Repr

/-- The blocked control instruction and where it stands. -/
structure Block where
  kind : BlockKind
  sync : Sync
  loc : Loc
  /-- Its length in words. -/
  len : Nat
deriving DecidableEq, Repr

/-- A line of the control data cache (R112): physical line address, data, class PHASED or not, and its dirty bytes. -/
structure DLine where
  pa : Nat
  data : LineBits
  phased : Bool
  va : Dword
  group : Nat
  dirty : BitVec 128
deriving DecidableEq, Repr

/-- A TLB entry (R388): ASID, page base and its log2 size, leaf entry, and whether a write has set D through it. -/
structure TlbEntry where
  asid : BitVec 11
  base : Nat
  log2 : Nat
  leaf : Dword
deriving DecidableEq, Repr

/-- A bank transition asked for by MTS (R37). -/
inductive BankMove where
  | none
  | waking (left : Nat)
  | ungating (left : Nat) (toRetain : Bool)
  | leaving (gated : Bool)
deriving DecidableEq, Repr

/-- The special registers of a core (R33, R34, R37) as the hardware holds them. -/
structure Special where
  sat : Bool
  peerlost : Bool
  verify : Bool
  pend : Bool
  mode : BitVec 2
  sstat : Dword
  cause : Dword
  faddr : Dword
  asid : BitVec 11
  /-- ASID written by an MTS and taken at the next TRET (R131). -/
  asidNext : Option (BitVec 11)
  seed : Dword
  phn : BitVec 32
  bopenid : Dword
  lagcnt : Dword
  ovfcnt : Dword
  skipcnt : Dword
  confcnt : Dword
  vbank : BitVec 8
  hanglim : Dword
deriving DecidableEq, Repr

/-- The open bundle version of a core (R117, R118, R254, R255): bundle table entry, running mask, and stores sent per segment. -/
structure OpenVersion where
  bid : BitVec 24
  entry : Nat
  version : BitVec 16
  mask : BitVec 64
  sent : List (Nat × Nat)
  sealing : Bool
deriving DecidableEq, Repr

/-- How far the EMIT of a stolen item has come (R353): not begun, carried to the chip that holds the record, or its insertion there
acknowledged. -/
inductive CarryBack where
  | no | asked | done
deriving DecidableEq, Repr

/-- The running operator of a core (R15, R33 IBASE, R340, R130, R267). -/
structure Operator where
  base : Dword
  fused : Bool
  rid : Nat
  stage : Option Nat
  plain : Bool
  item : Option Dword
  stolen : Bool
  ownerChip : Nat
  /-- What the producer's last ITEM returned, 0 included (R267). -/
  producerItem : Option Dword
  /-- A stolen item's way back by EMIT (R353). -/
  back : CarryBack
  /-- The graph run that launched it, by number (R338). -/
  runNo : Nat
deriving DecidableEq, Repr

/-- A shadow launch bank (R340). -/
structure Launch where
  base : Dword
  centry : BitVec 24
  asid : BitVec 11
  verify : Bool
  rid : Nat
  stage : Option Nat
  args : List Dword
  fused : Bool
  runNo : Nat
deriving DecidableEq, Repr

/-- A splice-map entry (R276). -/
structure SpliceEntry where
  kernid : Dword
  line : BitVec 24
  side : Bool
  conv : BitVec 15
  base : Dword
deriving DecidableEq, Repr

/-- A forwarding generation (R273): the segments the writer has produced, with their physical addresses, whether each
produced a whole segment, and the writer's destination tag. -/
structure Generation where
  /-- Sequence number of the writer that opened it. -/
  owner : BitVec 32
  tag : Tag
  segs : List (Nat × SegBits × Bool)
  taken : Bool
deriving DecidableEq, Repr

/-- A pair of R272: writer and reader by splice-buffer line and slot, and its generations, oldest first. -/
structure FwdPair where
  wLine : Nat
  wSlot : Nat
  rLine : Nat
  rSlot : Nat
  gens : List Generation
deriving DecidableEq, Repr

/-- The splice of a core's fused operator (R266, R272, R276). -/
structure Splice where
  lines : List (List Word)
  map : List SpliceEntry
  pairs : List FwdPair
  transient : Bool
  fmt : Tag
deriving DecidableEq, Repr

/-- The stages of a pre-emption (R375), with the save area Gheah named: ordered, draining towards the cut, or answered
"already ended" and waiting for the operator to retire (R372). -/
inductive PreemptStage where
  | none
  | pending (area : Nat)
  | draining (area : Nat)
  | ended
deriving DecidableEq, Repr

/-- A saved context (R375, R376): the physical address of its save area, whether the shadow bank was full at its cut and waits
for its resumption (R340), and what the record does not hold (R377 to R380): the operator with its ASID and VERIFY, its open
version (R256), its splice (R266), the generations that its read runs took (R273) and the kernel whose counter the record holds for
each stream (R269). -/
structure SavedOp where
  area : Nat
  bankKept : Bool
  op : Operator
  asid : BitVec 11
  verify : Bool
  version : Option OpenVersion
  splice : Option Splice
  fwd : List Forward
  sides : List Bool
deriving DecidableEq, Repr

/-- A core. -/
structure Core where
  g : Vector Dword 32
  b : Vector (BitVec 28) 8
  d : Vector (BitVec 256) 16
  p : Vector (Vector Dword 16) 4
  v : Vector Seg 32
  h : Vector Seg 16
  q : Vector OpQueue 4
  w : Vector Plane 2
  z : Vector Tile 2
  k : Vector Dword 4
  cb : Vector Cb 16
  cc : Vector (BitVec 8) 8
  fifo : Vector (BitVec 4) 20
  sr : Special
  streams : Vector Stream 5
  inflight : List InFlight
  block : Option Block
  /-- The control stream has issued in this cycle (R104). -/
  issued : Bool
  /-- Sequence number of the PBR or PBRR of this run that last wrote each b register (R121). -/
  pbrSeq : List (BitVec 3 × BitVec 32)
  /-- Cycles a taken branch still loses (R121). -/
  stall : Nat
  /-- How far the present cycle has come at this core: what acts later in it has a rank at least this (R22, R25, R49, R372; log 61). -/
  rank : Nat
  /-- HANGLIM as it stood when the present cycle began, which is what is compared in it (R134). -/
  limit : Dword
  dcache : List DLine
  tlb : List TlbEntry
  wcfg : WCfg
  row0 : BitVec 32
  flow : Option Flow
  planeLoad : Option PlaneLoad
  leaseLeft : Nat
  wantLease : Option Nat
  banks : Vector BankMove 4
  /-- The vector instructions in their memory phase, oldest first (R142). -/
  landing : List VLanding
  version : Option OpenVersion
  phaseArrived : Bool
  op : Option Operator
  shadow : Option Launch
  splice : Option Splice
  /-- A fault that has stopped the sequencers while work in flight finishes, with CYC at the fault (R38, R107, R198, R368). -/
  raising : Option (StreamId × Exc × Dword)
  /-- The hardware's copy of the fault frame while the streams are FAULTED (R370), and of the kernel's control stream. -/
  frame : Option (BitVec 4096)
  savedC : Option Stream
  /-- A handler fault or machine check has stopped the core (R369, R374). -/
  stopped : Bool
  /-- Stage the core is bound to: region and stage (R130, R345). -/
  stage : Option (Nat × Nat)
  moveTo : Option (Nat × Nat)
  preempt : PreemptStage
  /-- The contexts saved by this core and not resumed, the last one first (R376). -/
  saved : List SavedOp
  /-- 16-byte units of remote operands that have arrived, by window address (R296, R298), and the reads that failed, by address and length
  (R295). -/
  rbuf : List (StreamId × Dword × BitVec 128)
  rfault : List (StreamId × Dword × Nat × Exc)
  /-- Failed peers whose outstanding stores of this core were dropped and not yet reported by a fence (R114, R244). -/
  lostPeers : List (BitVec 12)
deriving DecidableEq, Repr

/-- The lease of a cluster's array (R186, R290, R291). -/
structure Cluster where
  holder : Option Nat
  left : Nat
  last : Nat
  sinceEnd : Nat
  token : Bool
  waitToken : Bool
  cb : Vector Cb 16
  /-- The lowest core number of the cluster that may still move a shared handle in this cycle (R24; log 61). -/
  cbTurn : Nat
  tlb : List TlbEntry
deriving DecidableEq, Repr

/-- A die: its cycle count (R33, R419), power tokens (R291), lottery (R344), page-decoder queue by cycle of issue and core (R302), throttle (R424). -/
structure Die where
  cyc : Dword
  ntok : Nat
  tokens : List Nat
  lseed : Dword
  lcnt : Dword
  kimgQueue : List (Nat × Nat)
  decoders : List (Option Nat)
  tlb : List TlbEntry
  throttled : Bool
  /-- The count of die 0 since which every sample has been below 95 degrees C (R424). -/
  cool : Option Dword
deriving DecidableEq, Repr

/-- A pending copy of a PHASED line (R248): group, core, physical line, byte mask and data. -/
structure PendingLine where
  group : Nat
  core : Nat
  pa : Nat
  mask : BitVec 128
  data : LineBits
deriving DecidableEq, Repr

/-- The states of a home record (R253). -/
inductive HomeState where
  | idle | opened | sealing | landed
deriving DecidableEq, Repr

/-- A home record (R253), by bundle and segment; `lost` marks a home that cannot be reached (R255). -/
structure Home where
  bid : BitVec 24
  seg : Nat
  committed : BitVec 16
  pending : BitVec 16
  state : HomeState
  nland : Nat
  nexpect : Nat
  decided : Bool
  fmask : BitVec 64
  opener : Option (BitVec 12 × BitVec 9)
  lost : Bool
deriving DecidableEq, Repr

/-- A store under an open version on its way to its home (R254). -/
structure BStore where
  core : Nat
  /-- The stream that made it (R373). -/
  st : StreamId
  bid : BitVec 24
  version : BitVec 16
  seg : Nat
  pa : Nat
  mask : BitVec 64
  bytes : List Byte
  /-- The WRITE whose acknowledgement waits for the landing (R298). -/
  ack : Option Packet
deriving DecidableEq, Repr

/-- An entry of the phase table (R246). -/
structure PhaseGroup where
  members : BitVec 512
  arrived : BitVec 512
  gphn : BitVec 32
  confaddr : Dword
  confbytes : Dword
  /-- Every member had arrived when the present cycle began, so that a withdrawal in it meets a commit (R116). -/
  due : Bool
deriving DecidableEq, Repr

/-- A soft error that the world outside puts into a place which no address names: in the line that a stream's instruction line
buffer takes next (R18, R422 check 6); in a byte that a core's copy engine holds between the source and the destination, which
no check covers (R422, R317): the byte's number in the unit's chunk, and the bits that flip; in an accumulator cell (R422 check 7): the
value bits that flip; or a request of the host link whose ECRC fails (R422 check 5). -/
inductive SoftError where
  | line (core : Nat) (st : StreamId)
  | staging (core : Nat) (byte : Nat) (flip : Byte)
  | cell (core : Nat) (z : BitVec 1) (n : Nat) (flip : BitVec 128)
  | ecrc
deriving DecidableEq, Repr

/-- An entry of the replica table as read (R260); `clear` says that its zero bytes are zero. -/
structure Replica where
  nrep : Nat
  rbase : List (BitVec 44)
  clear : Bool
deriving DecidableEq, Repr

/-- A store to a REPLICATED line in progress (R261): entry, offset, locked replicas and bytes, and the WRITE whose acknowledgement
waits for it (R298). -/
structure RStore where
  core : Nat
  /-- The stream that made it (R373). -/
  st : StreamId
  entry : Nat
  pa : Nat
  locked : Nat
  written : Nat
  bytes : List Byte
  ack : Option Packet
deriving DecidableEq, Repr

/-- A resident Huffman table (R96). -/
structure HuffTable where
  alpha : Byte
  tid : BitVec 16
  len : List Byte
deriving DecidableEq, Repr

/-- A stage of an admitted region (R330 to R336): counts of its input queue, and its binding. -/
structure StageState where
  head : Nat
  tail : Nat
  closed : Bool
  status : BitVec 8
  reason : BitVec 8
  base : Dword
  centry : BitVec 24
  kernid : Dword
  cost : Dword
  fusedNext : Bool
  fusedPrev : Bool
  splice : Option Splice
  /-- The queued items with their ARRIVE, oldest first. -/
  arrives : List (Dword × Dword)
  /-- Items stolen from other chips and not yet taken: chip and window address (R353). -/
  stolen : List (Nat × Dword)
  cset : BitVec 512
deriving DecidableEq, Repr

/-- What a graph run waits for (R338 to R340). -/
inductive RunWait where
  | none
  /-- Its operators; then the node to go to, as the WAIT node said when the run reached it. -/
  | operators (next : Nat)
  /-- A word, with the die-0 count at which it was last read, and the node to go to. -/
  | word (va : Dword) (value : Dword) (since : Dword) (next : Nat)
  | launch (base : Dword) (centry : BitVec 24) (cores : List Nat) (args : List Dword) (next : Nat)
deriving DecidableEq, Repr

/-- A run of a resident graph (R338, R341): its number, and the die-0 count at which it began. -/
structure GraphRun where
  no : Nat
  since : Dword
  tval : Dword
  node : Nat
  counters : List (Nat × Nat)
  executed : Nat
  launched : Nat
  wait : RunWait
deriving DecidableEq, Repr

/-- An admitted region (R325 to R327) with the effective values Gheah copied, and its running state. -/
structure Region where
  rid : Nat
  /-- The function whose command added the region: its interrupts go there (R338). -/
  fn : Nat
  rcb : Nat
  parent : Nat
  verify : Bool
  chained : Bool
  asid : BitVec 11
  prio : Nat
  fdom : Nat
  cmin : Nat
  cmax : Nat
  tickets : Nat
  dclass : Nat
  nstage : Nat
  vault : Nat
  hbm : Nat
  fabric : Nat
  cost : Nat
  valloc : Nat
  span : Nat
  stagesAt : Nat
  btab : Nat
  nbund : Nat
  nextr : Nat
  graph : Nat
  trig : Nat
  handler : Dword
  cq : Nat
  cqcap : Nat
  cqHead : Nat
  cqTail : Nat
  stages : List StageState
  /-- Items admitted and not yet done (R350). -/
  items : Nat
  run : Option GraphRun
  /-- Runs begun. -/
  runs : Nat
  pendTrig : Option Dword
  /-- The die-0 count at which the last trigger landed (R341). -/
  lastTrig : Option Dword
  /-- The phase groups given to it at the last binding (R246). -/
  groups : List Nat
  removing : Bool
  dead : Bool
deriving DecidableEq, Repr

/-- A deadline class (R349). -/
structure Deadline where
  due : Dword
  deadline : Dword
deriving DecidableEq, Repr

/-- A queue control block's fields (R354). -/
structure Qcb where
  seq : BitVec 32
  qflags : BitVec 32
  ring : Dword
  depth : BitVec 32
  rid : BitVec 16
  msix : BitVec 16
  cring : Dword
  cdepth : BitVec 32
  rest : BitVec 224
deriving DecidableEq, Repr

/-- A host queue (R354 to R359): the block the driver writes, the firmware's shadow of the last block accepted, the die-0 count
of a read that found it inconsistent, the producer and consumer indexes of both rings, a completion to be written, and
whether the command at the head is being executed, having begun to remove a region. -/
structure HostQueue where
  qcb : Qcb
  shadow : Qcb
  accepted : Bool
  disabled : Bool
  reread : Option Dword
  prod : BitVec 32
  cons : BitVec 32
  cprod : BitVec 32
  ccons : BitVec 32
  waiting : Option (BitVec 32 × BitVec 16)
  removal : Bool
deriving DecidableEq, Repr

/-- An invalidation block (R389): its registers, the invalidation in progress (BUSY) with the fields it began with, and the stores
translated before it began that were still on their way. -/
structure InvBlock where
  inva : Dword
  asid : BitVec 11
  kind : BitVec 2
  count : BitVec 32
  denied : Bool
  job : Option (BitVec 2 × BitVec 11 × Dword)
  before : List BStore × List RStore
deriving DecidableEq, Repr

/-- A PCIe function (R354, R357, R360): its queues and invalidation block, and the ASID range Gheah has given a VF. -/
structure HostFn where
  queues : Vector HostQueue 64
  inv : InvBlock
  asidLo : Nat
  asidHi : Nat
  /-- A function-level reset is being carried out (R362). -/
  flr : Bool
deriving DecidableEq, Repr

/-- The fleet operator's blocks (18 R417 to R427). -/
structure Fleet where
  evbase : Dword
  evprod : BitVec 32
  evcons : BitVec 32
  evlost : BitVec 32
  evvec : BitVec 11
  sseq : List (Nat × BitVec 32)
  pwrcap : BitVec 12
  attbuf : Dword
  attnonce : BitVec 512
  attCopy : BitVec 512
  attStatus : BitVec 2
  attBusy : Bool
  leaf : Nat
  almanacGen : BitVec 32
  recovery : Bool
  telemetry : List (Nat × Dword)
  refused : Nat
  tokenWaits : Vector Nat 4
  /-- By source: errors corrected since its last CORRECTED record, and that record's count (R422). -/
  corrected : List (Nat × (Nat × Option Dword))
  correctedHbm : Vector Nat 8
  uncorrHbm : Vector Nat 8
  correctedVault : Vector Nat 4
  uncorrVault : Vector Nat 4
  replays : List (Nat × Nat)
  losEvents : List (Nat × Nat)
  /-- MSI-X messages sent, newest first: function and vector (R358, R421). -/
  msix : List (Nat × Nat)
  /-- Fault domains that Gheah has still to stop (R329, R369, R374). -/
  stopDomains : List Nat
  /-- Service cores whose reset waits for the commands being executed (R359). -/
  resets : List Nat
  /-- The device physical address at which Gheah has placed BAR2's window (R360). -/
  bar2 : Nat
deriving DecidableEq, Repr

/-- The states of a port (R403). -/
inductive PState where
  | down | up | dark
deriving DecidableEq, Repr

/-- A band of a port's sending fibre (R391, R392, R400 to R402): laser modules that are lit and those known to have failed,
width in modules (the width code of R403, 0 DOWN), active mask, cycles of a relock left, and when it becomes free, in
sevenths of a ns of die 0's clock. -/
structure Band where
  lit : BitVec 4
  failed : BitVec 4
  width : Nat
  mask : BitVec 16
  relock : Option Nat
  freeAt : Nat
  /-- Since loss of light: replays on the port, first SEQ resent, flits resent (R401, R414). -/
  replays : Nat
  firstSeq : BitVec 24
  resent : Nat
deriving DecidableEq, Repr

/-- A flit as it stands in a replay buffer or reorder window (R393, R397). -/
structure HeldFlit where
  seq : BitVec 24
  flit : BitVec 1536
deriving DecidableEq, Repr

/-- A packet at a sender until every flit that holds a part of it is acknowledged (R395, R397, R401): the slots not placed
yet, and the SEQ of the flit that took the last one placed. -/
structure OutPacket where
  pkt : Packet
  left : List (BitVec 128)
  last : BitVec 24
deriving DecidableEq, Repr

/-- A port's two directions (R391 to R402, R428). -/
structure Port where
  state : PState
  peer : BitVec 12
  peerPort : BitVec 6
  bands : Vector Band 4
  /-- Sender: next SEQ, replay buffer, flits to be sent again, cycles since ACK advanced, replays since then, packets and
  management packets and VIGIL rounds to be sent, cycles since the last flit. -/
  txSeq : BitVec 24
  replay : List HeldFlit
  again : List HeldFlit
  sinceAck : Nat
  fruitless : Nat
  out : List OutPacket
  mgmt : List OutPacket
  vigils : List Nat
  sinceSend : Nat
  /-- Flits put on the wire, newest first: the band, and what each of its lit wavelengths carried (R400). -/
  wire : List (Nat × List (Nat × List (BitVec 32)))
  /-- Receiver: expected SEQ, reorder window, cycles for which the expected flit has been missing, cycles since the last RPL
  and the last good flit, RPL to be sent, slots of a packet not whole yet in DATA and in MGMT flits, wavelengths lit by band. -/
  rxE : BitVec 24
  window : List HeldFlit
  gap : Nat
  sinceRpl : Nat
  silent : Nat
  rplDue : Bool
  slots : List (BitVec 128)
  mslots : List (BitVec 128)
  rxMask : Vector (BitVec 16) 4
  /-- Slots that may be placed on each channel, and slots delivered since the last credit was returned (R399). -/
  credit : Vector Nat 2
  owed : Vector Nat 2
  /-- Regrouping: VIGIL rounds received and sent, COMMITTED sent and received (R410, R412). -/
  vigilRx : Nat
  vigilTx : Nat
  commTx : Bool
  commRx : Bool
deriving DecidableEq, Repr

/-- Where a management packet goes (R405). -/
inductive MgmtTo where
  | chip (c : BitVec 12)
  | flood
  | port (n : Nat)
deriving DecidableEq, Repr

/-- The management packets of R405 by their contents. -/
inductive Mgmt where
  | heartbeat (epoch : BitVec 32)
  | failed (chip : BitVec 12) (epoch : BitVec 32)
  | advert (rid stage occ : Nat)
  | stealAsk (rid stage : Nat) (kernid : Dword)
  | stealAnswer (rid stage : Nat) (item : Option Dword)
  | stolenBack (rid stage : Nat) (item : Dword)
  | stolenAck (rid stage : Nat) (item : Dword)
  | rstr (port band : Nat) (lit : BitVec 16)
  | linkid (chip : BitVec 12) (port : Nat) (epoch : BitVec 32)
  | committed (epoch : BitVec 32)
deriving DecidableEq, Repr

/-- A member entry of the group table (R403 CHIPE). -/
structure Member where
  chip : BitVec 12
  x : Nat
  y : Nat
  z : Nat
  failed : Bool
deriving DecidableEq, Repr

/-- The group table (R403) without its port entries, which are the ports' own state. -/
structure GroupTable where
  epoch : BitVec 32
  gid : BitVec 16
  dx : Nat
  dy : Nat
  dz : Nat
  self : BitVec 12
  members : List Member
deriving DecidableEq, Repr

/-- What a remote request does (R293 to R299). -/
inductive ReqKind where
  | read | write | atomic
deriving DecidableEq, Repr

/-- A remote request of this chip (R292 to R301): who made it, the window address, its bytes, and its tag once sent. -/
structure RemoteReq where
  tag : Nat
  kind : ReqKind
  core : Nat
  st : StreamId
  addr : Dword
  len : Nat
  asid : BitVec 11
  opc : BitVec 4
  data : List Byte
  compare : Dword
  tagged : Option (BitVec 24 × BitVec 16 × BitVec 6 × BitVec 64)
  /-- The count of bytes sent to the peer up to and with this request (R300). -/
  upTo : Nat
deriving DecidableEq, Repr

/-- The allowance state of a peer (R299, R300, R407). -/
structure Peer where
  chip : BitVec 12
  allow : Nat
  start : BitVec 10
  fact : BitVec 2
  tgt : BitVec 32
  outBytes : Nat
  sentBytes : Nat
  trip : Option (Nat × Dword)
  sinceBeat : Nat
deriving DecidableEq, Repr

/-- A remembered write or atomic of another chip (R396). -/
structure Remembered where
  src : BitVec 12
  tag : BitVec 18
  old : BitVec 128
  isAtomic : Bool
deriving DecidableEq, Repr

/-- The regrouping states (R408). -/
inductive RgState where
  | idle | quiescing | dark | relocking
deriving DecidableEq, Repr

/-- The fabric interface (17). -/
structure Fabric where
  group : GroupTable
  ports : Vector Port 64
  peers : List Peer
  frz : Bool
  nextTag : Nat
  waiting : List RemoteReq
  inFlight : List RemoteReq
  remembered : List Remembered
  /-- Packets delivered to this chip and not yet served, and packets that wait for an UP port (R403). -/
  rxPackets : List Packet
  held : List Packet
  /-- VIGIL flits delivered: port, round, EPOCH (R410). -/
  rxVigils : List (Nat × Nat × BitVec 32)
  /-- Management packets sent, newest first (R405). -/
  mgmt : List (MgmtTo × Mgmt)
  rgplan : BitVec 44
  plan : Option GroupTable
  planPorts : List (Nat × BitVec 12 × BitVec 6)
  rgState : RgState
  badplan : Bool
  mismatch : Bool
  timeout : Bool
  settled : Bool
  rgCycles : Nat
  /-- Die-0 cycles since the last HEARTBEAT and the last advertisement were sent (R405, R352). -/
  beat : Nat
  advertAge : Nat
  silenced : Bool
  /-- Steal requests to be answered (R352): chip, region, stage, KERNID of the thief's image. -/
  stealReqs : List (Nat × Nat × Nat × Dword)
  /-- Items given to thieves and not yet brought back (R353): chip, region, stage, record. -/
  lent : List (Nat × Nat × Nat × Dword)
deriving DecidableEq, Repr

end Sys2Proof.Machine
end

