-- ==== Sys2Proof/Machine/State.lean ====
section
/-! DEFINITION. The state of a module (R1): its cores, clusters and dies, memory, the front end and host interface, the
fabric interface, and the model's own scheduling input; the closed lists of faults and refusals; the state after a module
reset. Registers with no stated reset value are 0, INVALID or empty (DESIGN CHOICE, log 4). -/

namespace Sys2Proof.Machine

/-- One thing that happens next (log 1): a stream of a core tries to issue, an event of the machine takes place at a core
(or at the chip, where its arguments name the unit), or a die's clock ends a cycle. -/
inductive Action where
  | issue (core : Fin 512) (st : StreamId)
  | event (core : Fin 512) (i : Instr)
  | tick (die : Fin 4)
  /-- A soft error strikes a buffer. -/
  | flip (e : SoftError)
  /-- What other chips answer to the passes of KVIEW from now on (R221, R258; log 24). -/
  | answerView (x : FarAnswer)
  /-- Gheah places BAR2's window (R360). -/
  | placeBar2 (base : BitVec 44)
deriving DecidableEq, Repr

/-- The core and stream for which `exec` runs, and the length in words of the instruction that the step decoded there. -/
structure Cur where
  core : Fin 512
  st : StreamId
  len : Nat
deriving DecidableEq, Repr

/-- Why the machine stops for good. The spec gives every condition of the part an effect, so no instruction and no event
of the opcode table ends in one. -/
inductive Fault where
  /-- Raised by `step` when the input gives as an event of the machine an instruction that only a stream can issue. Safe: no
  run of the hardware has such an event. -/
  | notAnEvent
deriving DecidableEq, Repr

/-- Why the model gives no meaning. -/
inductive Refusal where
  /-- Raised by `exec` for an instruction without a meaning yet. Safe: no claim about the instruction can be proved. -/
  | notModelled (mnemonic : String)
deriving DecidableEq, Repr

/-- The state of the module. -/
structure State where
  /-- What happens next, given from outside; when empty the model takes its own turns (log 1). -/
  inputs : List Action
  /-- The model's own turn counter (log 1). -/
  turn : Nat
  cur : Cur
  /-- How far the present cycle of the front end has come: the changes of its queues in the order of R334, and its grants in that
  of R348 (log 61). -/
  queueTurn : Nat
  grantTurn : Nat
  /-- Counter of values the spec leaves open (log 20). -/
  free : Nat
  /-- Physical memory (R232): address and byte in ascending order, an unlisted byte reads 0 (log 8). -/
  mem : List Host.Cell
  /-- Check granules that hold an uncorrectable error, by the physical address of their first byte (R382, R422). -/
  bad : List Nat
  /-- Soft errors to come, given from outside (R18, R317, R422; log 63). -/
  soft : List SoftError
  /-- What other chips answer to a pass of KVIEW, given from outside (R221, R258; log 24). -/
  far : FarAnswer
  /-- Host memory by bus address (R354, R358; log 16), in the form of `mem`. -/
  hostMem : List Host.Cell
  cores : Vector Core 512
  clusters : Vector Cluster 128
  dies : Vector Die 4
  /-- The phase table (R246). -/
  phase : Vector PhaseGroup 256
  /-- Line tags by line number, untagged lines unlisted (R252). -/
  tags : List (Nat × LineTag)
  /-- Retained copies by line number (R254). -/
  retained : List (Nat × LineBits)
  /-- Pending copies (R248). -/
  pending : List PendingLine
  homes : List Home
  bstores : List BStore
  /-- Stores to replicated lines in progress (R261). -/
  rstores : List RStore
  huff : Vector HuffTable 16
  regions : List Region
  deadlines : Vector Deadline 8
  /-- Function 0 is the PF (R360). -/
  fns : Vector HostFn 64
  /-- Gheah's own invalidation block (R389). -/
  gheahInv : InvBlock
  fleet : Fleet
  fabric : Fabric
deriving DecidableEq, Repr

/-! Memory's canonical form. -/

/-- Addresses strictly rising, and no listed byte equal to what an unlisted address reads as. -/
def Memory.wfFrom (low : Nat) : List Host.Cell → Bool
  | [] => true
  | (a, x) :: rest => decide (low ≤ a) && x != 0 && Memory.wfFrom (a + 1) rest

/-- The canonical form of a memory. -/
def Memory.wf (m : List Host.Cell) : Bool := Memory.wfFrom 0 m

/-! The state after a module reset (R8, R33, R36, R244, R404, R419). -/

def Seg.zero : Seg := ⟨0, .invalid⟩
def Plane.zero : Plane := ⟨.invalid, [], []⟩
def Tile.zero : Tile := ⟨.invalid, .invalid, .arrival, 0, []⟩
def Cb.zero : Cb := ⟨0, 0, 0, 0, 0, false, false, 0⟩
def WCfg.zero : WCfg := ⟨false, false, false, 0, 0, -512⟩
def Special.reset : Special :=
  { sat := false, peerlost := false, verify := false, pend := false, mode := 0, sstat := 0, cause := 0, faddr := 0,
    asid := 0, asidNext := none, seed := 0, phn := 0, bopenid := 0, lagcnt := 0, ovfcnt := 0, skipcnt := 0,
    confcnt := 0, vbank := 0, hanglim := Config.hanglim }
def Stream.reset : Stream :=
  { run := .idle, line := none, slot := 1, next := .none, seq := 0, seqB := 0, side := false, mpc := 0, steer := [], op := .none,
    held := [], idle := 0, progress := false, status := 0, saved := .idle }

def Core.reset : Core :=
  { g := .replicate 32 0, b := .replicate 8 0, d := .replicate 16 0, p := .replicate 4 (.replicate 16 0),
    v := .replicate 32 Seg.zero, h := .replicate 16 Seg.zero, q := .replicate 4 ⟨[], []⟩,
    w := .replicate 2 Plane.zero, z := .replicate 2 Tile.zero, k := .replicate 4 0,
    cb := .replicate 16 Cb.zero, cc := .replicate 8 0, fifo := .replicate 20 0, sr := Special.reset,
    streams := .replicate 5 Stream.reset, inflight := [], block := none, issued := false, pbrSeq := [], stall := 0, rank := 0, limit := Config.hanglim,
    dcache := [], tlb := [], wcfg := WCfg.zero, row0 := 0, flow := none, planeLoad := none, leaseLeft := 0,
    wantLease := none, banks := .replicate 4 .none, landing := [], version := none, phaseArrived := false, op := none, shadow := none,
    splice := none, raising := none, frame := none, savedC := none, stopped := false, stage := none, moveTo := none, preempt := .none, saved := [],
    rbuf := [], rfault := [], lostPeers := [] }

def Cluster.reset : Cluster :=
  { holder := none, left := 0, last := 3, sinceEnd := 8, token := false, waitToken := false,
    cb := .replicate 16 Cb.zero, cbTurn := 0, tlb := [] }

def Die.reset : Die :=
  { cyc := 0, ntok := Config.ntok, tokens := List.range Config.ntok, lseed := Config.lseed, lcnt := 0, kimgQueue := [],
    decoders := [none, none], tlb := [], throttled := false, cool := none }

def PhaseGroup.reset : PhaseGroup := ⟨0, 0, 0, 0, 0, false⟩
def HuffTable.reset : HuffTable := ⟨0, 0, .replicate 256 0⟩
def Qcb.zero : Qcb := ⟨0, 0, 0, 0, 0, 0, 0, 0, 0⟩
def HostQueue.reset : HostQueue :=
  { qcb := Qcb.zero, shadow := Qcb.zero, accepted := false, disabled := true, reread := none, prod := 0, cons := 0,
    cprod := 0, ccons := 0, waiting := none, removal := false }
def InvBlock.reset : InvBlock := ⟨0, 0, 0, 0, false, none, ([], [])⟩
def HostFn.reset : HostFn :=
  { queues := .replicate 64 HostQueue.reset, inv := InvBlock.reset, asidLo := 0, asidHi := 0, flr := false }
def Fleet.reset : Fleet :=
  { evbase := 0, evprod := 0, evcons := 0, evlost := 0, evvec := 0, sseq := [], pwrcap := Config.pwrcap, attbuf := 0,
    attnonce := 0, attCopy := 0, attStatus := 0, attBusy := false, leaf := 0, almanacGen := 0, recovery := false,
    telemetry := [], refused := 0, tokenWaits := .replicate 4 0, corrected := [], correctedHbm := .replicate 8 0,
    uncorrHbm := .replicate 8 0, correctedVault := .replicate 4 0, uncorrVault := .replicate 4 0, replays := [],
    losEvents := [], msix := [], stopDomains := [], resets := [], bar2 := Config.bar2Base }
def Band.off : Band := ⟨0, 0, 0, 0, none, 0, 0, 0, 0⟩
def Port.reset : Port :=
  { state := .down, peer := 0xFFF, peerPort := 0, bands := .replicate 4 Band.off, txSeq := 0, replay := [], again := [],
    sinceAck := 0, fruitless := 0, out := [], mgmt := [], vigils := [], sinceSend := 0, wire := [], rxE := 0, window := [], gap := 0,
    sinceRpl := 1024, silent := 0, rplDue := false, slots := [], mslots := [], rxMask := .replicate 4 0, credit := .replicate 2 0,
    owed := .replicate 2 0, vigilRx := 0, vigilTx := 0, commTx := false,
    commRx := false }
/-- The group table of a lone group (R404). -/
def GroupTable.lone : GroupTable := ⟨0, 0, 1, 1, 1, Config.chipId, [⟨Config.chipId, 0, 0, 0, false⟩]⟩
def Fabric.reset : Fabric :=
  { group := GroupTable.lone, ports := .replicate 64 Port.reset, peers := [], frz := false, nextTag := 0, waiting := [],
    inFlight := [], remembered := [], rxPackets := [], held := [], rxVigils := [], mgmt := [], rgplan := 0, plan := none,
    planPorts := [], rgState := .idle, badplan := false, mismatch := false, timeout := false, settled := false,
    rgCycles := 0, beat := 0, advertAge := 0, silenced := false, stealReqs := [], lent := [] }

/-- The module right after reset. -/
def State.reset : State :=
  { inputs := [], turn := 0, cur := ⟨0, .c, 0⟩, queueTurn := 0, grantTurn := 0, free := 0, mem := [], bad := [], soft := [], far := ⟨[], []⟩, hostMem := [],
    cores := .replicate 512 Core.reset, clusters := .replicate 128 Cluster.reset, dies := .replicate 4 Die.reset,
    phase := .replicate 256 PhaseGroup.reset, tags := [], retained := [], pending := [], homes := [], bstores := [],
    rstores := [], huff := .replicate 16 HuffTable.reset, regions := [],
    deadlines := .replicate 8 ⟨0, 2 ^ 40⟩, fns := .replicate 64 HostFn.reset, gheahInv := InvBlock.reset, fleet := Fleet.reset,
    fabric := Fabric.reset }

end Sys2Proof.Machine
end

