-- ==== Sys2Proof/Machine/Bits.lean ====
section
/-! DEFINITION. Sign extension, byte order, bit fields and the small list and vector operations the meanings share
(R3, R4, R10, R29). -/

namespace Sys2Proof.Machine

/-- sign_extend of R29 on a natural number. -/
def signExtend (x n : Nat) : Int :=
  let v := x % 2 ^ n
  if 2 ^ (n - 1) ≤ v ∧ 0 < n then (v : Int) - 2 ^ n else v

/-- zero_extend of R29. -/
def zeroExtend (x n : Nat) : Nat := x % 2 ^ n

/-- Bits [lo + n - 1 : lo] of a number. -/
def bits (x lo n : Nat) : Nat := x / 2 ^ lo % 2 ^ n

/-- Bit `i` of a number. -/
def bit (x i : Nat) : Bool := x / 2 ^ i % 2 == 1

/-- An integer as a 64-bit value. -/
def dw (x : Int) : Dword := BitVec.ofInt 64 x

/-- A word sign-extended to 64 bits. -/
def sx32 (x : BitVec 32) : Dword := x.signExtend 64

/-- The least significant `n` bytes of a number, lowest first (R4). -/
def leBytes : Nat → Nat → List Byte
  | 0, _ => []
  | n + 1, x => BitVec.ofNat 8 x :: leBytes n (x / 256)

/-- The little-endian value of a byte string (R4). -/
def leValue : List Byte → Nat
  | [] => 0
  | x :: xs => x.toNat + 256 * leValue xs

/-- A little-endian value as 64 bits. -/
def leDword (xs : List Byte) : Dword := BitVec.ofNat 64 (leValue xs)

/-- The bytes of a segment, lowest first (R26). -/
def segBytes (x : SegBits) : List Byte := leBytes 256 x.toNat
/-- A segment from its bytes; missing bytes are zero. -/
def segOf (xs : List Byte) : SegBits := BitVec.ofNat 2048 (leValue xs)
def lineBytes (x : LineBits) : List Byte := leBytes 128 x.toNat
def lineOf (xs : List Byte) : LineBits := BitVec.ofNat 1024 (leValue xs)

/-- A natural number rounded up to a multiple of `m`. -/
def roundUp (x m : Nat) : Nat := (x + m - 1) / m * m

/-- Quotient rounded up. -/
def ceilDiv (x m : Nat) : Nat := (x + m - 1) / m

/-- floor(log2 x) for x > 0, and 0 for 0. -/
def log2Floor (x : Nat) : Nat := x.log2

/-- The number of one bits among the low `n` bits of `x`. -/
def popCount : Nat → Nat → Nat
  | 0, _ => 0
  | n + 1, x => x % 2 + popCount n (x / 2)

/-- The number of leading zero bits of a number taken at `n` bits. -/
def leadingZeros (n x : Nat) : Nat := if x = 0 then n else n - 1 - x.log2

/-- Read of a vector at an index that the layout bounds; a default outside. -/
def vget {α : Type} {n : Nat} (v : Vector α n) (i : Nat) (d : α) : α := v.toList.getD i d

/-- Write of a vector; an index outside changes nothing. -/
def vset {α : Type} {n : Nat} (v : Vector α n) (i : Nat) (x : α) : Vector α n :=
  if h : i < n then v.set i x h else v

/-- Change of one entry of a vector. -/
def vmod {α : Type} {n : Nat} (v : Vector α n) (i : Nat) (f : α → α) : Vector α n :=
  if h : i < n then v.set i (f v[i]) h else v

/-- Look-up in a list of keyed entries. -/
def kget {α : Type} (l : List (Nat × α)) (k : Nat) : Option α := (l.find? fun e => e.1 == k).map Prod.snd

/-- Entry of a keyed list ordered by rising key, replaced or added. -/
def kset {α : Type} (l : List (Nat × α)) (k : Nat) (x : α) : List (Nat × α) :=
  match l with
  | [] => [(k, x)]
  | (j, y) :: rest =>
    if k < j then (k, x) :: (j, y) :: rest
    else if k = j then (k, x) :: rest
    else (j, y) :: kset rest k x

/-- Entry of a keyed list removed. -/
def kdel {α : Type} (l : List (Nat × α)) (k : Nat) : List (Nat × α) := l.filter fun e => e.1 != k

/-- Change of the first element of a list that satisfies `p`. -/
def modFirst {α : Type} (p : α → Bool) (f : α → α) : List α → List α
  | [] => []
  | x :: xs => if p x then f x :: xs else x :: modFirst p f xs

/-- Removal of the first element of a list that satisfies `p`. -/
def dropFirst {α : Type} (p : α → Bool) : List α → List α
  | [] => []
  | x :: xs => if p x then xs else x :: dropFirst p xs

/-- The stream numbers of R13. -/
def streamNum : StreamId → Nat
  | .c => 0
  | .w => 1
  | .v => 2
  | .m => 3
  | .k => 4

/-- The stream of a number of R13. -/
def streamOf : Nat → StreamId
  | 0 => .c
  | 1 => .w
  | 2 => .v
  | 3 => .m
  | _ => .k

/-- The engine stream of a control-stream field: 0 W, 1 V, 2 M, 3 K (R102). -/
def engineOf (e : BitVec 2) : StreamId := streamOf (e.toNat + 1)

/-- The stream that relative index `x` names as seen from `own` (R14). -/
def relStream (own : StreamId) (x : BitVec 2) : Nat := if x.toNat < streamNum own then x.toNat else x.toNat + 1

/-- The token FIFO from stream `s` to stream `t` (R14, R21). -/
def fifoNumber (s t : Nat) : Nat := 4 * s + (if t < s then t else t - 1)

/-- The tag of a code of R28; a reserved code reads as INVALID here and is refused where a format field is checked. -/
def Tag.ofCode : Nat → Tag
  | 1 => .fp32 | 2 => .fp16 | 3 => .bf16 | 4 => .e4m3 | 5 => .e5m2 | 6 => .e3m2 | 7 => .e2m3 | 8 => .e2m1
  | 9 => .int8 | 10 => .uint8 | 11 => .int4 | 12 => .uint4 | 13 => .int1
  | 14 => .mxE4m3 | 15 => .mxE5m2 | 16 => .mxE3m2 | 17 => .mxE2m3 | 18 => .mxFp4 | 19 => .mxInt8 | 20 => .qn4
  | 21 => .e8m10 | 22 => .int32 | 23 => .int64 | 24 => .index16 | 25 => .index32
  | _ => .invalid

/-- The code of a tag (R28). -/
def Tag.code : Tag → Nat
  | .invalid => 0 | .fp32 => 1 | .fp16 => 2 | .bf16 => 3 | .e4m3 => 4 | .e5m2 => 5 | .e3m2 => 6 | .e2m3 => 7
  | .e2m1 => 8 | .int8 => 9 | .uint8 => 10 | .int4 => 11 | .uint4 => 12 | .int1 => 13
  | .mxE4m3 => 14 | .mxE5m2 => 15 | .mxE3m2 => 16 | .mxE2m3 => 17 | .mxFp4 => 18 | .mxInt8 => 19 | .qn4 => 20
  | .e8m10 => 21 | .int32 => 22 | .int64 => 23 | .index16 => 24 | .index32 => 25

/-- The cause codes of R367. -/
def Cause.code : Cause → Nat
  | .illegal => 0x01 | .priv => 0x02 | .badstat => 0x03 | .software => 0x04 | .fetch => 0x05 | .address => 0x06
  | .align => 0x07 | .tag => 0x08 | .desc => 0x09 | .fmtpair => 0x0A | .streambusy => 0x0B | .cbuf => 0x0C
  | .bank => 0x0D | .lease => 0x0E | .verify => 0x0F | .metadata => 0x10 | .expand => 0x11 | .pairlim => 0x12
  | .overrun => 0x13 | .table => 0x14 | .index => 0x15 | .checksum => 0x16 | .view => 0x17 | .page => 0x18
  | .splice => 0x19 | .class_ => 0x1A | .phase => 0x1B | .bundle => 0x1C | .hang => 0x1D | .nomap => 0x20
  | .ptbad => 0x21 | .rperm => 0x22 | .wperm => 0x23 | .xperm => 0x24 | .buserr => 0x28 | .peer => 0x29
  | .remote => 0x2A | .poison => 0x2B | .uncorr => 0x2C

/-- CAUSE[15:0] of an exception: the code, with the walk level of a translation cause in [11:8] (R367). -/
def Exc.code (e : Exc) : Nat := e.cause.code + 256 * e.level

/-- The bytes of a 32-bit word, lowest first. -/
def wordBytes (w : Word) : List Byte := leBytes 4 w.toNat

/-- The 16 words of a 64-byte line from its bytes. -/
def lineWords : Nat → List Byte → List Word
  | 0, _ => []
  | n + 1, xs => BitVec.ofNat 32 (leValue (xs.take 4)) :: lineWords n (xs.drop 4)

end Sys2Proof.Machine
end

