-- ==== Sys2Proof/Machine/Events.lean ====
section
/-! DEFINITION. Bytes of physical and host memory in their canonical form, the physical map (R232), MSI-X messages and
event records (R419 to R421). -/

namespace Sys2Proof.Machine

/-! Bytes. An unlisted byte reads 0 (log 8), so writing 0 removes an entry. -/

/-- The byte at an address. -/
def memGet : List Host.Cell → Nat → Byte
  | [], _ => 0
  | (b, x) :: rest, a => if a = b then x else if a < b then 0 else memGet rest a

/-- The memory with one byte replaced. -/
def memPut : List Host.Cell → Nat → Byte → List Host.Cell
  | [], a, v => if v = 0 then [] else [(a, v)]
  | (b, x) :: rest, a, v =>
    if a < b then (if v = 0 then (b, x) :: rest else (a, v) :: (b, x) :: rest)
    else if a = b then (if v = 0 then rest else (a, v) :: rest)
    else (b, x) :: memPut rest a v

/-- The `n` bytes from `a` on. -/
def memRead (m : List Host.Cell) (a : Nat) : Nat → List Byte
  | 0 => []
  | n + 1 => memGet m a :: memRead m (a + 1) n

/-- The memory with bytes written from `a` on. -/
def memWrite (m : List Host.Cell) (a : Nat) : List Byte → List Host.Cell
  | [] => m
  | x :: xs => memWrite (memPut m a x) (a + 1) xs

/-! The physical map (R232). -/

/-- What a physical address holds. -/
inductive Holds where
  | nothing
  | hbm (stack off : Nat)
  | vault (v off : Nat)
deriving DecidableEq, Repr

/-- R232. -/
def holdsAt (pa : Nat) : Holds :=
  let n := pa / 0x2000000000
  let off := pa % 0x2000000000
  if n < 8 then (if off < Config.stackBytes then .hbm n off else .nothing)
  else
    let v := (pa - 0x80000000000) / 0x1000000
    if 0x80000000000 ≤ pa ∧ v < 128 then .vault v (pa % 0x1000000) else .nothing

/-- The address holds memory that is not a tag region or a retention pool (R232). -/
def usable (pa : Nat) : Bool :=
  match holdsAt pa with
  | .nothing => false
  | .hbm _ off => off < Config.stackBytes - Config.tagBytes - Config.poolBytes
  | .vault _ _ => true

def isVault (pa : Nat) : Bool :=
  match holdsAt pa with
  | .vault _ _ => true
  | _ => false

def isHbm (pa : Nat) : Bool :=
  match holdsAt pa with
  | .hbm _ _ => true
  | _ => false

/-- The HBM stack of an address; 0 for a vault. -/
def stackOf (pa : Nat) : Nat := pa / 0x2000000000

/-- First byte of the check granule that holds an address: 64 bytes in HBM, 32 in a vault (R382). -/
def granuleOf (pa : Nat) : Nat := if isVault pa then pa / 32 * 32 else pa / 64 * 64

/-- Size of that granule. -/
def granuleSize (pa : Nat) : Nat := if isVault pa then 32 else 64

/-- A granule marked uncorrectable (R382, R422). -/
def flawed (s : State) (pa : Nat) : Bool := s.bad.contains (granuleOf pa)

/-- Granules that a write of `n` bytes at `pa` covers whole are repaired (R422). -/
def repair (bad : List Nat) (pa n : Nat) : List Nat :=
  bad.filter fun g => !(pa ≤ g && g + granuleSize g ≤ pa + n)

/-- A run started at a die-0 count with a TVAL (R338, R341). -/
def startRun (now v : Dword) (r : Region) : Region :=
  { r with runs := r.runs + 1, run := some ⟨r.runs, now, v, 0, [], 0, 0, .none⟩ }

/-- A trigger of a region (R341): it starts a run, or is recorded for one further run. Triggers of one cycle count as one: a later one
replaces the value of the run that the earlier one has started in it, no node of which has been reached yet. -/
def triggerRegion (now v : Dword) (r : Region) : Region :=
  let r1 : Region := { r with lastTrig := some now }
  match r.run with
  | none => startRun now v r1
  | some g => if r.pendTrig.isNone ∧ g.since = now ∧ r.lastTrig = some now then { r1 with run := some { g with tval := v } }
    else { r1 with pendTrig := some v }

/-- The triggers that a write of `n` bytes at `pa` makes: it lands on the trigger word of a region (R341). -/
def noteTrigger (s : State) (pa n : Nat) : State :=
  if s.regions.isEmpty then s
  else
    let now := (vget s.dies 0 Die.reset).cyc
    { s with regions := s.regions.map fun r =>
        if pa < r.trig + 8 && r.trig < pa + n && !r.dead then triggerRegion now (leDword (memRead s.mem r.trig 8)) r else r }

/-- Bytes stored to physical memory. -/
def physWrite (s : State) (pa : Nat) (xs : List Byte) : State :=
  noteTrigger { s with mem := memWrite s.mem pa xs, bad := repair s.bad pa xs.length } pa xs.length

/-- Bytes of physical memory as they stand. -/
def physRead (s : State) (pa n : Nat) : List Byte := memRead s.mem pa n

/-- An aligned doubleword of physical memory. -/
def physDword (s : State) (pa : Nat) : Dword := leDword (physRead s pa 8)

/-- Bytes written to host memory by bus address (R354). -/
def hostWrite (s : State) (a : Nat) (xs : List Byte) : State := { s with hostMem := memWrite s.hostMem a xs }
def hostRead (s : State) (a n : Nat) : List Byte := memRead s.hostMem a n

/-- An MSI-X message of a function (R358, R421). -/
def sendMsix (s : State) (fn vec : Nat) : State :=
  { s with fleet := { s.fleet with msix := (fn, vec) :: s.fleet.msix } }

/-! Cores, clusters and dies by number (R1). -/

def coreAt (s : State) (c : Nat) : Core := vget s.cores c Core.reset
def setCore (s : State) (c : Nat) (k : Core) : State := { s with cores := vset s.cores c k }
def modCore (s : State) (c : Nat) (f : Core → Core) : State := { s with cores := vmod s.cores c f }
def clusterOf (c : Nat) : Nat := c / 4
def dieOf (c : Nat) : Nat := c / 128
def clusterAt (s : State) (cl : Nat) : Cluster := vget s.clusters cl Cluster.reset
def modCluster (s : State) (cl : Nat) (f : Cluster → Cluster) : State := { s with clusters := vmod s.clusters cl f }
def dieAt (s : State) (d : Nat) : Die := vget s.dies d Die.reset
def modDie (s : State) (d : Nat) (f : Die → Die) : State := { s with dies := vmod s.dies d f }
def modRegion (s : State) (rid : Nat) (f : Region → Region) : State :=
  { s with regions := modFirst (fun r => r.rid == rid) f s.regions }
def regionAt (s : State) (rid : Nat) : Option Region := s.regions.find? fun r => r.rid == rid

/-- The region whose operator runs on a core (R130, R340). -/
def regionOf (s : State) (c : Nat) : Option Region :=
  match (coreAt s c).op with
  | none => none
  | some o => regionAt s o.rid

/-! Event records (R420, R421). -/

/-- What a record says beyond its header's counters. -/
structure EventRec where
  src : Nat
  code : Nat
  sev : Nat
  core : Option Nat
  rid : Nat
  asid : Option (BitVec 11)
  /-- Body bytes 2 to 31. -/
  body : List Byte
  /-- Attachment bytes, a multiple of 64 of them. -/
  ext : List Byte
deriving DecidableEq, Repr

/-- A byte string cut or filled with zeros to `n` bytes. -/
def padTo (n : Nat) (xs : List Byte) : List Byte := (xs ++ List.replicate n 0).take n

/-- The die whose count stamps a record: die d for source d, else die 0 (R420). -/
def recDie (src : Nat) : Nat := if src < 4 then src else 0

/-- The block of a record and its attachments (R420). -/
def recBytes (s : State) (e : EventRec) (sseq : BitVec 32) : List Byte :=
  let d := recDie e.src
  leBytes 1 e.src ++ leBytes 1 (e.ext.length / 64) ++ leBytes 2 s.fabric.group.self.toNat ++ leBytes 4 sseq.toNat
    ++ leBytes 8 (dieAt s d).cyc.toNat ++ leBytes 2 (e.core.getD 0xFFFF) ++ leBytes 2 e.rid
    ++ leBytes 2 (match e.asid with | none => 0 | some a => 0x8000 + a.toNat)
    ++ leBytes 1 e.sev ++ leBytes 1 d ++ leBytes 8 0 ++ padTo 32 (leBytes 2 e.code ++ e.body) ++ e.ext

/-- 2^SIZE blocks of the event ring, or none when it is disabled (R421). -/
def ringBlocks (evbase : Dword) : Option Nat :=
  let n := bits evbase.toNat 0 6
  if 8 ≤ n ∧ n ≤ 20 then some (2 ^ n) else none

/-- Blocks written one after another from block number `n` on, in a ring of `size` blocks at `base`. -/
def ringWrite (s : State) (base size n : Nat) (xs : List Byte) : Nat → State
  | 0 => s
  | k + 1 => ringWrite (hostWrite s (base + 64 * (n % size)) (xs.take 64)) base size (n + 1) (xs.drop 64) k

/-- A record is written if the ring has room, and dropped otherwise; its SSEQ is consumed either way (R421). -/
def writeRecord (s : State) (e : EventRec) : State :=
  let f := s.fleet
  let sseq := (kget f.sseq e.src).getD 0
  let s1 := { s with fleet := { f with sseq := kset f.sseq e.src (sseq + 1) } }
  let n := 1 + e.ext.length / 64
  let lost := { s1 with fleet := { s1.fleet with evlost := f.evlost + 1 } }
  match ringBlocks f.evbase with
  | none => lost
  | some size =>
    if size < (f.evprod - f.evcons).toNat + n then lost
    else
      let s2 := ringWrite s1 (f.evbase.toNat / 64 * 64) size f.evprod.toNat (recBytes s e sseq) n
      sendMsix { s2 with fleet := { s2.fleet with evprod := f.evprod + BitVec.ofNat 32 n } } 0 f.evvec.toNat

/-- The source of an error check at a physical address (R420, R422). -/
def checkSource (pa : Nat) : Nat :=
  match holdsAt pa with
  | .vault v _ => v / 32
  | .hbm n _ => 8 + n
  | .nothing => 17

/-- Check codes 1 and 2 of R422. -/
def checkCode (pa : Nat) : Nat := if isVault pa then 2 else 1

/-- Telemetry's counts of uncorrectable errors (R427). -/
def countUncorr (s : State) (pa : Nat) : State :=
  match holdsAt pa with
  | .vault v _ => { s with fleet := { s.fleet with uncorrVault := vmod s.fleet.uncorrVault (v / 32) (· + 1) } }
  | .hbm n _ => { s with fleet := { s.fleet with uncorrHbm := vmod s.fleet.uncorrHbm n (· + 1) } }
  | .nothing => s

/-- An UNCORR record for an error found at `pa`, read at virtual address `va` or 0 (R420, R422). -/
def uncorrRecord (s : State) (pa va : Nat) (core : Option Nat) : State :=
  writeRecord (countUncorr s pa)
    { src := checkSource pa, code := 0x0202, sev := 2, core := core, rid := 0, asid := none,
      body := leBytes 2 0 ++ leBytes 4 (checkCode pa) ++ leBytes 8 (granuleOf pa) ++ leBytes 8 va, ext := [] }

end Sys2Proof.Machine
end

