-- ==== Sys2Proof/Machine/Mem.lean ====
section
/-! DEFINITION. Translation (R383 to R388), memory classes (R235, R236, R247, R248, R254, R257, R261), uncorrectable reads
(R382) and the control data cache (R112): every access of the part to memory goes through these operations. All translation
and checking of an access stands before any effect of it. -/

namespace Sys2Proof.Machine

/-- Why an instruction or unit does not complete now. -/
inductive Stop where
  /-- It raises a trap. -/
  | exc (e : Exc)
  /-- It waits, having done nothing. -/
  | wait
  /-- It waits, keeping what it has requested. -/
  | hold
  /-- A machine check (R374), by kind, at a physical address. -/
  | mcheck (kind : McheckKind) (pa : Nat)
deriving DecidableEq, Repr

/-- Computations over State that may stop. Their changes to the state up to a stop are kept only for `exc` and `hold`. -/
abbrev X (α : Type) := EStateM Stop State α

/-- Raise a cause with FADDR `a`. -/
def fail {α : Type} (c : Cause) (a : Dword) : X α := throw (.exc ⟨c, 0, a, 0⟩)
/-- Raise a cause with FADDR `a` and an element index (R38). -/
def failElem {α : Type} (c : Cause) (a : Dword) (e : Nat) : X α := throw (.exc ⟨c, 0, a, BitVec.ofNat 32 e⟩)
/-- Wait until `b` holds. -/
def waitFor (b : Bool) : X Unit := if b then pure () else throw .wait
/-- Raise unless `b` holds. -/
def require (b : Bool) (c : Cause) (a : Dword) : X Unit := if b then pure () else fail c a

/-- The kinds of access (R386). -/
inductive AccKind where
  | read | write | fetch
deriving DecidableEq, Repr

/-- A translated address with its page's class fields (R386). -/
structure Page where
  pa : Nat
  cls : Nat
  cidx : Nat
  tb : Bool
  exp : Bool
deriving DecidableEq, Repr

/-! Addresses. -/

/-- The address form of R29: [63:56] copy bit 55. -/
def addressForm (a : Dword) : Bool :=
  bits a.toNat 56 8 == (if bit a.toNat 55 then 0xFF else 0)

/-- A window address (R292). -/
def isWindow (a : Dword) : Bool := bits a.toNat 52 4 == 0xC && addressForm a && bit a.toNat 55

/-- CHIP and OFS of a window address (R292). -/
def windowChip (a : Dword) : BitVec 12 := BitVec.ofNat 12 (bits a.toNat 40 12)
def windowOfs (a : Dword) : Nat := bits a.toNat 0 40

/-- Bytes `a` to `a + n - 1` cut at 64 KiB boundaries; n = 0 gives the one empty piece (R29). -/
def piecesFrom : Nat → Dword → Nat → List (Dword × Nat)
  | 0, a, n => [(a, n)]
  | fuel + 1, a, n =>
    let room := 0x10000 - a.toNat % 0x10000
    if n ≤ room then [(a, n)] else (a, room) :: piecesFrom fuel (a + BitVec.ofNat 64 room) (n - room)

def pieces (a : Dword) (n : Nat) : List (Dword × Nat) := piecesFrom (n / 0x10000 + 1) a n

/-! Page-table entries (R385). -/

def pteV (e : Dword) : Bool := bit e.toNat 0
def pteR (e : Dword) : Bool := bit e.toNat 1
def pteW (e : Dword) : Bool := bit e.toNat 2
def pteX (e : Dword) : Bool := bit e.toNat 3
def pteP (e : Dword) : Bool := bit e.toNat 4
def pteG (e : Dword) : Bool := bit e.toNat 5
def pteA (e : Dword) : Bool := bit e.toNat 6
def pteD (e : Dword) : Bool := bit e.toNat 7

/-- log2 of the page that a leaf of this level maps (R383). -/
def levelLog2 (level : Nat) : Nat := 46 - 10 * level

/-- A malformed leaf: reserved bits, low PPN bits, or level 0 (R385, R386). -/
def leafBad (e : Dword) (level : Nat) : Bool :=
  level == 0 || bits e.toNat 44 4 != 0 || bits e.toNat 12 4 != 0 || bits e.toNat 16 (levelLog2 level - 16) != 0

/-- A malformed pointer (R385). -/
def pointerBad (e : Dword) : Bool := bits e.toNat 1 12 != 0 || bits e.toNat 44 20 != 0

/-- The permission fault of an access kind (R386). -/
def permCause : AccKind → Cause
  | .read => .rperm
  | .write => .wperm
  | .fetch => .xperm

/-- The permission checks of a leaf (R386). -/
def leafPermits (e : Dword) (atS : Bool) (k : AccKind) : Bool :=
  (!pteP e || atS) && match k with
    | .read => pteR e
    | .write => pteW e
    | .fetch => pteX e

/-- Where a walk ends. -/
inductive WalkEnd where
  | leaf (entry : Nat) (e : Dword) (level : Nat)
  | fault (c : Cause) (level : Nat)
  /-- An uncorrectable error in a table entry, or in the ASID table (R390). -/
  | uncorr (level pa : Nat)
  | machine (pa : Nat)
deriving DecidableEq, Repr

/-- The levels of a walk from table `t` on (R386). -/
def walkLevels (s : State) (a : Dword) (t : Nat) : List Nat → WalkEnd
  | [] => .fault .ptbad 3
  | level :: rest =>
    let at_ := t + 8 * bits a.toNat (levelLog2 level) 10
    let e := physDword s at_
    if !usable at_ then .fault .buserr level
    else if flawed s at_ then .uncorr level at_
    else if !pteV e then .fault .nomap level
    else if !pteR e && !pteW e && !pteX e then
      if level == 3 || pointerBad e then .fault .ptbad level
      else walkLevels s a (bits e.toNat 13 31 * 0x2000) rest
    else if leafBad e level then .fault .ptbad level
    else .leaf at_ e level

/-- The leaf by which Gheah maps a page of trap areas in every ASID that it has admitted (R366), with V, R, W, P, G, A and D set; where
its page stands is in log 6. -/
def trapLeaf (s : State) (a : Dword) (asid : BitVec 11) : Option Dword :=
  let off := a.toNat - 0xFFB0000000000000
  if 0xFFB0000000000000 ≤ a.toNat && off < 512 * 1024 && s.regions.any (fun r => r.asid == asid)
  then some (BitVec.ofNat 64 (Config.trapPage (off / 0x10000) + 0xF7)) else none

/-- The walk up to the leaf, before the permission checks (R366, R384, R386). -/
def walkTables (s : State) (a : Dword) (asid : BitVec 11) : WalkEnd :=
  let at_ := Config.asidTable + 8 * asid.toNat
  let e := physDword s at_
  if flawed s at_ then .machine at_
  else if !bit e.toNat 63 then .fault .nomap 4
  else if bits e.toNat 44 19 != 0 || bits e.toNat 0 13 != 0 then .fault .ptbad 4
  else match trapLeaf s a asid with
    | some leaf => .leaf 0 leaf 3
    | none => walkLevels s a (bits e.toNat 13 31 * 0x2000) [0, 1, 2, 3]

/-- The leaf with A set, and D for a write (R387). -/
def markLeaf (e : Dword) (k : AccKind) : Dword := e ||| 0x40 ||| (if k = .write then 0x80 else 0)

/-- The translated address and class fields from a leaf. -/
def leafPage (a : Dword) (e : Dword) (log2 : Nat) : Page :=
  { pa := bits e.toNat 16 28 * 0x10000 / 2 ^ log2 * 2 ^ log2 + a.toNat % 2 ^ log2
    cls := bits e.toNat 10 2, cidx := bits e.toNat 48 16, tb := bit e.toNat 9, exp := bit e.toNat 8 }

/-! TLBs (R388; log 11): filled on every walk, oldest entry leaving first. -/

def tlbHit (asid : BitVec 11) (a : Dword) (k : AccKind) (t : TlbEntry) : Bool :=
  (pteG t.leaf || t.asid == asid) && t.base == a.toNat / 2 ^ t.log2 && (k != .write || pteD t.leaf)

def tlbFind (s : State) (c : Nat) (asid : BitVec 11) (a : Dword) (k : AccKind) : Option TlbEntry :=
  ((coreAt s c).tlb ++ (clusterAt s (clusterOf c)).tlb ++ (dieAt s (dieOf c)).tlb).find? (tlbHit asid a k)

def tlbAdd (n : Nat) (t : TlbEntry) (l : List TlbEntry) : List TlbEntry :=
  (t :: l.filter fun u => !(u.asid == t.asid && u.base == t.base && u.log2 == t.log2)).take n

/-- The leaf as a TLB keeps it: an entry made by a read holds no D (R387). -/
def tlbLeaf (e : Dword) (k : AccKind) : Dword := if k = .write then e else e &&& ~~~(0x80 : Dword)

def tlbFill (s : State) (c : Nat) (t : TlbEntry) : State :=
  modDie (modCluster (modCore s c fun k => { k with tlb := tlbAdd 64 t k.tlb }) (clusterOf c)
    fun l => { l with tlb := tlbAdd 1024 t l.tlb }) (dieOf c) fun d => { d with tlb := tlbAdd 16384 t d.tlb }

/-- Translation of one address under an ASID, without TLBs where `c` is none: the walk, its A and D update and the
permission checks (R386, R387). The class checks follow in `xlate`. -/
def translate (c : Option Nat) (asid : BitVec 11) (atS : Bool) (k : AccKind) (a : Dword) : X Page := do
  require (addressForm a) .address a
  let s ← get
  let hit := match c with
    | none => none
    | some c => tlbFind s c asid a k
  match hit with
  | some t =>
    if leafPermits t.leaf atS k then pure (leafPage a t.leaf t.log2)
    else throw (.exc ⟨permCause k, (46 - t.log2) / 10, a, 0⟩)
  | none =>
    match walkTables s a asid with
    | .fault cause level => throw (.exc ⟨cause, if cause = .buserr then 0 else level, a, 0⟩)
    | .uncorr level pa => do
      set (uncorrRecord s pa a.toNat c)
      throw (.exc ⟨.uncorr, level, a, 0⟩)
    | .machine pa => throw (.mcheck .asid pa)
    | .leaf entry e level =>
      if leafPermits e atS k then do
        let e' := markLeaf e k
        let s1 := if e' = e then s else physWrite s entry (leBytes 8 e'.toNat)
        let log2 := levelLog2 level
        set (match c with
          | none => s1
          | some c => tlbFill s1 c ⟨asid, a.toNat / 2 ^ log2, log2, tlbLeaf e' k⟩)
        pure (leafPage a e' log2)
      else throw (.exc ⟨permCause k, level, a, 0⟩)

/-! Classes (R235, R236). -/

/-- The row of R235's table that a page breaks. -/
def classRowBad (p : Page) : Bool :=
  (p.cls != 0 && isVault p.pa)
    || ((p.cls == 1 || p.cls == 2) && !p.tb)
    || (match p.cls with
        | 0 => p.cidx != 0
        | 1 => p.cidx ≥ 256
        | 2 => p.cidx ≥ 1024
        | _ => p.cidx ≥ 4096)

/-- An entry of the replica table, which stands in memory (R260; log 6). -/
def replicaEntry (s : State) (n : Nat) : Replica :=
  let at_ := Config.replicaTable + 72 * n
  let nrep := (memGet s.mem at_).toNat
  let bases := (List.range 8).map fun j => (physDword s (at_ + 8 + 8 * j)).toNat
  { nrep := nrep, rbase := (bases.take nrep).map (BitVec.ofNat 44)
    clear := (physRead s (at_ + 1) 7).all (· == 0) && bases.all (· < 2 ^ 44) && (bases.drop nrep).all (· == 0) }

/-- An entry of the replica table that obeys R260. -/
def replicaOk (r : Replica) : Bool :=
  r.clear && 1 ≤ r.nrep && r.nrep ≤ 8 && r.rbase.length == r.nrep
    && r.rbase.all fun b => b.toNat % 0x10000 == 0 && isHbm b.toNat

/-- The replica a reader uses: the lowest on a stack of its die, else replica 0 (R261). -/
def nearestReplica (r : Replica) (die : Option Nat) : Nat :=
  match die with
  | none => 0
  | some d => (r.rbase.findIdx? fun b => stackOf b.toNat / 2 == d).getD 0

/-- The address of a line's copy in replica `j` (R260). -/
def replicaAddr (r : Replica) (pa j : Nat) : Nat :=
  (r.rbase.getD j 0).toNat + (pa - (r.rbase.getD 0 0).toNat)

/-- A member of a phase group (R246). -/
def isMember (s : State) (c : Option Nat) (g : Nat) : Bool :=
  match c with
  | none => false
  | some c => (vget s.phase g PhaseGroup.reset).members.getLsbD c

/-! Bundle tables and homes (R251 to R253). -/

/-- A segment of a bundle-table entry: base, lines, chip. -/
structure SegEntry where
  base : Dword
  lines : Nat
  chip : BitVec 12
deriving DecidableEq, Repr

/-- A bundle-table entry as read (R251). -/
structure BundleEntry where
  bid : BitVec 24
  nseg : Nat
  segs : List SegEntry
deriving DecidableEq, Repr

/-- The entry at a physical address. -/
def bundleEntryAt (s : State) (pa : Nat) : BundleEntry :=
  { bid := BitVec.ofNat 24 (leValue (physRead s pa 3)), nseg := (memGet s.mem (pa + 4)).toNat,
    segs := (List.range (min (memGet s.mem (pa + 4)).toNat 64)).map fun g =>
      ⟨physDword s (pa + 16 + 16 * g), leValue (physRead s (pa + 24 + 16 * g) 4),
       BitVec.ofNat 12 (leValue (physRead s (pa + 28 + 16 * g) 2))⟩ }

/-- A segment's first address on its chip: BASE is a window address when that chip is another one (R251, R292). -/
def SegEntry.start (g : SegEntry) : Nat := if isWindow g.base then windowOfs g.base else g.base.toNat

/-- The segment of an entry that holds a line, by chip and virtual address on that chip (R251). -/
def segmentOf (e : BundleEntry) (lineVa : Dword) (chip : BitVec 12) : Option Nat :=
  e.segs.findIdx? fun g => g.chip == chip && g.start ≤ lineVa.toNat && lineVa.toNat < g.start + 128 * g.lines

/-- A home's record; a record that was never made is IDLE with committed version 0 (R253). -/
def homeAt (s : State) (bid : BitVec 24) (seg : Nat) : Home :=
  (s.homes.find? fun h => h.bid == bid && h.seg == seg).getD ⟨bid, seg, 0, 0, .idle, 0, 0, false, 0, none, false⟩

/-- A home's record replaced or added. -/
def setHome (s : State) (h : Home) : State :=
  { s with homes := if s.homes.any fun x => x.bid == h.bid && x.seg == h.seg
      then modFirst (fun x => x.bid == h.bid && x.seg == h.seg) (fun _ => h) s.homes else h :: s.homes }

/-- Version `x` is newer than version `y` (R252). -/
def newer (x y : BitVec 16) : Bool := let d := (x - y).toNat; 1 ≤ d && d ≤ 32767

/-- The tag of a line, by line number (R252). -/
def tagAt (s : State) (line : Nat) : LineTag := (kget s.tags line).getD ⟨0, 0, 0, 0, 0, 0⟩

/-- Copies that a stack's retention pool holds (R259). -/
def poolUsed (s : State) (stack : Nat) : Nat :=
  (s.retained.filter fun e => stackOf (e.1 * 128) == stack).length
    + (s.pending.filter fun p => stackOf p.pa == stack).length

/-- The pool of a line's stack has a free copy (R259). -/
def poolRoom (s : State) (pa : Nat) : Bool := poolUsed s (stackOf pa) < Config.poolBytes / 128

/-- A core has a pending copy of a line already (R248). -/
def hasPending (s : State) (g c line : Nat) : Bool := s.pending.any fun p => p.group == g && p.core == c && p.pa == line

/-- The pools hold the copies that stores to these lines, by phase group and physical line, still need, all together (R259). -/
def poolFits (s : State) (c : Nat) (lines : List (Nat × Nat)) : Bool :=
  let new := (lines.filter fun l => !hasPending s l.1 c l.2).eraseDups
  new.all fun l => poolUsed s (stackOf l.2) + (new.filter fun x => stackOf x.2 == stackOf l.2).length ≤ Config.poolBytes / 128

/-! Reads. -/

/-- The byte of a BUNDLED line that a read returns (R257). -/
def bundledByte (s : State) (pa : Nat) : Byte :=
  let t := tagAt s (pa / 128)
  if t.kind == 1 && newer t.ver (homeAt s t.bid t.seg.toNat).committed then
    match kget s.retained (pa / 128) with
    | some l => BitVec.ofNat 8 (l.toNat / 2 ^ (8 * (pa % 128)))
    | none => memGet s.mem pa
  else memGet s.mem pa

/-- The byte of a PHASED line that a read of core `c` returns (R247). -/
def phasedByte (s : State) (c : Option Nat) (g pa : Nat) : Byte :=
  match s.pending.find? fun p => p.group == g && some p.core == c && p.pa == pa / 128 * 128 && p.mask.getLsbD (pa % 128) with
  | some p => if isMember s c g then BitVec.ofNat 8 (p.data.toNat / 2 ^ (8 * (pa % 128))) else memGet s.mem pa
  | none => memGet s.mem pa

/-- The physical address a read of a page's byte uses: the nearest replica of a REPLICATED page (R261). -/
def readAddr (s : State) (die : Option Nat) (p : Page) : Nat :=
  if p.cls = 3 then
    let r := replicaEntry s p.cidx
    replicaAddr r p.pa (nearestReplica r die)
  else p.pa

/-- The byte `i` places after a page's translated address, as core `c` reads it (R236). -/
def classByte (s : State) (c : Option Nat) (die : Option Nat) (p : Page) (i : Nat) : Byte :=
  match p.cls with
  | 1 => phasedByte s c p.cidx (p.pa + i)
  | 2 => bundledByte s (p.pa + i)
  | 3 => memGet s.mem (readAddr s die p + i)
  | _ => memGet s.mem (p.pa + i)

/-- A store to a REPLICATED line that a read of the same line must wait for: one that holds the replica locked, or the
reader's own, which for a read that has come by the fabric is any that has come so (R261, R111). -/
def replicaBusy (s : State) (c : Option Nat) (die : Option Nat) (p : Page) (n : Nat) : Bool :=
  p.cls == 3 &&
    let j := nearestReplica (replicaEntry s p.cidx) die
    s.rstores.any fun w => w.entry == p.cidx && p.pa / 128 ≤ w.pa / 128 && w.pa / 128 ≤ (p.pa + n - 1) / 128
      && (some w.core == c || (c.isNone && w.ack.isSome) || (w.written ≤ j && j < w.locked))

/-- One translated and checked piece of an access. -/
structure Piece where
  va : Dword
  n : Nat
  page : Page
deriving DecidableEq, Repr

/-- The first unusable byte of a piece (R232). -/
def firstHole (pa n : Nat) : Option Nat :=
  if usable pa && usable (pa + n - 1) then none else (List.range n).find? fun i => !usable (pa + i)

/-- The first line of a piece whose tag has KIND 3, which its controller answers with an error (R252). -/
def badTag (s : State) (p : Page) (n : Nat) : Option Nat :=
  if p.cls = 1 ∨ p.cls = 2 then
    (List.range ((p.pa + max n 1 - 1) / 128 - p.pa / 128 + 1)).find? fun i => (tagAt s (p.pa / 128 + i)).kind == 3
  else none

/-- A core's open version takes stores: neither a BSEAL nor a waiting BABORT has stopped it (R118, R119). -/
def takesStores (k : Core) : Option OpenVersion :=
  let aborting := match k.block with
    | some ⟨.babort, _, _, _⟩ => true
    | _ => false
  k.version.bind fun v => if v.sealing || aborting then none else some v

/-- The class checks of R235 and R236 on one translated piece, for an access by core `c` (none: not a core). -/
def classCheck (c : Option Nat) (k : AccKind) (va : Dword) (n : Nat) (p : Page) : X Unit := do
  let s ← get
  require (!classRowBad p) .class_ va
  match firstHole p.pa (max n 1) with
  | some i => fail .buserr (va + BitVec.ofNat 64 i)
  | none => pure ()
  match badTag s p n with
  | some i => fail .buserr (if i = 0 then va else BitVec.ofNat 64 ((va.toNat / 128 + i) * 128))
  | none => pure ()
  if p.cls = 3 then
    require (replicaOk (replicaEntry s p.cidx)) .class_ va
  match k with
  | .read => pure ()
  | .fetch => require (p.cls != 1 && p.cls != 2) .fetch va
  | .write =>
    if p.cls = 1 then require (isMember s c p.cidx) .phase va
    else if p.cls = 2 then
      match c.bind fun c => takesStores (coreAt s c), c.bind fun c => regionOf s c with
      | some v, some r =>
        let e := bundleEntryAt s (r.btab + 1040 * v.entry)
        let line := va.toNat / 128
        require (v.entry == p.cidx
          && (List.range ((va.toNat + max n 1 - 1) / 128 - line + 1)).all fun i =>
              (segmentOf e (BitVec.ofNat 64 ((line + i) * 128)) s.fabric.group.self).isSome) .bundle va
      | _, _ => fail .bundle va
    else pure ()

/-- Translation and every check of an access of `n` bytes, piece by piece in ascending address (R29). A piece in the remote window
raises REMOTE (R294). -/
def checkPieces (c : Option Nat) (asid : BitVec 11) (atS : Bool) (k : AccKind) : List (Dword × Nat) → X (List Piece)
  | [] => pure []
  | (a, n) :: rest => do
    require (!isWindow a) .remote a
    let p ← translate c asid atS k a
    classCheck c k a n p
    let ps ← checkPieces c asid atS k rest
    pure (⟨a, n, p⟩ :: ps)

/-- The ASID and level of a core's accesses. -/
def coreAsid (s : State) (c : Nat) : BitVec 11 := (coreAt s c).sr.asid
def atS (s : State) (c : Nat) : Bool := (coreAt s c).sr.mode != 0

/-- Translation and every check of a core's access (R29, R235, R236). A window address where none is accepted raises
REMOTE (R294). -/
def check (c : Nat) (k : AccKind) (a : Dword) (n : Nat) : X (List Piece) := do
  let s ← get
  checkPieces (some c) (coreAsid s c) (atS s c) k (pieces a n)

/-- The bytes of a checked piece and the first flawed granule, as an offset into it. -/
def pieceBytes (s : State) (c : Option Nat) (die : Option Nat) (q : Piece) : List Byte :=
  (List.range q.n).map (classByte s c die q.page)

def pieceFlaw (s : State) (die : Option Nat) (q : Piece) : Option Nat :=
  if s.bad.isEmpty then none else (List.range q.n).find? fun i => flawed s (readAddr s die q.page + i)

/-- The virtual address of the first byte of the granule that holds byte `i` of a piece (R382). -/
def granuleVa (s : State) (die : Option Nat) (q : Piece) (i : Nat) : Dword :=
  let pa := readAddr s die q.page + i
  q.va + BitVec.ofNat 64 i - BitVec.ofNat 64 (pa - granuleOf pa)

/-- The bytes of checked pieces. -/
def readPieces (s : State) (c : Option Nat) (die : Option Nat) : List Piece → List Byte
  | [] => []
  | q :: rest => pieceBytes s c die q ++ readPieces s c die rest

/-- The address of the first uncorrectable granule of checked pieces, with its physical address. -/
def flawOf (s : State) (die : Option Nat) : List Piece → Option (Dword × Nat)
  | [] => none
  | q :: rest =>
    match pieceFlaw s die q with
    | some i => some (granuleVa s die q i, readAddr s die q.page + i)
    | none => flawOf s die rest

/-- The bytes of checked pieces for a core, with the flaw of the first uncorrectable granule (R382); a read of a locked
REPLICATED line waits. -/
def fetchPieces (c : Nat) (ps : List Piece) : X (List Byte × Option Dword) := do
  let s ← get
  let die := some (dieOf c)
  waitFor (!ps.any fun q => replicaBusy s (some c) die q.page q.n)
  match flawOf s die ps with
  | none => pure (readPieces s (some c) die ps, none)
  | some (va, pa) => do
    set (uncorrRecord s pa va.toNat (some c))
    pure (readPieces s (some c) die ps, some va)

/-- mem_read of R29 for every path that raises UNCORR on an uncorrectable granule (R382). -/
def memLoad (c : Nat) (a : Dword) (n : Nat) : X (List Byte) := do
  let ps ← check c .read a n
  let r ← fetchPieces c ps
  match r.2 with
  | none => pure r.1
  | some va => fail .uncorr va

/-- Physical ring reads of a circular buffer (R150, R382), which are not translated. -/
def ringLoad (c : Nat) (pas : List Nat) : X (List Byte) := do
  let s ← get
  match pas.find? fun pa => !usable pa with
  | some pa => fail .buserr (BitVec.ofNat 64 pa)
  | none => pure ()
  match pas.find? fun pa => flawed s pa with
  | some pa => do
    set (uncorrRecord s pa 0 (some c))
    fail .uncorr (BitVec.ofNat 64 (granuleOf pa))
  | none => pure (pas.map (memGet s.mem))

/-! Writes of checked pieces. -/

/-- One byte into a core's pending copy of a PHASED line (R248). -/
def pendByte (l : List PendingLine) (g c pa : Nat) (x : Byte) : List PendingLine :=
  let line := pa / 128 * 128
  let i := pa % 128
  let put (p : PendingLine) : PendingLine :=
    { p with mask := p.mask ||| BitVec.ofNat 128 (2 ^ i)
             data := BitVec.ofNat 1024 (p.data.toNat - bits p.data.toNat (8 * i) 8 * 2 ^ (8 * i) + x.toNat * 2 ^ (8 * i)) }
  if l.any fun p => p.group == g && p.core == c && p.pa == line
  then modFirst (fun p => p.group == g && p.core == c && p.pa == line) put l
  else put ⟨g, c, line, 0, 0⟩ :: l

/-- Bytes into pending copies, with the line's tag set to KIND 2 (R248, R252). -/
def pendBytes (s : State) (g c pa : Nat) : List Byte → State
  | [] => s
  | x :: xs =>
    let phase := (vget s.phase g PhaseGroup.reset).gphn
    let t : LineTag := ⟨2, BitVec.ofNat 8 g ++ phase.extractLsb' 16 16, phase.extractLsb' 0 16, 0, 0, 0⟩
    pendBytes { s with pending := pendByte s.pending g c pa x, tags := kset s.tags (pa / 128) t } g c (pa + 1) xs

/-- The lines that a write of `n` bytes at `pa` touches. -/
def linesOf (pa n : Nat) : List Nat :=
  if n = 0 then [] else (List.range ((pa + n - 1) / 128 - pa / 128 + 1)).map fun i => (pa / 128 + i) * 128

/-- A store under an open version is put on its way to its home, line by line, and counted (R254, R255). -/
def bundleStore (s : State) (c : Nat) (va : Dword) (pa : Nat) (xs : List Byte) : State :=
  match (coreAt s c).version, regionOf s c with
  | some v, some r =>
    let e := bundleEntryAt s (r.btab + 1040 * v.entry)
    (linesOf pa xs.length).foldl (fun s line =>
      let lo := max line pa
      let hi := min (line + 128) (pa + xs.length)
      let lva := BitVec.ofNat 64 ((va.toNat + (lo - pa)) / 128 * 128)
      let g := (segmentOf e lva s.fabric.group.self).getD 0
      let v := ((coreAt s c).version).getD v
      let m := v.mask ||| BitVec.ofNat 64 (2 ^ g)
      let v' := { v with mask := m, sent := kset v.sent g ((kget v.sent g).getD 0 + 1) }
      { modCore s c (fun k => { k with version := some v' }) with
        bstores := s.bstores ++ [⟨c, s.cur.st, v.bid, v.version, g, lo, m, (xs.drop (lo - pa)).take (hi - lo), none⟩] }) s
  | _, _ => s

/-- The bytes of a store to a REPLICATED page, one store for each line (R261). -/
def replicaStores (c : Nat) (st : StreamId) (entry pa : Nat) (xs : List Byte) (ack : Option Packet) : List RStore :=
  (linesOf pa xs.length).map fun line =>
    let lo := max line pa
    let hi := min (line + 128) (pa + xs.length)
    ⟨c, st, entry, lo, 0, 0, (xs.drop (lo - pa)).take (hi - lo), ack⟩

/-- The bytes of a checked piece stored by core `c`, by the page's class (R236). -/
def storePiece (s : State) (c : Nat) (q : Piece) (xs : List Byte) : State :=
  if xs.isEmpty then s
  else match q.page.cls with
    | 1 => pendBytes s q.page.cidx c q.page.pa xs
    | 2 => bundleStore s c q.va q.page.pa xs
    | 3 => { s with rstores := s.rstores ++ replicaStores c s.cur.st q.page.cidx q.page.pa xs none }
    | _ => physWrite s q.page.pa xs

/-- The bytes of checked pieces stored in ascending address. -/
def storePieces (s : State) (c : Nat) : List Piece → List Byte → State
  | [], _ => s
  | q :: rest, xs => storePieces (storePiece s c q (xs.take q.n)) c rest (xs.drop q.n)

/-- The lines of PHASED pages that a write of checked pieces touches, by group. -/
def phasedLines (ps : List Piece) : List (Nat × Nat) :=
  ps.flatMap fun q => if q.page.cls = 1 then (linesOf q.page.pa q.n).map fun line => (q.page.cidx, line) else []

/-- A store of PHASED bytes that needs more pending copies than the pools have free waits (R259). -/
def poolReady (s : State) (c : Nat) (ps : List Piece) : Bool := poolFits s c (phasedLines ps)

/-- Checked pieces written (mem_write of R29, after its checks). -/
def putPieces (c : Nat) (ps : List Piece) (xs : List Byte) : X Unit := do
  let s ← get
  waitFor (poolReady s c ps)
  set (storePieces s c ps xs)

/-- mem_write of R29. -/
def memStore (c : Nat) (a : Dword) (xs : List Byte) : X Unit := do
  let ps ← check c .write a xs.length
  putPieces c ps xs

/-- The check of a write to physical ring addresses (R232, R245). -/
def ringCheck (pas : List Nat) : X Unit :=
  match pas.find? fun pa => !usable pa with
  | some pa => fail .buserr (BitVec.ofNat 64 pa)
  | none => pure ()

/-- Bytes written to physical ring addresses (R150, R153). -/
def ringStore (pas : List Nat) (xs : List Byte) : X Unit := do
  ringCheck pas
  let s ← get
  set { s with
    mem := (pas.zip xs).foldl (fun (m : List Host.Cell) (e : Nat × Byte) => memPut m e.1 e.2) s.mem
    bad := s.bad.filter fun g => !((List.range (granuleSize g)).all fun i => pas.contains (g + i)) }

/-! Code fetch (R17, R46). -/

/-- The parity check of an instruction line buffer (R18, R422 check 6): an error in the line that it takes is a FETCH fault with the
line's address. -/
def lineParity (c : Nat) (st : StreamId) (a : Dword) : X Unit := do
  let s ← get
  if s.soft.contains (.line c st) then do
    set { s with soft := dropFirst (· == SoftError.line c st) s.soft }
    fail .fetch a

/-- The sixteen words of the line at `a`, translated with execute permission; an uncorrectable granule is a FETCH fault (R18). The
line is read as memory stands at this fetch, so that a store to a running image is seen by every later fetch, as R46 allows
(DESIGN CHOICE, log 67). -/
def fetchLine (c : Nat) (a : Dword) : X (List Word) := do
  let s ← get
  let ps ← checkPieces (some c) (coreAsid s c) (atS s c) .fetch (pieces a 64)
  let r ← fetchPieces c ps
  match r.2 with
  | none => pure (lineWords 16 r.1)
  | some _ => fail .fetch a

/-! The control data cache (R112; log 10): lines in the order of their allocation, newest first, at most 128. -/

def dcFind (k : Core) (line : Nat) (c : Nat) : Option DLine := k.dcache.find? fun l => l.pa == line && l.group == c

/-- A dirty PHASED line that is evicted goes to the phase's pending store (R112). -/
def dcEvict (s : State) (c : Nat) (l : DLine) : State :=
  if l.phased then
    (List.range 128).foldl (fun s i =>
      if l.dirty.getLsbD i then pendBytes s l.group c (l.pa + i) [BitVec.ofNat 8 (l.data.toNat / 2 ^ (8 * i))] else s) s
  else s

/-- The dirty lines of cached lines, by phase group: each needs a pending copy when it leaves the cache. -/
def dirtyLines (ls : List DLine) : List (Nat × Nat) :=
  ls.flatMap fun l => if l.phased && l.dirty != 0 then [(l.group, l.pa)] else []

/-- A new line finds room in the cache: it is not full, or the pool takes the line that leaves it (R112, R259). -/
def dcRoom (s : State) (c : Nat) : Bool :=
  let l := (coreAt s c).dcache
  l.length < 128 || poolFits s c (dirtyLines l.getLast?.toList)

/-- A line put into the cache, the oldest leaving when it is full. -/
def dcAdd (s : State) (c : Nat) (l : DLine) : State :=
  let k := coreAt s c
  if k.dcache.length < 128 then modCore s c fun k => { k with dcache := l :: k.dcache }
  else
    let s1 := match k.dcache.getLast? with
      | some old => dcEvict s c old
      | none => s
    modCore s1 c fun k => { k with dcache := l :: k.dcache.dropLast }

/-- The class index under which a line is cached: the phase group of a PHASED line, and 256 for the other classes. -/
def dcKey (p : Page) : Nat := if p.cls = 1 then p.cidx else 256

/-- A line of a cacheable page as memory holds it for this core. -/
def dcLine (s : State) (c : Nat) (va : Dword) (p : Page) : DLine :=
  let off := p.pa % 128
  let base : Page := { p with pa := p.pa - off }
  { pa := base.pa, data := lineOf ((List.range 128).map (classByte s (some c) (some (dieOf c)) base)),
    phased := p.cls == 1, va := va - BitVec.ofNat 64 off, group := dcKey p, dirty := 0 }

/-- The line that a page's address lies in holds no uncorrectable granule: only such a line is cached, so that a later load of a
flawed one still meets its error (R382). -/
def lineSound (s : State) (c : Nat) (p : Page) : Bool :=
  let base := readAddr s (some (dieOf c)) p / 128 * 128
  s.bad.isEmpty || ((List.range 4).all fun i => !flawed s (base + 32 * i))

/-- Bytes merged into a cached line from byte `i` on. -/
def dcMerge (l : DLine) (i : Nat) (xs : List Byte) (mark : Bool) : DLine :=
  let old := lineBytes l.data
  { l with data := lineOf (old.take i ++ xs ++ old.drop (i + xs.length))
           dirty := if mark then l.dirty ||| BitVec.ofNat 128 ((2 ^ xs.length - 1) * 2 ^ i) else l.dirty }

/-- A cached line changed in place. -/
def dcUpdate (line key : Nat) (f : DLine → DLine) (k : Core) : Core :=
  { k with dcache := modFirst (fun l => l.pa == line && l.group == key) f k.dcache }

/-- A control load of an aligned datum from a checked piece: from the cache where its class may hit, else from memory,
filling the cache (R112). A read never waits for the pool (R259): a line that would drive out one which the pool cannot take is not
cached. -/
def cachedLoad (c : Nat) (q : Piece) : X (List Byte) := do
  let s ← get
  let line := q.page.pa / 128 * 128
  let i := q.page.pa % 128
  if q.page.cls = 2 then do
    let r ← fetchPieces c [q]
    match r.2 with
    | none => pure r.1
    | some va => fail .uncorr va
  else match dcFind (coreAt s c) line (dcKey q.page) with
    | some l => pure (((lineBytes l.data).drop i).take q.n)
    | none => do
      let r ← fetchPieces c [q]
      match r.2 with
      | some va => fail .uncorr va
      | none => do
        let s ← get
        set (if dcRoom s c && lineSound s c q.page then dcAdd s c (dcLine s c q.va q.page) else s)
        pure r.1

/-- A control store of an aligned datum to a checked piece (R112): PHASED bytes stay in the cache until PHASE, the other
classes are written through and update a hit line. -/
def cachedStore (c : Nat) (q : Piece) (xs : List Byte) : X Unit := do
  let s ← get
  let line := q.page.pa / 128 * 128
  let i := q.page.pa % 128
  if q.page.cls = 1 then do
    waitFor (poolReady s c [q])
    let s1 ← match dcFind (coreAt s c) line (dcKey q.page) with
      | some _ => pure s
      | none =>
        if lineSound s c q.page then do
          waitFor (dcRoom s c)
          pure (dcAdd s c (dcLine s c q.va q.page))
        else pure (storePiece s c q xs)
    set (modCore s1 c (dcUpdate line (dcKey q.page) fun l => dcMerge l i xs true))
  else do
    putPieces c [q] xs
    modify fun s => modCore s c fun k =>
      if q.page.cls = 2 then k else dcUpdate line (dcKey q.page) (fun l => dcMerge l i xs false) k

/-- Cached PLAIN and REPLICATED lines dropped (R112, R242). -/
def dcInvalidate (k : Core) : Core := { k with dcache := k.dcache.filter fun l => l.phased }

/-- Every dirty PHASED line written to the pending store, and the lines kept clean (R116). -/
def dcWriteBack (s : State) (c : Nat) : State :=
  let s1 := (coreAt s c).dcache.foldl (fun s l => dcEvict s c l) s
  modCore s1 c fun k => { k with dcache := k.dcache.map fun l => { l with dirty := 0 } }

end Sys2Proof.Machine
end

