-- ==== Sys2Proof/Machine/Ops.lean ====
section
/-! DEFINITION. The named operations of a core: registers, tokens, the point of issue of a stream, retirement, results in
flight, taking a trap (R29, R368, R369), machine checks (R374) and kernel headers (R66). -/

namespace Sys2Proof.Machine

/-- The outcomes of a step. -/
abbrev Out := Host.Outcome State Fault Refusal

/-! Registers (R26). -/

/-- g0 reads as zero. -/
def Core.readG (k : Core) (n : BitVec 5) : Dword := if n = 0 then 0 else vget k.g n.toNat 0

/-- A write to g0 is discarded. -/
def Core.putG (k : Core) (n : BitVec 5) (x : Dword) : Core := if n = 0 then k else { k with g := vset k.g n.toNat x }

def Core.readB (k : Core) (n : BitVec 3) : BitVec 28 := vget k.b n.toNat 0
def Core.putB (k : Core) (n : BitVec 3) (x : BitVec 28) : Core := { k with b := vset k.b n.toNat x }
def Core.readD (k : Core) (n : BitVec 4) : BitVec 256 := vget k.d n.toNat 0

/-- A descriptor with one 64-bit quarter replaced (R27). -/
def setQuarter (d : BitVec 256) (qtr : Nat) (x : Dword) : BitVec 256 :=
  BitVec.ofNat 256 (d.toNat - bits d.toNat (64 * qtr) 64 * 2 ^ (64 * qtr) + x.toNat * 2 ^ (64 * qtr))

def Core.putQuarter (k : Core) (n : BitVec 4) (qtr : BitVec 2) (x : Dword) : Core :=
  { k with d := vset k.d n.toNat (setQuarter (k.readD n) qtr.toNat x) }

/-- Parameter register n of an engine stream (R26). -/
def Core.readP (k : Core) (st : StreamId) (n : BitVec 4) : Dword :=
  vget (vget k.p (streamNum st - 1) (.replicate 16 0)) n.toNat 0

def Core.putP (k : Core) (st : StreamId) (n : BitVec 4) (x : Dword) : Core :=
  { k with p := vmod k.p (streamNum st - 1) fun ps => vset ps n.toNat x }

def Core.stream (k : Core) (st : StreamId) : Stream := vget k.streams (streamNum st) Stream.reset
def Core.setStream (k : Core) (st : StreamId) (x : Stream) : Core := { k with streams := vset k.streams (streamNum st) x }
def Core.modStream (k : Core) (st : StreamId) (f : Stream → Stream) : Core :=
  { k with streams := vmod k.streams (streamNum st) f }

/-- The completion counters (R25). -/
def Core.readCc (k : Core) (n : BitVec 3) : Nat := (vget k.cc n.toNat 0).toNat
def Core.ccUp (k : Core) (n : Option (BitVec 3)) : Core :=
  match n with
  | none => k
  | some n => { k with cc := vmod k.cc n.toNat (· + 1) }
def Core.ccDown (k : Core) (n : Option (BitVec 3)) : Core :=
  match n with
  | none => k
  | some n => { k with cc := vmod k.cc n.toNat fun x => if x = 0 then 0 else x - 1 }
/-- An issue that would take the counter above 255 waits (R25). -/
def Core.ccRoom (k : Core) (n : Option (BitVec 3)) : Bool :=
  match n with
  | none => true
  | some n => k.readCc n < 255

/-! Special registers (R33, R34). -/

/-- STAT as software reads it (R34). -/
def statWord (r : Special) : Dword :=
  BitVec.ofNat 64 (r.sat.toNat * 2 ^ 15 + r.peerlost.toNat * 2 ^ 14 + r.verify.toNat * 8 + r.pend.toNat * 4 + r.mode.toNat)

/-- The core runs the region handler (R365). -/
def Core.atS (k : Core) : Bool := k.sr.mode != 0

/-! Tokens (R21, R22). -/

def Core.tokens (k : Core) (f : Nat) : Nat := (vget k.fifo f 0).toNat

/-- The FIFO that a pop of stream `st` takes from. -/
def popFifo (st : StreamId) (y : Sync) : Nat := fifoNumber (relStream st y.psrc) (streamNum st)
/-- The FIFO that a push of stream `st` adds to. -/
def pushFifo (st : StreamId) (pdst : BitVec 2) : Nat := fifoNumber (streamNum st) (relStream st pdst)

def Core.popReady (k : Core) (st : StreamId) (y : Sync) : Bool := !y.pop || 0 < k.tokens (popFifo st y)
def Core.takePop (k : Core) (st : StreamId) (y : Sync) : Core :=
  if y.pop then { k with fifo := vmod k.fifo (popFifo st y) (· - 1) } else k
/-- A pop given back. -/
def Core.undoPop (k : Core) (st : StreamId) (y : Sync) : Core :=
  if y.pop then { k with fifo := vmod k.fifo (popFifo st y) (· + 1) } else k
/-- The pop of an instruction that is discarded and issued again is restored (R136, R31). A FIFO that has filled to 15 meanwhile
holds a free count: a count ends at 15 (R21), and no rule says what becomes of the token restored (log 62). -/
def restorePop (s : State) (c : Nat) (st : StreamId) (y : Sync) : State :=
  let f := popFifo st y
  if y.pop && (coreAt s c).tokens f == 15 then
    modCore { s with free := s.free + 1 } c fun k => { k with fifo := vset k.fifo f (Config.freeCount s.free) }
  else modCore s c fun k => k.undoPop st y

/-- What retirements of a stream have still to do is done in order, up to a push whose FIFO is at 15 (R21, R22, R25, R134). -/
def landPushes (st : StreamId) (k : Core) : List Retiring → Core × List Retiring
  | [] => (k, [])
  | .push x :: xs =>
    if k.tokens (pushFifo st x) < 15 then
      landPushes st { k with fifo := vmod k.fifo (pushFifo st x) (· + 1) } xs
    else (k, .push x :: xs)
  | .done n :: xs => landPushes st (k.ccDown (some n)) xs
  | .ends :: xs => landPushes st (k.modStream st fun x => { x with run := .ended }) xs

/-! Lines and the point of issue (R15 to R17, R44, R45). -/

/-- The first slot at or after `n` that holds no PAD. -/
def nextSlot (words : List Word) (n : Nat) : Option Nat :=
  ((List.range 16).drop n).find? fun i => 1 ≤ i && words.getD i 0 != 0

/-- Where a stream goes after a line (R17). -/
def lineNext (words : List Word) : NextLine :=
  let w := words.getD 0 0
  if w.getLsbD 27 then .none
  else if w.getLsbD 28 then .steered
  else .at (w.extractLsb' 0 24)

/-- A stream put at slot `n` of its line, or past the line when no instruction is left in it. -/
def Stream.seek (x : Stream) (l : CodeLine) (n : Nat) : Stream :=
  match nextSlot l.words n with
  | some i => { x with line := some l, slot := i }
  | none => { x with line := none, slot := 1, next := lineNext l.words }

/-- The sequence number of the stream's next instruction; a fused operator has one counter per kernel (R269). -/
def Stream.seqOf (x : Stream) (side : Bool) : BitVec 32 := if side then x.seqB else x.seq

def Stream.bumpSeq (x : Stream) (side : Bool) : Stream :=
  if side then { x with seqB := x.seqB + 1 } else { x with seq := x.seq + 1 }

/-- The place of the instruction a stream stands at (R38). -/
def Stream.here (x : Stream) : Loc :=
  match x.line with
  | some l => ⟨l.idx, l.addr, x.slot, x.seqOf l.side, l.side⟩
  | none => ⟨0, 0, 0, x.seq, false⟩

/-- The virtual address of word 0 of the instruction a stream stands at (R47). -/
def Stream.wordAddr (x : Stream) : Dword :=
  match x.line with
  | some l => l.addr + BitVec.ofNat 64 (4 * x.slot)
  | none => 0

/-- Issue of an instruction of `len` words: it takes its sequence number and the stream moves on (R31). -/
def Stream.step (x : Stream) (len : Nat) : Stream :=
  match x.line with
  | some l => { (x.bumpSeq l.side).seek l (x.slot + len) with progress := true, side := l.side }
  | none => { x.bumpSeq false with progress := true }

/-- A stream whose chain is at its end and whose last instruction has retired (R17, R19). -/
def Stream.finished (x : Stream) : Bool :=
  x.run == .run && x.line.isNone && x.next == .none && x.op == .none && x.held.isEmpty

/-- What the end of a stream still waits for: a result in flight or an outstanding blocking instruction, a memory phase, an open plane
load (R19, R142). -/
def Core.unfinished (k : Core) : StreamId → Bool
  | .c => !k.inflight.isEmpty || k.block.isSome
  | .v => !k.landing.isEmpty
  | .m => k.planeLoad.isSome
  | _ => false

/-- A stream that has retired the last instruction of a line with E = 1 passes to ENDED (R19). -/
def Core.settle (k : Core) (st : StreamId) : Core :=
  if (k.stream st).finished && !k.unfinished st then k.modStream st fun x => { x with run := .ended } else k

/-- Retirement: the push is made at the end of the cycle, or held while its FIFO is full or an earlier one is held (R21, R105). -/
def Core.retire (k : Core) (st : StreamId) (y : Sync) : Core :=
  (if y.push then k.modStream st fun x => { x with held := x.held ++ [.push y.pdst] } else k).settle st

/-- The counter of a completed instruction goes down, behind the retirements that a full FIFO holds (R21, R25). -/
def Core.countDone (k : Core) (st : StreamId) (n : Option (BitVec 3)) : Core :=
  match n with
  | none => k
  | some i => if (k.stream st).held.isEmpty then k.ccDown n else k.modStream st fun x => { x with held := x.held ++ [.done i] }

/-- Completion and retirement of an engine instruction: its counter goes down and its push is made (R21, R25). -/
def Core.finish (k : Core) (st : StreamId) (y : Sync) (n : Option (BitVec 3)) : Core := (k.countDone st n).retire st y

/-- The control stream's chain ends by END, behind the retirements that a full FIFO holds (R21, R134). -/
def Core.endChain (k : Core) : Core :=
  k.modStream .c fun x =>
    let y := { x with line := none, next := .none }
    if x.held.isEmpty then { y with run := .ended } else { y with held := x.held ++ [.ends] }

/-! Results in flight (R104 to R106). -/

/-- A result written to its register (R104). -/
def Core.deliver (k : Core) (d : Dest) (x : Dword) : Core :=
  match d with
  | .none => k
  | .g n => k.putG n x
  | .desc n q => k.putQuarter n q x
  | .param st n => k.putP st n x

/-- An exposed λ = 1 result, written at the end of the issue cycle. An older result for the same register that would land
in this cycle is lost (R104). -/
def Core.writeG (k : Core) (n : BitVec 5) (x : Dword) : Core :=
  { k.putG n x with inflight := k.inflight.map fun e =>
      if e.dest == .g n && e.wait == .cycles 1 then { e with dest := .none } else e }

/-- A result that arrives is of a later instruction than an exposed one still in flight for its register (R104): one that lands in
the same cycle, or has landed in the cycle before and is not written yet, is lost. -/
def Core.overtake (k : Core) (d : Dest) : Core :=
  match d with
  | .g n => { k with inflight := k.inflight.map fun e =>
      if e.dest == .g n && (e.wait == .cycles 0 || e.wait == .cycles 1) then { e with dest := .none } else e }
  | _ => k

/-- A value of ITEM or EMIT that arrives for a register. -/
def Core.arriveG (k : Core) (n : BitVec 5) (x : Dword) : Core := (k.overtake (.g n)).putG n x

/-- An entry in flight that completes: its result is written and its push made (R104, R105). -/
def Core.complete (k : Core) (e : InFlight) : Core := (k.deliver e.dest e.val).retire .c e.sync

/-- An interlocked entry whose value has come completes (R104, R105). -/
def Core.arrive (k : Core) (e : InFlight) : Core := (k.overtake e.dest).complete e

/-- The entries in flight in the order in which their writes land: by cycle, and in one cycle by sequence number (R104). A value
at hand lands in the present cycle. -/
def landingOrder (l : List InFlight) : List InFlight :=
  (List.range 32).flatMap fun n => l.filter fun e => (match e.wait with | .cycles i => i | _ => 1) == n

/-- The end of a cycle for the exposed entries: one cycle less is left to each (R104). -/
def Core.countDown (k : Core) : Core :=
  let down (e : InFlight) : InFlight := match e.wait with
    | .cycles n => { e with wait := .cycles (n - 1) }
    | _ => e
  { k with inflight := k.inflight.map down }

/-- An exposed result is due: its last cycle has ended. No stream of the core issues before it has been written. -/
def Core.due (k : Core) : Bool := k.inflight.any fun e => e.wait == .cycles 0

/-- The results that are due land, in issue order (R104). -/
def Core.landExposed (k : Core) : Core :=
  let due := k.inflight.filter fun e => e.wait == .cycles 0
  due.foldl Core.complete { k with inflight := k.inflight.filter fun e => e.wait != .cycles 0 }

/-- A taken branch kills every squashable entry in flight (R106). -/
def Core.kill (k : Core) : Core := { k with inflight := k.inflight.filter fun e => !e.q }

/-- The registers of interlocked results in flight (R104). -/
def interlocks (k : Core) (regs : List (BitVec 5)) : Bool :=
  k.inflight.any fun e => match e.dest, e.wait with
    | .g _, .cycles _ => false
    | .g n, _ => regs.contains n
    | _, _ => false

/-! Control issue. -/

/-- A control instruction may issue: its token is there and no interlocked result it names is in flight (R21, R104). -/
def Core.canIssue (k : Core) (m : CM) (regs : List (BitVec 5)) : Bool := k.popReady .c m.sync && !interlocks k regs

/-- The issue of a control instruction of `len` words: its pop, its sequence number and the cycle's one issue (R104). -/
def Core.issue (k : Core) (m : CM) (len : Nat) : Core :=
  { (k.takePop .c m.sync).modStream .c (·.step len) with issued := true }

/-- A control instruction that completes in its issue cycle. -/
def ctl (m : CM) (regs : List (BitVec 5)) (s : State) (f : Core → Core) : Out :=
  let c := s.cur.core.val
  let k := coreAt s c
  if k.canIssue m regs then .next (setCore s c ((f (k.issue m s.cur.len)).retire .c m.sync))
  else .next s

/-- A control instruction whose result is in flight after its issue. -/
def ctlFlight (m : CM) (regs : List (BitVec 5)) (s : State) (dest : Dest) (val : Core → Dword) (cycles : Nat) : Out :=
  let c := s.cur.core.val
  let k := coreAt s c
  if k.canIssue m regs then
    .next (setCore s c { k.issue m s.cur.len with inflight := k.inflight ++
      [⟨dest, val k, .cycles cycles, m.q, m.sync, (k.stream .c).here, none, (8, false)⟩] })
  else .next s

/-- Completion of the blocking instruction held: it retires, and the next control instruction issues in a later cycle (R104, R105). -/
def Core.unblock (k : Core) : Core :=
  match k.block with
  | none => k
  | some b => ({ k with block := none, issued := true }.modStream .c (·.step b.len)).retire .c b.sync

/-- Completion of a PHASE held. -/
def Core.unblockPhase (k : Core) : Core :=
  match k.block with
  | some ⟨.phase _, _, _, _⟩ => k.unblock
  | _ => k

/-! Kernel headers (R64 to R66). -/

def zeroBytes (xs : List Byte) (lo n : Nat) : Bool := ((xs.drop lo).take n).all fun x => x == 0
def field (xs : List Byte) (lo n : Nat) : Nat := leValue ((xs.drop lo).take n)

/-- A splice mark that obeys R65 and R66. -/
def markOk (h : List Byte) (at_ : Nat) (valid : Bool) (nlines : Nat) : Bool :=
  if valid then
    let head := field h at_ 4
    4 ≤ head && head < nlines && head < 2 ^ 24 && field h (at_ + 4) 4 != 0 && field h (at_ + 12) 1 < 16 && field h (at_ + 13) 1 < 32
      && field h (at_ + 14) 1 < 2 && zeroBytes h (at_ + 15) 1
  else zeroBytes h at_ 16

/-- The header checks of R66 on its 256 bytes. -/
def headerOk (h : List Byte) : Bool :=
  let nlines := field h 8 4
  let centry := field h 12 4
  let flags := field h 6 2
  field h 0 4 == 0xE7A50001 && field h 4 2 == 1 && flags < 4
    && field h 64 4 == 0xFFFFFFFF && field h 128 4 == 0xFFFFFFFF && field h 192 4 == 0xFFFFFFFF
    && 4 ≤ centry && centry < nlines && centry < 2 ^ 24
    && field h 36 4 < 2 ^ 20 && field h 43 1 < 16 && field h 44 1 < 32
    && zeroBytes h 45 3 && zeroBytes h 68 12 && zeroBytes h 104 24 && zeroBytes h 196 60
    && markOk h 48 (bit flags 0) nlines && markOk h 80 (bit flags 1) nlines

/-- The link-word checks of R17 for a line of stream `st`; a control line with S = 1 is refused too (R120). -/
def linkOk (st : StreamId) (words : List Word) : Bool :=
  let w := (words.getD 0 0).toNat
  bits w 29 3 == streamNum st && bits w 24 2 == 0 && !(bit w 27 && bit w 28) && (st != .c || !bit w 28)

/-! Fault frames (R38). -/

/-- The image base in force: the handler's at S, else the operator's (R15, R368). -/
def imageBase (s : State) (c : Nat) : Dword :=
  let k := coreAt s c
  if k.atS then ((regionOf s c).map (·.handler)).getD 0 else (k.op.map (·.base)).getD 0

/-- The splice-map entry of a line of the splice buffer (R276). -/
def spliceEntry (k : Core) (idx : Nat) : Option SpliceEntry := k.splice.bind fun p => p.map[idx]?

/-- The core issues from its splice buffer: a fused operator, outside the handler (R266). -/
def Core.fusedNow (k : Core) : Bool := !k.atS && (k.op.map (·.fused)).getD false

/-- The virtual address of line `idx`; for a fused operator, that of the original kernel's line (R15, R38, R276). -/
def lineAddr (s : State) (c : Nat) (idx : BitVec 24) : Dword :=
  let k := coreAt s c
  match (if k.fusedNow then spliceEntry k idx.toNat else none) with
  | some e => e.base + BitVec.ofNat 64 (64 * e.line.toNat)
  | none => imageBase s c + BitVec.ofNat 64 (64 * idx.toNat)

/-- The kernel side of line `idx` of a fused operator (R269). -/
def lineSide (k : Core) (idx : BitVec 24) : Bool :=
  k.fusedNow && ((spliceEntry k idx.toNat).map (·.side)).getD false

/-- Where an engine instruction stands, from its operation. -/
def opLoc : EngineOp → Option Loc
  | .none => none
  | .vec o => some o.loc
  | .mat o => some o.loc
  | .copy o => some o.loc
  | .walk o => some o.loc

def runCode : RunState → Nat
  | .run => 1
  | .ended => 2
  | _ => 0

/-- Where a stream will next issue, or its oldest unfinished instruction, with its MPC (R38). -/
def standsAt (s : State) (c : Nat) (x : Stream) : Loc × BitVec 32 :=
  match opLoc x.op, x.line, x.next with
  | some l, _, _ => (l, x.mpc)
  | none, some _, _ => (x.here, 0)
  | none, none, .at i => (⟨i, lineAddr s c i, 1, x.seqOf (lineSide (coreAt s c) i), lineSide (coreAt s c) i⟩, 0)
  | none, none, .resume l => (l, 0)
  | none, none, _ => (⟨0, 0, 0, x.seqOf x.side, x.side⟩, 0)

/-- A stream record (R38): place, run state, sequence number, MPC and status. -/
def streamRecord (x : Stream) (at_ : Loc × BitVec 32) : List Byte :=
  let stands := x.run == .run
  leBytes 8 (if stands then at_.1.addr.toNat else 0) ++ leBytes 1 (if stands then at_.1.slot else 0)
    ++ leBytes 1 (runCode x.run) ++ leBytes 2 0 ++ leBytes 4 (if stands then at_.1.seq else x.seqOf x.side).toNat
    ++ leBytes 4 (if stands then at_.2 else 0).toNat ++ leBytes 4 x.status.toNat ++ leBytes 8 0

/-- An MSPR has met its walk: the matrix resume record is present (R38, R198). -/
def Core.sparse (k : Core) : Bool :=
  match (k.stream .m).op with
  | .mat o => o.started && k.flow.isSome && (match o.kind with | .spr _ => true | _ => false)
  | _ => false

/-- The plane-load record is present: a later matrix instruction, of either kernel, has issued (R38). -/
def Core.planeRecord (k : Core) : Option PlaneLoad :=
  match k.planeLoad with
  | none => none
  | some p =>
    if (k.stream .m).seqOf p.loc.side == p.loc.seq + 1 && (k.stream .m).seqOf (!p.loc.side) == p.other then none else some p

/-- The M stream record names the MLDS when nothing has issued after it (R38). -/
def mStands (s : State) (c : Nat) : Loc × BitVec 32 :=
  let k := coreAt s c
  match k.planeLoad, k.planeRecord with
  | some p, none => (p.loc, BitVec.ofNat 32 p.mpc)
  | _, _ => standsAt s c (k.stream .m)

/-- The fault frame of R38. `cyc` is CYC at the fault, `sstat` SSTAT as written at entry. -/
def frameBytes (s : State) (c : Nat) (st : StreamId) (e : Exc) (cyc : Dword) (poisoned : Bool) (sstat : Dword) : List Byte :=
  let k := coreAt s c
  let sp := k.sparse
  let pl := k.planeRecord
  let counts := (List.range 128).flatMap fun i => leBytes 2 (((k.flow.bind fun f => kget f.done i)).getD 0)
  leBytes 2 e.code ++ leBytes 1 (streamNum st)
    ++ leBytes 1 (sp.toNat + 2 * poisoned.toNat + 4 * pl.isSome.toNat)
    ++ leBytes 2 k.sr.asid.toNat ++ leBytes 2 0 ++ leBytes 8 e.addr.toNat ++ leBytes 8 sstat.toNat
    ++ leBytes 8 cyc.toNat ++ leBytes 4 e.elem.toNat ++ leBytes 4 0
    ++ (match pl with
        | none => leBytes 24 0
        | some p => leBytes 8 p.loc.addr.toNat ++ leBytes 1 p.loc.slot ++ leBytes 3 0 ++ leBytes 4 p.loc.seq.toNat
            ++ leBytes 4 p.mpc ++ leBytes 4 p.status)
    ++ [StreamId.c, .w, .v].flatMap (fun t => streamRecord (k.stream t) (standsAt s c (k.stream t)))
    ++ streamRecord (k.stream .m) (mStands s c) ++ streamRecord (k.stream .k) (standsAt s c (k.stream .k))
    ++ (if sp then counts else leBytes 256 0) ++ leBytes 32 0

/-- Virtual address of a core's trap area (R366). -/
def trapArea (c : Nat) : Dword := 0xFFB0000000000000 + BitVec.ofNat 64 (1024 * c)

/-- g0 to g31 and b0 to b7 as the trap area holds them (R366). -/
def savedRegs (k : Core) : List Byte :=
  (List.range 32).flatMap (fun n => leBytes 8 (k.readG (BitVec.ofNat 5 n)).toNat)
    ++ (List.range 8).flatMap fun n => leBytes 8 (k.readB (BitVec.ofNat 3 n)).toNat

/-! Phases (R116, R249). A commit stands here because a stop may meet it (R116). -/

/-- The pending copies of a group, of lower-numbered cores first. -/
def copiesOf (s : State) (g : Nat) : List PendingLine :=
  (s.pending.filter fun p => p.group == g).mergeSort fun a b => a.core ≤ b.core

/-- Bytes of a line written under a mask. -/
def writeMasked (s : State) (pa : Nat) (mask : BitVec 128) (data : LineBits) : State :=
  (List.range 128).foldl (fun s i =>
    if mask.getLsbD i then physWrite s (pa + i) [BitVec.ofNat 8 (data.toNat / 2 ^ (8 * i))] else s) s

/-- The bytes of a line that two or more members wrote (R249): masks seen once and twice. -/
def dupMask : List (BitVec 128) → BitVec 128 × BitVec 128 → BitVec 128
  | [], acc => acc.2
  | m :: ms, (seen, dup) => dupMask ms (seen ||| m, dup ||| (seen &&& m))

/-- The conflicting bytes of a group's phase, as physical addresses in ascending order. -/
def conflicts (ps : List PendingLine) : List Nat :=
  let lines := ((ps.map (·.pa)).eraseDups).mergeSort
  lines.flatMap fun pa =>
    let dup := dupMask ((ps.filter fun p => p.pa == pa).map (·.mask)) (0, 0)
    ((List.range 128).filter fun i => dup.getLsbD i).map (pa + ·)

/-- The commit of R249, one step for every observer: no core keeps a cached line of the phase before it (R247). -/
def commitPhase (s : State) (g : Nat) : State :=
  let pg := vget s.phase g PhaseGroup.reset
  let ps := copiesOf s g
  let bad := conflicts ps
  let n := BitVec.ofNat 64 bad.length
  let s1 := ps.foldl (fun s p => writeMasked s p.pa p.mask p.data) s
  let addr := match bad with
    | [] => pg.confaddr
    | a :: _ => BitVec.ofNat 64 (2 ^ 63 + a)
  let s2 := { s1 with
    pending := s1.pending.filter fun p => p.group != g
    phase := vset s1.phase g { pg with arrived := 0, due := false, gphn := pg.gphn + 1, confbytes := n, confaddr := addr } }
  let s3 := if bad.isEmpty then s2 else writeRecord s2
    { src := 24, code := 0x0203, sev := 0, core := none, rid := 0, asid := none,
      body := leBytes 2 0 ++ leBytes 4 g ++ leBytes 8 pg.gphn.toNat ++ leBytes 8 addr.toNat, ext := [] }
  (List.range 512).foldl (fun s c =>
    modCore s c fun k =>
      if pg.members.getLsbD c then
        let k1 := { k with
          sr := { k.sr with phn := pg.gphn + 1, confcnt := k.sr.confcnt + n }, phaseArrived := false
          dcache := [] }
        k1.unblockPhase
      else { k with dcache := k.dcache.filter fun l => !(l.phased && l.group == g) }) s3

/-- The arrival of a PHASE that has not committed is withdrawn; a group whose members had all arrived when the cycle began
commits instead (R116). -/
def withdrawPhase (s : State) (c : Nat) : State :=
  if (coreAt s c).phaseArrived then
    match (List.range 256).find? fun g => let p := vget s.phase g PhaseGroup.reset; p.members.getLsbD c && p.due && p.arrived == p.members with
    | some g => commitPhase s g
    | none =>
      let s1 := modCore s c fun k => { k with phaseArrived := false }
      { s1 with phase := s1.phase.map fun g =>
          if g.members.getLsbD c then { g with arrived := g.arrived &&& ~~~(BitVec.ofNat 512 (2 ^ c)) } else g }
  else s

/-! Stopping a core (R369, R374). -/

/-- The fault domain of the region a core serves. -/
def domainOf (s : State) (c : Nat) : Option Nat := (regionOf s c).map (·.fdom)

/-- The core stops, and Gheah is to stop its fault domain (R329, R369, R374). A pending pre-emption is answered "lost", and an
arrival at a phase is withdrawn (R250). -/
def stopCore (s : State) (c : Nat) : State :=
  let s1 := modCore (withdrawPhase s c) c fun k => { k with
    stopped := true, raising := none, preempt := .none, sr := { k.sr with pend := false } }
  match domainOf s c with
  | none => s1
  | some d => { s1 with fleet := { s1.fleet with stopDomains := s1.fleet.stopDomains ++ [d] } }

/-- The header fields of a record about a core (R420). -/
def coreRec (s : State) (c code sev : Nat) (body ext : List Byte) : EventRec :=
  { src := 24, code := code, sev := sev, core := some c, rid := ((coreAt s c).op.map (·.rid)).getD 0,
    asid := some (coreAsid s c), body := body, ext := ext }

/-- A handler fault: a record with the kernel's frame and the new cause, and the stop (R369). -/
def handlerFault (s : State) (c : Nat) (code : Nat) (addr : Dword) : State :=
  let frame := (((coreAt s c).frame).getD 0).toNat
  stopCore (writeRecord s (coreRec s c 0x0101 3 (leBytes 2 0 ++ leBytes 4 code ++ leBytes 8 addr.toNat)
    (leBytes 512 frame))) c

/-- The kinds of R420's MCHECK record. -/
def mcheckCode : McheckKind → Nat
  | .tag => 1
  | .home => 2
  | .phase => 3
  | .splice => 4
  | .context => 5
  | .asid => 6

/-- A machine check: no handler and no saved context; the operator is abandoned (R374). -/
def machineCheck (s : State) (c : Nat) (kind : McheckKind) (pa : Nat) : State :=
  stopCore (writeRecord s (coreRec s c 0x0103 3 (leBytes 2 0 ++ leBytes 4 (mcheckCode kind) ++ leBytes 8 pa) [])) c

/-! Pre-emption (R375). -/

/-- The sequencers of the core are stopped for a pre-emption's cut (R375 step 3). -/
def Core.draining (k : Core) : Bool :=
  match k.preempt with
  | .draining _ => true
  | _ => false

/-- A fault raised during the drain: the request stays pending (R372, R375 step 4). -/
def PreemptStage.back : PreemptStage → PreemptStage
  | .draining a => .pending a
  | x => x

/-! Remote requests whose maker is gone. -/

/-- The requests of a core's stream, or of all its streams, go on without it: their answers and failures reach nothing. -/
def orphan (s : State) (c : Nat) (st : Option StreamId) : State :=
  let part (r : RemoteReq) : RemoteReq :=
    if r.core = c ∧ (st = none ∨ st = some r.st) then { r with core := 512 } else r
  { s with fabric := { s.fabric with waiting := s.fabric.waiting.map part, inFlight := s.fabric.inFlight.map part } }

/-- The reads that a core's stream has outstanding go on without it, and what it has collected is dropped: the unit that it stops at
reads again (R201, R296). -/
def orphanReads (s : State) (c : Nat) (st : StreamId) : State :=
  let part (r : RemoteReq) : RemoteReq := if r.core = c ∧ r.st = st ∧ r.kind = .read then { r with core := 512 } else r
  let s1 := modCore s c fun k => { k with rfault := k.rfault.filter (fun f => f.1 != st), rbuf := k.rbuf.filter fun r => r.1 != st }
  { s1 with fabric := { s1.fabric with waiting := s1.fabric.waiting.map part, inFlight := s1.fabric.inFlight.map part } }

/-- A remote write of a stream that has not landed (R298). -/
def remoteWritesOut (s : State) (c : Nat) (st : StreamId) : Bool :=
  (s.fabric.waiting ++ s.fabric.inFlight).any fun r => r.core == c && r.st == st && r.kind == .write

/-! Taking a trap (R368). -/

/-- A blocking control instruction that has not completed is discarded, and its pop restored: it issues again (R107, R136). -/
def discardBlock (s : State) (c : Nat) : State :=
  let s1 := withdrawPhase s c
  match (coreAt s1 c).block with
  | none => s1
  | some b => modCore (restorePop s1 c .c b.sync) c fun k => { k with block := none }

/-- The lease ends when its core's stop is entered; the commands left are kept (R186). -/
def dropLease (s : State) (c : Nat) : State :=
  let cl := clusterOf c
  if (clusterAt s cl).holder == some c then
    modCluster (modCore s c fun k => { k with leaseLeft := (clusterAt s cl).left }) cl
      fun l => { l with holder := none, left := 0, last := c % 4, sinceEnd := 0 }
  else s

/-- The lease of a cluster ends. -/
def endLease (s : State) (cl : Nat) : State :=
  match (clusterAt s cl).holder with
  | none => s
  | some h => modCluster s cl fun l => { l with holder := none, left := 0, last := h % 4, sinceEnd := 0 }

/-- A core that holds the lease gives it up. -/
def giveUpLease (s : State) (c : Nat) : State :=
  if (clusterAt s (clusterOf c)).holder == some c then endLease s (clusterOf c) else s

/-- A stream M that is ENDED or IDLE holds no lease (R186). -/
def lapseLease (s : State) (cl : Nat) : State :=
  match (clusterAt s cl).holder with
  | none => s
  | some h =>
    let r := ((coreAt s h).stream .m).run
    if r == .ended || r == .idle then endLease s cl else s

/-- A cluster's power token goes back to the ring at its own cluster, or out of it when NTOK is exceeded (R291). -/
def returnToken (s : State) (c : Nat) : State :=
  let cl := clusterOf c
  if (clusterAt s cl).token then
    let s1 := modCluster s cl fun l => { l with token := false }
    let d := dieOf c
    let heldElsewhere := ((List.range 32).filter fun i => (clusterAt s1 (d * 32 + i)).token).length
    modDie s1 d fun x =>
      if x.tokens.length + heldElsewhere < x.ntok then { x with tokens := x.tokens ++ [cl % 32] } else x
  else modCluster s cl fun l => { l with waitToken := false }

/-- A core that takes a trap leaves the array: its lease ends, and with it the power token of its own command (R186, R291). -/
def leaveArray (s : State) (c : Nat) : State :=
  if (clusterAt s (clusterOf c)).holder == some c then returnToken (dropLease s c) c else s

/-- The state in which the handler's first instruction will issue. -/
def enterHandler (s : State) (c : Nat) (base : Dword) (centry : BitVec 24) (words : List Word) : State :=
  modCore s c fun k =>
    let x : Stream := { Stream.reset with run := .run }
    let l : CodeLine := ⟨centry, base + BitVec.ofNat 64 (64 * centry.toNat), words, false⟩
    k.setStream .c (x.seek l 1)

/-- A walk or MSPR that waits at issue for the other has not issued, and is discarded (R39, R176, R372). -/
def dropWaiting : EngineOp → EngineOp
  | .walk w => if w.waiting then .none else .walk w
  | .mat o => if o.started then .mat o else .none
  | .copy o => .copy { o with page := none, placed := none }
  | o => o

/-- Every stream to FAULTED, the kernel's control stream kept aside (R19, R368). An uncorrectable operand that had stopped a flow is not
raised any more: of the faults of one stop one is recorded (R372). -/
def faultStreams (k : Core) : Core :=
  let mark (x : Stream) : Stream := { x with run := .faulted, saved := x.run, op := dropWaiting x.op }
  let calm (f : Flow) : Flow := { f with stop := none }
  { k with savedC := some (mark (k.stream .c)), streams := k.streams.map mark, flow := k.flow.map calm }

/-- The registers of trap entry: CAUSE, FADDR, SSTAT, STAT.MODE, g1 to g3 (R29, R368). -/
def trapRegs (k : Core) (c : Nat) (e : Exc) : Core :=
  let r := k.sr
  let k1 := { k with sr := { r with cause := BitVec.ofNat 64 e.code, faddr := e.addr, sstat := statWord r, mode := 1 }
                     pbrSeq := [], stall := 0 }
  ((k1.putG 1 (trapArea c)).putG 2 (BitVec.ofNat 64 e.code)).putG 3 e.addr

/-- A data-cache line that trap entry has overwritten is dropped. -/
def dropTrapLines (k : Core) : Core := { k with dcache := k.dcache.filter fun l => l.phased }

/-- The checks and writes of trap entry that may fail (R368): the frame and registers to the trap area, the handler's
header and its first line. Answers the handler's base, entry line and that line's words. -/
def trapEntryIO (c : Nat) (handler : Dword) (frame regs : List Byte) : X (BitVec 24 × List Word) := do
  memStore c (trapArea c) (frame ++ regs ++ leBytes 192 0)
  require (handler != 0) .fetch 0
  let h ← memLoad c handler 256
  require (headerOk h) .fetch handler
  let centry := BitVec.ofNat 24 (field h 12 4)
  let a := handler + BitVec.ofNat 64 (64 * centry.toNat)
  lineParity c .c a
  let words ← fetchLine c a
  require (linkOk .c words) .fetch a
  pure (centry, words)

/-- The trap entry of R368, once in-flight work has finished: at S it is a handler fault (R369). -/
def trapEntry (s : State) (c : Nat) (st : StreamId) (e : Exc) (cyc : Dword) : State :=
  if (coreAt s c).atS then handlerFault s c e.code e.addr
  else
    let s0 := modCore (discardBlock s c) c fun k => { k with raising := none, preempt := k.preempt.back }
    let s1 := orphanReads (orphanReads (leaveArray s0 c) c .m) c .k
    let s2 := modCore s1 c fun k =>
      if st == .m && (k.planeRecord.map (·.status)).getD 0 != 0 then k
      else k.modStream st fun x => { x with status := BitVec.ofNat 32 e.code }
    let k := coreAt s2 c
    let poisoned := (match k.flow with | some f => f.poisoned | none => false)
      || (match (k.stream .m).op with | .mat o => o.poisoned | _ => false)
    let frame := frameBytes s2 c st e cyc poisoned (statWord k.sr)
    let regs := savedRegs k
    let handler := ((regionOf s2 c).map (·.handler)).getD 0
    let s3 := modCore s2 c fun k => { trapRegs (faultStreams k) c e with frame := some (BitVec.ofNat 4096 (leValue frame)) }
    match trapEntryIO c handler frame regs s3 with
    | .ok (centry, words) s4 => enterHandler (modCore s4 c dropTrapLines) c handler centry words
    | .error (.exc f) s4 => handlerFault s4 c f.code f.addr
    | .error (.mcheck kind pa) s4 => machineCheck s4 c kind pa
    | .error _ s4 => handlerFault s4 c e.code e.addr

/-- A copy instruction has a source, or a destination (R208). -/
def KKind.usesS (k : KKind) : Bool := k != .fill
def KKind.usesD (k : KKind) : Bool := k != .pf && k != .tab

/-- The memory phase of a drain is under way (R145, R200). -/
def drainLanding : EngineOp → Bool
  | .mat o => o.landing
  | _ => false

/-- No emitted pair is on its way through a flow (R278, R279). -/
def Flow.drained (f : Flow) : Bool :=
  f.rowq.all (fun r => r.2.isEmpty) && f.spill.isEmpty && f.lanes.isEmpty && f.held.isEmpty

/-- A walk has emitted a part of a round, which it finishes before it stops (R288). -/
def midRound : EngineOp → Bool
  | .walk w => !w.cfg.mode && w.begun && !w.ready.isEmpty
  | _ => false

/-- Nothing is left that must finish before the frame is written: no interlocked result is awaited, no memory phase is under
way and no emitted pair is on its way (R107, R145, R198). -/
def Core.quiet (k : Core) : Bool :=
  k.inflight.all (fun e => match e.wait with | .cycles _ => true | .ready => true | _ => false)
    && k.landing.isEmpty && !drainLanding (k.stream .m).op
    && (match k.flow with
        | none => true
        | some f => f.drained && !midRound (k.stream .w).op)

/-- A stop of the core has nothing left to wait for: beside the work of `Core.quiet`, no remote write of an engine stream is
outstanding, which could still fail and take its unit back (R295, R229). -/
def workDone (s : State) (c : Nat) : Bool :=
  (coreAt s c).quiet && !(remoteWritesOut s c .v || remoteWritesOut s c .m || remoteWritesOut s c .k)

/-- Every control result in flight is written, in the order of its cycles (R104, R107). An entry that has failed raises nothing
more: its instruction and the later ones issue again (R372). -/
def finishInflight (s : State) (c : Nat) : State :=
  let s1 := modCore s c fun k =>
    (landingOrder (k.inflight.filter fun e => e.fault.isNone)).foldl Core.complete { k with inflight := [] }
  match (coreAt s c).inflight.find? fun e => e.fault.isSome with
  | none => s1
  | some f =>
    modCore (restorePop s1 c .c f.sync) c fun k => k.modStream .c fun x =>
      { x with line := none, next := .resume f.loc, seq := if f.loc.side then x.seq else f.loc.seq,
               seqB := if f.loc.side then f.loc.seq else x.seqB }

/-- raise of R29 by stream `st`: the sequencers stop, work in flight finishes, and the trap is entered (R30, R107, R368).
The first fault of a stop is the one recorded (R372). -/
def raise (s : State) (c : Nat) (st : StreamId) (e : Exc) : State :=
  let k := coreAt s c
  match k.raising with
  | some _ => s
  | none =>
    let cyc := (dieAt s (dieOf c)).cyc
    if workDone s c then trapEntry (finishInflight s c) c st e cyc
    else modCore s c fun k => { k with raising := some (st, e, cyc) }

/-- A stop that was waiting for work in flight enters its trap when that work is done (R107, R198). -/
def tryTrap (s : State) (c : Nat) : State :=
  match (coreAt s c).raising with
  | none => s
  | some (st, e, cyc) => if workDone s c then trapEntry (finishInflight s c) c st e cyc else s

/-- A computation of stream `st` run on the state: its faults raised, its waits leaving the state as it was. -/
def runX (st : StreamId) (x : X Unit) (s : State) : Out :=
  let c := s.cur.core.val
  match x s with
  | .ok _ s' => .next s'
  | .error .wait _ => .next s
  | .error .hold s' => .next s'
  | .error (.exc e) s' => .next (raise s' c st e)
  | .error (.mcheck kind pa) s' => .next (machineCheck s' c kind pa)

/-- Change of the current core inside a computation. -/
def modMe (f : Core → Core) : X Unit := modify fun s => modCore s s.cur.core.val f
/-- The current core. -/
def me : X Core := do
  let s ← get
  pure (coreAt s s.cur.core.val)
def myNumber : X Nat := do
  let s ← get
  pure s.cur.core.val

/-- Issue of an engine instruction: it waits for its token, `x` checks and sets it up, then the token is taken and the
stream moves on (R21, R27, R31). -/
def engineIssue (st : StreamId) (y : Sync) (s : State) (x : X Unit) : Out :=
  runX st (do
    let k ← me
    waitFor (k.popReady st y)
    modMe fun k => k.modStream st fun x => { x with mpc := 0 }
    x
    modMe fun k => (k.takePop st y).modStream st (·.step s.cur.len)) s

/-- An engine instruction that does its work at issue and retires. -/
def engineNow (st : StreamId) (y : Sync) (s : State) (x : X Unit) : Out :=
  runX st (do
    let k ← me
    waitFor (k.popReady st y)
    x
    modMe fun k => (((k.takePop st y).modStream st (·.step s.cur.len)).retire st y)) s

/-! Blocking control instructions (R104). -/

/-- Issue of a blocking instruction: its token is taken and it is held until its completion (R104, R21). -/
def Core.blockOn (k : Core) (m : CM) (len : Nat) (kind : BlockKind) : Core :=
  { (k.takePop .c m.sync).modStream .c fun x => { x with progress := true } with
    block := some ⟨kind, m.sync, (k.stream .c).here, len⟩, issued := true }

/-- A blocking instruction that may fault, by `x`, before it is held. -/
def blocking (m : CM) (regs : List (BitVec 5)) (s : State) (x : Core → X BlockKind) : Out :=
  runX .c (do
    let k ← me
    waitFor (k.canIssue m regs)
    let kind ← x k
    modMe fun k => k.blockOn m s.cur.len kind) s

end Sys2Proof.Machine
end

