-- ==== Sys2Proof/Machine/Alu.lean ====
section
/-! DEFINITION. Integer and address arithmetic of the control stream: R108, R109, R110, and NOP (R135). -/

namespace Sys2Proof.Machine

/-! Results of R108. -/

/-- Shift counts are taken modulo 64. -/
def shamt (y : Dword) : Nat := y.toNat % 64

def opSra (x y : Dword) : Dword := x.sshiftRight (shamt y)
def opRol (x y : Dword) : Dword := x.rotateLeft (shamt y)
/-- Bits [127:64] of the signed product. -/
def opMulh (x y : Dword) : Dword := BitVec.ofInt 64 (x.toInt * y.toInt / 2 ^ 64)
/-- Bits [127:64] of the unsigned product. -/
def opMulhu (x y : Dword) : Dword := BitVec.ofNat 64 (x.toNat * y.toNat / 2 ^ 64)
/-- Signed quotient truncated towards zero; all ones for y = 0, and -2^63 for -2^63 / -1. -/
def opDiv (x y : Dword) : Dword := if y = 0 then -1 else BitVec.ofInt 64 (x.toInt.tdiv y.toInt)
def opDivu (x y : Dword) : Dword := if y = 0 then -1 else BitVec.ofNat 64 (x.toNat / y.toNat)
/-- Remainder with the sign of x; x for y = 0, and 0 for -2^63 rem -1. -/
def opRem (x y : Dword) : Dword := if y = 0 then x else BitVec.ofInt 64 (x.toInt.tmod y.toInt)
def opRemu (x y : Dword) : Dword := if y = 0 then x else BitVec.ofNat 64 (x.toNat % y.toNat)
def opMin (x y : Dword) : Dword := if x.toInt ≤ y.toInt then x else y
def opMax (x y : Dword) : Dword := if x.toInt ≤ y.toInt then y else x
def opMinu (x y : Dword) : Dword := if x.toNat ≤ y.toNat then x else y
def opMaxu (x y : Dword) : Dword := if x.toNat ≤ y.toNat then y else x
def ofBool (b : Bool) : Dword := if b then 1 else 0
def opClz (x : Dword) : Dword := BitVec.ofNat 64 (leadingZeros 64 x.toNat)
def opPopc (x : Dword) : Dword := BitVec.ofNat 64 (popCount 64 x.toNat)
/-- The width of SEXT and ZEXT: codes 0, 1, 2 give 8, 16, 32. -/
def extWidth (w : BitVec 2) : Nat := 8 * 2 ^ w.toNat
def opSext (x : Dword) (w : BitVec 2) : Dword := dw (signExtend x.toNat (extWidth w))
def opZext (x : Dword) (w : BitVec 2) : Dword := BitVec.ofNat 64 (zeroExtend x.toNat (extWidth w))

/-! Instructions of one cycle. -/

/-- ga := f (gb, gc). -/
def alu (m : CM) (a b c : BitVec 5) (f : Dword → Dword → Dword) (s : State) : Out :=
  ctl m [a, b, c] s fun k => k.writeG a (f (k.readG b) (k.readG c))

/-- ga := f (gb, immediate). -/
def aluI (m : CM) (a b : BitVec 5) (imm : BitVec 32) (f : Dword → Dword → Dword) (s : State) : Out :=
  ctl m [a, b] s fun k => k.writeG a (f (k.readG b) (sx32 imm))

/-- ga := f (gb). -/
def alu1 (m : CM) (a b : BitVec 5) (f : Dword → Dword) (s : State) : Out :=
  ctl m [a, b] s fun k => k.writeG a (f (k.readG b))

/-- ga := f (gb, gc), `n` cycles after issue (R104). -/
def aluSlow (n : Nat) (m : CM) (a b c : BitVec 5) (f : Dword → Dword → Dword) (s : State) : Out :=
  ctlFlight m [a, b, c] s (.g a) (fun k => f (k.readG b) (k.readG c)) n

def execNop (m : CM) (s : State) : Out := ctl m [] s fun k => k
def execAdd (m : CM) (a b c : BitVec 5) (s : State) : Out := alu m a b c (· + ·) s
def execAddI (m : CM) (a b : BitVec 5) (imm : BitVec 32) (s : State) : Out := aluI m a b imm (· + ·) s
def execSub (m : CM) (a b c : BitVec 5) (s : State) : Out := alu m a b c (· - ·) s
def execSubI (m : CM) (a b : BitVec 5) (imm : BitVec 32) (s : State) : Out := aluI m a b imm (· - ·) s
def execAndG (m : CM) (a b c : BitVec 5) (s : State) : Out := alu m a b c (· &&& ·) s
def execAndGI (m : CM) (a b : BitVec 5) (imm : BitVec 32) (s : State) : Out := aluI m a b imm (· &&& ·) s
def execOrG (m : CM) (a b c : BitVec 5) (s : State) : Out := alu m a b c (· ||| ·) s
def execOrGI (m : CM) (a b : BitVec 5) (imm : BitVec 32) (s : State) : Out := aluI m a b imm (· ||| ·) s
def execXorG (m : CM) (a b c : BitVec 5) (s : State) : Out := alu m a b c (· ^^^ ·) s
def execXorGI (m : CM) (a b : BitVec 5) (imm : BitVec 32) (s : State) : Out := aluI m a b imm (· ^^^ ·) s
def execAndn (m : CM) (a b c : BitVec 5) (s : State) : Out := alu m a b c (fun x y => x &&& ~~~y) s
def execAndnI (m : CM) (a b : BitVec 5) (imm : BitVec 32) (s : State) : Out := aluI m a b imm (fun x y => x &&& ~~~y) s
def execShl (m : CM) (a b c : BitVec 5) (s : State) : Out := alu m a b c (fun x y => x <<< shamt y) s
def execShlI (m : CM) (a b : BitVec 5) (imm : BitVec 32) (s : State) : Out := aluI m a b imm (fun x y => x <<< shamt y) s
def execShr (m : CM) (a b c : BitVec 5) (s : State) : Out := alu m a b c (fun x y => x >>> shamt y) s
def execShrI (m : CM) (a b : BitVec 5) (imm : BitVec 32) (s : State) : Out := aluI m a b imm (fun x y => x >>> shamt y) s
def execSra (m : CM) (a b c : BitVec 5) (s : State) : Out := alu m a b c opSra s
def execSraI (m : CM) (a b : BitVec 5) (imm : BitVec 32) (s : State) : Out := aluI m a b imm opSra s
def execRol (m : CM) (a b c : BitVec 5) (s : State) : Out := alu m a b c opRol s
def execRolI (m : CM) (a b : BitVec 5) (imm : BitVec 32) (s : State) : Out := aluI m a b imm opRol s
def execMul (m : CM) (a b c : BitVec 5) (s : State) : Out := aluSlow 3 m a b c (· * ·) s
def execMulI (m : CM) (a b : BitVec 5) (imm : BitVec 32) (s : State) : Out :=
  ctlFlight m [a, b] s (.g a) (fun k => k.readG b * sx32 imm) 3
def execMulh (m : CM) (a b c : BitVec 5) (s : State) : Out := aluSlow 3 m a b c opMulh s
def execMulhu (m : CM) (a b c : BitVec 5) (s : State) : Out := aluSlow 3 m a b c opMulhu s
def execDiv (m : CM) (a b c : BitVec 5) (s : State) : Out := aluSlow 20 m a b c opDiv s
def execDivu (m : CM) (a b c : BitVec 5) (s : State) : Out := aluSlow 20 m a b c opDivu s
def execRem (m : CM) (a b c : BitVec 5) (s : State) : Out := aluSlow 20 m a b c opRem s
def execRemu (m : CM) (a b c : BitVec 5) (s : State) : Out := aluSlow 20 m a b c opRemu s
def execMin (m : CM) (a b c : BitVec 5) (s : State) : Out := alu m a b c opMin s
def execMinI (m : CM) (a b : BitVec 5) (imm : BitVec 32) (s : State) : Out := aluI m a b imm opMin s
def execMax (m : CM) (a b c : BitVec 5) (s : State) : Out := alu m a b c opMax s
def execMaxI (m : CM) (a b : BitVec 5) (imm : BitVec 32) (s : State) : Out := aluI m a b imm opMax s
def execMinu (m : CM) (a b c : BitVec 5) (s : State) : Out := alu m a b c opMinu s
def execMinuI (m : CM) (a b : BitVec 5) (imm : BitVec 32) (s : State) : Out := aluI m a b imm opMinu s
def execMaxu (m : CM) (a b c : BitVec 5) (s : State) : Out := alu m a b c opMaxu s
def execMaxuI (m : CM) (a b : BitVec 5) (imm : BitVec 32) (s : State) : Out := aluI m a b imm opMaxu s
def execClz (m : CM) (a b : BitVec 5) (s : State) : Out := alu1 m a b opClz s
def execPopc (m : CM) (a b : BitVec 5) (s : State) : Out := alu1 m a b opPopc s
def execSext (m : CM) (a b : BitVec 5) (w : BitVec 2) (s : State) : Out := alu1 m a b (opSext · w) s
def execZext (m : CM) (a b : BitVec 5) (w : BitVec 2) (s : State) : Out := alu1 m a b (opZext · w) s
def execCmpeq (m : CM) (a b c : BitVec 5) (s : State) : Out := alu m a b c (fun x y => ofBool (x == y)) s
def execCmpeqI (m : CM) (a b : BitVec 5) (imm : BitVec 32) (s : State) : Out :=
  aluI m a b imm (fun x y => ofBool (x == y)) s
def execCmplt (m : CM) (a b c : BitVec 5) (s : State) : Out := alu m a b c (fun x y => ofBool (x.slt y)) s
def execCmpltI (m : CM) (a b : BitVec 5) (imm : BitVec 32) (s : State) : Out :=
  aluI m a b imm (fun x y => ofBool (x.slt y)) s
def execCmpltu (m : CM) (a b c : BitVec 5) (s : State) : Out := alu m a b c (fun x y => ofBool (x.ult y)) s
def execCmpltuI (m : CM) (a b : BitVec 5) (imm : BitVec 32) (s : State) : Out :=
  aluI m a b imm (fun x y => ofBool (x.ult y)) s
/-- SEL reads the old ga. -/
def execSel (m : CM) (a b c : BitVec 5) (s : State) : Out :=
  ctl m [a, b, c] s fun k => k.writeG a (if k.readG a != 0 then k.readG b else k.readG c)

/-! R109 and R110. -/

def execLi (m : CM) (a : BitVec 5) (imm : BitVec 32) (s : State) : Out := ctl m [a] s fun k => k.writeG a (sx32 imm)
def execLiWide (m : CM) (a : BitVec 5) (lo hi : BitVec 32) (s : State) : Out :=
  ctl m [a] s fun k => k.writeG a (hi ++ lo)
def execLih (m : CM) (a : BitVec 5) (imm : BitVec 32) (s : State) : Out :=
  ctl m [a] s fun k => k.writeG a (imm ++ (k.readG a).extractLsb' 0 32)
def execLea (m : CM) (a b c : BitVec 5) (sh : BitVec 3) (disp : BitVec 29) (s : State) : Out :=
  ctl m [a, b, c] s fun k => k.writeG a (k.readG b + k.readG c <<< sh.toNat + disp.signExtend 64)

/-- The quarter is written at the end of the issue cycle, after every engine issue of that cycle (R110). -/
def execDset (m : CM) (d : BitVec 4) (b : BitVec 5) (qtr : BitVec 2) (s : State) : Out :=
  ctlFlight m [b] s (.desc d qtr) (fun k => k.readG b) 1

end Sys2Proof.Machine
end

