-- ==== Sys2Proof/Machine/Remote.lean ====
section
/-! DEFINITION. Remote accesses (R292 to R301): the issuer's checks and requests, the collection of remote operands, and the
service of an access at its target (R293). The transport of requests as packets is in `Fabric.lean`. -/

namespace Sys2Proof.Machine

/-- A member of the current group table (R293, R403). -/
def inGroup (s : State) (chip : BitVec 12) : Bool := s.fabric.group.members.any fun m => m.chip == chip && !m.failed

/-! Service at the target (R293, R295). -/

/-- A fault at the target as the issuer sees it: BUSERR for an address that holds nothing or an error response, REMOTE for
everything else, with the window address of the failing byte (R295). -/
def remoteFault (window : Dword) (e : Exc) : Exc :=
  let a := window + (e.addr - BitVec.ofNat 64 (windowOfs window))
  if e.cause = .buserr ∨ e.cause = .uncorr then ⟨.buserr, 0, a, e.elem⟩ else ⟨.remote, 0, a, e.elem⟩

/-- A computation at the target with its faults as the issuer sees them. -/
def atTarget {α : Type} (window : Dword) (x : X α) : X α := fun s =>
  match x s with
  | .error (.exc e) s' => .error (.exc (remoteFault window e)) s'
  | r => r

/-- Translation at the target: the page must be valid, exported and permit the access (R293). -/
def targetPieces (asid : BitVec 11) (k : AccKind) : List (Dword × Nat) → X (List Piece)
  | [] => pure []
  | (a, n) :: rest => do
    let p ← translate none asid false k a
    require p.exp .remote a
    classCheck none k a n p
    let ps ← targetPieces asid k rest
    pure (⟨a, n, p⟩ :: ps)

/-- A read served at the target. -/
def serveRead (asid : BitVec 11) (window : Dword) (n : Nat) : X (List Byte) :=
  atTarget window do
    let ps ← targetPieces asid .read (pieces (BitVec.ofNat 64 (windowOfs window)) n)
    let s ← get
    waitFor (!ps.any fun q => replicaBusy s none none q.page q.n)
    match flawOf s none ps with
    | some (va, pa) => do
      set (uncorrRecord s pa va.toNat none)
      fail .uncorr va
    | none => pure (readPieces s none none ps)

/-- The number by which stores that no core of this chip made are listed. -/
def noCore : Nat := 512

/-- The stores that a request has put on their way, marked with the WRITE whose acknowledgement waits for them (R298). -/
def markStores (old new : List RStore) (ack : Packet) : List RStore :=
  old ++ (new.drop old.length).map fun w => { w with ack := some ack }

/-- A write served at the target. A tagged write goes to a BUNDLED page under its own version (R254, R395). A write of no bytes is
translated and checked, and changes nothing (R245). -/
def serveWrite (asid : BitVec 11) (window : Dword) (xs : List Byte)
    (tagged : Option (BitVec 24 × BitVec 16 × BitVec 6 × BitVec 64)) (ack : Packet) : X Unit :=
  atTarget window do
    let a := BitVec.ofNat 64 (windowOfs window)
    match tagged with
    | none => do
      let ps ← targetPieces asid .write (pieces a xs.length)
      let s ← get
      let s1 := storePieces s noCore ps xs
      set { s1 with rstores := markStores s.rstores s1.rstores ack }
    | some (bid, ver, seg, m) => do
      let p ← translate none asid false .write a
      require (p.exp && p.cls == 2 && p.tb && !isVault p.pa && p.cidx < 1024) .remote a
      require (usable p.pa) .buserr a
      if xs.isEmpty then pure ()
      else modify fun s => { s with bstores := s.bstores ++ [⟨noCore, .c, bid, ver, seg.toNat, p.pa, m, xs, some ack⟩] }

/-- A write that the target has taken and not performed yet (R298). -/
def awaitsLanding (s : State) (p : Packet) : Bool :=
  (s.rstores.any fun w => w.ack == some p) || (s.bstores.any fun b => b.ack == some p)

/-- The new value of an atomic, if it writes one (R113). -/
def atomicOp (opc : Nat) (old x cmp : Dword) : Option Dword :=
  match opc with
  | 0 => some (old + x)
  | 1 => some (old &&& x)
  | 2 => some (old ||| x)
  | 3 => some (old ^^^ x)
  | 4 => some (if old.toInt ≤ x.toInt then old else x)
  | 5 => some (if old.toInt ≤ x.toInt then x else old)
  | 6 => some (if old.toNat ≤ x.toNat then old else x)
  | 7 => some (if old.toNat ≤ x.toNat then x else old)
  | 8 => some x
  | _ => if old = cmp then some x else none

/-- An atomic served at the target's memory controller (R294). -/
def serveAtomic (asid : BitVec 11) (window : Dword) (opc : Nat) (x cmp : Dword) : X Dword :=
  atTarget window do
    let a := BitVec.ofNat 64 (windowOfs window)
    let ps ← targetPieces asid .read (pieces a 8)
    require (ps.all fun q => q.page.cls == 0) .class_ a
    let s ← get
    match flawOf s none ps with
    | some (va, pa) => do
      set (uncorrRecord s pa va.toNat none)
      fail .uncorr va
    | none => pure ()
    let old := leDword (readPieces s none none ps)
    match atomicOp opc old x cmp with
    | none => pure old
    | some new => do
      let qs ← targetPieces asid .write (pieces a 8)
      modify fun s => storePieces s noCore qs (leBytes 8 new.toNat)
      pure old

/-! The issuer (R293 to R301). -/

/-- A request put behind the waiting ones; answers its tag. -/
def request (r : RemoteReq) : X Nat := do
  let s ← get
  let f := s.fabric
  let tag := f.nextTag
  set { s with fabric := { f with waiting := f.waiting ++ [{ r with tag := tag }], nextTag := (tag + 1) % 2 ^ 18 } }
  pure tag

/-- A request of a core before it has a tag. -/
def newReq (s : State) (kind : ReqKind) (c : Nat) (st : StreamId) (a : Dword) (n : Nat) : RemoteReq :=
  { tag := 0, kind := kind, core := c, st := st, addr := a, len := n, asid := coreAsid s c, opc := 0, data := [],
    compare := 0, tagged := none, upTo := 0 }

/-- The issuer's check: CHIP is in the current group table, else PEER without sending (R293, R295). In the dark interval of
a regrouping the request is made, and judged under the new table (R301). -/
def peerCheck (a : Dword) : X Unit := do
  let s ← get
  require (inGroup s (windowChip a) || s.fabric.frz) .peer a

/-- The 16-byte units that cover `n` bytes at `a` (R296). -/
def unitsOf (a : Dword) (n : Nat) : List Dword :=
  if n = 0 then [] else
    let lo := a.toNat / 16
    (List.range ((a.toNat + n - 1) / 16 - lo + 1)).map fun i => BitVec.ofNat 64 ((lo + i) * 16)

/-- A unit put into ascending ones. -/
def addUnit (u : Dword) : List Dword → List Dword
  | [] => [u]
  | v :: rest => if u.toNat < v.toNat then u :: v :: rest else if u = v then v :: rest else v :: addUnit u rest

/-- The units that accesses touch, in ascending order. -/
def unitsOfAll (l : List (Dword × Nat)) : List Dword := (l.flatMap fun e => unitsOf e.1 e.2).foldl (fun us u => addUnit u us) []

/-- How many units follow `u` without a gap and on the same chip, at most `n`. -/
def runAfter : Nat → Dword → List Dword → Nat
  | n + 1, u, v :: rest => if v = u + 16 && windowChip v == windowChip u then runAfter n v rest + 1 else 0
  | _, _, _ => 0

/-- Ascending units in runs without a gap, each one request of at most 4 KiB to one chip (R292, R299). -/
def unitRuns : Nat → List Dword → List (Dword × Nat)
  | 0, _ => []
  | _, [] => []
  | fuel + 1, u :: us =>
    let n := runAfter 255 u us
    (u, 16 * (n + 1)) :: unitRuns fuel (us.drop n)

/-- The window bytes that a stream's unit has collected. -/
def collected (k : Core) (st : StreamId) (u : Dword) : Option (BitVec 128) :=
  (k.rbuf.find? fun e => e.1 == st && e.2.1 == u).map (·.2.2)

/-- An access of `len` bytes at `a` touches a unit. -/
def coversUnit (a : Dword) (len : Nat) (u : Dword) : Bool := (unitsOf a len).contains u

/-- The reads that a stream has outstanding. -/
def readsOut (s : State) (c : Nat) (st : StreamId) : List RemoteReq :=
  (s.fabric.waiting ++ s.fabric.inFlight).filter fun r => r.core == c && r.st == st && r.kind == .read

/-- A request of this stream covers a unit already. -/
def requested (s : State) (c : Nat) (st : StreamId) (u : Dword) : Bool :=
  (readsOut s c st).any fun r => r.addr.toNat / 16 * 16 ≤ u.toNat && u.toNat < r.addr.toNat + r.len

/-- A read that failed is raised by the unit that uses it (R201, R295); what the stream has read ahead is read again (R296). -/
def takeRfault (st : StreamId) (us : List Dword) : X Unit := do
  let k ← me
  match k.rfault.find? fun f => f.1 == st && us.any (coversUnit f.2.1 f.2.2.1) with
  | some f => do
    modify fun s => orphanReads s s.cur.core.val st
    throw (.exc f.2.2.2)
  | none => pure ()

/-- Missing units of a stream requested, each run of them by one read, with at most `most` reads outstanding. -/
def askUnits (st : StreamId) (most : Nat) (us : List Dword) : X Unit := do
  let s ← get
  let c := s.cur.core.val
  let missing := us.filter fun u => (collected (coreAt s c) st u).isNone && !requested s c st u
  (unitRuns us.length missing).forM fun r => do
    let s ← get
    if (readsOut s c st).length < most then do
      let _ ← request { newReq s .read c st r.1 r.2 with addr := r.1 }
      pure ()
    else pure ()

/-- Bytes read from a window by an engine's unit: collected 16-byte unit by unit, the unit holding until all have arrived (R296).
An access of no bytes reads the byte at its address and drops it (R228; DESIGN CHOICE, log 67). -/
def remoteLoad (st : StreamId) (a : Dword) (n : Nat) : X (List Byte) := do
  peerCheck a
  let us := unitsOf a (max n 1)
  takeRfault st us
  let s ← get
  let have_ := us.filterMap (collected (coreAt s s.cur.core.val) st)
  if have_.length = us.length then
    let xs := have_.flatMap fun b => leBytes 16 b.toNat
    pure ((xs.drop (a.toNat % 16)).take n)
  else do
    askUnits st (2 ^ 18) us
    throw .hold

/-- Collected operands of a finished unit are dropped, but for those that later units have been read ahead for. -/
def dropCollected (st : StreamId) (ahead : List Dword) : X Unit :=
  modMe fun k => { k with rbuf := k.rbuf.filter fun r => r.1 != st || ahead.contains r.2.1 }

/-- The tag that a store of this core to another chip carries: that of its open version, when the line lies in a segment of
the bundle on that chip (R254, R395). -/
def remoteTag (s : State) (c : Nat) (a : Dword) : Option (BitVec 24 × BitVec 16 × BitVec 6 × BitVec 64) :=
  match (coreAt s c).version, regionOf s c with
  | some v, some r =>
    let e := bundleEntryAt s (r.btab + 1040 * v.entry)
    let lineVa := BitVec.ofNat 64 (windowOfs a / 128 * 128)
    match segmentOf e lineVa (windowChip a) with
    | some g => if v.sealing then none else some (v.bid, v.version, BitVec.ofNat 6 g, v.mask ||| BitVec.ofNat 64 (2 ^ g))
    | none => none
  | _, _ => none

/-- A tagged remote store counts in the version like a local one (R254, R255). -/
def countTagged (s : State) (c : Nat) (t : Option (BitVec 24 × BitVec 16 × BitVec 6 × BitVec 64)) : State :=
  match t with
  | none => s
  | some (_, _, g, m) => modCore s c fun k => { k with version := k.version.map fun v =>
      { v with mask := m, sent := kset v.sent g.toNat ((kget v.sent g.toNat).getD 0 + 1) } }

/-- Pieces of at most `size` bytes from an aligned unit of `at_` bytes on (R299): 4 KiB, or a line of 128 bytes where a tag is
carried. No piece passes the end of a chip's window (R292). -/
def writeCuts : Nat → Dword → List Byte → Nat → Nat → List (Dword × List Byte)
  | 0, _, _, _, _ => []
  | fuel + 1, a, xs, size, at_ =>
    let room := min (size - a.toNat % at_) (2 ^ 40 - windowOfs a)
    if xs.length ≤ room then [(a, xs)]
    else (a, xs.take room) :: writeCuts fuel (a + BitVec.ofNat 64 room) (xs.drop room) size at_

/-- Bytes written to a window, as requests that land when acknowledged (R298). -/
def remoteStore (st : StreamId) (a : Dword) (xs : List Byte) : X Unit := do
  let s ← get
  let c := s.cur.core.val
  peerCheck a
  let cuts :=
    if (coreAt s c).version.isSome then writeCuts (xs.length / 128 + 3) a xs 128 128
    else writeCuts (xs.length / 4080 + 3) a xs 4096 16
  cuts.forM fun p => do
    let s ← get
    let t := if p.2.isEmpty then none else remoteTag s c p.1
    set (countTagged s c t)
    let _ ← request { newReq s .write c st p.1 p.2.length with data := p.2, tagged := t }
    pure ()

/-- An access cut where a chip's window begins or ends, so that each part lies in one window or in none (R292). -/
def windowCuts (a : Dword) (n : Nat) : List (Dword × Nat) :=
  let room := 2 ^ 40 - windowOfs a
  if n ≤ room || !(isWindow a || isWindow (a + BitVec.ofNat 64 room)) then [(a, n)] else [(a, room), (a + BitVec.ofNat 64 room, n - room)]

/-- A read by an engine whose operand may be remote (R294). -/
def engineLoad (st : StreamId) (a : Dword) (n : Nat) : X (List Byte) := do
  let c ← myNumber
  let parts ← (windowCuts a n).mapM fun p => if isWindow p.1 then remoteLoad st p.1 p.2 else memLoad c p.1 p.2
  pure parts.flatten

/-- The checks of a local write, or of a remote one at its issuer, before anything is written. -/
def storeCheck (a : Dword) (n : Nat) : X (List Piece) := do
  let c ← myNumber
  let parts ← (windowCuts a n).mapM fun p =>
    if isWindow p.1 then do
      peerCheck p.1
      pure []
    else check c .write p.1 p.2
  pure parts.flatten

/-- The write of checked bytes. -/
def storeChecked (st : StreamId) (a : Dword) (ps : List Piece) (xs : List Byte) : X Unit := do
  let c ← myNumber
  match windowCuts a xs.length with
  | [x, y] => do
    if isWindow x.1 then remoteStore st x.1 (xs.take x.2) else putPieces c ps (xs.take x.2)
    if isWindow y.1 then remoteStore st y.1 (xs.drop x.2) else putPieces c ps (xs.drop x.2)
  | _ => if isWindow a then remoteStore st a xs else putPieces c ps xs

end Sys2Proof.Machine
end

