-- ==== Sys2Proof/Machine/Wire.lean ====
section
/-! DEFINITION. The wire forms of the fabric (R393 to R395, R400, R403): flits with their link header and CRC-64, packets as
slots, the packets of a remote request and of its answers, and the routing of a packet. -/

namespace Sys2Proof.Machine

/-! CRC-64 (R225, R393). -/

def crc64Step (v : Nat) : Nat := if v % 2 = 1 then v / 2 ^^^ 0xC96C5795D7870F42 else v / 2
def crc64Byte (v : Nat) (b : Byte) : Nat := (List.range 8).foldl (fun v _ => crc64Step v) (v ^^^ b.toNat)
def crc64 (xs : List Byte) : Dword := BitVec.ofNat 64 (xs.foldl crc64Byte (2 ^ 64 - 1) ^^^ (2 ^ 64 - 1))

/-! Flits (R393, R394). -/

/-- The link header (R394). -/
structure LinkHdr where
  kind : Nat
  nslot : Nat
  seq : BitVec 24
  ack : BitVec 24
  rpl : Bool
  cvc : Bool
  crd : Nat
deriving DecidableEq, Repr

def linkHdr (x : Dword) : LinkHdr :=
  let n := x.toNat
  ⟨bits n 60 4, bits n 56 4, BitVec.ofNat 24 (bits n 32 24), BitVec.ofNat 24 (bits n 8 24), bit n 7, bit n 6, bits n 0 6⟩

def linkWord (h : LinkHdr) : Dword :=
  BitVec.ofNat 64 (h.kind * 2 ^ 60 + h.nslot % 16 * 2 ^ 56 + h.seq.toNat * 2 ^ 32 + h.ack.toNat * 2 ^ 8 + h.rpl.toNat * 2 ^ 7
    + h.cvc.toNat * 2 ^ 6 + h.crd % 64)

/-- A flit from its header and slots. -/
def flitOf (h : LinkHdr) (slots : List (BitVec 128)) : BitVec 1536 :=
  let body := leBytes 8 (linkWord h).toNat ++ padTo 176 (slots.flatMap fun x => leBytes 16 x.toNat)
  BitVec.ofNat 1536 (leValue (body ++ leBytes 8 (crc64 body).toNat))

def flitBytes (f : BitVec 1536) : List Byte := leBytes 192 f.toNat
def flitHdr (f : BitVec 1536) : LinkHdr := linkHdr (BitVec.ofNat 64 f.toNat)

/-- A good CRC, a known KIND and at most eleven slots (R394). -/
def flitGood (f : BitVec 1536) : Bool :=
  let xs := flitBytes f
  let h := flitHdr f
  crc64 (xs.take 184) == leDword (xs.drop 184) && h.kind ≤ 3 && h.nslot ≤ 11

/-- The slots of a flit's body. -/
def flitSlots (f : BitVec 1536) : List (BitVec 128) :=
  (List.range 11).map fun i => BitVec.ofNat 128 (f.toNat / 2 ^ (64 + 128 * i))

/-- The flit with another header. -/
def rehead (f : BitVec 1536) (h : LinkHdr) : BitVec 1536 := flitOf h (flitSlots f)

/-! Lanes (R400). -/

/-- The lit wavelengths of an active mask, in ascending order: lane j is entry j. -/
def lanesOf (mask : BitVec 16) : List Nat := (List.range 16).filter fun w => mask.getLsbD w

/-- The lane that carries 4-byte unit `u` of a flit on a band of width `n`, and its place among the units of that lane. -/
def unitPlace (n u : Nat) : Nat × Nat := (u % n, u / n)

/-- The wavelength that carries unit `u` of a flit on a band of active mask `mask`. -/
def wavelengthOf (mask : BitVec 16) (u : Nat) : Option Nat := (lanesOf mask)[(unitPlace (lanesOf mask).length u).1]?

/-- The units of a flit that a wavelength carries, in the order of their places. -/
def waveUnits (mask : BitVec 16) (flit : BitVec 1536) (w : Nat) : List (BitVec 32) :=
  ((List.range 48).filter fun u => wavelengthOf mask u == some w).map fun u => flit.extractLsb' (32 * u) 32

/-- A flit as the lit wavelengths of a band carry it. -/
def lightOf (mask : BitVec 16) (flit : BitVec 1536) : List (Nat × List (BitVec 32)) :=
  (lanesOf mask).map fun w => (w, waveUnits mask flit w)

/-! Packets (R395). -/

/-- The header slot of a packet. -/
def packetHead (p : Packet) : BitVec 128 :=
  p.ptype ++ p.aux ++ p.dst ++ p.src ++ p.asid ++ p.tag ++ BitVec.ofBool p.empty ++ BitVec.ofBool p.vc ++ p.rsv1 ++ p.ofs
    ++ p.len ++ p.soff ++ p.eoff ++ p.rsv0

/-- The packet of a header slot and data slots. -/
def packetOf (h : BitVec 128) (data : List (BitVec 128)) : Packet :=
  { ptype := h.extractLsb' 124 4, aux := h.extractLsb' 120 4, dst := h.extractLsb' 108 12, src := h.extractLsb' 96 12
    asid := h.extractLsb' 85 11, tag := h.extractLsb' 67 18, empty := h.getLsbD 66, vc := h.getLsbD 65
    rsv1 := h.extractLsb' 60 5, ofs := h.extractLsb' 24 36, len := h.extractLsb' 16 8, soff := h.extractLsb' 12 4
    eoff := h.extractLsb' 8 4, rsv0 := h.extractLsb' 0 8, data := data }

/-- Data slots that follow a header. A management packet's body is one slot, and a reserved type carries none (log 43). -/
def dataSlots (p : Packet) : Nat :=
  match p.ptype.toNat with
  | 2 => p.len.toNat + 1
  | 3 => p.len.toNat + 1 + (p.aux.getLsbD 0).toNat
  | 5 => 1
  | 6 => 1
  | 8 => 1
  | _ => 0

/-- The slots of a packet. -/
def packetSlots (p : Packet) : List (BitVec 128) := packetHead p :: p.data

/-- AUX of a packet as R395 allows it. -/
def auxOk (p : Packet) : Bool :=
  match p.ptype.toNat with
  | 3 => p.aux.toNat ≤ 1
  | 5 => p.aux.toNat ≤ 9
  | 7 => p.aux == 1 || p.aux == 2
  | 8 => true
  | _ => p.aux == 0

/-- A known type, and every reserved field zero (R395). -/
def packetGood (p : Packet) : Bool :=
  let ext := match p.ptype.toNat, p.data with
    | 3, x :: _ => !p.aux.getLsbD 0 || x.extractLsb' 46 18 == 0
    | _, _ => true
  1 ≤ p.ptype.toNat && p.ptype.toNat ≤ 8 && p.rsv1 == 0 && p.rsv0 == 0 && auxOk p && ext

/-- The whole packets at the head of received slots, with the slots left over. -/
def takePackets : Nat → List (BitVec 128) → List Packet × List (BitVec 128)
  | 0, xs => ([], xs)
  | _, [] => ([], [])
  | fuel + 1, h :: rest =>
    let n := dataSlots (packetOf h [])
    if rest.length < n then ([], h :: rest)
    else
      let r := takePackets fuel (rest.drop n)
      (packetOf h (rest.take n) :: r.1, r.2)

/-- The channel that each received slot came on: that of the packet it belongs to, whole or not (R399). -/
def slotChannels : Nat → List (BitVec 128) → List Nat
  | 0, _ => []
  | _, [] => []
  | fuel + 1, h :: rest =>
    let p := packetOf h []
    let n := min (dataSlots p) rest.length
    List.replicate (n + 1) p.vc.toNat ++ slotChannels fuel (rest.drop n)

/-- An answer to a request: RDRESP, WRACK, ATRESP, ERRRESP. -/
def packetAnswers (p : Packet) : Bool := [2, 4, 6, 7].contains p.ptype.toNat

/-- The chip that a packet goes to: an answer keeps DST and SRC of its request, and goes back to SRC (R403; log 44). -/
def packetGoal (p : Packet) : BitVec 12 := if packetAnswers p then p.src else p.dst

/-- The channel a packet travels on (R399). -/
def packetChannel (p : Packet) : Nat := p.vc.toNat

/-- The OFS of an access, 40 bits. -/
def packetOffset (p : Packet) : Nat := p.ofs.toNat * 16 + p.soff.toNat
/-- The bytes of an access. -/
def packetBytes (p : Packet) : Nat := if p.empty then 0 else 16 * p.len.toNat + p.eoff.toNat + 1 - p.soff.toNat

/-- The window address of an offset on a chip (R292). -/
def windowAddr (chip : BitVec 12) (off : Nat) : Dword := BitVec.ofNat 64 (0xFFC0000000000000 + chip.toNat * 2 ^ 40 + off % 2 ^ 40)

/-- The window address that a request packet accesses. -/
def packetWindow (p : Packet) : Dword := windowAddr p.dst (packetOffset p)

/-! The packets of a request (R293 to R299, R395). -/

/-- The 16-byte units that an access of `n` bytes at `a` touches, less one. -/
def lastUnit (a : Dword) (n : Nat) : Nat := (a.toNat % 16 + n - 1) / 16

/-- Bytes placed in their 16-byte units, the others zero. -/
def unitSlots (a : Dword) (xs : List Byte) : List (BitVec 128) :=
  let all := List.replicate (a.toNat % 16) 0 ++ xs
  (List.range (lastUnit a xs.length + 1)).map fun i => BitVec.ofNat 128 (leValue ((all.drop (16 * i)).take 16))

/-- The extension slot of a tagged write. -/
def extSlot (t : BitVec 24 × BitVec 16 × BitVec 6 × BitVec 64) : BitVec 128 :=
  BitVec.ofNat 128 (t.1.toNat + t.2.1.toNat * 2 ^ 24 + t.2.2.1.toNat * 2 ^ 40 + t.2.2.2.toNat * 2 ^ 64)

def extOf (x : BitVec 128) : BitVec 24 × BitVec 16 × BitVec 6 × BitVec 64 :=
  (x.extractLsb' 0 24, x.extractLsb' 24 16, x.extractLsb' 40 6, x.extractLsb' 64 64)

/-- The packet of a request of chip `self`. -/
def requestPacket (self : BitVec 12) (r : RemoteReq) : Packet :=
  let a := r.addr.toNat
  let base : Packet :=
    { ptype := 1, aux := 0, dst := windowChip r.addr, src := self, asid := r.asid, tag := BitVec.ofNat 18 r.tag, empty := false
      vc := false, rsv1 := 0, ofs := BitVec.ofNat 36 (a / 16), len := BitVec.ofNat 8 (lastUnit r.addr r.len)
      soff := BitVec.ofNat 4 a, eoff := BitVec.ofNat 4 (a + r.len - 1), rsv0 := 0, data := [] }
  match r.kind with
  | .read => base
  | .atomic => { base with ptype := 5, aux := r.opc, data := [BitVec.ofNat 128 (leValue r.data + r.compare.toNat * 2 ^ 64)] }
  | .write =>
    let xs := unitSlots r.addr r.data
    let w : Packet := { base with ptype := 3, empty := r.data.isEmpty, eoff := if r.data.isEmpty then base.soff else base.eoff }
    match r.tagged with
    | none => { w with data := xs }
    | some t => { w with aux := 1, data := extSlot t :: xs }

/-- The bytes that a request counts as outstanding (R299). -/
def requestSize (r : RemoteReq) : Nat :=
  match r.kind with
  | .read => 16 * (lastUnit r.addr r.len + 1)
  | .write => roundUp r.len 16
  | .atomic => 16

/-- An answer to a request packet. -/
def answerTo (p : Packet) (ptype aux : BitVec 4) (data : List (BitVec 128)) : Packet :=
  { p with ptype := ptype, aux := aux, empty := false, vc := false, data := data }

/-! Management packets (R395, R405). -/

/-- The subtype of a management packet, in AUX. -/
def Mgmt.subtype : Mgmt → Nat
  | .heartbeat _ => 1
  | .failed .. => 2
  | .advert .. => 3
  | .stealAsk .. => 4
  | .stealAnswer .. => 4
  | .stolenBack .. => 4
  | .stolenAck .. => 4
  | .rstr .. => 5
  | .linkid .. => 6
  | .committed _ => 7

/-- What its body carries. -/
def Mgmt.contents : Mgmt → List Nat
  | .heartbeat e => [e.toNat]
  | .failed c e => [c.toNat, e.toNat]
  | .advert rid stage occ => [rid, stage, occ]
  | .stealAsk rid stage k => [0, rid, stage, k.toNat]
  | .stealAnswer rid stage x => [1, rid, stage, (x.map (·.toNat + 1)).getD 0]
  | .stolenBack rid stage x => [2, rid, stage, x.toNat]
  | .stolenAck rid stage x => [3, rid, stage, x.toNat]
  | .rstr port band lit => [port, band, lit.toNat]
  | .linkid c port e => [c.toNat, port, e.toNat]
  | .committed e => [e.toNat]

/-- A management packet for a chip; the body is one data slot (log 43). -/
def mgmtPacket (self goal : BitVec 12) (m : Mgmt) : Packet :=
  { ptype := 8, aux := BitVec.ofNat 4 m.subtype, dst := goal, src := self, asid := 0, tag := 0, empty := false, vc := false, rsv1 := 0
    ofs := 0, len := 0, soff := 0, eoff := 0, rsv0 := 0, data := [Config.mgmtBody m.subtype m.contents] }

def isMgmt (p : Packet) : Bool := p.ptype == 8

/-- A management packet that goes over one link only: its DST and SRC are ignored (R405). -/
def linkLocal (p : Packet) : Bool := isMgmt p && 5 ≤ p.aux.toNat && p.aux.toNat ≤ 7

/-! Routing (R403). -/

def portAt (s : State) (n : Nat) : Port := vget s.fabric.ports n Port.reset
def modPort (s : State) (n : Nat) (f : Port → Port) : State :=
  { s with fabric := { s.fabric with ports := vmod s.fabric.ports n f } }

def GroupTable.find (g : GroupTable) (c : BitVec 12) : Option Member := g.members.find? fun m => m.chip == c

/-- D of R403. -/
def GroupTable.diameter (g : GroupTable) : Nat := max 1 (g.dx / 2 + g.dy / 2 + g.dz / 2)

/-- The coordinate of a member and the extent in a dimension. -/
def Member.coord (m : Member) : Nat → Nat
  | 0 => m.x
  | 1 => m.y
  | _ => m.z
def GroupTable.extent (g : GroupTable) : Nat → Nat
  | 0 => g.dx
  | 1 => g.dy
  | _ => g.dz

/-- The torus port group from one member to another: the first dimension in which they differ, the shorter way round. -/
def torusGroup (g : GroupTable) (from_ goal : Member) : Option Nat :=
  (List.range 3).findSome? fun d =>
    let ext := g.extent d
    let delta := (goal.coord d + ext - from_.coord d) % ext
    if delta = 0 then none else some (2 * d + if delta ≤ ext / 2 then 0 else 1)

def Fabric.up (f : Fabric) (n : Nat) : Bool := n < 64 && (vget f.ports n Port.reset).state == .up
def Fabric.upPorts (f : Fabric) : List Nat := (List.range 64).filter f.up

/-- The port group that a packet for a chip takes from this chip. -/
def routeGroup (f : Fabric) (goal : BitVec 12) : Option Nat :=
  let direct (g : Nat) : Bool :=
    (List.range 8).any fun i => f.up (8 * g + i) && (vget f.ports (8 * g + i) Port.reset).peer == goal
  if direct 6 then some 6
  else if direct 7 then some 7
  else match f.group.find f.group.self, f.group.find goal with
    | some a, some b => torusGroup f.group a b
    | _, _ => none

/-- The slot of a packet within its port group. -/
def routeSlot (p : Packet) : Nat :=
  (bits p.ofs.toNat 12 3 ^^^ bits p.ofs.toNat 15 3 ^^^ p.src.toNat % 8 ^^^ p.dst.toNat % 8) % 8

/-- The port that a packet leaves by, if its group has one that is UP. -/
def routePort (f : Fabric) (p : Packet) : Option Nat :=
  match routeGroup f (packetGoal p) with
  | none => none
  | some g => ((List.range 8).map fun i => 8 * g + (routeSlot p + i) % 8).find? f.up

/-- The hop that ended at port `n` crossed a wrap link (R399). -/
def wrapHop (g : GroupTable) (n : Nat) : Bool :=
  let d := n / 16
  match g.find g.self with
  | some m => n < 48 && (if n / 8 % 2 = 0 then m.coord d + 1 == g.extent d else m.coord d == 0)
  | none => false

end Sys2Proof.Machine
end

