-- ==== Sys2Proof/Machine/Links.lean ====
section
/-! DEFINITION. The links (R397 to R402, R410, R428): sending and receiving of flits with replay, credits and bands, loss of
light, ports that go DOWN, and the VIGIL rounds of a quiescence. The cycles of the links are counted by die 0 (log 45). -/

namespace Sys2Proof.Machine

def modFabric (s : State) (f : Fabric → Fabric) : State := { s with fabric := f s.fabric }

/-! Records (R414). -/

/-- The fields of a fabric record beyond its code and EPOCH. -/
structure FabricBody where
  port : Nat := 0
  band : Nat := 0xFF
  mask : BitVec 16 := 0
  width : Nat := 0
  firstSeq : BitVec 24 := 0
  resent : Nat := 0
  chip : BitVec 12 := 0
  replays : Nat := 0

def fabricRecord (s : State) (code : Nat) (b : FabricBody) : State :=
  writeRecord s
    { src := 16, code := code, sev := (Config.fabricSev code).val, core := none, rid := 0, asid := none,
      body := leBytes 1 b.port ++ leBytes 1 b.band ++ leBytes 2 b.mask.toNat ++ leBytes 1 b.width ++ leBytes 1 0
        ++ leBytes 4 b.firstSeq.toNat ++ leBytes 4 b.resent ++ leBytes 2 b.chip.toNat ++ leBytes 2 0
        ++ leBytes 4 s.fabric.group.epoch.toNat ++ leBytes 4 b.replays ++ leBytes 4 0, ext := [] }

/-! Packets at a port (R399, R403, R405). -/

/-- A packet that leaves by a port; management packets travel in flits of their own (R395). -/
def Port.take (q : Port) (p : Packet) : Port :=
  if isMgmt p then { q with mgmt := q.mgmt ++ [⟨p, packetSlots p, 0⟩] } else { q with out := q.out ++ [⟨p, packetSlots p, 0⟩] }

def Fabric.putAt (f : Fabric) (n : Nat) (p : Packet) : Fabric := { f with ports := vmod f.ports n fun q => q.take p }

/-- A packet for this chip is taken by its own fabric interface without a link (R293), and a management packet by the service cores,
which an event brings it to (log 43); another goes to the port it is routed by, or waits at this hop. -/
def Fabric.sendPacket (f : Fabric) (p : Packet) : Fabric :=
  if packetGoal p == f.group.self then (if isMgmt p then f else { f with rxPackets := f.rxPackets ++ [p] })
  else match routePort f p with
  | some n => f.putAt n p
  | none => { f with held := f.held ++ [p] }

def sendPacket (s : State) (p : Packet) : State := modFabric s fun f => f.sendPacket p

/-- A management packet sent by the service cores (R405): routed to a chip, flooded, or over one link. -/
def Fabric.sendMgmt (f : Fabric) (goal : MgmtTo) (m : Mgmt) : Fabric :=
  let f1 : Fabric := { f with mgmt := (goal, m) :: f.mgmt }
  match goal with
  | .chip c => f1.sendPacket (mgmtPacket f.group.self c m)
  | .flood => f1.upPorts.foldl (fun f n => f.putAt n (mgmtPacket f.group.self 0 m)) f1
  | .port n => f1.putAt n (mgmtPacket f.group.self 0 m)

def sendMgmt (s : State) (goal : MgmtTo) (m : Mgmt) : State := modFabric s fun f => f.sendMgmt goal m

/-- A write of an engine instruction has landed: progress of its stream (R373). -/
def wroteFor (s : State) (c : Nat) (st : StreamId) : State :=
  if c < noCore && st != .c then modCore s c fun k => k.modStream st fun x => { x with progress := true } else s

/-- The acknowledgement of a WRITE at the target, once every store that it made has been performed (R298). -/
def ackWrite (s : State) (ack : Option Packet) : State :=
  match ack with
  | none => s
  | some p => if awaitsLanding s p then s else sendPacket s (answerTo p 4 0 [])

/-- The packets that wait at this hop routed again. -/
def flushHeld (s : State) : State := s.fabric.held.foldl sendPacket (modFabric s fun f => { f with held := [] })

/-- A packet of which some slots have been placed and some not. -/
def OutPacket.begun (o : OutPacket) : Bool := !o.left.isEmpty && o.left.length < o.pkt.data.length + 1

/-- The packet that gives the next slot: one that is begun, else the first that may go and whose channel has credit (R395, R399). -/
def nextPacket (may : Packet → Bool) (credit : Vector Nat 2) (out : List OutPacket) : Option Nat :=
  let credited (o : OutPacket) : Bool := may o.pkt && 0 < vget credit (packetChannel o.pkt) 0
  match out.findIdx? OutPacket.begun with
  | some i => if ((out[i]?).map credited).getD false then some i else none
  | none => out.findIdx? fun o => !o.left.isEmpty && credited o

/-- Slots placed in the flit of number `seq`, up to a count, with the packets and the credits that are left. -/
def placeSlots (may : Packet → Bool) (seq : BitVec 24) :
    Nat → Vector Nat 2 → List OutPacket → List (BitVec 128) × Vector Nat 2 × List OutPacket
  | 0, credit, out => ([], credit, out)
  | n + 1, credit, out =>
    match nextPacket may credit out with
    | none => ([], credit, out)
    | some i =>
      match out[i]? with
      | some ⟨pkt, x :: rest, _⟩ =>
        let r := placeSlots may seq n (vmod credit (packetChannel pkt) (· - 1)) (out.set i ⟨pkt, rest, seq⟩)
        (x :: r.1, r.2)
      | _ => ([], credit, out)

/-! Bands (R392, R402). -/

def Band.usable (b : Band) : Bool := b.width != 0 && b.relock.isNone

def Port.bandAt (p : Port) (b : Nat) : Band := vget p.bands b Band.off

/-- The bands that may carry flits. -/
def Port.usableBands (p : Port) : List Nat := (List.range 4).filter fun b => (p.bandAt b).usable

/-- Four bands of one width (R402). -/
def Port.even (p : Port) : Bool :=
  p.usableBands.length == 4 && (List.range 4).all fun b => (p.bandAt b).width == (p.bandAt 0).width

/-- The usable band that becomes free first, the lower one on a tie. -/
def Port.freeBand (p : Port) : Option Nat :=
  p.usableBands.foldl (fun best b => match best with
    | none => some b
    | some a => if (p.bandAt b).freeAt < (p.bandAt a).freeAt then some b else best) none

/-- The band of a flit; an IDLE has no SEQ (R402). -/
def Port.pickBand (p : Port) (seq : Option (BitVec 24)) : Option Nat :=
  match seq with
  | some q => if p.even then some (q.toNat % 4) else p.freeBand
  | none => p.freeBand

/-! Sending (R394, R397). -/

/-- The channel whose credits the next header returns: channel 0 when it is owed a credit, else channel 1. -/
def Port.creditChannel (p : Port) : Nat := if 16 ≤ vget p.owed 0 0 then 0 else 1

/-- The header of the next flit: what the reverse direction is to know is always current (R397). -/
def Port.header (p : Port) (kind nslot : Nat) (seq : BitVec 24) : LinkHdr :=
  let v := p.creditChannel
  let n := min 63 (vget p.owed v 0 / 16)
  ⟨kind, nslot, seq, p.rxE, p.rplDue, n != 0 && v == 1, n⟩

/-- A flit goes out on a band: it takes 48 / n ns (R392), and what its header told is told. -/
def Port.transmit (p : Port) (now : Dword) (b : Nat) (flit : BitVec 1536) : Port :=
  let h := flitHdr flit
  let n := 4 * (p.bandAt b).width
  { p with
    bands := vmod p.bands b fun x => { x with freeAt := max x.freeAt (4 * now.toNat) + 336 / n }
    wire := (b, lightOf (p.bandAt b).mask flit) :: p.wire, sinceSend := 0, rplDue := false
    owed := vmod p.owed h.cvc.toNat fun x => x - 16 * h.crd }

/-- A new flit takes the next SEQ and is kept for replay. -/
def Port.newFlit (p : Port) (now : Dword) (b kind nslot : Nat) (slots : List (BitVec 128)) : Port :=
  let flit := flitOf (p.header kind nslot p.txSeq) slots
  let p1 := p.transmit now b flit
  { p1 with txSeq := p.txSeq + 1, replay := p.replay ++ [⟨p.txSeq, flit⟩] }

/-- The body slot of a VIGIL flit (R394). -/
def vigilSlot (round : Nat) (epoch : BitVec 32) : BitVec 128 := BitVec.ofNat 128 (round % 32 + epoch.toNat * 2 ^ 32)

/-- DATA flits may pass: COMMITTED went both ways, and this chip has not been declared failed (R406, R412). -/
def dataMayGo (s : State) (p : Port) : Bool := p.commTx && p.commRx && !s.fabric.silenced

/-- Management packets pass without COMMITTED; a QUIET chip sends only those of one link (R410, R412). -/
def mgmtMayGo (p : Port) (x : Packet) : Bool := p.state == .up || linkLocal x

/-- The next MGMT flit, or else DATA flit, of a port on a band, if it has one to send. -/
def Port.sendPackets (s : State) (p : Port) (b : Nat) : Option Port :=
  let now := (dieAt s 0).cyc
  match placeSlots (mgmtMayGo p) p.txSeq 11 p.credit p.mgmt with
  | (x :: xs, credit, out) => some ({ p with credit := credit, mgmt := out }.newFlit now b 2 (xs.length + 1) (x :: xs))
  | ([], _, _) =>
    if p.state != .up || !dataMayGo s p then none
    else match placeSlots (fun _ => true) p.txSeq 11 p.credit p.out with
      | ([], _, _) => none
      | (xs, credit, out) => some ({ p with credit := credit, out := out }.newFlit now b 1 xs.length xs)

/-- The port after its next numbered or resent flit, if it has one to send. -/
def Port.sendNext (s : State) (p : Port) : Option Port :=
  let now := (dieAt s 0).cyc
  match p.again with
  | x :: rest =>
    (p.pickBand (some x.seq)).map fun b =>
      let h := flitHdr x.flit
      { p.transmit now b (rehead x.flit (p.header h.kind h.nslot x.seq)) with again := rest }
  | [] =>
    if 2048 ≤ p.replay.length then none
    else
      (p.pickBand (some p.txSeq)).bind fun b =>
        match p.vigils with
        | r :: rest => some { p.newFlit now b 3 0 [vigilSlot r s.fabric.group.epoch] with vigils := rest }
        | [] => p.sendPackets s b

/-- IDLE_SEND (R397, R410): a direction with nothing else to send, before 128 cycles have gone by or to carry an RPL. -/
def execIdleSend (port : Nat) (s : State) : Out :=
  let p := portAt s port
  if port < 64 && p.state != .down && (p.sendNext s).isNone && (127 ≤ p.sinceSend || p.rplDue) then
    match p.pickBand none with
    | some b => .next (modPort s port fun p => p.transmit (dieAt s 0).cyc b (flitOf (p.header 0 0 0) []))
    | none => .next s
  else .next s

/-! Quiescence (R410, R411). -/

/-- Rounds sent and received on every UP port; a round that a port has still to put on the wire is not sent. -/
def vigilSent (f : Fabric) : Nat :=
  f.upPorts.foldl (fun a n => let p := vget f.ports n Port.reset; min a (p.vigilTx - p.vigils.length)) 24
def vigilGot (f : Fabric) : Nat := f.upPorts.foldl (fun a n => min a (vget f.ports n Port.reset).vigilRx) 24

/-- A flit of management packets. -/
def mgmtFlit (x : HeldFlit) : Bool := (flitHdr x.flit).kind == 2

/-- A port of a QUIET chip sends no VIGIL and resends no flit but those of management packets. -/
def Port.quieted (p : Port) : Port := { p with state := .dark, vigils := [], again := p.again.filter mgmtFlit }

/-- A QUIET chip enters DARK. -/
def enterDark (s : State) : State :=
  modFabric s fun f => { f with rgState := .dark, ports := f.ports.map Port.quieted }

/-- A round sent on every UP port. -/
def sendRound (s : State) (round : Nat) : State :=
  s.fabric.upPorts.foldl (fun s n => modPort s n fun p => { p with vigils := p.vigils ++ [round], vigilTx := round }) s

/-- A settled chip sends the rounds it may send, and is QUIET after round D. -/
def vigilAdvance : Nat → State → State
  | 0, s => s
  | fuel + 1, s =>
    let f := s.fabric
    if f.rgState != .quiescing || !f.settled then s
    else if f.upPorts.isEmpty then enterDark s
    else if f.upPorts.any fun n => !(vget f.ports n Port.reset).vigils.isEmpty then s
    else
      let k := vigilSent f
      if vigilGot f < k then s
      else if k < f.group.diameter then vigilAdvance fuel (sendRound s (k + 1))
      else enterDark s

/-- More rounds than any group needs. -/
def vigilFuel : Nat := 32

/-- FLIT_SEND (R397, R399, R402): flits to be sent again come first, then VIGIL rounds, management packets and data. With its last round
sent a chip may be QUIET. -/
def execFlitSend (port : Nat) (s : State) : Out :=
  let p := portAt s port
  if port < 64 && p.state != .down then
    match p.sendNext s with
    | some q =>
      let s1 := modPort s port fun _ => q
      .next (if q.vigils.length < p.vigils.length then vigilAdvance vigilFuel s1 else s1)
    | none => .next s
  else .next s

/-! A port goes DOWN (R397, R401, R428). -/

/-- A port with nothing in it. -/
def Port.emptied (p : Port) : Port :=
  { p with
    state := .down, bands := p.bands.map (fun b => { b with width := 0, mask := 0, relock := none }), replay := [], again := []
    sinceAck := 0, fruitless := 0, out := [], mgmt := [], vigils := [], window := [], gap := 0, silent := 0, rplDue := false, slots := []
    mslots := [], owed := .replicate 2 0 }

/-- A management packet that has another way than the port it stands at. -/
def routed (o : OutPacket) : Bool := !linkLocal o.pkt && o.pkt.aux != 2

/-- The port goes DOWN with a record; the packets it holds go by the ports that now serve their routes. -/
def portDown (s : State) (n : Nat) : State :=
  let p := portAt s n
  let s1 := fabricRecord (modPort s n Port.emptied) 0x0304 { port := n, chip := p.peer }
  vigilAdvance vigilFuel ((p.out ++ p.mgmt.filter routed).foldl (fun s o => sendPacket s o.pkt) s1)

/-! Replay (R397). -/

/-- The unacknowledged flits that a replay sends again: all of them, or on a port that is not UP those of management packets (R410). -/
def Port.unacked (p : Port) : List HeldFlit := if p.state == .up then p.replay else p.replay.filter mgmtFlit

/-- Every unacknowledged flit is to be sent again: one replay. -/
def Port.resend (p : Port) : Port :=
  match p.unacked with
  | [] => p
  | x :: _ =>
    let mark (b : Band) : Band := { b with
      replays := b.replays + 1, firstSeq := if b.replays = 0 then x.seq else b.firstSeq, resent := b.resent + p.unacked.length }
    { p with again := p.unacked, fruitless := p.fruitless + 1, sinceAck := 0, bands := p.bands.map mark }

/-- A replay made on a port; the port goes DOWN after 64 with no ACK advance. -/
def replayPort (s : State) (n : Nat) : State :=
  if (portAt s n).unacked.isEmpty then s
  else
    let count := (kget s.fleet.replays n).getD 0 + 1
    let s1 := modPort s n Port.resend
    let s2 := { s1 with fleet := { s1.fleet with replays := kset s1.fleet.replays n count } }
    if 64 ≤ (portAt s2 n).fruitless then portDown s2 n else s2

/-- The flits below an ACK leave the replay buffer, and with them the packets they complete (R397). -/
def Port.acked (p : Port) (ack : BitVec 24) : Port :=
  let left := (p.txSeq - ack).toNat
  if left < p.replay.length then
    let covered (q : BitVec 24) : Bool := left < (p.txSeq - q).toNat
    { p with
      replay := p.replay.drop (p.replay.length - left), again := p.again.filter fun x => !covered x.seq
      out := p.out.filter (fun o => !(o.left.isEmpty && covered o.last))
      mgmt := p.mgmt.filter (fun o => !(o.left.isEmpty && covered o.last)), sinceAck := 0, fruitless := 0 }
  else p

/-! Receiving (R395, R397 to R399). -/

/-- A management packet that ends at this chip whatever its DST: of one link, or a flooded notice. -/
def endsHere (p : Packet) : Bool := isMgmt p && (linkLocal p || p.aux == 2)

/-- A packet arrived by port `n`: kept for this chip, or sent on; after a wrap link it travels on channel 1. A bad one is
discarded by its target, with a record. A management packet for this chip goes to the service cores, whose reading of it is an event of
its own (log 43). -/
def arrivePacket (n : Nat) (s : State) (p : Packet) : State :=
  if packetGoal p == s.fabric.group.self || endsHere p then
    if packetGood p then (if isMgmt p then s else modFabric s fun f => { f with rxPackets := f.rxPackets ++ [p] })
    else fabricRecord s 0x0308 { port := n, chip := p.src }
  else sendPacket s { p with vc := p.vc || wrapHop s.fabric.group n }

/-- The slots of a DATA flit, or of a MGMT flit: every slot delivered is owed as a credit of its channel, and whole packets arrive. -/
def arriveSlots (n : Nat) (mgmt : Bool) (s : State) (xs : List (BitVec 128)) : State :=
  let old := if mgmt then (portAt s n).mslots else (portAt s n).slots
  let all := old ++ xs
  let r := takePackets all.length all
  let chans := (slotChannels all.length all).drop old.length
  let s1 := modPort s n fun p =>
    let p1 : Port := { p with owed := vmod (vmod p.owed 0 (· + chans.count 0)) 1 (· + chans.count 1) }
    if mgmt then { p1 with mslots := r.2 } else { p1 with slots := r.2 }
  r.1.foldl (arrivePacket n) s1

/-- A flit delivered in SEQ order. -/
def deliverFlit (n : Nat) (s : State) (flit : BitVec 1536) : State :=
  let h := flitHdr flit
  let slots := flitSlots flit
  match h.kind with
  | 1 => arriveSlots n false s (slots.take h.nslot)
  | 2 => arriveSlots n true s (slots.take h.nslot)
  | 3 =>
    let x := slots.headD 0
    modFabric s fun f => { f with rxVigils := f.rxVigils ++ [(n, (x.extractLsb' 0 5).toNat, x.extractLsb' 32 32)] }
  | _ => s

/-- The flits at the head of the window delivered. -/
def deliverWindow (n : Nat) : Nat → State → State
  | 0, s => s
  | fuel + 1, s =>
    let p := portAt s n
    match p.window.find? fun x => x.seq == p.rxE with
    | none => s
    | some x =>
      let s1 := modPort s n fun p => { p with rxE := p.rxE + 1, window := p.window.filter (fun y => y.seq != x.seq), gap := 0 }
      deliverWindow n fuel (deliverFlit n s1 x.flit)

/-- A numbered flit: held in the window if it lies there and is new; one beyond it asks for a replay. -/
def takeFlit (s : State) (n : Nat) (seq : BitVec 24) (flit : BitVec 1536) : State :=
  let p := portAt s n
  let d := (seq - p.rxE).toNat
  if 2 ^ 23 ≤ d then s
  else if 64 ≤ d then modPort s n fun p => { p with gap := max p.gap 256 }
  else if p.window.any fun x => x.seq == seq then s
  else deliverWindow n 64 (modPort s n fun p => { p with window := p.window ++ [⟨seq, flit⟩] })

/-- FLIT_RECEIVE (R394, R397, R398): a flit that is not good is discarded. -/
def execFlitReceive (port : Nat) (flit : BitVec 1536) (s : State) : Out :=
  if 64 ≤ port || (portAt s port).state == .down || !flitGood flit then .next s
  else
    let h := flitHdr flit
    let s1 := modPort s port fun p =>
      let q := p.acked h.ack
      { q with silent := 0, credit := vmod q.credit h.cvc.toNat (· + 16 * h.crd) }
    let s2 := if h.rpl then replayPort s1 port else s1
    .next (if h.kind = 0 || (portAt s2 port).state == .down then s2 else takeFlit s2 port h.seq flit)

/-- REPLAY_REQUEST (R397): E has been missing for 256 cycles, or a flit beyond the window came; once in 1,024 cycles. -/
def execReplayRequest (port : Nat) (s : State) : Out :=
  let p := portAt s port
  if port < 64 && p.state != .down && 256 ≤ p.gap && 1024 ≤ p.sinceRpl then
    .next (modPort s port fun p => { p with rplDue := true, sinceRpl := 0, gap := if p.window.isEmpty then 0 else p.gap })
  else .next s

/-- ACK_TIMEOUT (R397). -/
def execAckTimeout (port : Nat) (s : State) : Out :=
  let p := portAt s port
  if s.fabric.up port && !p.replay.isEmpty && 8192 ≤ p.sinceAck then .next (replayPort s port) else .next s

/-- PORT_SILENT (R428). -/
def execPortSilent (port : Nat) (s : State) : Out :=
  if s.fabric.up port && 2 ^ 16 ≤ (portAt s port).silent then .next (portDown s port) else .next s

/-! Light (R391, R392, R400, R401). -/

/-- The modules all of whose four wavelengths are lit. -/
def wholeModules (lit : BitVec 16) : BitVec 4 :=
  BitVec.ofNat 4 ((List.range 4).foldl (fun a m => a + if bits lit.toNat (4 * m) 4 = 15 then 2 ^ m else 0) 0)

/-- The wavelengths of modules. -/
def modulesMask (m : BitVec 4) : BitVec 16 :=
  BitVec.ofNat 16 ((List.range 4).foldl (fun a i => a + if m.getLsbD i then 15 * 2 ^ (4 * i) else 0) 0)

/-- A relock at the width that a set of modules allows; DOWN with none. -/
def Band.startRelock (b : Band) (m : BitVec 4) : Band :=
  let w := popCount 4 m.toNat
  { b with
    lit := m, width := w, mask := modulesMask m, relock := if w = 0 then none else some 4096
    replays := 0, firstSeq := 0, resent := 0 }

/-- LOSS_OF_LIGHT on wavelengths of a band of the receiving fibre. On a port that is not UP it raises no event (R411). -/
def execLossOfLight (port band : Nat) (waves : BitVec 16) (s : State) : Out :=
  let p := portAt s port
  let lit := vget p.rxMask band 0
  if 64 ≤ port || 4 ≤ band || lit &&& waves == 0 then .next s
  else
    let now := lit &&& ~~~waves
    let s1 := modPort s port fun p => { p with rxMask := vset p.rxMask band now }
    if p.state != .up then .next s1
    else
      let n := (kget s1.fleet.losEvents port).getD 0 + 1
      let s2 := { s1 with fleet := { s1.fleet with losEvents := kset s1.fleet.losEvents port n } }
      let s3 := sendMgmt s2 (.port port) (.rstr p.peerPort.toNat band now)
      .next (fabricRecord s3 0x0301 { port := port, band := band, mask := now })

/-- Bands left without a whole lit module are DOWN, with a record each; with all four, so is the port (R401). -/
def bandsDown (s : State) (n : Nat) (mask : BitVec 16) (bands : List Nat) : State :=
  let gone (b : Nat) : Bool := ((portAt s n).bandAt b).width == 0
  let s1 := (bands.filter gone).foldl (fun s b => fabricRecord s 0x0303 { port := n, band := b, mask := mask }) s
  if (List.range 4).all gone then portDown s1 n else s1

/-- RSTR: the band of the sending fibre relocks at the width of its whole lit modules, or goes DOWN (R401). -/
def execRstr (port band : Nat) (lit : BitVec 16) (s : State) : Out :=
  let b := (portAt s port).bandAt band
  if !s.fabric.up port || 4 ≤ band || b.width == 0 then .next s
  else
    let whole := b.lit &&& wholeModules lit
    let s1 := modPort s port fun p => { p with
      bands := vmod p.bands band fun b => { b.startRelock whole with failed := b.failed ||| ~~~wholeModules lit } }
    .next (if whole != 0 then s1 else bandsDown s1 port lit [band])

/-- RELOCK_END: the band carries flits again. -/
def execRelockEnd (port band : Nat) (s : State) : Out :=
  let b := (portAt s port).bandAt band
  if 64 ≤ port || 4 ≤ band || b.relock != some 0 then .next s
  else
    let s1 := modPort s port fun p => { p with bands := vmod p.bands band fun b => { b with relock := none } }
    if s.fabric.up port then
      .next (fabricRecord s1 0x0302
        { port := port, band := band, mask := b.mask, width := b.width, firstSeq := b.firstSeq, resent := b.resent, replays := b.replays })
    else .next s1

/-- LASER_RECOVERY: the module is used again at the band's next relock. -/
def execLaserRecovery (port band lm : Nat) (s : State) : Out :=
  if 64 ≤ port || 4 ≤ band || 4 ≤ lm then .next s
  else .next (modPort s port fun p => { p with
    bands := vmod p.bands band fun b => { b with failed := b.failed &&& ~~~(BitVec.ofNat 4 (2 ^ lm)) } })

/-- Every band of a port relocks with the modules that are not failed; its receiver trains with it. -/
def Port.relockAll (p : Port) : Port :=
  { p with bands := p.bands.map fun b => b.startRelock (~~~b.failed), rxMask := .replicate 4 0xFFFF }

/-- PORT_RETRAIN of an UP port. -/
def execPortRetrain (port : Nat) (s : State) : Out :=
  if s.fabric.up port then .next (bandsDown (modPort s port Port.relockAll) port 0 (List.range 4)) else .next s

end Sys2Proof.Machine
end

