-- ==== Sys2Proof/Machine/LoadStore.lean ====
section
/-! DEFINITION. Loads, stores, prefetch and atomics of the control stream (R111 to R113). -/

namespace Sys2Proof.Machine

/-- A load's value from its bytes (R111). -/
def loadValue (conv : Nat × Bool) (xs : List Byte) : Dword :=
  if conv.2 then dw (signExtend (leValue xs) (8 * conv.1)) else BitVec.ofNat 64 (leValue (xs.take conv.1))

/-- What issues with a control instruction whose value arrives later (R104): the entry put in flight. -/
def flightEntry (m : CM) (k : Core) (dest : Dest) (val : Dword) (w : Await) (fault : Option Exc) (conv : Nat × Bool) : InFlight :=
  ⟨dest, val, w, m.q, m.sync, (k.stream .c).here, fault, conv⟩

/-- Issue of an interlocked instruction: `x` reads its value, or answers what it waits for. A fault it detects is raised at
once, or with Q set at its retirement (R106). -/
def interlocked (m : CM) (regs : List (BitVec 5)) (dest : Dest) (conv : Nat × Bool) (s : State)
    (x : Core → X (Dword × Await)) : Out :=
  let c := s.cur.core.val
  let k := coreAt s c
  if k.canIssue m regs then
    let put (s : State) (v : Dword) (w : Await) (f : Option Exc) : State :=
      modCore s c fun k' => { k'.issue m s.cur.len with
        inflight := k'.inflight ++ [flightEntry m k dest v w f conv] }
    match x k s with
    | .ok (v, w) s' => .next (put s' v w none)
    | .error .wait _ => .next s
    | .error .hold s' => .next s'
    | .error (.exc e) s' => if m.q then .next (put s' 0 .ready (some e)) else .next (raise s' c .c e)
    | .error (.mcheck kind pa) s' => .next (machineCheck s' c kind pa)
  else .next s

/-- A natural alignment check (R111). -/
def aligned (a : Dword) (n : Nat) : Bool := a.toNat % n == 0

/-- LDn: the value, or the reply awaited of a window address (R111, R294). -/
def loadAt (conv : Nat × Bool) (a : Dword) : X (Dword × Await) := do
  let c ← myNumber
  require (aligned a conv.1) .align a
  let s ← get
  if isWindow a then do
    peerCheck a
    let tag ← request (newReq s .read c .c a conv.1)
    pure (0, .remote tag)
  else do
    let ps ← check c .read a conv.1
    match ps with
    | [q] => do
      let xs ← cachedLoad c q
      pure (loadValue conv xs, .ready)
    | _ => pure (0, .ready)

/-- A load of `conv.1` bytes, sign-extended when `conv.2` (R111). -/
def load (conv : Nat × Bool) (m : CM) (a b : BitVec 5) (disp : Dword) (s : State) : Out :=
  interlocked m [a, b] (.g a) conv s fun k => loadAt conv (k.readG b + disp)

/-- A control instruction that may fault, completes in its issue cycle and is never in flight (R104, R105). -/
def ctlX (m : CM) (regs : List (BitVec 5)) (s : State) (x : Core → X Unit) : Out :=
  runX .c (do
    let k ← me
    waitFor (k.canIssue m regs)
    x k
    modMe fun k => (k.issue m s.cur.len).retire .c m.sync) s

/-- STn: the checks, then the write (R111). -/
def storeAt (n : Nat) (a x : Dword) : X Unit := do
  let c ← myNumber
  require (aligned a n) .align a
  let xs := leBytes n x.toNat
  if isWindow a then remoteStore .c a xs
  else do
    let ps ← check c .write a n
    match ps with
    | [q] => cachedStore c q xs
    | _ => pure ()

/-- A store of `n` bytes (R111). -/
def store (n : Nat) (m : CM) (b d : BitVec 5) (disp : Dword) (s : State) : Out :=
  ctlX m [b, d] s fun k => storeAt n (k.readG b + disp) (k.readG d)

/-- PREF: a fault or a wait drops it (R111). -/
def prefetch (m : CM) (b : BitVec 5) (disp : Dword) (s : State) : Out :=
  let c := s.cur.core.val
  let k := coreAt s c
  let a := k.readG b + disp
  let touch : X Unit := do
    if isWindow a then pure ()
    else do
      let ps ← check c .read a 1
      ps.forM fun q => do
        let _ ← cachedLoad c q
        pure ()
  if k.canIssue m [b] then
    let s' := match touch s with
      | .ok _ s' => s'
      | .error _ _ => s
    .next (modCore s' c fun k => (k.issue m s.cur.len).retire .c m.sync)
  else .next s

def execLd8 (m : CM) (a b : BitVec 5) (s : State) : Out := load (1, false) m a b 0 s
def execLd8Disp (m : CM) (a b : BitVec 5) (disp : BitVec 32) (s : State) : Out := load (1, false) m a b (sx32 disp) s
def execLd8s (m : CM) (a b : BitVec 5) (s : State) : Out := load (1, true) m a b 0 s
def execLd8sDisp (m : CM) (a b : BitVec 5) (disp : BitVec 32) (s : State) : Out := load (1, true) m a b (sx32 disp) s
def execLd16 (m : CM) (a b : BitVec 5) (s : State) : Out := load (2, false) m a b 0 s
def execLd16Disp (m : CM) (a b : BitVec 5) (disp : BitVec 32) (s : State) : Out := load (2, false) m a b (sx32 disp) s
def execLd16s (m : CM) (a b : BitVec 5) (s : State) : Out := load (2, true) m a b 0 s
def execLd16sDisp (m : CM) (a b : BitVec 5) (disp : BitVec 32) (s : State) : Out := load (2, true) m a b (sx32 disp) s
def execLd32 (m : CM) (a b : BitVec 5) (s : State) : Out := load (4, false) m a b 0 s
def execLd32Disp (m : CM) (a b : BitVec 5) (disp : BitVec 32) (s : State) : Out := load (4, false) m a b (sx32 disp) s
def execLd32s (m : CM) (a b : BitVec 5) (s : State) : Out := load (4, true) m a b 0 s
def execLd32sDisp (m : CM) (a b : BitVec 5) (disp : BitVec 32) (s : State) : Out := load (4, true) m a b (sx32 disp) s
def execLd64 (m : CM) (a b : BitVec 5) (s : State) : Out := load (8, false) m a b 0 s
def execLd64Disp (m : CM) (a b : BitVec 5) (disp : BitVec 32) (s : State) : Out := load (8, false) m a b (sx32 disp) s
def execPref (m : CM) (b : BitVec 5) (s : State) : Out := prefetch m b 0 s
def execPrefDisp (m : CM) (b : BitVec 5) (disp : BitVec 32) (s : State) : Out := prefetch m b (sx32 disp) s
def execSt8 (m : CM) (b c : BitVec 5) (s : State) : Out := store 1 m b c 0 s
def execSt8Disp (m : CM) (b c : BitVec 5) (disp : BitVec 32) (s : State) : Out := store 1 m b c (sx32 disp) s
def execSt16 (m : CM) (b c : BitVec 5) (s : State) : Out := store 2 m b c 0 s
def execSt16Disp (m : CM) (b c : BitVec 5) (disp : BitVec 32) (s : State) : Out := store 2 m b c (sx32 disp) s
def execSt32 (m : CM) (b c : BitVec 5) (s : State) : Out := store 4 m b c 0 s
def execSt32Disp (m : CM) (b c : BitVec 5) (disp : BitVec 32) (s : State) : Out := store 4 m b c (sx32 disp) s
def execSt64 (m : CM) (b c : BitVec 5) (s : State) : Out := store 8 m b c 0 s
def execSt64Disp (m : CM) (b c : BitVec 5) (disp : BitVec 32) (s : State) : Out := store 8 m b c (sx32 disp) s

/-! Atomics (R113). -/

/-- The cached copy of an atomic's line is dropped first (R113). -/
def dcDrop (k : Core) (line : Nat) : Core := { k with dcache := k.dcache.filter fun l => l.pa != line || l.phased }

/-- The atomic access at `a` (R113, R243, R294). The read and the write are one step of the model, so it is indivisible for
every observer of the chip. -/
def atomicAt (opc : Nat) (scope : BitVec 3) (a x cmp : Dword) : X (Dword × Await) := do
  let c ← myNumber
  require (aligned a 8) .align a
  let s ← get
  if isWindow a then do
    require (4 ≤ scope.toNat) .class_ a
    peerCheck a
    let tag ← request { newReq s .atomic c .c a 8 with
      opc := BitVec.ofNat 4 opc, data := leBytes 8 x.toNat, compare := cmp }
    pure (0, .remote tag)
  else do
    let ps ← check c .read a 8
    require (ps.all fun q => q.page.cls == 0) .class_ a
    modMe fun k => ps.foldl (fun k q => dcDrop k (q.page.pa / 128 * 128)) k
    let r ← fetchPieces c ps
    match r.2 with
    | some va => fail .uncorr va
    | none => do
      let old := leDword r.1
      match atomicOp opc old x cmp with
      | none => pure (old, .ready)
      | some new => do
        let qs ← check c .write a 8
        putPieces c qs (leBytes 8 new.toNat)
        pure (old, .ready)

/-- An atomic with opcode 0x40 + `opc`: ACAS compares with the old ga (R113). -/
def atomic (opc : Nat) (m : CM) (a b c : BitVec 5) (disp : BitVec 24) (scope : BitVec 3) (s : State) : Out :=
  interlocked m [a, b, c] (.g a) (8, false) s fun k =>
    atomicAt opc scope (k.readG b + disp.signExtend 64) (k.readG c) (k.readG a)

def execAadd (m : CM) (a b c : BitVec 5) (disp : BitVec 24) (scope : BitVec 3) (s : State) : Out := atomic 0 m a b c disp scope s
def execAand (m : CM) (a b c : BitVec 5) (disp : BitVec 24) (scope : BitVec 3) (s : State) : Out := atomic 1 m a b c disp scope s
def execAor (m : CM) (a b c : BitVec 5) (disp : BitVec 24) (scope : BitVec 3) (s : State) : Out := atomic 2 m a b c disp scope s
def execAxor (m : CM) (a b c : BitVec 5) (disp : BitVec 24) (scope : BitVec 3) (s : State) : Out := atomic 3 m a b c disp scope s
def execAmin (m : CM) (a b c : BitVec 5) (disp : BitVec 24) (scope : BitVec 3) (s : State) : Out := atomic 4 m a b c disp scope s
def execAmax (m : CM) (a b c : BitVec 5) (disp : BitVec 24) (scope : BitVec 3) (s : State) : Out := atomic 5 m a b c disp scope s
def execAminu (m : CM) (a b c : BitVec 5) (disp : BitVec 24) (scope : BitVec 3) (s : State) : Out := atomic 6 m a b c disp scope s
def execAmaxu (m : CM) (a b c : BitVec 5) (disp : BitVec 24) (scope : BitVec 3) (s : State) : Out := atomic 7 m a b c disp scope s
def execAswap (m : CM) (a b c : BitVec 5) (disp : BitVec 24) (scope : BitVec 3) (s : State) : Out := atomic 8 m a b c disp scope s
def execAcas (m : CM) (a b c : BitVec 5) (disp : BitVec 24) (scope : BitVec 3) (s : State) : Out := atomic 9 m a b c disp scope s

end Sys2Proof.Machine
end

