-- ==== Sys2Proof/Machine/Bundle.lean ====
section
/-! DEFINITION. Bundles (R117 to R119, R251 to R257): opening, stores on their way to their homes, sealing, committing and
aborting. A home on another chip is represented here by the record the opening chip keeps of it (log 19). -/

namespace Sys2Proof.Machine

/-! Entries and homes. -/

/-- The entry of a region's bundle table that holds a bundle, with its index (R251). -/
def findBundle (s : State) (r : Region) (bid : BitVec 24) : Option (Nat × BundleEntry) :=
  ((List.range r.nbund).map fun i => (i, bundleEntryAt s (r.btab + 1040 * i))).find? fun e => e.2.bid == bid

/-- Two segments do not overlap (R251). -/
def segsApart (a b : SegEntry) : Bool :=
  a.chip != b.chip || a.start + 128 * a.lines ≤ b.start || b.start + 128 * b.lines ≤ a.start

/-- The chip that a segment's BASE names is its CHIP (R251, R292). -/
def segChipOk (self : BitVec 12) (g : SegEntry) : Bool := g.chip == if isWindow g.base then windowChip g.base else self

/-- The parts of R251 that the entry's own bytes show. -/
def entryOk (s : State) (pa : Nat) (e : BundleEntry) : Bool :=
  1 ≤ e.nseg && e.nseg ≤ 64 && (physRead s (pa + 3) 1).all (· == 0) && (physRead s (pa + 5) 11).all (· == 0)
    && ((List.range e.nseg).all fun g =>
        bits (leValue (physRead s (pa + 28 + 16 * g) 2)) 12 4 == 0 && (physRead s (pa + 30 + 16 * g) 2).all (· == 0))
    && (e.segs.all fun g => g.base.toNat % 128 == 0 && 1 ≤ g.lines && g.lines ≤ 2 ^ 25 && segChipOk s.fabric.group.self g)
    && ((List.range e.nseg).all fun i => (List.range i).all fun j =>
        match e.segs[i]?, e.segs[j]? with
        | some a, some b => segsApart a b
        | _, _ => true)

/-- A page of a local segment, as the tables give it: BUNDLED, under the entry's index (R251). -/
def segmentPageOk (s : State) (c entry : Nat) (a : Dword) : Bool :=
  addressForm a && match walkTables s a (coreAsid s c) with
    | .leaf _ e level => (leafPage a e (levelLog2 level)).cls == 2 && (leafPage a e (levelLog2 level)).cidx == entry
    | _ => false

/-- Every page of an entry's segments on this chip obeys R251. -/
def pagesOk (s : State) (c entry : Nat) (e : BundleEntry) : Bool :=
  e.segs.all fun g => g.chip != s.fabric.group.self
    || (List.range ((g.start + 128 * g.lines - 1) / 0x10000 - g.start / 0x10000 + 1)).all fun i =>
        segmentPageOk s c entry (BitVec.ofNat 64 ((g.start / 0x10000 + i) * 0x10000))

/-- The homes of a bundle's segments. -/
def homesOf (s : State) (bid : BitVec 24) (nseg : Nat) : List Home := (List.range nseg).map (homeAt s bid)

/-! Landing (R254, R255). -/

/-- Whether a store may land now (R254 step 2, R259). -/
def storeCanLand (s : State) (b : BStore) : Bool :=
  let t := tagAt s (b.pa / 128)
  let h := homeAt s b.bid b.seg
  let ver := if t.kind = 1 then t.ver else 0
  (ver == b.version || !newer ver h.committed) && (ver == b.version || poolRoom s b.pa)

/-- A home in SEALING moves to LANDED when every announced store has landed, and the master home decides when every home
of FMASK has (R255 steps 2 and 3). -/
def sealAdvance (s : State) (bid : BitVec 24) : State :=
  let s1 := { s with homes := s.homes.map fun h =>
    if h.bid == bid && h.state == .sealing && h.nland == h.nexpect then { h with state := .landed } else h }
  let m := homeAt s1 bid 0
  if m.opener.isSome && m.state != .idle && !m.decided && (m.state == .sealing || m.state == .landed)
      && (List.range 64).all fun g => !m.fmask.getLsbD g || (homeAt s1 bid g).state == .landed
  then setHome s1 { m with decided := true }
  else s1

/-- A landing counted at a home, which the first one opens (R254). -/
def countLanding (s : State) (bid : BitVec 24) (seg : Nat) (v : BitVec 16) : State :=
  let h := homeAt s bid seg
  setHome s (if h.state = .idle then { h with pending := v, state := .opened, nland := 1 } else { h with nland := h.nland + 1 })

/-- A store under an open version lands at its home (R254). -/
def landStore (s : State) (b : BStore) : State :=
  let line := b.pa / 128
  let t := tagAt s line
  let ver := if t.kind = 1 then t.ver else 0
  let fresh := ver != b.version
  let current := lineOf (physRead s (line * 128) 128)
  let t' : LineTag :=
    { kind := 1, bid := b.bid, ver := b.version, seg := BitVec.ofNat 6 b.seg,
      cmask := if fresh then b.mask else t.cmask ||| b.mask, rver := if fresh then ver else t.rver }
  let s1 := { s with retained := if fresh then kset s.retained line current else s.retained
                     tags := kset s.tags line t' }
  let s2 := physWrite s1 b.pa b.bytes
  sealAdvance (countLanding s2 b.bid b.seg b.version) b.bid

/-- BUNDLED_STORE_LAND: the oldest store that may land does (R254). -/
def execBundledStoreLand (s : State) : Out :=
  match s.bstores.find? (storeCanLand s) with
  | none => .next s
  | some b => .next (wroteFor (ackWrite (landStore { s with bstores := dropFirst (storeCanLand s) s.bstores } b) b.ack) b.core b.st)

/-! Commit and abort (R255, R256). -/

/-- The lines at version `v` of a segment. -/
def atVersion (t : LineTag) (bid : BitVec 24) (seg : Option Nat) (v : BitVec 16) : Bool :=
  t.kind == 1 && t.bid == bid && t.ver == v && (match seg with | none => true | some g => t.seg.toNat == g)

/-- A home commits its pending version and frees its retained copies (R255 step 4). -/
def commitHome (s : State) (bid : BitVec 24) (seg : Nat) (v : BitVec 16) : State :=
  let mine := s.tags.filter fun e => atVersion e.2 bid (some seg) v
  let s1 := { s with
    retained := s.retained.filter fun e => !mine.any fun t => t.1 == e.1
    tags := s.tags.map fun e => if atVersion e.2 bid (some seg) v then (e.1, { e.2 with rver := v }) else e }
  setHome s1 { homeAt s1 bid seg with committed := v, state := .idle, nland := 0, nexpect := 0 }

/-- The version being published by a bundle's master home. -/
def publishing (s : State) (bid : BitVec 24) : BitVec 16 := (homeAt s bid 0).committed + 1

/-- The versions that a core's operators have open, with their regions: a version stays open while its operator is cut
(R376). -/
def openOn (k : Core) : List (OpenVersion × Nat) :=
  (match k.version, k.op with
    | some v, some o => [(v, o.rid)]
    | some v, none => [(v, 0)]
    | none, _ => [])
  ++ k.saved.filterMap fun x => x.version.map fun v => (v, x.op.rid)

/-- The version of a bundle that a core of this chip has open, with its region. -/
def openerOf (s : State) (bid : BitVec 24) : Option (OpenVersion × Nat) :=
  (List.range 512).findSome? fun c => (openOn (coreAt s c)).find? fun v => v.1.bid == bid

/-- The segments the opener's entry gives a bundle; a bundle no core of this chip has open shows the segments it has records of. -/
def segsOfBundle (s : State) (bid : BitVec 24) : Nat :=
  match openerOf s bid with
  | some (v, rid) => match regionAt s rid with
    | some r => (bundleEntryAt s (r.btab + 1040 * v.entry)).nseg
    | none => 1
  | none => (s.homes.filter fun h => h.bid == bid).foldl (fun n h => max n (h.seg + 1)) 1

/-- The version that the opener of a bundle on this chip has open. -/
def openVersionOf (s : State) (bid : BitVec 24) : Option (BitVec 16) := (openerOf s bid).map fun v => v.1.version

/-- When every reachable home has committed, the master home clears OPENER, DECIDED and FMASK together (R255 step 4). -/
def closeMaster (s : State) (bid : BitVec 24) (v : BitVec 16) : State :=
  if (homesOf s bid (segsOfBundle s bid)).all fun h => h.lost || h.committed == v then
    setHome s { homeAt s bid 0 with decided := false, fmask := 0, opener := none }
  else s

/-- HOME_COMMIT: a home whose version is decided commits it (R255). For a version that no core of this chip has open, the event is the
word of the other chips: the first one at a master home is its decision, and a home commits what it holds, once every store on its
way to it has landed (log 19). -/
def execHomeCommit (bid : BitVec 24) (seg : Nat) (s : State) : Out :=
  match openVersionOf s bid with
  | some v =>
    if (homeAt s bid 0).decided && (homeAt s bid seg).committed != v && seg < segsOfBundle s bid then
      .next (closeMaster (commitHome s bid seg v) bid v)
    else .next s
  | none =>
    let h := homeAt s bid seg
    if h.state = .idle || s.bstores.any fun b => b.bid == bid && b.seg == seg then .next s
    else if seg = 0 && !h.decided then .next (setHome s { h with decided := true })
    else .next (closeMaster (commitHome s bid seg h.pending) bid h.pending)

/-- An abort restores each line at the version and clears every home record (R256). Stores still on their way are dropped, and those
of other chips acknowledged. -/
def abortVersion (s : State) (bid : BitVec 24) (v : BitVec 16) : State :=
  let mine (b : BStore) : Bool := b.bid == bid && b.version == v
  let s0 := (s.bstores.filter mine).foldl (fun s b => ackWrite s b.ack) { s with bstores := s.bstores.filter fun b => !mine b }
  let s1 := s0.tags.foldl (fun s e =>
    let t := tagAt s0 e.1
    if atVersion t bid none v then
      let s := match kget s.retained e.1 with
        | some l => { physWrite s (e.1 * 128) (lineBytes l) with retained := kdel s.retained e.1 }
        | none => s
      { s with tags := kset s.tags e.1 { t with ver := t.rver } }
    else s) s0
  { s1 with homes := s1.homes.map fun h => if h.bid == bid then
      { h with state := .idle, nland := 0, nexpect := 0, decided := false, fmask := 0, opener := none } else h }

/-- The core's version is no longer open (R118, R119). -/
def clearVersion (k : Core) : Core := { k with version := none, sr := { k.sr with bopenid := 0 } }

/-- The version can no longer be aborted (R255 step 3, R256). -/
def isDecided (s : State) (bid : BitVec 24) : Bool := (homeAt s bid 0).decided

/-- A version that is open and not decided is aborted when its core gives it up (R256, R371); a decided one is committed by its homes
without the core. -/
def abortOpen (s : State) (c : Nat) : State :=
  match (coreAt s c).version with
  | none => s
  | some v => modCore (if isDecided s v.bid then s else abortVersion s v.bid v.version) c clearVersion

/-- A version that a core of another chip has open is aborted at this chip's homes of its bundle, unless its master home here has
decided it (R255, R256; log 19). -/
def abortForeign (s : State) (bid : BitVec 24) : State :=
  if isDecided s bid then s
  else
    let s1 := match s.homes.find? fun h => h.bid == bid && h.state != .idle with
      | some h => abortVersion s bid h.pending
      | none => s
    if (s1.homes.any fun h => h.bid == bid && h.seg == 0) then setHome s1 { homeAt s1 bid 0 with opener := none } else s1

/-- A home lost: before the decision the version is aborted at every reachable home once it is being sealed; afterwards the
loss is only reported, and the record kept of a lost master home shows the version committed, as the outcome is (R255). The chip whose
core has the version open reports it. -/
def homeLost (s : State) (bid : BitVec 24) (seg : Nat) : State :=
  match openVersionOf s bid with
  | none => abortForeign s bid
  | some v =>
    let m := homeAt s bid 0
    let s1 := writeRecord s
      { src := 24, code := 0x0205, sev := 2, core := none, rid := 0, asid := none,
        body := leBytes 2 0 ++ leBytes 4 bid.toNat ++ leBytes 2 v.toNat ++ leBytes 2 seg ++ leBytes 1 m.decided.toNat, ext := [] }
    let h := homeAt s1 bid seg
    let s2 := setHome s1 { h with lost := true, committed := if m.decided && seg = 0 then v else h.committed }
    let sealing := m.state == .sealing || m.state == .landed
    if m.decided then closeMaster s2 bid v
    else if sealing && (seg == 0 || m.fmask.getLsbD seg) then abortVersion s2 bid v
    else s2

/-- HOME_LOST. -/
def execHomeLost (bid : BitVec 24) (seg : Nat) (s : State) : Out := .next (homeLost s bid seg)

/-! BOPEN (R117). -/

/-- BOPEN's first cases, decided at the core, then the request to the master home. -/
def bopenAt (bid : BitVec 24) : X (Dword × Await) := do
  let s ← get
  let c ← myNumber
  require (!(coreAt s c).atS) .illegal ((coreAt s c).stream .c).wordAddr
  match regionOf s c with
  | none => fail .bundle 0
  | some r =>
    match findBundle s r bid with
    | none => fail .bundle 0
    | some (i, e) => do
      require (entryOk s (r.btab + 1040 * i) e && pagesOk s c i e) .bundle 0
      require ((coreAt s c).version.isNone) .bundle 0
      pure (0, .bopen bid)

def execBopen (m : CM) (a b : BitVec 5) (s : State) : Out :=
  interlocked m [a, b] (.g a) (8, false) s fun k => bopenAt ((k.readG b).extractLsb' 0 24)

/-- The version opened: BOPENID and the core's running mask (R117, R254). -/
def openVersion (s : State) (c : Nat) (bid : BitVec 24) (entry : Nat) (v : BitVec 16) : State :=
  modCore s c fun k => { k with
    version := some ⟨bid, entry, v, 0, [], false⟩
    sr := { k.sr with bopenid := BitVec.ofNat 64 (2 ^ 63 + bid.toNat * 2 ^ 16 + v.toNat) } }

/-- The entry in flight that satisfies `p` completes with a value (R104). -/
def completeFlight (s : State) (c : Nat) (p : InFlight → Bool) (x : Dword) : State :=
  match (coreAt s c).inflight.find? p with
  | none => s
  | some e => tryTrap (modCore s c fun k =>
      let k1 : Core := { k with inflight := dropFirst p k.inflight }
      k1.arrive { e with val := x }) c

/-- The entry in flight that satisfies `p` fails; the fault is raised at its retirement, which is now (R104, R106). -/
def failFlight (s : State) (c : Nat) (p : InFlight → Bool) (e : Exc) : State :=
  let mark (i : InFlight) : InFlight := { i with wait := .ready, fault := some e }
  let s1 := modCore s c fun k => { k with inflight := modFirst p mark k.inflight }
  match (coreAt s c).raising with
  | some _ => tryTrap s1 c
  | none => raise s1 c .c e

/-- The bundle that an open request in flight names. -/
def bopenOf (e : InFlight) : Option (BitVec 24) :=
  match e.wait with
  | .bopen b => some b
  | _ => none

/-- A master home on this chip answers an open request of another chip's core: a free bundle is open from now on, with that core as
its OPENER (R117, R253). -/
def openForeign (s : State) (chip : BitVec 12) (core : BitVec 9) (bid : BitVec 24) : State :=
  let h := homeAt s bid 0
  if h.lost || h.opener.isSome then s else setHome s { h with opener := some (chip, core) }

/-- The answer of a master home to the open request of this core (R117). The core may have opened another version since it asked. -/
def takeAnswer (answer : RemoteAnswer) (s : State) : Out :=
  let c := s.cur.core.val
  match (coreAt s c).inflight.findSome? bopenOf with
  | none => .next s
  | some bid =>
    let mine (e : InFlight) : Bool := e.wait == .bopen bid
    let busy := completeFlight s c mine (BitVec.ofNat 64 (2 ^ 63))
    let unreachable := failFlight s c mine ⟨.bundle, 0, 0, 0⟩
    if (coreAt s c).version.isSome then .next unreachable
    else match (regionOf s c).bind fun r => findBundle s r bid with
    | none => .next unreachable
    | some (entry, e) =>
      let chip := (e.segs.map (·.chip)).headD s.fabric.group.self
      let opened (committed : BitVec 16) : State :=
        let v := committed + 1
        let h := homeAt s bid 0
        let s1 := setHome s { h with committed := committed, opener := some (s.fabric.group.self, BitVec.ofNat 9 c) }
        completeFlight (openVersion s1 c bid entry v) c mine (BitVec.ofNat 64 v.toNat)
      if chip == s.fabric.group.self then
        let h := homeAt s bid 0
        if h.lost then .next unreachable
        else if h.opener.isSome then .next busy
        else .next (opened h.committed)
      else if !inGroup s chip then .next unreachable
      else match answer with
        | .here => .next s
        | .opened committed => .next (opened committed)
        | .busy => .next busy
        | _ => .next unreachable

/-- BOPEN_ANSWER: the master home's answer to the core's open request (R117), or at this chip's master homes the request or the abort
of a core of another chip (R253, R256). -/
def execBopenAnswer (answer : RemoteAnswer) (s : State) : Out :=
  match answer with
  | .ask chip core bid => .next (openForeign s chip core bid)
  | .abort bid => .next (if (openVersionOf s bid).isNone then abortForeign s bid else s)
  | x => takeAnswer x s

/-! BSEAL and BABORT (R118, R119). -/

/-- The seal sent to the homes: NEXPECT and SEALING at each home of M, FMASK at the master (R255 step 1). -/
def sealHomes (s : State) (v : OpenVersion) : State :=
  let s1 := (List.range 64).foldl (fun s g =>
    if v.mask.getLsbD g || g = 0 then
      let h := homeAt s v.bid g
      setHome s { h with state := .sealing, pending := v.version, nexpect := (kget v.sent g).getD 0
                         nland := if h.state = .idle then 0 else h.nland }
    else s) s
  setHome s1 { homeAt s1 v.bid 0 with fmask := v.mask }

/-- A home that the seal needs is already lost. -/
def sealLost (s : State) (v : OpenVersion) : Bool :=
  (List.range 64).any fun g => (v.mask.getLsbD g || g = 0) && (homeAt s v.bid g).lost

/-- BSEAL at issue (R118). A second one while the first still waits finds no version that takes stores, and raises BUNDLE
(DESIGN CHOICE, log 67). -/
def bsealAt : X (Dword × Await) := do
  let s ← get
  let c ← myNumber
  require (!(coreAt s c).atS) .illegal ((coreAt s c).stream .c).wordAddr
  match (coreAt s c).version with
  | none => fail .bundle 0
  | some v => do
    require (!v.sealing) .bundle 0
    modMe fun k => { k with version := some { v with sealing := true } }
    modify fun s => if sealLost s v then abortVersion s v.bid v.version else sealAdvance (sealHomes s v) v.bid
    pure (0, .bseal)

def execBseal (m : CM) (a : BitVec 5) (s : State) : Out := interlocked m [a] (.g a) (8, false) s fun _ => bsealAt

/-- BSEAL_COMPLETE: 0 when the version is the committed version everywhere, 1 when it was aborted (R118). The seal completes at the
homes also when a taken branch has killed the BSEAL, which had issued: BOPENID is cleared and no register written (DESIGN CHOICE,
log 67). -/
def execBsealComplete (s : State) : Out :=
  let c := s.cur.core.val
  match (coreAt s c).version with
  | none => .next s
  | some v =>
    let m := homeAt s v.bid 0
    if v.sealing && m.opener.isNone then
      .next (completeFlight (modCore s c clearVersion) c (fun e => e.wait == .bseal)
        (if m.committed = v.version then 0 else 1))
    else .next s

/-- A store under this core's open version is on its way to another chip. -/
def taggedOut (s : State) (c : Nat) : Bool := (s.fabric.waiting ++ s.fabric.inFlight).any fun r => r.core == c && r.tagged.isSome

/-- A waiting BABORT goes on once the version's stores to other chips have landed or been dropped: the version is aborted, and a BSEAL
that waits for it is answered as for any abort (R118, R119). A version that its seal has decided meanwhile stays (R256). -/
def settleBabort (s : State) (c : Nat) : State :=
  match (coreAt s c).block, (coreAt s c).version with
  | some ⟨.babort, _, _, _⟩, some v =>
    if taggedOut s c && !isDecided s v.bid then s
    else
      let s1 := if isDecided s v.bid then s else completeFlight (abortOpen s c) c (fun e => e.wait == .bseal) 1
      modCore s1 c Core.unblock
  | some ⟨.babort, _, _, _⟩, none => modCore s c Core.unblock
  | _, _ => s

/-- BABORT: with no version open, or with one that is decided, it changes nothing; otherwise the version takes no more stores while
it waits for its stores, and the retained version is restored everywhere (R119, R256). -/
def execBabort (m : CM) (s : State) : Out :=
  runX .c (do
    let k ← me
    waitFor (k.canIssue m [])
    require (!k.atS) .illegal (k.stream .c).wordAddr
    modMe fun k => k.blockOn m s.cur.len .babort
    modify fun s => settleBabort s s.cur.core.val) s

end Sys2Proof.Machine
end

