-- ==== Sys2Proof/Machine/Fence.lean ====
section
/-! DEFINITION. Fences and phases: FENCE, XFENCE and PHASE with the events that complete them (R114 to R116, R242, R244,
R246 to R250). The control stream's accesses and every engine's local writes reach memory, or the queues of stores on their
way (R254, R261), when they are made; a fence therefore waits for those queues, for remote accesses and for loads whose
value has not come (log 9). -/

namespace Sys2Proof.Machine

/-- At S this instruction raises ILLEGAL (R369). -/
def notAtS (k : Core) : X Unit := require (!k.atS) .illegal (k.stream .c).wordAddr

/-! FENCE and XFENCE. -/

/-- Every load and atomic of the control stream has its value (R114). -/
def loadsDone (k : Core) : Bool :=
  k.inflight.all fun e => match e.wait with
    | .remote _ => false
    | _ => true

/-- Every store that the core put on its way to a home or a replica has landed. -/
def storesLanded (s : State) (c : Nat) : Bool :=
  !(s.rstores.any fun w => w.core == c) && !(s.bstores.any fun b => b.core == c)

/-- The remote accesses of the control stream have been performed; only a fence of scope group or system waits for the writes (R298). -/
def remoteDone (s : State) (c : Nat) (scope : BitVec 3) : Bool :=
  loadsDone (coreAt s c) && (scope.toNat < 4 || !remoteWritesOut s c .c)

/-- Every access of the control path has been performed with respect to the scope (R114, R298). -/
def controlDone (s : State) (c : Nat) (scope : BitVec 3) : Bool := storesLanded s c && remoteDone s c scope

/-- A fence of scope group or system reports the peers that failed with stores of this core outstanding (R114, R244). -/
def reportLost (s : State) (c : Nat) (scope : BitVec 3) : State :=
  if scope.toNat < 4 then s
  else
    let lost := (coreAt s c).lostPeers
    let s1 := lost.foldl (fun s chip => writeRecord s
      { coreRec s c 0x0204 2 (leBytes 2 0 ++ leBytes 2 chip.toNat) [] with src := 16 }) s
    modCore s1 c fun k => { k with lostPeers := [], sr := { k.sr with peerlost := k.sr.peerlost || !lost.isEmpty } }

def execFence (m : CM) (scope : BitVec 3) (s : State) : Out := blocking m [] s fun _ => pure (.fence scope)

/-- FENCE_COMPLETE (R114): for scope cluster or wider the cached PLAIN and REPLICATED lines are dropped (R112). -/
def execFenceComplete (s : State) : Out :=
  let c := s.cur.core.val
  match (coreAt s c).block with
  | some ⟨.fence scope, _, _, _⟩ =>
    if controlDone s c scope then
      .next (modCore (reportLost s c scope) c fun k => (if scope = 0 then k else dcInvalidate k).unblock)
    else .next s
  | _ => .next s

/-- Dirty PHASED lines of the cache can go to the pending store (R259). -/
def canWriteBack (s : State) (c : Nat) : Bool := poolFits s c (dirtyLines (coreAt s c).dcache)

/-- XFENCE: masks of zero are refused by the field checks (R115). -/
def execXfence (m : CM) (scope : BitVec 3) (src dst : BitVec 7) (s : State) : Out :=
  blocking m [] s fun _ => pure (.xfence scope src dst)

/-- Every access of the A set of R115 is visible: those of the control path if FROM holds it, its remote accesses also where FROM holds
the copy class that carries them (R297), and the stores that retired engine instructions have put on their way. -/
def xfenceReady (s : State) (c : Nat) (scope : BitVec 3) (src : BitVec 7) : Bool :=
  (!src.getLsbD 0 || canWriteBack s c) && (!(src.getLsbD 0 || src.getLsbD 3) || remoteDone s c scope) && storesLanded s c

/-- XFENCE_COMPLETE (R115, R242). Control bytes held in the cache go to the pending store, and with c in TO the cache
is emptied, so that the control path observes A. -/
def execXfenceComplete (s : State) : Out :=
  let c := s.cur.core.val
  match (coreAt s c).block with
  | some ⟨.xfence scope src dst, _, _, _⟩ =>
    if xfenceReady s c scope src && (!dst.getLsbD 0 || canWriteBack s c) then
      let s1 := if src.getLsbD 0 || dst.getLsbD 0 then dcWriteBack s c else s
      .next (modCore (reportLost s1 c scope) c fun k =>
        (if dst.getLsbD 0 then { k with dcache := [] } else k).unblock)
    else .next s
  | _ => .next s

/-! PHASE. -/

/-- The phase group of a core (R246). -/
def groupOf (s : State) (c : Nat) : Option Nat :=
  (List.range 256).find? fun g => (vget s.phase g PhaseGroup.reset).members.getLsbD c

/-- An issued engine instruction that stores by virtual address. -/
def storesByAddress : EngineOp → Bool
  | .vec o => match o.kind with
    | .write _ => o.ring.isNone
    | .scat _ => true
    | _ => false
  | .mat o => match o.kind with
    | .drn .. => o.ring.isNone
    | _ => false
  | .copy o => o.kind.usesD && o.ringD.isNone
  | .walk w => w.cfg.mode && !w.waiting
  | .none => false

/-- The storing instructions that had issued before a PHASE (R116): whichever pages they store to, the wait for them is only longer,
which is time. -/
def storingOps (s : State) (c : Nat) : List (StreamId × BitVec 32) :=
  let k := coreAt s c
  [StreamId.w, .v, .m, .k].filterMap fun st =>
    match opLoc (k.stream st).op with
    | some l => if storesByAddress (k.stream st).op then some (st, l.seq) else none
    | none => none

/-- One of them is unfinished. -/
def stillStoring (k : Core) (before : List (StreamId × BitVec 32)) : Bool :=
  before.any fun b => ((opLoc (k.stream b.1).op).map (·.seq)) == some b.2

/-- Steps 1 and 2 of R116: once its earlier stores are in the pending store, the core arrives at its group. -/
def phaseArrive (s : State) (c : Nat) : State :=
  match (coreAt s c).block, groupOf s c with
  | some ⟨.phase before, _, _, _⟩, some g =>
    if (coreAt s c).phaseArrived || stillStoring (coreAt s c) before || !canWriteBack s c then s
    else
      let s1 := dcWriteBack s c
      modCore { s1 with phase := vmod s1.phase g fun p => { p with arrived := p.arrived ||| BitVec.ofNat 512 (2 ^ c) } } c
        fun k => { k with phaseArrived := true }
  | _, _ => s

def execPhase (m : CM) (s : State) : Out :=
  runX .c (do
    let k ← me
    waitFor (k.canIssue m [])
    notAtS k
    let c ← myNumber
    require (groupOf s c).isSome .phase 0
    modMe fun k => k.blockOn m s.cur.len (.phase (storingOps s c))
    modify fun s => phaseArrive s c) s

/-- A group whose members have all arrived commits. -/
def tryCommit (s : State) (g : Nat) : State :=
  let pg := vget s.phase g PhaseGroup.reset
  if pg.members != 0 && pg.arrived == pg.members then commitPhase s g else s

/-- PHASE_COMMIT (R249): members whose earlier stores have ended meanwhile arrive first. -/
def execPhaseCommit (g : Nat) (s : State) : Out :=
  let pg := vget s.phase g PhaseGroup.reset
  let s1 := (List.range 512).foldl (fun s c => if pg.members.getLsbD c then phaseArrive s c else s) s
  .next (tryCommit s1 g)

/-- A member removed from its group: its pending copies are discarded, and the phase may then commit (R250). -/
def leaveGroup (s : State) (g c : Nat) : State :=
  let bit := BitVec.ofNat 512 (2 ^ c)
  let s1 := { s with
    pending := s.pending.filter fun p => !(p.group == g && p.core == c)
    phase := vmod s.phase g fun p => { p with members := p.members &&& ~~~bit, arrived := p.arrived &&& ~~~bit } }
  tryCommit (modCore s1 c fun k => { k with
    dcache := k.dcache.filter fun l => !l.phased, phaseArrived := false }) g

end Sys2Proof.Machine
end

