-- ==== Sys2Proof/Machine/Branch.lean ====
section
/-! DEFINITION. Fetching lines (R17, R20, R44, R46, R266) and branches (R120 to R122). -/

namespace Sys2Proof.Machine

/-! Fetch. -/

/-- The slots at which decoding of a line from slot 1 on finds an instruction (R44, R45). -/
def startsFrom : Nat → List Word → Nat → List Nat
  | 0, _, _ => []
  | fuel + 1, words, n =>
    if 16 ≤ n then []
    else if words.getD n 0 = 0 then startsFrom fuel words (n + 1)
    else match lenOfCode (fld (words.getD n 0) 22 2).toNat with
      | none => [n]
      | some len => n :: startsFrom fuel words (n + len)

def starts (words : List Word) : List Nat := startsFrom 16 words 1

/-- Line `idx` fetched by stream `st` and checked (R17, R120): from memory, or from the splice buffer (R266). -/
def fetchCode (c : Nat) (st : StreamId) (idx : BitVec 24) : X CodeLine := do
  let s ← get
  let k := coreAt s c
  let a := lineAddr s c idx
  let words ← if k.fusedNow then
      match k.splice.bind fun p => p.lines[idx.toNat]? with
      | some ws => pure ws
      | none => fail .fetch a
    else fetchLine c a
  lineParity c st a
  require (linkOk st words) .fetch a
  pure ⟨idx, a, words, lineSide k idx⟩

/-- A line fetched for issue at one of its slots, which must start an instruction (R26, R44). -/
def fetchTarget (c : Nat) (st : StreamId) (idx : BitVec 24) (slot : Nat) : X CodeLine := do
  let l ← fetchCode c st idx
  require ((starts l.words).contains slot) .fetch l.addr
  pure l

/-- A stream that may fetch: it runs, has no line, and its core is not stopped, stopping or being emptied (R30, R375). -/
def canFetch (k : Core) (st : StreamId) : Bool :=
  !k.stopped && k.raising.isNone && !k.draining && (k.stream st).run == .run
    && (k.stream st).line.isNone

/-- LINE_FETCH: the next line, from NEXT, the steer queue, or the place a resumption or redirection names (R17, R20). -/
def execLineFetch (st : StreamId) (s : State) : Out :=
  let c := s.cur.core.val
  let k := coreAt s c
  let x := k.stream st
  if canFetch k st then
    match x.next with
    | .none => .next (setCore s c (k.settle st))
    | .at idx => runX st (do
        let l ← fetchCode c st idx
        modMe fun k => (k.modStream st (·.seek l 1)).settle st) s
    | .steered =>
      match x.steer with
      | [] => .next s
      | idx :: rest => runX st (do
          let l ← fetchCode c st idx
          modMe fun k => (k.modStream st fun x => { x.seek l 1 with steer := rest }).settle st) s
    | .resume p => runX st (do
        require (lineAddr s c p.lineIdx == p.addr) .fetch p.addr
        let l ← fetchTarget c st p.lineIdx p.slot
        modMe fun k => k.modStream st fun x => { x with line := some l, slot := p.slot }) s
  else .next s

/-! Branches. -/

/-- A write of bN by PBR or PBRR, with its sequence number noted (R120, R121). -/
def setTarget (m : CM) (n : BitVec 3) (regs : List (BitVec 5)) (s : State) (x : Core → BitVec 28) : Out :=
  let c := s.cur.core.val
  let seq := ((coreAt s c).stream .c).here.seq
  ctl m regs s fun k =>
    { k.putB n (x k) with pbrSeq := (n, seq) :: k.pbrSeq.filter fun e => e.1 != n }

def execPbr (m : CM) (n : BitVec 3) (target : BitVec 28) (s : State) : Out := setTarget m n [] s fun _ => target
def execPbrr (m : CM) (n : BitVec 3) (b : BitVec 5) (s : State) : Out :=
  setTarget m n [b] s fun k => (k.readG b).extractLsb' 0 28

/-- The cycles a taken branch loses (R121). -/
def branchLoss (k : Core) (n : BitVec 3) : Nat :=
  match k.pbrSeq.find? fun e => e.1 == n with
  | none => 0
  | some (_, seq) => 3 - ((k.stream .c).here.seq - seq).toNat

/-- A taken branch to bN: the target is fetched and checked, squashable instructions in flight are killed, and issue goes on
at the target (R106, R120). -/
def takeBranch (m : CM) (n : BitVec 3) (regs : List (BitVec 5)) (f : Core → Core) (s : State) : Out :=
  runX .c (do
    let k ← me
    waitFor (k.canIssue m regs)
    let c ← myNumber
    let b := k.readB n
    let slot := (b.extractLsb' 24 4).toNat
    let l ← fetchTarget c .c (b.extractLsb' 0 24) slot
    modMe fun k =>
      let k1 := { (k.issue m s.cur.len).kill with stall := branchLoss k n }
      (f (k1.modStream .c fun x => { x with line := some l, slot := slot })).retire .c m.sync) s

/-- The conditions of BR (R120). -/
def branchTaken (cond : BitVec 2) (x : Dword) : Bool :=
  match cond.toNat with
  | 0 => x == 0
  | 1 => x != 0
  | 2 => x.toInt < 0
  | _ => 0 ≤ x.toInt

def execBr (m : CM) (n : BitVec 3) (b : BitVec 5) (cond : BitVec 2) (s : State) : Out :=
  let k := coreAt s s.cur.core.val
  if branchTaken cond (k.readG b) then takeBranch m n [b] id s else ctl m [b] s id

def execBra (m : CM) (n : BitVec 3) (s : State) : Out := takeBranch m n [] id s

/-- The return value of CALL (R122). -/
def callLink (x : Stream) (len : Nat) : Dword :=
  match x.line with
  | none => 0
  | some l =>
    match nextSlot l.words (x.slot + len) with
    | some i => BitVec.ofNat 64 (i * 2 ^ 24 + l.idx.toNat)
    | none => match lineNext l.words with
      | .at idx => BitVec.ofNat 64 (2 ^ 24 + idx.toNat)
      | _ => 0

def execCall (m : CM) (n : BitVec 3) (s : State) : Out :=
  let link := callLink ((coreAt s s.cur.core.val).stream .c) s.cur.len
  takeBranch m n [31] (fun k => k.writeG 31 link) s

end Sys2Proof.Machine
end

