-- ==== Sys2Proof/Machine/StreamCtl.lean ====
section
/-! DEFINITION. Starting, steering and joining engine streams, completion counters and circular buffers (R19, R20, R24,
R25, R123 to R127). -/

namespace Sys2Proof.Machine

/-- The streams of a MASK (R102). -/
def maskStreams (mask : BitVec 4) : List StreamId :=
  ((List.range 4).filter fun i => mask.getLsbD i).map fun i => streamOf (i + 1)

/-! FORK, RDV, STEER, EARG and WAITCC (R123 to R125). -/

/-- A stream started at a line, or at the head of its steer queue (R19, R123). -/
def Stream.start (x : Stream) (n : NextLine) : Stream :=
  { x with run := .run, line := none, slot := 1, next := n, mpc := 0, progress := true }

/-- The streams of a FORK started: the lowest at LINE, the others from their steer queues. -/
def forkStreams (k : Core) (line : BitVec 24) : List StreamId → Core
  | [] => k
  | st :: rest => rest.foldl (fun k t => k.modStream t (·.start .steered)) (k.modStream st (·.start (.at line)))

def busyRun (r : RunState) : Bool := r == .run || r == .ended

def execFork (m : CM) (line : BitVec 24) (mask : BitVec 4) (s : State) : Out :=
  runX .c (do
    let k ← me
    waitFor (k.canIssue m [])
    notAtS k
    require (!(maskStreams mask).any fun st => busyRun (k.stream st).run) .streambusy 0
    if (maskStreams mask).contains .m then do
      modify fun s => giveUpLease s s.cur.core.val
      modMe fun k => { k with wantLease := none, leaseLeft := 0 }
    modMe fun k => (forkStreams (k.issue m s.cur.len) line (maskStreams mask)).retire .c m.sync) s

/-- A stream joined: ENDED to IDLE, its steer queue emptied (R20, R124). -/
def Stream.join (x : Stream) : Stream := if x.run = .ended then { x with run := .idle, steer := [] } else x

def execRdv (m : CM) (mask : BitVec 4) (s : State) : Out :=
  blocking m [] s fun k => do
    notAtS k
    pure (.rdv mask)

/-- RDV_COMPLETE (R124). -/
def execRdvComplete (s : State) : Out :=
  let c := s.cur.core.val
  let k := coreAt s c
  match k.block with
  | some ⟨.rdv mask, _, _, _⟩ =>
    let sts := maskStreams mask
    if sts.all fun st => (k.stream st).run == .ended || (k.stream st).run == .idle then
      .next (setCore s c (sts.foldl (fun k st => k.modStream st Stream.join) k).unblock)
    else .next s
  | _ => .next s

/-- A steer queue has room (R20). -/
def steerRoom (k : Core) (st : StreamId) : Bool := (k.stream st).steer.length < 8

def appendSteer (k : Core) (st : StreamId) (line : BitVec 24) : Core :=
  k.modStream st fun x => { x with steer := x.steer ++ [line] }

/-- STEER: the entry is appended, or the control stream stalls on a full queue (R20, R125). -/
def steer (m : CM) (e : BitVec 2) (regs : List (BitVec 5)) (line : Core → BitVec 24) (s : State) : Out :=
  runX .c (do
    let k ← me
    waitFor (k.canIssue m regs)
    notAtS k
    modMe fun k =>
      if steerRoom k (engineOf e) then
        (appendSteer (k.issue m s.cur.len) (engineOf e) (line k)).retire .c m.sync
      else k.blockOn m s.cur.len (.steer e (line k))) s

def execSteer (m : CM) (e : BitVec 2) (b : BitVec 5) (s : State) : Out :=
  steer m e [b] (fun k => (k.readG b).extractLsb' 0 24) s
def execSteerImm (m : CM) (e : BitVec 2) (line : BitVec 24) (s : State) : Out := steer m e [] (fun _ => line) s

/-- STEER_APPEND (R20). -/
def execSteerAppend (s : State) : Out :=
  let c := s.cur.core.val
  let k := coreAt s c
  match k.block with
  | some ⟨.steer e line, _, _, _⟩ =>
    if steerRoom k (engineOf e) then .next (setCore s c (appendSteer k (engineOf e) line).unblock) else .next s
  | _ => .next s

/-- EARG: the register is written at the end of the issue cycle (R125). -/
def execEarg (m : CM) (e : BitVec 2) (b : BitVec 5) (n : BitVec 4) (s : State) : Out :=
  let k := coreAt s s.cur.core.val
  if k.canIssue m [b] && k.atS then .next (raise s s.cur.core.val .c ⟨.illegal, 0, (k.stream .c).wordAddr, 0⟩)
  else ctlFlight m [b] s (.param (engineOf e) n) (fun k => k.readG b) 1

def execWaitcc (m : CM) (n : BitVec 3) (value : BitVec 8) (s : State) : Out :=
  blocking m [] s fun k => do
    notAtS k
    pure (.waitcc n value)

/-- WAITCC_COMPLETE (R25, R125). -/
def execWaitccComplete (s : State) : Out :=
  let c := s.cur.core.val
  let k := coreAt s c
  match k.block with
  | some ⟨.waitcc n value, _, _, _⟩ => if k.readCc n ≤ value.toNat then .next (setCore s c k.unblock) else .next s
  | _ => .next s

/-! Circular-buffer handles (R24, R126, R127). A shared handle is held once, by the cluster. -/

def sharedCb (s : State) (c : Nat) (h : BitVec 4) : Cb := vget (clusterAt s (clusterOf c)).cb h.toNat Cb.zero
def privateCb (s : State) (c : Nat) (h : BitVec 4) : Cb := vget (coreAt s c).cb h.toNat Cb.zero

/-- A handle as a core names it. -/
def cbAt (s : State) (c : Nat) (h : BitVec 4) : Cb :=
  let x := sharedCb s c h
  if x.valid then x else privateCb s c h

/-- A handle changed where it is held. -/
def modCb (s : State) (c : Nat) (h : BitVec 4) (f : Cb → Cb) : State :=
  if (sharedCb s c h).valid then modCluster s (clusterOf c) fun l => { l with cb := vmod l.cb h.toNat f }
  else modCore s c fun k => { k with cb := vmod k.cb h.toNat f }

def Cb.filled (x : Cb) : Nat := (x.head - x.tail).toNat
/-- The free count: NSLOT minus the filled count (R24). -/
def Cb.free (x : Cb) : Int := (x.nslot.toNat : Int) - x.filled

/-- An engine instruction or read run of the core that has issued and names a handle (R126 step 1). -/
def namesCb (k : Core) (h : BitVec 4) : Bool :=
  let ring (r : Option RingRef) : Bool := match r with | none => false | some r => r.cbh == h
  let op (o : EngineOp) : Bool := match o with
    | .none => false
    | .vec o => ring o.ring
    | .mat o => ring o.ring
    | .copy o => ring o.ringS || ring o.ringD
    | .walk o => o.cfg.mode && o.cfg.cbh == h
  [StreamId.w, .v, .m, .k].any (fun st => op (k.stream st).op)
    || k.landing.any (fun l => ring l.ring) || k.q.toList.any (fun q => q.runs.any fun r => ring r.ring)
    || (match k.planeLoad with | none => false | some p => ring p.ring)

def execCbset (m : CM) (h : BitVec 4) (f : CbsetF) (s : State) : Out :=
  blocking m [] s fun k => do
    notAtS k
    pure (.cbset h f)

/-- The ring's offset within the vault allocation (R126). -/
def cbOffset (f : CbsetF) : Nat := f.offHi.toNat * 2 ^ 40 + f.offLo.toNat * 2 ^ 8

/-- A conflict with a handle another core of the cluster holds (R126). -/
def cbConflict (s : State) (c : Nat) (h : BitVec 4) (shr : Bool) : Bool :=
  let x := sharedCb s c h
  (x.valid && x.owner != c)
    || (shr && (List.range 4).any fun i =>
        let o := clusterOf c * 4 + i
        o != c && (privateCb s o h).valid)

/-- A handle invalidated for its holder; a shared one for all four cores (R126). -/
def releaseCb (s : State) (c : Nat) (h : BitVec 4) : State :=
  let off (x : Cb) : Cb := { x with valid := false }
  let s1 := if (sharedCb s c h).owner == c
    then modCluster s (clusterOf c) fun l => { l with cb := vmod l.cb h.toNat off } else s
  modCore s1 c fun k => { k with cb := vmod k.cb h.toNat off }

/-- Steps 2 to 4 of R126. -/
def cbsetNow (c : Nat) (h : BitVec 4) (f : CbsetF) : X Unit := do
  let s ← get
  if f.nslot = 0 then do
    require (!((sharedCb s c h).valid && (sharedCb s c h).owner != c)) .cbuf 0
    set (releaseCb s c h)
  else match regionOf s c with
    | none => fail .cbuf 0
    | some r => do
      let size := 256 * f.slotu.toNat * f.nslot.toNat
      require (f.slotu != 0 && cbOffset f + size ≤ r.vault) .cbuf 0
      require (!cbConflict s c h f.shr) .cbuf 0
      let x : Cb := { base := BitVec.ofNat 44 (r.valloc + cbOffset f), slotsz := BitVec.ofNat 16 (256 * f.slotu.toNat),
                      nslot := f.nslot, head := 0, tail := 0, shared := f.shr, valid := true, owner := c }
      let s1 := releaseCb s c h
      set (if f.shr then modCluster s1 (clusterOf c) fun l => { l with cb := vset l.cb h.toNat x }
        else modCore s1 c fun k => { k with cb := vset k.cb h.toNat x })

/-- CBSET_COMPLETE (R126). -/
def execCbsetComplete (s : State) : Out :=
  let c := s.cur.core.val
  match (coreAt s c).block with
  | some ⟨.cbset h f, _, _, _⟩ =>
    if namesCb (coreAt s c) h then .next s
    else runX .c (do
      cbsetNow c h f
      modMe Core.unblock) s
  | _ => .next s

/-- CBWAIT: its checks at issue, then it waits (R24, R127). -/
def execCbwait (m : CM) (h : BitVec 4) (role : Bool) (c : BitVec 5) (s : State) : Out :=
  blocking m [c] s fun k => do
    notAtS k
    let s ← get
    let n := (k.readG c).toNat
    let x := cbAt s s.cur.core.val h
    require (x.valid && n ≤ x.nslot.toNat) .cbuf 0
    pure (.cbwait h role n)

/-- A handle's count has been reached (R24). -/
def cbReached (x : Cb) (role : Bool) (n : Nat) : Bool := if role then (n : Int) ≤ x.free else n ≤ x.filled

/-- CBWAIT_COMPLETE (R127). A handle released meanwhile raises CBUF. -/
def execCbwaitComplete (s : State) : Out :=
  let c := s.cur.core.val
  match (coreAt s c).block with
  | some ⟨.cbwait h role n, _, _, _⟩ =>
    runX .c (do
      require (cbAt s c h).valid .cbuf 0
      waitFor (cbReached (cbAt s c h) role n)
      modMe Core.unblock) s
  | _ => .next s

/-- The pointer of a role moved by n (R127). -/
def Cb.advance (x : Cb) (role : Bool) (n : Nat) : Cb :=
  if role then { x with tail := x.tail + BitVec.ofNat 32 n } else { x with head := x.head + BitVec.ofNat 32 n }

def execCbadv (m : CM) (h : BitVec 4) (role : Bool) (c : BitVec 5) (s : State) : Out :=
  ctlX m [c] s fun k => do
    notAtS k
    let s ← get
    let me_ := s.cur.core.val
    let n := (k.readG c).toNat
    let x := cbAt s me_ h
    require x.valid .cbuf 0
    require (if role then n ≤ x.filled else (n : Int) ≤ x.free) .cbuf 0
    set (modCb s me_ h (·.advance role n))

end Sys2Proof.Machine
end

