-- ==== Sys2Proof/Machine/Numeric.lean ====
section
/-! DEFINITION. Number formats and arithmetic (R68 to R89): exact values, decoding, rounding with its stochastic draws,
packing of elements in segments, expansion into E8M10, accumulation and drain. Every finite value of the part is dyadic, so
arithmetic is exact until `roundTo` narrows it. -/

namespace Sys2Proof.Machine

/-! Exact values. -/

/-- An exact value: (-1)^neg * m * 2^e, or a special one. m = 0 is a signed zero. -/
inductive Val where
  | nan
  | inf (neg : Bool)
  | fin (neg : Bool) (m : Nat) (e : Int)
deriving DecidableEq, Repr

def Val.zero : Val := .fin false 0 0
/-- An integer as a value. -/
def Val.ofInt (x : Int) : Val := .fin (x < 0) x.natAbs 0

/-- Signed significand. -/
def signed (neg : Bool) (m : Nat) : Int := if neg then -(m : Int) else m

def Val.neg : Val → Val
  | .nan => .nan
  | .inf n => .inf (!n)
  | .fin n m e => .fin (!n) m e

def Val.abs : Val → Val
  | .nan => .nan
  | .inf _ => .inf false
  | .fin _ m e => .fin false m e

/-- The sum, exactly (R71). -/
def Val.add : Val → Val → Val
  | .nan, _ => .nan
  | _, .nan => .nan
  | .inf a, .inf b => if a = b then .inf a else .nan
  | .inf a, _ => .inf a
  | _, .inf b => .inf b
  | .fin a m e, .fin b n f =>
    let lo := min e f
    let x := signed a (m * 2 ^ (e - lo).toNat) + signed b (n * 2 ^ (f - lo).toNat)
    if x = 0 then .fin (a && b && m == 0 && n == 0) 0 lo else .fin (x < 0) x.natAbs lo

def Val.sub (x y : Val) : Val := x.add y.neg

/-- The product, exactly (R71). -/
def Val.mul : Val → Val → Val
  | .nan, _ => .nan
  | _, .nan => .nan
  | .inf a, .inf b => .inf (a != b)
  | .inf a, .fin b n _ => if n = 0 then .nan else .inf (a != b)
  | .fin a m _, .inf b => if m = 0 then .nan else .inf (a != b)
  | .fin a m e, .fin b n f => .fin (a != b) (m * n) (e + f)

/-- A value times 2^k. -/
def Val.scale (x : Val) (k : Int) : Val :=
  match x with
  | .fin n m e => .fin n m (e + k)
  | x => x

/-- Numeric comparison of values that are not NaN; the two zeros are equal. -/
def Val.cmp : Val → Val → Ordering
  | .nan, _ => .eq
  | _, .nan => .eq
  | .inf a, .inf b => if a = b then .eq else if a then .lt else .gt
  | .inf a, _ => if a then .lt else .gt
  | _, .inf b => if b then .gt else .lt
  | .fin a m e, .fin b n f =>
    let lo := min e f
    compare (signed a (m * 2 ^ (e - lo).toNat)) (signed b (n * 2 ^ (f - lo).toNat))

def Val.isNan : Val → Bool
  | .nan => true
  | _ => false
def Val.isZero : Val → Bool
  | .fin _ 0 _ => true
  | _ => false
def Val.isNeg : Val → Bool
  | .nan => false
  | .inf n => n
  | .fin n _ _ => n

/-! Formats (R70). -/

/-- A floating-point format: exponent and fraction widths, bias, and which special encodings it has. -/
structure FpFmt where
  ew : Nat
  mw : Nat
  bias : Nat
  /-- Exponent all ones is infinity or NaN. -/
  ieee : Bool
  /-- Only exponent and fraction all ones is NaN (E4M3). -/
  oneNan : Bool
deriving DecidableEq, Repr

/-- The floating-point format of a tag; for an MX tag that of its elements (R70, R72). -/
def Tag.fp : Tag → Option FpFmt
  | .fp32 => some ⟨8, 23, 127, true, false⟩
  | .fp16 => some ⟨5, 10, 15, true, false⟩
  | .bf16 => some ⟨8, 7, 127, true, false⟩
  | .e4m3 => some ⟨4, 3, 7, false, true⟩
  | .mxE4m3 => some ⟨4, 3, 7, false, true⟩
  | .e5m2 => some ⟨5, 2, 15, true, false⟩
  | .mxE5m2 => some ⟨5, 2, 15, true, false⟩
  | .e3m2 => some ⟨3, 2, 3, false, false⟩
  | .mxE3m2 => some ⟨3, 2, 3, false, false⟩
  | .e2m3 => some ⟨2, 3, 1, false, false⟩
  | .mxE2m3 => some ⟨2, 3, 1, false, false⟩
  | .e2m1 => some ⟨2, 1, 1, false, false⟩
  | .mxFp4 => some ⟨2, 1, 1, false, false⟩
  | .e8m10 => some ⟨8, 10, 127, true, false⟩
  | _ => none

def fp32F : FpFmt := ⟨8, 23, 127, true, false⟩
def e8m10F : FpFmt := ⟨8, 10, 127, true, false⟩

/-- Decoding of stored bits (R70). -/
def FpFmt.decode (p : FpFmt) (b : Nat) : Val :=
  let f := b % 2 ^ p.mw
  let e := b / 2 ^ p.mw % 2 ^ p.ew
  let n := bit b (p.ew + p.mw)
  if p.ieee ∧ e = 2 ^ p.ew - 1 then (if f = 0 then .inf n else .nan)
  else if p.oneNan ∧ e = 2 ^ p.ew - 1 ∧ f = 2 ^ p.mw - 1 then .nan
  else if e = 0 then .fin n f (1 - p.bias - p.mw)
  else .fin n (2 ^ p.mw + f) ((e : Int) - p.bias - p.mw)

def FpFmt.signBit (p : FpFmt) (n : Bool) : Nat := if n then 2 ^ (p.ew + p.mw) else 0
/-- The canonical NaN, or +0 where the format has none (R71, R78). -/
def FpFmt.nanBits (p : FpFmt) : Nat :=
  if p.ieee then (2 ^ p.ew - 1) * 2 ^ p.mw + 2 ^ (p.mw - 1)
  else if p.oneNan then 2 ^ (p.ew + p.mw) - 1
  else 0
def FpFmt.hasNan (p : FpFmt) : Bool := p.ieee || p.oneNan
/-- The largest finite magnitude (R70). -/
def FpFmt.maxBits (p : FpFmt) : Nat :=
  if p.ieee then (2 ^ p.ew - 1) * 2 ^ p.mw - 1
  else if p.oneNan then 2 ^ (p.ew + p.mw) - 2
  else 2 ^ (p.ew + p.mw) - 1
def FpFmt.infBits (p : FpFmt) : Nat := (2 ^ p.ew - 1) * 2 ^ p.mw

/-- Magnitude bits of k * 2^q, where k < 2^(mw + 1) and q is the quantum of k (R70). The order of these numbers is that of
the magnitudes, also beyond the format's range. -/
def FpFmt.magBits (p : FpFmt) (k : Nat) (q : Int) : Nat :=
  if k < 2 ^ p.mw then k else ((q + p.mw + p.bias).toNat - 1) * 2 ^ p.mw + k

/-! Rounding (R77 to R81). -/

/-- The rounding modes, by code: 0 RNE, 1 RZ, 2 RO, 3 SR (R77). -/
inductive Rnd where
  | rne | rz | ro | sr
deriving DecidableEq, Repr

def Rnd.ofCode (b : BitVec 2) : Rnd :=
  match b.toNat with
  | 0 => .rne
  | 1 => .rz
  | 2 => .ro
  | _ => .sr

/-- mix of R81. -/
def mix (z : Dword) : Dword :=
  let z := z ^^^ (z >>> 30)
  let z := z * 0xA3B195D41C8E6F27
  let z := z ^^^ (z >>> 27)
  let z := z * 0x5F2C7A91D3E408BB
  z ^^^ (z >>> 31)

/-- draw of R81: 32 bits. -/
def draw (seed : Dword) (s i : Nat) : Nat := bits (mix (seed + BitVec.ofNat 64 (s * 2 ^ 40 + i))).toNat 32 32

/-- The draw index s of an instruction (R80). -/
def drawIndex (st : StreamId) (seq : BitVec 32) : Nat := 8 * (seq.toNat % 2 ^ 21) + streamNum st

/-- Whether a magnitude k * 2^s + r, 0 < r < 2^s, is rounded away from zero (R78). -/
def roundUpMag (mode : Rnd) (d : Nat) (neg : Bool) (k r s : Nat) : Bool :=
  match mode with
  | .rne => 2 ^ s < 2 * r || (2 * r == 2 ^ s && k % 2 == 1)
  | .rz => false
  | .ro => k % 2 == 0
  | .sr => if neg then !(d * 2 ^ s < (2 ^ s - r) * 2 ^ 32) else d * 2 ^ s < r * 2 ^ 32

/-- A finite magnitude m * 2^e rounded to the quantum 2^q. -/
def roundQuantum (mode : Rnd) (d : Nat) (neg : Bool) (m : Nat) (e q : Int) : Nat :=
  if q ≤ e then m * 2 ^ (e - q).toNat
  else
    let s := (q - e).toNat
    let k := m / 2 ^ s
    let r := m % 2 ^ s
    if r = 0 then k else if roundUpMag mode d neg k r s then k + 1 else k

/-- A finite magnitude rounded in the format with its exponent range unbounded above (R78). -/
def FpFmt.roundMag (p : FpFmt) (mode : Rnd) (d : Nat) (neg : Bool) (m : Nat) (e : Int) : Nat :=
  if m = 0 then 0
  else
    let q := max ((m.log2 : Int) + e - p.mw) (1 - p.bias - p.mw)
    let k := roundQuantum mode d neg m e q
    if k = 2 ^ (p.mw + 1) then p.magBits (2 ^ p.mw) (q + 1) else p.magBits k q

/-- round_to (`sat` false) and round_sat (`sat` true) for a floating-point format: the bits, and the saturation event of
R79 (R78, R79). -/
def FpFmt.round (p : FpFmt) (mode : Rnd) (d : Nat) (sat : Bool) (x : Val) : Nat × Bool :=
  match x with
  | .nan => (p.nanBits, !p.hasNan)
  | .inf n => if p.ieee then (p.signBit n + p.infBits, false) else (p.signBit n + p.maxBits, true)
  | .fin n m e =>
    let y := p.roundMag mode d n m e
    if p.maxBits < y then
      if p.ieee && !sat && (mode == .rne || mode == .sr) then (p.signBit n + p.infBits, true)
      else (p.signBit n + p.maxBits, true)
    else (p.signBit n + y, false)

/-- The range of an integer tag (R69). -/
def Tag.intRange : Tag → Option (Int × Int)
  | .int8 => some (-128, 127)
  | .uint8 => some (0, 255)
  | .int4 => some (-8, 7)
  | .uint4 => some (0, 15)
  | .int1 => some (-1, 1)
  | .int32 => some (-2147483648, 2147483647)
  | .int64 => some (-9223372036854775808, 9223372036854775807)
  | .index16 => some (0, 65535)
  | .index32 => some (0, 4294967295)
  | _ => none

/-- The width of an element in its container, in bits (R68, R72, R74); 0 for INVALID. -/
def Tag.width : Tag → Nat
  | .invalid => 0
  | .int64 => 64
  | .fp32 | .int32 | .index32 | .e8m10 => 32
  | .fp16 | .bf16 | .index16 => 16
  | .e4m3 | .e5m2 | .int8 | .uint8 | .mxE4m3 | .mxE5m2 | .mxInt8 => 8
  | .e3m2 | .e2m3 | .mxE3m2 | .mxE2m3 => 6
  | .e2m1 | .int4 | .uint4 | .mxFp4 | .qn4 => 4
  | .int1 => 1

/-- The stored bits of an integer of an integer tag. -/
def Tag.intBits (t : Tag) (x : Int) : Nat :=
  if t = .int1 then (if 0 ≤ x then 1 else 0) else (x % 2 ^ t.width).toNat

/-- round_int (R78): the integer, and the saturation event of R79. -/
def roundInt (lo hi : Int) (one : Bool) (mode : Rnd) (d : Nat) (x : Val) : Int × Bool :=
  match x with
  | .nan => (if one then 1 else 0, true)
  | .inf n => (if n then lo else hi, true)
  | .fin n m e =>
    if one then (if n && m != 0 then -1 else 1, false)
    else
      let y := signed n (roundQuantum mode d n m e 0)
      if y < lo then (lo, true) else if hi < y then (hi, true) else (y, false)

/-- round_to and round_sat of R78 and R79 for any tag that has them. -/
def roundTag (t : Tag) (mode : Rnd) (d : Nat) (sat : Bool) (x : Val) : Nat × Bool :=
  match t.fp with
  | some p => p.round mode d sat x
  | none =>
    match t.intRange with
    | some (lo, hi) =>
      let r := roundInt lo hi (t == .int1) mode d x
      (t.intBits r.1, r.2)
    | none => (0, false)

/-! Draws (R80). -/

/-- How an instruction rounds: its mode, seed and draw stream. -/
structure Rounding where
  mode : Rnd
  seed : Dword
  stream : Nat
deriving DecidableEq, Repr

/-- The draw for output element `i`; only the stochastic mode reads it. -/
def Rounding.draw (r : Rounding) (i : Nat) : Nat := if r.mode = .sr then Machine.draw r.seed r.stream i else 0

/-- round_to, or round_sat, of element `i`. -/
def Rounding.narrow (r : Rounding) (t : Tag) (sat : Bool) (i : Nat) (x : Val) : Nat := (roundTag t r.mode (r.draw i) sat x).1

/-! Values of elements (R69, R70, R72). -/

/-- The value of stored bits under a tag; an MX tag's scale and a QN4 group's scales are not applied. -/
def Tag.val (t : Tag) (b : Nat) : Val :=
  match t with
  | .int8 => Val.ofInt (signExtend b 8)
  | .uint8 => Val.ofInt (b % 256)
  | .int4 => Val.ofInt (signExtend b 4)
  | .uint4 => Val.ofInt (b % 16)
  | .int1 => Val.ofInt (if b % 2 = 1 then 1 else -1)
  | .int32 => Val.ofInt (signExtend b 32)
  | .int64 => Val.ofInt (signExtend b 64)
  | .index16 => Val.ofInt (b % 2 ^ 16)
  | .index32 => Val.ofInt (b % 2 ^ 32)
  | .mxInt8 => (Val.ofInt (signExtend b 8)).scale (-6)
  | t => match t.fp with
    | some p => p.decode b
    | none => Val.zero

/-- The level of a QN4 index, times 1024 (R74). -/
def qn4Level (j : Nat) : Int :=
  let pos (i : Nat) : Int := [43, 130, 221, 318, 427, 555, 725, 1024].getD i 0
  if 8 ≤ j then pos (j - 8) else -pos (7 - j)

def Tag.isMx : Tag → Bool
  | .mxE4m3 | .mxE5m2 | .mxE3m2 | .mxE2m3 | .mxFp4 | .mxInt8 => true
  | _ => false
/-- Block-scaled or QN4 (R72, R74). -/
def Tag.isScaled (t : Tag) : Bool := t.isMx || t == .qn4

/-- A scale: X of an MX block, or code and super-scale of QN4 (R72, R74, R75). -/
structure Scale where
  x : Nat
  s : Nat
deriving DecidableEq, Repr

/-- The value of an element with its scale, exactly (R72, R74, R75). -/
def scaledVal (t : Tag) (b : Nat) (sc : Scale) : Val :=
  if t.isMx then
    if sc.x = 0xFF then .nan else (t.val b).scale ((sc.x : Int) - 127)
  else if t = .qn4 then
    if sc.x = 0 then Val.zero
    else ((Val.ofInt (qn4Level (b % 16))).mul ((fp32F.decode sc.s).mul (Val.ofInt sc.x))).scale (-18)
  else t.val b

/-- expand_e8m10 (R75): the bits of the E8M10 element. -/
def expandE8m10 (t : Tag) (b : Nat) (sc : Scale) : Nat := (e8m10F.round .rne 0 false (scaledVal t b sc)).1

/-- The value of an E8M10 element. -/
def e8Val (b : Nat) : Val := e8m10F.decode b

/-- hi and lo of an FP32 operand (R76). -/
def splitHi (b : Nat) : Nat :=
  match fp32F.decode b with
  | .nan => e8m10F.nanBits
  | _ => b / 2 ^ 13
def splitLo (b : Nat) : Nat :=
  match fp32F.decode b with
  | .fin n m e => (e8m10F.round .rne 0 false ((Val.fin n m e).sub (e8Val (splitHi b)))).1
  | _ => 0

/-! Segments (R68, R73, R140). -/

/-- Elements of a 256-byte segment (R140). -/
def Tag.count : Tag → Nat
  | .invalid => 0
  | .mxE4m3 | .mxE5m2 | .mxInt8 => 224
  | .mxE3m2 | .mxE2m3 => 320
  | .mxFp4 => 480
  | .qn4 => 448
  | t => if t.width = 6 then 340 else 2048 / t.width

/-- First element byte of a segment (R73). -/
def Tag.start : Tag → Nat
  | .mxE4m3 | .mxE5m2 | .mxInt8 => 8
  | .mxE3m2 | .mxE2m3 | .mxFp4 | .qn4 => 16
  | _ => 0

/-- Elements of a block that share a scale (R72, R74). -/
def Tag.block (t : Tag) : Nat := if t = .qn4 then 64 else 32

/-- The bits of a container that hold its element: [31:19] of an E8M10 container are ignored by readers and zero from writers (R68). -/
def Tag.elemOf (t : Tag) (b : Nat) : Nat := if t = .e8m10 then b % 2 ^ 19 else b

/-- The stored bits of element n of a segment. -/
def segElem (t : Tag) (x : SegBits) (n : Nat) : Nat := t.elemOf (bits x.toNat (8 * t.start + t.width * n) t.width)

/-- A segment as memory gives it, with the bits that belong to no element zero: [31:19] of E8M10 containers, byte 255 of FP6 (R68). -/
def cleanSeg (t : Tag) (x : SegBits) : SegBits :=
  if t = .e8m10 then x &&& BitVec.ofNat 2048 ((2 ^ 19 - 1) * ((2 ^ 2048 - 1) / (2 ^ 32 - 1)))
  else if t = .e3m2 ∨ t = .e2m3 then x &&& BitVec.ofNat 2048 (2 ^ 2040 - 1)
  else x

/-- The scale of element n of a block-scaled or QN4 segment (R73). -/
def segScale (t : Tag) (x : SegBits) (n : Nat) : Scale :=
  if t = .qn4 then ⟨bits x.toNat (8 * (4 + n / 64)) 8, bits x.toNat 0 32⟩
  else ⟨bits x.toNat (8 * (n / 32)) 8, 0⟩

/-- The bits of elements packed one after another (R68). -/
def packFrom (w : Nat) : List Nat → Nat
  | [] => 0
  | x :: xs => x % 2 ^ w + 2 ^ w * packFrom w xs

/-- A segment of an unscaled tag from its elements, cut at the segment's count. -/
def segOfElems (t : Tag) (xs : List Nat) : SegBits := BitVec.ofNat 2048 (packFrom t.width (xs.take t.count))

/-- The elements of a segment. -/
def segElems (t : Tag) (x : SegBits) : List Nat := (List.range t.count).map (segElem t x)

/-! Accumulation (R82 to R87). -/

/-- The parity over a cell's value bits (R422 check 7). -/
def parity (v : BitVec 128) : Bool := popCount 128 v.toNat % 2 == 1

def Cell.zero : Cell := ⟨0, false, false, false, false⟩
def Cell.put (c : Cell) (v : BitVec 128) : Cell := { c with value := v, par := parity v }
/-- A cell whose parity no longer fits its value is poisoned (R422 check 7). -/
def Cell.checked (c : Cell) : Cell := if c.par == parity c.value then c else { c with poi := true }

/-- ARRIVAL's step (R83). -/
def addFp32 (c : Cell) (p : Val) : Cell :=
  c.put (BitVec.ofNat 128 (fp32F.round .rne 0 false ((fp32F.decode (c.value.toNat % 2 ^ 32)).add p)).1)

/-- exact_add (R85). -/
def exactAdd (c : Cell) (p : Val) (anchor : Int) : Cell :=
  if c.ovf then c
  else match p with
    | .nan => { c.put 0 with ovf := true, inx := true }
    | .inf n => { c.put (if n then BitVec.ofInt 128 (-(2 ^ 127)) else BitVec.ofInt 128 (2 ^ 127 - 1)) with ovf := true }
    | .fin n m e =>
      let k := e - anchor
      let t := if 0 ≤ k then m * 2 ^ k.toNat else m / 2 ^ (-k).toNat
      let lost := k < 0 && m % 2 ^ (-k).toNat != 0
      let c1 := { c with inx := c.inx || lost }
      let u := c.value.toInt + signed n t
      if 2 ^ 127 - 1 < u then { c1.put (BitVec.ofInt 128 (2 ^ 127 - 1)) with ovf := true }
      else if u < -(2 ^ 127) then { c1.put (BitVec.ofInt 128 (-(2 ^ 127))) with ovf := true }
      else c1.put (BitVec.ofInt 128 u)

/-- The kinds of operand pair (R89). -/
inductive PairKind where
  | fp32 | float | narrow | int | int4 | bit | mxint8
deriving DecidableEq, Repr

def isNarrow : Tag → Bool
  | .e3m2 | .e2m3 | .e2m1 => true
  | _ => false
def isFloatOperand : Tag → Bool
  | .fp16 | .bf16 | .e4m3 | .e5m2 | .e3m2 | .e2m3 | .e2m1 | .mxE4m3 | .mxE5m2 | .mxE3m2 | .mxE2m3 | .mxFp4 | .qn4
  | .e8m10 => true
  | _ => false
def isInt8 (t : Tag) : Bool := t == .int8 || t == .uint8
def isInt4 (t : Tag) : Bool := t == .int4 || t == .uint4

/-- The pair table of R89. -/
def pairKind (a b : Tag) : Option PairKind :=
  if a = .fp32 ∧ b = .fp32 then some .fp32
  else if isNarrow a ∧ isNarrow b then some .narrow
  else if isFloatOperand a ∧ isFloatOperand b then some .float
  else if isInt4 a ∧ isInt4 b then some .int4
  else if (isInt8 a || isInt4 a) && (isInt8 b || isInt4 b) then some .int
  else if a = .int1 ∧ b = .int1 then some .bit
  else if a = .mxInt8 ∧ b = .mxInt8 then some .mxint8
  else none

/-- A tag of the matrix operand set (R89). -/
def matrixOperand (t : Tag) : Bool := (1 ≤ t.code && t.code ≤ 20) || t == .e8m10

def PairKind.isInt : PairKind → Bool
  | .int | .int4 | .bit => true
  | _ => false

/-- A cell accumulates exactly: EXACT mode, or an integer pair (R82). -/
def exactCell (mode : AccMode) (k : PairKind) : Bool := mode == .exact || k.isInt

/-- The anchor in force (R82). -/
def anchorOf (anchor : BitVec 9) (k : PairKind) : Int := if k.isInt then 0 else anchor.toInt

/-- One addend applied to a cell (R83 to R85). -/
def applyAddend (mode : AccMode) (k : PairKind) (anchor : BitVec 9) (p : Val) (c : Cell) : Cell :=
  if exactCell mode k then exactAdd c p (anchorOf anchor k) else addFp32 c p

/-- node of R86. -/
def treeNode (exact : Bool) (a b : Val) : Val :=
  if exact then a.add b else fp32F.decode (fp32F.round .rne 0 false (a.add b)).1

/-- One level of a balanced tree. -/
def treeLevel (exact : Bool) : List Val → List Val
  | a :: b :: rest => treeNode exact a b :: treeLevel exact rest
  | xs => xs

/-- `n` levels of the tree over 2^n values (R86). -/
def treeSum (exact : Bool) : Nat → List Val → Val
  | 0, xs => xs.headD Val.zero
  | n + 1, xs => treeSum exact n (treeLevel exact xs)

/-- The block product of R87: the scaled integer sum, rounded to FP32 outside EXACT mode. -/
def mxBlock (exact : Bool) (as bs : List Nat) (xa xb : Nat) : Val :=
  if xa = 0xFF ∨ xb = 0xFF then .nan
  else
    let sum := (as.zip bs).foldl (fun a p => a + signExtend p.1 8 * signExtend p.2 8) 0
    let v := (Val.ofInt sum).scale ((xa : Int) - 127 + ((xb : Int) - 127) - 12)
    if exact then v else fp32F.decode (fp32F.round .rne 0 false v).1

/-! Drain (R88). -/

/-- The value a cell drains as. -/
def drainVal (mode : AccMode) (k : PairKind) (anchor : BitVec 9) (c : Cell) : Val :=
  if exactCell mode k then
    if c.ovf then (if c.value = 0 then .nan else .fin (c.value.toInt < 0) 1 100000)
    else
      let v := c.value.toInt
      .fin (v < 0) v.natAbs (anchorOf anchor k)
  else fp32F.decode (c.value.toNat % 2 ^ 32)

end Sys2Proof.Machine
end

