-- ==== Sys2Proof/Machine/Tiles.lean ====
section
/-! DEFINITION. Tile descriptors (R27), dense tiles (R90) and the reading of compressed tiles (R91 to R100): headers,
directory, block headers, bitmaps, coordinate pairs and the coded exponents of CBF-H and CBF-BH, each check of R99 in its
read order. -/

namespace Sys2Proof.Machine

/-! Places in a ring. -/

/-- Physical address of ring byte `o` (R150). -/
def RingRef.addr (r : RingRef) (o : Nat) : Nat :=
  r.base.toNat + (r.start.toNat + o / r.slotsz.toNat) % r.nslot.toNat * r.slotsz.toNat + o % r.slotsz.toNat

/-- Bytes `o` to `o + n - 1` lie in the slots awaited (R150). -/
def RingRef.holds (r : RingRef) (o : Int) (n : Nat) : Bool := 0 ≤ o && o + n ≤ r.wait.toNat * r.slotsz.toNat

/-- Physical addresses of `n` ring bytes from `o` on. -/
def RingRef.bytes (r : RingRef) (o n : Nat) : List Nat := (List.range n).map fun t => r.addr (o + t)

/-! Descriptors. -/

/-- The fields of a tile descriptor (R27). -/
structure TileD where
  base : Dword
  dim0 : Nat
  dim1 : Nat
  s0 : Int
  s1 : Int
  count : Nat
  swz : Nat
  kind : Nat
  code : Nat
  rsv : Nat
  /-- The ring that stands in for BASE on a ring side of a copy transfer (R217). -/
  ring : Option RingRef
  /-- The instruction accepts window addresses on this side (R294). -/
  window : Bool
deriving DecidableEq, Repr

def tileD (d : BitVec 256) : TileD :=
  let x := d.toNat
  { base := BitVec.ofNat 64 x, dim0 := bits x 64 32, dim1 := bits x 96 32, s0 := signExtend (bits x 128 32) 32,
    s1 := signExtend (bits x 160 32) 32, code := bits x 192 5, kind := bits x 197 3, swz := bits x 200 3,
    rsv := bits x 203 21, count := bits x 224 32, ring := none, window := false }

def TileD.tag (t : TileD) : Tag := Tag.ofCode t.code

/-- DIM0 of a dense tile holds whole blocks of a scaled tag (R90). -/
def blocksWhole (tag : Tag) (n : Nat) : Bool := if tag.isMx then n % 32 == 0 else if tag = .qn4 then n % 64 == 0 else true

/-- The checks of R27. -/
def TileD.fieldsOk (t : TileD) : Bool := addressForm t.base && t.swz < 6 && t.kind < 5 && t.code < 26 && t.rsv == 0

/-- The checks of R27, with that of R90 for a dense tile. -/
def TileD.ok (t : TileD) : Bool := t.fieldsOk && (t.kind != 0 || blocksWhole t.tag t.dim0)

/-- A descriptor checked at issue (R27). -/
def descCheck (d : BitVec 256) : X TileD := do
  let t := tileD d
  require t.ok .desc t.base
  pure t

/-- The KIND an instruction asks for, and its refusal of a remote BASE (R208, R294). -/
def kindCheck (t : TileD) (k : Bool) : X Unit := require k .desc t.base
def localCheck (t : TileD) : X Unit := require (!isWindow t.base) .desc t.base

/-- An address `x` bytes on. -/
def addrAt (a : Dword) (x : Int) : Dword := a + BitVec.ofInt 64 x

/-! Dense rows (R90). -/

/-- Bytes of the scale area of a row, before its padding. -/
def scaleLen (tag : Tag) (dim0 : Nat) : Nat :=
  if tag.isMx then dim0 / 32 else if tag = .qn4 then 4 * ceilDiv (dim0 / 64) 256 + dim0 / 64 else 0

/-- Where element n of a row lies: byte offset from the row's start and bit within it. -/
def elemPlace (t : TileD) (tag : Tag) (n : Nat) : Int × Nat :=
  if tag.isScaled then
    let b := n * tag.width
    ((roundUp (scaleLen tag t.dim0) 16 + b / 8 : Nat), b % 8)
  else if 8 ≤ tag.width then (n * t.s0, 0)
  else ((n * tag.width / 8 : Nat), n * tag.width % 8)

/-- Where the scale of element n lies: its byte, and for QN4 the byte of its super-scale. -/
def scalePlace (t : TileD) (tag : Tag) (n : Nat) : Nat × Nat :=
  if tag = .qn4 then (4 * ceilDiv (t.dim0 / 64) 256 + n / 64, 4 * (n / 16384)) else (n / 32, 0)

/-- Bytes that hold the bits of one element from bit `b` of a byte on. -/
def elemBytes (tag : Tag) (b : Nat) : Nat := (b + tag.width + 7) / 8

/-- An element's bits from the bytes that hold it; [31:19] of an E8M10 container are ignored (R68). -/
def elemBits (tag : Tag) (b : Nat) (xs : List Byte) : Nat :=
  tag.elemOf (bits (leValue xs) b tag.width)

/-! Reads whose uncorrectable granules are marked instead of raised (R382). -/

/-- A flawed granule: its virtual and its physical address. -/
abbrev Flaw := Dword × Nat

/-- The bytes of checked pieces, each with the flaw of its granule. -/
def markPieces (s : State) (c : Nat) : List Piece → List (Byte × Option Flaw)
  | [] => []
  | q :: rest =>
    let die := some (dieOf c)
    ((List.range q.n).map fun i =>
      (classByte s (some c) die q.page i,
       if s.bad.isEmpty then none
       else if flawed s (readAddr s die q.page + i) then
         some (granuleVa s die q i, granuleOf (readAddr s die q.page + i))
       else none)) ++ markPieces s c rest

/-- mem_read of R29 that marks flawed bytes. -/
def memLoadMarked (c : Nat) (a : Dword) (n : Nat) : X (List (Byte × Option Flaw)) := do
  let ps ← check c .read a n
  let s ← get
  waitFor (!ps.any fun q => replicaBusy s (some c) (some (dieOf c)) q.page q.n)
  pure (markPieces s c ps)

/-! Compressed tiles (R91, R92, R94). -/

def TileD.across (t : TileD) : Nat := ceilDiv t.dim0 256
/-- NBLK of a tile (R92). -/
def TileD.nblk (t : TileD) : Nat := (if t.kind = 2 then ceilDiv t.dim1 256 else t.dim1) * t.across

/-- The rows and columns a block covers (R92). -/
structure Extent where
  row0 : Nat
  nrows : Nat
  col0 : Nat
  ncols : Nat
deriving DecidableEq, Repr

def TileD.extent (t : TileD) (b : Nat) : Extent :=
  let r := b / t.across
  let c := 256 * (b % t.across)
  if t.kind = 2 then ⟨256 * r, min 256 (t.dim1 - 256 * r), c, min 256 (t.dim0 - c)⟩
  else ⟨r, 1, c, min 256 (t.dim0 - c)⟩

/-- The tags a kind accepts (R94). -/
def kindAccepts (kind : Nat) (tag : Tag) : Bool :=
  match kind with
  | 0 => tag != .invalid
  | 1 => ((1 ≤ tag.code && tag.code ≤ 12) || tag == .qn4 || tag == .e8m10)
  | 2 => ((1 ≤ tag.code && tag.code ≤ 12) || tag == .e8m10)
  | _ => tag == .bf16 || tag == .e4m3 || tag == .e5m2

/-- Element index of R99: row × COLS + column. -/
def TileD.index (t : TileD) (row col : Nat) : Nat := row * t.dim0 + col

/-- Bytes of a tile, `off` bytes on from BASE or from the ring byte that stands for it. -/
def TileD.load (c : Nat) (t : TileD) (off n : Nat) : X (List Byte) :=
  match t.ring with
  | none => memLoad c (t.base + BitVec.ofNat 64 off) n
  | some r => do
    require (r.holds off n) .cbuf 0
    ringLoad c (r.bytes off n)

/-- Address of the 32-bit word that holds byte `off`. -/
def TileD.wordAddr (t : TileD) (off : Nat) : Dword :=
  match t.ring with
  | none => t.base + BitVec.ofNat 64 (off / 4 * 4)
  | some r => BitVec.ofNat 64 (r.addr (off / 4 * 4))

/-- METADATA at the 32-bit word that holds byte `off` of the tile (R99). -/
def metaFail {α : Type} (t : TileD) (off elem : Nat) : X α :=
  failElem .metadata (t.wordAddr off) elem

def metaNeed (b : Bool) (t : TileD) (off elem : Nat) : X Unit := if b then pure () else metaFail t off elem

/-- What a reader keeps of a tile header (R91). -/
structure THead where
  table : Nat
  tbytes : Nat
deriving DecidableEq, Repr

/-- The tile header read and checked (R91, R94, R99). -/
def readHead (c : Nat) (t : TileD) : X THead := do
  let h ← t.load c 0 32
  let table := field h 4 4
  metaNeed (field h 0 1 == t.kind && field h 1 1 == t.code && field h 2 2 == 0xC0BF && kindAccepts t.kind t.tag) t 0 0
  metaNeed (if t.kind ≤ 2 then table == 0 else bits table 4 12 == 0) t 4 0
  metaNeed (field h 8 4 == t.dim1) t 8 0
  metaNeed (field h 12 4 == t.dim0) t 12 0
  metaNeed (field h 16 4 == t.nblk) t 16 0
  metaNeed (field h 20 4 == (if t.kind = 3 then 0 else t.count)) t 20 0
  metaNeed (32 + 4 * t.nblk ≤ field h 24 8) t 24 0
  pure ⟨table, field h 24 8⟩

/-- A present block: where it starts from BASE, and its header's fields (R93). -/
structure BlockHead where
  start : Nat
  nnz : Nat
  plen : Nat
  raw : Bool
  ext : Extent
deriving DecidableEq, Repr

def bitmapsOf (e : Extent) : Nat := ceilDiv e.ncols 64

/-- Bytes of a payload before its values (R95). -/
def metaLen (t : TileD) (h : BlockHead) : Nat :=
  let g := bitmapsOf h.ext
  match t.kind with
  | 1 => 8 * g + (if t.tag = .qn4 then roundUp (4 + g) 8 else 0)
  | 2 => roundUp (2 * h.nnz) 8
  | 3 => 0
  | _ => 8 * g

/-- Elements whose values a block stores. -/
def storedCount (t : TileD) (h : BlockHead) : Nat := if t.kind = 3 then h.ext.ncols else h.nnz

/-- The smallest payload that a header admits; a coded one holds at least EBITS (R95). -/
def minPayload (t : TileD) (h : BlockHead) : Nat :=
  metaLen t h + (if t.kind ≤ 2 || h.raw then ceilDiv (storedCount t h * t.tag.width) 8 else 2)

/-- First element of a block (R99). -/
def blockIndex (t : TileD) (e : Extent) : Nat := t.index e.row0 e.col0

/-- The directory entry of block `b` read and checked; none when the block is absent (R91, R99). -/
def readDir (c : Nat) (t : TileD) (hd : THead) (b : Nat) : X (Option (Nat × List Byte)) := do
  let at_ := 32 + 4 * b
  let e := leValue (← t.load c at_ 4)
  let i := blockIndex t (t.extent b)
  if e = 0 then pure none
  else do
    let start := 16 * e
    metaNeed (32 + 4 * t.nblk ≤ start && start + 16 ≤ hd.tbytes) t at_ i
    let h ← t.load c start 16
    metaNeed (start + 16 + field h 12 4 ≤ hd.tbytes) t at_ i
    pure (some (start, h))

/-- The block header's checks (R93, R99). -/
def checkBlock (t : TileD) (b start : Nat) (h : List Byte) : X BlockHead := do
  let e := t.extent b
  let i := blockIndex t e
  let flags := field h 4 1
  let r : BlockHead := ⟨start, field h 0 4, field h 12 4, bit flags 0, e⟩
  metaNeed (r.nnz ≤ e.nrows * e.ncols) t start i
  metaNeed (flags < (if t.kind ≤ 2 then 1 else 2) && field h 5 1 == 0xC0 + t.kind && field h 6 2 == e.col0 / 256) t
    (start + 4) i
  metaNeed (field h 8 4 == e.row0) t (start + 8) i
  metaNeed (r.plen % 16 == 0 && minPayload t r ≤ r.plen) t (start + 12) i
  pure r

/-- Block `b` opened: its directory entry and header (R99). -/
def openBlock (c : Nat) (t : TileD) (hd : THead) (b : Nat) : X (Option BlockHead) := do
  match ← readDir c t hd b with
  | none => pure none
  | some (start, h) => do
    let r ← checkBlock t b start h
    pure (some r)

/-- Payload bytes. -/
def payload (c : Nat) (t : TileD) (h : BlockHead) (off n : Nat) : X (List Byte) :=
  t.load c (h.start + 16 + off) n

/-- Positions of the set bits among the first `n`. -/
def setBits (x n : Nat) : List Nat := (List.range n).filter (bit x)

/-- What a block's bitmaps say (R95): the columns they mark, the failure of a bit out of range, and that of the population check. -/
structure Marked where
  cols : List Nat
  range : Option Exc
  population : Option Exc
deriving DecidableEq, Repr

def markedColumns (c : Nat) (t : TileD) (h : BlockHead) : X Marked := do
  let g := bitmapsOf h.ext
  let x := leValue (← payload c t h 0 (8 * g))
  let all := setBits x (64 * g)
  let out (k : Nat) : Exc := ⟨.metadata, 0, t.wordAddr (h.start + 16 + 4 * (k / 32)),
    BitVec.ofNat 32 (t.index h.ext.row0 (h.ext.col0 + 32 * (k / 32)))⟩
  let pop : Exc := ⟨.metadata, 0, t.wordAddr h.start, BitVec.ofNat 32 (blockIndex t h.ext)⟩
  pure { cols := setBits x h.ext.ncols, range := (all.find? fun k => h.ext.ncols ≤ k).map out
         population := if all.length = h.nnz then none else some pop }

/-- A failure raised where there is one. -/
def raiseIf (e : Option Exc) : X Unit :=
  match e with
  | some e => throw (.exc e)
  | none => pure ()

/-- The columns that a block's bitmaps mark, after the range and population checks (R95, R99). -/
def readBitmaps (c : Nat) (t : TileD) (h : BlockHead) : X (List Nat) := do
  let m ← markedColumns c t h
  raiseIf m.range
  raiseIf m.population
  pure m.cols

/-- A coordinate pair of a CBF-C block as read (R95): the element it names, its place, and the failure it shows. The failure
of a pair whose row lies outside the tile belongs to whoever reads the word (R182). -/
structure PairItem where
  row : Nat
  col : Nat
  idx : Nat
  outside : Bool
  bad : Option Exc
deriving DecidableEq, Repr

/-- The pairs of a CBF-C block with the range and order checks of R99. -/
def pairItems (t : TileD) (h : BlockHead) (xs : List Byte) : Nat → Nat → Option Nat → List PairItem
  | 0, _, _ => []
  | n + 1, i, prev =>
    let v := field xs (2 * i) 2
    let first := field xs (4 * (i / 2)) 2
    let out := h.ext.nrows ≤ v / 256
    let order := match prev with
      | none => true
      | some p => p < v
    let e : Exc := ⟨.metadata, 0, t.wordAddr (h.start + 16 + 4 * (i / 2)),
      BitVec.ofNat 32 (t.index (h.ext.row0 + first / 256) (h.ext.col0 + first % 256))⟩
    ⟨h.ext.row0 + v / 256, h.ext.col0 + v % 256, i, out, if out || h.ext.ncols ≤ v % 256 || !order then some e else none⟩
      :: pairItems t h xs n (i + 1) (some v)

def readPairs (c : Nat) (t : TileD) (h : BlockHead) : X (List PairItem) := do
  let xs ← payload c t h 0 (2 * h.nnz)
  pure (pairItems t h xs h.nnz 0 none)

/-! Coded exponents (R96, R97). -/

/-- Exponent bits and mantissa bits of the three coded tags (R97). -/
def expBits (tag : Tag) : Nat := if tag = .bf16 then 8 else if tag = .e4m3 then 4 else 5
def manBits (tag : Tag) : Nat := if tag = .bf16 then 7 else if tag = .e4m3 then 3 else 2
/-- Bits of a sign-mantissa field (R97). -/
def smBits (tag : Tag) : Nat := if tag = .bf16 then 8 else 4

/-- Present symbols with their lengths, ordered by (length, symbol) (R96). -/
def symbolOrder (len : List Byte) : List (Nat × Nat) :=
  (List.range 16).flatMap fun l =>
    ((List.range 256).filter fun n => l != 0 && (len.getD n 0).toNat == l).map fun n => (n, l)

/-- canon_codes of R96: symbol, length, code. -/
def canonFrom : List (Nat × Nat) → Nat → Nat → List (Nat × Nat × Nat)
  | [], _, _ => []
  | (n, l) :: rest, code, prev =>
    let cd := code * 2 ^ (l - prev)
    (n, l, cd) :: canonFrom rest (cd + 1) l

def canonCodes (len : List Byte) : List (Nat × Nat × Nat) := canonFrom (symbolOrder len) 0 0

/-- Bit `p` of an exponent stream: bytes fill from bit 7 down (R97). -/
def streamBit (xs : List Byte) (p : Nat) : Nat := if (xs.getD (p / 8) 0).getLsbD (7 - p % 8) then 1 else 0

/-- One code read from bit `p`: its symbol and the bit after it. -/
def readCode (codes : List (Nat × Nat × Nat)) (xs : List Byte) (p : Nat) : Nat → Nat → Nat → Option (Nat × Nat)
  | 0, _, _ => none
  | fuel + 1, len, code =>
    let l := len + 1
    let cd := 2 * code + streamBit xs (p + len)
    match codes.find? fun e => e.2.1 == l && e.2.2 == cd with
    | some e => some (e.1, p + l)
    | none => readCode codes xs p fuel l cd

/-- `n` codes: the symbols with the bit after each, and the bit at which a code matched no entry. -/
def readCodes (codes : List (Nat × Nat × Nat)) (xs : List Byte) : Nat → Nat → List (Nat × Nat) × Option Nat
  | 0, _ => ([], none)
  | n + 1, p =>
    match readCode codes xs p 15 0 0 with
    | none => ([], some p)
    | some (sym, q) =>
      let r := readCodes codes xs n q
      ((sym, q) :: r.1, r.2)

/-- The resident table that a tile names, checked as a coded block's stream is first read (R99, R100). Symbols beyond the
tag's exponent field are no symbols of it. -/
def tableFor (t : TileD) (hd : THead) : X (List (Nat × Nat × Nat)) := do
  let s ← get
  let h := vget s.huff (bits hd.table 0 4) HuffTable.reset
  metaNeed (h.tid.toNat == bits hd.table 16 16) t 4 0
  pure ((canonCodes h.len).filter fun e => e.1 < 2 ^ expBits t.tag)

/-- The coded elements of a block whose stream begins at payload byte `off`; `cols` are their columns (R97, R99). -/
def readCoded (c : Nat) (t : TileD) (hd : THead) (h : BlockHead) (off : Nat) (cols : List Nat) : X (List Nat) := do
  let n := cols.length
  let ebits := leValue (← payload c t h off 2)
  let area := off + 2 + ceilDiv ebits 8
  let first := blockIndex t h.ext
  metaNeed (area + ceilDiv (n * smBits t.tag) 8 ≤ h.plen) t (h.start + 12) first
  let codes ← tableFor t hd
  let xs ← payload c t h (off + 2) (h.plen - off - 2)
  let at_ (p : Nat) : Nat := h.start + 16 + off + 2 + p / 8
  let r := readCodes codes xs n 0
  let elemAt (i : Nat) : Nat := t.index h.ext.row0 (h.ext.col0 + cols.getD (min i (n - 1)) 0)
  -- the first element with a bit in the word that holds byte `b` of the tile
  let elemIn (b : Nat) : Nat :=
    elemAt (r.1.filter fun e => h.start + 16 + off + 2 + (e.2 - 1) / 8 < b / 4 * 4).length
  match r.2 with
  | some p => metaFail t (at_ p) (elemIn (at_ p))
  | none => do
    let used := (r.1.getLast?.map Prod.snd).getD 0
    let p := min used ebits
    metaNeed (used == ebits) t (at_ p) (elemIn (at_ p))
    let sm := leValue (← payload c t h area (ceilDiv (n * smBits t.tag) 8))
    let nib (i : Nat) : Nat := bits sm (smBits t.tag * i) (smBits t.tag)
    if t.tag = .e5m2 then
      match (List.range n).find? fun i => bit (nib i) 2 with
      | some i =>
        let b := h.start + 16 + area + i / 2
        let i0 := 2 * (b / 4 * 4 - (h.start + 16 + area))
        metaFail t b (elemAt i0)
      | none => pure ()
    let value (i sym : Nat) : Nat :=
      let m := manBits t.tag
      (if bit (nib i) (smBits t.tag - 1) then 2 ^ (expBits t.tag + m) else 0) + sym * 2 ^ m + nib i % 2 ^ m
    pure ((r.1.map Prod.fst).mapIdx fun i sym => value i sym)

/-! Whole blocks (R99). -/

/-- A stored element of a block. -/
structure BElement where
  row : Nat
  col : Nat
  bits : Nat
deriving DecidableEq, Repr

/-- A block as read: its elements, and for QN4 its super-scale and codes. -/
structure BlockData where
  head : BlockHead
  elems : List BElement
  super : Nat
  codes : List Nat
deriving DecidableEq, Repr

/-- `n` packed values from payload byte `off` on. -/
def readValues (c : Nat) (t : TileD) (h : BlockHead) (off n : Nat) : X (List Nat) := do
  let x := leValue (← payload c t h off (ceilDiv (n * t.tag.width) 8))
  pure ((List.range n).map fun i => t.tag.elemOf (Machine.bits x (t.tag.width * i) t.tag.width))

/-- The elements of an opened block, every check of R99 made in read order and the first failure raised. -/
def readBlock (c : Nat) (t : TileD) (hd : THead) (h : BlockHead) : X BlockData := do
  let row := h.ext.row0
  let g := bitmapsOf h.ext
  let put (cols : List Nat) (vals : List Nat) : List BElement :=
    (cols.zip vals).map fun e => ⟨row, h.ext.col0 + e.1, e.2⟩
  match t.kind with
  | 1 => do
    let cols ← readBitmaps c t h
    let q ← if t.tag = .qn4 then payload c t h (8 * g) (4 + g) else pure []
    let vals ← readValues c t h (metaLen t h) h.nnz
    pure ⟨h, put cols vals, field q 0 4, (q.drop 4).map (·.toNat)⟩
  | 2 => do
    let items ← readPairs c t h
    match items.findSome? (·.bad) with
    | some e => throw (.exc e)
    | none => do
      let vals ← readValues c t h (metaLen t h) h.nnz
      pure ⟨h, (items.zip vals).map fun e => ⟨e.1.row, e.1.col, e.2⟩, 0, []⟩
  | 3 => do
    let cols := List.range h.ext.ncols
    let vals ← if h.raw then readValues c t h 0 h.ext.ncols else readCoded c t hd h 0 cols
    pure ⟨h, put cols vals, 0, []⟩
  | _ => do
    let cols ← readBitmaps c t h
    let vals ← if h.raw then readValues c t h (8 * g) h.nnz else readCoded c t hd h (8 * g) cols
    pure ⟨h, put cols vals, 0, []⟩

/-- The COUNT check, made after the last block of a tile by an instruction that reads them all (R99). CBF-H has no COUNT. -/
def countCheck (t : TileD) (total : Nat) : X Unit := metaNeed (t.kind == 3 || total == t.count) t 20 0

/-- The bits of a dense row of a block: every element of its extent, absent ones +0. -/
def denseBits (e : Extent) (elems : List BElement) : List Nat :=
  (List.range e.ncols).map fun i => ((elems.find? fun x => x.col == e.col0 + i).map (·.bits)).getD 0

end Sys2Proof.Machine
end

