-- ==== Sys2Proof/Machine/Special.lean ====
section
/-! DEFINITION. Special registers (R33, R34, R131), vector banks (R36, R37), change of domain (R35), TRAP, TRET and END
(R132 to R134, R370, R371), hints (R48), refused words (R47) and the arrival of results and pushes (R21, R104). -/

namespace Sys2Proof.Machine

/-! Special registers. -/

/-- TOKLO and TOKHI: FIFOs `lo` to `lo + n - 1`, four bits each (R33). -/
def tokens (k : Core) (lo n : Nat) : Nat := (List.range n).foldl (fun a i => a + k.tokens (lo + i) * 2 ^ (4 * i)) 0

/-- The value MFS reads (R33, R131). -/
def readSpecial (s : State) (c : Nat) (n : Nat) : Dword :=
  let k := coreAt s c
  let r := k.sr
  match n with
  | 0x00 => statWord r
  | 0x01 => r.sstat
  | 0x02 => r.cause
  | 0x03 => r.faddr
  | 0x04 => BitVec.ofNat 64 c
  | 0x05 => (r.asidNext.getD r.asid).setWidth 64
  | 0x06 => (dieAt s (dieOf c)).cyc
  | 0x07 => r.seed
  | 0x08 => r.phn.setWidth 64
  | 0x09 => r.bopenid
  | 0x0A => r.lagcnt
  | 0x0B => r.ovfcnt
  | 0x0C => r.skipcnt
  | 0x0D => r.confcnt
  | 0x0E => BitVec.ofNat 64 (tokens k 0 16)
  | 0x0F => BitVec.ofNat 64 (tokens k 16 4)
  | 0x10 => r.vbank.setWidth 64
  | 0x11 => r.hanglim
  | _ =>
    match (k.stream .c).line with
    | some l => l.addr - BitVec.ofNat 64 (64 * (match (if k.fusedNow then spliceEntry k l.idx.toNat else none) with
        | some e => e.line.toNat
        | none => l.idx.toNat))
    | none => imageBase s c

/-- The registers R33 marks "trap" at U. -/
def trapsAtU (n : Nat) : Bool := n == 0x01 || n == 0x02 || n == 0x03 || n == 0x10 || n == 0x11

/-- The checks of a special-register number (R33, R131). -/
def specialCheck (k : Core) (n : Nat) : X Unit := do
  require (n < 0x13) .illegal (k.stream .c).wordAddr
  require (k.atS || !trapsAtU n) .priv 0

def execMfs (m : CM) (a : BitVec 5) (n : BitVec 8) (s : State) : Out :=
  interlocked m [a] (.g a) (8, false) s fun k => do
    specialCheck k n.toNat
    let s ← get
    pure (readSpecial s s.cur.core.val n.toNat, .ready)

/-! Banks (R37). -/

/-- Which of A, B and C an instruction reads (R139); VRED and VSCAN read B, and VQNT reads it for QN4. -/
def VKind.usesA : VKind → Bool
  | .splat .. => false
  | _ => true
def VKind.usesB : VKind → Bool
  | .bin _ | .fma | .cmp _ | .sel | .clamp | .part | .shuf | .pack | .unpk | .scat _ | .red _ | .scan _ => true
  | .qnt t => t == .qn4
  | _ => false
def VKind.usesC : VKind → Bool
  | .fma | .sel | .clamp | .unpk => true
  | .gath men => men
  | .scat men => men
  | _ => false

/-- Elements of an element stream that an instruction takes in all (R164, R165). -/
def streamElems (o : VecOp) : Option Nat :=
  match o.kind with
  | .cvt t _ _ => some (o.count * t.count)
  | .gath _ | .scat _ => some (o.count * (tileD o.desc).tag.count)
  | .qnt t =>
    if t = .qn4 then
      let j := o.count - 1
      some (if o.count = 0 then 0 else 64 * (256 * (j / 37) + min 256 (7 * (j % 37) + 7)))
    else some (o.count * t.count)
  | _ => none

/-- Segment steps that an element stream reaches from source `x`: its tag is that of its first segment (R164). -/
def streamReach (k : Core) (x : BitVec 6) (tag0 : Option Tag) (n : Nat) : Nat :=
  ceilDiv n (max 1 (tag0.getD (vget k.v x.toNat Seg.zero).tag).count)

/-- Segment steps of A, and of B: those of its element stream where it is one, else one an iteration. -/
def VecOp.stepsA (o : VecOp) (k : Core) : Nat :=
  match o.kind, streamElems o with
  | .scat _, _ => o.count
  | _, some n => streamReach k o.a o.tag0A n
  | _, none => o.count
def VecOp.stepsB (o : VecOp) (k : Core) : Nat :=
  match o.kind, streamElems o with
  | .scat _, some n => streamReach k o.b o.tag0B n
  | _, _ => o.count

/-- The registers of `n` steps from `r` on. -/
def reached (r : Nat) (adv : Bool) (n : Nat) : List Nat := (List.range (if adv then n else 1)).map fun j => (r + j) % 32

/-- The v registers an issued vector instruction names, advanced operands with every register they reach (R37, R143). -/
def vecNames (k : Core) (o : VecOp) : List Nat :=
  let src (x : BitVec 6) (adv : Bool) (n : Nat) : List Nat := if x.toNat < 32 then reached x.toNat adv n else []
  (if o.kind.usesA then src o.a o.aadv (o.stepsA k) else []) ++ (if o.kind.usesB then src o.b o.badv (o.stepsB k) else [])
    ++ (if o.kind.usesC then src o.c o.cadv o.count else []) ++ (if o.dv then reached o.d.toNat o.dadv o.count else [])

/-- An issued vector instruction names a register of a bank. -/
def bankNamed (k : Core) (bank : Nat) : Bool :=
  match (k.stream .v).op with
  | .vec o => (vecNames k o).any fun n => n / 8 == bank
  | _ => false

def bankState (k : Core) (i : Nat) : Nat := bits k.sr.vbank.toNat (2 * i) 2

def setBankState (k : Core) (i x : Nat) : Core :=
  let v := BitVec.ofNat 8 (k.sr.vbank.toNat - bankState k i * 2 ^ (2 * i) + x * 2 ^ (2 * i))
  { k with sr := { k.sr with vbank := v } }

def setMove (k : Core) (i : Nat) (m : BankMove) : Core := { k with banks := vset k.banks i m }
def bankMove (k : Core) (i : Nat) : BankMove := vget k.banks i .none

/-- A bank's contents are lost: zero with tag INVALID (R37). -/
def clearBank (k : Core) (i : Nat) : Core :=
  { k with v := (List.range 8).foldl (fun v j => vset v (8 * i + j) Seg.zero) k.v }

/-- A bank takes its new state once nothing issued names it (R37): 1 RETAIN, 2 GATED. -/
def leaveOn (k : Core) (i x : Nat) : Core :=
  let k1 := setMove (setBankState k i x) i .none
  if x = 2 then clearBank k1 i else k1

/-- An MTS to VBANK for one bank (R37): what it starts at once; a transition out of ON is left waiting. What the VBANK field reads
during a transition is the model's choice, since the spec does not say: DESIGN CHOICE, log 64. A write from GATED or RETAIN shows the
new state at once, before its 256 or 96 cycles have passed; a bank leaving ON, and one that an instruction wakes, show the old state
until the transition ends. -/
def writeBank (k : Core) (i x : Nat) : Core :=
  if x = 3 ∨ x = bankState k i then k
  else match bankState k i, x with
    | 0, 1 => setMove k i (.leaving false)
    | 0, _ => setMove k i (.leaving true)
    | 1, 0 => setMove (setBankState k i 0) i (.waking 96)
    | 1, _ => leaveOn k i 2
    | _, 0 => setMove (setBankState (clearBank k i) i 0) i (.ungating 256 false)
    | _, x => setMove (setBankState (clearBank k i) i x) i (.ungating 256 true)

def isLeaving (m : BankMove) : Bool := match m with
  | .leaving _ => true
  | _ => false

/-- A bank that leaves ON and is named by nothing any more does so (R37). -/
def settleBank (k : Core) (i : Nat) : Core :=
  match bankMove k i with
  | .leaving gated => if bankNamed k i then k else leaveOn k i (if gated then 2 else 1)
  | _ => k

/-- The MTS held for VBANK completes when no bank is leaving ON (R37). -/
def settleVbank (k : Core) : Core :=
  match k.block with
  | some ⟨.vbank, _, _, _⟩ => if k.banks.toList.any isLeaving then k else k.unblock
  | _ => k

/-- BANK_ENTER_RETAIN (R37). -/
def execBankEnterRetain (bank : Nat) (s : State) : Out :=
  let c := s.cur.core.val
  .next (modCore s c fun k => settleVbank (settleBank k bank))

/-- BANK_WAKE_DONE (R36, R37): 96 cycles after the wake began. -/
def execBankWakeDone (bank : Nat) (s : State) : Out :=
  .next (modCore s s.cur.core.val fun k =>
    match bankMove k bank with
    | .waking 0 => setMove (setBankState k bank 0) bank .none
    | _ => k)

/-- BANK_GATED_EXIT (R37): 256 cycles after the write. -/
def execBankGatedExit (bank : Nat) (s : State) : Out :=
  .next (modCore s s.cur.core.val fun k =>
    match bankMove k bank with
    | .ungating 0 _ => setMove k bank .none
    | _ => k)

/-- The check of a v register that an iteration reads or writes (R36): a stall while its bank changes, a wake from RETAIN,
and BANK when it is GATED. -/
def bankCheck (n : Nat) : X Unit := do
  let k ← me
  let i := n / 8
  match bankMove k i with
  | .none =>
    match bankState k i with
    | 1 => do
      modMe fun k => setMove k i (.waking 96)
      throw .hold
    | 2 => fail .bank 0
    | _ => pure ()
  | _ => throw .hold

/-! MTS (R131). -/

/-- The effect of MTS on a register other than VBANK. -/
def writeSpecial (r : Special) (atS : Bool) (n : Nat) (x : Dword) : Special :=
  match n with
  | 0x00 => { r with sat := r.sat && !x.getLsbD 15, peerlost := r.peerlost && !x.getLsbD 14 }
  | 0x01 => { r with sstat := x }
  | 0x02 => { r with cause := x &&& 0xFFFF }
  | 0x03 => { r with faddr := x }
  | 0x05 => if atS then { r with asidNext := some (x.extractLsb' 0 11) } else r
  | 0x07 => { r with seed := x }
  | 0x0A => { r with lagcnt := x }
  | 0x0B => { r with ovfcnt := x }
  | 0x0C => { r with skipcnt := x }
  | 0x0D => { r with confcnt := x }
  | 0x11 => { r with hanglim := x }
  | _ => r

def execMts (m : CM) (a : BitVec 5) (n : BitVec 8) (s : State) : Out :=
  runX .c (do
    let k ← me
    waitFor (k.canIssue m [a])
    specialCheck k n.toNat
    let x := k.readG a
    if n = 0x10 then
      modMe fun k =>
        let k1 := (List.range 4).foldl (fun k i => writeBank k i (bits x.toNat (2 * i) 2)) k
        let k2 := (List.range 4).foldl settleBank k1
        settleVbank (k2.blockOn m s.cur.len .vbank)
    else
      modMe fun k => ({ k.issue m s.cur.len with sr := writeSpecial k.sr k.atS n.toNat x }).retire .c m.sync) s

/-! Change of domain (R35). -/

/-- A core's own state after the clearing of R35. CORE, CYC and HANGLIM are not changed. -/
def clearDomain (k : Core) : Core :=
  { k with
    g := .replicate 32 0, b := .replicate 8 0, d := .replicate 16 0, p := .replicate 4 (.replicate 16 0)
    v := .replicate 32 Seg.zero, h := .replicate 16 Seg.zero, q := .replicate 4 ⟨[], []⟩
    w := .replicate 2 Plane.zero, z := .replicate 2 Tile.zero, k := .replicate 4 0
    fifo := .replicate 20 0, cc := .replicate 8 0, cb := .replicate 16 Cb.zero, banks := .replicate 4 .none, landing := []
    streams := k.streams.map fun x => { x with steer := [] }, wcfg := WCfg.zero, row0 := 0
    sr := { k.sr with vbank := 0, seed := 0, lagcnt := 0, ovfcnt := 0, skipcnt := 0, confcnt := 0, bopenid := 0 } }

/-- The clearing of R35 when the core passes from its ASID to another; a shared handle goes with the core that set it, but
a core with a saved context keeps the shared handles it has set (R376). A version that is still open is aborted (R256). -/
def changeDomain (s : State) (c : Nat) (asid : BitVec 11) : State :=
  if coreAsid s c = asid then s
  else
    let kept := !(coreAt s c).saved.isEmpty
    let s1 := modCluster (abortOpen s c) (clusterOf c) fun l => { l with
      cb := l.cb.map fun x => if x.owner == c && !kept then { x with valid := false } else x }
    modCore s1 c fun k => { clearDomain k with sr := { (clearDomain k).sr with asid := asid } }

/-! TRAP, TRET and END. -/

/-- TRAP completes, then raises SOFTWARE (R132). -/
def execTrap (m : CM) (code : BitVec 10) (s : State) : Out :=
  let c := s.cur.core.val
  let k := coreAt s c
  if k.canIssue m [] then
    .next (raise (setCore s c ((k.issue m s.cur.len).retire .c m.sync)) c .c ⟨.software, 0, code.setWidth 64, 0⟩)
  else .next s

/-- The counter of an engine instruction. -/
def opCc : EngineOp → Option (BitVec 3)
  | .none => none
  | .vec o => o.cc
  | .mat o => o.cc
  | .copy o => if o.f.ccen then some o.f.ccn else none
  | .walk o => o.cc

/-- A stream abandoned (R370): its instruction, the rest of its chain and its steer queue are discarded; V's read runs, W's
and M's sparse flow and M's plane load with them. Their counters count them as completed. -/
def abandonStream (s : State) (c : Nat) (st : StreamId) : State :=
  let s1 := modCore (orphan s c (some st)) c fun k =>
    let k1 := (k.countDone st (opCc (k.stream st).op)).modStream st fun x =>
      { x with run := .ended, saved := .ended, line := none, slot := 1, next := .none, op := .none, mpc := 0, steer := [] }
    let k2 := { k1 with rbuf := k1.rbuf.filter (fun r => r.1 != st), rfault := k1.rfault.filter fun f => f.1 != st }
    match st with
    | .v =>
      let k3 := (k2.q.toList.flatMap (·.runs)).foldl (fun k r => k.ccDown r.cc) k2
      let bare (q : OpQueue) : OpQueue := { q with runs := [] }
      let fresh (p : FwdPair) : FwdPair := { p with gens := p.gens.filter fun g => !g.taken }
      let spl (p : Splice) : Splice := { p with pairs := p.pairs.map fresh }
      { k3 with q := k3.q.map bare, splice := k3.splice.map spl }
    | .m => { k2.ccDown (k2.planeLoad.bind (·.cc)) with planeLoad := none, flow := none, leaseLeft := 0 }
    | .w => { k2 with flow := none }
    | _ => k2
  if st = .k then
    modDie s1 (dieOf c) fun d => { d with
      kimgQueue := d.kimgQueue.filter fun e => e.2 != c, decoders := d.decoders.map fun x => if x == some c then none else x }
  else s1

/-- Places of the frame that a handler may edit (R370). -/
def recAt (st : StreamId) : Nat := 64 + 32 * streamNum st

/-- The frame with its editable fields taken from the hardware's copy (R370): C's line address and slot, and a run state
that passes from RUN to ENDED. -/
def frameMasked (copy frame : List Byte) : List Byte :=
  (List.range 512).map fun i =>
    let x := copy.getD i 0
    let y := frame.getD i 0
    let runByte := [StreamId.w, .v, .m, .k].any fun st => i == recAt st + 9
    if 64 ≤ i ∧ i ≤ 72 then x else if runByte ∧ x = 1 ∧ y = 2 then x else y

/-- The engine streams that the handler's frame abandons. -/
def abandoned (copy frame : List Byte) : List StreamId :=
  [StreamId.w, .v, .m, .k].filter fun st => copy.getD (recAt st + 9) 0 == 1 && frame.getD (recAt st + 9) 0 == 2

/-- The line index of a virtual address in the kernel's image or splice buffer (R15, R276). -/
def lineIndex (s : State) (c : Nat) (a : Dword) : BitVec 24 :=
  let k := coreAt s c
  if k.fusedNow then
    BitVec.ofNat 24 (((k.splice.map (·.map)).getD []).findIdx fun e =>
      e.base + BitVec.ofNat 64 (64 * e.line.toNat) == a)
  else BitVec.ofNat 24 ((a - imageBase s c).toNat / 64)

/-- A stream resumed from its record (R19, R370): one that had a line fetches it again. -/
def Stream.resume (x : Stream) : Stream :=
  let y := { x with run := x.saved, status := 0, progress := true }
  match x.line with
  | some _ => { y with line := none, slot := 1, next := .resume x.here }
  | none => y

/-- The kernel's control stream redirected (R370). -/
def redirect (s : State) (c : Nat) (x : Stream) (a : Dword) (slot : Nat) : Stream :=
  let idx := lineIndex s c a
  let side := lineSide (coreAt s c) idx
  { x with line := none, slot := 1, next := .resume ⟨idx, a, slot, x.seqOf side, side⟩ }

/-- The flags of a poisoning stop are the frame's only (R38). -/
def clearPoisonFlags (k : Core) : Core :=
  let calm (f : Flow) : Flow := { f with poisoned := false }
  let clear (p : PlaneLoad) : PlaneLoad := { p with status := 0 }
  let k1 : Core := { k with flow := k.flow.map calm, planeLoad := k.planeLoad.map clear }
  k1.modStream .m fun x => match x.op with
    | .mat o => { x with op := .mat { o with poisoned := false } }
    | _ => x

/-- A walk resumes from its restart round, an array-mode one without the pairs its rows have done, a list-mode one from
round 0 (R184, R198, R289); the flow's steps start at 0 again. -/
def resumeWalk (k : Core) : Core :=
  let restart (f : Flow) : Flow := { f with step := 0 }
  let k1 := { k with flow := k.flow.map restart }
  k1.modStream .w fun x => match x.op with
    | .walk w =>
      let done := (k.flow.map (·.done)).getD []
      let w1 : Walk := { w with
        round := if w.cfg.mode then 0 else x.mpc.toNat, ready := [], begun := false, ended := false, recount := true
        seqNext := 0, resume := done }
      { x with op := .walk w1 }
    | _ => x

/-- STAT from SSTAT (R133): SAT, PEERLOST and MODE. -/
def statFrom (r : Special) (mode : BitVec 2) : Special :=
  { r with sat := r.sstat.getLsbD 15, peerlost := r.sstat.getLsbD 14, mode := mode }

/-- TRET's restoration (R133, R370), after every check: `frame` and `regs` are as read from the trap area. -/
def tretResume (s : State) (c : Nat) (copy frame regs : List Byte) : State :=
  let k := coreAt s c
  let new := k.sr.asidNext.getD k.sr.asid
  let s1 := changeDomain s c new
  let rd (i : Nat) : Nat := leValue ((regs.drop (8 * i)).take 8)
  let s2 := modCore s1 c fun k => { k with
    g := .ofFn fun i : Fin 32 => if i.val = 0 then 0 else BitVec.ofNat 64 (rd i.val)
    b := .ofFn fun i : Fin 8 => BitVec.ofNat 28 (rd (32 + i.val))
    sr := { statFrom k.sr (k.sr.sstat.extractLsb' 0 2) with asidNext := none }
    pbrSeq := [], stall := 0, frame := none }
  let held := ((coreAt s2 c).stream .c).held
  let c0 := (coreAt s2 c).savedC.getD Stream.reset
  let a := leDword ((frame.drop 64).take 8)
  let moved := (frame.drop 64).take 9 != (copy.drop 64).take 9
  let c1 := { c0.resume with held := c0.held ++ held }
  let c2 := if moved then redirect s2 c c1 a (leValue ((frame.drop 72).take 1)) else c1
  let s3 := modCore s2 c fun k => clearPoisonFlags { (k.setStream .c c2) with savedC := none }
  let s4 := modCore s3 c fun k =>
    resumeWalk ([StreamId.w, .v, .m, .k].foldl (fun k st => k.modStream st Stream.resume) k)
  let s5 := (abandoned copy frame).foldl (fun s st => abandonStream s c st) s4
  modCore s5 c fun k => { k with
    wantLease := if 0 < k.leaseLeft && (k.stream .m).run == .run then some k.leaseLeft else none }

/-- TRET (R133, R370). It waits for the handler's own results in flight. -/
def execTret (m : CM) (s : State) : Out :=
  runX .c (do
    let k ← me
    waitFor (k.canIssue m [])
    require k.atS .priv 0
    waitFor k.inflight.isEmpty
    let r := k.sr
    require (bits r.sstat.toNat 16 48 == 0 && bits r.sstat.toNat 4 10 == 0 && !r.sstat.getLsbD 1) .badstat 0
    let c ← myNumber
    let xs ← memLoad c (trapArea c) 832
    let copy := leBytes 512 (k.frame.getD 0).toNat
    let frame := xs.take 512
    let gone := abandoned copy frame
    let sparse := bit (copy.getD 3 0).toNat 0
    require (frameMasked copy frame == copy && !(sparse && (gone.contains .w != gone.contains .m))) .badstat 0
    modMe fun k => { (k.issue m s.cur.len).retire .c m.sync with issued := true }
    modify fun s => tretResume s c copy frame (xs.drop 512)) s

/-- END at S: the operator is abandoned (R371). -/
def abandonOperator (s : State) (c : Nat) : State :=
  let k := coreAt s c
  let s1 := writeRecord s (coreRec s c 0x0102 2 (leBytes 2 0) (leBytes 512 (k.frame.getD 0).toNat))
  let s2 := [StreamId.w, .v, .m, .k].foldl (fun s st => abandonStream s c st) s1
  let s3 := abortOpen s2 c
  modCore s3 c fun k =>
    let x := k.stream .c
    let held := ((k.savedC.map (·.held)).getD []) ++ x.held
    let noItem (o : Operator) : Operator := { o with item := none }
    let r : Special := { statFrom k.sr 0 with asidNext := none }
    let k1 : Core := { k with savedC := none, frame := none, sr := r, op := k.op.map noItem }
    (k1.setStream .c { x with held := held }).endChain

/-- END: the control stream goes to ENDED; at S the operator is abandoned (R134, R371). -/
def execEndOp (m : CM) (s : State) : Out :=
  let c := s.cur.core.val
  let k := coreAt s c
  if k.canIssue m [] then
    let s1 := setCore s c ((k.issue m s.cur.len).retire .c m.sync)
    if k.atS then .next (abandonOperator s1 c)
    else .next (modCore s1 c Core.endChain)
  else .next s

/-! Hints and refused words. -/

/-- A hint in any stream (R48). -/
def hintAt (y : Sync) (s : State) : Out :=
  match s.cur.st with
  | .c => ctl ⟨y, false⟩ [] s id
  | st => engineNow st y s (pure ())

def execHint (y : Sync) (_op : BitVec 4) (_opnd : BitVec 16) (s : State) : Out := hintAt y s
def execHintLong (y : Sync) (_op : BitVec 4) (_opnd : BitVec 16) (_ext : HintExt) (s : State) : Out := hintAt y s

/-- ILLEGAL_INSTRUCTION: the word at issue is refused; nothing of it has issued (R47). -/
def execIllegalInstruction (s : State) : Out :=
  let c := s.cur.core.val
  let x := (coreAt s c).stream s.cur.st
  if x.run = .run ∧ x.line.isSome then .next (raise s c s.cur.st ⟨.illegal, 0, x.wordAddr, 0⟩) else .next s

/-! Results and pushes that arrive (R21, R22, R104). -/

/-- EXPOSED_RESULT_WRITE: the exposed results whose last cycle has ended are written (R104). -/
def execExposedResultWrite (s : State) : Out := .next (modCore s s.cur.core.val Core.landExposed)

/-- INTERLOCKED_VALUE_ARRIVE: the oldest interlocked value at hand is written, or the fault found with it is raised (R104,
R106). -/
def execInterlockedValueArrive (s : State) : Out :=
  let c := s.cur.core.val
  let k := coreAt s c
  let p (e : InFlight) : Bool := e.wait == .ready
  match k.inflight.find? p with
  | none => .next s
  | some e =>
    match e.fault, k.raising with
    | some f, none => .next (raise s c .c f)
    | some _, some _ => .next (tryTrap s c)
    | none, _ =>
      let k1 := { k with inflight := dropFirst p k.inflight }
      .next (tryTrap (setCore s c (k1.arrive e)) c)

/-- What a stream's retirements have still to do is done, while FIFOs have room (R21, R22). -/
def landHeld (k : Core) (st : StreamId) : Core :=
  let r := landPushes st k (k.stream st).held
  (r.1.modStream st fun x => { x with held := r.2 }).settle st

/-- RETIRING_PUSH (R21). -/
def execRetiringPush (st : StreamId) (s : State) : Out :=
  .next (modCore s s.cur.core.val fun k => landHeld k st)

/-- A stream has run more than HANGLIM cycles without progress; a value that MTS has written in this cycle is not compared yet (R134,
R373). -/
def hung (k : Core) (st : StreamId) : Bool :=
  let x := k.stream st
  k.limit != 0 && x.run == .run && k.limit.toNat < x.idle

/-- HANG_TIMEOUT: of several streams the lowest-numbered is the faulting one (R372, R373). -/
def execHangTimeout (st : StreamId) (s : State) : Out :=
  let c := s.cur.core.val
  let k := coreAt s c
  if hung k st && !k.stopped && !([StreamId.c, .w, .v, .m, .k].any fun t => streamNum t < streamNum st && hung k t) then
    .next (raise s c st ⟨.hang, 0, 0, 0⟩)
  else .next s

end Sys2Proof.Machine
end

