-- ==== Sys2Proof/Machine/Ring.lean ====
section
/-! DEFINITION. Ring addressing (R24, R149, R150, R153) and the forwarding stores of a fused operator (R272 to R274). -/

namespace Sys2Proof.Machine

/-! Rings. -/

/-- The ring side of an instruction at issue: a valid handle and WAIT ≤ NSLOT, else CBUF; then the wait for WAIT filled
slots, from TAIL, or for WAIT free ones, from HEAD (R24, R150, R153). -/
def ringTake (h : BitVec 4) (free : Bool) (wait : BitVec 12) : X RingRef := do
  let s ← get
  let c := s.cur.core.val
  let x := cbAt s c h
  require (x.valid && wait.toNat ≤ x.nslot.toNat) .cbuf 0
  waitFor (cbReached x free wait.toNat)
  pure ⟨h, x.base, x.slotsz, x.nslot, if free then x.head else x.tail, wait⟩

/-- Words 2 and 3 of R149 as the instruction's own: the step, the ring taken and the counter. -/
structure LongOpts where
  step : BitVec 32
  ring : Option RingRef
  cc : Option (BitVec 3)
deriving DecidableEq, Repr

/-- The counter named by CCEN and CCN, once it has room (R25). -/
def ccTake (en : Bool) (n : BitVec 3) : X (Option (BitVec 3)) := do
  let cc := if en then some n else none
  let k ← me
  waitFor (k.ccRoom cc)
  pure cc

/-- Word 3 of R149 at issue. -/
def longTake (x : LongF) (free : Bool) : X LongOpts := do
  let ring ← if x.cben then (do
      let r ← ringTake x.cbh free x.wait
      pure (some r)) else pure none
  let cc ← ccTake x.ccen x.ccn
  pure ⟨x.step, ring, cc⟩

/-- The options of a two-word form: STEP 256 and nothing else (R149). -/
def shortOpts : LongOpts := ⟨256, none, none⟩

/-- The range check of R150 at issue for `count` units of `n` bytes, `step` apart from `p` on. -/
def ringSpan (ring : Option RingRef) (p : Dword) (step : BitVec 32) (count n : Nat) : X Unit :=
  match ring with
  | none => pure ()
  | some r =>
    let last := p.toInt + (count - 1 : Nat) * step.toInt
    require (count = 0 || (r.holds p.toInt n && r.holds last n)) .cbuf 0

/-! Forwarding (R272, R273). -/

/-- The forwarding pair that an instruction of the fused operator writes, or reads. -/
def fwdPair (k : Core) (l : Loc) (writes : Bool) : Option Nat :=
  if k.fusedNow then
    k.splice.bind fun p => p.pairs.findIdx? fun x =>
      if writes then x.wLine == l.lineIdx.toNat && x.wSlot == l.slot else x.rLine == l.lineIdx.toNat && x.rSlot == l.slot
  else none

def pairAt (k : Core) (i : Nat) : Option FwdPair := k.splice.bind fun p => p.pairs[i]?
def modPair (k : Core) (i : Nat) (f : FwdPair → FwdPair) : Core :=
  let on (p : Splice) : Splice := { p with pairs := p.pairs.modify i f }
  { k with splice := k.splice.map on }

/-- A writer at issue opens a generation, waiting while its pair holds two (R273). -/
def openGeneration (l : Loc) (tag : Tag) : X (Option Nat) := do
  let k ← me
  match fwdPair k l true with
  | none => pure none
  | some i => do
    waitFor (((pairAt k i).map fun p => decide (p.gens.length < 2)).getD true)
    let g : Generation := ⟨l.seq, tag, [], false⟩
    let add (p : FwdPair) : FwdPair := { p with gens := p.gens ++ [g] }
    modMe fun k => modPair k i add
    pure (some i)

/-- The next unit of a writer, with its physical address and whether it produced a whole segment. -/
def forwardUnit (i : Nat) (owner : BitVec 32) (pa : Nat) (x : SegBits) (whole : Bool) : X Unit := do
  let grow (g : Generation) : Generation := { g with segs := g.segs ++ [(pa, x, whole)] }
  let put (p : FwdPair) : FwdPair := { p with gens := modFirst (fun g => g.owner == owner) grow p.gens }
  modMe fun k => modPair k i put

/-- The splice of the core has a transient producer tile (R274). -/
def transient (k : Core) : Bool := (k.splice.map (·.transient)).getD false
def spliceFmt (k : Core) : Tag := (k.splice.map (·.fmt)).getD .invalid

/-- A generation is taken by its reader, the oldest one not taken yet. -/
def takeGeneration (i : Nat) : X Unit := do
  let take (g : Generation) : Generation := { g with taken := true }
  let on (p : FwdPair) : FwdPair := { p with gens := modFirst (fun g => !g.taken) take p.gens }
  modMe fun k => modPair k i on

/-- The oldest generation of a pair that satisfies `p` is consumed. -/
def dropGeneration (i : Nat) (p : Generation → Bool) (k : Core) : Core :=
  let on (x : FwdPair) : FwdPair := { x with gens := dropFirst p x.gens }
  modPair k i on

/-- Whether `n` bytes of a tag make a whole segment (R273). -/
def wholeSegment (t : Tag) (n : Nat) : Bool := n == 256 || (t.width == 6 && !t.isScaled && n == 255)

end Sys2Proof.Machine
end

