-- ==== Sys2Proof/Machine/Copy.lean ====
section
/-! DEFINITION. The copy stream's common ground (08 R205 to R217, R224 to R229): the sides of a transfer, rows and chunks of
bytes, conversion, checksum chains, and the checks at issue. -/

namespace Sys2Proof.Machine

/-! Bytes of a side, by offset from BASE or from a ring's first awaited byte. -/

/-- Bytes by offset: spans in ascending order that do not touch. -/
abbrev Chunks := List (Int × List Byte)

/-- A span joined to ascending spans. -/
def addSpan (x : Int × Nat) : List (Int × Nat) → List (Int × Nat)
  | [] => [x]
  | y :: rest =>
    if x.1 + x.2 < y.1 then x :: y :: rest
    else if y.1 + y.2 < x.1 then y :: addSpan x rest
    else
      let lo := min x.1 y.1
      addSpan (lo, (max (x.1 + x.2) (y.1 + y.2) - lo).toNat) rest

/-- Spans of no bytes dropped, the others joined in ascending order. -/
def joinSpans (l : List (Int × Nat)) : List (Int × Nat) := (l.filter fun e => e.2 != 0).foldr addSpan []

/-- `n` bytes at offset `o`, all within one chunk. -/
def takeAt (m : Chunks) (o : Int) (n : Nat) : List Byte :=
  match m.find? fun c => c.1 ≤ o && o < c.1 + (c.2.length : Int) with
  | some c => (c.2.drop (o - c.1).toNat).take n
  | none => []

/-- Bytes put at offset `o`. -/
def putAt (m : Chunks) (o : Int) (xs : List Byte) : Chunks :=
  m.map fun c =>
    if c.1 ≤ o && o < c.1 + (c.2.length : Int) then
      let i := (o - c.1).toNat
      (c.1, c.2.take i ++ xs ++ c.2.drop (i + xs.length))
    else c

/-- The bytes of chunks in ascending offset, each once (R224). -/
def chunkBytes (m : Chunks) : List Byte := m.flatMap (·.2)

/-- Address of the byte at offset `o` of a side (R217). -/
def sideAddr (t : TileD) (o : Int) : Dword :=
  match t.ring with
  | none => addrAt t.base o
  | some r => BitVec.ofNat 64 (r.addr o.toNat)

/-- Ring bytes must lie in the slots awaited (R217). -/
def ringHolds (t : TileD) (l : List (Int × Nat)) : X Unit :=
  match t.ring with
  | none => pure ()
  | some r => require (l.all fun e => r.holds e.1 e.2) .cbuf 0

/-- Bytes read at an address of a side. A window address that the side does not accept raises REMOTE (R294). -/
def sideLoad (t : TileD) (a : Dword) (n : Nat) : X (List Byte) := do
  let c ← myNumber
  if t.window then engineLoad .k a n else memLoad c a n

/-- The checks of a write at an address of a side (R229, R294). -/
def sideStoreCheck (t : TileD) (a : Dword) (n : Nat) : X (List Piece) := do
  let c ← myNumber
  if t.window then storeCheck a n else check c .write a n

/-- The spans of a side read (R217, R229). -/
def readSpans (t : TileD) : List (Int × Nat) → X Chunks
  | [] => pure []
  | e :: rest => do
    let c ← myNumber
    let xs ← match t.ring with
      | some r => ringLoad c (r.bytes e.1.toNat e.2)
      | none => sideLoad t (addrAt t.base e.1) e.2
    let m ← readSpans t rest
    pure ((e.1, xs) :: m)

/-- Every check of the writes of a unit, made before any of them (R229). -/
def checkChunks (t : TileD) : Chunks → X (List (List Piece))
  | [] => pure []
  | e :: rest => do
    let ps ← match t.ring with
      | some r =>
        match (r.bytes e.1.toNat e.2.length).find? fun pa => !usable pa with
        | some pa => fail .buserr (BitVec.ofNat 64 pa)
        | none => pure []
      | none => sideStoreCheck t (addrAt t.base e.1) e.2.length
    let qs ← checkChunks t rest
    pure (ps :: qs)

/-- The writes of checked chunks. -/
def writeChunks (t : TileD) : Chunks → List (List Piece) → X Unit
  | e :: rest, ps :: qs => do
    match t.ring with
    | some r => ringStore (r.bytes e.1.toNat e.2.length) e.2
    | none => storeChecked .k (addrAt t.base e.1) ps e.2
    writeChunks t rest qs
  | _, _ => pure ()

/-- Chunks written to a side, checked first. -/
def putChunks (t : TileD) (m : Chunks) : X Unit := do
  ringHolds t (m.map fun e => (e.1, e.2.length))
  let ps ← checkChunks t m
  writeChunks t m ps

/-! Rows of a dense tile (R90). -/

/-- Elements of a row lie apart, or out of order. -/
def strided (t : TileD) : Bool := !t.tag.isScaled && 8 ≤ t.tag.width && t.s0 != ((t.tag.width / 8 : Nat) : Int)

/-- The scale bytes of `n` elements from column `c` on: X bytes, or super-scales and codes. -/
def scaleSpans (t : TileD) (c n : Nat) : List (Int × Nat) :=
  if n = 0 then []
  else if t.tag.isMx then [((c / 32 : Nat), (c + n - 1) / 32 - c / 32 + 1)]
  else if t.tag = .qn4 then
    [((4 * (c / 16384) : Nat), 4 * ((c + n - 1) / 16384 - c / 16384 + 1)),
     ((4 * ceilDiv (t.dim0 / 64) 256 + c / 64 : Nat), (c + n - 1) / 64 - c / 64 + 1)]
  else []

/-- The bytes that hold `n` elements of a row from column `c` on. -/
def elementSpans (t : TileD) (c n : Nat) : List (Int × Nat) :=
  if strided t then (List.range n).map fun i => ((elemPlace t t.tag (c + i)).1, t.tag.width / 8)
  else
    let p := elemPlace t t.tag c
    [(p.1, (p.2 + n * t.tag.width + 7) / 8)]

def shiftSpans (o : Int) (l : List (Int × Nat)) : List (Int × Nat) := l.map fun e => (o + e.1, e.2)

/-- Every byte that `n` elements of row `r` from column `c` on and their scales take, in ascending order. -/
def rowSpans (t : TileD) (r : Int) (c n : Nat) : List (Int × Nat) :=
  if n = 0 then [] else joinSpans (shiftSpans (r * t.s1) (scaleSpans t c n ++ elementSpans t c n))

/-- An element's stored bits with its scale, out of the bytes read. -/
def elemOf (t : TileD) (m : Chunks) (r : Int) (n : Nat) : Nat × Scale :=
  let p := elemPlace t t.tag n
  let o := r * t.s1
  let q := scalePlace t t.tag n
  let byte (i : Nat) : Nat := leValue (takeAt m (o + (i : Int)) 1)
  let sc : Scale :=
    if t.tag.isMx then ⟨byte q.1, 0⟩
    else if t.tag = .qn4 then ⟨byte q.1, leValue (takeAt m (o + (q.2 : Int)) 4)⟩
    else ⟨0, 0⟩
  (bits (leValue (takeAt m (o + p.1) (elemBytes t.tag p.2))) p.2 t.tag.width, sc)

/-- A row's elements from column `c` on. -/
def rowElemsOf (t : TileD) (m : Chunks) (r : Int) (c n : Nat) : List (Nat × Scale) :=
  (List.range n).map fun i => elemOf t m r (c + i)

/-- Elements placed into a row from column `c` on; a later element's bytes remain (R90). -/
def placeElems (t : TileD) (r : Int) (c : Nat) (vals : List Nat) (m : Chunks) : Chunks :=
  let o := r * t.s1
  if strided t then
    (List.range vals.length).foldl (fun (m : Chunks) (i : Nat) =>
      putAt m (o + (elemPlace t t.tag (c + i)).1) (leBytes (t.tag.width / 8) (vals.getD i 0))) m
  else putAt m (o + (elemPlace t t.tag c).1) (leBytes (ceilDiv (vals.length * t.tag.width) 8) (packFrom t.tag.width vals))

/-- Chunks of zero bytes over spans. -/
def blank (l : List (Int × Nat)) : Chunks := l.map fun e => (e.1, List.replicate e.2 0)

/-- The zero bytes of row `r` between its scales and its elements, which every write of the row writes (R90). -/
def rowPadding (t : TileD) (r : Int) : Chunks :=
  let n := scaleLen t.tag t.dim0
  blank (joinSpans [(r * t.s1 + (n : Int), roundUp n 16 - n)])

/-- A chunk put among chunks in ascending offset. -/
def addChunk (x : Int × List Byte) : Chunks → Chunks
  | [] => [x]
  | y :: rest => if x.1 ≤ y.1 then x :: y :: rest else y :: addChunk x rest

/-- A destination range narrower than 8 bits starts and ends on byte boundaries, and on 3-byte groups for FP6 (R211). -/
def narrowOk (tag : Tag) (c n : Nat) : Bool :=
  let g := if tag.width = 6 then 24 else 8
  8 ≤ tag.width || (c * tag.width % g == 0 && n * tag.width % g == 0)

/-! The fields of a transfer. -/

/-- KCOPY, K2D and KFILL accept a remote BASE (R208). -/
def KKind.remote (k : KKind) : Bool := [.copy, .two, .fill].contains k

def CopyOp.src (o : CopyOp) : TileD :=
  let t := tileD o.descS
  { t with code := o.ts.code, ring := o.ringS, window := o.kind.remote }
def CopyOp.dst (o : CopyOp) : TileD :=
  let t := tileD o.descD
  { t with code := o.td.code, ring := o.ringD, window := o.kind.remote }
/-- Parameter k.p(P + i). -/
def CopyOp.par (o : CopyOp) (i : Nat) : Dword := o.p.getD i 0
def CopyOp.count (o : CopyOp) : Nat := o.f.count.toNat
/-- Row and column of an origin (R208). -/
def originRow (p : Dword) : Nat := bits p.toNat 0 32
def originCol (p : Dword) : Nat := bits p.toNat 32 32
def CopyOp.rs (o : CopyOp) : Nat := originRow (o.par 0)
def CopyOp.cs (o : CopyOp) : Nat := originCol (o.par 0)
def CopyOp.rd (o : CopyOp) : Nat := originRow (o.par 1)
def CopyOp.cd (o : CopyOp) : Nat := originCol (o.par 1)
/-- Elements per row: NEL, or what is left of the row for KFILL (R215). -/
def CopyOp.nel (o : CopyOp) : Nat := if o.kind = .fill then o.dst.dim0 - o.cd else bits o.f.w2.toNat 0 28
/-- The capacity of KENC (R208). -/
def CopyOp.cap (o : CopyOp) : Nat := (o.par 2).toNat
/-- A transfer whose bytes are copied unchanged (R210). -/
def CopyOp.raw (o : CopyOp) : Bool := o.kind == .view || o.ts == o.td

/-- The instructions that R210 governs. -/
def KKind.tagged (k : KKind) : Bool := [.copy, .two, .gath, .scat, .fill, .enc, .dec].contains k

/-! Conversion (R210). -/

def CopyOp.rounding (o : CopyOp) : Rounding := ⟨Rnd.ofCode o.f.rnd, o.seed, drawIndex .k o.loc.seq⟩

/-- An element as written: its bits, or its value rounded under draw index `i`. Bits [31:19] of an E8M10 element that goes into or
comes out of a compressed tile are written as zero (R68). -/
def CopyOp.convert (o : CopyOp) (i : Nat) (x : Nat × Scale) : Nat :=
  if o.ts = o.td then (if o.kind == .enc || o.kind == .dec then o.ts.elemOf x.1 else x.1)
  else o.rounding.narrow o.td o.f.sat i (scaledVal o.ts (o.ts.elemOf x.1) x.2)

/-- Elements as written, the first under draw index `i`. -/
def CopyOp.convertAll (o : CopyOp) (i : Nat) (xs : List (Nat × Scale)) : List Nat := xs.mapIdx fun j x => o.convert (i + j) x

/-! KCOPY's chunks (R212). -/

/-- Element widths of the two sides; bytes when raw. -/
def CopyOp.widths (o : CopyOp) : Nat × Nat := if o.raw then (8, 8) else (o.ts.width, o.td.width)
def CopyOp.chunk (o : CopyOp) : Nat := if !o.raw && o.ts.width = 6 then 255 else 256
def CopyOp.bytes (o : CopyOp) : Nat := o.f.w2.toNat
/-- Chunks of an iteration. -/
def CopyOp.per (o : CopyOp) : Nat := ceilDiv o.bytes o.chunk
/-- Bytes that an iteration writes. -/
def CopyOp.outBytes (o : CopyOp) : Nat := o.bytes * 8 / o.widths.1 * o.widths.2 / 8

/-- Offsets of iteration `j` on the two sides (R212). -/
def CopyOp.offS (o : CopyOp) (j : Nat) : Int := (o.par 0).toInt + j * signExtend (bits (o.par 2).toNat 0 32) 32
def CopyOp.offD (o : CopyOp) (j : Nat) : Int := (o.par 1).toInt + j * signExtend (bits (o.par 2).toNat 32 32) 32

/-- Container size in bytes of an element of `w` bits (R212). -/
def containerBytes (w : Nat) : Nat := if w < 8 then 1 else w / 8

/-! Chains (R224 to R226). -/

def crcStep (v : Nat) : Nat := if v % 2 = 1 then v / 2 ^^^ 0x82F63B78 else v / 2
/-- One byte in CRC-32C mode. -/
def crcByte (v : Nat) (b : Byte) : Nat := (List.range 8).foldl (fun v _ => crcStep v) (v ^^^ b.toNat)
/-- One byte at position `p` in WSUM mode. -/
def wsumByte (v p : Nat) (b : Byte) : Nat := (v + (p / 4 + 1) * b.toNat * 2 ^ (8 * (p % 4))) % 4294967291

/-- A chain value and position after bytes. -/
def chainBytes (crc : Bool) : List Byte → Dword × Dword → Dword × Dword
  | [], x => x
  | b :: rest, x =>
    let v := if crc then crcByte x.1.toNat b else wsumByte x.1.toNat x.2.toNat b
    chainBytes crc rest (BitVec.ofNat 64 v, x.2 + 1)

/-- A transfer feeds chain 0 from its source and chain 1 to its destination, as CKSEL says. -/
def feeds (f : KF) (i : Nat) : Bool := f.ckm != 0 && (f.cksel == 2 || f.cksel.toNat == i)

def feedChain (f : KF) (i : Nat) (xs : List Byte) (k : Core) : Core :=
  if feeds f i then
    let x := chainBytes (f.ckm == 1) xs (vget k.k (2 * i) 0, vget k.k (2 * i + 1) 0)
    { k with k := vset (vset k.k (2 * i) x.1) (2 * i + 1) x.2 }
  else k

/-- A start sets each chain that the transfer feeds (R224 to R226). -/
def startChain (f : KF) (i : Nat) (k : Core) : Core :=
  if f.ckop.getLsbD 0 && feeds f i then
    { k with k := vset (vset k.k (2 * i) (if f.ckm = 1 then 0xFFFFFFFF else 0)) (2 * i + 1) 0 }
  else k

/-! Checks at issue. -/

/-- A named descriptor: R27, its KIND, and a BASE that must be local (R208, R294). That DIM0 holds whole blocks is asked of the tag
that the transfer resolves, in `wholeChecks`. -/
def sideCheck (d : BitVec 256) (compressed remote : Bool) : X Unit := do
  let t := tileD d
  require t.fieldsOk .desc t.base
  kindCheck t (if compressed then t.kind != 0 else t.kind == 0)
  if remote then pure () else localCheck t

/-- The descriptors named (R27, R208, R294). The BASE of a ring side is ignored (R217). -/
def namedChecks (o : CopyOp) : X Unit := do
  let k := o.kind
  if k.usesS then sideCheck o.descS (k == .dec) (k.remote || o.ringS.isSome)
  if k.usesD then sideCheck o.descD (k == .enc) (k.remote || o.ringD.isSome)
  if k = .gath ∨ k = .scat then do
    sideCheck o.descI false false
    require (tileD o.descI).ok .desc (tileD o.descI).base
  let far (t : TileD) : Bool := t.ring.isNone && isWindow t.base
  require (!(k.usesS && k.usesD && far o.src && far o.dst)) .desc o.dst.base

/-- The tags (R210, R212, R214, R215, R218, R219). -/
def tagChecks (o : CopyOp) : X Unit := do
  let k := o.kind
  if k.tagged then do
    require (!(k.usesS && o.ts == .invalid) && !(k.usesD && o.td == .invalid)) .tag 0
    let idx (t : Tag) : Bool := t == .index16 || t == .index32
    let both := k.usesS && k.usesD && o.ts != o.td
    require (!(both && (o.td.isScaled || idx o.ts || idx o.td))) .tag 0
    require (!(k == .copy && both && o.ts.isScaled)) .tag 0
    require (!(k == .fill && o.td.isScaled)) .tag 0
    require (!(k == .dec && o.td.isMx)) .tag 0
    require (k != .enc || kindAccepts o.dst.kind o.td) .tag 0
  if k = .gath ∨ k = .scat then
    require ([Tag.index16, .index32, .int32, .int64].contains (tileD o.descI).tag) .tag 0

/-- A resolved tag whose blocks DIM0 does not hold whole (R90). -/
def wholeChecks (o : CopyOp) : X Unit := do
  let k := o.kind
  if (k.tagged || k == .pf) && k != .copy then do
    require (!k.usesS || k == .dec || blocksWhole o.ts o.src.dim0) .desc o.src.base
    require (!k.usesD || k == .enc || blocksWhole o.td o.dst.dim0) .desc o.dst.base

/-- Rows from `r` on, unless an index gives them, and elements from `c` on lie in the tile, in whole blocks (R211). -/
def rangeOk (t : TileD) (indexed : Bool) (count r c nel other : Nat) : Bool :=
  (indexed || count == 0 || r + count ≤ t.dim1) && c + nel ≤ t.dim0
    && (!t.tag.isMx || (c % 32 == 0 && nel % 32 == 0))
    && (t.tag != .qn4 || (c == 0 && nel == t.dim0 && nel == other))

/-- The ranges of K2D, KGATH, KSCAT and KFILL (R211, R215). -/
def rangeChecks (o : CopyOp) : X Unit := do
  let k := o.kind
  if [KKind.two, .gath, .scat].contains k then
    require (rangeOk o.src (k == .gath) o.count o.rs o.cs o.nel o.dst.dim0) .desc o.src.base
  if [KKind.two, .gath, .scat].contains k then
    require (rangeOk o.dst (k == .scat) o.count o.rd o.cd o.nel o.src.dim0) .desc o.dst.base
  if k = .fill then
    require (o.cd ≤ o.dst.dim0 && rangeOk o.dst false o.count o.rd o.cd o.nel o.nel) .desc o.dst.base

/-- A converting KCOPY moves whole elements into whole bytes (R212). -/
def convertChecks (o : CopyOp) : X Unit :=
  let (ws, wd) := o.widths
  let n := o.bytes * 8 / ws
  require (o.kind != .copy || o.raw
    || (o.bytes * 8 % ws == 0 && (ws != 6 || o.bytes % 3 == 0) && n * wd % (if wd = 6 then 24 else 8) == 0)) .desc o.dst.base

/-- What a KDEC's fields fix (R219). -/
def decodeChecks (o : CopyOp) : X Unit := do
  if o.kind = .dec then do
    require (o.count == 0 || o.rs + o.count ≤ o.src.nblk) .desc o.src.base
    require (o.td != .qn4 || o.cd % 64 == 0) .desc o.dst.base

/-- A compare takes both chains of a raw transfer (R224). -/
def compareChecks (o : CopyOp) : X Unit :=
  require (!o.f.ckop.getLsbD 1 || (o.f.cksel == 2 && o.raw)) .desc o.dst.base

/-- The first and the last of `n` rows from `r` on hold every ring offset between them. -/
def rowsHeld (t : TileD) (r c n count : Nat) : X Unit :=
  if count = 0 ∨ n = 0 then pure ()
  else ringHolds t (rowSpans t r c n ++ rowSpans t ((r + count - 1 : Nat) : Int) c n)

/-- The rows that the blocks of a KDEC write (R219). -/
def blocksHeld (o : CopyOp) : Nat → X Unit
  | 0 => pure ()
  | n + 1 => do
    blocksHeld o n
    let e := o.src.extent (o.rs + n)
    rowsHeld o.dst (o.rd + e.row0) (o.cd + e.col0) e.ncols e.nrows

/-- The range check of a ring side for every byte that the fields fix (R217). -/
def ringChecks (o : CopyOp) : X Unit := do
  let n := o.count
  match o.kind with
  | .copy =>
    if n = 0 ∨ o.bytes = 0 then pure ()
    else do
      ringHolds o.src [(o.offS 0, o.bytes), (o.offS (n - 1), o.bytes)]
      ringHolds o.dst [(o.offD 0, o.outBytes), (o.offD (n - 1), o.outBytes)]
  | .two => do
    rowsHeld o.src o.rs o.cs o.nel n
    rowsHeld o.dst o.rd o.cd o.nel n
  | .gath => rowsHeld o.dst o.rd o.cd o.nel n
  | .scat => rowsHeld o.src o.rs o.cs o.nel n
  | .fill => rowsHeld o.dst o.rd o.cd o.nel n
  | .enc => do
    rowsHeld o.src o.rs o.cs o.dst.dim0 o.dst.dim1
    ringHolds o.dst [(0, 32 + 4 * o.dst.nblk)]
  | .dec =>
    if n = 0 then pure ()
    else do
      ringHolds o.src [(0, 32), ((32 + 4 * o.rs : Nat), 4 * n)]
      blocksHeld o n
  | _ => pure ()

/-- Everything a copy instruction checks at issue, but for KIMG's own (R207 to R219, R224). -/
def copyChecks (o : CopyOp) : X Unit := do
  namedChecks o
  tagChecks o
  wholeChecks o
  compareChecks o
  rangeChecks o
  convertChecks o
  decodeChecks o
  ringChecks o

/-! Issue (R205). -/

/-- Units of a transfer (R208, R228). A KENC writes its header after its blocks, whatever their number. -/
def CopyOp.total (o : CopyOp) : Nat :=
  match o.kind with
  | .copy => o.per * o.count
  | .two | .gath | .scat | .fill | .pf => if o.nel = 0 then 0 else o.count
  | .enc => o.dst.nblk
  | .dec => o.count
  | .tab => 1
  | .view => if o.count = 0 then 0 else 1
  | .img => 0

/-- A transfer with its issue-time copies (R27, R80, R205, R207). -/
def newCopy (k : Core) (kind : KKind) (y : Sync) (f : KF) (ring : Option RingRef) : CopyOp :=
  let x := k.stream .k
  let tag (d : BitVec 4) (t : BitVec 5) : Tag := if t = 0 then (tileD (k.readD d)).tag else Tag.ofCode t.toNat
  let o : CopyOp :=
    { kind := kind, f := f, descS := k.readD f.ds, descD := k.readD f.dd
      descI := k.readD (f.w2.extractLsb' 28 4)
      p := (List.range 4).map fun i => k.readP .k (BitVec.ofNat 4 (min 15 (f.p.toNat + i)))
      p15 := k.readP .k 15, seed := k.sr.seed, ts := tag f.ds f.sfmt, td := tag f.dd f.dfmt
      ringS := if f.cbside then none else ring, ringD := if f.cbside then ring else none
      loc := x.here, wordAddr := x.wordAddr, sync := y, units := 0, unit := 0, encPos := 0, encCount := 0, table := none
      views := [], placed := none, held := [], page := none, finished := false, chains := [], compared := false, mismatch := false }
  { o with units := o.total, encPos := 32 + 4 * o.dst.nblk }

def setCopy (o : CopyOp) (k : Core) : Core := k.modStream .k fun x => { x with op := .copy o }

/-- Issue of a copy instruction: the ring and counter waits, the copies and checks, the start of its chains, and `x`'s own
part of the issue. -/
def copyIssue (kind : KKind) (y : Sync) (f : KF) (x : CopyOp → X CopyOp) (s : State) : Out :=
  engineIssue .k y s (do
    let ring ← if f.cben then (do
        let r ← ringTake f.cbh f.cbside f.wait
        pure (some r)) else pure none
    let cc ← ccTake f.ccen f.ccn
    let k ← me
    let o := newCopy k kind y f ring
    copyChecks o
    let o ← x o
    modMe fun k => setCopy o (startChain f 1 (startChain f 0 (k.ccUp cc))))

def execKcopy (y : Sync) (f : KF) (s : State) : Out := copyIssue .copy y f pure s
def execK2d (y : Sync) (f : KF) (s : State) : Out := copyIssue .two y f pure s
def execKgath (y : Sync) (f : KF) (s : State) : Out := copyIssue .gath y f pure s
def execKscat (y : Sync) (f : KF) (s : State) : Out := copyIssue .scat y f pure s
def execKfill (y : Sync) (f : KF) (s : State) : Out := copyIssue .fill y f pure s
def execKpf (y : Sync) (f : KF) (s : State) : Out := copyIssue .pf y f pure s
def execKenc (y : Sync) (f : KF) (s : State) : Out := copyIssue .enc y f pure s
def execKdec (y : Sync) (f : KF) (s : State) : Out := copyIssue .dec y f pure s
def execKtab (y : Sync) (f : KF) (s : State) : Out := copyIssue .tab y f pure s
def execKview (y : Sync) (f : KF) (s : State) : Out := copyIssue .view y f pure s

/-- The normalisation block of a KIMG, read once at issue (R307, R308). -/
def normBlock (o : CopyOp) : X (List Byte) := do
  if o.td = .int1 ∧ bit o.f.w2.toNat 15 then pure []
  else do
    let a := o.par 3
    require (a.toNat % 8 == 0) .align a
    let c ← myNumber
    memLoad c a 24

/-- A KIMG enters its die's queue in order of issue, those of one cycle in ascending core number (R302). -/
def enterQueue (e : Nat × Nat) : List (Nat × Nat) → List (Nat × Nat)
  | [] => [e]
  | x :: rest => if e.1 == x.1 && e.2 < x.2 then e :: x :: rest else x :: enterQueue e rest

def execKimg (y : Sync) (f : KF) (s : State) : Out :=
  copyIssue .img y f (fun o => do
    require (imgCode (BitVec.ofNat 5 o.td.code)) .illegal o.wordAddr
    let xs ← normBlock o
    let c ← myNumber
    modify fun s => modDie s (dieOf c) fun d => { d with kimgQueue := enterQueue (d.cyc.toNat, c) d.kimgQueue }
    pure { o with held := xs }) s

end Sys2Proof.Machine
end

