-- ==== Sys2Proof/Machine/CopyMove.lean ====
section
/-! DEFINITION. The units of the copy transfers that move elements (08 R212 to R216), of KTAB (R220), and of KENC and KDEC
(R218, R219). -/

namespace Sys2Proof.Machine

/-- Bits of byte `i` of chunks flipped. -/
def flipAt (flip : Byte) : Nat → Chunks → Chunks
  | _, [] => []
  | i, c :: rest =>
    if i < c.2.length then (c.1, c.2.set i (c.2.getD i 0 ^^^ flip)) :: rest else c :: flipAt flip (i - c.2.length) rest

/-- A soft error of this core's staging buffer strikes the unit that it holds: the destination and chain 1 take the flipped bits,
chain 0 has taken the true ones (R224, R317). -/
def strikeStaging (out : Chunks) : X Chunks := do
  let s ← get
  let hit (e : SoftError) : Bool := match e with
    | .staging core _ _ => core == s.cur.core.val
    | _ => false
  match s.soft.find? hit with
  | some (.staging _ i flip) => do
    set { s with soft := dropFirst hit s.soft }
    pure (flipAt flip i out)
  | _ => pure out

/-- The bytes of a unit leave: written to the destination after every check of it, with the zero bytes of its row, then fed to the
chains (R90, R224, R229). -/
def emitUnit (o : CopyOp) (source out zeros : Chunks) : X Unit := do
  let out ← strikeStaging out
  putChunks o.dst (zeros.foldr addChunk out)
  modMe fun k => feedChain o.f 1 (chunkBytes out) (feedChain o.f 0 (chunkBytes source) k)

/-- Source spans read, those of a ring within its slots. -/
def fetchSpans (t : TileD) (l : List (Int × Nat)) : X Chunks := do
  ringHolds t l
  readSpans t l

/-! KCOPY (R212). -/

def rawChunk (o : CopyOp) (j lo n : Nat) : X Unit := do
  let m ← fetchSpans o.src [(o.offS j + (lo : Int), n)]
  emitUnit o m [(o.offD j + (lo : Int), chunkBytes m)] []

/-- A converting chunk: the destination bytes that its elements complete. Elements of a byte begun by the chunk before are
read again for it. -/
def convertChunk (o : CopyOp) (j lo n : Nat) : X Unit := do
  let (ws, wd) := o.widths
  require (lo != 0 || (sideAddr o.src (o.offS j)).toNat % containerBytes ws == 0) .align (sideAddr o.src (o.offS j))
  require (lo != 0 || (sideAddr o.dst (o.offD j)).toNat % containerBytes wd == 0) .align (sideAddr o.dst (o.offD j))
  let first := lo * 8 / ws * wd / 8
  let last := (lo + n) * 8 / ws * wd / 8
  let from_ := first * 8 / wd
  let count := (last - first) * 8 / wd
  let start := from_ * ws / 8
  let m ← fetchSpans o.src [(o.offS j + (start : Int), lo + n - start)]
  let x := leValue (chunkBytes m)
  let vals := o.convertAll (j * (o.bytes * 8 / ws) + from_) ((List.range count).map fun i => (bits x (i * ws) ws, ⟨0, 0⟩))
  let fed : Chunks := m.map fun c => (c.1, c.2.drop (lo - start))
  emitUnit o fed [(o.offD j + (first : Int), leBytes (last - first) (packFrom wd vals))] []

def copyChunk (o : CopyOp) : X Unit :=
  let j := o.unit / o.per
  let lo := o.unit % o.per * o.chunk
  let n := min o.chunk (o.bytes - lo)
  if o.raw then rawChunk o j lo n else convertChunk o j lo n

/-! Rows (R211, R213 to R215). -/

/-- The scale bytes of a raw row's blocks moved into the matching places (R211). -/
def moveScales (o : CopyOp) (m : Chunks) (rs rd : Int) (out : Chunks) : Chunks :=
  let a := shiftSpans (rs * o.src.s1) (scaleSpans o.src o.cs o.nel)
  let b := shiftSpans (rd * o.dst.s1) (scaleSpans o.dst o.cd o.nel)
  (a.zip b).foldl (fun (out : Chunks) (e : (Int × Nat) × (Int × Nat)) => putAt out e.2.1 (takeAt m e.1.1 e.1.2)) out

/-- Elements from source row `rs` to destination row `rd`. -/
def moveRow (o : CopyOp) (rs rd : Int) : X Unit := do
  let n := o.nel
  let spans := rowSpans o.dst rd o.cd n
  ringHolds o.dst spans
  require (narrowOk o.td o.cd n) .align (sideAddr o.dst (rd * o.dst.s1))
  let m ← fetchSpans o.src (rowSpans o.src rs o.cs n)
  let vals := o.convertAll (o.unit * n) (rowElemsOf o.src m rs o.cs n)
  let out := placeElems o.dst rd o.cd vals (blank spans)
  emitUnit o m (if o.td.isScaled then moveScales o m rs rd out else out)
    (if n = 0 then [] else rowPadding o.dst rd)

/-- The index of iteration `j`, with its address (R214). -/
def indexAt (o : CopyOp) (j : Nat) : X (Int × Dword) := do
  let t := tileD o.descI
  let a := addrAt t.base (elemPlace t t.tag (originRow (o.par 2) + j)).1
  let w := t.tag.width
  let c ← myNumber
  let x := leValue (← memLoad c a (w / 8))
  pure (if t.tag = .int32 ∨ t.tag = .int64 then signExtend x w else (x : Int), a)

/-- Row `r + x` of a tile, which must exist (R214). -/
def indexedRow (t : TileD) (r : Nat) (x : Int × Dword) : X Int := do
  let row := (r : Int) + x.1
  require (0 ≤ row && row < t.dim1) .index x.2
  pure row

def gatherRow (o : CopyOp) : X Unit := do
  let x ← indexAt o o.unit
  let r ← indexedRow o.src o.rs x
  ringHolds o.src (rowSpans o.src r o.cs o.nel)
  moveRow o r (o.rd + o.unit : Nat)

def scatterRow (o : CopyOp) : X Unit := do
  let x ← indexAt o o.unit
  let r ← indexedRow o.dst o.rd x
  moveRow o (o.rs + o.unit : Nat) r

/-- The bits that KFILL puts into each element (R215). -/
def fillBits (o : CopyOp) : Nat :=
  let p := o.f.w2
  if o.td = .int64 then (p.signExtend 64).toNat
  else if o.td = .e8m10 then p.toNat % 2 ^ 19
  else p.toNat % 2 ^ o.td.width

def fillRow (o : CopyOp) : X Unit := do
  let r : Int := (o.rd + o.unit : Nat)
  let n := o.nel
  require (narrowOk o.td o.cd n) .align (sideAddr o.dst (r * o.dst.s1))
  putChunks o.dst (placeElems o.dst r o.cd (List.replicate n (fillBits o)) (blank (rowSpans o.dst r o.cd n)))

/-! KPF (R216). -/

/-- The pages of spans translated for reading; an access that would fault is dropped. -/
def touchSpans (t : TileD) : List (Int × Nat) → X Unit
  | [] => pure ()
  | e :: rest => do
    let c ← myNumber
    tryCatch (do
      let _ ← check c .read (addrAt t.base e.1) e.2
      pure ()) fun _ => pure ()
    touchSpans t rest

def prefetchRow (o : CopyOp) : X Unit := touchSpans o.src (rowSpans o.src (o.rs + o.unit : Nat) o.cs o.nel)

/-! KTAB (R96, R220). -/

/-- Symbols of an alphabet. -/
def alphaSize (alpha : Nat) : Nat := if alpha = 0 then 256 else if alpha = 1 then 16 else 32

/-- Sum of 2^(15 - LEN) over the present symbols below `n`. -/
def kraft (len : List Byte) (n : Nat) : Nat :=
  ((len.take n).map fun l => if l = 0 then 0 else 2 ^ (15 - l.toNat)).sum

/-- Byte `i` of a table image breaks R96. Where no symbol is present the first byte of LEN counts as the failing one, and where the sum
exceeds 1 the byte at which it passes 1: the rule names none (DESIGN CHOICE, log 66). -/
def tableByteBad (xs : List Byte) (i : Nat) : Bool :=
  let b := (xs.getD i 0).toNat
  let len := xs.drop 8
  if i = 0 then 2 < b
  else if i = 1 then b != 0
  else if i < 4 then false
  else if i < 8 then b != 0
  else 15 < b || (alphaSize (xs.getD 0 0).toNat ≤ i - 8 && b != 0)
    || (i == 8 && len.all (· == 0)) || 2 ^ 15 < kraft len (i - 7)

/-- The first failing byte of an image. -/
def tableBad (xs : List Byte) : Option Nat := (List.range 264).find? (tableByteBad xs)

/-- KTAB's unit: the image read and checked, and kept until completion. -/
def tableUnit (o : CopyOp) : X Unit := do
  let a := o.src.base + o.par 0
  let c ← myNumber
  let xs ← memLoad c a 264
  match tableBad xs with
  | some i => fail .table (a + BitVec.ofNat 64 (i / 4 * 4))
  | none => modMe fun k => setCopy { o with held := xs } k

/-- The table that an image makes. -/
def tableOf (xs : List Byte) : HuffTable := ⟨xs.getD 0 0, BitVec.ofNat 16 (field xs 2 2), (xs.drop 8).take 256⟩

/-- The resident table that W2 names. -/
def CopyOp.tbl (o : CopyOp) : Nat := bits o.f.w2.toNat 28 4

/-! KDEC (R219). -/

/-- Elements of a tile's blocks before block `b`. -/
def elementsBefore (t : TileD) (b : Nat) : Nat :=
  let e := t.extent b
  e.row0 * t.dim0 + e.nrows * e.col0

/-- What a block holds, absent ones included: elements, super-scale, codes and stored count. -/
def blockData (c : Nat) (t : TileD) (hd : THead) (b : Nat) : X (List BElement × Nat × List Nat × Nat) := do
  match ← openBlock c t hd b with
  | none => pure ([], 0, [], 0)
  | some h => do
    let d ← readBlock c t hd h
    pure (d.elems, d.super, d.codes, h.nnz)

/-- A QN4 group that is coded but not stored whole cannot be written (R219). -/
def groupsWhole (e : Extent) (elems : List BElement) (codes : List Nat) : Bool :=
  (List.range codes.length).all fun j =>
    codes.getD j 0 == 0 || ((List.range e.ncols).all fun i => i / 64 != j || elems.any fun x => x.col == e.col0 + i)

/-- Codes and super-scale of a QN4 block put into the row's scale area (R90, R219). -/
def placeCodes (o : CopyOp) (r : Int) (e : Extent) (super : Nat) (codes : List Nat) : Chunks :=
  let t := o.dst
  let row := r * t.s1
  let code (j : Nat) : Int × List Byte :=
    (row + ((4 * ceilDiv (t.dim0 / 64) 256 + (o.cd + e.col0 + 64 * j) / 64 : Nat) : Int), leBytes 1 (codes.getD j 0))
  let scale (j : Nat) : Int × List Byte := (row + ((4 * ((o.cd + e.col0 + 64 * j) / 16384) : Nat) : Int), leBytes 4 super)
  let g := List.range (bitmapsOf e)
  let scales := (g.filter fun j => codes.getD j 0 != 0).map scale
  g.map code ++ scales.eraseDups

/-- The rows of a decoded block as they are written; an element that the block does not store is +0 (R219). -/
def decodedRows (o : CopyOp) (e : Extent) (i0 : Nat) (elems : List BElement) (super : Nat) (codes : List Nat) : Chunks :=
  (List.range e.nrows).flatMap fun n =>
    let row := elems.filter fun x => x.row == e.row0 + n
    let code (i : Nat) : Scale := ⟨codes.getD (i / 64) 0, super⟩
    let stored (i : Nat) : Bool := row.any fun x => x.col == e.col0 + i
    let vals := (o.convertAll (i0 + n * e.ncols) ((denseBits e row).mapIdx fun i b => (b, code i))).mapIdx fun i x =>
      if stored i then x else 0
    let r : Int := (o.rd + e.row0 + n : Nat)
    let at_ := shiftSpans (r * o.dst.s1) (elementSpans o.dst (o.cd + e.col0) e.ncols)
    placeElems o.dst r (o.cd + e.col0) vals (blank (joinSpans at_))

/-- KDEC's unit (R219). The COUNT check of the last block stands before its writes, so that a block which breaks it is not written and
the MPC names it (R99 leaves this open; DESIGN CHOICE, log 66). -/
def decodeBlock (o : CopyOp) : X Unit := do
  let c ← myNumber
  let t := o.src
  let b := o.rs + o.unit
  let hd ← readHead c t
  let (elems, super, codes, nnz) ← blockData c t hd b
  let total := o.encCount + nnz
  if o.rs = 0 ∧ o.count = t.nblk ∧ o.unit + 1 = o.count then countCheck t total
  let e := t.extent b
  require (o.td != .qn4 || groupsWhole e elems codes) .tag 0
  let r : Int := (o.rd + e.row0 : Nat)
  require (narrowOk o.td (o.cd + e.col0) e.ncols) .align (sideAddr o.dst (r * o.dst.s1))
  let i0 := elementsBefore t b - elementsBefore t o.rs
  let rows := decodedRows o e i0 elems super codes
  let zeros := (List.range e.nrows).flatMap fun n => rowPadding o.dst ((o.rd + e.row0 + n : Nat) : Int)
  putChunks o.dst (rows ++ (if o.td = .qn4 then placeCodes o r e super codes ++ zeros else []))
  modMe (setCopy { o with encCount := total })

/-! KENC (R95, R97, R98, R218). -/

/-- Bits of a code string, most significant first, as bytes filled from bit 7 down. -/
def streamBytes (v n : Nat) : List Byte := (leBytes (ceilDiv n 8) (v * 2 ^ (ceilDiv n 8 * 8 - n))).reverse

/-- The exponent stream of elements as (value, bits), none where an exponent has no code (R97, R98). -/
def exponentStream (tag : Tag) (codes : List (Nat × Nat × Nat)) : List Nat → Nat × Nat → Option (Nat × Nat)
  | [], x => some x
  | b :: rest, x =>
    match codes.find? fun e => e.1 == b / 2 ^ manBits tag % 2 ^ expBits tag with
    | none => none
    | some e => exponentStream tag codes rest (x.1 * 2 ^ e.2.1 + e.2.2, x.2 + e.2.1)

/-- The sign-mantissa field of an element (R97). -/
def signMantissa (tag : Tag) (b : Nat) : Nat :=
  b / 2 ^ (expBits tag + manBits tag) % 2 * 2 ^ (smBits tag - 1) + b % 2 ^ manBits tag

/-- The coded payload of elements. -/
def codedPayload (tag : Tag) (codes : List (Nat × Nat × Nat)) (xs : List Nat) : Option (List Byte) :=
  (exponentStream tag codes xs (0, 0)).map fun s =>
    leBytes 2 s.2 ++ streamBytes s.1 s.2
      ++ leBytes (ceilDiv (xs.length * smBits tag) 8) (packFrom (smBits tag) (xs.map (signMantissa tag)))

/-- Elements packed by R68. -/
def packed (tag : Tag) (xs : List Nat) : List Byte := leBytes (ceilDiv (xs.length * tag.width) 8) (packFrom tag.width xs)

def padUp (n : Nat) (xs : List Byte) : List Byte := xs ++ List.replicate (roundUp xs.length n - xs.length) 0

/-- Bitmaps of a block's stored columns (R95). -/
def bitmapBytes (e : Extent) (cols : List Nat) : List Byte :=
  leBytes (8 * bitmapsOf e) ((cols.map fun c => 2 ^ c).sum)

/-- A block's payload, raw or coded by R98, with the RAW flag; `xs` are (place in the extent, bits), in order. -/
def encodePayload (t : TileD) (codes : List (Nat × Nat × Nat)) (e : Extent) (xs : List (Nat × Nat)) (super : Nat)
    (groups : List Nat) : List Byte × Bool :=
  let vals := xs.map (·.2)
  let maps := bitmapBytes e (xs.map (·.1))
  let choose (head : List Byte) : List Byte × Bool :=
    let raw := padUp 16 (head ++ packed t.tag vals)
    match codedPayload t.tag codes vals with
    | none => (raw, true)
    | some p =>
      let coded := padUp 16 (head ++ p)
      if raw.length < coded.length then (raw, true) else (coded, false)
  match t.kind with
  | 1 =>
    let q := if t.tag = .qn4 then padUp 8 (leBytes 4 super ++ groups.map (BitVec.ofNat 8)) else []
    (padUp 16 (maps ++ q ++ packed t.tag vals), false)
  | 2 =>
    let pairs := xs.flatMap fun x => leBytes 2 (x.1 / e.ncols * 256 + x.1 % e.ncols)
    (padUp 16 (padUp 8 pairs ++ packed t.tag vals), false)
  | 3 => choose []
  | _ => choose maps

/-- A block header (R93). -/
def blockHeader (t : TileD) (e : Extent) (nnz plen : Nat) (raw : Bool) : List Byte :=
  leBytes 4 nnz ++ leBytes 1 (if raw then 1 else 0) ++ leBytes 1 (0xC0 + t.kind) ++ leBytes 2 (e.col0 / 256)
    ++ leBytes 4 e.row0 ++ leBytes 4 plen

/-- The source elements of block extent `e`, row by row, each row with what it read (R218). -/
def sourceRows (o : CopyOp) (e : Extent) : Nat → X (List (List (Nat × Scale)))
  | 0 => pure []
  | n + 1 => do
    let before ← sourceRows o e n
    let r : Int := (o.rs + e.row0 + n : Nat)
    let m ← fetchSpans o.src (rowSpans o.src r (o.cs + e.col0) e.ncols)
    pure (before ++ [rowElemsOf o.src m r (o.cs + e.col0) e.ncols])

/-- The elements a block stores, by place in its extent (R218). -/
def storedElems (t : TileD) (groups : List Nat) (vals : List Nat) : List (Nat × Nat) :=
  let all := vals.mapIdx fun i b => (i, b)
  if t.kind = 3 then all
  else if t.tag = .qn4 then all.filter fun x => groups.getD (x.1 / 64) 0 != 0
  else all.filter fun x => x.2 != 0

/-- The resident table of a coded kind, with the TID the tile names: that of the first block coded (R218). -/
def encodeTable (o : CopyOp) : X (HuffTable × BitVec 16) := do
  let s ← get
  let h := vget s.huff o.tbl HuffTable.reset
  pure (h, o.table.getD h.tid)

def encodeBlock (o : CopyOp) : X Unit := do
  let t := o.dst
  let e := t.extent o.unit
  let rows ← sourceRows o e e.nrows
  let elems := rows.flatten
  let vals := o.convertAll (elementsBefore t o.unit) elems
  let groups := (List.range (bitmapsOf e)).map fun j => ((elems[64 * j]?).map (·.2.x)).getD 0
  let super := (elems.head?.map (·.2.s)).getD 0
  let xs := storedElems t groups vals
  let entry : Int := (32 + 4 * o.unit : Nat)
  if xs.isEmpty then putChunks t [(entry, leBytes 4 0)]
  else do
    let (h, tid) ← encodeTable o
    let codes := (canonCodes h.len).filter fun c => c.1 < 2 ^ expBits t.tag
    let (p, raw) := encodePayload t codes e xs super groups
    let start := roundUp o.encPos 16
    require (start + 16 + p.length ≤ o.cap) .overrun (sideAddr t start)
    putChunks t [((start : Nat), blockHeader t e xs.length p.length raw ++ p), (entry, leBytes 4 (start / 16))]
    let table := if t.kind = 3 ∨ t.kind = 4 then some tid else none
    modMe (setCopy { o with encPos := start + 16 + p.length, encCount := o.encCount + xs.length, table := table })

/-- The tile header, written last (R91, R218). -/
def writeHeader (o : CopyOp) : X Unit := do
  let t := o.dst
  let (_, tid) ← encodeTable o
  let table := if t.kind = 3 ∨ t.kind = 4 then o.tbl + tid.toNat * 2 ^ 16 else 0
  putChunks t [(0, leBytes 1 t.kind ++ leBytes 1 t.code ++ leBytes 2 0xC0BF ++ leBytes 4 table ++ leBytes 4 t.dim1
    ++ leBytes 4 t.dim0 ++ leBytes 4 t.nblk ++ leBytes 4 (if t.kind = 3 then 0 else o.encCount) ++ leBytes 8 o.encPos)]

end Sys2Proof.Machine
end

