-- ==== Sys2Proof/Machine/Pages.lean ====
section
/-! DEFINITION. What a page decoder makes of a file (12 R303, R304): its recognition, the profile it accepts, and the samples. The
markers, boxes and directories of a file are read here; its entropy-coded data are decoded by the published standards (log 13). -/

namespace Sys2Proof.Machine

/-- The outcome of a decoding: a value, or the offset of the byte that breaks the profile (R222, R303). -/
abbrev Dec (α : Type) := Except Nat α

/-- The byte at offset `i` breaks the profile unless `b` holds. -/
def accept (b : Bool) (i : Nat) : Dec Unit := if b then .ok () else .error i

def byteAt (xs : List Byte) (i : Nat) : Nat := (xs.getD i 0).toNat
/-- `n` bytes at offset `i`, most significant first. -/
def bigAt (xs : List Byte) (i n : Nat) : Nat := leValue ((xs.drop i).take n).reverse

/-- round_half of R304: to the nearest, halves up, within `p` bits. -/
def roundHalf (p : Nat) (x : Rat) : Nat := min (2 ^ p - 1) (x + 1 / 2).floor.toNat

/-! JPEG (R303). -/

/-- A component of a JPEG frame: identifier and sampling factors. -/
structure JComp where
  id : Nat
  h : Nat
  v : Nat
deriving DecidableEq, Repr

structure JFrame where
  width : Nat
  height : Nat
  comps : List JComp
deriving DecidableEq, Repr

/-- A marker that is refused (R303), or that no stream holds between its segments. -/
def jpegRefused (m : Nat) : Bool :=
  m < 0xC0 || [0xC3, 0xC5, 0xC6, 0xC7, 0xC8, 0xC9, 0xCA, 0xCB, 0xCC, 0xCD, 0xCE, 0xCF, 0xDC, 0xDE, 0xDF].contains m
    || (0xD0 ≤ m && m ≤ 0xD8) || (0xF0 ≤ m && m != 0xFE)

/-- The frame header whose marker stands at offset `i` (R303). -/
def jpegFrame (xs : List Byte) (i : Nat) : Dec JFrame := do
  let n := byteAt xs (i + 9)
  let comps := (List.range n).map fun j => JComp.mk (byteAt xs (i + 10 + 3 * j)) (byteAt xs (i + 11 + 3 * j) / 16)
    (byteAt xs (i + 11 + 3 * j) % 16)
  accept (byteAt xs (i + 4) == 8) (i + 4)
  accept (bigAt xs (i + 5) 2 != 0) (i + 5)
  accept (bigAt xs (i + 7) 2 != 0) (i + 7)
  accept (n == 1 || n == 3) (i + 9)
  match comps.findIdx? fun c => !(1 ≤ c.h && c.h ≤ 4 && 1 ≤ c.v && c.v ≤ 4) with
  | some j => .error (i + 11 + 3 * j)
  | none => .ok ⟨bigAt xs (i + 7) 2, bigAt xs (i + 5) 2, comps⟩

/-- The markers of a JPEG stream from offset `i` on: within a scan only restarts, in sequence (R303). -/
def jpegMarkers (xs : List Byte) : Nat → Nat → Option JFrame → Option Nat → Dec JFrame
  | 0, i, _, _ => .error i
  | fuel + 1, i, frame, scan =>
    let m := byteAt xs (i + 1)
    let next := i + 2 + bigAt xs (i + 2) 2
    if xs.length ≤ i + 1 then .error xs.length
    else if byteAt xs i != 0xFF then
      if scan.isSome then jpegMarkers xs fuel (i + 1) frame scan else .error i
    else if m = 0xFF then jpegMarkers xs fuel (i + 1) frame scan
    else if m = 0 then (if scan.isSome then jpegMarkers xs fuel (i + 2) frame scan else .error (i + 1))
    else match scan with
      | some r => if 0xD0 ≤ m && m ≤ 0xD7 then
          (if m = 0xD0 + r then jpegMarkers xs fuel (i + 2) frame (some ((r + 1) % 8)) else .error (i + 1))
        else jpegMarkers xs fuel i frame none
      | none =>
        if m = 0xD9 then (match frame with
          | some f => .ok f
          | none => .error i)
        else if jpegRefused m then .error (i + 1)
        else if m ≤ 0xC2 then
          (if frame.isSome then .error (i + 1)
            else match jpegFrame xs i with
              | .error e => .error e
              | .ok f => jpegMarkers xs fuel next (some f) none)
        else if m = 0xDA then (if frame.isSome then jpegMarkers xs fuel next frame (some 0) else .error (i + 1))
        else jpegMarkers xs fuel next frame none

/-! The inverse DCT (R304), exactly: numbers with eight coefficients over cos(j pi / 16), j = 0 to 7, which are linearly independent
over the rationals. -/

/-- cos(n pi / 16) as a sign and one of the eight. -/
def cosTerm (n : Int) : Int × Nat :=
  let m := n.natAbs % 32
  let m := if 16 < m then 32 - m else m
  if m < 8 then (1, m) else if m = 8 then (0, 0) else (-1, 16 - m)

/-- Eight times the inverse DCT of a block at its row `y` and column `x` (T.81 A.3.3). -/
def idct (block : List Int) (x y : Nat) : List Int :=
  let angle (p u : Nat) : Int := if u = 0 then 4 else ((2 * p + 1) * u : Nat)
  (List.range 8).map fun j =>
    ((List.range 64).map fun i =>
      let a := angle x (i % 8)
      let b := angle y (i / 8)
      let p := cosTerm (a + b)
      let q := cosTerm (a - b)
      block.getD i 0 * ((if p.2 = j then p.1 else 0) + (if q.2 = j then q.1 else 0))).foldl (· + ·) 0

/-- cos(j pi / 16) times 2^640, rounded down. -/
def cosTable : List Nat :=
  [0x10000000000000000000000000000000000000000000000000000000000000000000000000000000000000000000000000000000000000000000000000000000000000000000000000000000000000000,
   0xfb14be7fbae581562172a361fd2a722ec5f40e3fd8f18ae1b1997321b48e8b1b947a5373353c45a48d5b15eaa58368eeaad7ae31c0ebddc08255136ae6a20ffb50cf34c23ee6b537f0e552e0348caf4a,
   0xec835e79946a31457e610231ac1d6180f0a83d3cd0dae9b5db897c2384083746a6340cb65c4b11d5b1ec03e9739998c8d8c97a34ea8113245cf9e6da96d3995938730faff81d5fe2dee55e941c0d6fa1,
   0xd4db3148750d1819f630e8b6dac83e68b4691d2f99ec9eaaac08e58a7cd395443f46de4fbafdc08bc63df891efb87d5ba56cf9a8e223dc1023e02bda7b6ec1e7e4eb67e853e777a709118c0f8b801e54,
   0xb504f333f9de6484597d89b3754abe9f1d6f60ba893ba84ced17ac85833399154afc83043ab8a2c3a8b1fe6fdc83db390f74a85e439c7b4a780487363dfa2768d2202e8742af1f4e53059c6011bc337b,
   0x8e39d9cd73464364bba4cfecbff548677ca7d749adfba33eca996068c296fd797f9152cba72ae50cdf93eac8ec561d40eb7664f126ca8e14df8074293a2da4990aa443797da50ab7f8c364865dcaf951,
   0x61f78a9abaa58b4698916152cf7eee1bbdf1f5b4ab3de24c3a3c159062718f716d12d59bba9c48817b8a103264edaf263501a3abe3508e699dc79a6a2282b0ba76a9fb37e2a840bbdc3f3360c1667a9f,
   0x31f17078d34c156c9732300393f33613f394e58d12972f1d39438767895414c1a28fbdbe7eb1987e24859793181c371817e3a9504e35212b9f83c1d478b497973b2331dda39c48a4befca10a4c9de2f0]

/-- The floor of such a number over `d`. With an irrational part it is no whole number, and it lies further from every whole number
than the table's last place can move it, since its norm is a nonzero fraction of small denominator. -/
def exactFloor (q : List Int) (d : Nat) : Int :=
  if (q.drop 1).all (· == 0) then q.headD 0 / (d : Int)
  else ((q.zip cosTable).map fun e => e.1 * (e.2 : Int)).foldl (· + ·) 0 / ((d * 2 ^ 640 : Nat) : Int)

/-- A weighted sum of such numbers. -/
def cosSum (l : List (Int × List Int)) : List Int := (List.range 8).map fun j => (l.map fun e => e.1 * e.2.getD j 0).foldl (· + ·) 0

/-- round_half of an offset and a weighted sum of numbers eight times too large, weights in millionths, to 8 bits (R304). -/
def jpegRound (offset : Int) (l : List (Int × List Int)) : Nat :=
  let q := cosSum l
  min 255 (exactFloor (q.set 0 (q.headD 0 + 8000000 * offset + 4000000)) 8000000).toNat

/-- The sample of a component at a pixel, less 128 and eight times too large: replication of the component's samples (R304). -/
def jpegSample (f : JFrame) (blocks : List (List (List Int))) (i x y : Nat) : List Int :=
  let c := f.comps.getD i ⟨0, 1, 1⟩
  let hm := f.comps.foldl (fun a c => max a c.h) 1
  let vm := f.comps.foldl (fun a c => max a c.v) 1
  let across := ceilDiv f.width (8 * hm) * c.h
  let cx := x * c.h / hm
  let cy := y * c.v / vm
  idct (((blocks.getD i []).getD (cy / 8 * across + cx / 8) [])) (cx % 8) (cy % 8)

/-- The channels of a pixel (R304): three components are RGB when their identifiers say so. -/
def jpegPixel (f : JFrame) (blocks : List (List (List Int))) (x y : Nat) : List Nat :=
  let at_ (i : Nat) : List Int := jpegSample f blocks i x y
  let one : Int := 1000000
  if f.comps.length = 1 then [jpegRound 128 [(one, at_ 0)]]
  else if f.comps.map (·.id) = [0x52, 0x47, 0x42] then (List.range 3).map fun i => jpegRound 128 [(one, at_ i)]
  else
    let l := at_ 0
    let cb := at_ 1
    let cr := at_ 2
    [jpegRound 128 [(one, l), (1402000, cr)], jpegRound 128 [(one, l), (-344136, cb), (-714136, cr)],
     jpegRound 128 [(one, l), (1772000, cb)]]

/-- Pixels in raster order. -/
def raster (w h : Nat) (f : Nat → Nat → List Nat) : List Nat :=
  (List.range h).flatMap fun y => (List.range w).flatMap fun x => f x y

/-- A decoded page: SRC, size, components, bits and samples in raster order (R223, R304). -/
structure PageData where
  src : Nat
  width : Nat
  height : Nat
  chan : Nat
  depth : Nat
  samples : List Nat
deriving DecidableEq, Repr

/-- The earlier of two errors. -/
def bothOf {α β : Type} (a : Dec α) (b : Dec β) : Dec (α × β) :=
  match a, b with
  | .ok x, .ok y => .ok (x, y)
  | .error i, .error j => .error (min i j)
  | .error i, _ => .error i
  | _, .error j => .error j

def decodeJpeg (xs : List Byte) : Dec PageData := do
  let (f, blocks) ← bothOf (jpegMarkers xs xs.length 2 none none) (Config.jpegBlocks xs)
  pure ⟨1, f.width, f.height, f.comps.length, 8, raster f.width f.height (jpegPixel f blocks)⟩

/-! JPEG 2000 (R303, R304). -/

/-- The size segment of a codestream (R303). -/
structure J2kSize where
  x0 : Nat
  y0 : Nat
  x1 : Nat
  y1 : Nat
  comps : Nat
  depth : Nat
deriving DecidableEq, Repr

/-- The size segment behind the start of the codestream at offset `i` (R303). -/
def j2kSize (xs : List Byte) (i : Nat) : Dec J2kSize := do
  accept (bigAt xs (i + 2) 2 == 0xFF51) (i + 2)
  accept (bigAt xs (i + 6) 2 < 0x4000) (i + 6)
  let z : J2kSize := ⟨bigAt xs (i + 16) 4, bigAt xs (i + 20) 4, bigAt xs (i + 8) 4, bigAt xs (i + 12) 4, bigAt xs (i + 40) 2,
    byteAt xs (i + 42) + 1⟩
  accept (z.x0 < z.x1 && z.x1 - z.x0 ≤ 65535) (i + 8)
  accept (z.y0 < z.y1 && z.y1 - z.y0 ≤ 65535) (i + 12)
  accept (z.comps == 1 || z.comps == 3) (i + 40)
  accept (z.depth == 8 || z.depth == 16) (i + 42)
  let bad (k : Nat) : Option Nat :=
    if byteAt xs (i + 42 + 3 * k) + 1 != z.depth then some (i + 42 + 3 * k)
    else if byteAt xs (i + 43 + 3 * k) != 1 then some (i + 43 + 3 * k)
    else if byteAt xs (i + 44 + 3 * k) != 1 then some (i + 44 + 3 * k)
    else none
  match (List.range z.comps).findSome? bad with
  | some j => .error j
  | none => .ok z

/-- The boxes of a JP2 file from offset `i` on, up to its first codestream; a palette is refused (R303). -/
def jp2Boxes (xs : List Byte) : Nat → Nat → Dec Nat
  | 0, i => .error i
  | fuel + 1, i =>
    let l := bigAt xs i 4
    let t := bigAt xs (i + 4) 4
    let head := if l = 1 then 16 else 8
    let size := if l = 1 then bigAt xs (i + 8) 8 else if l = 0 then xs.length - i else l
    if xs.length < i + 8 then .error xs.length
    else if t = 0x6A703263 then .ok (i + head)
    else if t = 0x70636C72 then .error (i + 4)
    else if size < head then .error i
    else jp2Boxes xs fuel (i + (if t = 0x6A703268 then head else size))

def reflect (i0 n : Nat) (i : Int) : Nat :=
  let i := if i < i0 then 2 * (i0 : Int) - i else i
  let last : Int := i0 + n - 1
  (if last < i then 2 * last - i else i).toNat - i0

/-- One lifting step: the positions of parity `odd` change by `f` of the sum of their neighbours, the signal mirrored at its ends. -/
def lift (i0 : Nat) (odd : Bool) (f : Rat → Rat) (xs : List Rat) : List Rat :=
  let at_ (i : Int) : Rat := xs.getD (reflect i0 xs.length i) 0
  xs.mapIdx fun j x => if (i0 + j) % 2 == (if odd then 1 else 0) then x + f (at_ ((i0 + j : Nat) - 1) + at_ ((i0 + j : Nat) + 1)) else x

/-- One-dimensional synthesis of an interleaved signal that starts at `i0`, by 5/3 or by 9/7 with the decimal constants of T.800. -/
def synth (whole : Bool) (i0 : Nat) (xs : List Rat) : List Rat :=
  if xs.length ≤ 1 then xs.map fun x => if i0 % 2 = 0 then x else x / 2
  else if whole then
    lift i0 true (fun t => ((t / 2).floor : Rat)) (lift i0 false (fun t => -(((t + 2) / 4).floor : Rat)) xs)
  else
    let k : Rat := 1230174104914001 / 1000000000000000
    let scaled := xs.mapIdx fun j x => if (i0 + j) % 2 = 0 then x * k else x / k
    let s1 := lift i0 false (fun t => -(443506852043971 / 1000000000000000) * t) scaled
    let s2 := lift i0 true (fun t => -(882911075530934 / 1000000000000000) * t) s1
    let s3 := lift i0 false (fun t => (52980118572961 / 1000000000000000) * t) s2
    lift i0 true (fun t => (1586134342059924 / 1000000000000000) * t) s3

/-- Columns of a rectangular array. -/
def columns (w : Nat) (rows : List (List Rat)) : List (List Rat) := (List.range w).map fun x => rows.map fun r => r.getD x 0

/-- Four sub-bands interleaved over the rectangle from (u0, v0), `w` by `h`. -/
def interleave (u0 v0 w h : Nat) (ll hl lh hh : List (List Rat)) : List (List Rat) :=
  (List.range h).map fun j => (List.range w).map fun i =>
    let u := u0 + i
    let v := v0 + j
    let pick (b : List (List Rat)) : Rat := (b.getD (v / 2 - v0 / 2 - (if v % 2 = 0 then v0 % 2 else 0)) []).getD
      (u / 2 - u0 / 2 - (if u % 2 = 0 then u0 % 2 else 0)) 0
    if u % 2 = 0 then (if v % 2 = 0 then pick ll else pick lh) else if v % 2 = 0 then pick hl else pick hh

/-- Two-dimensional synthesis: rows, then columns. -/
def synth2 (whole : Bool) (u0 v0 w h : Nat) (ll hl lh hh : List (List Rat)) : List (List Rat) :=
  let rows := (interleave u0 v0 w h ll hl lh hh).map (synth whole u0)
  columns h ((columns w rows).map (synth whole v0))

/-- The coefficients of a sub-band reconstructed with parameter 1/2 (R304). -/
def bandValues (whole : Bool) (b : Config.J2kBand) : List (List Rat) :=
  b.rows.map fun r => r.map fun (q, left) =>
    let step : Rat := if whole then 1 else (b.mant : Rat) * (2 : Rat) ^ b.exp
    let half : Rat := if whole && left == 0 then 0 else (2 ^ left : Nat) / 2
    if q = 0 then 0 else if 0 < q then ((q : Rat) + half) * step else ((q : Rat) - half) * step

/-- A tile-component from its sub-bands, the deepest level first, over the rectangle (x0, y0) to (x1, y1). -/
def j2kComponent (whole : Bool) (x0 y0 x1 y1 : Nat) (c : Config.J2kComp) : List (List Rat) :=
  (c.levels.zipIdx).foldl (fun ll e =>
    let d := 2 ^ (c.levels.length - 1 - e.2)
    let u0 := ceilDiv x0 d
    let v0 := ceilDiv y0 d
    synth2 whole u0 v0 (ceilDiv x1 d - u0) (ceilDiv y1 d - v0) ll (bandValues whole e.1.1) (bandValues whole e.1.2.1)
      (bandValues whole e.1.2.2)) (bandValues whole c.ll)

/-- The channels of a pixel out of its component values: RCT or ICT undone where the tile uses one, the level shift and round_half
(R304). -/
def j2kChannels (whole mct : Bool) (depth : Nat) (l : List Rat) : List Nat :=
  let a := l.getD 0 0
  let b := l.getD 1 0
  let c := l.getD 2 0
  let vals : List Rat :=
    if !mct then l
    else if whole then
      let g := a - (((b + c) / 4).floor : Rat)
      [c + g, g, b + g]
    else [a + 1402 / 1000 * c, a - 344136 / 1000000 * b - 714136 / 1000000 * c, a + 1772 / 1000 * b]
  vals.map fun v => roundHalf depth (v + (2 ^ (depth - 1) : Nat))

/-- A pixel of the image, at image coordinates. -/
def j2kPixel (z : J2kSize) (tiles : List (Config.J2kTile × List (List (List Rat)))) (x y : Nat) : List Nat :=
  match tiles.find? fun t => t.1.x0 ≤ x && x < t.1.x1 && t.1.y0 ≤ y && y < t.1.y1 with
  | some (t, comps) => j2kChannels t.whole t.mct z.depth (comps.map fun c => (c.getD (y - t.y0) []).getD (x - t.x0) 0)
  | none => List.replicate z.comps 0

def decodeJ2k (xs : List Byte) (start : Dec Nat) : Dec PageData := do
  let i ← start
  accept (bigAt xs i 2 == 0xFF4F) i
  let z ← j2kSize xs i
  match Config.j2kTiles (xs.drop i) with
  | .error j => .error (i + j)
  | .ok tiles =>
    let comps := tiles.map fun t => (t, t.comps.map (j2kComponent t.whole t.x0 t.y0 t.x1 t.y1))
    pure ⟨2, z.x1 - z.x0, z.y1 - z.y0, z.comps, z.depth,
      raster (z.x1 - z.x0) (z.y1 - z.y0) fun x y => j2kPixel z comps (z.x0 + x) (z.y0 + y)⟩

/-! TIFF (R303). -/

/-- A number of a TIFF file in its byte order. -/
def tiffNum (big : Bool) (xs : List Byte) (i n : Nat) : Nat := if big then bigAt xs i n else field xs i n

/-- A tag of the first directory: where its entry stands. -/
def tiffEntry (big : Bool) (xs : List Byte) (ifd tag : Nat) : Option Nat :=
  ((List.range (tiffNum big xs ifd 2)).map fun j => ifd + 2 + 12 * j).find? fun e => tiffNum big xs e 2 == tag

/-- The values of an entry, of type SHORT or LONG. -/
def tiffValues (big : Bool) (xs : List Byte) (e : Nat) : List Nat :=
  let w := if tiffNum big xs (e + 2) 2 = 3 then 2 else 4
  let n := tiffNum big xs (e + 4) 4
  let at_ := if n * w ≤ 4 then e + 8 else tiffNum big xs (e + 8) 4
  (List.range n).map fun j => tiffNum big xs (at_ + w * j) w

/-- A tag's first value, with the offset that a refusal of it names. -/
def tiffValue (big : Bool) (xs : List Byte) (ifd tag default : Nat) : Nat × Nat :=
  match tiffEntry big xs ifd tag with
  | some e => ((tiffValues big xs e).headD 0, e + 8)
  | none => (default, ifd)

/-- A byte with its bits in reverse order (FillOrder 2). -/
def reversed (b : Byte) : Byte := BitVec.ofNat 8 (((List.range 8).map fun i => if b.getLsbD i then 2 ^ (7 - i) else 0).foldl (· + ·) 0)

/-- The pieces of a TIFF page: left column, top row, width and rows, with the place and length of the data (strips or tiles). A file
that does not name the data of every piece is malformed at its directory. -/
def tiffPieces (big : Bool) (xs : List Byte) (ifd w h : Nat) : Dec (List ((Nat × Nat) × (Nat × Nat) × (Nat × Nat))) := do
  let list (tag : Nat) : List Nat := ((tiffEntry big xs ifd tag).map (tiffValues big xs)).getD []
  let tiled := (tiffEntry big xs ifd 322).isSome
  let tw := if tiled then max 1 (tiffValue big xs ifd 322 1).1 else w
  let th := if tiled then max 1 (tiffValue big xs ifd 323 1).1 else max 1 (min h (tiffValue big xs ifd 278 h).1)
  let across := ceilDiv w tw
  let need := across * ceilDiv h th
  let data := (list (if tiled then 324 else 273)).zip (list (if tiled then 325 else 279))
  accept (need ≤ data.length) ifd
  pure ((data.take need).zipIdx.map fun e =>
    ((e.2 % across * tw, e.2 / across * th), (tw, if tiled then th else min th (h - e.2 / across * th)), e.1))

/-- The pieces decoded by T.6: its coded black runs. -/
def tiffRows (xs : List Byte) (fill : Nat) : List ((Nat × Nat) × (Nat × Nat) × (Nat × Nat)) → Dec (List ((Nat × Nat) × (Nat × Nat) × List (List Bool)))
  | [] => .ok []
  | (at_, size, (off, n)) :: rest => do
    accept (off + n ≤ xs.length) xs.length
    let data := (xs.drop off).take n
    match Config.t6Rows (if fill = 2 then data.map reversed else data) size.1 size.2 with
    | .error j => .error (off + j)
    | .ok rows => do
      let more ← tiffRows xs fill rest
      pure ((at_, size, rows) :: more)

/-- What the directory of a TIFF page says: its size, whether white is coded 0, FillOrder, and its pieces. -/
structure TiffPage where
  width : Nat
  height : Nat
  white : Bool
  fill : Nat
  pieces : List ((Nat × Nat) × (Nat × Nat) × (Nat × Nat))
deriving DecidableEq, Repr

/-- The directory of a TIFF file, its profile checked (R303). -/
def tiffPage (xs : List Byte) (big : Bool) : Dec TiffPage := do
  let ifd := tiffNum big xs 4 4
  accept (ifd + 2 ≤ xs.length) 4
  let v (tag default : Nat) : Nat × Nat := tiffValue big xs ifd tag default
  let want (tag default : Nat) (p : Nat → Bool) : Dec Unit := accept (p (v tag default).1) (v tag default).2
  want 256 0 fun x => 1 ≤ x && x ≤ 65535
  want 257 0 fun x => 1 ≤ x && x ≤ 65535
  want 258 1 (· == 1)
  want 259 1 (· == 4)
  want 262 2 (· ≤ 1)
  want 266 1 fun x => x == 1 || x == 2
  want 277 1 (· == 1)
  want 284 1 (· == 1)
  want 293 0 (· == 0)
  let w := (v 256 0).1
  let h := (v 257 0).1
  let pieces ← tiffPieces big xs ifd w h
  pure ⟨w, h, (v 262 2).1 == 0, (v 266 1).1, pieces⟩

def decodeTiff (xs : List Byte) (big : Bool) : Dec PageData := do
  let t ← tiffPage xs big
  let pieces ← tiffRows xs t.fill t.pieces
  let coded (x y : Nat) : Bool :=
    match pieces.find? fun p => p.1.1 ≤ x && x < p.1.1 + p.2.1.1 && p.1.2 ≤ y && y < p.1.2 + p.2.1.2 with
    | some p => (p.2.2.getD (y - p.1.2) []).getD (x - p.1.1) false
    | none => false
  pure ⟨0x83, t.width, t.height, 1, 8, raster t.width t.height fun x y => [if coded x y == t.white then 0 else 255]⟩

/-! Recognition (R303). -/

/-- The signatures of R303. -/
def signatures : List (List Byte) :=
  [[0xFF, 0xD8, 0xFF], [0x00, 0x00, 0x00, 0x0C, 0x6A, 0x50, 0x20, 0x20], [0xFF, 0x4F, 0xFF, 0x51], [0x49, 0x49, 0x2A, 0x00],
   [0x4D, 0x4D, 0x00, 0x2A]]

/-- Bytes at the head of a file that agree with a signature. -/
def agree : List Byte → List Byte → Nat
  | x :: xs, y :: ys => if x = y then agree xs ys + 1 else 0
  | _, _ => 0

/-- A page file decoded (R303, R304). A file that no signature fits breaks the profile at the first byte that fits none. -/
def decodePage (xs : List Byte) : Dec PageData :=
  match signatures.findIdx? fun g => agree xs g == g.length with
  | some 0 => decodeJpeg xs
  | some 1 => decodeJ2k xs (jp2Boxes xs xs.length 12)
  | some 2 => decodeJ2k xs (.ok 0)
  | some 3 => decodeTiff xs false
  | some _ => decodeTiff xs true
  | none => .error ((signatures.map (agree xs)).foldl max 0)

end Sys2Proof.Machine
end

