-- ==== Sys2Proof/Machine/CopyView.lean ====
section
/-! DEFINITION. KVIEW's pass and its placing (08 R221, 09 R258), page decoding (08 R222, R223; 12 R302 to R308), and the
events of the copy engine: COPY_UNIT and TRANSFER_COMPLETE (08 R205, R227 to R229). -/

namespace Sys2Proof.Machine

/-! KVIEW's pass. -/

/-- A part of a range that lies in one line: the line's tag, its current bytes and those of its retained copy. -/
structure ViewPart where
  tag : LineTag
  cur : List Byte
  old : List Byte
deriving DecidableEq, Repr

/-- The parts of a piece that lie in one line each: physical address and length. -/
def lineCuts (pa n : Nat) : List (Nat × Nat) :=
  (linesOf pa n).map fun line => (max line pa, min (line + 128) (pa + n) - max line pa)

/-- Bytes of a retained copy. -/
def retainedBytes (s : State) (pa n : Nat) : Option (List Byte) :=
  (kget s.retained (pa / 128)).map fun l => ((lineBytes l).drop (pa % 128)).take n

/-- One part as one read returns it: data, tag and retained copy (R258). -/
def viewPart (s : State) (c : Option Nat) (q : Piece) (e : Nat × Nat) : ViewPart :=
  let t := tagAt s (e.1 / 128)
  let mem := (List.range e.2).map fun i => memGet s.mem (e.1 + i)
  if t.kind = 1 then ⟨t, mem, (retainedBytes s e.1 e.2).getD mem⟩
  else
    let xs := (List.range e.2).map fun i => classByte s c (c.map dieOf) q.page (e.1 - q.page.pa + i)
    ⟨{ t with kind := 0 }, xs, xs⟩

def partsOf (s : State) (c : Option Nat) (ps : List Piece) : List ViewPart :=
  ps.flatMap fun q => (lineCuts q.page.pa q.n).map (viewPart s c q)

/-- The parts of a range on another chip: the bytes read, with the tag that the answer gives each line and, under a bundle tag, its
current data and retained copy (R221, R258). A pass waits while the answer leaves a line out. -/
def farParts (far : FarAnswer) (a : Dword) (xs : List Byte) : X (List ViewPart) :=
  (linesOf a.toNat xs.length).mapM fun line =>
    let lo := max line a.toNat
    let n := min (line + 128) (a.toNat + xs.length) - lo
    let part (l : LineBits) : List Byte := ((lineBytes l).drop (lo % 128)).take n
    let cur := (xs.drop (lo - a.toNat)).take n
    match far.lines.find? fun l => l.addr.toNat / 128 == line / 128 with
    | some l => pure (if l.tag.kind = 1 then ⟨l.tag, part l.cur, part l.old⟩ else ⟨{ l.tag with kind := 0 }, cur, cur⟩)
    | none => throw .hold

/-- The parts of a source range (R221, R293, R295). A range of this chip's own window shows the tags that its lines have here once its
read has come back. -/
def readParts (far : FarAnswer) (a : Dword) (n : Nat) : X (List ViewPart) := do
  let s ← get
  let c := s.cur.core.val
  if isWindow a then do
    let xs ← engineLoad .k a n
    if windowChip a == s.fabric.group.self then
      atTarget a do
        let ps ← targetPieces (coreAsid s c) .read (pieces (BitVec.ofNat 64 (windowOfs a)) n)
        let s ← get
        pure (partsOf s none ps)
    else farParts far a xs
  else do
    let ps ← check c .read a n
    let r ← fetchPieces c ps
    match r.2 with
    | some va => fail .uncorr va
    | none => do
      let s ← get
      pure (partsOf s (some c) ps)

/-- An entry of the list: its destination and its parts (R221). -/
def readEntry (far : FarAnswer) (o : CopyOp) (e : Nat) : X (Dword × List ViewPart) := do
  let a := o.src.base + o.par 0 + BitVec.ofNat 64 (16 * e)
  let c ← myNumber
  let xs ← memLoad c a 16
  let va := leDword (xs.take 8)
  let n := field xs 8 4
  let off := field xs 12 4
  require (va.toNat % 16 == 0 && n % 16 == 0 && off % 16 == 0) .align a
  let ps ← readParts far va n
  pure (o.dst.base + o.par 1 + BitVec.ofNat 64 off, ps)

def readEntries (far : FarAnswer) (o : CopyOp) : Nat → X (List (Dword × List ViewPart))
  | 0 => pure []
  | n + 1 => do
    let before ← readEntries far o n
    let x ← readEntry far o n
    pure (before ++ [x])

/-- The chip of a bundle's master home. -/
def masterChip (s : State) (c : Nat) (bid : BitVec 24) : BitVec 12 :=
  match (regionOf s c).bind fun r => findBundle s r bid with
  | some (_, e) => (e.segs.map (·.chip)).headD s.fabric.group.self
  | none => s.fabric.group.self

/-- Whether the master home has decided version `v`; one that cannot be reached has not (R258). A master home on another chip is asked
there, but for a version that this chip's own record of the bundle shows decided or committed, or that a core of this chip has open
(log 19). -/
def decidedAt (far : FarAnswer) (s : State) (c : Nat) (bid : BitVec 24) (v : BitVec 16) : Bool :=
  let chip := masterChip s c bid
  let h := homeAt s bid 0
  let shown := (h.decided && h.pending == v) || h.committed == v
  if chip == s.fabric.group.self then !h.lost && shown
  else inGroup s chip && (shown || (openVersionOf s bid != some v && far.decided.contains (bid, v)))

/-- The version placed of a bundle met (R258). -/
def viewBundle (far : FarAnswer) (s : State) (c : Nat) (parts : List ViewPart) (bid : BitVec 24) : ViewBundle :=
  let vers := (parts.filter fun p => p.tag.kind == 1 && p.tag.bid == bid).map (·.tag.ver)
  let v := vers.foldl (fun (v x : BitVec 16) => if newer x v then x else v) (vers.headD 0)
  if decidedAt far s c bid v then ⟨bid, v, v, false⟩ else ⟨bid, v, v - 1, true⟩

/-- A part as placed: its current data, or its retained copy where the data is newer than the version taken. -/
def placePart (vs : List ViewBundle) (p : ViewPart) : List Byte :=
  match vs.find? fun v => p.tag.kind == 1 && v.bid == p.tag.bid with
  | some v => if newer p.tag.ver v.taken then p.old else p.cur
  | none => p.cur

/-- The report's bytes (R221). -/
def reportBytes (vs : List ViewBundle) : List Byte :=
  leBytes 4 vs.length ++ leBytes 4 0
    ++ vs.flatMap fun v => leBytes 8 (v.bid.toNat + v.taken.toNat * 2 ^ 24 + (if v.fract then 2 ^ 40 else 0))

/-- One pass: every line read, the masters queried and the tags reread, as one step, so that they show what they showed. -/
def viewPass (far : FarAnswer) (o : CopyOp) : X Unit := do
  let es ← readEntries far o o.count
  let s ← get
  let c := s.cur.core.val
  let parts := es.flatMap (·.2)
  let bids := ((parts.filter fun p => p.tag.kind == 1).map (·.tag.bid)).eraseDups
  require (bids.length ≤ 64) .view 0
  let vs := bids.map (viewBundle far s c parts)
  let placed := es.map fun e => (e.1, e.2.flatMap (placePart vs))
  modMe (setCopy { o with views := vs, placed := some placed })
  dropCollected .k []

/-- The translation of a view's destination, which is PLAIN and in vault whatever else a store to it would raise (R221, R236). -/
def viewPieces (c : Nat) : List (Dword × Nat) → X (List Piece)
  | [] => pure []
  | (a, n) :: rest => do
    require (!isWindow a) .remote a
    let s ← get
    let p ← translate (some c) (coreAsid s c) (atS s c) .write a
    classCheck (some c) .read a n p
    require (p.cls == 0 && isVault p.pa) .class_ a
    let ps ← viewPieces c rest
    pure (⟨a, n, p⟩ :: ps)

def viewCheck (a : Dword) (n : Nat) : X (List Piece) := do
  let c ← myNumber
  viewPieces c (pieces a n)

def viewChecks : List (Dword × List Byte) → X (List (List Piece))
  | [] => pure []
  | e :: rest => do
    let ps ← viewCheck e.1 e.2.length
    let qs ← viewChecks rest
    pure (ps :: qs)

def viewWrites : List (Dword × List Byte) → List (List Piece) → X Unit
  | e :: rest, ps :: qs => do
    let c ← myNumber
    putPieces c ps e.2
    viewWrites rest qs
  | _, _ => pure ()

/-- The whole view and its report written (R221), and the chains fed with the entries in order (R224). -/
def placeView (o : CopyOp) : X Unit :=
  match o.placed with
  | none => throw .wait
  | some es => do
    let all := es ++ [(o.dst.base + o.par 1 + o.f.w2.setWidth 64, reportBytes o.views)]
    let ps ← viewChecks all
    viewWrites all ps
    let xs := es.flatMap (·.2)
    modMe fun k => feedChain o.f 1 xs (feedChain o.f 0 xs k)

/-! The steps of a transfer. -/

/-- The copy engine works on a transfer: the core is not stopped and the stream runs (R30, R205). -/
def copyWorks (k : Core) : Option CopyOp :=
  let x := k.stream .k
  if k.stopped || k.raising.isSome || x.run != .run then none
  else match x.op with
    | .copy o => some o
    | _ => none

def unitWork (o : CopyOp) : X Unit :=
  match o.kind with
  | .copy => copyChunk o
  | .two => moveRow o (o.rs + o.unit : Nat) (o.rd + o.unit : Nat)
  | .gath => gatherRow o
  | .scat => scatterRow o
  | .fill => fillRow o
  | .pf => prefetchRow o
  | .enc => encodeBlock o
  | .dec => decodeBlock o
  | .tab => tableUnit o
  | .view => placeView o
  | .img => throw .wait

/-- An access of no bytes at an offset of a side (R228). -/
def emptyRead (t : TileD) (o : Int) : X Unit :=
  if t.ring.isSome then pure ()
  else do
    let _ ← sideLoad t (addrAt t.base o) 0
    pure ()

def emptyWrite (t : TileD) (o : Int) : X Unit :=
  if t.ring.isSome then pure ()
  else do
    let c ← myNumber
    let ps ← sideStoreCheck t (addrAt t.base o) 0
    if isWindow (addrAt t.base o) then storeChecked .k (addrAt t.base o) ps [] else putPieces c ps []

/-- The offset of an element. -/
def elemOffset (t : TileD) (r : Nat) (c : Nat) : Int := r * t.s1 + (elemPlace t t.tag c).1

/-- The accesses of a transfer without units (R228). -/
def emptyAccesses (o : CopyOp) : X Unit :=
  match o.kind with
  | .copy => do
    emptyRead o.src (o.offS 0)
    emptyWrite o.dst (o.offD 0)
  | .two | .gath | .scat => do
    emptyRead o.src (elemOffset o.src o.rs o.cs)
    emptyWrite o.dst (elemOffset o.dst o.rd o.cd)
  | .fill => emptyWrite o.dst (elemOffset o.dst o.rd o.cd)
  | .dec => do
    emptyRead o.src 0
    emptyWrite o.dst (elemOffset o.dst o.rd o.cd)
  | .view => do
    emptyRead o.src (o.par 0).toInt
    emptyWrite o.dst (o.par 1).toInt
  | _ => pure ()

/-- A unit is complete: the MPC counts it (R31, R205). -/
def unitDone (k : Core) : Core :=
  k.modStream .k fun x =>
    match x.op with
    | .copy o =>
      let o' := { o with unit := o.unit + 1, finished := o.unit + 1 == o.units && o.kind != .enc && o.kind != .img }
      { x with op := .copy o', mpc := BitVec.ofNat 32 (o.unit + 1), progress := true }
    | _ => x

/-- The last step is done: only completion remains. -/
def allDone (k : Core) : Core :=
  k.modStream .k fun x =>
    match x.op with
    | .copy o => { x with op := .copy { o with finished := true }, progress := true }
    | _ => x

/-- COPY_UNIT (R205). A unit begins when the remote writes of the one before have landed; the chains are kept until then, for a
write that fails at its target (R295). -/
def execCopyUnit (s : State) : Out :=
  match copyWorks (coreAt s s.cur.core.val) with
  | none => .next s
  | some o =>
    if o.finished || o.kind == .img then .next s
    else runX .k (do
      waitFor (!remoteWritesOut s s.cur.core.val .k)
      let k ← me
      let o := { o with chains := k.k.toList }
      modMe (setCopy o)
      if o.unit < o.units then do
        unitWork o
        modMe unitDone
      else do
        if o.kind = .enc then writeHeader o else emptyAccesses o
        modMe allDone
      dropCollected .k []) s

/-- KVIEW_PASS (R258). -/
def execKviewPass (s : State) : Out :=
  match copyWorks (coreAt s s.cur.core.val) with
  | none => .next s
  | some o =>
    if o.kind != .view || o.units ≤ o.unit || o.placed.isSome then .next s
    else runX .k (viewPass s.far o) s

/-- The bytes of a write-out (R227). -/
def chainsOut (k : Core) : List Byte := (List.range 4).flatMap fun i => leBytes 8 (vget k.k i 0).toNat

/-- The checksum actions at completion: the compare, and the write-out whatever its outcome (R227). -/
def checksumActions (o : CopyOp) : X Unit := do
  let k ← me
  let c ← myNumber
  let differs := vget k.k 0 0 != vget k.k 2 0 || vget k.k 1 0 != vget k.k 3 0
  if o.f.ckw then do
    require (o.p15.toNat % 8 == 0) .align o.p15
    memStore c o.p15 (chainsOut k)
  modMe (setCopy { o with compared := true, mismatch := o.f.ckop.getLsbD 1 && differs })

/-- The transfer retires; KTAB's table takes effect with it (R205, R220). -/
def retireCopy (o : CopyOp) : X Unit := do
  if o.kind = .tab then modify fun s => { s with huff := vset s.huff o.tbl (tableOf o.held) }
  let bare (x : Stream) : Stream := { x with op := .none, progress := true }
  modMe fun k => (k.modStream .k bare).finish .k o.sync (opCc (.copy o))

/-- The end of a transfer whose writes have landed: a compare that failed is raised once, and then it retires (R227). -/
def settleCopy (o : CopyOp) : X Unit :=
  if o.mismatch then do
    modMe (setCopy { o with mismatch := false })
    fail .checksum (o.dst.base + o.par 1)
  else retireCopy o

def copyLanded (s : State) (c : Nat) : Bool := storesLanded s c && !remoteWritesOut s c .k

/-- TRANSFER_COMPLETE (R205, R227). -/
def execTransferComplete (s : State) : Out :=
  let c := s.cur.core.val
  match copyWorks (coreAt s c) with
  | none => .next s
  | some o =>
    if !o.finished || !copyLanded s c then .next s
    else runX .k (do
      if !o.compared then checksumActions o
      let s ← get
      if copyLanded s c then
        match ((coreAt s c).stream .k).op with
        | .copy o => settleCopy o
        | _ => pure ()) s

/-! Pages. -/

/-- PAGE_DECODER_ASSIGN (R302). -/
def execPageDecoderAssign (die : Nat) (s : State) : Out :=
  let x := vget s.dies die Die.reset
  match x.kimgQueue, x.decoders.findIdx? (· == none) with
  | e :: rest, some i => .next (modDie s die fun d => { d with kimgQueue := rest, decoders := d.decoders.set i (some e.2) })
  | _, _ => .next s

/-- The largest scale within the budget (R305). -/
def pageScale (w h budget : Nat) : Option Nat :=
  ((List.range 64).reverse.map (· + 1)).find? fun k => ceilDiv (w * k) 1024 * ceilDiv (h * k) 1024 ≤ budget

def PageJob.cols (j : PageJob) : Nat := ceilDiv (j.width * j.sk) 1024
def PageJob.rows (j : PageJob) : Nat := ceilDiv (j.height * j.sk) 1024

/-- The page's first byte. -/
def CopyOp.pageAt (o : CopyOp) : Dword := o.src.base + o.par 0

/-- The page read and decoded, its format and scale settled (R222, R303 to R305, R308). -/
def decodeFile (o : CopyOp) : X Unit := do
  let a := o.pageAt
  let c ← myNumber
  let xs ← memLoad c a o.src.dim0
  match decodePage xs with
  | .error i => fail .page (a + BitVec.ofNat 64 i)
  | .ok p => do
    let black := bit o.f.w2.toNat 15
    let bitonal := p.src % 8 == 3
    require ((o.td == .int1) == black && (!black || bitonal)) .page a
    match pageScale p.width p.height (bits o.f.w2.toNat 16 16) with
    | none => fail .page a
    | some k => do
      let j : PageJob := { width := p.width, height := p.height, chan := p.chan, depth := p.depth, src := p.src
                           bitonal := bitonal, sk := k, samples := p.samples }
      modMe (setCopy { o with page := some j, units := j.rows })

/-- Length of the overlap of [64u, 64u + 64) and source pixel x in units of 1/k (R306). -/
def overlap (k u x : Nat) : Nat := min (64 * u + 64) (k * x + k) - max (64 * u) (k * x)

/-- Source pixels under output pixel `u`, with their weights. -/
def footprint (k u size : Nat) : List (Nat × Nat) :=
  let lo := 64 * u / k
  ((List.range (ceilDiv (64 * u + 64) k - lo)).filterMap fun i =>
    if lo + i < size ∧ 0 < overlap k u (lo + i) then some (lo + i, overlap k u (lo + i)) else none)

/-- Weighted sum of `f` over an output pixel's footprint. -/
def areaSum (j : PageJob) (u v : Nat) (f : Nat → Nat → Nat) : Nat :=
  ((footprint j.sk v j.height).map fun y =>
    ((footprint j.sk u j.width).map fun x => x.2 * y.2 * f x.1 y.1).sum).sum

def PageJob.sample (j : PageJob) (ch x y : Nat) : Nat := j.samples.getD ((y * j.width + x) * j.chan + ch) 0

/-- A value divided by a whole number: 320 bits of quotient, then a bit that says whether a remainder is left, which rounding
to any tag treats as it would the exact quotient. -/
def divVal (x : Val) (d : Nat) : Val :=
  match x with
  | .fin n m e =>
    let q := m * 2 ^ 320 / d
    .fin n (2 * q + (if m * 2 ^ 320 % d = 0 then 0 else 1)) (e - 321)
  | v => v

/-- An FP32 of the normalisation block (R222). -/
def normAt (o : CopyOp) (i : Nat) : Val := Tag.val .fp32 (field o.held (4 * i) 4)

/-- The bits of output sample `ch` of output pixel (u, v), under draw index `i` (R306 to R308). -/
def sampleBits (o : CopyOp) (j : PageJob) (u v ch i : Nat) : Nat :=
  let total := areaSum j u v fun _ _ => 1
  if o.td = .int1 then
    if total ≤ 2 * areaSum j u v (fun x y => if j.sample 0 x y = 0 then 1 else 0) then 1 else 0
  else
    let num := Val.ofInt (areaSum j u v (j.sample ch))
    let x := (num.sub ((normAt o (2 * ch)).mul (Val.ofInt total))).mul (normAt o (2 * ch + 1))
    o.rounding.narrow o.td o.f.sat i (divVal x total)

/-- Bytes of a patch entry (R223). -/
def patchBytes (o : CopyOp) (j : PageJob) : Nat := roundUp (16 + 256 * j.chan * o.td.width / 8) 16

/-- A patch entry: position and pixels, padding as zero bits (R223, R306, R307). -/
def patchEntry (o : CopyOp) (j : PageJob) (prow pcol : Nat) : List Byte :=
  let pos := prow * j.cols + pcol
  let ow := ceilDiv (j.width * j.sk) 64
  let oh := ceilDiv (j.height * j.sk) 64
  let sample (n : Nat) : Nat :=
    let u := 16 * pcol + n / j.chan % 16
    let v := 16 * prow + n / j.chan / 16
    if ow ≤ u ∨ oh ≤ v then 0 else sampleBits o j u v (n % j.chan) (256 * j.chan * pos + n)
  let xs := leBytes 4 pos ++ leBytes 2 prow ++ leBytes 2 pcol ++ leBytes 8 0
    ++ packed o.td ((List.range (256 * j.chan)).map sample)
  xs ++ List.replicate (patchBytes o j - xs.length) 0

/-- Where the record lies. -/
def CopyOp.recordAt (o : CopyOp) : Dword := o.dst.base + o.par 1

def patchRow (o : CopyOp) (j : PageJob) : X Unit := do
  let c ← myNumber
  let a := o.recordAt + BitVec.ofNat 64 (32 + o.unit * j.cols * patchBytes o j)
  memStore c a ((List.range j.cols).flatMap (patchEntry o j o.unit))

/-- The record's header (R223). -/
def recordHeader (o : CopyOp) (j : PageJob) : List Byte :=
  leBytes 8 (o.par 2).toNat ++ leBytes 4 j.width ++ leBytes 4 j.height ++ leBytes 2 j.rows ++ leBytes 2 j.cols
    ++ leBytes 1 j.sk ++ leBytes 1 j.chan ++ leBytes 1 o.td.code ++ leBytes 1 j.src
    ++ leBytes 4 (patchBytes o j) ++ leBytes 4 (j.rows * j.cols)

/-- The decoder is free again. -/
def freeDecoder (s : State) (c : Nat) : State :=
  modDie s (dieOf c) fun d => { d with decoders := d.decoders.map fun x => if x == some c then none else x }

/-- PATCH_ROW_WRITE (R222, R306): the page is decoded first, then written row by row, and the header last. -/
def execPatchRowWrite (s : State) : Out :=
  let c := s.cur.core.val
  match copyWorks (coreAt s c) with
  | none => .next s
  | some o =>
    if o.kind != .img || o.finished || !(vget s.dies (dieOf c) Die.reset).decoders.contains (some c) then .next s
    else runX .k (do
      match o.page with
      | none => decodeFile o
      | some j =>
        if o.unit < o.units then do
          patchRow o j
          modMe unitDone
        else do
          memStore c o.recordAt (recordHeader o j)
          modMe allDone
          modify fun s => freeDecoder s c) s

end Sys2Proof.Machine
end

