-- ==== Sys2Proof/Machine/Walker.lean ====
section
/-! DEFINITION. The walker stream: its configuration (R175, R179), walks at issue and their meeting with an MSPR (R176,
R177, R197), the preparation of rounds (R178, R180 to R182), skipping (R181) and list mode (R183, R184). -/

namespace Sys2Proof.Machine

/-! Configuration. -/

/-- WCFG (R175). -/
def execWcfg (y : Sync) (f : WcfgF) (s : State) : Out :=
  engineNow .w y s (modMe fun k => { k with wcfg := ⟨f.mode, f.ovf, f.chk, f.cbh, f.lag, f.skip⟩ })

/-- WMARK (R179). -/
def execWmark (y : Sync) (p : BitVec 4) (s : State) : Out :=
  engineNow .w y s (modMe fun k => { k with row0 := (k.readP .w p).extractLsb' 0 32 &&& 0xFFFFFF80 })

/-! Walks at issue (R176, R177). -/

/-- KIND of A for each walk instruction. -/
def WalkKind.kindA : WalkKind → Nat
  | .bmap => 1
  | .coord => 2
  | .dense => 0

/-- The checks of R177 in the order of its table. -/
def walkChecks (kind : WalkKind) (a b : BitVec 256) : X Unit := do
  let ta ← descCheck a
  let tb ← descCheck b
  require (ta.kind == kind.kindA) .desc ta.base
  require (tb.kind == 1 || tb.kind == 2) .desc tb.base
  require (ta.dim0 == tb.dim1) .desc ta.base
  require (tb.dim0 ≤ 256) .desc tb.base
  localCheck ta
  localCheck tb

/-- STAT.VERIFY makes a walk take T as -512 (R175). -/
def walkCfg (k : Core) : WCfg := if k.sr.verify then { k.wcfg with skip := -512 } else k.wcfg

/-- A walk with the copies of its issue. -/
def newWalk (k : Core) (kind : WalkKind) (y : Sync) (f : WalkF) (waiting : Bool) : Walk :=
  { kind := kind, da := f.da, db := f.db, cfg := walkCfg k, row0 := k.row0.toNat, descA := k.readD f.da, descB := k.readD f.db
    cc := if f.ccen then some f.ccn else none, loc := (k.stream .w).here, wordAddr := (k.stream .w).wordAddr, sync := y
    waiting := waiting, checked := false, round := 0, seqNext := 0, recount := false, ready := [], begun := false
    ended := false, emitted := 0, records := 0, resume := [] }

def setWalk (w : Walk) (k : Core) : Core := k.modStream .w fun x => { x with op := .walk w }

/-- The checks of R197 on the tile and the descriptors of the walk. -/
def sprChecks (k : Core) (z : BitVec 1) (a b : BitVec 256) : X Unit := do
  let t := vget k.z z.toNat Tile.zero
  require (t.tag != .invalid) .tag 0
  require ((tileD a).tag == t.tag && (tileD b).tag == t.btag) .tag 0
  require (!t.tag.isMx && !t.btag.isMx && t.tag != .int1 && t.btag != .int1) .tag 0
  require (t.mode != .arrival || !k.sr.verify) .verify 0

/-- A flow at its first step (R278). -/
def newFlow (w : Walk) : Flow :=
  { cfg := w.cfg, tagA := (tileD w.descA).tag, tagB := (tileD w.descB).tag, step := 0, next := 0, walkDone := false
    rowq := [], spill := [], lanes := [], done := [], held := [], stop := none, poisoned := false }

/-- The walk and the MSPR issue in one cycle, with the copies of that cycle (R27, R176). -/
def meetNow (w : Walk) (o : MatOp) (k : Core) : Core :=
  let w1 : Walk := { w with waiting := false, cfg := walkCfg k, row0 := k.row0.toNat, descA := k.readD w.da, descB := k.readD w.db }
  let o1 : MatOp := { o with started := true, seed := k.sr.seed }
  let k1 := (((k.takePop .w w.sync).takePop .m o.sync).ccUp w.cc).ccUp o.cc
  let k2 := (k1.modStream .w (·.step 2)).modStream .m (·.step 2)
  let k3 := k2.modStream .w fun x => { x with op := .walk w1, mpc := 0 }
  { k3.modStream .m fun x => { x with op := .mat o1, mpc := 0 } with flow := some (newFlow w1) }

/-- WALK_MSPR_MEET for a core: a walk and an MSPR that both wait at issue meet (R176). -/
def meet (s : State) (c : Nat) : State :=
  let k := coreAt s c
  match (k.stream .w).op, (k.stream .m).op with
  | .walk w, .mat o =>
    match o.kind with
    | .spr z =>
      if w.waiting && !o.started && !k.stopped && k.raising.isNone && k.ccRoom w.cc && (k.ccUp w.cc).ccRoom o.cc then
        match walkChecks w.kind (k.readD w.da) (k.readD w.db) s with
        | .error (.exc e) _ => raise s c .w e
        | .error _ _ => s
        | .ok _ _ =>
          match sprChecks k z (k.readD w.da) (k.readD w.db) s with
          | .error (.exc e) _ => raise s c .m e
          | .error _ _ => s
          | .ok _ _ => modCore s c (meetNow w o)
      else s
    | _ => s
  | _, _ => s

def execWalkMsprMeet (s : State) : Out := .next (meet s s.cur.core.val)

/-- A walk at issue: in list mode it issues; in array mode it waits there for its MSPR (R176, R183). -/
def walkIssue (kind : WalkKind) (y : Sync) (f : WalkF) (s : State) : Out :=
  let c := s.cur.core.val
  if (coreAt s c).wcfg.mode then
    engineIssue .w y s (do
      let cc ← ccTake f.ccen f.ccn
      let k ← me
      let s ← get
      require (cbAt s c k.wcfg.cbh).valid .cbuf 0
      walkChecks kind (k.readD f.da) (k.readD f.db)
      modMe fun k => setWalk (newWalk k kind y f false) (k.ccUp cc))
  else
    let k := coreAt s c
    if k.popReady .w y && k.ccRoom (if f.ccen then some f.ccn else none) then
      .next (meet (modCore s c (setWalk (newWalk k kind y f true))) c)
    else .next s

def execWbmap (y : Sync) (f : WalkF) (s : State) : Out := walkIssue .bmap y f s
def execWcoord (y : Sync) (f : WalkF) (s : State) : Out := walkIssue .coord y f s
def execWdense (y : Sync) (f : WalkF) (s : State) : Out := walkIssue .dense y f s

/-! B rows (R178). -/

/-- A B row that is not empty: its block, and the column and place of each stored element. -/
structure BMeta where
  head : BlockHead
  items : List (Nat × Nat)
deriving DecidableEq, Repr

/-- The pairs of word `w` of a CBF-C block; the failure of a pair in a row of no round, outside the tile or not accepted by
`keep`, is raised as the word is read (R182). A column outside the tile fails in the round that reaches it (R315; log 52). -/
def coordWord (c : Nat) (t : TileD) (h : BlockHead) (keep : Nat → Bool) (w : Nat) (prev : Option Nat) : X (List PairItem) := do
  let xs ← payload c t h (4 * w) 4
  let items := pairItems t h (List.replicate (4 * w) 0 ++ xs) (min 2 (h.nnz - 2 * w)) (2 * w) prev
  match items.find? fun p => p.bad.isSome && (p.outside || !keep p.row) with
  | some p => throw (.exc (p.bad.getD ⟨.metadata, 0, 0, 0⟩))
  | none => pure items

/-- The order key of the last pair of a word. -/
def lastKey (e : Extent) (items : List PairItem) (prev : Option Nat) : Option Nat :=
  match items.getLast? with
  | some p => some (256 * (p.row - e.row0) + (p.col - e.col0))
  | none => prev

/-- The pairs of row `row` that stand behind a pair of a later row, so that the first of them is misordered: read ahead, from word `w`
on, where nothing else that is met counts as read (R182; DESIGN CHOICE, log 66). -/
def latePairs (c : Nat) (t : TileD) (h : BlockHead) (row : Nat) (w : Nat) (prev : Option Nat) : X (List PairItem) := do
  let n := h.nnz - 2 * w
  let xs ← try memLoadMarked c (t.base + BitVec.ofNat 64 (h.start + 16 + 4 * w)) (2 * n) catch _ => pure []
  let bytes := (xs.takeWhile fun x => x.2.isNone).map (·.1)
  let items := pairItems t h (List.replicate (4 * w) 0 ++ bytes) (bytes.length / 2) (2 * w) prev
  pure (items.filter fun p => p.row == row)

/-- The pairs of row `row` of a CBF-C block, read by words up to the first pair of a later row, and then those that are misordered. -/
def coordRow (c : Nat) (t : TileD) (h : BlockHead) (row : Nat) : Nat → Nat → Option Nat → X (List PairItem)
  | 0, _, _ => pure []
  | fuel + 1, w, prev => do
    let items ← coordWord c t h (fun _ => true) w prev
    let mine := items.filter fun p => p.row == row
    match mine.find? fun p => p.bad.isSome with
    | some p => throw (.exc (p.bad.getD ⟨.metadata, 0, 0, 0⟩))
    | none =>
      if items.any fun p => row < p.row then do
        let late ← latePairs c t h row (w + 1) (lastKey h.ext items prev)
        raiseIf (late.findSome? (·.bad))
        pure (mine ++ late)
      else do
        let more ← coordRow c t h row fuel (w + 1) (lastKey h.ext items prev)
        pure (mine ++ more)

/-- B row `k`, none when it is empty (R178); a tile without columns has no blocks. -/
def bRow (c : Nat) (t : TileD) (hd : THead) (k : Nat) : X (Option BMeta) := do
  if t.nblk = 0 then pure none
  else if t.kind = 1 then
    match ← openBlock c t hd k with
    | none => pure none
    | some h => do
      let cols ← readBitmaps c t h
      pure (if cols.isEmpty then none else some ⟨h, cols.mapIdx fun i col => (col, i)⟩)
  else
    match ← openBlock c t hd (k / 256) with
    | none => pure none
    | some h => do
      let items ← coordRow c t h k (ceilDiv h.nnz 2) 0 none
      pure (if items.isEmpty then none else some ⟨h, items.map fun p => (p.col, p.idx)⟩)

/-- A byte range of a block's payload with its flaws, or raising them where `hard` is set (R182, R382). -/
def payloadMarked (c : Nat) (t : TileD) (h : BlockHead) (off n : Nat) (hard : Bool) : X (List (Byte × Option Flaw)) := do
  if n = 0 then pure []
  else if hard then do
    let xs ← payload c t h off n
    pure (xs.map fun x => (x, none))
  else memLoadMarked c (t.base + BitVec.ofNat 64 (h.start + 16 + off)) n

/-- The stored elements of a B row, with the scales of a QN4 tile. -/
def bItems (c : Nat) (t : TileD) (m : BMeta) (hard : Bool) : X (List BItem) := do
  let w := t.tag.width
  let g := bitmapsOf m.head.ext
  let p0 := ((m.items.head?.map Prod.snd).getD 0) * w
  let p1 := ((m.items.getLast?.map Prod.snd).getD 0) * w + w
  let q ← if t.tag = .qn4 then payloadMarked c t m.head (8 * g) (4 + g) hard else pure []
  let xs ← payloadMarked c t m.head (metaLen t m.head + p0 / 8) ((p1 + 7) / 8 - p0 / 8) hard
  pure (m.items.map fun e =>
    let b := e.2 * w - p0 / 8 * 8
    let here := (xs.drop (b / 8)).take (elemBytes t.tag (b % 8))
    let code := q.getD (4 + e.1 / 64) (0, none)
    let marks := (here.filterMap (·.2)) ++ (q.take 4).filterMap (·.2) ++ code.2.toList
    { col := m.head.ext.col0 + e.1, bits := BitVec.ofNat 64 (elemBits t.tag (b % 8) (here.map (·.1))), code := code.1
      super := BitVec.ofNat 32 (leValue ((q.take 4).map (·.1))), flaw := marks.head? })

/-! A elements (R178). -/

/-- A stored element of a compressed A tile: the bits at place `i` of its block, with its QN4 scales. -/
def storedElem (c : Nat) (t : TileD) (h : BlockHead) (col i : Nat) : X (Nat × Byte × Nat) := do
  let g := bitmapsOf h.ext
  let b := i * t.tag.width
  let xs ← payload c t h (metaLen t h + b / 8) (elemBytes t.tag (b % 8))
  let v := elemBits t.tag (b % 8) xs
  if t.tag = .qn4 then do
    let q ← payload c t h (8 * g) 4
    let code ← payload c t h (8 * g + 4 + col / 64) 1
    pure (v, code.headD 0, leValue q)
  else pure (v, 0, 0)

/-- An element of a dense A tile with its scales (R90). -/
def denseElem (c : Nat) (t : TileD) (row n : Nat) : X (Nat × Byte × Nat) := do
  let at_ := addrAt t.base (row * t.s1)
  let p := elemPlace t t.tag n
  let xs ← memLoad c (addrAt at_ p.1) (elemBytes t.tag p.2)
  let v := elemBits t.tag p.2 xs
  if t.tag.isScaled then do
    let sp := scalePlace t t.tag n
    let code ← memLoad c (at_ + BitVec.ofNat 64 sp.1) 1
    let q ← if t.tag = .qn4 then memLoad c (at_ + BitVec.ofNat 64 sp.2) 4 else pure []
    pure (v, code.headD 0, leValue q)
  else pure (v, 0, 0)

/-! The r-th match of a row (R180, R182). -/

/-- A scan for the n-th match: found, or `left` more were wanted. -/
inductive Scan where
  | left (n : Nat)
  | found (k : Nat) (v : Nat) (code : Byte) (super : Nat) (b : BMeta)
deriving DecidableEq, Repr

/-- A candidate of column `k`: a match if B row k is not empty. -/
def tryMatch (c : Nat) (tb : TileD) (hb : THead) (k n : Nat) (value : X (Nat × Byte × Nat)) : X Scan := do
  match ← bRow c tb hb k with
  | none => pure (.left n)
  | some m =>
    if n = 0 then do
      let v ← value
      pure (.found k v.1 v.2.1 v.2.2 m)
    else pure (.left (n - 1))

/-- Candidates of known columns in ascending order. -/
def scanCols (c : Nat) (tb : TileD) (hb : THead) (value : Nat → Nat → X (Nat × Byte × Nat)) (col0 : Nat) :
    List (Nat × Nat) → Nat → X Scan
  | [], n => pure (.left n)
  | (col, i) :: rest, n => do
    match ← tryMatch c tb hb (col0 + col) n (value col i) with
    | .left m => scanCols c tb hb value col0 rest m
    | x => pure x

/-- Candidates of a row's coordinate pairs in the order read; one that fails R99 is raised where it is reached (R182). -/
def scanPairs (c : Nat) (ta : TileD) (h : BlockHead) (tb : TileD) (hb : THead) : List PairItem → Nat → X Scan
  | [], n => pure (.left n)
  | p :: rest, n => do
    raiseIf p.bad
    match ← tryMatch c tb hb p.col n (storedElem c ta h (p.col - h.ext.col0) p.idx) with
    | .left m => scanPairs c ta h tb hb rest m
    | x => pure x

/-- The pairs of A row `row` in a CBF-C block, word by word up to the match or the first pair of a later row, and then those that are
misordered. -/
def scanCoord (c : Nat) (ta : TileD) (h : BlockHead) (tb : TileD) (hb : THead) (keep : Nat → Bool) (row : Nat) :
    Nat → Nat → Option Nat → Nat → X Scan
  | 0, _, _, n => pure (.left n)
  | fuel + 1, w, prev, n => do
    let items ← coordWord c ta h keep w prev
    match ← scanPairs c ta h tb hb (items.filter fun p => p.row == row) n with
    | .left m =>
      if items.any fun p => row < p.row then do
        let late ← latePairs c ta h row (w + 1) (lastKey h.ext items prev)
        scanPairs c ta h tb hb late m
      else scanCoord c ta h tb hb keep row fuel (w + 1) (lastKey h.ext items prev) m
    | x => pure x

/-- The blocks of an A row in ascending column. -/
def scanBlocks (c : Nat) (ta : TileD) (ha : THead) (tb : TileD) (hb : THead) (keep : Nat → Bool) (row : Nat) :
    List Nat → Nat → X Scan
  | [], n => pure (.left n)
  | b :: rest, n => do
    let r ← match ← openBlock c ta ha b with
      | none => pure (.left n)
      | some h =>
        if ta.kind = 1 then do
          let m ← markedColumns c ta h
          let scan := scanCols c tb hb (storedElem c ta h) h.ext.col0 (m.cols.mapIdx fun i col => (col, i)) n
          if m.population.isSome then
            -- the range failure comes first where this round reaches it (R99, R182)
            let past ← try (do
              match ← scan with
              | .left _ => pure m.range
              | _ => pure none) catch _ => pure none
            raiseIf past
            raiseIf m.population
          match ← scan with
          | .left left => do
            raiseIf m.range
            pure (.left left)
          | x => pure x
        else scanCoord c ta h tb hb keep row (ceilDiv h.nnz 2) 0 none n
    match r with
    | .left m => scanBlocks c ta ha tb hb keep row rest m
    | x => pure x

/-- The match of A row `row` with `n` earlier ones. -/
def scanRow (c : Nat) (ta : TileD) (ha : THead) (tb : TileD) (hb : THead) (keep : Nat → Bool) (row n : Nat) : X Scan :=
  if ta.kind = 0 then
    scanCols c tb hb (fun k _ => denseElem c ta row k) 0 ((List.range ta.dim0).map fun k => (k, k)) n
  else
    let b0 := (if ta.kind = 2 then row / 256 else row) * ta.across
    scanBlocks c ta ha tb hb keep row ((List.range ta.across).map (b0 + ·)) n

/-! Skipping (R181). -/

/-- uexp of an element: none for a zero, and infinity as a large number. -/
def uexp (t : Tag) (b : Nat) (sc : Scale) : Option Int :=
  match e8Val (expandE8m10 t b sc) with
  | .fin _ 0 _ => none
  | .fin _ m e => some (m.log2 + e)
  | _ => some 100000

/-- Skipping applies to floating-point and QN4 pairs (R181). -/
def skips (cfg : WCfg) (a b : Tag) : Bool :=
  let fl (t : Tag) : Bool := t == .fp32 || isFloatOperand t
  cfg.skip != -512 && fl a && fl b

/-- est < T. -/
def skipped (cfg : WCfg) (a b : Tag) (v : Nat) (sa : Scale) (row : List BItem) : Bool :=
  skips cfg a b &&
    let ea := uexp a v sa
    let ebs := row.map fun x => uexp b x.bits.toNat ⟨x.code.toNat, x.super.toNat⟩
    let eb := ebs.foldl (fun m x => match m, x with
      | none, x => x
      | m, none => m
      | some m, some x => some (max m x)) none
    match ea, eb with
    | some x, some y => if 50000 < x || 50000 < y then false else decide (x + y < cfg.skip.toInt)
    | some x, none => !decide (50000 < x)
    | none, some y => !decide (50000 < y)
    | none, none => true

/-! The preparation of a round (R182). -/

/-- What a walk's descriptors say, with the headers read. -/
structure WalkTiles where
  ta : TileD
  ha : THead
  tb : TileD
  hb : THead
deriving DecidableEq, Repr

/-- The tile headers, A's first. R99 orders the reads of one tile; when B's header is read beside A's blocks is open, and the model reads
both headers before any block, again in each round (DESIGN CHOICE, log 66). -/
def walkTiles (c : Nat) (w : Walk) : X WalkTiles := do
  let ta := tileD w.descA
  let tb := tileD w.descB
  let ha ← if ta.kind = 0 then pure ⟨0, 0⟩ else readHead c ta
  let hb ← readHead c tb
  pure ⟨ta, ha, tb, hb⟩

/-- The rows of the window that exist (R179). -/
def windowRows (w : Walk) : List Nat := ((List.range 128).map (w.row0 + ·)).filter fun i => decide (i < (tileD w.descA).dim1)

/-- The pairs of round `r` in the rows given, numbers not set yet, and how many matches of earlier rounds were passed. -/
def roundRows (c : Nat) (w : Walk) (x : WalkTiles) (r : Nat) : List Nat → X (List Pair × Nat)
  | [] => pure ([], 0)
  | i :: rest => do
    let keep (row : Nat) : Bool := w.row0 ≤ row && row < w.row0 + 128
    match ← scanRow c x.ta x.ha x.tb x.hb keep i r with
    | .left n => do
      let more ← roundRows c w x r rest
      pure (more.1, more.2 + (r - n))
    | .found k v code super m => do
      let row ← bItems c x.tb m (skips w.cfg x.ta.tag x.tb.tag)
      let p : Pair := { row := i % 128, k := k, a := BitVec.ofNat 64 v, code := code, super := BitVec.ofNat 32 super, seq := 0
                        idx := r, skipped := skipped w.cfg x.ta.tag x.tb.tag v ⟨code.toNat, super⟩ row, brow := row }
      let more ← roundRows c w x r rest
      pure (p :: more.1, more.2 + r)

/-- The metadata of one block read and checked, for a pre-check; answers its NNZ. -/
def checkMeta (c : Nat) (t : TileD) (hd : THead) (keep : Nat → Bool) (b : Nat) : X Nat := do
  match ← openBlock c t hd b with
  | none => pure 0
  | some h =>
    if t.kind = 1 then do
      let _ ← readBitmaps c t h
      pure h.nnz
    else do
      let items ← readPairs c t h
      match items.find? fun p => p.bad.isSome && (p.outside || keep p.row) with
      | some p => throw (.exc (p.bad.getD ⟨.metadata, 0, 0, 0⟩))
      | none => pure h.nnz

def checkMetas (c : Nat) (t : TileD) (hd : THead) (keep : Nat → Bool) : List Nat → X Nat
  | [] => pure 0
  | b :: rest => do
    let n ← checkMeta c t hd keep b
    let m ← checkMetas c t hd keep rest
    pure (n + m)

/-- CHK = 1: all metadata of A's window rows and of B, and COUNT where every block is read (R99, R182). -/
def preCheck (c : Nat) (w : Walk) (x : WalkTiles) : X Unit := do
  let keep (row : Nat) : Bool := w.row0 ≤ row && row < w.row0 + 128
  if x.ta.kind != 0 then do
    let last := min (w.row0 + 128) x.ta.dim1
    let blocks := if x.ta.kind = 1 then (w.row0 * x.ta.across, last * x.ta.across)
      else (w.row0 / 256 * x.ta.across, ceilDiv last 256 * x.ta.across)
    let total ← checkMetas c x.ta x.ha keep ((List.range (blocks.2 - blocks.1)).map (blocks.1 + ·))
    if w.row0 = 0 && x.ta.dim1 ≤ 128 then countCheck x.ta total
  let total ← checkMetas c x.tb x.hb (fun _ => true) (List.range x.tb.nblk)
  countCheck x.tb total

/-- The sequence numbers of a round (R180). -/
def numberFrom : Nat → List Pair → List Pair
  | _, [] => []
  | n, p :: rest => { p with seq := n } :: numberFrom (n + 1) rest

/-- The walk with its next round prepared, or ended when no row has another match. -/
def prepared (w : Walk) : X Walk := do
  let c ← myNumber
  let x ← walkTiles c w
  if w.cfg.chk && !w.checked then preCheck c w x
  let r ← roundRows c w x w.round (windowRows w)
  require (r.1.isEmpty || w.round < 65535) .pairlim 0
  let base := if w.recount then r.2 else w.seqNext
  let ps := numberFrom base r.1
  pure { w with checked := true, round := w.round + 1, seqNext := base + ps.length, recount := false, ready := ps
                begun := false, ended := ps.isEmpty }

/-- ROUND_PREPARE (R182). In list mode the pairs written before a resumption are passed over (R184). -/
def execRoundPrepare (s : State) : Out :=
  let c := s.cur.core.val
  let k := coreAt s c
  match (k.stream .w).op with
  | .walk w =>
    let stopping := k.stopped || k.raising.isSome || ((k.flow.bind (·.stop)).isSome)
    if w.waiting || !w.ready.isEmpty || w.ended || stopping || (k.stream .w).run != .run then .next s
    else runX .w (do
      let w1 ← prepared w
      let w2 : Walk := if w.cfg.mode then { w1 with ready := w1.ready.filter fun p => decide (w.emitted ≤ p.seq) } else w1
      modMe (setWalk w2)) s
  | _ => .next s

/-! List mode (R183, R184). -/

/-- A pair emitted: the walker's MPC and counts (R184). -/
def listAdvance (w : Walk) (written : Bool) (k : Core) : Core :=
  let w1 : Walk := { w with ready := w.ready.drop 1, emitted := w.emitted + 1, records := w.records + written.toNat }
  (setWalk w1 k).modStream .w fun x => { x with mpc := x.mpc + 1, progress := true }

/-- The record of a pair (R183). -/
def pairRecord (p : Pair) : List Byte :=
  leBytes 4 p.k ++ leBytes 2 p.row ++ leBytes 2 0 ++ leBytes 4 p.seq ++ leBytes 4 p.a.toNat

/-- A record at place `n` of the slot that HEAD names; the slot's last record advances HEAD. -/
def putRecord (h : BitVec 4) (n : Nat) (xs : List Byte) : X Unit := do
  let s ← get
  let c := s.cur.core.val
  let x := cbAt s c h
  require x.valid .cbuf 0
  let per := x.slotsz.toNat / 16
  if n % per = 0 then waitFor (1 ≤ x.free)
  let a := x.base.toNat + x.head.toNat % x.nslot.toNat * x.slotsz.toNat + 16 * (n % per)
  ringStore ((List.range 16).map (a + ·)) xs
  if n % per + 1 = per then modify fun s => modCb s c h fun x => { x with head := x.head + 1 }

/-- The rest of the walk's last slot (R183). -/
def fillSlot (h : BitVec 4) : Nat → Nat → X Unit
  | 0, _ => pure ()
  | fuel + 1, n => do
    let s ← get
    let per := (cbAt s s.cur.core.val h).slotsz.toNat / 16
    if n % per = 0 then pure ()
    else do
      putRecord h n (List.replicate 16 0xFF)
      fillSlot h fuel (n + 1)

/-- A walk retires (R176). -/
def retireWalk (w : Walk) (k : Core) : Core :=
  ((k.modStream .w fun x => { x with op := .none, progress := true }).finish .w w.sync w.cc)

/-- A skipped pair counts in SKIPCNT at its emission (R285). -/
def countSkip (k : Core) : Core := { k with sr := { k.sr with skipcnt := k.sr.skipcnt + 1 } }

/-- LIST_RECORD_WRITE (R183). -/
def execListRecordWrite (s : State) : Out :=
  let k := coreAt s s.cur.core.val
  match (k.stream .w).op with
  | .walk w =>
    if !w.cfg.mode || k.stopped || k.raising.isSome || (k.stream .w).run != .run then .next s
    else match w.ready with
      | [] =>
        if w.ended then runX .w (do
          fillSlot w.cfg.cbh 4096 w.records
          modMe (retireWalk w)) s
        else .next s
      | p :: _ =>
        if p.skipped then .next (modCore s s.cur.core.val fun k => listAdvance w false (countSkip k))
        else runX .w (do
          putRecord w.cfg.cbh w.records (pairRecord p)
          modMe (listAdvance w true)) s
  | _ => .next s

end Sys2Proof.Machine
end

