-- ==== Sys2Proof/Machine/Array.lean ====
section
/-! DEFINITION. The cluster's array: its lease (R186, R290), power tokens (R203, R291), tile cells, and the flow of a walk's
pairs through it (R278 to R289). -/

namespace Sys2Proof.Machine

/-! The lease (R186). -/

/-- The number of commands a core asks the array for (R186): by its MLEASE, or again after TRET or a resumption. -/
def askedLease (k : Core) : Option Nat :=
  let x := k.stream .m
  if k.stopped || k.raising.isSome || x.run != .run then none
  else match x.op with
    | .mat o => match o.kind with
      | .lease n => some n
      | _ => k.wantLease
    | _ => k.wantLease

/-- The first asking core in the order holder + 1 to holder (R186). -/
def nextHolder (s : State) (cl : Nat) : Option Nat :=
  ((List.range 4).map fun i => 4 * cl + ((clusterAt s cl).last + 1 + i) % 4).find? fun c => (askedLease (coreAt s c)).isSome

/-- A core is granted the array: its MLEASE issues and retires (R186). -/
def leaseGranted (k : Core) : Core :=
  match (k.stream .m).op with
  | .mat o => match o.kind with
    | .lease _ =>
      let go (x : Stream) : Stream := { x.step 1 with op := .none }
      (((k.takePop .m o.sync).modStream .m go).retire .m o.sync)
    | _ => { k with wantLease := none, leaseLeft := 0 }
  | _ => { k with wantLease := none, leaseLeft := 0 }

/-- LEASE_GRANT (R186). -/
def execLeaseGrant (cl : Nat) (s : State) : Out :=
  let s0 := lapseLease s cl
  let x := clusterAt s0 cl
  if x.holder.isNone && 8 ≤ x.sinceEnd then
    match nextHolder s0 cl with
    | none => .next s0
    | some c =>
      let n := (askedLease (coreAt s0 c)).getD 0
      .next (modCore (modCluster s0 cl fun l => { l with holder := some c, left := n }) c leaseGranted)
  else .next s0

/-- An array command completes: it counts towards the lease run, and its power token goes back (R186, R291). -/
def commandDone (s : State) (c : Nat) : State :=
  let s1 := returnToken s c
  let cl := clusterOf c
  if (clusterAt s1 cl).holder == some c then
    let s2 := modCluster s1 cl fun l => { l with left := l.left - 1 }
    if (clusterAt s2 cl).left = 0 then endLease s2 cl else s2
  else s1

/-- The lease at the issue of an array command: asked for again after a trap, else held (R186). -/
def needLease : X Unit := do
  let s ← get
  let c := s.cur.core.val
  waitFor (coreAt s c).wantLease.isNone
  require ((clusterAt s (clusterOf c)).holder == some c) .lease 0

/-! Power tokens (R203, R291). -/

/-- A command of more than 64 steps waits for its cluster's token. -/
def needToken (steps : Nat) : X Unit := do
  let s ← get
  let cl := clusterOf s.cur.core.val
  if 64 < steps && !(clusterAt s cl).token then do
    set (modCluster s cl fun l => { l with waitToken := true })
    throw .hold

/-- A free token at a waiting cluster is taken (R291). -/
def takeToken (s : State) (cl : Nat) : State :=
  let d := cl / 32
  let x := clusterAt s cl
  if x.waitToken && !x.token && (dieAt s d).tokens.contains (cl % 32) then
    modDie (modCluster s cl fun l => { l with token := true, waitToken := false }) d
      fun y => { y with tokens := dropFirst (· == cl % 32) y.tokens }
  else s

/-- POWER_TOKEN_TAKE (R291). -/
def execPowerTokenTake (cl : Nat) (s : State) : Out := .next (takeToken s cl)

/-- Every free token of a die moves on, and waiting clusters take what reaches them (R291). -/
def moveTokens (s : State) (d : Nat) : State :=
  let s1 := modDie s d fun y => { y with tokens := y.tokens.map fun t => (t + 1) % 32 }
  (List.range 32).foldl (fun s i => takeToken s (32 * d + i)) s1

/-! Tile cells (R32). A clear cell is not listed. -/

def Tile.cell (t : Tile) (n : Nat) : Cell := (kget t.cells n).getD Cell.zero

def Tile.setCell (t : Tile) (n : Nat) (x : Cell) : Tile :=
  { t with cells := if x = Cell.zero then kdel t.cells n else kset t.cells n x }

def Tile.modCell (t : Tile) (n : Nat) (f : Cell → Cell) : Tile := t.setCell n (f (t.cell n))

/-- The class of a tile's pair; MCFG admits no other (R187). -/
def Tile.pair (t : Tile) : PairKind := (pairKind t.tag t.btag).getD .float

/-- An addend applied to a cell by the tile's mode, marking it poisoned where the addend used an uncorrectable element
(R83 to R85, R382). -/
def Tile.addTo (t : Tile) (n : Nat) (poison : Bool) (p : Val) : Tile :=
  t.modCell n fun c =>
    let c1 := applyAddend t.mode t.pair t.anchor p c
    { c1 with poi := c1.poi || poison }

def modTile (z : BitVec 1) (f : Tile → Tile) (k : Core) : Core := { k with z := vmod k.z z.toNat f }

/-! Products of a pair (R197). -/

/-- The addends of one product: three for FP32, integers as they are, the others by their E8M10 expansions. -/
def pairAddends (kind : PairKind) (ta tb : Tag) (a : Nat) (sa : Scale) (b : Nat) (sb : Scale) : List Val :=
  match kind with
  | .fp32 =>
    let ha := e8Val (splitHi a)
    let la := e8Val (splitLo a)
    let hb := e8Val (splitHi b)
    let lb := e8Val (splitLo b)
    [ha.mul hb, ha.mul lb, la.mul hb]
  | .int | .int4 | .bit => [(ta.val a).mul (tb.val b)]
  | _ => [(e8Val (expandE8m10 ta a sa)).mul (e8Val (expandE8m10 tb b sb))]

/-- A pair applied to the cells of its home row; an element in a flawed granule counts as zero bits (R197, R382). -/
def applyPair (f : Flow) (p : Pair) (t : Tile) : Tile :=
  p.brow.foldl (fun t x =>
    let bits := if x.flaw.isSome then 0 else x.bits.toNat
    (pairAddends t.pair f.tagA f.tagB p.a.toNat ⟨p.code.toNat, p.super.toNat⟩ bits ⟨x.code.toNat, x.super.toNat⟩).foldl
      (fun t v => t.addTo (256 * p.row + x.col) x.flaw.isSome v) t) t

/-! The flow (R278 to R284). -/

def Flow.queue (f : Flow) (l : Nat) : List Pair := (kget f.rowq l).getD []
def Flow.setQueue (f : Flow) (l : Nat) (q : List Pair) : Flow := { f with rowq := kset f.rowq l q }

/-- The oldest unfinished sequence o (R279). -/
def Flow.oldest (f : Flow) : Nat :=
  let all := f.rowq.flatMap (·.2) ++ f.spill ++ f.lanes.map (·.pair)
  all.foldl (fun m p => min m p.seq) f.next

/-- Pairs of a home row that are emitted and not done. -/
def Flow.earlier (f : Flow) (p : Pair) (held : List Pair) : Bool :=
  let before (q : Pair) : Bool := q.row == p.row && q.seq < p.seq
  (f.queue p.row).any before || f.spill.any before || f.lanes.any (fun w => before w.pair) || held.any before

/-- CANON: arrived pairs whose earlier pairs have all been applied, taken from `l` in ascending sequence (R284). -/
def Flow.release (f : Flow) : List Pair → List Pair → List Pair × List Pair
  | [], kept => ([], kept)
  | p :: rest, kept =>
    if f.earlier p kept then f.release rest (kept ++ [p])
    else
      let r := f.release rest kept
      (p :: r.1, r.2)

/-- The pair counts as done for its home row (R198). -/
def Flow.count (f : Flow) (l : Nat) : Flow := { f with done := kset f.done l ((kget f.done l).getD 0 + 1) }

/-- The completion phase (R280): the pairs done, in ascending lane, and the flow after. -/
def Flow.completion (f : Flow) : List Pair × Flow :=
  let fin := (f.lanes.filter fun w => w.left ≤ 1).mergeSort fun a b => a.lane ≤ b.lane
  let on := (f.lanes.filter fun w => 1 < w.left).map fun w => { w with left := w.left - 1 }
  let ps := fin.map (·.pair)
  (ps, ps.foldl (fun f p => f.count p.row) { f with lanes := on })

/-- The tile after the completion phase, and the flow with what CANON holds back (R284). -/
def applyDone (mode : AccMode) (exact : Bool) (f : Flow) (ps : List Pair) (t : Tile) : Flow × Tile :=
  if mode = .canon && !exact then
    let r := f.release ((f.held ++ ps).mergeSort fun a b => a.seq ≤ b.seq) []
    ({ f with held := r.2 }, r.1.foldl (fun t p => applyPair f p t) t)
  else (f, ps.foldl (fun t p => applyPair f p t) t)

def Flow.idle (f : Flow) (l : Nat) : Bool := !f.lanes.any fun w => w.lane == l

/-- A lane's own candidate (R281), and whether it lies in the overflow queue. -/
def Flow.candidate (f : Flow) (l : Nat) : Option (Pair × Bool) :=
  let own := (f.queue l).head?
  let spill := f.spill.find? fun p => p.row == l
  match own, spill with
  | none, none => none
  | some p, none => some (p, false)
  | none, some q => some (q, true)
  | some p, some q => if p.seq ≤ q.seq then some (p, false) else some (q, true)

/-- Steps a pair stays in progress (R280). -/
def Flow.length (f : Flow) : Nat := if f.tagA = .fp32 then 3 else 1

/-- A pair starts in a lane. -/
def Flow.begin (f : Flow) (l : Nat) (p : Pair) (spill : Bool) : Flow :=
  let f1 := if spill then { f with spill := dropFirst (fun q => q.seq == p.seq) f.spill }
    else f.setQueue p.row ((f.queue p.row).drop 1)
  { f1 with lanes := f1.lanes ++ [⟨l, p, f.length⟩] }

def Flow.near (f : Flow) (o : Nat) (p : Pair) : Bool := p.seq ≤ o + f.cfg.lag.toNat

/-- The start phase's own candidates, lane by lane (R281), with LAGCNT's events (R285). -/
def Flow.startOwn (o : Nat) : List Nat → Flow × Nat → Flow × Nat
  | [], x => x
  | l :: rest, (f, lag) =>
    if f.idle l then
      match f.candidate l with
      | none => Flow.startOwn o rest (f, lag)
      | some (p, spill) =>
        if f.near o p then Flow.startOwn o rest (f.begin l p spill, lag)
        else Flow.startOwn o rest (f, if (f.queue l).isEmpty then lag else lag + 1)
    else Flow.startOwn o rest (f, lag)

/-- Borrowing by the lanes that had no own candidate (R281). -/
def Flow.borrow (o : Nat) : List Nat → Flow → Flow
  | [], f => f
  | l :: rest, f =>
    match f.spill with
    | [] => f
    | p :: _ => if f.near o p then Flow.borrow o rest (f.begin l p true) else f

/-- The start phase (R281). -/
def Flow.start (f : Flow) : Flow × Nat :=
  let o := f.oldest
  let free := (List.range 128).filter fun l => f.idle l && (f.candidate l).isNone
  let r := Flow.startOwn o (List.range 128) (f, 0)
  (if f.cfg.ovf then Flow.borrow o free r.1 else r.1, r.2)

/-- The first uncorrectable element that the pairs started in a step read (R382). -/
def firstFlaw (old new : Flow) : Option Flaw :=
  (new.lanes.filter fun w => !old.lanes.any fun v => v.lane == w.lane).findSome? fun w =>
    w.pair.brow.findSome? fun x => x.flaw

/-- An uncorrectable operand stops emission, and is raised when the flow has drained (R288, R382). -/
def noteFlaw (s : State) (c : Nat) (x : Option Flaw) : State :=
  match x with
  | none => s
  | some (va, pa) =>
    let s1 := uncorrRecord s pa va.toNat (some c)
    let mark (f : Flow) : Flow := { f with poisoned := true, stop := some (f.stop.getD ⟨.uncorr, 0, va, 0⟩) }
    modCore s1 c fun k => { k with flow := k.flow.map mark }

/-! Emission (R282). -/

/-- What becomes of a presented pair: emitted with the flow after, or not. `full` says its home row queue was full. -/
structure Presented where
  emitted : Bool
  full : Bool
  flow : Flow
deriving DecidableEq, Repr

def Flow.present (f : Flow) (p : Pair) : Presented :=
  let q := f.queue p.row
  if q.length < 4 then ⟨true, false, f.setQueue p.row (q ++ [p])⟩
  else if f.cfg.ovf && f.spill.length < 32 then ⟨true, true, { f with spill := f.spill ++ [p] }⟩
  else ⟨false, true, f⟩

/-- The walk after a pair of it has gone: a round wholly emitted counts in both MPCs (R184, R198). -/
def passPair (w : Walk) (begun : Bool) (k : Core) : Core :=
  let rest := w.ready.drop 1
  let w1 : Walk := { w with ready := rest, begun := begun, emitted := w.emitted + 1 }
  let k1 := setWalk w1 k
  if rest.isEmpty then
    (k1.modStream .w fun x => { x with mpc := x.mpc + 1 }).modStream .m fun x => { x with mpc := x.mpc + 1 }
  else k1

/-- Emission stops: before the next round where a fault has stopped the flow or another stream has raised one (R288). -/
def emissionStops (k : Core) (f : Flow) (w : Walk) : Bool := (k.raising.isSome || f.stop.isSome) && !w.begun

/-- A pair has been emitted or done: progress of the walk's stream and the MSPR's (R373). -/
def pairMoved (k : Core) : Core :=
  (k.modStream .m fun x => { x with progress := true }).modStream .w fun x => { x with progress := true }

/-- The pairs of one step are presented, `places` of them at most (R282, R289); none while a preparation waits. With the last place
taken, the next round is only looked at: a walk that has none retires in this step (R283), and what the round may raise is left to the
step that prepares it. -/
def emission (c : Nat) : Nat → Nat → State → Option State
  | 0, _, s => some s
  | fuel + 1, places, s =>
    let k := coreAt s c
    match (k.stream .w).op, k.flow with
    | .walk w, some f =>
      if w.waiting || w.cfg.mode || emissionStops k f w then some s
      else match w.ready with
        | p :: _ =>
          let next (f : Flow) : Flow := { f with next := p.seq + 1 }
          if p.idx < (kget w.resume p.row).getD 0 then
            emission c fuel places (modCore s c fun k => passPair w w.begun { k with flow := some (next f) })
          else if places = 0 then some s
          else if p.skipped then
            emission c fuel (places - 1)
              (modCore s c fun k => passPair w true (countSkip (pairMoved { k with flow := some (next (f.count p.row)) })))
          else
            let r := f.present p
            let s1 := if r.full then modCore s c fun k => { k with sr := { k.sr with ovfcnt := k.sr.ovfcnt + 1 } } else s
            if r.emitted then
              emission c fuel (places - 1) (modCore s1 c fun k => passPair w true (pairMoved { k with flow := some (next r.flow) }))
            else some s1
        | [] =>
          if w.ended then
            some (modCore s c fun k => retireWalk w { k with flow := some { f with walkDone := true } })
          else if k.raising.isSome || f.stop.isSome then some s
          else match prepared w s with
            | .ok w1 s1 =>
              let first := match w1.ready with
                | p :: _ => { f with next := p.seq }
                | [] => f
              emission c fuel places (modCore s1 c fun k => setWalk w1 { k with flow := some first })
            | .error x s1 =>
              if places = 0 then some s
              else match x with
                | .exc e => some (raise s1 c .w e)
                | .mcheck kind pa => some (machineCheck s1 c kind pa)
                | _ => none
    | _, _ => some s

/-- The tile an MSPR accumulates into. -/
def sprTile (k : Core) : Option (BitVec 1) :=
  match (k.stream .m).op with
  | .mat o => match o.kind with
    | .spr z => if o.started then some z else none
    | _ => none
  | _ => none

/-- A drained flow that an uncorrectable operand stopped raises it (R382). -/
def flowStop (s : State) (c : Nat) : State :=
  match (coreAt s c).flow with
  | some f => match f.stop with
    | some e =>
      if f.drained && !midRound ((coreAt s c).stream .w).op then
        let calm (f : Flow) : Flow := { f with stop := none }
        raise (modCore s c fun k => { k with flow := k.flow.map calm }) c .m e
      else s
    | none => s
  | none => s

/-- The flow's core has the lease and its cluster the power token. A flow resumed after a trap asks for both again before its next step
(R186, R198, R290). -/
def flowHolds (s : State) (c : Nat) : Bool :=
  let x := clusterAt s (clusterOf c)
  (coreAt s c).wantLease.isNone && x.holder == some c && x.token

/-- A resumed flow that has its lease waits for its token (R291). -/
def flowAsks (s : State) (c : Nat) : State :=
  let x := clusterAt s (clusterOf c)
  if (coreAt s c).wantLease.isNone && x.holder == some c && !x.token then
    modCluster s (clusterOf c) fun l => { l with waitToken := true }
  else s

/-- FLOW_STEP: completion, start and emission (R280 to R282, R288). -/
def execFlowStep (s : State) : Out :=
  let c := s.cur.core.val
  let k := coreAt s c
  match k.flow, sprTile k with
  | some f, some z =>
    if k.stopped || (k.stream .m).run != .run || (f.walkDone && f.drained && f.stop.isNone) then .next s
    else if !flowHolds s c then .next (flowAsks s c)
    else
      let t := vget k.z z.toNat Tile.zero
      let d := f.completion
      let a := applyDone t.mode (exactCell t.mode t.pair) d.2 d.1 t
      let b := a.1.start
      let f1 := { b.1 with step := f.step + 1 }
      let s1 := modCore s c fun k =>
        let k1 := modTile z (fun _ => a.2) { k with
          flow := some f1, sr := { k.sr with lagcnt := k.sr.lagcnt + BitVec.ofNat 64 b.2 } }
        if d.1.isEmpty then k1 else pairMoved k1
      let s2 := noteFlaw s1 c (firstFlaw a.1 b.1)
      match emission c 16777216 128 s2 with
      | none => .next s
      | some s3 => .next (flowStop (tryTrap s3 c) c)
  | _, _ => .next s

/-- FLOW_END: the MSPR retires once every pair is done and applied (R283, R197). -/
def execFlowEnd (s : State) : Out :=
  let c := s.cur.core.val
  let k := coreAt s c
  match k.flow, (k.stream .m).op with
  | some f, .mat o =>
    if o.started && f.walkDone && f.drained && f.stop.isNone && !k.stopped && k.raising.isNone && (k.stream .m).run == .run
        && flowHolds s c then
      let end_ (x : Stream) : Stream := { x with op := .none, progress := true }
      .next (commandDone (modCore s c fun k =>
        (({ k with flow := none }.modStream .m end_).finish .m o.sync o.cc)) c)
    else .next s
  | _, _ => .next s

end Sys2Proof.Machine
end

