-- ==== Sys2Proof/Machine/Matrix.lean ====
section
/-! DEFINITION. The matrix stream (R185 to R204): lease and tile instructions, plane loading, dense streaming, convolution
and MSPR at issue. The drain is in `Drain.lean`. -/

namespace Sys2Proof.Machine

/-! MLEASE, MREL, MCFG, MZERO, MSWAP. -/

def setMat (o : MatOp) (k : Core) : Core := k.modStream .m fun x => { x with op := .mat o }

/-- An issued matrix instruction with nothing but its place. -/
def MatOp.blank (k : Core) (y : Sync) (kind : MatKind) : MatOp :=
  { kind := kind, desc := 0, p := 0, step := 0, ring := none, cc := none, seed := k.sr.seed, loc := (k.stream .m).here
    wordAddr := (k.stream .m).wordAddr, sync := y, started := true, landing := false, poisoned := false, fwd := none }

/-- MLEASE: it waits at issue for the array (R186). -/
def execMlease (y : Sync) (n1 : BitVec 4) (s : State) : Out :=
  runX .m (do
    let k ← me
    waitFor (k.popReady .m y)
    let c ← myNumber
    let s ← get
    require ((clusterAt s (clusterOf c)).holder != some c) .lease 0
    let o : MatOp := { MatOp.blank k y (.lease (n1.toNat + 1)) with started := false }
    modMe fun k => setMat o { k with wantLease := none, leaseLeft := 0 }) s

/-- MREL (R186). Where a run of commands saved by a trap or a pre-emption has not been asked for again yet, MREL and MLEASE drop it: R186
does not say what becomes of it then (DESIGN CHOICE, log 66). -/
def execMrel (y : Sync) (s : State) : Out :=
  engineNow .m y s (do
    let c ← myNumber
    modify fun s => giveUpLease s c
    modMe fun k => { k with wantLease := none, leaseLeft := 0 })

def accModeOf (b : BitVec 2) : AccMode :=
  match b.toNat with
  | 0 => .arrival
  | 1 => .canon
  | _ => .exact

/-- MCFG (R187, R89). -/
def execMcfg (y : Sync) (f : McfgF) (s : State) : Out :=
  engineNow .m y s (do
    let k ← me
    let a := Tag.ofCode f.atag.toNat
    let b := Tag.ofCode f.btag.toNat
    require (matrixOperand a) .tag 0
    require (matrixOperand b) .tag 0
    require (pairKind a b).isSome .fmtpair 0
    require (f.mode != 0 || !k.sr.verify) .verify 0
    modMe (modTile f.z fun t => { t with tag := a, btag := b, mode := accModeOf f.mode, anchor := f.anchor }))

/-- MZERO: 64 cycles, then every cell is clear (R188, R203). -/
def execMzero (y : Sync) (z : BitVec 1) (s : State) : Out :=
  engineIssue .m y s (modMe fun k => setMat (MatOp.blank k y (.zero z 64)) k)

/-- MZERO_COMPLETE (R188). -/
def execMzeroComplete (s : State) : Out :=
  let c := s.cur.core.val
  let k := coreAt s c
  match (k.stream .m).op with
  | .mat o => match o.kind with
    | .zero z left =>
      if left = 0 && !k.stopped && k.raising.isNone && (k.stream .m).run == .run then
        let end_ (x : Stream) : Stream := { x with op := .none, progress := true }
        .next (modCore s c fun k => ((modTile z (fun t => { t with cells := [] }) k).modStream .m end_).retire .m o.sync)
      else .next s
    | _ => .next s
  | _ => .next s

/-- The cycle counts of an MZERO under way (R203). -/
def tickZero (k : Core) : Core :=
  k.modStream .m fun x => match x.op with
    | .mat o => match o.kind with
      | .zero z left => { x with op := .mat { o with kind := .zero z (left - 1) } }
      | _ => x
    | _ => x

/-- MSWAP, once no MLDS runs (R185, R191). -/
def execMswap (y : Sync) (s : State) : Out :=
  engineNow .m y s (do
    let k ← me
    waitFor k.planeLoad.isNone
    let a := vget k.w 0 Plane.zero
    let b := vget k.w 1 Plane.zero
    modMe fun k => { k with w := vset (vset k.w 0 b) 1 a })

/-! Rows in memory (R90, R189, R192, R195). -/

/-- An element as read, with its scale and the flaw of its granules. -/
structure RElem where
  bits : Nat
  scale : Scale
  flaw : Option Flaw
deriving DecidableEq, Repr

/-- Zero bits in place of an element outside its row; a padded MX block has scale byte 0x7F, a padded QN4 block code 0
(R195). -/
def RElem.zero (t : Tag) : RElem := ⟨0, ⟨if t.isMx then 127 else 0, 0⟩, none⟩

/-- The byte ranges, from the row's start, that hold an element and its scales. -/
structure ElemSpans where
  elem : Int × Nat
  shift : Nat
  scale : Option Nat
  super : Option Nat
deriving DecidableEq, Repr

def elemSpans (t : TileD) (n : Nat) : ElemSpans :=
  let p := elemPlace t t.tag n
  let sp := scalePlace t t.tag n
  { elem := (p.1, elemBytes t.tag p.2), shift := p.2, scale := if t.tag.isScaled then some sp.1 else none
    super := if t.tag = .qn4 then some sp.2 else none }

/-- The accesses of an element, as offsets from its row's start. -/
def ElemSpans.list (x : ElemSpans) : List (Int × Nat) :=
  x.elem :: ((x.scale.map fun b => ((b : Int), 1)).toList ++ (x.super.map fun b => ((b : Int), 4)).toList)

/-- An element from the bytes of its accesses. -/
def ElemSpans.build (x : ElemSpans) (t : TileD) (bs : List (List (Byte × Option Flaw))) : RElem :=
  let here := bs.getD 0 []
  let code := if x.scale.isSome then bs.getD 1 [] else []
  let sup := if x.super.isSome then bs.getD 2 [] else []
  let flaw := (here ++ code ++ sup).findSome? (·.2)
  if flaw.isSome then ⟨0, ⟨if t.tag.isMx then 127 else 0, 0⟩, flaw⟩
  else ⟨elemBits t.tag x.shift (here.map (·.1)), ⟨leValue (code.map (·.1)), leValue (sup.map (·.1))⟩, none⟩

/-- How the bytes of a row are reached: rows at an address, ring offsets, or a remote window. -/
structure RowPlace where
  at_ : Dword
  ring : Option RingRef
  off : Int
deriving DecidableEq, Repr

/-- The place of source row `i`, `s` bytes apart (R189, R150). -/
def rowPlace (t : TileD) (ring : Option RingRef) (s : Int) (i : Nat) : RowPlace := ⟨addrAt t.base (i * s), ring, i * s⟩

/-- The step between rows: STEP, or STRIDE1 when STEP is 0 (R189). -/
def rowStepOf (t : TileD) (step : BitVec 32) : Int := if step = 0 then t.s1 else step.toInt

/-- Reads of one instruction that may be outstanding (R296). -/
def readsAhead : Nat := 32

/-- The remote operands of a unit, whose accesses come first in the list, and of the units after it: missing 16-byte units are read ahead
in unit order as far as outstanding reads allow, one read for each run of them, and the unit waits for its own (R296). Answers what is
read ahead for the later units. -/
def remoteNeed (rows : List (List (Dword × Nat))) : X (List Dword) := do
  let own := unitsOfAll (rows.headD [])
  let later := (rows.drop 1).map unitsOfAll
  takeRfault .m own
  (own :: later).forM (askUnits .m readsAhead)
  let k ← me
  if own.any fun u => (collected k .m u).isNone then throw .hold
  pure later.flatten

/-- One access of a row: raising on an uncorrectable granule where `hard` is set, else marking it (R382). -/
def rowAccess (r : RowPlace) (hard : Bool) (e : Int × Nat) : X (List (Byte × Option Flaw)) := do
  let c ← myNumber
  match r.ring with
  | some g =>
    let pas := g.bytes (r.off + e.1).toNat e.2
    if hard then do
      let xs ← ringLoad c pas
      pure (xs.map fun x => (x, none))
    else do
      let s ← get
      match pas.find? fun pa => !usable pa with
      | some pa => fail .buserr (BitVec.ofNat 64 pa)
      | none => pure (pas.map fun pa =>
          (memGet s.mem pa, if flawed s pa then some (BitVec.ofNat 64 (granuleOf pa), granuleOf pa) else none))
  | none =>
    let a := addrAt r.at_ e.1
    if isWindow a then do
      let xs ← engineLoad .m a e.2
      pure (xs.map fun x => (x, none))
    else if hard then do
      let xs ← memLoad c a e.2
      pure (xs.map fun x => (x, none))
    else memLoadMarked c a e.2

def rowAccesses (r : RowPlace) (hard : Bool) : List (Int × Nat) → X (List (List (Byte × Option Flaw)))
  | [] => pure []
  | e :: rest => do
    let x ← rowAccess r hard e
    let xs ← rowAccesses r hard rest
    pure (x :: xs)

/-- Elements of a row by their numbers; none stands for zero bits. -/
def rowElems (t : TileD) (r : RowPlace) (hard : Bool) : List (Option Nat) → X (List RElem)
  | [] => pure []
  | none :: rest => do
    let xs ← rowElems t r hard rest
    pure (RElem.zero t.tag :: xs)
  | some n :: rest => do
    let sp := elemSpans t n
    let bs ← rowAccesses r hard sp.list
    let xs ← rowElems t r hard rest
    pure (sp.build t bs :: xs)

/-- The elements `first` to `first + n - 1` of a row, those beyond DIM0 absent. -/
def rowRange (t : TileD) (first n : Nat) : List (Option Nat) :=
  (List.range n).map fun k => if first + k < t.dim0 then some (first + k) else none

/-- The remote accesses of elements of a row. -/
def remoteList (t : TileD) (r : RowPlace) (l : List (Option Nat)) : List (Dword × Nat) :=
  if r.ring.isNone && isWindow r.at_ then
    l.flatMap fun e => match e with
      | none => []
      | some n => (elemSpans t n).list.map fun a => (addrAt r.at_ a.1, a.2)
  else []

/-- A row's elements, remote ones once they have all arrived; `rest` are the rows that come after it. Units read for later rows stay
collected. -/
def loadRow (t : TileD) (r : RowPlace) (hard : Bool) (l : List (Option Nat)) (rest : List RowPlace) : X (List RElem) := do
  let ahead ← remoteNeed ((r :: rest).map fun r => remoteList t r l)
  let xs ← rowElems t r hard l
  dropCollected .m ahead
  pure xs

/-- The units after unit `u` of `n` that are read ahead. -/
def unitsAhead (u n : Nat) : List Nat := (List.range (min readsAhead (n - u - 1))).map (u + 1 + ·)

/-- The range check of R150 at issue over every byte that rows `first` to `first + count - 1` access. -/
def ringRows (t : TileD) (ring : Option RingRef) (s : Int) (first count : Nat) (l : List (Option Nat)) : X Unit :=
  match ring with
  | none => pure ()
  | some g =>
    let spans := l.flatMap fun e => match e with
      | none => []
      | some n => (elemSpans t n).list
    let ok (i : Nat) : Bool := spans.all fun e => g.holds (i * s + e.1) e.2
    require (count = 0 || (ok first && ok (first + count - 1))) .cbuf 0

/-- kofs starts a block of a scaled tag (R190). -/
def kofsOk (t : Tag) (k : Nat) : Bool := if t.isMx then k % 32 == 0 else if t = .qn4 then k % 64 == 0 else true

/-! Planes (R189, R190). -/

/-- Elements a plane column takes from its row. -/
def planeDepth (t : Tag) : Nat := if isNarrow t || isInt4 t then 256 else if t = .int1 then 1024 else 128

/-- A column of a plane and, for FP32, of the other one. -/
def planeEntries (t : Tag) (xs : List RElem) : List Nat × List Nat :=
  let bs := xs.map (·.bits)
  let w := t.width
  if isNarrow t || isInt4 t then ((List.range 128).map fun e => bs.getD (2 * e) 0 + 2 ^ w * bs.getD (2 * e + 1) 0, [])
  else if t = .int1 then ((List.range 128).map fun e => packFrom 1 ((bs.drop (8 * e)).take 8), [])
  else if t = .mxInt8 then (bs, [])
  else if t = .fp32 then (bs.map splitHi, bs.map splitLo)
  else (xs.map fun x => expandE8m10 t x.bits x.scale, [])

/-- Entries of column `j` put into a plane; a zero entry is not listed. -/
def putColumn (j : Nat) (p : Plane) (xs : List Nat) : Plane :=
  { p with entries := (List.range xs.length).foldl (fun l k =>
      let x := BitVec.ofNat 19 (xs.getD k 0)
      if x = 0 then kdel l (256 * k + j) else kset l (256 * k + j) x) p.entries }

/-- The scale bytes of an MXINT8 column. -/
def putSide (j : Nat) (p : Plane) (xs : List RElem) : Plane :=
  { p with side := (List.range 4).foldl (fun l b =>
      kset l (4 * j + b) (BitVec.ofNat 8 ((xs.getD (32 * b) (RElem.zero .mxInt8)).scale.x))) p.side }

def modPlane (i : Nat) (f : Plane → Plane) (k : Core) : Core := { k with w := vmod k.w i f }

/-- Column `j` loaded (R190). -/
def loadColumn (pln : BitVec 1) (t : Tag) (j : Nat) (xs : List RElem) (k : Core) : Core :=
  let e := planeEntries t xs
  let k1 := modPlane pln.toNat (fun p => putColumn j p e.1) k
  let k2 := if t = .mxInt8 then modPlane pln.toNat (fun p => putSide j p xs) k1 else k1
  if t = .fp32 then modPlane 1 (fun p => putColumn j p e.2) k2 else k2

/-- MLDS at issue (R185, R189, R190): the plane is cleared and the plane-load unit takes over. R190 lists the faults of TAG and of DESC
without an order between them: TAG is looked at first, then KIND, then kofs (DESIGN CHOICE, log 66). -/
def mldsIssue (y : Sync) (f : MldsF) (x : X LongOpts) (s : State) : Out :=
  runX .m (do
    let k ← me
    waitFor (k.popReady .m y)
    waitFor k.planeLoad.isNone
    let o ← x
    let d := k.readD f.ds
    let t ← descCheck d
    require (matrixOperand t.tag) .tag 0
    require (t.tag != .fp32 || f.pln == 0) .tag 0
    kindCheck t (t.kind == 0)
    let p := k.readP .m f.p
    let kofs := bits p.toNat 32 32
    kindCheck t (kofsOk t.tag kofs)
    let st := rowStepOf t o.step
    ringRows t o.ring st (bits p.toNat 0 32) f.ncol.toNat (rowRange t kofs (planeDepth t.tag))
    let load : PlaneLoad := { pln := f.pln, desc := d, p := p, ncol := f.ncol.toNat, step := o.step, ring := o.ring, cc := o.cc
                              loc := (k.stream .m).here, wordAddr := (k.stream .m).wordAddr, sync := y, mpc := 0, status := 0
                              other := (k.stream .m).seqOf (!(k.stream .m).here.side) }
    let fresh (_ : Plane) : Plane := ⟨t.tag, [], []⟩
    modMe fun k =>
      let k1 := modPlane f.pln.toNat fresh (((k.takePop .m y).modStream .m (·.step s.cur.len)).ccUp o.cc)
      let k2 := if t.tag = .fp32 then modPlane 1 fresh k1 else k1
      { k2 with planeLoad := some load }) s

/-- The options of a two-word MLDS or MDRN: STEP 0 (R189, R199). -/
def rowOpts : LongOpts := ⟨0, none, none⟩

def execMlds (y : Sync) (f : MldsF) (s : State) : Out := mldsIssue y f (pure rowOpts) s
def execMldsLong (y : Sync) (f : MldsF) (x : LongF) (s : State) : Out := mldsIssue y f (longTake x false) s

/-- The plane-load unit has loaded its last column (R185). -/
def endLoad (p : PlaneLoad) (k : Core) : Core := { k with planeLoad := none }.finish .m p.sync p.cc

/-- The load with the cause of its own fault, where the frame has a plane-load record (R38). -/
def noteLoad (k : Core) (e : Exc) : Core :=
  let note (p : PlaneLoad) : PlaneLoad := { p with status := e.code }
  if k.planeRecord.isSome then { k with planeLoad := k.planeLoad.map note } else k

/-- MLDS_COLUMN (R190, R201). -/
def execMldsColumn (s : State) : Out :=
  let c := s.cur.core.val
  let k := coreAt s c
  match k.planeLoad with
  | none => .next s
  | some p =>
    if k.stopped || k.raising.isSome || (k.stream .m).run != .run then .next s
    else if p.ncol ≤ p.mpc then .next (modCore s c (endLoad p))
    else
      let t := tileD p.desc
      let row (u : Nat) : RowPlace := rowPlace t p.ring (rowStepOf t p.step) (bits p.p.toNat 0 32 + u)
      match loadRow t (row p.mpc) true (rowRange t (bits p.p.toNat 32 32) (planeDepth t.tag)) ((unitsAhead p.mpc p.ncol).map row) s with
      | .ok xs s1 =>
        let p1 : PlaneLoad := { p with mpc := p.mpc + 1 }
        .next (modCore s1 c fun k =>
          let k1 := loadColumn p.pln t.tag p.mpc xs { k with planeLoad := some p1 }
          let k2 := k1.modStream .m fun x => { x with progress := true }
          if p.ncol ≤ p1.mpc then endLoad p1 k2 else k2)
      | .error (.exc e) s1 => .next (raise (modCore s1 c fun k => noteLoad k e) c .m e)
      | .error (.mcheck kind pa) s1 => .next (machineCheck s1 c kind pa)
      | .error .hold s1 => .next s1
      | .error .wait _ => .next s

/-! Dense streaming (R192, R193) and convolution (R194, R195). -/

/-- An MLDS is loading a plane that the instruction names (R185). -/
def planeBusy (k : Core) (both : Bool) : Bool :=
  match k.planeLoad with
  | none => false
  | some p => p.pln == 0 || both || (tileD p.desc).tag == .fp32

/-- The checks of a dense command at issue (R89, R190, R192, R193, R202). -/
def denseChecks (k : Core) (z : BitVec 1) (t : TileD) : X Unit := do
  let tl := vget k.z z.toNat Tile.zero
  let w0 := vget k.w 0 Plane.zero
  require (tl.tag != .invalid) .tag 0
  require (tl.mode != .arrival || !k.sr.verify) .verify 0
  require (t.tag == tl.tag && w0.tag == tl.btag) .tag 0
  require (tl.pair != .fp32 || (vget k.w 1 Plane.zero).tag == .fp32) .tag 0
  kindCheck t (t.kind == 0)

/-- Products of K positions per step (R193). -/
def stepDepth (p : PairKind) : Nat :=
  match p with
  | .narrow | .int4 => 256
  | .bit => 1024
  | _ => 128

/-- Row steps a command lasts, for the power token (R203). -/
def lasts (p : PairKind) (n : Nat) : Nat := if p = .fp32 then 3 * n else n

/-- The issue waits that dense commands share (R185, R186, R203). -/
def denseWaits (z : BitVec 1) (n : Nat) : X Unit := do
  let k ← me
  let tl := vget k.z z.toNat Tile.zero
  waitFor (!planeBusy k (tl.pair == .fp32 && tl.tag == .fp32))
  needLease
  needToken (lasts tl.pair n)

/-- MSTR (R192). -/
def execMstr (y : Sync) (f : MstrF) (x : LongF) (s : State) : Out :=
  engineIssue .m y s (do
    let o ← longTake x false
    denseWaits f.z f.nrow.toNat
    let k ← me
    let d := k.readD f.da
    let t ← descCheck d
    denseChecks k f.z t
    let p := k.readP .m f.p
    let kofs := bits p.toNat 32 32
    kindCheck t (kofsOk t.tag kofs)
    let tl := vget k.z f.z.toNat Tile.zero
    ringRows t o.ring (rowStepOf t o.step) (bits p.toNat 0 32) f.nrow.toNat (rowRange t kofs (stepDepth tl.pair))
    modMe fun k => setMat { MatOp.blank k y (.str f.z f.zrow.toNat f.nrow.toNat) with
      desc := d, p := p, step := o.step, ring := o.ring, cc := o.cc } (k.ccUp o.cc))

/-- The products a convolution step needs (R195). -/
def convDepth (f : MconvF) : Nat := (f.kh1.toNat + 1) * (f.kw1.toNat + 1) * f.ch.toNat

/-- MCONV (R194, R195). -/
def execMconv (y : Sync) (f : MconvF) (s : State) : Out :=
  engineIssue .m y s (do
    let cc ← ccTake f.ccen f.ccn
    denseWaits f.z f.npix.toNat
    let k ← me
    let d := k.readD f.da
    let t ← descCheck d
    denseChecks k f.z t
    let tl := vget k.z f.z.toNat Tile.zero
    kindCheck t (convDepth f ≤ stepDepth tl.pair && kofsOk t.tag f.ch.toNat)
    modMe fun k => setMat { MatOp.blank k y (.conv f) with desc := d, p := k.readP .m f.p, cc := cc } (k.ccUp cc))

/-- MSPR: with the lease and a power token it waits at issue for a walk, and meets one that waits for it (R176, R196). -/
def execMspr (y : Sync) (f : MsprF) (s : State) : Out :=
  let cc := if f.ccen then some f.ccn else none
  runX .m (do
    let k ← me
    waitFor (k.popReady .m y && k.ccRoom cc)
    needLease
    needToken 65
    let o : MatOp := { MatOp.blank k y (.spr f.z) with started := false, cc := cc }
    modMe (setMat o)
    let c ← myNumber
    modify fun s => meet s c) s

/-! Row steps (R193, R195). -/

/-- Plane entry (k, j). -/
def Plane.entry (p : Plane) (k j : Nat) : Nat := ((kget p.entries (256 * k + j)).getD 0).toNat

/-- Element `k` of plane column `j` as a value (R190). -/
def Plane.val (p : Plane) (k j : Nat) : Val :=
  let w := p.tag.width
  if isNarrow p.tag || isInt4 p.tag then p.tag.val (bits (p.entry (k / 2) j) (w * (k % 2)) w)
  else e8Val (p.entry k j)

/-- Element `k` of an A row as a value. -/
def aVal (t : Tag) (xs : List RElem) (k : Nat) : Val :=
  let x := xs.getD k (RElem.zero t)
  e8Val (expandE8m10 t x.bits x.scale)

/-- Sum of adjacent pairs, exactly (R193, N × N). -/
def pairSums : List Val → List Val
  | a :: b :: rest => a.add b :: pairSums rest
  | xs => xs

/-- The addends of one row step for column `j`: three for FP32, else one (R193). -/
def stepAddends (t : Tile) (w0 w1 : Plane) (xs : List RElem) (j : Nat) : List Val :=
  let exact := exactCell t.mode t.pair
  let prods (n : Nat) (a : Nat → Val) (w : Plane) : List Val := (List.range n).map fun k => (a k).mul (w.val k j)
  match t.pair with
  | .fp32 =>
    let hi (k : Nat) : Val := e8Val (splitHi (xs.getD k (RElem.zero .fp32)).bits)
    let lo (k : Nat) : Val := e8Val (splitLo (xs.getD k (RElem.zero .fp32)).bits)
    [treeSum exact 7 (prods 128 hi w0), treeSum exact 7 (prods 128 hi w1), treeSum exact 7 (prods 128 lo w0)]
  | .narrow => [treeSum exact 7 (pairSums (prods 256 (aVal t.tag xs) w0))]
  | .int4 => [(prods 256 (fun k => t.tag.val (xs.getD k (RElem.zero t.tag)).bits) w0).foldl Val.add Val.zero]
  | .int => [(prods 128 (fun k => t.tag.val (xs.getD k (RElem.zero t.tag)).bits) w0).foldl Val.add Val.zero]
  | .bit =>
    let diff := ((List.range 1024).filter fun k => (xs.getD k (RElem.zero .int1)).bits != bits (w0.entry (k / 8) j) (k % 8) 1).length
    [Val.ofInt (1024 - 2 * (diff : Int))]
  | .mxint8 =>
    let block (b : Nat) : Val := mxBlock exact ((List.range 32).map fun i => (xs.getD (32 * b + i) (RElem.zero .mxInt8)).bits)
      ((List.range 32).map fun i => w0.entry (32 * b + i) j) (xs.getD (32 * b) (RElem.zero .mxInt8)).scale.x
      ((kget w0.side (4 * j + b)).getD 0).toNat
    [treeSum exact 2 [block 0, block 1, block 2, block 3]]
  | .float => [treeSum exact 7 (prods 128 (aVal t.tag xs) w0)]

/-- A row step on tile row `row`: every one of its 256 cells takes its addends (R193). -/
def denseStep (w0 w1 : Plane) (row : Nat) (xs : List RElem) (t : Tile) : Tile :=
  let poison := xs.any fun x => x.flaw.isSome
  (List.range 256).foldl (fun t j =>
    (stepAddends t w0 w1 xs j).foldl (fun t v => t.addTo (256 * row + j) poison v) t) t

/-- The elements of output pixel `n`: the image row and element of each position (R195). -/
def pixelElems (f : MconvF) (t : TileD) (n : Nat) : List (Option (Nat × Nat)) :=
  let oy : Int := n / f.ow.toNat
  let ox : Int := n % f.ow.toNat
  let ch := f.ch.toNat
  (List.range (f.kh1.toNat + 1)).flatMap fun (ky : Nat) => (List.range (f.kw1.toNat + 1)).flatMap fun (kx : Nat) =>
    (List.range ch).map fun (c : Nat) =>
      let yy := oy * (f.sy1.toNat + 1) - f.py.toNat + ky
      let xx := ox * (f.sx1.toNat + 1) - f.px.toNat + kx
      if 0 ≤ yy && yy < t.dim1 && 0 ≤ xx && xx * ch + c < t.dim0 then some (yy.toNat, (xx.toNat * ch + c : Nat)) else none

/-- The elements of a pixel, row by row as they come. -/
def pixelRead (t : TileD) : List (Option (Nat × Nat)) → X (List RElem)
  | [] => pure []
  | none :: rest => do
    let xs ← pixelRead t rest
    pure (RElem.zero t.tag :: xs)
  | some (y, n) :: rest => do
    let x ← rowElems t (rowPlace t none t.s1 y) false [some n]
    let xs ← pixelRead t rest
    pure (x ++ xs)

/-- The remote accesses of a pixel. -/
def pixelRemote (t : TileD) (l : List (Option (Nat × Nat))) : List (Dword × Nat) :=
  l.flatMap fun e => match e with
    | none => []
    | some (y, n) => remoteList t (rowPlace t none t.s1 y) [some n]

/-- What a dense command reads in step `u`, its tile and its tile row. -/
def stepElems (o : MatOp) (k : Core) (u : Nat) : X (BitVec 1 × Nat × List RElem) := do
  let t := tileD o.desc
  match o.kind with
  | .str z zrow n => do
    let depth := stepDepth (vget k.z z.toNat Tile.zero).pair
    let row (u : Nat) : RowPlace := rowPlace t o.ring (rowStepOf t o.step) (bits o.p.toNat 0 32 + u)
    let xs ← loadRow t (row u) false (rowRange t (bits o.p.toNat 32 32) depth) ((unitsAhead u n).map row)
    pure (z, zrow + u, xs)
  | .conv f => do
    let pixel (u : Nat) : List (Option (Nat × Nat)) := pixelElems f t (bits o.p.toNat 0 32 + u)
    let ahead ← remoteNeed ((u :: unitsAhead u f.npix.toNat).map fun u => pixelRemote t (pixel u))
    let xs ← pixelRead t (pixel u)
    dropCollected .m ahead
    pure (f.z, f.zrow.toNat + u, xs)
  | _ => throw .wait

/-- Row steps or pixels of a dense command. -/
def denseCount : MatKind → Option Nat
  | .str _ _ n => some n
  | .conv f => some f.npix.toNat
  | _ => none

/-- An uncorrectable element: the step is complete, the flag is the frame's, and then it is raised (R382). -/
def poisonStop (s : State) (c : Nat) (o : MatOp) (x : Option Flaw) : State :=
  match x with
  | none => s
  | some (va, pa) =>
    let s1 := uncorrRecord (modCore s c (setMat { o with poisoned := true })) pa va.toNat (some c)
    raise s1 c .m ⟨.uncorr, 0, va, 0⟩

/-- A dense command works: started, not stopped, with steps left. -/
def denseWorks (k : Core) : Option (MatOp × Nat) :=
  match (k.stream .m).op with
  | .mat o => match denseCount o.kind with
    | some n => if k.stopped || k.raising.isSome || (k.stream .m).run != .run then none else some (o, n)
    | none => none
  | _ => none

/-- ROW_STEP (R193, R201, R382). -/
def execRowStep (s : State) : Out :=
  let c := s.cur.core.val
  let k := coreAt s c
  match denseWorks k with
  | none => .next s
  | some (o, n) =>
    let u := (k.stream .m).mpc.toNat
    if n ≤ u then .next s
    else
      let go : X (Option Flaw) := do
        let r ← stepElems o k u
        modMe fun k => modTile r.1 (denseStep (vget k.w 0 Plane.zero) (vget k.w 1 Plane.zero) r.2.1 r.2.2) k
        modMe fun k => k.modStream .m fun x => { x with mpc := x.mpc + 1, progress := true }
        pure (r.2.2.findSome? fun x => x.flaw)
      match go s with
      | .ok x s1 => .next (poisonStop s1 c o x)
      | .error (.exc e) s1 => .next (raise s1 c .m e)
      | .error (.mcheck kind pa) s1 => .next (machineCheck s1 c kind pa)
      | .error .hold s1 => .next s1
      | .error .wait _ => .next s

/-- ARRAY_COMMAND_COMPLETE for a dense command (R185, R186, R203). -/
def execArrayCommandComplete (s : State) : Out :=
  let c := s.cur.core.val
  let k := coreAt s c
  match denseWorks k with
  | none => .next s
  | some (o, n) =>
    if n ≤ (k.stream .m).mpc.toNat then
      let end_ (x : Stream) : Stream := { x with op := .none, progress := true }
      .next (commandDone (modCore s c fun k => (k.modStream .m end_).finish .m o.sync o.cc) c)
    else .next s

end Sys2Proof.Machine
end

