-- ==== Sys2Proof/Machine/Drain.lean ====
section
/-! DEFINITION. MDRN (R199, R200): its issue, the conversion and writing of one tile row, and the landing of its writes. -/

namespace Sys2Proof.Machine

/-- The destination tags of MDRN (R199). -/
def drainTag : Tag → Bool
  | .fp32 | .fp16 | .bf16 | .e4m3 | .e5m2 | .e3m2 | .e2m3 | .e2m1 | .int8 | .uint8 | .int4 | .uint4 | .int32 | .int64
  | .e8m10 => true
  | _ => false

/-- Columns drained: W of R200. -/
def drainCols (t : TileD) (c0 : Nat) : Nat := if t.dim0 ≤ c0 then 0 else min 256 (t.dim0 - c0)

/-- The writes of a row as offsets from its start: each container, or for widths below 8 bits the bytes of the range. -/
def drainSpans (t : TileD) (c0 : Nat) : List (Int × Nat) :=
  let w := drainCols t c0
  if w = 0 then []
  else if 8 ≤ t.tag.width then (List.range w).map fun j => (((c0 + j : Nat) : Int) * t.s0, t.tag.width / 8)
  else [((c0 * t.tag.width / 8 : Nat), w * t.tag.width / 8)]

/-- The written range of a packed row starts and ends on byte boundaries, for FP6 on 3-byte groups (R200). -/
def drainAligned (t : TileD) (c0 : Nat) : Bool :=
  let unit := if t.tag.width = 6 then 24 else 8
  8 ≤ t.tag.width || (c0 * t.tag.width % unit == 0 && drainCols t c0 * t.tag.width % unit == 0)

/-- The range check of R150 at issue over every byte the drain writes. -/
def drainRing (t : TileD) (ring : Option RingRef) (s : Int) (first count c0 : Nat) : X Unit :=
  match ring with
  | none => pure ()
  | some g =>
    let ok (i : Nat) : Bool := (drainSpans t c0).all fun e => g.holds (i * s + e.1) e.2
    require (count = 0 || (ok first && ok (first + count - 1))) .cbuf 0

/-- MDRN at issue (R199). -/
def mdrnIssue (y : Sync) (f : MdrnF) (x : X LongOpts) (long : Bool) (s : State) : Out :=
  engineIssue .m y s (do
    let o ← x
    let k ← me
    let d := k.readD f.ds
    let t ← descCheck d
    require (drainTag t.tag) .tag 0
    require ((vget k.z f.z.toNat Tile.zero).tag != .invalid) .tag 0
    kindCheck t (t.kind == 0)
    localCheck t
    let p := k.readP .m f.p
    drainRing t o.ring (rowStepOf t o.step) (bits p.toNat 0 32) f.nrow.toNat (bits p.toNat 32 32)
    let fwd ← if long then openGeneration (k.stream .m).here t.tag else pure none
    modMe fun k => setMat { MatOp.blank k y (.drn f.z f.zrow.toNat f.nrow.toNat f.rnd) with
      desc := d, p := p, step := o.step, ring := o.ring, cc := o.cc, fwd := fwd } (k.ccUp o.cc))

def execMdrn (y : Sync) (f : MdrnF) (s : State) : Out := mdrnIssue y f (pure rowOpts) false s
def execMdrnLong (y : Sync) (f : MdrnF) (x : LongF) (s : State) : Out := mdrnIssue y f (longTake x true) true s

/-- Cell (row, j) converted (R88, R200): the bits, and whether it saturated. -/
def drainCell (o : MatOp) (t : TileD) (tl : Tile) (rnd : BitVec 2) (row j : Nat) : Nat × Bool :=
  let i := 256 * row + j
  let r : Rounding := ⟨Rnd.ofCode rnd, o.seed, drawIndex .m o.loc.seq⟩
  roundTag t.tag r.mode (r.draw i) true (drainVal tl.mode tl.pair tl.anchor (tl.cell i))

/-- The bytes of a converted row in the order of its writes (R90). -/
def drainBytes (t : TileD) (xs : List Nat) : List Byte := leBytes (xs.length * t.tag.width / 8) (packFrom t.tag.width xs)

/-- Where the row's byte at offset `off` goes, as an address for FADDR. -/
def drainAddr (r : RowPlace) (off : Int) : Dword :=
  match r.ring with
  | some g => BitVec.ofNat 64 (g.addr (r.off + off).toNat)
  | none => addrAt r.at_ off

/-- Every write of the row checked before any is made. -/
def drainCheck (r : RowPlace) : List (Int × Nat) → X (List (List Piece))
  | [] => pure []
  | e :: rest => do
    let c ← myNumber
    let ps ← check c .write (addrAt r.at_ e.1) e.2
    let more ← drainCheck r rest
    pure (ps :: more)

def drainStore : List (List Piece) → List (List Byte) → X Unit
  | ps :: rest, xs :: more => do
    let c ← myNumber
    putPieces c ps xs
    drainStore rest more
  | _, _ => pure ()

/-- Each write of the row with its bytes. -/
def drainWrites : List (Int × Nat) → List Byte → List ((Int × Nat) × List Byte)
  | [], _ => []
  | e :: es, xs => (e, xs.take e.2) :: drainWrites es (xs.drop e.2)

/-- The row's bytes written in ascending address, to memory or to the ring (R200, R274). -/
def drainWrite (r : RowPlace) (spans : List (Int × Nat)) (xs : List Byte) (elide : Bool) : X Unit :=
  let ws := (drainWrites spans xs).mergeSort fun a b => a.1.1 ≤ b.1.1
  match r.ring with
  | some g => do
    let pas := ws.flatMap fun e => g.bytes (r.off + e.1.1).toNat e.1.2
    if elide then ringCheck pas else ringStore pas (ws.flatMap (·.2))
  | none => do
    let ps ← drainCheck r (ws.map (·.1))
    drainStore ps (ws.map (·.2))

/-- One row of an MDRN (R200). -/
def drainRow (o : MatOp) (z : BitVec 1) (zrow : Nat) (rnd : BitVec 2) (u : Nat) : X Unit := do
  let k ← me
  let t := tileD o.desc
  let tl := vget k.z z.toNat Tile.zero
  let c0 := bits o.p.toNat 32 32
  let r := rowPlace t o.ring (rowStepOf t o.step) (bits o.p.toNat 0 32 + u)
  let row := zrow + u
  match (List.range 256).find? fun j => (tl.cell (256 * row + j)).poi with
  | some j => fail .poison (drainAddr r (elemPlace t t.tag (c0 + j)).1)
  | none => pure ()
  require (drainAligned t c0) .align (drainAddr r 0)
  let xs := (List.range (drainCols t c0)).map (drainCell o t tl rnd row)
  let bytes := drainBytes t (xs.map (·.1))
  let spans := drainSpans t c0
  drainWrite r spans bytes (o.fwd.isSome && transient k)
  match o.fwd with
  | some i =>
    let first := (spans.head?.map (·.1)).getD 0
    let packed := t.tag.width < 8 || t.s0 * 8 == t.tag.width
    forwardUnit i o.loc.seq ((r.ring.map fun g => g.addr (r.off + first).toNat).getD 0) (segOf bytes)
      (packed && wholeSegment t.tag bytes.length)
  | none => pure ()
  let sat := xs.any (·.2)
  modMe fun k => { k with sr := { k.sr with sat := k.sr.sat || sat } }

/-- MDRN_ROW (R200): a row, or the end of the rows. -/
def execMdrnRow (s : State) : Out :=
  let c := s.cur.core.val
  let k := coreAt s c
  match (k.stream .m).op with
  | .mat o => match o.kind with
    | .drn z zrow n rnd =>
      let u := (k.stream .m).mpc.toNat
      if o.landing || k.stopped || k.raising.isSome || (k.stream .m).run != .run then .next s
      else if n ≤ u then .next (modCore s c (setMat { o with landing := true }))
      else runX .m (do
        drainRow o z zrow rnd u
        modMe fun k => k.modStream .m fun x => { x with mpc := x.mpc + 1, progress := true }
        modMe fun k => if n ≤ u + 1 then setMat { o with landing := true } k else k) s
    | _ => .next s
  | _ => .next s

/-- MDRN_WRITES_LANDED (R200). -/
def execMdrnWritesLanded (s : State) : Out :=
  let c := s.cur.core.val
  match ((coreAt s c).stream .m).op with
  | .mat o =>
    if o.landing && storesLanded s c && !remoteWritesOut s c .m then
      let done (x : Stream) : Stream := { x with op := .none, progress := true }
      .next (tryTrap (modCore s c fun k => (k.modStream .m done).finish .m o.sync o.cc) c)
    else .next s
  | _ => .next s

end Sys2Proof.Machine
end

