-- ==== Sys2Proof/Machine/Stage.lean ====
section
/-! DEFINITION. Stages, their queues, the door of a region and the moves of cores between stages (R330 to R336, R343 to R346,
R350). -/

namespace Sys2Proof.Machine

/-- The die-0 count, by which all scheduling is timed (R333). -/
def now0 (s : State) : Dword := (dieAt s 0).cyc

/-! Stage records (R330). -/

def stageRec (r : Region) (i : Nat) : Nat := r.stagesAt + 64 * i
def stageQbase (s : State) (r : Region) (i : Nat) : Nat := (physDword s (stageRec r i + 16)).toNat
def stageQcap (s : State) (r : Region) (i : Nat) : Nat := leValue (physRead s (stageRec r i + 24) 4)
def stageScmax (s : State) (r : Region) (i : Nat) : Nat := leValue (physRead s (stageRec r i + 28) 2)
def stageSteal (s : State) (r : Region) (i : Nat) : Bool := bit (leValue (physRead s (stageRec r i + 30) 2)) 0
def stageStealthr (s : State) (r : Region) (i : Nat) : Nat := leValue (physRead s (stageRec r i + 32) 4)

def stageOf (r : Region) (i : Nat) : Option StageState := r.stages[i]?

/-- A stage of a region changed. -/
def modStage (s : State) (rid i : Nat) (f : StageState → StageState) : State :=
  modRegion s rid fun r => { r with stages := r.stages.modify i f }

def StageState.occ (x : StageState) : Nat := x.tail - x.head
def occOf (r : Region) (i : Nat) : Nat := ((stageOf r i).map StageState.occ).getD 0

/-- The stage of a fused pair that holds its input, and the one after a stage's output (R331). -/
def nextStage (r : Region) (i : Nat) : Nat := if ((stageOf r i).map (·.fusedNext)).getD false then i + 2 else i + 1

/-- OCC written at a queue change, in both records of a fused pair (R330, R331). -/
def writeOcc (s : State) (r : Region) (i : Nat) : State :=
  let n := leBytes 4 (((regionAt s r.rid).map fun r => occOf r i).getD 0)
  let s1 := physWrite s (stageRec r i + 48) n
  if nextStage r i = i + 2 then physWrite s1 (stageRec r (i + 1) + 48) n else s1

/-- Cores bound to a stage. -/
def stageCores (s : State) (rid i : Nat) : List Nat :=
  (List.range 512).filter fun c => (coreAt s c).stage == some (rid, i)

/-- NCORE written when a binding changes, in both records of a fused pair (R330, R331). -/
def writeNcore (s : State) (rid i : Nat) : State :=
  match regionAt s rid with
  | none => s
  | some r =>
    let n := leBytes 4 (stageCores s rid i).length
    let s1 := physWrite s (stageRec r i + 52) n
    if nextStage r i = i + 2 then physWrite s1 (stageRec r (i + 1) + 52) n else s1

/-- A core's binding to a stage changed. -/
def bindCore (s : State) (c : Nat) (goal : Option (Nat × Nat)) : State :=
  let old := (coreAt s c).stage
  let s1 := modCore s c fun k => { k with stage := goal }
  let note (s : State) (x : Option (Nat × Nat)) : State :=
    match x with
    | some (rid, i) => writeNcore s rid i
    | none => s
  if old = goal then s1 else note (note s1 old) goal

/-! Queues (R332, R334). -/

/-- Entry n of a ring: record address and the die-0 count at which it was placed (R332). -/
def putEntry (s : State) (base cap n : Nat) (item : Dword) : State :=
  physWrite s (base + 16 * (n % cap)) (leBytes 8 item.toNat ++ leBytes 8 (now0 s).toNat)

def stageRoom (s : State) (r : Region) (i : Nat) : Bool := occOf r i < stageQcap s r i

/-- An item put into a stage's input (R332, R334). -/
def insertItem (s : State) (r : Region) (i : Nat) (item arrive : Dword) : State :=
  let tail := ((stageOf r i).map (·.tail)).getD 0
  let s1 := putEntry s (stageQbase s r i) (stageQcap s r i) tail item
  writeOcc (modStage s1 r.rid i fun x => { x with tail := x.tail + 1, arrives := x.arrives ++ [(item, arrive)] }) r i

/-- The oldest item of a stage's input taken out (R332). -/
def takeItem (s : State) (r : Region) (i : Nat) : Option (Dword × Dword × State) :=
  match stageOf r i with
  | none => none
  | some x =>
    if x.occ = 0 then none
    else
      let item := physDword s (stageQbase s r i + 16 * (x.head % stageQcap s r i))
      let arrive := (x.arrives.head?.map Prod.snd).getD 0
      some (item, arrive,
        writeOcc (modStage s r.rid i fun x => { x with head := x.head + 1, arrives := x.arrives.drop 1 }) r i)

/-- The input of a stage is closed and empty (R335). -/
def inputDone (x : StageState) : Bool := x.closed && x.occ == 0 && x.stolen.isEmpty

/-- An operator of the stage that holds an item (R335). -/
def holdsFor (rid i : Nat) (o : Operator) : Bool := o.rid == rid && o.stage == some i && o.item.isSome

/-- A core of the stage holds an item, or a saved context of one does (R335, R375). -/
def stageHolds (s : State) (rid i : Nat) : Bool :=
  (List.range 512).any fun c =>
    let k := coreAt s c
    (k.op.map (holdsFor rid i)).getD false || k.saved.any fun x => holdsFor rid i x.op

/-- R335 for every stage in turn: the input after a closed, empty stage whose cores hold nothing closes. -/
def closeNext (s : State) (rid : Nat) : List Nat → State
  | [] => s
  | i :: rest =>
    let s1 := match regionAt s rid with
      | none => s
      | some r => match stageOf r i with
        | some x => if inputDone x && !stageHolds s rid i then
            modStage s rid (nextStage r i) fun y => { y with closed := true } else s
        | none => s
    closeNext s1 rid rest

def propagateClose (s : State) (rid : Nat) : State := closeNext s rid (List.range 16)

/-- INPUT_CLOSE_PROPAGATE (R335). -/
def execInputClosePropagate (rid : Nat) (s : State) : Out := .next (propagateClose s rid)

/-! Reads of the front end. -/

/-- `n` bytes read by the front end at `a`; an uncorrectable granule is recorded (R382, R422). -/
def frontRead (asid : BitVec 11) (atS : Bool) (kind : AccKind) (a : Dword) (n : Nat) : X (List Byte) := do
  let ps ← checkPieces none asid atS kind (pieces a n)
  let s ← get
  match flawOf s none ps with
  | some (va, pa) => do
    set (uncorrRecord s pa va.toNat none)
    fail .uncorr va
  | none => pure (readPieces s none none ps)

/-- What a read of the front end gives, if it succeeds, with the state that it leaves: accessed bits and records. -/
def frontOutcome {α : Type} (x : X α) (s : State) : Option α × State :=
  match x s with
  | .ok v s1 => (some v, s1)
  | .error _ s1 => (none, s1)

/-- The 256 bytes of an image's header, read as data as the handler's header is (R368); none when they cannot be read. -/
def headerAt (s : State) (asid : BitVec 11) (base : Dword) : Option (List Byte) :=
  (frontOutcome (frontRead asid true .read base 256) s).1

/-- The state that the read of a header leaves. -/
def headerRead (s : State) (asid : BitVec 11) (base : Dword) : State :=
  (frontOutcome (frontRead asid true .read base 256) s).2

/-! The door (R333, R350). -/

/-- COST of a stage's image (R64), read from its header until the stage is bound; a bad image adds nothing (DESIGN CHOICE, log 65).
With the state that the read leaves. -/
def stageCost (s : State) (r : Region) (x : StageState) (i : Nat) : Nat × State :=
  if x.status = 3 then
    let base := physDword s (stageRec r i)
    match headerAt s r.asid base with
    | some h => (if headerOk h then field h 16 8 else 0, headerRead s r.asid base)
    | none => (0, headerRead s r.asid base)
  else (x.cost.toNat, s)

/-- The worst-case item cost: eff(COST), or the sum of the stage images' (R325). -/
def regionCost (s : State) (r : Region) : Nat × State :=
  if r.cost ≠ 0 then (r.cost, s)
  else r.stages.zipIdx.foldl (fun a x => let y := stageCost a.2 r x.1 x.2; (a.1 + y.1, y.2)) (0, s)

/-- The admission rule for an item cost (R350). A region stopped with its fault domain admits nothing (R329). -/
def doorOpen (s : State) (r : Region) (cost : Nat) : Bool :=
  let d := (vget s.deadlines r.dclass ⟨0, 1⟩).deadline.toNat
  !r.dead && r.cmin != 0 && (r.items + 1) * cost ≤ r.cmin * d && stageRoom s r 0
    && !((stageOf r 0).map (·.closed)).getD true

/-- An item record translated and checked: aligned, PLAIN, on this chip and writable at U (R333). -/
def itemRecord (r : Region) (item : Dword) : X Nat := do
  require (item.toNat % 64 == 0 && !isWindow item) .align item
  let p ← translate none r.asid false .write item
  classCheck none .write item 64 p
  require (p.cls == 0) .class_ item
  pure p.pa

/-- Admission at a region's door: the status 0 OK, 1 FULL or 7 BADITEM (R350, R358). -/
def doorAdmit (s : State) (rid : Nat) (item : Dword) : Nat × State :=
  match regionAt s rid with
  | none => (1, s)
  | some r =>
    match itemRecord r item s with
    | .error _ _ => (7, s)
    | .ok pa s0 =>
      let cost := regionCost s0 r
      let s1 := cost.2
      if doorOpen s1 r cost.1 then
        let s2 := physWrite s1 (pa + 20) (leBytes 2 rid ++ [0])
        let s3 := physWrite s2 (pa + 24) (leBytes 8 (now0 s).toNat)
        let s4 := insertItem s3 r 0 item (now0 s)
        (0, modRegion s4 rid fun r => { r with items := r.items + 1 })
      else (1, { s with fleet := { s.fleet with refused := s.fleet.refused + 1 } })

/-- An item is done for its region (R336). -/
def itemDone (s : State) (rid : Nat) : State := modRegion s rid fun r => { r with items := r.items - 1 }

/-- What becomes of an EMIT at an output: still waiting, refused, or accepted (R129, R336). -/
inductive Emitted where
  | waits
  | refused (s : State)
  | accepted (s : State)

/-- The hand-over of an item by stage `i` of a region (R336). `arrive` is the item's ARRIVE. -/
def handOn (s : State) (r : Region) (i : Nat) (item arrive : Dword) : Emitted :=
  let j := nextStage r i
  if j < r.nstage then
    if stageRoom s r j then .accepted (insertItem s r j item arrive) else .waits
  else if r.chained then
    match doorAdmit s r.nextr item with
    | (0, s1) => .accepted (itemDone s1 r.rid)
    | (_, s1) => .refused s1
  else if r.cqTail - r.cqHead < r.cqcap then
    let s1 := putEntry s r.cq r.cqcap r.cqTail item
    .accepted (itemDone (modRegion s1 r.rid fun r => { r with cqTail := r.cqTail + 1 }) r.rid)
  else .waits

/-! Pressure and moves (R345, R346, R130). -/

/-- Occupancy of what stage `i` feeds (R346). -/
def nextOcc (s : State) (r : Region) (i : Nat) : Nat :=
  let j := nextStage r i
  if j < r.nstage then occOf r j
  else if r.chained then ((regionAt s r.nextr).map fun q => occOf q 0).getD 0
  else r.cqTail - r.cqHead

def pressure (s : State) (r : Region) (i : Nat) : Int := (occOf r i : Int) - nextOcc s r i

/-- A stage that may take this core: BOUND, not the second of a fused pair, listing the core, with room (R345). -/
def stageOpen (s : State) (r : Region) (c i : Nat) : Bool :=
  match stageOf r i with
  | none => false
  | some x => x.status == 0 && !x.fusedPrev && x.cset.getLsbD c && (stageCores s r.rid i).length < stageScmax s r i

/-- The open stage of highest pressure, the lower number on a tie (R345). -/
def bestStage (s : State) (r : Region) (c : Nat) : Option Nat :=
  (List.range r.nstage).foldl (fun best i =>
    if stageOpen s r c i then
      match best with
      | none => some i
      | some b => if pressure s r b < pressure s r i then some i else best
    else best) none

/-- Every engine stream is ENDED or IDLE and every counter 0 (R130). -/
def atRest (k : Core) : Bool :=
  ([StreamId.w, .v, .m, .k].all fun st => (k.stream st).run == .ended || (k.stream st).run == .idle)
    && k.cc.toList.all (· == 0)

/-- Where the scheduler moves a core that meets R130's conditions (R346). -/
def moveTarget (s : State) (c : Nat) : Option (Nat × Nat) :=
  let k := coreAt s c
  match k.stage with
  | none => none
  | some (rid, cur) =>
    match regionAt s rid with
    | none => none
    | some r =>
      let pend := s.pending.any fun p => p.core == c
      match bestStage s r c with
      | some m => if atRest k && !pend && m != cur && 0 < pressure s r m && pressure s r cur + 2 ≤ pressure s r m
          then some (rid, m) else none
      | none => none

/-! Launches (R340). -/

/-- The launch of a stage's image (R340). -/
def stageLaunch (r : Region) (i : Nat) : Option Launch :=
  match stageOf r i with
  | none => none
  | some x => some { base := x.base, centry := if x.fusedNext then 0 else x.centry, asid := r.asid, verify := r.verify,
                     rid := r.rid, stage := some i, args := [], fused := x.fusedNext, runNo := 0 }

/-- The splice of a fused stage comes with its launch. -/
def launchStage (s : State) (c : Nat) (r : Region) (i : Nat) : State :=
  let s1 := bindCore s c (some (r.rid, i))
  modCore s1 c fun k => { k with shadow := stageLaunch r i }

/-- A bound stage wants another core: more input than cores waiting for it (R343). -/
def stageWaiting (s : State) (rid i : Nat) : Nat :=
  ((stageCores s rid i).filter fun c => match (coreAt s c).block with
    | some ⟨.item _, _, _, _⟩ => true
    | _ => false).length

end Sys2Proof.Machine
end

