-- ==== Sys2Proof/Machine/Items.lean ====
section
/-! DEFINITION. ITEM, EMIT and YIELD (R128 to R130, R267, R353), the retirement of an operator (R134) and the swap-in of a
launch bank (R340). A core without a stage has no queues: its ITEM finds its input closed and empty and its EMIT is refused
(log 22). -/

namespace Sys2Proof.Machine

/-- The control instruction of a fused operator stands on the consumer's, or the producer's, side (R269). -/
def onConsumer (k : Core) : Bool := k.fusedNow && ((k.stream .c).here.side)
def onProducer (k : Core) : Bool := k.fusedNow && !((k.stream .c).here.side)

/-- The instruction at which the scheduler moves the core: the core leaves its operator as at END (R130). -/
def leaveForMove (m : CM) (regs : List (BitVec 5)) (goal : Nat × Nat) (s : State) : Out :=
  let c := s.cur.core.val
  let k := coreAt s c
  if k.canIssue m regs then
    .next (setCore s c { ((k.issue m s.cur.len).retire .c m.sync).endChain with moveTo := some goal })
  else .next s

/-- YIELD: the core is moved, or nothing happens (R130). -/
def execYield (m : CM) (s : State) : Out :=
  let c := s.cur.core.val
  match (if (coreAt s c).atS then none else moveTarget s c) with
  | some goal => leaveForMove m [] goal s
  | none => ctlX m [] s notAtS

/-- ITEM: the consumer of a fused operator takes the producer's item (R267); otherwise the core may be moved (R130), or
waits for its input (R128). -/
def execItem (m : CM) (a : BitVec 5) (s : State) : Out :=
  let c := s.cur.core.val
  let k := coreAt s c
  if !k.atS && onConsumer k then
    ctl m [a] s fun k => k.writeG a ((k.op.bind (·.producerItem)).getD 0)
  else match (if k.atS then none else moveTarget s c) with
    | some goal => leaveForMove m [a] goal s
    | none => blocking m [a] s fun k => do
        notAtS k
        pure (.item a)

/-- The item taken is held by the core's operator (R335). -/
def holdItem (k : Core) (item : Dword) (stolenFrom : Option Nat) : Core :=
  { k with op := k.op.map fun o =>
      { o with
        item := some item, producerItem := some item, stolen := stolenFrom.isSome, ownerChip := stolenFrom.getD 0, back := .no } }

/-- An ITEM that finds its input closed and empty has returned 0. -/
def noItem (k : Core) : Core := { k with op := k.op.map fun o => { o with producerItem := some 0 } }

/-- ITEM_RETURN (R128): an item, or 0 from an input closed and empty, whose core is then released (R346). -/
def execItemReturn (s : State) : Out :=
  let c := s.cur.core.val
  match (coreAt s c).block with
  | some ⟨.item a, _, _, _⟩ =>
    let give (s : State) (x : Dword) : State := modCore s c fun k => (k.arriveG a x).unblock
    let giveNone (s : State) : State := give (modCore s c noItem) 0
    match (coreAt s c).stage with
    | none => .next (giveNone s)
    | some (rid, i) =>
      match regionAt s rid with
      | none => .next (giveNone (bindCore s c none))
      | some r =>
        match takeItem s r i with
        | some (item, _, s1) => .next (give (modCore s1 c fun k => holdItem k item none) item)
        | none =>
          match (stageOf r i).bind fun x => x.stolen.head? with
          | some (chip, item) =>
            let s1 := modStage s rid i fun x => { x with stolen := x.stolen.drop 1 }
            .next (give (modCore s1 c fun k => holdItem k item (some chip)) item)
          | none =>
            if ((stageOf r i).map inputDone).getD true then .next (giveNone (bindCore s c none)) else .next s
  | _ => .next s

/-- The EMIT of a stolen item is carried to the chip that holds its record, once (R353). -/
def carryBack (item : Dword) : X Unit := do
  let k ← me
  match k.op with
  | some o =>
    if o.back = .no then do
      modify fun s => sendMgmt s (.chip (BitVec.ofNat 12 o.ownerChip))
        (.stolenBack o.rid (o.stage.getD 0) (BitVec.ofNat 64 (windowOfs item)))
      modMe fun k => { k with op := k.op.map fun o => { o with back := .asked } }
    else pure ()
  | none => pure ()

/-- EMIT: the producer of a fused operator only checks its item (R267); a stolen item goes back to its chip (R353). -/
def execEmit (m : CM) (a b : BitVec 5) (s : State) : Out :=
  let k := coreAt s s.cur.core.val
  if onProducer k then
    ctlX m [a, b] s fun k => do
      require (some (k.readG b) == (k.op.bind (·.producerItem))) .splice 0
      modMe fun k => k.writeG a 0
  else blocking m [a, b] s fun k => do
    notAtS k
    if (k.op.map (·.stolen)).getD false then do
      carryBack (k.readG b)
      pure (.emitStolen a (k.readG b))
    else pure (.emit a (k.readG b))

/-- ARRIVE of an item record, read through its page; 0 when it cannot be read. -/
def arriveOf (s : State) (r : Region) (item : Dword) : Dword :=
  match itemRecord r item s with
  | .ok pa _ => physDword s (pa + 24)
  | .error _ _ => 0

def dropItem (k : Core) : Core := { k with op := k.op.map fun o => { o with item := none, stolen := false, back := .no } }

/-- EMIT_ACCEPT (R129, R336). The EMIT of a stolen item waits for the acknowledgement of its insertion on the chip that holds the
record, and raises PEER when that chip has left the group (R353). -/
def execEmitAccept (s : State) : Out :=
  let c := s.cur.core.val
  let give (a : BitVec 5) (s : State) (x : Dword) : State := modCore s c fun k => (k.arriveG a x).unblock
  match (coreAt s c).block with
  | some ⟨.emit a item, _, _, _⟩ =>
    match (coreAt s c).op.bind (·.stage), regionOf s c with
    | some i, some r =>
      match handOn s r i item (arriveOf s r item) with
      | .waits => .next s
      | .refused s1 => .next (give a s1 1)
      | .accepted s1 => .next (propagateClose (give a (modCore s1 c dropItem) 0) r.rid)
    | _, _ => .next (give a s 1)
  | some ⟨.emitStolen a _, _, _, _⟩ =>
    let o := (coreAt s c).op
    let chip := (o.map (·.ownerChip)).getD 0
    let a0 := (o.bind (·.item)).getD 0
    if (o.map (·.back)) == some .done then .next (give a (modCore s c dropItem) 0)
    else if inGroup s (BitVec.ofNat 12 chip) then .next s
    else .next (raise s c .c ⟨.peer, 0, a0, 0⟩)
  | _ => .next s

/-! The end and the start of operators. -/

/-- The operator may retire (R134). -/
def canRetire (k : Core) : Bool :=
  k.op.isSome && !k.atS && !k.stopped && k.raising.isNone && (k.stream .c).run == .ended && atRest k
    && k.inflight.isEmpty && k.block.isNone && k.planeLoad.isNone
    && k.streams.toList.all fun x => x.held.isEmpty

/-- A stage keeps its core after the operator's retirement when its input still asks for it (R347). -/
def stageKeeps (s : State) (rid i : Nat) : Bool :=
  match regionAt s rid with
  | none => false
  | some r => !r.removing && !r.dead && match stageOf r i with
    | none => false
    | some x => x.status == 0 && stageWaiting s rid i < x.occ

/-- The shadow bank written with a stage's launch, when it is empty and the region still stands. -/
def relaunch (s : State) (c rid i : Nat) : State :=
  match regionAt s rid with
  | none => bindCore s c none
  | some r => if (coreAt s c).shadow.isNone then launchStage s c r i else bindCore s c none

/-- A run's plain operator has retired (R338). -/
def runOperatorDone (s : State) (o : Operator) : State :=
  if o.plain then modRegion s o.rid fun r => { r with run := r.run.map fun g =>
    if g.no = o.runNo then { g with launched := g.launched - 1 } else g }
  else s

/-- OPERATOR_RETIRE (R134, R256, R130, R347): a version left open is aborted, and a core that moves, or whose stage still
asks for it, has its next launch written. A pending pre-emption is answered "already ended", and the core is given back
(R372). -/
def execOperatorRetire (s : State) : Out :=
  let c := s.cur.core.val
  let k := coreAt s c
  match k.op with
  | none => .next s
  | some o =>
    if canRetire k then
      let s1 := runOperatorDone (orphan (abortOpen s c) c none) o
      let s2 := modCore s1 c fun k => { k with
        op := none, moveTo := none, preempt := .none, sr := { k.sr with pend := false } }
      if k.preempt != .none then .next (propagateClose (bindCore s2 c none) o.rid)
      else match k.moveTo, k.stage with
      | some (rid, i), _ => .next (relaunch (bindCore s2 c none) c rid i)
      | none, some (rid, i) =>
        .next (if stageKeeps s2 rid i then relaunch s2 c rid i else bindCore s2 c none)
      | none, none => .next (propagateClose s2 o.rid)
    else .next s

/-- The registers that a plain operator's launch writes (R340). -/
def launchArgs (k : Core) (args : List Dword) : Core :=
  match args with
  | [a0, a1, a2, a3] => (((k.putG 1 a0).putG 2 a1).putG 3 a2).putG 4 a3
  | _ => k

/-- A launch taken from the shadow bank (R340, R19, R31, R34). The operator finds no line that its core had cached before (R342). -/
def swapIn (s : State) (c : Nat) (l : Launch) : State :=
  let s1 := changeDomain s c l.asid
  let s2 := modCore s1 c fun k =>
    let k1 := launchArgs { dcInvalidate k with streams := k.streams.map fun x =>
      { x with run := if x.run = .ended then .idle else x.run, steer := [], seq := 0, seqB := 0, side := false, mpc := 0, status := 0
               idle := 0 } } l.args
    let o : Operator := { base := l.base, fused := l.fused, rid := l.rid, stage := l.stage, plain := l.stage.isNone,
                          item := none, stolen := false, ownerChip := 0, producerItem := none, back := .no,
                          runNo := l.runNo }
    { k1 with op := some o, shadow := none, pbrSeq := [], stall := 0, block := none, phaseArrived := false
              sr := { k1.sr with verify := l.verify, mode := 0 }, planeLoad := none, leaseLeft := 0, wantLease := none }
  modCore s2 c fun k => k.modStream .c (·.start (.at l.centry))

/-- The splice buffer that a fused launch runs from (R266). -/
def loadSplice (s : State) (c : Nat) (l : Launch) : State :=
  if l.fused then
    let p := (regionAt s l.rid).bind fun r => (l.stage.bind fun i => stageOf r i).bind fun x => x.splice
    modCore s c fun k => { k with splice := p }
  else s

end Sys2Proof.Machine
end

