-- ==== Sys2Proof/Machine/VecMath.lean ====
section
/-! DEFINITION. What the vector instructions compute on segments (R140, R156 to R172): classes of tags, element-wise,
bitwise and shift operations, comparison, quantisation, the functions of R166, reductions, scans and permutations. -/

namespace Sys2Proof.Machine

/-! Tag classes (R140). -/

def Tag.isFp (t : Tag) : Bool := t == .fp32 || t == .fp16 || t == .bf16
def Tag.isInt : Tag → Bool
  | .int8 | .uint8 | .int32 | .int64 | .index16 | .index32 => true
  | _ => false
def Tag.isMask : Tag → Bool
  | .int8 | .uint8 | .index16 | .int32 | .index32 | .int64 => true
  | _ => false
/-- Container width 8 bits or more, and neither block-scaled nor QN4. -/
def Tag.permutable (t : Tag) : Bool := 8 ≤ t.width && !t.isScaled
/-- A mask that governs data of tag `t`. -/
def maskFor (m t : Tag) : Bool := m.isMask && m.width == t.width

/-- The tag of a comparison's result and of VIOTA's, by width (R160, R170). -/
def cmpTag (w : Nat) : Tag :=
  match w with
  | 8 => .uint8
  | 16 => .index16
  | 32 => .int32
  | _ => .int64
def iotaTag (w : Nat) : Tag :=
  match w with
  | 8 => .uint8
  | 16 => .index16
  | 32 => .index32
  | _ => .int64

/-! Element-wise operations (R158, R159, R162). -/

/-- An integer result of an INT tag: wrapped, or clamped with RND[0] (R158). -/
def intResult (t : Tag) (clamp : Bool) (x : Int) : Nat :=
  match t.intRange with
  | some (lo, hi) => t.intBits (if clamp then (if x < lo then lo else if hi < x then hi else x) else x)
  | none => 0

/-- The integer value of stored bits of an INT tag (R69). -/
def intOf (t : Tag) (b : Nat) : Int :=
  match t with
  | .int8 => signExtend b 8
  | .int32 => signExtend b 32
  | .int64 => signExtend b 64
  | _ => b

/-- VMIN and VMAX of FP elements: exact, -0 below +0, NaN from any NaN (R158). -/
def fpPick (t : Tag) (max : Bool) (a b : Nat) : Nat :=
  let x := t.val a
  let y := t.val b
  if x.isNan || y.isNan then ((t.fp.map FpFmt.nanBits).getD 0)
  else
    let less := match x.cmp y with
      | .lt => true
      | .gt => false
      | .eq => x.isNeg && !y.isNeg
    if less == max then b else a

def intPick (t : Tag) (max : Bool) (a b : Nat) : Nat := if decide (intOf t a < intOf t b) == max then b else a

/-- VMIN or VMAX of an FP or INT tag. -/
def pick (t : Tag) (max : Bool) (a b : Nat) : Nat := if t.isFp then fpPick t max a b else intPick t max a b

/-- Shifts of an INT element by b mod width (R159). -/
def shiftBits (w : Nat) (op : VBin) (a b : Nat) : Nat :=
  let n := b % w
  match op with
  | .shl => a * 2 ^ n % 2 ^ w
  | .shr => a / 2 ^ n
  | _ => (signExtend a w / 2 ^ n % 2 ^ w).toNat

/-- Arithmetic of two values exactly. -/
def exactOp (op : VBin) (a b : Val) : Val :=
  match op with
  | .add => a.add b
  | .sub => a.sub b
  | _ => a.mul b
def exactInt (op : VBin) (a b : Int) : Int :=
  match op with
  | .add => a + b
  | .sub => a - b
  | _ => a * b

/-- One element of an element-wise operation; `i` is its draw index (R80). -/
def binElem (op : VBin) (t : Tag) (r : Rounding) (clamp : Bool) (i a b : Nat) : Nat :=
  match op with
  | .min => pick t false a b
  | .max => pick t true a b
  | .band | .bor | .bxor => 0
  | .shl | .shr | .sra => shiftBits t.width op a b
  | _ => if t.isFp then r.narrow t false i (exactOp op (t.val a) (t.val b))
    else intResult t clamp (exactInt op (intOf t a) (intOf t b))

def fmaElem (t : Tag) (r : Rounding) (clamp : Bool) (i a b c : Nat) : Nat :=
  if t.isFp then r.narrow t false i (((t.val a).mul (t.val b)).add (t.val c))
  else intResult t clamp (intOf t a * intOf t b + intOf t c)

/-- VABS and VNEG of an element (R158). -/
def signElem (neg : Bool) (t : Tag) (clamp : Bool) (a : Nat) : Nat :=
  match t.fp with
  | some p =>
    if (t.val a).isNan then p.nanBits
    else
      let m := a % 2 ^ (p.ew + p.mw)
      if neg && !bit a (p.ew + p.mw) then m + p.signBit true else m
  | none => intResult t clamp (if neg then -intOf t a else (intOf t a).natAbs)

/-- A condition of VCMP (R160). -/
def condHolds (cond : BitVec 4) (nan : Bool) (o : Ordering) : Bool :=
  match cond.toNat with
  | 0 => !nan && o == .eq
  | 1 => nan || o != .eq
  | 2 => !nan && o == .lt
  | 3 => !nan && o != .gt
  | 4 => !nan && o == .gt
  | 5 => !nan && o != .lt
  | _ => nan

def cmpElem (t : Tag) (cond : BitVec 4) (a b : Nat) : Bool :=
  if t.isFp then condHolds cond ((t.val a).isNan || (t.val b).isNan) ((t.val a).cmp (t.val b))
  else condHolds cond false (compare (intOf t a) (intOf t b))

/-! Functions with specified results (R166). Each answers a value that rounds as the exact one does: exact where the exact
value is dyadic, otherwise with a last bit of 1 below every bit that a rounding can reach (log 15). -/

/-- floor(sqrt y) by bits from 2^n down. -/
def isqrtFrom (y : Nat) : Nat → Nat → Nat
  | 0, r => r
  | n + 1, r =>
    let x := r + 2 ^ n
    isqrtFrom y n (if x * x ≤ y then x else r)

def isqrt (y : Nat) : Nat := isqrtFrom y (y.log2 / 2 + 1) 0

/-- A quotient a / b at `p` fraction bits with a sticky last bit. -/
def stickyDiv (a b p : Nat) : Nat := 2 * (a * 2 ^ p / b) + (if a * 2 ^ p % b = 0 then 0 else 1)

/-- 1 / (m 2^e). -/
def rcpVal (n : Bool) (m : Nat) (e : Int) : Val := .fin n (stickyDiv 1 m 320) (-e - 321)

/-- 1 / sqrt(m 2^e). -/
def rsqVal (m : Nat) (e : Int) : Val :=
  let odd := e % 2 ≠ 0
  let m1 := if odd then 2 * m else m
  let e1 := if odd then e - 1 else e
  let r := isqrt (2 ^ 640 / m1)
  .fin false (2 * r + (if r * r * m1 = 2 ^ 640 then 0 else 1)) (-(e1 / 2) - 321)

/-- Fraction bits carried by exp2 and log2 (log 15). -/
def fnBits : Nat := 320

/-- ln 2 at 2^-320, from the sum of 1 / (k 2^k). -/
def ln2 : Nat := ((List.range 330).map fun k => 2 ^ fnBits / ((k + 1) * 2 ^ (k + 1))).sum

/-- The series of e^x for x in [0, 1) at 2^-320, from term `k` = `t` on. -/
def expSeries (x : Nat) : Nat → Nat → Nat → Nat
  | 0, _, _ => 0
  | fuel + 1, k, t => t + expSeries x fuel (k + 1) (t * x / 2 ^ fnBits / (k + 1))

/-- 2^a of a finite a; beyond 2^12 in magnitude the result lies outside every format on that side. -/
def exp2Val (n : Bool) (m : Nat) (e : Int) : Val :=
  let big := m ≠ 0 ∧ 12 < (m.log2 : Int) + e
  if big then .fin false 1 (if n then -4096 else 4096)
  else
    let sh := (-e).toNat
    let x : Int := if 0 ≤ e then signed n (m * 2 ^ e.toNat) else signed n m
    let i := x / 2 ^ sh
    let f := (x % 2 ^ sh).toNat
    if f = 0 then .fin false 1 i
    else
      let y := ln2 * f / 2 ^ sh
      .fin false (2 * expSeries y 90 0 (2 ^ fnBits) + 1) (i - fnBits - 1)

/-- Bits of log2 x for x in [1, 2) at 2^-w: `n` of them, highest first. -/
def logBits (w : Nat) : Nat → Nat → Nat → Nat
  | 0, _, acc => acc
  | n + 1, x, acc =>
    let y := x * x / 2 ^ w
    if 2 ^ (w + 1) ≤ y then logBits w n (y / 2) (2 * acc + 1) else logBits w n y (2 * acc)

/-- log2 of m 2^e, m > 0. -/
def log2Val (m : Nat) (e : Int) : Val :=
  let i : Int := m.log2 + e
  if m = 2 ^ m.log2 then Val.ofInt i
  else
    let w := fnBits + 32
    let f := logBits w fnBits (m * 2 ^ (w - m.log2)) 0
    let y : Int := 2 * (i * 2 ^ fnBits + f) + 1
    .fin (y < 0) y.natAbs (-(fnBits : Int) - 1)

/-- A function of R166 with its special operands. -/
def fnVal (f : VFn) (a : Val) : Val :=
  match f, a with
  | _, .nan => .nan
  | .rcp, .inf n => .fin n 0 0
  | .rcp, .fin n m e => if m = 0 then .inf n else rcpVal n m e
  | .rsq, .inf n => if n then .nan else .fin false 0 0
  | .rsq, .fin n m e => if m = 0 then .inf n else if n then .nan else rsqVal m e
  | .exp2, .inf n => if n then .fin false 0 0 else .inf false
  | .exp2, .fin n m e => exp2Val n m e
  | .log2, .inf n => if n then .nan else .inf false
  | .log2, .fin n m e => if m = 0 then .inf true else if n then .nan else log2Val m e

/-! Quantisation (R165). -/

/-- floor(log2 x) of a finite nonzero value. -/
def floorLog2 (m : Nat) (e : Int) : Int := m.log2 + e

/-- Not a finite value. -/
def unbounded : Val → Bool
  | .fin _ _ _ => false
  | _ => true

/-- The exponent of the largest element of a block, none when all are zero. -/
def blockTop (xs : List Val) : Option Int :=
  xs.foldl (fun a x => match x with
    | .fin _ 0 _ => a
    | .fin _ m e => match a with
      | none => some (floorLog2 m e)
      | some t => some (max t (floorLog2 m e))
    | _ => a) none

/-- emax(T) of R165. -/
def emaxOf : Tag → Int
  | .mxE4m3 => 8
  | .mxE5m2 => 15
  | .mxE3m2 => 4
  | .mxE2m3 => 2
  | .mxFp4 => 2
  | _ => 0

/-- The unscaled format of an MX tag's elements (R72). -/
def elemTag : Tag → Tag
  | .mxE4m3 => .e4m3
  | .mxE5m2 => .e5m2
  | .mxE3m2 => .e3m2
  | .mxE2m3 => .e2m3
  | .mxFp4 => .e2m1
  | _ => .int8

/-- Scale byte and elements of a block-scaled block whose first element has draw index `i0` (R165). -/
def mxQuantise (t : Tag) (r : Rounding) (i0 : Nat) (xs : List Val) : Nat × List Nat :=
  if xs.any unbounded then (0xFF, xs.map fun _ => 0)
  else
    let x : Int := match blockTop xs with
      | none => 0
      | some top => min 254 (max 0 (top - emaxOf t + 127))
    let up : Int := if t = .mxInt8 then 6 else 0
    (x.toNat, xs.mapIdx fun n v => r.narrow (elemTag t) true (i0 + n) (v.scale (127 - x + up)))

/-- A value in units of 2^lo. -/
def atScale (lo : Int) : Val → Int
  | .fin n m e => signed n (m * 2 ^ (e - lo).toNat)
  | _ => 0

/-- The level nearest to x: levels in the order 7, 8, 6, 9, ... of rising |level|, so that a tie takes the smaller one.
A zero lies as near to level 7 as to level 8, which the spec does not decide: `zero` does (log 23). -/
def nearestLevel (zero : Bool) (u x : Int) (den : Int) : Nat :=
  let order := (List.range 8).flatMap fun i => [7 - i, 8 + i]
  let dist (j : Nat) : Nat := (qn4Level j * u - x * den).natAbs
  if x = 0 then (if zero then 8 else 7)
  else order.foldl (fun best j => if dist j < dist best then j else best) 7

/-- The code and levels of a QN4 block under super-scale bits `s` (R165). -/
def qn4Quantise (zero : Nat → Bool) (s : Nat) (xs : List Val) : Nat × List Nat :=
  let none_ : Nat × List Nat := (0, xs.map fun _ => 0)
  match fp32F.decode s with
  | .fin false sm se =>
    if sm = 0 || xs.any unbounded || (blockTop xs).isNone then none_
    else
      let lo := xs.foldl (fun a x => match x with | .fin _ _ e => min a e | _ => a) se
      let sv := atScale lo (.fin false sm se)
      let vs := xs.map (atScale lo)
      let m := vs.foldl (fun a v => max a v.natAbs) 0
      let c := min 255 (ceilDiv (256 * m) sv.toNat)
      (c, vs.mapIdx fun n v => nearestLevel (zero n) (sv * c) v (1024 * 256))
  | _ => none_

/-! Reductions and scans (R167, R168). -/

/-- The tag of a reduction's result (R167). -/
def redTag (op : RedOp) (t : Tag) : Tag :=
  match op with
  | .sum => if t.isFp then .fp32 else .int64
  | _ => t

/-- node of R167 on elements of the result tag. -/
def redNode (op : RedOp) (t : Tag) (a b : Nat) : Nat :=
  match op with
  | .sum => if t = .fp32 then (roundTag t .rne 0 false ((t.val a).add (t.val b))).1 else (a + b) % 2 ^ t.width
  | .min => pick t false a b
  | .max => pick t true a b

/-- An element as the tree takes it: for sums widened to the result tag. -/
def redLeaf (op : RedOp) (t : Tag) (b : Nat) : Nat :=
  match op with
  | .sum => if t.isFp then (roundTag .fp32 .rne 0 false (t.val b)).1 else (intOf t b % 2 ^ 64).toNat
  | _ => b

def redLevel (f : Nat → Nat → Nat) : List Nat → List Nat
  | a :: b :: rest => f a b :: redLevel f rest
  | xs => xs

/-- A balanced tree of `n` levels (R86, R167). -/
def redTree (f : Nat → Nat → Nat) : Nat → List Nat → Nat
  | 0, xs => xs.headD 0
  | n + 1, xs => redTree f n (redLevel f xs)

def reduce (op : RedOp) (t : Tag) (init : Nat) (xs : List Nat) : Nat :=
  let f := redNode op (redTag op t)
  f init (redTree f (log2Floor xs.length) (xs.map (redLeaf op t)))

/-- node of R168; `i` is the draw index of its result. -/
def scanNode (op : RedOp) (t : Tag) (r : Rounding) (i a b : Nat) : Nat :=
  match op with
  | .sum => if t = .fp32 then r.narrow t false i ((t.val a).add (t.val b)) else (a + b) % 2 ^ t.width
  | .min => pick t false a b
  | .max => pick t true a b

/-- The inclusive scan (R168). -/
def scanFrom (f : Nat → Nat → Nat → Nat) : Nat → Nat → List Nat → List Nat
  | _, _, [] => []
  | i, c, a :: rest =>
    let x := f i c a
    x :: scanFrom f (i + 1) x rest

def scanTag (t : Tag) : Bool := t == .fp32 || t == .int32 || t == .int64 || t == .index16 || t == .index32

/-! Permutations (R169 to R172). -/

def trues (ms : List Nat) : List Bool := ms.map (· != 0)

/-- The elements whose mask is `b`, in order. -/
def selected (b : Bool) (xs : List Nat) (ms : List Bool) : List Nat :=
  (xs.zip ms).filterMap fun e => if e.2 = b then some e.1 else none

/-- Number of true mask elements below each position (R170). -/
def iotaOf : Nat → List Bool → List Nat
  | _, [] => []
  | n, m :: ms => n :: iotaOf (if m then n + 1 else n) ms

def unpack (xs ys : List Nat) (ms : List Bool) : List Nat :=
  ((iotaOf 0 ms).zip (ms.zip ys)).map fun e => if e.2.1 then xs.getD e.1 0 else e.2.2

/-- A segment of tag `t` from element bits. -/
def mkSeg (t : Tag) (xs : List Nat) : Seg := ⟨segOfElems t xs, t⟩

/-- VSPLAT's element (R157). -/
def splatElem (t : Tag) (imm : Word) : Nat :=
  match t with
  | .int64 => (sx32 imm).toNat
  | .e8m10 => imm.toNat % 2 ^ 19
  | t => imm.toNat % 2 ^ t.width

/-- A segment in the layout of R73: scale bytes, then element bytes. -/
def scaledSeg (t : Tag) (scales : List Nat) (elems : List Nat) : Seg :=
  ⟨BitVec.ofNat 2048 (packFrom 8 scales + 2 ^ (8 * t.start) * packFrom t.width elems), t⟩

/-- The value of element n of a segment (R69, R70, R72, R74). -/
def segVal (x : Seg) (n : Nat) : Val := scaledVal x.tag (segElem x.tag x.bits n) (segScale x.tag x.bits n)

end Sys2Proof.Machine
end

