-- ==== Sys2Proof/Machine/Vector.lean ====
section
/-! DEFINITION. The vector stream: issue of its instructions (R138, R139, R142), their iterations (R143 to R145, R153,
R155, R164, R165), the landing of their writes (R142) and read runs (R148, R150, R101, R273). -/

namespace Sys2Proof.Machine

/-! Issue (R142). -/

/-- An issued instruction before its own fields are set: it names nothing and has done nothing. -/
def VecOp.blank (k : Core) (y : Sync) : VecOp :=
  { kind := .move, a := 32, b := 32, c := 32, rnd := 0, count := 1, d := 0, dv := false, dadv := false, aadv := false,
    badv := false, cadv := false, desc := 0, off := 0, step := none, ring := none, cc := none, seed := k.sr.seed,
    loc := (k.stream .v).here, wordAddr := (k.stream .v).wordAddr, sync := y, written := 0, heldA := none, heldB := none,
    heldC := none, tag0A := none, tag0B := none, tag0C := none, usedA := 0, usedB := 0, usedC := 0, fwd := none }

/-- The banks of the registers that the operand fields name, which the first iteration uses: while one changes or wakes the instruction
waits at issue, and with one GATED it raises BANK and nothing of it has issued (R36). The banks of the registers that later
iterations reach are checked there (R143; log 64). -/
def issueBanks (o : VecOp) : X Unit := do
  let named (b : Bool) (x : BitVec 6) : List Nat := if b && x.toNat < 32 then [x.toNat] else []
  if o.count = 0 then pure ()
  else ((named o.kind.usesA o.a ++ named o.kind.usesB o.b ++ named o.kind.usesC o.c ++ (if o.dv then [o.d.toNat] else [])).forM
    bankCheck)

/-- A vector instruction issues: `shape` gives it the fields of its words, and `f` what its issue waits and checks add (R142). -/
def vecIssue (y : Sync) (s : State) (shape : VecOp → VecOp) (f : Core → VecOp → X VecOp := fun _ o => pure o) : Out :=
  engineIssue .v y s (do
    let k ← me
    issueBanks (shape (VecOp.blank k y))
    let o ← f k (shape (VecOp.blank k y))
    modMe fun k => (k.ccUp o.cc).modStream .v fun x => { x with op := .vec o })

/-- V1: COUNT is 1 and C is h0 (R139). -/
def vecOne (kind : VKind) (y : Sync) (f : V1F) (s : State) : Out :=
  vecIssue y s fun o => { o with kind := kind, a := f.a, b := f.b, rnd := f.rnd }

/-- V2 (R139). -/
def vecTwo (kind : VKind) (y : Sync) (f : V2F) (s : State) : Out :=
  vecIssue y s fun o => { o with
    kind := kind, a := f.a, b := f.b, c := f.c, rnd := f.rnd, count := f.count.toNat, d := f.d, dv := f.dv
    dadv := f.dadv, aadv := f.aadv, badv := f.badv, cadv := f.cadv }

/-- The operation of VRED and VSCAN (R167). -/
def redOf (sub : BitVec 2) : RedOp :=
  match sub.toNat with
  | 0 => .sum
  | 1 => .min
  | _ => .max

/-- COND of VCMP (R160). -/
def condOf (rnd sub : BitVec 2) : BitVec 4 := rnd ++ sub

/-! Moves, element-wise arithmetic, bitwise operations and shifts (R156, R158, R159). -/

def execVmov (y : Sync) (f : V1F) (s : State) : Out := vecOne .move y f s
def execVmovV2 (y : Sync) (f : V2F) (s : State) : Out := vecTwo .move y f s
def execVadd (y : Sync) (f : V1F) (s : State) : Out := vecOne (.bin .add) y f s
def execVaddV2 (y : Sync) (f : V2F) (s : State) : Out := vecTwo (.bin .add) y f s
def execVsub (y : Sync) (f : V1F) (s : State) : Out := vecOne (.bin .sub) y f s
def execVsubV2 (y : Sync) (f : V2F) (s : State) : Out := vecTwo (.bin .sub) y f s
def execVmul (y : Sync) (f : V1F) (s : State) : Out := vecOne (.bin .mul) y f s
def execVmulV2 (y : Sync) (f : V2F) (s : State) : Out := vecTwo (.bin .mul) y f s
def execVfma (y : Sync) (f : V1F) (s : State) : Out := vecOne .fma y f s
def execVfmaV2 (y : Sync) (f : V2F) (s : State) : Out := vecTwo .fma y f s
def execVmin (y : Sync) (f : V1F) (s : State) : Out := vecOne (.bin .min) y f s
def execVminV2 (y : Sync) (f : V2F) (s : State) : Out := vecTwo (.bin .min) y f s
def execVmax (y : Sync) (f : V1F) (s : State) : Out := vecOne (.bin .max) y f s
def execVmaxV2 (y : Sync) (f : V2F) (s : State) : Out := vecTwo (.bin .max) y f s
def execVabs (y : Sync) (f : V1F) (s : State) : Out := vecOne .abs y f s
def execVabsV2 (y : Sync) (f : V2F) (s : State) : Out := vecTwo .abs y f s
def execVneg (y : Sync) (f : V1F) (s : State) : Out := vecOne .neg y f s
def execVnegV2 (y : Sync) (f : V2F) (s : State) : Out := vecTwo .neg y f s
def execVand (y : Sync) (f : V1F) (s : State) : Out := vecOne (.bin .band) y f s
def execVandV2 (y : Sync) (f : V2F) (s : State) : Out := vecTwo (.bin .band) y f s
def execVor (y : Sync) (f : V1F) (s : State) : Out := vecOne (.bin .bor) y f s
def execVorV2 (y : Sync) (f : V2F) (s : State) : Out := vecTwo (.bin .bor) y f s
def execVxor (y : Sync) (f : V1F) (s : State) : Out := vecOne (.bin .bxor) y f s
def execVxorV2 (y : Sync) (f : V2F) (s : State) : Out := vecTwo (.bin .bxor) y f s
def execVshl (y : Sync) (f : V1F) (s : State) : Out := vecOne (.bin .shl) y f s
def execVshlV2 (y : Sync) (f : V2F) (s : State) : Out := vecTwo (.bin .shl) y f s
def execVshr (y : Sync) (f : V1F) (s : State) : Out := vecOne (.bin .shr) y f s
def execVshrV2 (y : Sync) (f : V2F) (s : State) : Out := vecTwo (.bin .shr) y f s
def execVsra (y : Sync) (f : V1F) (s : State) : Out := vecOne (.bin .sra) y f s
def execVsraV2 (y : Sync) (f : V2F) (s : State) : Out := vecTwo (.bin .sra) y f s

/-- VSPLAT (R157). -/
def execVsplat (y : Sync) (f : VsplatF) (s : State) : Out :=
  vecIssue y s fun o => { o with kind := .splat (Tag.ofCode f.tag.toNat) f.imm, d := f.d, dv := f.dv }

/-! Comparison, selection, functions, reductions and permutations (R160 to R162, R166 to R172). -/

def execVcmp (y : Sync) (f : V1F) (s : State) : Out := vecOne (.cmp (condOf f.rnd f.sub)) y f s
def execVcmpV2 (y : Sync) (f : V2F) (s : State) : Out := vecTwo (.cmp (condOf f.rnd f.sub)) y f s
def execVsel (y : Sync) (f : V1F) (s : State) : Out := vecOne .sel y f s
def execVselV2 (y : Sync) (f : V2F) (s : State) : Out := vecTwo .sel y f s
def execVclmp (y : Sync) (f : V2F) (s : State) : Out := vecTwo .clamp y f s
def execVrcp (y : Sync) (f : V1F) (s : State) : Out := vecOne (.fn .rcp) y f s
def execVrcpV2 (y : Sync) (f : V2F) (s : State) : Out := vecTwo (.fn .rcp) y f s
def execVrsq (y : Sync) (f : V1F) (s : State) : Out := vecOne (.fn .rsq) y f s
def execVrsqV2 (y : Sync) (f : V2F) (s : State) : Out := vecTwo (.fn .rsq) y f s
def execVexp2 (y : Sync) (f : V1F) (s : State) : Out := vecOne (.fn .exp2) y f s
def execVexp2V2 (y : Sync) (f : V2F) (s : State) : Out := vecTwo (.fn .exp2) y f s
def execVlog2 (y : Sync) (f : V1F) (s : State) : Out := vecOne (.fn .log2) y f s
def execVlog2V2 (y : Sync) (f : V2F) (s : State) : Out := vecTwo (.fn .log2) y f s
def execVred (y : Sync) (f : V1F) (s : State) : Out := vecOne (.red (redOf f.sub)) y f s
def execVredV2 (y : Sync) (f : V2F) (s : State) : Out := vecTwo (.red (redOf f.sub)) y f s
def execVscan (y : Sync) (f : V1F) (s : State) : Out := vecOne (.scan (redOf f.sub)) y f s
def execVscanV2 (y : Sync) (f : V2F) (s : State) : Out := vecTwo (.scan (redOf f.sub)) y f s
def execVpart (y : Sync) (f : V2F) (s : State) : Out := vecTwo .part y f s
def execViota (y : Sync) (f : V1F) (s : State) : Out := vecOne .iota y f s
def execVshuf (y : Sync) (f : V1F) (s : State) : Out := vecOne .shuf y f s
def execVshufV2 (y : Sync) (f : V2F) (s : State) : Out := vecTwo .shuf y f s
def execVpack (y : Sync) (f : V2F) (s : State) : Out := vecTwo .pack y f s
def execVunpk (y : Sync) (f : V2F) (s : State) : Out := vecTwo .unpk y f s

/-! Conversion and quantisation (R163, R165). -/

/-- One-word VCVT: RNE, without saturation. -/
def execVcvt (y : Sync) (f : Vcvt1F) (s : State) : Out :=
  vecIssue y s fun o => { o with kind := .cvt (Tag.ofCode f.t.toNat) f.s false, a := f.a }

def execVcvtV2 (y : Sync) (f : Vcvt2F) (s : State) : Out :=
  vecIssue y s fun o => { o with
    kind := .cvt (Tag.ofCode f.t.toNat) f.s f.sat, a := f.a, rnd := f.rnd, count := f.count.toNat, d := f.d, dv := f.dv
    dadv := f.dadv, aadv := f.aadv }

def execVqnt (y : Sync) (f : VqntF) (s : State) : Out :=
  vecIssue y s fun o => { o with
    kind := .qnt (Tag.ofCode f.t.toNat), a := f.a, b := f.b, rnd := f.rnd, count := f.count.toNat, d := f.d, dv := f.dv
    dadv := f.dadv, aadv := f.aadv, badv := f.badv }

/-! Memory instructions at issue (R149 to R155). -/

/-- The element tags of VGATH and VSCAT (R155). -/
def gatherTag (t : Tag) : Bool := t.isFp || t.isInt || t == .e4m3 || t == .e5m2 || t == .e8m10

/-- The descriptor of a gather or scatter at issue. -/
def gatherDesc (k : Core) (ds : BitVec 4) : X (BitVec 256) := do
  let t ← descCheck (k.readD ds)
  localCheck t
  require (gatherTag t.tag) .tag 0
  pure (k.readD ds)

def execVgath (y : Sync) (f : VgathF) (s : State) : Out :=
  vecIssue y s (fun o => { o with
      kind := .gath f.men, a := f.a, c := f.c, count := f.count.toNat, d := f.d, dv := f.dv, dadv := f.dadv, aadv := f.aadv
      cadv := f.cadv })
    fun k o => do
      let d ← gatherDesc k f.ds
      pure { o with desc := d, off := k.readP .v f.p }

def execVscat (y : Sync) (f : VscatF) (s : State) : Out :=
  vecIssue y s (fun o => { o with
      kind := .scat f.men, a := f.a, b := f.b, c := f.c, count := f.count.toNat, aadv := f.aadv, badv := f.badv, cadv := f.cadv })
    fun k o => do
      let cc ← ccTake f.ccen f.ccn
      let d ← gatherDesc k f.ds
      pure { o with desc := d, off := k.readP .v f.p, cc := cc }

/-- VWR at issue: the ring and counter waits, the descriptor, and the generation of a fused writer (R152, R153, R273). -/
def vwrIssue (y : Sync) (f : VwrF) (x : X (Option (BitVec 32) × Option RingRef × Option (BitVec 3))) (s : State) : Out :=
  vecIssue y s (fun o => { o with kind := .write f.sat, a := f.src, aadv := f.sadv, rnd := f.rnd, count := f.count.toNat })
    fun k o => do
      let (step, ring, cc) ← x
      let t ← descCheck (k.readD f.ds)
      localCheck t
      kindCheck t (t.kind == 0)
      let fwd ← if step.isSome then openGeneration o.loc t.tag else pure none
      pure { o with desc := k.readD f.ds, off := k.readP .v f.p, step := step, ring := ring, cc := cc, fwd := fwd }

def execVwr (y : Sync) (f : VwrF) (s : State) : Out := vwrIssue y f (pure (none, none, none)) s

def execVwrLong (y : Sync) (f : VwrF) (x : LongF) (s : State) : Out :=
  vwrIssue y f (do
    let l ← longTake x true
    pure (some l.step, l.ring, l.cc)) s

/-- What a VRD's descriptor allows (R150): a dense tile, or a compressed one whose blocks exist. -/
def vrdCheck (t : TileD) (p : Dword) (count : Nat) (o : LongOpts) : X Unit := do
  localCheck t
  kindCheck t (t.kind != 2)
  if t.kind = 0 then ringSpan o.ring p o.step count 256
  else kindCheck t (kindAccepts t.kind t.tag && t.tag != .qn4 && o.ring.isNone && (count == 0 || p.toNat + count ≤ t.nblk))

/-- A reader at issue takes its generation; the first condition of R273 is decided now. -/
def vrdForward (l : Loc) (t : TileD) (o : LongOpts) (p : Dword) : X Forward := do
  let k ← me
  match fwdPair k l false with
  | none => pure .none
  | some i => do
    let gens := ((pairAt k i).map (·.gens)).getD []
    match gens.find? fun g => !g.taken with
    | none => throw .wait
    | some g => do
      let good := t.kind == 0 && g.tag == t.tag && t.tag == spliceFmt k
      if !good && transient k then do
        modMe (dropGeneration i fun g => !g.taken)
        fail .splice (BitVec.ofNat 64 ((o.ring.map fun r => r.addr p.toNat).getD 0))
      else do
        takeGeneration i
        pure (.taken i good)

/-- VRD: a run is put behind its queue's runs, and the VRD retires (R148). -/
def vrd (y : Sync) (f : VrdF) (x : X LongOpts) (s : State) : Out :=
  engineNow .v y s (do
    let o ← x
    let k ← me
    let q := vget k.q f.q.toNat ⟨[], []⟩
    waitFor (q.runs.length < 4)
    let d := k.readD f.ds
    let t ← descCheck d
    let p := k.readP .v f.p
    vrdCheck t p f.count.toNat o
    let w ← vrdForward (k.stream .v).here t o p
    let run : ReadRun := { desc := d, off := p, step := o.step, count := f.count.toNat, mpc := 0, ratio := f.rat, ring := o.ring,
                           cc := o.cc, decode := t.kind != 0, fwd := w }
    let add (q : OpQueue) : OpQueue := { q with runs := q.runs ++ [run] }
    modMe fun k => { (k.ccUp o.cc) with q := vmod k.q f.q.toNat add })

def execVrd (y : Sync) (f : VrdF) (s : State) : Out := vrd y f (pure shortOpts) s
def execVrdLong (y : Sync) (f : VrdF) (x : LongF) (s : State) : Out := vrd y f (longTake x false) s

/-! Operands (R143). -/

/-- The queue a source code names. -/
def queueOf (code : BitVec 6) : Option Nat := if 48 ≤ code.toNat then some (code.toNat - 48) else none

/-- The segment of a source code at step `j`; of a queue, the `n`-th from its head. -/
def operand (o : VecOp) (code : BitVec 6) (adv : Bool) (j n : Nat) : X Seg := do
  let i := code.toNat
  if i < 32 then do
    let r := if adv then (i + j) % 32 else i
    bankCheck r
    let k ← me
    pure (vget k.v r Seg.zero)
  else do
    let k ← me
    if i < 48 then do
      require (!adv || j ≤ i - 32) .illegal o.wordAddr
      pure (vget k.h (if adv then i - 32 - j else i - 32) Seg.zero)
    else match (vget k.q (i - 48) ⟨[], []⟩).segs[n]? with
      | some x => pure x
      | none => throw .wait

/-- An operand that an instruction may leave unread. -/
def operandIf (b : Bool) (o : VecOp) (code : BitVec 6) (adv : Bool) (j : Nat) : X Seg :=
  if b then operand o code adv j 0 else pure Seg.zero

/-- A tag check (R140, R145). -/
def needTag (b : Bool) : X Unit := require b .tag 0

/-- The segments that steps `lo` to `hi` of an element stream take, with the stream's tag; a step read before and not used
up is held (R164). -/
def streamSteps (o : VecOp) (code : BitVec 6) (adv : Bool) (held : Option (Nat × Seg)) (used : Nat) :
    List Nat → X (List (Nat × Seg))
  | [] => pure []
  | i :: rest => do
    let x ← match held with
      | some (h, x) => if h = i then pure x else operand o code adv i (i - used)
      | none => operand o code adv i (i - used)
    let xs ← streamSteps o code adv held used rest
    pure ((i, x) :: xs)

/-- What an element stream answers an iteration: its tag, its steps and what of it is then left (R164). -/
structure Taken where
  tag : Tag
  steps : List (Nat × Seg)
  held : Option (Nat × Seg)
  used : Nat
deriving DecidableEq, Repr

/-- The plain operands of an instruction that name another queue than its element stream, and whether one names the same. -/
def apartFrom (stream : BitVec 6) (l : List (Bool × BitVec 6)) : List (Bool × BitVec 6) × Bool :=
  let same (e : Bool × BitVec 6) : Bool := e.1 && (queueOf e.2).isSome && queueOf e.2 == queueOf stream
  (l.filter fun e => !same e, l.any same)

/-- Elements `lo` to `lo + n - 1` of an element stream whose tag satisfies `p` (R164). -/
def takeStream (o : VecOp) (code : BitVec 6) (adv : Bool) (held : Option (Nat × Seg)) (tag0 : Option Tag) (used lo n : Nat)
    (p : Tag → Bool) : X Taken := do
  let tag ← match tag0 with
    | some t => pure t
    | none => do
      let x ← operand o code adv 0 0
      pure x.tag
  needTag (tag != .invalid && p tag)
  let size := tag.count
  let first := lo / size
  let last := (lo + n - 1) / size
  let steps ← streamSteps o code adv held used ((List.range (last - first + 1)).map (first + ·))
  needTag (steps.all fun x => x.2.tag == tag)
  let whole := (lo + n) / size
  pure ⟨tag, steps, if whole ≤ last then steps.getLast? else none, whole⟩

/-- An element stream whose queue a plain operand names too: the head segment leaves the queue with the iteration, as the plain operand
has it, and with it the stream's, which is thus removed once (R143; log 64). -/
def Taken.sharing (x : Taken) (before : Nat) (shared : Bool) : Taken :=
  if shared then { x with used := max x.used (before + 1) } else x

/-- Element `k` of what was taken: its segment and its place there. -/
def Taken.elem (x : Taken) (k : Nat) : Seg × Nat :=
  (((x.steps.find? fun s => s.1 == k / x.tag.count).map (·.2)).getD Seg.zero, k % x.tag.count)

/-! Results of one iteration (R156 to R172). -/

def VecOp.rounding (o : VecOp) : Rounding := ⟨Rnd.ofCode o.rnd, o.seed, drawIndex .v o.loc.seq⟩

/-- The segments that iteration `j` pushes, in order, from its sources and h0; none where a tag is refused. -/
def vecResult (o : VecOp) (j : Nat) (a b c h0 : Seg) : Option (List Seg) :=
  let t := a.tag
  let n := t.count
  let r := o.rounding
  let clamp := o.rnd.getLsbD 0
  let as := segElems t a.bits
  let bs := segElems b.tag b.bits
  let cs := segElems c.tag c.bits
  let num := t.isFp || t.isInt
  let one (u : Tag) (xs : List Nat) : Option (List Seg) := some [mkSeg u xs]
  let masks := trues bs
  match o.kind with
  | .move => if t = .invalid then none else some [a]
  | .splat u imm => one u (List.replicate u.count (splatElem u imm))
  | .bin op =>
    match op with
    | .band => if t = b.tag && t != .invalid then some [⟨a.bits &&& b.bits, t⟩] else none
    | .bor => if t = b.tag && t != .invalid then some [⟨a.bits ||| b.bits, t⟩] else none
    | .bxor => if t = b.tag && t != .invalid then some [⟨a.bits ^^^ b.bits, t⟩] else none
    | .shl | .shr | .sra =>
      if t = b.tag && t.isInt then one t ((as.zip bs).map fun e => shiftBits t.width op e.1 e.2) else none
    | _ =>
      if t = b.tag && num then one t ((as.zip bs).mapIdx fun e x => binElem op t r clamp (j * n + e) x.1 x.2) else none
  | .fma =>
    if t = b.tag && t = c.tag && num then
      one t ((as.zip (bs.zip cs)).mapIdx fun e x => fmaElem t r clamp (j * n + e) x.1 x.2.1 x.2.2)
    else none
  | .abs => if t.isFp || t == .int8 || t == .int32 || t == .int64 then one t (as.map (signElem false t clamp)) else none
  | .neg => if t.isFp || t == .int8 || t == .int32 || t == .int64 then one t (as.map (signElem true t clamp)) else none
  | .cmp cond =>
    if t = b.tag && num then
      one (cmpTag t.width) ((as.zip bs).map fun e => if cmpElem t cond e.1 e.2 then 2 ^ t.width - 1 else 0)
    else none
  | .sel =>
    if t = b.tag && t.permutable && maskFor c.tag t then
      one t ((as.zip (bs.zip cs)).map fun x => if x.2.2 = 0 then x.2.1 else x.1)
    else none
  | .clamp =>
    if t = b.tag && t = c.tag && num then
      one t ((as.zip (bs.zip cs)).map fun x => pick t false (pick t true x.1 x.2.1) x.2.2)
    else none
  | .fn f => if t.isFp then one t (as.mapIdx fun e x => r.narrow t false (j * n + e) (fnVal f (t.val x))) else none
  | .red op =>
    let u := redTag op t
    if num && (j != 0 || b.tag == u) then
      one u [reduce op t (segElem u (if j = 0 then b.bits else h0.bits) 0) as]
    else none
  | .scan op =>
    if scanTag t && (j != 0 || b.tag == t) then
      let init := if j = 0 then segElem t b.bits 0 else segElem t h0.bits (n - 1)
      one t (scanFrom (fun e x y => scanNode op t r (j * n + e) x y) 0 init as)
    else none
  | .part =>
    if t.permutable && maskFor b.tag t then
      let m := (masks.filter id).length
      some [mkSeg t (selected true as masks ++ selected false as masks), mkSeg .int32 [m, n - m]]
    else none
  | .iota => if t.isMask then one (iotaTag t.width) (iotaOf 0 (trues as)) else none
  | .shuf => if t.permutable && maskFor b.tag t then one t (bs.map fun i => as.getD i 0) else none
  | .pack => if t.permutable && maskFor b.tag t then one t (selected true as masks) else none
  | .unpk => if t.permutable && maskFor b.tag t && c.tag == t then one t (unpack as cs masks) else none
  | _ => none

/-! Effects of an iteration (R143, R144). -/

/-- The head segments of the queues that plain operands name are removed, each queue once. -/
def dropHeads (qs : List Nat) (k : Core) : Core :=
  let cut (q : OpQueue) : OpQueue := { q with segs := q.segs.drop 1 }
  qs.eraseDups.foldl (fun k i => { k with q := vmod k.q i cut }) k

/-- `n` head segments removed from the queue of an element stream. -/
def dropSegs (code : BitVec 6) (n : Nat) (k : Core) : Core :=
  match queueOf code with
  | none => k
  | some i =>
    let cut (q : OpQueue) : OpQueue := { q with segs := q.segs.drop n }
    { k with q := vmod k.q i cut }

/-- A push (R144). -/
def pushAge (x : Seg) (k : Core) : Core := { k with h := .ofFn fun i : Fin 16 => if i.val = 0 then x else vget k.h (i.val - 1) x }

/-- The destination register of iteration `j`. -/
def VecOp.dest (o : VecOp) (j : Nat) : Nat := if o.dadv then (o.d.toNat + j) % 32 else o.d.toNat

/-- The results of an iteration pushed in order, the first one written to vD. -/
def pushResults (o : VecOp) (j : Nat) (xs : List Seg) (k : Core) : Core :=
  let k1 := xs.foldl (fun k x => pushAge x k) k
  match o.dv, xs with
  | true, x :: _ => { k1 with v := vset k1.v (o.dest j) x }
  | _, _ => k1

/-- The destination's bank (R36). -/
def destCheck (o : VecOp) (j : Nat) : X Unit := if o.dv then bankCheck (o.dest j) else pure ()

/-- The instruction's record after an iteration. -/
def setVecOp (o : VecOp) (k : Core) : Core := k.modStream .v fun x => { x with op := .vec o }

/-- The queues of the plain operands an iteration reads. -/
def plainQueues (l : List (Bool × BitVec 6)) : List Nat := l.filterMap fun e => if e.1 then queueOf e.2 else none

/-- An iteration of an instruction whose operands are plain segments. -/
def iteratePlain (o : VecOp) (j : Nat) : X Unit := do
  let firstOnly := match o.kind with
    | .red _ | .scan _ => true
    | _ => false
  let useB := o.kind.usesB && (!firstOnly || j == 0)
  let a ← operandIf o.kind.usesA o o.a o.aadv j
  let b ← operandIf useB o o.b o.badv j
  let c ← operandIf o.kind.usesC o o.c o.cadv j
  destCheck o j
  let k ← me
  match vecResult o j a b c (vget k.h 0 Seg.zero) with
  | none => fail .tag 0
  | some xs =>
    modMe fun k => pushResults o j xs (dropHeads (plainQueues [(o.kind.usesA, o.a), (useB, o.b), (o.kind.usesC, o.c)]) k)

/-- What of stream A is left after an iteration, in the instruction's record. -/
def keepA (o : VecOp) (x : Taken) : VecOp := { o with heldA := x.held, tag0A := some x.tag, usedA := x.used }
def keepB (o : VecOp) (x : Taken) : VecOp := { o with heldB := x.held, tag0B := some x.tag, usedB := x.used }

/-- An iteration of VCVT (R164). -/
def iterateCvt (o : VecOp) (j : Nat) (t : Tag) (expect : BitVec 5) (sat : Bool) : X Unit := do
  let n := t.count
  let x ← takeStream o o.a o.aadv o.heldA o.tag0A o.usedA (j * n) n fun u => expect == 0 || u.code == expect.toNat
  destCheck o j
  let r := o.rounding
  let out := (List.range n).map fun e =>
    let s := x.elem (j * n + e)
    r.narrow t sat (j * n + e) (segVal s.1 s.2)
  modMe fun k => setVecOp (keepA o x) (pushResults o j [mkSeg t out] (dropSegs o.a (x.used - o.usedA) k))

/-- Blocks of an input stream by 32 or 64 elements. -/
def blocksOf (size : Nat) : Nat → List Val → List (List Val)
  | 0, _ => []
  | n + 1, xs => xs.take size :: blocksOf size n (xs.drop size)

/-- An iteration of VQNT to a block-scaled tag (R165). -/
def iterateMx (o : VecOp) (j : Nat) (t : Tag) : X Unit := do
  let n := t.count
  let x ← takeStream o o.a o.aadv o.heldA o.tag0A o.usedA (j * n) n Tag.isFp
  destCheck o j
  let vals := (List.range n).map fun e =>
    let s := x.elem (j * n + e)
    segVal s.1 s.2
  let bs := (blocksOf 32 (n / 32) vals).mapIdx fun b vs => mxQuantise t o.rounding (j * n + 32 * b) vs
  let out := scaledSeg t (bs.map (·.1)) (bs.flatMap (·.2))
  modMe fun k => setVecOp (keepA o x) (pushResults o j [out] (dropSegs o.a (x.used - o.usedA) k))

/-- An iteration of VQNT to QN4: blocks 256g + 7r + s of the input (R165). -/
def iterateQn4 (o : VecOp) (j : Nat) : X Unit := do
  let r := j % 37
  let nb := min 7 (256 - 7 * r)
  let lo := 64 * (256 * (j / 37) + 7 * r)
  let n := 64 * nb
  let x ← takeStream o o.a o.aadv o.heldA o.tag0A o.usedA lo n Tag.isFp
  let b ← operand o o.b o.badv j 0
  needTag (b.tag == .fp32)
  destCheck o j
  let sup := segElem .fp32 b.bits 0
  let s ← get
  let vals := (List.range n).map fun e =>
    let s := x.elem (lo + e)
    segVal s.1 s.2
  let l := apartFrom o.a [(true, o.b)]
  let x := x.sharing o.usedA l.2
  let bs : List (Nat × List Nat) := (blocksOf 64 nb vals).mapIdx fun i vs =>
    qn4Quantise (fun e => Config.freeBit (s.free + 64 * i + e)) sup vs
  let codes : List Nat := bs.map Prod.fst
  let supBytes : List Nat := (List.range 4).map fun i => bits sup (8 * i) 8
  let out := scaledSeg .qn4 (supBytes ++ (codes ++ List.replicate 12 0).take 12) (bs.flatMap Prod.snd)
  modify fun s => { s with free := s.free + 448 }
  modMe fun k => setVecOp (keepA o x)
    (pushResults o j [out] (dropHeads (plainQueues l.1) (dropSegs o.a (x.used - o.usedA) k)))

/-! Gather and scatter (R155). -/

def indexTag (t : Tag) : Bool := t == .index16 || t == .index32 || t == .int32 || t == .int64

/-- Address of the element that index element `k` names. -/
def gatherAddr (o : VecOp) (x : Taken) (k : Nat) : Dword :=
  let t := tileD o.desc
  let s := x.elem k
  addrAt (t.base + o.off) (intOf x.tag (segElem x.tag s.1.bits s.2) * t.s0)

/-- The elements an iteration accesses, with their addresses. -/
def gatherList (o : VecOp) (x : Taken) (j n : Nat) (men : Bool) (mask : Seg) : List (Nat × Dword) :=
  ((List.range n).filter fun e => !men || segElem mask.tag mask.bits e != 0).map fun e => (e, gatherAddr o x (j * n + e))

/-- The alignment of every accessed element, the lowest first. -/
def gatherAlign (size : Nat) (l : List (Nat × Dword)) : X Unit :=
  match l.find? fun e => e.2.toNat % size != 0 with
  | some e => fail .align e.2
  | none => pure ()

/-- Every element translated and checked before any is accessed (R145). -/
def gatherCheck (kind : AccKind) (size : Nat) : List (Nat × Dword) → X (List (Nat × List Piece))
  | [] => pure []
  | e :: rest => do
    let c ← myNumber
    let ps ← check c kind e.2 size
    let more ← gatherCheck kind size rest
    pure ((e.1, ps) :: more)

def gatherRead : List (Nat × List Piece) → X (List (Nat × Nat))
  | [] => pure []
  | e :: rest => do
    let c ← myNumber
    let r ← fetchPieces c e.2
    match r.2 with
    | some va => fail .uncorr va
    | none => do
      let more ← gatherRead rest
      pure ((e.1, leValue r.1) :: more)

/-- The mask of a gather or scatter. -/
def maskOperand (o : VecOp) (men : Bool) (j : Nat) (t : Tag) : X Seg := do
  let m ← operandIf men o o.c o.cadv j
  needTag (!men || maskFor m.tag t)
  pure m

def iterateGath (o : VecOp) (j : Nat) (men : Bool) : X Unit := do
  let t := (tileD o.desc).tag
  let n := t.count
  let x ← takeStream o o.a o.aadv o.heldA o.tag0A o.usedA (j * n) n indexTag
  let m ← maskOperand o men j t
  destCheck o j
  let l := gatherList o x j n men m
  gatherAlign (t.width / 8) l
  let ps ← gatherCheck .read (t.width / 8) l
  let vals ← gatherRead ps
  let out := (List.range n).map fun e => t.elemOf (((vals.find? fun v => v.1 == e).map (·.2)).getD 0)
  let qs := apartFrom o.a [(men, o.c)]
  let x := x.sharing o.usedA qs.2
  modMe fun k => setVecOp (keepA o x) (pushResults o j [mkSeg t out]
    (dropHeads (plainQueues qs.1) (dropSegs o.a (x.used - o.usedA) k)))

/-- Writes of successive vector instructions land in sequence order, so that a writing iteration waits for the memory phases before its
own (R142). -/
def writesInOrder : X Unit := do
  let k ← me
  waitFor k.landing.isEmpty

/-- Elements stored in ascending order. -/
def scatterStore (t : Tag) (data : Seg) : List (Nat × List Piece) → X Unit
  | [] => pure ()
  | e :: rest => do
    let c ← myNumber
    putPieces c e.2 (leBytes (t.width / 8) (segElem t data.bits e.1))
    scatterStore t data rest

def iterateScat (o : VecOp) (j : Nat) (men : Bool) : X Unit := do
  let t := (tileD o.desc).tag
  let n := t.count
  let a ← operand o o.a o.aadv j 0
  needTag (a.tag == t)
  let x ← takeStream o o.b o.badv o.heldB o.tag0B o.usedB (j * n) n indexTag
  let m ← maskOperand o men j t
  let l := gatherList o x j n men m
  gatherAlign (t.width / 8) l
  let ps ← gatherCheck .write (t.width / 8) l
  writesInOrder
  scatterStore t a ps
  let qs := apartFrom o.b [(true, o.a), (men, o.c)]
  let x := x.sharing o.usedB qs.2
  modMe fun k => setVecOp (keepB o x) (dropHeads (plainQueues qs.1) (dropSegs o.b (x.used - o.usedB) k))

/-! VWR (R153). -/

/-- The bytes that a VWR iteration writes. -/
def vwrBytes (o : VecOp) (j : Nat) (sat : Bool) (x : Seg) : X (List Byte) := do
  let t := (tileD o.desc).tag
  needTag (x.tag != .invalid && t != .invalid && (x.tag == t || !t.isScaled))
  if x.tag = t then pure ((segBytes x.bits).take (if t.width = 6 && !t.isScaled then 255 else 256))
  else
    let n := x.tag.count
    let out := (List.range n).map fun e => o.rounding.narrow t sat (j * n + e) (segVal x e)
    pure (leBytes (ceilDiv (n * t.width) 8) (packFrom t.width out))

/-- The bytes written to the ring, except those a transient tile elides (R274); answers the first one's address. -/
def vwrRing (r : RingRef) (o : Int) (xs : List Byte) (elide : Bool) : X Nat := do
  require (r.holds o xs.length) .cbuf 0
  let pas := r.bytes o.toNat xs.length
  let pa := r.addr o.toNat
  require (pa % 16 == 0) .align (BitVec.ofNat 64 pa)
  if elide then do
    ringCheck pas
    pure pa
  else do
    ringStore pas xs
    pure pa

def iterateWrite (o : VecOp) (j : Nat) (sat : Bool) : X Unit := do
  let x ← operand o o.a o.aadv j 0
  let xs ← vwrBytes o j sat x
  writesInOrder
  let off : Int := match o.step with
    | some st => j * st.toInt
    | none => o.written
  match o.ring with
  | some r => do
    let k ← me
    let pa ← vwrRing r (o.off.toInt + off) xs (o.fwd.isSome && transient k)
    match o.fwd with
    | some i => forwardUnit i o.loc.seq pa (segOf xs) (wholeSegment (tileD o.desc).tag xs.length)
    | none => pure ()
  | none => do
    let a := addrAt ((tileD o.desc).base + o.off) off
    require (a.toNat % 16 == 0) .align a
    let c ← myNumber
    memStore c a xs
  modMe fun k => setVecOp { o with written := o.written + roundUp xs.length 16 } (dropHeads (plainQueues [(true, o.a)]) k)

/-! VECTOR_ITERATION and VECTOR_WRITES_LANDED. -/

def iterate (o : VecOp) (j : Nat) : X Unit :=
  match o.kind with
  | .cvt t s sat => iterateCvt o j t s sat
  | .qnt t => if t = .qn4 then iterateQn4 o j else iterateMx o j t
  | .gath men => iterateGath o j men
  | .scat men => iterateScat o j men
  | .write sat => iterateWrite o j sat
  | _ => iteratePlain o j

/-- A segment of an element stream that is partly used and still in its queue leaves it at the end of the instruction (R164). -/
def dropPartial (o : VecOp) (k : Core) : Core :=
  let left (held : Option (Nat × Seg)) (used : Nat) : Bool := match held with
    | none => false
    | some h => used ≤ h.1
  let k1 := if left o.heldA o.usedA then dropSegs o.a 1 k else k
  if left o.heldB o.usedB then dropSegs o.b 1 k1 else k1

/-- The end of the execute phase: retirement, or the memory phase of a VWR or VSCAT, beside which the stream goes on (R142). -/
def endExecute (k : Core) : Core :=
  match (k.stream .v).op with
  | .vec o =>
    let k1 := (dropPartial o k).modStream .v fun x => { x with op := .none, progress := true }
    match o.kind with
    | .write _ | .scat _ => { k1 with landing := k1.landing ++ [⟨o.sync, o.cc, o.ring⟩] }
    | _ => k1.retire .v o.sync
  | _ => k

/-- VECTOR_ITERATION (R143 to R145). -/
def execVectorIteration (s : State) : Out :=
  let k := coreAt s s.cur.core.val
  let x := k.stream .v
  match x.op with
  | .vec o =>
    if k.stopped || k.raising.isSome || x.run != .run then .next s
    else if o.count ≤ x.mpc.toNat then .next (modCore s s.cur.core.val endExecute)
    else runX .v (do
      iterate o x.mpc.toNat
      modMe fun k => k.modStream .v fun x => { x with mpc := x.mpc + 1, progress := true }
      modMe fun k => if o.count ≤ x.mpc.toNat + 1 then endExecute k else k) s
  | _ => .next s

/-- The memory phases of the vector stream end: each instruction retires, the oldest first (R142). -/
def retireLanded (k : Core) : Core :=
  k.landing.foldl (fun k l => k.finish .v l.sync l.cc)
    ({ k with landing := [] }.modStream .v fun x => { x with progress := true })

/-- VECTOR_WRITES_LANDED (R142). -/
def execVectorWritesLanded (s : State) : Out :=
  let c := s.cur.core.val
  if !(coreAt s c).landing.isEmpty && storesLanded s c then .next (tryTrap (modCore s c retireLanded) c) else .next s

/-! Read runs (R148, R150). -/

/-- The 256 bytes of a dense segment from memory or the ring. A ring read makes no check of alignment: R150 states ALIGN for the
address a of memory, and whether it is meant of a ring's address too is open (DESIGN CHOICE, log 64). -/
def runBytes (r : ReadRun) (j : Nat) : X (List Byte) := do
  let c ← myNumber
  let off : Int := j * r.step.toInt
  match r.ring with
  | some ring => ringLoad c (ring.bytes (r.off.toInt + off).toNat 256)
  | none => do
    let a := addrAt ((tileD r.desc).base + r.off) off
    require (a.toNat % 16 == 0) .align a
    memLoad c a 256

/-- Ring address of segment `j`. -/
def runRingAddr (r : ReadRun) (j : Nat) : Nat :=
  (r.ring.map fun g => g.addr (r.off.toInt + j * r.step.toInt).toNat).getD 0

/-- The generation of a run whose second condition has failed is consumed, and the run's later segments fail too (R273). -/
def loseGeneration (i : Nat) (r : ReadRun) (k : Core) : Core :=
  let lose (x : ReadRun) : ReadRun := { x with fwd := .lost }
  let on (q : OpQueue) : OpQueue := { q with runs := modFirst (· == r) lose q.runs }
  dropGeneration i (·.taken) { k with q := k.q.map on }

/-- A segment of a run that took a generation: forwarded, or from memory once the second condition has failed (R273).
Answers whether the later segments may still be forwarded. -/
def forwarded (r : ReadRun) (i j : Nat) : X (SegBits × Bool) := do
  let k ← me
  let g := (pairAt k i).bind fun p => p.gens.find? fun g => g.taken
  match g.bind fun g => g.segs[j]? with
  | none => throw .wait
  | some (pa, x, whole) =>
    if whole && pa == runRingAddr r j then pure (x, true)
    else if transient k then do
      modMe fun k => loseGeneration i r k
      fail .splice (BitVec.ofNat 64 (runRingAddr r j))
    else do
      let xs ← runBytes r j
      pure (cleanSeg (tileD r.desc).tag (segOf xs), false)

/-- The next dense segment of a run. -/
def denseNext (r : ReadRun) : X (List Seg × ReadRun) := do
  let t := (tileD r.desc).tag
  match r.fwd with
  | .taken i true => do
    let x ← forwarded r i r.mpc
    pure ([⟨x.1, t⟩], { r with fwd := .taken i x.2, mpc := r.mpc + 1 })
  | .lost => fail .splice (BitVec.ofNat 64 (runRingAddr r r.mpc))
  | _ => do
    let xs ← runBytes r r.mpc
    pure ([⟨cleanSeg t (segOf xs), t⟩], { r with mpc := r.mpc + 1 })

/-- The expansion ratio of a code (R101). -/
def ratioOf (code : BitVec 3) : Nat := [1, 2, 3, 4, 6, 8].getD code.toNat 1

/-- NNZ of every block of a tile, for the COUNT check (R99). -/
def totalStored (c : Nat) (t : TileD) (hd : THead) : List Nat → X Nat
  | [] => pure 0
  | b :: rest => do
    let h ← openBlock c t hd b
    let n ← totalStored c t hd rest
    pure (((h.map (·.nnz)).getD 0) + n)

/-- A block's row as segments (R150): `n` of them, zero bits after the last element. -/
def rowSegs (t : Tag) (n : Nat) (xs : List Nat) : List Seg :=
  let x := packFrom t.width xs
  (List.range n).map fun i => ⟨BitVec.ofNat 2048 (x / 2 ^ (2048 * i)), t⟩

/-- The next block of a run in decode mode (R101, R150), with `room` segments free in the queue. -/
def decodeNext (r : ReadRun) (room : Nat) : X (List Seg × ReadRun) := do
  let c ← myNumber
  let t := tileD r.desc
  let b := r.off.toNat + r.mpc
  let e := t.extent b
  let n := ceilDiv (e.ncols * t.tag.width) 2048
  waitFor (n ≤ room)
  let hd ← readHead c t
  let h ← openBlock c t hd b
  let big := ceilDiv (e.ncols * t.tag.width) 8
  let packed := match h with
    | some h => 16 + h.plen
    | none => 16
  let at_ := match h with
    | some h => h.start
    | none => 32 + 4 * b
  if ratioOf r.ratio * packed < big then
    failElem .expand (t.base + BitVec.ofNat 64 at_) (blockIndex t e)
  let elems ← match h with
    | some h => do
      let d ← readBlock c t hd h
      pure d.elems
    | none => pure []
  if r.off = 0 && r.count == t.nblk && r.mpc + 1 == r.count then do
    let total ← totalStored c t hd (List.range t.nblk)
    countCheck t total
  pure (rowSegs t.tag n (denseBits e elems), { r with mpc := r.mpc + 1 })

/-- The oldest run of a queue has placed everything: its counter falls and its generation is consumed (R148, R273). -/
def endRun (q : Nat) (r : ReadRun) (k : Core) : Core :=
  let cut (x : OpQueue) : OpQueue := { x with runs := x.runs.drop 1 }
  let k1 := { k with q := vmod k.q q cut }
  let k2 := match r.fwd with
    | .taken i _ => dropGeneration i (·.taken) k1
    | _ => k1
  k2.ccDown r.cc

/-- Read runs work: the core is not stopped and its streams are not FAULTED. -/
def runsWork (k : Core) : Bool := !k.stopped && k.raising.isNone && (k.stream .v).run != .faulted

/-- READ_RUN_PLACE (R148). -/
def execReadRunPlace (q : Nat) (s : State) : Out :=
  let c := s.cur.core.val
  let k := coreAt s c
  let x := vget k.q q ⟨[], []⟩
  match x.runs with
  | [] => .next s
  | r :: _ =>
    if !runsWork k then .next s
    else if r.count ≤ r.mpc then .next (modCore s c (endRun q r))
    else if 8 ≤ x.segs.length then .next s
    else runX .v (do
      let y ← if r.decode then decodeNext r (8 - x.segs.length) else denseNext r
      let put (x : OpQueue) : OpQueue := { x with segs := x.segs ++ y.1, runs := y.2 :: x.runs.drop 1 }
      modMe fun k => { k with q := vmod k.q q put }
      modMe fun k => k.modStream .v fun x => { x with progress := true }
      modMe fun k => if y.2.count ≤ y.2.mpc then endRun q y.2 k else k) s

end Sys2Proof.Machine
end

