-- ==== Sys2Proof/Machine/Clock.lean ====
section
/-! DEFINITION. The clock of a die and the readiness of a stream to issue: what `step` asks before it runs an instruction
(R17, R30, R104, R134, R142, R369, R373, R375), the end of a cycle (R21, R22, R37, R104, R121), and the model's own turns
when no input says what happens next (log 1). -/

namespace Sys2Proof.Machine

/-! Readiness. -/

/-- A core whose streams may issue: not stopped, not stopping for a trap, not being emptied by a pre-emption, and with no
exposed result still to be written from the cycle before. -/
def coreIssues (k : Core) : Bool :=
  !k.stopped && k.raising.isNone && !k.due && !k.draining

/-- A stream stands at an instruction and may try to issue it: its earlier instruction has gone far enough (R104, R142,
R175, R185, R205). -/
def streamReady (s : State) (c : Nat) (st : StreamId) : Bool :=
  let k := coreAt s c
  let x := k.stream st
  coreIssues k && x.run == .run && x.line.isSome && match st with
    | .c => k.block.isNone && !k.issued && k.stall == 0
    | _ => x.op == .none

/-- The words of the line from the stream's slot on. -/
def wordsHere (x : Stream) : List Word :=
  match x.line with
  | none => []
  | some l => (l.words.take 16).drop x.slot

/-- The instruction at issue, with its length in words (R47). -/
def decodeHere (x : Stream) (st : StreamId) : Except Reject (Instr × Nat) :=
  match decode st (wordsHere x) with
  | .ok i => .ok (i, lengthOf (wordsHere x))
  | .error e => .error e

/-! The end of a cycle. -/

/-- A bank's transition comes one cycle nearer (R37). -/
def tickBank : BankMove → BankMove
  | .waking n => .waking (n - 1)
  | .ungating n r => .ungating (n - 1) r
  | m => m

/-- V's instruction waits on an empty q whose run waits for a unit of a drain of M (R148, R273). -/
def waitsOnDrain (k : Core) : Bool :=
  match (k.stream .v).op, (k.stream .m).op with
  | .vec o, .mat d =>
    [(o.kind.usesA, o.a), (o.kind.usesB, o.b), (o.kind.usesC, o.c)].any fun e => e.1 && match queueOf e.2 with
      | none => false
      | some i =>
        let q := vget k.q i ⟨[], []⟩
        match q.segs, q.runs with
        | [], r :: _ => (match r.fwd with
          | .taken p true => d.fwd == some p
          | _ => false)
        | _, _ => false
  | _, _ => false

/-- The streams whose progress counts for a stream that waits only on them (R373). -/
def waitsOn (k : Core) (st : StreamId) : List StreamId :=
  let x := k.stream st
  let pops : List StreamId := match x.line, x.op with
    | some _, .none =>
      let y := syncOf ((wordsHere x).headD 0)
      if y.pop && k.tokens (popFifo st y) == 0 then [streamOf (relStream st y.psrc)] else []
    | _, _ => []
  match st, k.block with
  | .c, some ⟨.rdv mask, _, _, _⟩ => maskStreams mask
  | .c, some ⟨.waitcc _ _, _, _, _⟩ => [.w, .v, .m, .k]
  | .v, _ => if waitsOnDrain k then [.m] else pops
  | _, _ => pops

def allStreams : List StreamId := [.c, .w, .v, .m, .k]

/-- The streams that made progress in a cycle, with those that wait on them (R373). -/
def progressing (k : Core) : List StreamId :=
  let direct := allStreams.filter fun st => (k.stream st).progress
  let grow (l : List StreamId) : List StreamId :=
    allStreams.filter fun st => l.contains st || (waitsOn k st).any l.contains
  grow (grow (grow (grow direct)))

/-- A stream that waits only on a remote request, or on a fence of scope group or system (R413). -/
def waitsRemote (s : State) (c : Nat) (st : StreamId) : Bool :=
  let asked := (s.fabric.waiting ++ s.fabric.inFlight).any fun r => r.core == c && r.st == st
  asked || (st == .c && match (coreAt s c).block with
    | some ⟨.fence scope, _, _, _⟩ => 4 ≤ scope.toNat
    | some ⟨.xfence scope _ _, _, _, _⟩ => 4 ≤ scope.toNat
    | _ => false)

/-- The hang counts at the end of a cycle (R134, R373). -/
def tickIdle (s : State) (c : Nat) (k : Core) : Core :=
  let moved := progressing k
  let frozen := s.fabric.rgState != .idle
  allStreams.foldl (fun k st => k.modStream st fun x =>
    if x.run != .run || moved.contains st then { x with idle := 0, progress := false }
    else { x with idle := if frozen && waitsRemote s c st then x.idle else x.idle + 1 }) k

/-- The end of a cycle for one core: results and pushes land, timers run (R21, R22, R104, R121, R134). A branch's own cycle is none of
the cycles it loses. -/
def tickCore (s : State) (c : Nat) (k : Core) : Core :=
  if k.stopped then k
  else
    let k1 := (if k.due then k.landExposed else k).countDown
    let k2 := tickZero (allStreams.foldl landHeld { k1 with
      issued := false, stall := if k1.issued then k1.stall else k1.stall - 1, rank := 0, limit := k1.sr.hanglim
      banks := k1.banks.map tickBank })
    tickIdle s c k2

/-- One cycle of a port's timers (R397, R401, R428). -/
def tickPort (p : Port) : Port :=
  let step (b : Band) : Band := { b with relock := b.relock.map (· - 1) }
  { p with
    bands := p.bands.map step, sinceAck := if p.replay.isEmpty then 0 else p.sinceAck + 1, sinceSend := p.sinceSend + 1
    gap := if p.window.isEmpty then p.gap else p.gap + 1, sinceRpl := p.sinceRpl + 1
    silent := if p.state = .up then p.silent + 1 else 0 }

/-- One cycle of the fabric's timers (R352, R405, R406, R410, R411, R413). -/
def tickFabric (f : Fabric) : Fabric :=
  let wait (p : Peer) : Peer := { p with sinceBeat := p.sinceBeat + 1 }
  let f1 : Fabric := { f with ports := f.ports.map tickPort }
  if f.rgState = .idle then
    { f1 with beat := f.beat + 1, advertAge := f.advertAge + 1, peers := f.peers.map wait }
  else { f1 with rgCycles := f.rgCycles + 1 }

/-- A cycle in which an array command of the die waits for a token (R427). -/
def countWaits (s : State) (d : Nat) : State :=
  if (List.range 32).any fun i => (clusterAt s (32 * d + i)).waitToken then
    { s with fleet := { s.fleet with tokenWaits := vmod s.fleet.tokenWaits d (· + 1) } }
  else s

/-- What belongs to the chip at the end of a cycle of die 0: the fabric's timers, the order of the front end, and the phase groups
whose members have all arrived (R116, R334, R348; log 45, 61). -/
def tickChip (s : State) : State :=
  { s with
    fabric := tickFabric s.fabric, queueTurn := 0, grantTurn := 0
    phase := s.phase.map fun g => { g with due := g.members != 0 && g.arrived == g.members } }

/-- One cycle of a die; die 0's clock drives the fabric's timers (log 45). -/
def tick (s : State) (d : Nat) : State :=
  let s1 := { s with
    cores := s.cores.mapFinIdx fun i k _ => if dieOf i = d then tickCore s i k else k
    clusters := s.clusters.mapFinIdx fun i x _ => if i / 32 = d then { x with sinceEnd := x.sinceEnd + 1, cbTurn := 0 } else x }
  let s2 := (List.range 32).foldl (fun s i => lapseLease s (32 * d + i)) s1
  let s3 := countWaits s2 d
  let s4 := if d = 0 then tickChip s3 else s3
  modDie (moveTokens s4 d) d fun x => { x with cyc := x.cyc + 1 }

/-! The model's own turns (log 1). -/

/-- A cycle of every die. -/
def allTicks : List (Fin 512 → Action) := (List.finRange 4).map fun d _ => .tick d

/-- What a stream of a core tries first in a cycle. -/
def streamTurns (st : StreamId) : List (Fin 512 → Action) :=
  [fun c => .event c (.hangTimeout st), fun c => .event c (.lineFetch st), fun c => .issue c st]

/-- What a core tries in turn, in a cycle of its own and in the order of a cycle (log 61). -/
def coreTurns : List (Fin 512 → Action) :=
  allTicks ++ streamTurns .c
  ++ [fun c => .event c .exposedResultWrite, fun c => .event c .interlockedValueArrive, fun c => .event c .fenceComplete,
      fun c => .event c .xfenceComplete, fun c => .event c (.bopenAnswer .here), fun c => .event c .bsealComplete,
      fun c => .event c .rdvComplete, fun c => .event c .steerAppend, fun c => .event c .cbsetComplete,
      fun c => .event c .cbwaitComplete, fun c => .event c .itemReturn, fun c => .event c .emitAccept]
  ++ streamTurns .w
  ++ [fun c => .event c .walkMsprMeet, fun c => .event c .roundPrepare, fun c => .event c .flowStep,
      fun c => .event c .flowEnd, fun c => .event c .listRecordWrite]
  ++ streamTurns .v
  ++ [fun c => .event c .vectorIteration, fun c => .event c .vectorWritesLanded, fun c => .event c (.readRunPlace 0),
      fun c => .event c (.readRunPlace 1), fun c => .event c (.readRunPlace 2), fun c => .event c (.readRunPlace 3)]
  ++ streamTurns .m
  ++ [fun c => .event c .mldsColumn, fun c => .event c .rowStep, fun c => .event c .arrayCommandComplete,
      fun c => .event c .mdrnRow, fun c => .event c .mdrnWritesLanded, fun c => .event c .mzeroComplete]
  ++ streamTurns .k
  ++ [fun c => .event c .kviewPass, fun c => .event c .copyUnit, fun c => .event c .transferComplete,
      fun c => .event c .patchRowWrite]
  ++ (allStreams.map fun st c => .event c (.retiringPush st))
  ++ [fun c => .event c .waitccComplete, fun c => .event c .preemptRequest, fun c => .event c .contextSave,
      fun c => .event c .operatorRetire, fun c => .event c .launchBankSwapIn,
      fun c => .event c (.leaseGrant (c.val / 4)), fun c => .event c (.powerTokenTake (c.val / 4)),
      fun c => .event c .bundledStoreLand, fun c => .event c .poolStoreResume,
      fun c => .event c .replicaLock, fun c => .event c (.pageDecoderAssign (c.val / 128))]
  ++ ((List.range 4).flatMap fun b =>
      [fun c => .event c (.bankWakeDone b), fun c => .event c (.bankGatedExit b), fun c => .event c (.bankEnterRetain b)])
  ++ allTicks

/-! Placing an instruction for `step` (log 2). -/

/-- The words that lie in `nbits` bits of a table word, lowest first. -/
def splitWords : Nat → Nat → List Word
  | 0, _ => []
  | n + 1, w => BitVec.ofNat 32 w :: splitWords n (w / 2 ^ 32)

/-- The line that holds the instruction in its slots from 1 on, as the only instruction of a chain that ends. -/
def placedLine (st : StreamId) (w : Nat) : List Word :=
  let link := BitVec.ofNat 32 (streamNum st * 2 ^ 29 + 2 ^ 27)
  link :: (splitWords 4 w ++ List.replicate 11 0)

/-- The stream that stands at the placed instruction, running. -/
def placeAt (k : Core) (st : StreamId) (words : List Word) : Core :=
  k.modStream st fun x => { x with run := .run, line := some ⟨4, 256, words, false⟩, slot := 1 }

end Sys2Proof.Machine
end

