-- ==== Sys2Proof/Machine/Context.lean ====
section
/-! DEFINITION. Pre-emption (R375, R372, R136), the saved context (R39, R376 to R381), the swap-in of a shadow bank (R340),
machine checks as events (R374), and TLB invalidation (R389). -/

namespace Sys2Proof.Machine

/-! The request and the drain (R375). -/

/-- A pre-emption that finds a PHASE not committed discards it, withdrawing its arrival (R116). -/
def discardPhase (s : State) (c : Nat) : State :=
  match (coreAt s c).block with
  | some ⟨.phase _, _, _, _⟩ => discardBlock s c
  | _ => s

/-- What waits at issue is discarded: nothing of it has issued (R39, R184). A copy in progress keeps its decoder. -/
def dropAtIssue : EngineOp → EngineOp
  | .walk w => if w.waiting then .none else .walk w
  | .mat o => if o.started then .mat o else .none
  | o => o

/-- PREEMPT_REQUEST: at S the request stays pending; an operator whose END has retired drains to its retirement; any other
core stops issuing and drains (R372, R375 steps 2 to 4). -/
def execPreemptRequest (s : State) : Out :=
  let c := s.cur.core.val
  let k := coreAt s c
  match k.preempt with
  | .pending area =>
    if k.atS || k.raising.isSome || k.stopped then .next s
    else if (k.stream .c).run == .ended || k.op.isNone then
      .next (modCore s c fun k => { k with preempt := .ended, sr := { k.sr with pend := false } })
    else
      .next (modCore (discardPhase s c) c fun k => { k with
        preempt := .draining area, streams := k.streams.map fun x => { x with op := dropAtIssue x.op } })
  | _ => .next s

/-- Everything issued has finished: engine instructions with their writes, the sparse flow, a running MLDS, every control
result and every push (R39, R136, R146, R184, R201, R205). -/
def Core.drained (k : Core) : Bool :=
  k.raising.isNone && k.landing.isEmpty && ([StreamId.w, .v, .m, .k].all fun st => (k.stream st).op == .none) && k.planeLoad.isNone
    && k.flow.isNone && k.inflight.isEmpty && k.streams.toList.all fun x => x.held.isEmpty

/-! The bytes of a context (R377). -/

/-- Size of a saved context, and of its parts (R377). -/
def contextSize : Nat := 1327104

/-- Bytes placed at an offset, after the bytes so far. -/
def layAt (off : Nat) (xs ys : List Byte) : List Byte := padTo off xs ++ ys

/-- A handle's HEAD and TAIL (R39). -/
def cbCounts (x : Cb) : List Byte := leBytes 4 x.head.toNat ++ leBytes 4 x.tail.toNat

/-- A handle's geometry (R377). -/
def cbGeometry (x : Cb) : List Byte :=
  leBytes 8 (x.base.toNat + x.shared.toNat * 2 ^ 62 + x.valid.toNat * 2 ^ 63) ++ leBytes 2 x.slotsz.toNat
    ++ leBytes 2 x.nslot.toNat ++ leBytes 4 0

/-- The steer queue of a stream in 40 bytes (R39). -/
def steerBytes (x : Stream) : List Byte :=
  leBytes 8 x.steer.length ++ padTo 32 (x.steer.flatMap fun i => leBytes 4 i.toNat)

/-- The handles of a core, shared ones as the cluster holds them. -/
def handlesOf (s : State) (c : Nat) : List Cb := (List.range 16).map fun h => cbAt s c (BitVec.ofNat 4 h)

/-- The pre-emption record (R39). -/
def cutRecord (s : State) (c : Nat) : List Byte :=
  let k := coreAt s c
  let at_ := allStreams.map fun st => (k.stream st, (standsAt s c (k.stream st)).1)
  let addr (x : Stream × Loc) : Nat := if x.1.run == .run then x.2.addr.toNat else 0
  let slot (x : Stream × Loc) : Nat := if x.1.run == .run then x.2.slot else 0
  let r1 := leBytes 2 2 ++ leBytes 6 0 ++ leBytes 8 (dieAt s (dieOf c)).cyc.toNat
    ++ at_.flatMap (fun x => leBytes 4 x.2.seq.toNat)
  let r2 := layAt 40 r1 (at_.flatMap fun x => leBytes 8 (addr x))
    ++ at_.flatMap (fun x => leBytes 1 (slot x)) ++ at_.flatMap (fun x => leBytes 1 (runCode x.1.run))
  let r3 := layAt 128 r2 (k.fifo.toList.flatMap fun n => leBytes 1 n.toNat)
  let r4 := layAt 160 r3 ((handlesOf s c).flatMap cbCounts)
    ++ [StreamId.w, .v, .m, .k].flatMap (fun st => steerBytes (k.stream st)) ++ k.cc.toList.flatMap (fun n => leBytes 2 n.toNat)
  padTo 512 r4

/-- The walker's configuration as the two words of a WCFG with a clear sync field (R377, R175). -/
def wcfgBytes (w : WCfg) : List Byte :=
  (encode (.wcfg ⟨false, 0, false, 0⟩ ⟨w.mode, w.ovf, w.chk, w.cbh, w.lag, w.skip⟩)).flatMap wordBytes

/-- Word 3 of a VRD (R149). -/
def ringWord (ring : Option RingRef) (cc : Option (BitVec 3)) : Nat :=
  (match ring with
    | none => 0
    | some r => 2 ^ 31 + r.cbh.toNat * 2 ^ 27 + r.wait.toNat * 2 ^ 15)
    + (match cc with
    | none => 0
    | some n => 2 ^ 14 + n.toNat * 2 ^ 11)

/-- A read run in 64 bytes (R379). -/
def runBytes64 (r : ReadRun) : List Byte :=
  leBytes 32 r.desc.toNat ++ leBytes 8 r.off.toNat ++ leBytes 4 r.step.toNat ++ leBytes 4 r.count ++ leBytes 4 r.mpc
    ++ leBytes 4 (ringWord r.ring r.cc) ++ leBytes 4 ((r.ring.map fun x => x.start.toNat).getD 0)
    ++ leBytes 1 r.ratio.toNat ++ leBytes 1 1 ++ leBytes 2 0

def AccMode.code : AccMode → Nat
  | .arrival => 0
  | .canon => 1
  | .exact => 2

/-- A tile's configuration (R377). -/
def tileConfig (t : Tile) : Nat := t.tag.code + t.btag.code * 2 ^ 5 + t.mode.code * 2 ^ 10 + t.anchor.toNat * 2 ^ 12

/-- A sparse list of numbered values as one little-endian number of `width`-bit items. -/
def packNat (width : Nat) (xs : List (Nat × Nat)) : Nat := xs.foldl (fun a e => a + e.2 * 2 ^ (width * e.1)) 0

/-- `64 * n` bytes of such a number. -/
def packedBytes (n x : Nat) : List Byte := (List.range n).flatMap fun i => leBytes 64 (x / 2 ^ (512 * i) % 2 ^ 512)

/-- A cell's flag code (R378). -/
def flagCode (c : Cell) : Nat := if c.poi then 3 else if c.ovf then 2 else if c.inx then 1 else 0

def planeBytes (w : Plane) : List Byte := packedBytes 1216 (packNat 19 (w.entries.map fun e => (e.1, e.2.toNat)))
def sideBytes (w : Plane) : List Byte := packedBytes 16 (packNat 8 (w.side.map fun e => (e.1, e.2.toNat)))
def tileBytes (t : Tile) : List Byte := packedBytes 8192 (packNat 128 (t.cells.map fun e => (e.1, e.2.value.toNat)))
def tileFlags (t : Tile) : List Byte := packedBytes 128 (packNat 2 (t.cells.map fun e => (e.1, flagCode e.2)))

/-- A forwarding pair's counts, and the data of its generations (R380). -/
def pairCounts (p : FwdPair) : List Byte :=
  leBytes 1 p.gens.length ++ padTo 2 (p.gens.flatMap fun g => leBytes 1 g.segs.length) ++ leBytes 13 0
def generationBytes (g : Generation) : List Byte := padTo 2048 (g.segs.flatMap fun x => segBytes x.2.1)
def pairData (p : FwdPair) : List Byte := padTo 4096 (p.gens.flatMap generationBytes)

/-- The sequence counter that the record does not name, for a stream of a fused operator (R269, R380). -/
def otherSeq (s : State) (c : Nat) (st : StreamId) : BitVec 32 :=
  let x := (coreAt s c).stream st
  x.seqOf (!(standsAt s c x).1.side)

/-- The splice extension (R380). -/
def spliceBytes (s : State) (c : Nat) : List Byte :=
  match (if (coreAt s c).fusedNow then (coreAt s c).splice else none) with
  | none => leBytes 16640 0
  | some p =>
    let head := padTo 64 (allStreams.flatMap (fun st => leBytes 4 (otherSeq s c st).toNat) ++ leBytes 1 1)
    padTo 16640 (layAt 256 (head ++ padTo 64 (p.pairs.flatMap pairCounts)) (p.pairs.flatMap pairData))

/-- The 1,327,104 bytes of a context (R377). -/
def contextBytes (s : State) (c : Nat) : List Byte :=
  let k := coreAt s c
  let r := k.sr
  let q := k.q.toList
  let b1 := cutRecord s c ++ savedRegs k ++ [statWord r, r.seed, r.lagcnt, r.ovfcnt, r.skipcnt, r.confcnt].flatMap
      (fun x => leBytes 8 x.toNat) ++ leBytes 8 r.vbank.toNat ++ wcfgBytes k.wcfg ++ leBytes 4 k.row0.toNat
      ++ leBytes 1 k.leaseLeft ++ leBytes 3 0 ++ leBytes 8 r.bopenid.toNat
  let b2 := layAt 1024 b1 (k.d.toList.flatMap fun x => leBytes 32 x.toNat)
    ++ k.p.toList.flatMap (fun ps => ps.toList.flatMap fun x => leBytes 8 x.toNat)
    ++ k.k.toList.flatMap (fun x => leBytes 8 x.toNat) ++ (handlesOf s c).flatMap cbGeometry
    ++ k.v.toList.flatMap (fun x => leBytes 1 x.tag.code) ++ k.h.toList.flatMap (fun x => leBytes 1 x.tag.code)
    ++ q.flatMap (fun x => padTo 8 (x.segs.flatMap fun y => leBytes 1 y.tag.code))
    ++ q.flatMap (fun x => leBytes 1 x.segs.length) ++ k.w.toList.flatMap (fun x => leBytes 1 x.tag.code) ++ leBytes 2 0
    ++ k.z.toList.flatMap (fun t => leBytes 8 (tileConfig t))
  let b3 := layAt 2560 b2 (q.flatMap fun x => padTo 256 (x.runs.flatMap runBytes64))
  let b4 := layAt 4096 b3 (k.v.toList.flatMap fun x => segBytes x.bits) ++ k.h.toList.flatMap (fun x => segBytes x.bits)
    ++ q.flatMap (fun x => padTo 2048 (x.segs.flatMap fun y => segBytes y.bits)) ++ spliceBytes s c
  let b5 := layAt 49152 b4 (k.w.toList.flatMap planeBytes) ++ k.w.toList.flatMap sideBytes
  layAt 262144 b5 (k.z.toList.flatMap tileBytes) ++ k.z.toList.flatMap tileFlags

/-! The save (R375 steps 5 to 8). -/

/-- The core as its context leaves it: without an operator, its pre-emption reported. Register contents stay until a change
of domain (R35). -/
def leaveSaved (k : Core) (area : Nat) : Core :=
  let o := k.op.map fun o => SavedOp.mk area k.shadow.isSome o k.sr.asid k.sr.verify k.version k.splice
    (k.q.toList.flatMap fun q => q.runs.map (·.fwd)) (k.streams.toList.map (·.side))
  let runless (q : OpQueue) : OpQueue := { q with runs := [] }
  { k with
    saved := o.toList ++ k.saved, op := none, version := none, splice := none
    streams := k.streams.map fun x => { Stream.reset with mpc := x.mpc }
    q := k.q.map runless, leaseLeft := 0, wantLease := none, banks := .replicate 4 .none, rbuf := [], rfault := [], pbrSeq := [], stall := 0
    preempt := .none, sr := { k.sr with pend := false } }

/-- CONTEXT_SAVE: the drain done, the cut is taken, the context is written, and the core reports it saved (R375). -/
def execContextSave (s : State) : Out :=
  let c := s.cur.core.val
  match (coreAt s c).preempt with
  | .draining area =>
    if (coreAt s c).drained && !(s.fabric.waiting ++ s.fabric.inFlight).any fun r => r.core == c then
      let s1 := leaveArray (discardBlock s c) c
      let s2 := physWrite s1 area (contextBytes s1 c)
      .next (bindCore (modCore s2 c fun k => leaveSaved k area) c none)
    else .next s
  | _ => .next s

/-! The resumption (R376). -/

/-- A number of `n` bytes at an offset of a context. -/
def ctxNat (s : State) (area off n : Nat) : Nat := leValue (physRead s (area + off) n)
def ctxDword (s : State) (area off : Nat) : Dword := BitVec.ofNat 64 (ctxNat s area off 8)

/-- A segment with its tag. -/
def ctxSeg (s : State) (area off tagAt : Nat) : Seg :=
  ⟨BitVec.ofNat 2048 (ctxNat s area off 256), Tag.ofCode (ctxNat s area tagAt 1 % 32)⟩

/-- `64 * n` bytes as one little-endian number. -/
def ctxPacked (s : State) (area off n : Nat) : Nat :=
  let xs := physRead s (area + off) (64 * n)
  ((List.range n).foldl (fun (a : Nat × List Byte) i => (a.1 + leValue (a.2.take 64) * 2 ^ (512 * i), a.2.drop 64)) (0, xs)).1

/-- The non-zero items of a packed number. -/
def unpackNat (width n x : Nat) : List (Nat × Nat) :=
  ((List.range n).map fun i => (i, bits x (width * i) width)).filter fun e => e.2 != 0

def ctxPlane (s : State) (area i : Nat) : Plane :=
  { tag := Tag.ofCode (ctxNat s area (2420 + i) 1 % 32)
    entries := (unpackNat 19 32768 (ctxPacked s area (49152 + 77824 * i) 1216)).map fun e => (e.1, BitVec.ofNat 19 e.2)
    side := (unpackNat 8 1024 (ctxPacked s area (204800 + 1024 * i) 16)).map fun e => (e.1, BitVec.ofNat 8 e.2) }

/-- A cell from its value and flag code (R378). -/
def ctxCell (v code : Nat) : Cell :=
  { value := BitVec.ofNat 128 v, inx := code == 1 || (code == 2 && v == 0), ovf := code == 2, poi := code == 3
    par := parity (BitVec.ofNat 128 v) }

def ctxTile (s : State) (area i : Nat) : Tile :=
  let cfg := ctxNat s area (2424 + 8 * i) 8
  let vals := ctxPacked s area (262144 + 524288 * i) 8192
  let flags := ctxPacked s area (1310720 + 8192 * i) 128
  let cells := ((List.range 32768).map fun n => (n, ctxCell (bits vals (128 * n) 128) (bits flags (2 * n) 2))).filter
    fun e => e.2 != Cell.zero
  { tag := Tag.ofCode (bits cfg 0 5), btag := Tag.ofCode (bits cfg 5 5), mode := accModeOf (BitVec.ofNat 2 (bits cfg 10 2))
    anchor := BitVec.ofNat 9 (bits cfg 12 9), cells := cells }

/-- A handle of the record; its counts are the record's (R376). -/
def ctxCb (s : State) (area c h : Nat) : Cb :=
  let w := ctxNat s area (2080 + 16 * h) 8
  { base := BitVec.ofNat 44 (bits w 0 44), slotsz := BitVec.ofNat 16 (ctxNat s area (2088 + 16 * h) 2)
    nslot := BitVec.ofNat 12 (ctxNat s area (2090 + 16 * h) 2), head := BitVec.ofNat 32 (ctxNat s area (160 + 8 * h) 4)
    tail := BitVec.ofNat 32 (ctxNat s area (164 + 8 * h) 4), shared := bit w 62, valid := bit w 63, owner := c }

/-- A handle restored: a private one with its counts, a shared one where the cluster holds it, its HEAD and TAIL as they are
there (R376). -/
def restoreCb (s : State) (area c h : Nat) : State :=
  let x := ctxCb s area c h
  if x.shared && x.valid then
    let keep (y : Cb) : Cb := if y.valid then y else { x with head := y.head, tail := y.tail }
    modCore (modCluster s (clusterOf c) fun l => { l with cb := vmod l.cb h keep }) c
      fun k => { k with cb := vset k.cb h Cb.zero }
  else if x.shared then s
  else modCore s c fun k => { k with cb := vset k.cb h x }

/-- A read run of an entry of R379, with what the record does not hold. -/
def ctxRun (s : State) (area c off : Nat) (fwd : Forward) : ReadRun :=
  let w := ctxNat s area (off + 52) 4
  let d := BitVec.ofNat 256 (ctxNat s area off 32)
  let x := cbAt s c (BitVec.ofNat 4 (bits w 27 4))
  let ring : RingRef := { cbh := BitVec.ofNat 4 (bits w 27 4), base := x.base, slotsz := x.slotsz, nslot := x.nslot,
                          start := BitVec.ofNat 32 (ctxNat s area (off + 56) 4), wait := BitVec.ofNat 12 (bits w 15 12) }
  { desc := d, off := ctxDword s area (off + 32), step := BitVec.ofNat 32 (ctxNat s area (off + 40) 4)
    count := ctxNat s area (off + 44) 2 % 4096, mpc := ctxNat s area (off + 48) 4, ratio := BitVec.ofNat 3 (ctxNat s area (off + 60) 1)
    ring := if bit w 31 then some ring else none, cc := if bit w 14 then some (BitVec.ofNat 3 (bits w 11 3)) else none
    decode := (tileD d).kind != 0, fwd := fwd }

/-- The runs of the entries from number `i` on, taking the kept parts in order. -/
def ctxRuns (s : State) (area c : Nat) : List Nat → List Forward → List (Nat × ReadRun)
  | [], _ => []
  | i :: rest, kept =>
    let off := 2560 + 64 * i
    if bit (ctxNat s area (off + 61) 1) 0 then
      (i / 4, ctxRun s area c off (kept.headD .none)) :: ctxRuns s area c rest (kept.drop 1)
    else ctxRuns s area c rest kept

def ctxQueue (s : State) (area : Nat) (runs : List (Nat × ReadRun)) (i : Nat) : OpQueue :=
  { segs := (List.range (min 8 (ctxNat s area (2416 + i) 1))).map fun j =>
      ctxSeg s area (16384 + 2048 * i + 256 * j) (2384 + 8 * i + j)
    runs := (runs.filter fun r => r.1 == i).map (·.2) }

/-- The forwarding stores with their data as the extension holds it (R380). -/
def ctxSplice (s : State) (area : Nat) (p : Splice) : Splice :=
  let seg (i g : Nat) (e : Nat × (Nat × SegBits × Bool)) : Nat × SegBits × Bool :=
    (e.2.1, BitVec.ofNat 2048 (ctxNat s area (24832 + 4096 * i + 2048 * g + 256 * e.1) 256), e.2.2.2)
  let gen (i : Nat) (e : Nat × Generation) : Generation :=
    { e.2 with segs := (e.2.segs.zipIdx.map fun x => (x.2, x.1)).map (seg i e.1) }
  let pair (e : Nat × FwdPair) : FwdPair :=
    { e.2 with gens := (e.2.gens.zipIdx.map fun x => (x.2, x.1)).map (gen e.1) }
  { p with pairs := (p.pairs.zipIdx.map fun x => (x.2, x.1)).map pair }

/-- A stream restarted at its record (R376, R38): its line, slot, sequence number, run state and steer queue. -/
def ctxStream (s : State) (c area : Nat) (sides : List Bool) (st : StreamId) : Stream :=
  let n := streamNum st
  let seq := BitVec.ofNat 32 (ctxNat s area (16 + 4 * n) 4)
  let addr := ctxDword s area (40 + 8 * n)
  let slot := ctxNat s area (80 + n) 1
  let rs : RunState := match ctxNat s area (85 + n) 1 with
    | 1 => .run
    | 2 => .ended
    | _ => .idle
  let k := coreAt s c
  let fused := k.fusedNow
  let idx := lineIndex s c addr
  let side := if rs == .run && slot != 0 then lineSide k idx else sides.getD n false
  let other := BitVec.ofNat 32 (if fused then ctxNat s area (24576 + 4 * n) 4 else 0)
  let next : NextLine := if rs != .run then .none else if slot = 0 then .steered
    else if slot = 1 then .at idx else .resume ⟨idx, addr, slot, seq, side⟩
  let steer := if st = .c then [] else
    let at_ := 288 + 40 * (n - 1)
    (List.range (min 8 (ctxNat s area at_ 1))).map fun j => BitVec.ofNat 24 (ctxNat s area (at_ + 8 + 4 * j) 4)
  { Stream.reset with run := rs, next := next, seq := if side then other else seq, seqB := if side then seq else other, side := side, steer := steer }

/-- The registers of a context, but for VBANK, handles, queues and streams. -/
def ctxRegs (s : State) (area : Nat) (k : Core) : Core :=
  let dw (off : Nat) : Dword := ctxDword s area off
  let st := ctxNat s area 832 8
  { k with
    g := .ofFn fun i : Fin 32 => if i.val = 0 then 0 else dw (512 + 8 * i.val)
    b := .ofFn fun i : Fin 8 => BitVec.ofNat 28 (ctxNat s area (768 + 8 * i.val) 8)
    d := .ofFn fun i : Fin 16 => BitVec.ofNat 256 (ctxNat s area (1024 + 32 * i.val) 32)
    p := .ofFn fun i : Fin 4 => .ofFn fun j : Fin 16 => dw (1536 + 128 * i.val + 8 * j.val)
    k := .ofFn fun i : Fin 4 => dw (2048 + 8 * i.val)
    v := .ofFn fun i : Fin 32 => ctxSeg s area (4096 + 256 * i.val) (2336 + i.val)
    h := .ofFn fun i : Fin 16 => ctxSeg s area (12288 + 256 * i.val) (2368 + i.val)
    w := .ofFn fun i : Fin 2 => ctxPlane s area i.val
    z := .ofFn fun i : Fin 2 => ctxTile s area i.val
    fifo := .ofFn fun i : Fin 20 => BitVec.ofNat 4 (ctxNat s area (128 + i.val) 1)
    cc := .ofFn fun i : Fin 8 => BitVec.ofNat 8 (ctxNat s area (448 + 2 * i.val) 2)
    wcfg := (match decode .w ((List.range 2).map fun i => BitVec.ofNat 32 (ctxNat s area (888 + 4 * i) 4)) with
      | .ok (.wcfg _ f) => ⟨f.mode, f.ovf, f.chk, f.cbh, f.lag, f.skip⟩
      | _ => WCfg.zero)
    row0 := BitVec.ofNat 32 (ctxNat s area 896 4)
    sr := { k.sr with sat := bit st 15, peerlost := bit st 14, mode := 0, seed := dw 840, lagcnt := dw 848, ovfcnt := dw 856
                      skipcnt := dw 864, confcnt := dw 872, bopenid := dw 904 } }

/-- A context restored on its core, VBANK last (R376, R381). -/
def restoreContext (s : State) (c : Nat) (x : SavedOp) : State :=
  let area := x.area
  let s1 := changeDomain s c x.asid
  let s2 := modCore s1 c fun k => { ctxRegs s area k with
    op := some x.op, version := x.version, splice := x.splice.map (ctxSplice s area), block := none, phaseArrived := false
    moveTo := none, saved := dropFirst (· == x) k.saved, pbrSeq := [], stall := 0, planeLoad := none, flow := none }
  let s3 := (List.range 16).foldl (fun s h => restoreCb s area c h) s2
  let runs := ctxRuns s3 area c (List.range 16) x.fwd
  let left := ctxNat s area 900 1
  let s4 := modCore s3 c fun k => { k with
    q := .ofFn fun i : Fin 4 => ctxQueue s3 area runs i.val
    streams := .ofFn fun i : Fin 5 => ctxStream s3 c area x.sides (streamOf i.val)
    leaseLeft := left, wantLease := if left = 0 then none else some left
    banks := .replicate 4 .none, landing := []
    sr := { k.sr with verify := x.verify, vbank := BitVec.ofNat 8 (ctxNat s area 880 1) } }
  bindCore s4 c (x.op.stage.map fun i => (x.op.rid, i))

/-- The first check granule of a context that holds an uncorrectable error (R374). -/
def contextFlaw (s : State) (area : Nat) : Option Nat := s.bad.find? fun g => area ≤ g && g < area + contextSize

/-- A saved context may be resumed: its region still stands (R329, R347). -/
def mayResume (s : State) (x : SavedOp) : Bool := ((regionAt s x.op.rid).map fun r => !r.dead).getD false

/-- A saved context resumed (R376). An error in it is a machine check (R374). -/
def resumeSaved (s : State) (c : Nat) (x : SavedOp) : State :=
  match contextFlaw s x.area with
  | some g => machineCheck (modCore s c fun k => { k with op := some x.op, saved := dropFirst (· == x) k.saved }) c .context g
  | none => restoreContext s c x

/-- LAUNCH_BANK_SWAP_IN: on a core without an operator the context saved last is resumed (R376), when the bank was full at its
cut or is empty now; otherwise the launch in the bank starts (R340). -/
def execLaunchBankSwapIn (s : State) : Out :=
  let c := s.cur.core.val
  let k := coreAt s c
  if k.op.isSome || k.stopped then .next s
  else
    match k.saved.find? (mayResume s), k.shadow with
    | some x, none => .next (resumeSaved s c x)
    | some x, some l => .next (if x.bankKept then resumeSaved s c x else loadSplice (swapIn s c l) c l)
    | none, some l => .next (loadSplice (swapIn s c l) c l)
    | none, none => .next s

/-! Machine checks (R374). -/

/-- MACHINE_CHECK at a core that runs an operator. -/
def execMachineCheck (kind : McheckKind) (pa : Nat) (s : State) : Out :=
  let c := s.cur.core.val
  if (coreAt s c).op.isSome && !(coreAt s c).stopped then .next (machineCheck s c kind pa) else .next s

/-! Invalidation of translations (R389). -/

/-- The entries an invalidation covers: KIND 0 the page of VA under ASID and global entries of VA, 1 the ASID's, 2 every
non-global one, 3 every one. -/
def invCovers (kind : Nat) (asid : BitVec 11) (va : Dword) (t : TlbEntry) : Bool :=
  match kind with
  | 0 => t.base == va.toNat / 2 ^ t.log2 && (pteG t.leaf || t.asid == asid)
  | 1 => !pteG t.leaf && t.asid == asid
  | 2 => !pteG t.leaf
  | _ => true

/-- Covered entries removed from every TLB of the chip. -/
def invalidate (s : State) (kind : Nat) (asid : BitVec 11) (va : Dword) : State :=
  let keep (l : List TlbEntry) : List TlbEntry := l.filter fun t => !invCovers kind asid va t
  { s with cores := s.cores.map fun k => { k with tlb := keep k.tlb }
           clusters := s.clusters.map fun x => { x with tlb := keep x.tlb }
           dies := s.dies.map fun d => { d with tlb := keep d.tlb } }

def fnAt (s : State) (fn : Nat) : HostFn := vget s.fns fn HostFn.reset
def modFn (s : State) (fn : Nat) (f : HostFn → HostFn) : State := { s with fns := vmod s.fns fn f }

/-- An ASID lies in the range Gheah has given a function; a PF may name any (R357, R389). -/
def asidAllowed (s : State) (fn asid : Nat) : Bool :=
  fn == 0 || ((fnAt s fn).asidLo ≤ asid && asid < (fnAt s fn).asidHi)

/-- The number by which Gheah's own invalidation block is named (R389). -/
def gheahFn : Nat := 64

def invAt (s : State) (fn : Nat) : InvBlock := if fn = gheahFn then s.gheahInv else (fnAt s fn).inv
def modInv (s : State) (fn : Nat) (f : InvBlock → InvBlock) : State :=
  if fn = gheahFn then { s with gheahInv := f s.gheahInv } else modFn s fn fun h => { h with inv := f h.inv }

/-- INVC_GO: a write to INVC sets its fields, and with GO starts an invalidation unless one is in progress or a VF is
refused (R389). -/
def execInvcGo (fn : Nat) (v : BitVec 64) (s : State) : Out :=
  let x := v.toNat
  let asid := BitVec.ofNat 11 (bits x 16 11)
  let kind := BitVec.ofNat 2 (bits x 0 2)
  let denied := 1 ≤ fn && fn < gheahFn && (2 ≤ kind.toNat || !asidAllowed s fn asid.toNat)
  .next (modInv s fn fun b =>
    let b1 := { b with asid := asid, kind := kind }
    if bit x 31 && b.job.isNone then
      (if denied then { b1 with denied := true }
       else { b1 with job := some (kind, asid, b.inva), before := (s.bstores, s.rstores) })
    else b1)

/-- A store to a replicated line that was listed when an invalidation began is still on its way. -/
def sameStore (x y : RStore) : Bool :=
  y.core == x.core && y.st == x.st && y.entry == x.entry && y.pa == x.pa && y.bytes == x.bytes && y.ack == x.ack

/-- The accesses translated before a block's invalidation began have been performed (R389). -/
def invSettled (s : State) (fn : Nat) : Bool :=
  let b := invAt s fn
  b.before.1.all (fun x => !s.bstores.contains x) && b.before.2.all fun x => !s.rstores.any (sameStore x)

/-- INVALIDATION_COMPLETE: every access translated before it began has been performed, and every covered entry is gone (R389). -/
def execInvalidationComplete (fn : Nat) (s : State) : Out :=
  match (invAt s fn).job with
  | none => .next s
  | some (kind, asid, va) =>
    if invSettled s fn then
      .next (modInv (invalidate s kind.toNat asid va) fn fun b => { b with job := none, before := ([], []), count := b.count + 1 })
    else .next s

end Sys2Proof.Machine
end

