-- ==== Sys2Proof/Machine/Splicer.lean ====
section
/-! DEFINITION. The splicer (10 R262 to R277): the reading of two images, the form of a marked kernel, the resources that
instructions name, their renumbering, forwarding pairs, and the fused operator with its splice map. -/

namespace Sys2Proof.Machine

/-! Resources that an instruction names, by the place of the field that names them. -/

/-- Kinds of renumbered resource (R270); p registers are those of one engine stream. -/
inductive RKind where
  | g | b | d | q | cc | v | cb | z
  | p (st : StreamId)
deriving DecidableEq, Repr

/-- A field that names a resource: kind, word, low bit, width, and how many consecutive registers it reaches. -/
structure RField where
  kind : RKind
  word : Nat
  lo : Nat
  width : Nat
  run : Nat
deriving DecidableEq, Repr

def wordAt (ws : List Word) (i : Nat) : Nat := (ws.getD i 0).toNat
def opcOf (ws : List Word) : Nat := bits (wordAt ws 0) 24 8
def RField.value (f : RField) (ws : List Word) : Nat := bits (wordAt ws f.word) f.lo f.width
def one (k : RKind) (word lo width : Nat) : RField := ⟨k, word, lo, width, 1⟩

/-- The registers that a field reaches. -/
def RField.names (f : RField) (ws : List Word) : List Nat :=
  (List.range f.run).map fun i => if f.kind = .v then (f.value ws + i) % 32 else f.value ws + i

/-- Word 3 of R149. -/
def longFields (ws : List Word) : List RField :=
  if ws.length < 4 then []
  else (if bit (wordAt ws 3) 31 then [one .cb 3 27 4] else []) ++ (if bit (wordAt ws 3) 14 then [one .cc 3 11 3] else [])

/-- The control map (R50, R104 to R137). A field that an instruction does not use is zero, and so names g0. -/
def controlFields (i : Instr) : List RField :=
  let a := one .g 0 10 5
  let b := one .g 0 5 5
  let c := one .g 0 0 5
  match i with
  | .fence .. | .xfence .. | .phase .. | .babort .. | .fork .. | .rdv .. | .trap .. | .tret .. | .yield .. | .endOp ..
  | .hint .. | .hintLong .. | .steerImm .. | .nop .. => []
  | .sext .. | .zext .. => [a, b]
  | .dset .. => [one .d 0 10 4, b]
  | .pbr .. | .bra .. | .call .. => [one .b 0 10 3]
  | .pbrr .. | .br .. => [one .b 0 10 3, b]
  | .steer .. => [b]
  | .earg _ e _ _ => [one (.p (engineOf e)) 0 0 4, b]
  | .waitcc .. => [one .cc 0 10 3]
  | .cbset .. => [one .cb 0 10 4]
  | .cbwait .. | .cbadv .. => [one .cb 0 10 4, c]
  | .mfs .. | .mts .. => [a]
  | _ => [a, b, c]

/-- An operand field of a vector instruction that is used: word, low bit, and registers reached (R139, R164, R270). -/
structure VOperand where
  word : Nat
  lo : Nat
  run : Nat
deriving DecidableEq, Repr

/-- Opcodes that use B, and C (R157 to R172). -/
def usesB (opc : Nat) : Bool :=
  [0x10, 0x11, 0x12, 0x13, 0x14, 0x15, 0x18, 0x19, 0x1A, 0x1B, 0x1C, 0x1D, 0x20, 0x21, 0x22, 0x34, 0x35, 0x40, 0x42, 0x43,
   0x44].contains opc
def usesC (opc : Nat) : Bool := [0x13, 0x21, 0x22, 0x44].contains opc

/-- The used source operands of a vector instruction. -/
def vectorOperands (ws : List Word) : List VOperand :=
  let w1 := wordAt ws 1
  let count := bits w1 20 12
  let run (advance : Nat) : Nat := if 2 ≤ ws.length ∧ bit w1 advance then max 1 (min count 32) else 1
  let stream (advance : Nat) : Nat := if 2 ≤ ws.length ∧ bit w1 advance then 32 else 1
  match opcOf ws with
  | 0x01 | 0x06 => []
  | 0x02 => [⟨0, 10, run 19⟩]
  | 0x03 => [⟨0, 10, stream 6⟩] ++ (if bit w1 3 then [⟨1, 14, run 4⟩] else [])
  | 0x04 => [⟨0, 10, run 6⟩, ⟨0, 4, stream 5⟩] ++ (if bit w1 3 then [⟨1, 14, run 4⟩] else [])
  | 0x23 => [⟨0, 10, stream 6⟩]
  | 0x24 => [⟨0, 10, stream 6⟩] ++ (if bits w1 14 5 = 20 then [⟨0, 4, run 5⟩] else [])
  | opc =>
    if 0xF0 ≤ opc then []
    else [⟨0, 10, run 6⟩] ++ (if usesB opc then [⟨0, 4, run 5⟩] else [])
      ++ (if usesC opc ∧ 2 ≤ ws.length then [⟨1, 14, run 4⟩] else [])

def VOperand.code (o : VOperand) (ws : List Word) : Nat := bits (wordAt ws o.word) o.lo 6

/-- A source code names a v register, an age-queue entry or a q (R138). -/
def operandField (ws : List Word) (o : VOperand) : List RField :=
  let x := o.code ws
  if x < 32 then [⟨.v, o.word, o.lo, 5, o.run⟩] else if 48 ≤ x then [⟨.q, o.word, o.lo, 2, 1⟩] else []

/-- The age-queue entries that a vector instruction reads. -/
def agesRead (ws : List Word) : List Nat :=
  let x := ((vectorOperands ws).map fun o => o.code ws).filter fun x => 32 ≤ x && x < 48
  x.map (· - 32) ++ (if usesC (opcOf ws) && ws.length == 1 then [0] else [])

/-- Results that a vector instruction pushes (R144, R169). -/
def pushes (ws : List Word) : Nat :=
  let count := if ws.length = 1 then 1 else bits (wordAt ws 1) 20 12
  match opcOf ws with
  | 0x01 | 0x02 | 0x04 => 0
  | 0x06 => 1
  | 0x40 => 2 * count
  | opc => if 0xF0 ≤ opc then 0 else count

/-- The vector map (R52). -/
def vectorFields (ws : List Word) : List RField :=
  let w1 := wordAt ws 1
  let p (lo : Nat) : RField := one (.p .v) 0 lo 4
  let dest : List RField :=
    if 2 ≤ ws.length ∧ bit w1 8 then [⟨.v, 1, 9, 5, if bit w1 7 then max 1 (min (bits w1 20 12) 32) else 1⟩] else []
  let sources := (vectorOperands ws).flatMap (operandField ws)
  match opcOf ws with
  | 0x01 => [one .q 0 14 2, one .d 0 10 4, p 6] ++ longFields ws
  | 0x02 => sources ++ [one .d 0 6 4, p 2] ++ longFields ws
  | 0x03 => sources ++ [one .d 0 6 4, p 2] ++ dest
  | 0x04 => sources ++ [one .d 0 0 4, one (.p .v) 1 10 4] ++ (if bit (wordAt ws 3) 14 then [one .cc 3 11 3] else [])
  | 0x06 => if bit (wordAt ws 0) 5 then [one .v 0 6 5] else []
  | opc => if 0xF0 ≤ opc then [] else sources ++ dest

/-- The walker map (R51). -/
def walkerFields (i : Instr) (ws : List Word) : List RField :=
  match i with
  | .wcfg _ f => if f.mode then [one .cb 0 9 4] else []
  | .wbmap .. | .wcoord .. | .wdense .. =>
    [one .d 0 12 4, one .d 0 8 4] ++ (if bit (wordAt ws 1) 3 then [one .cc 1 0 3] else [])
  | .wmark .. => [one (.p .w) 0 12 4]
  | _ => []

/-- The matrix map (R53). -/
def matrixFields (i : Instr) (ws : List Word) : List RField :=
  let z := one .z 0 15 1
  let dp := [one .d 0 11 4, one (.p .m) 0 7 4]
  match i with
  | .mcfg .. | .mzero .. => [z]
  | .mlds .. => dp
  | .mldsLong .. => dp ++ longFields ws
  | .mstr .. | .mdrnLong .. => z :: dp ++ longFields ws
  | .mconv .. => z :: dp ++ (if bit (wordAt ws 3) 14 then [one .cc 3 11 3] else [])
  | .mdrn .. => z :: dp
  | .mspr .. => z :: (if bit (wordAt ws 1) 3 then [one .cc 1 0 3] else [])
  | _ => []

/-- Registers of a copy instruction's run of p registers (R208). -/
def parameterRun (opc : Nat) : Nat :=
  match opc with
  | 0x01 | 0x03 | 0x04 | 0x10 => 3
  | 0x06 | 0x12 => 1
  | 0x21 => 4
  | _ => 2

/-- The copy map (R54, R207, R208). -/
def copyFields (ws : List Word) : List RField :=
  let opc := opcOf ws
  if 0xF0 ≤ opc then []
  else
    (if opc = 0x05 then [] else [one .d 0 12 4]) ++ (if opc = 0x06 ∨ opc = 0x12 then [] else [one .d 0 8 4])
      ++ [⟨.p .k, 0, 4, 4, parameterRun opc⟩] ++ (if bit (wordAt ws 1) 9 then [one .cc 1 6 3] else [])
      ++ (if opc = 0x03 ∨ opc = 0x04 then [one .d 2 28 4] else [])
      ++ (if bit (wordAt ws 3) 25 then [one .cb 3 20 4] else [])

def fieldsOf (st : StreamId) (i : Instr) (ws : List Word) : List RField :=
  match st with
  | .c => controlFields i
  | .w => walkerFields i ws
  | .v => vectorFields ws
  | .m => matrixFields i ws
  | .k => copyFields ws

/-! Images and their lines. -/

/-- A splice mark (R65). -/
structure Mark where
  head : Nat
  trips : Nat
  step : Nat
  cb : Nat
  fmt : Nat
  flags : Nat
deriving DecidableEq, Repr

def markAt (h : List Byte) (i : Nat) : Mark :=
  ⟨field h i 3, field h (i + 4) 4, field h (i + 8) 4, field h (i + 12) 1, field h (i + 13) 1, field h (i + 14) 1⟩

/-- An instruction as it stands in a line. -/
structure Placed where
  line : Nat
  slot : Nat
  st : StreamId
  instr : Instr
  words : List Word
deriving DecidableEq, Repr

/-- One kernel of a pair: its image, header, and the code lines reached (R262). -/
structure Kernel where
  base : Dword
  header : List Byte
  mark : Mark
  lines : List (Nat × StreamId × List Word)
deriving DecidableEq, Repr

def Kernel.declared (k : Kernel) (at_ n : Nat) : Nat := field k.header at_ n
def Kernel.centry (k : Kernel) : Nat := field k.header 12 4
def Kernel.nlines (k : Kernel) : Nat := field k.header 8 4
def Kernel.line (k : Kernel) (i : Nat) : Option (StreamId × List Word) := kget k.lines i

def linkOf (ws : List Word) : Nat := wordAt ws 0
def linkOwner (ws : List Word) : Nat := bits (linkOf ws) 29 3
def linkS (ws : List Word) : Bool := bit (linkOf ws) 28
def linkE (ws : List Word) : Bool := bit (linkOf ws) 27
def linkL (ws : List Word) : Bool := bit (linkOf ws) 26
def linkNext (ws : List Word) : Nat := bits (linkOf ws) 0 24

/-- The instructions of a line from a slot on, none where a word would be refused (R44, R47). -/
def lineInstrs (line : Nat) (st : StreamId) (ws : List Word) : Nat → Nat → Option (List Placed)
  | 0, _ => some []
  | fuel + 1, n =>
    if 16 ≤ n then some []
    else if ws.getD n 0 = 0 then lineInstrs line st ws fuel (n + 1)
    else
      let len := lengthOf (ws.drop n)
      if 16 < n + len then none
      else match decode st (ws.drop n) with
        | .error _ => none
        | .ok i => (lineInstrs line st ws fuel (n + len)).map (⟨line, n, st, i, (ws.drop n).take len⟩ :: ·)

def Kernel.instrsOf (k : Kernel) (i : Nat) : Option (List Placed) :=
  (k.line i).bind fun l => lineInstrs i l.1 l.2 16 1

/-- Every instruction of the kernel, by line and slot. -/
def Kernel.instrs (k : Kernel) : Option (List Placed) :=
  k.lines.foldr (fun l r => (lineInstrs l.1 l.2.1 l.2.2 16 1).bind fun a => r.map (a ++ ·)) (some [])

/-- The lines that an instruction starts or steers a stream to. -/
def startsLines (i : Instr) : List (StreamId × Nat) :=
  match i with
  | .fork _ line mask => ((List.range 4).filter fun n => mask.getLsbD n).map fun n => (streamOf (n + 1), line.toNat)
  | .steerImm _ e line => [(engineOf e, line.toNat)]
  | _ => []

/-- A line read with the checks of a fetch (R262). -/
def spliceRead (asid : BitVec 11) (base : Dword) (i : Nat) : X (List Word) := do
  let xs ← frontRead asid false .fetch (base + BitVec.ofNat 64 (64 * i)) 64
  pure (lineWords 16 xs)

/-- The lines that an instruction of the control stream leads to, branch targets included. -/
def leadsTo (i : Instr) : List (StreamId × Nat) :=
  match i with
  | .pbr _ _ target => [(.c, target.toNat % 2 ^ 24)]
  | _ => startsLines i

/-- The code lines of an image of `nlines` lines that are reached from a list of starts, each with the stream that reaches it;
it stops at one that cannot be read (R262). The fuel is more than any image needs. -/
def reachLines (asid : BitVec 11) (base : Dword) (nlines : Nat) :
    Nat → List (StreamId × Nat) → List (Nat × StreamId × List Word) → X (List (Nat × StreamId × List Word))
  | _, [], acc => pure acc
  | 0, _ :: _, _ => fail .fetch base
  | fuel + 1, (st, i) :: todo, acc =>
    if i < 4 || nlines ≤ i || acc.any fun l => l.1 == i && l.2.1 == st then reachLines asid base nlines fuel todo acc
    else do
      let ws ← spliceRead asid base i
      let next := if linkS ws || linkE ws then [] else [(st, linkNext ws)]
      let started := ((lineInstrs i st ws 16 1).getD []).flatMap fun p => if st = .c then leadsTo p.instr else []
      reachLines asid base nlines fuel (todo ++ next ++ started) (acc ++ [(i, st, ws)])

/-! The form of a marked kernel (R264, R265). -/

/-- The parts of a control chain. -/
structure Parts where
  prologue : List Nat
  loop : List Nat
  epilogue : List Nat
deriving DecidableEq, Repr

/-- The control chain from a line by NEXT to the line with E = 1. -/
def controlChain (k : Kernel) : Nat → Nat → List Nat → Option (List Nat)
  | 0, _, _ => none
  | fuel + 1, i, seen =>
    match k.line i with
    | none => none
    | some (_, ws) =>
      if seen.contains i || linkS ws then none
      else if linkE ws then some (seen ++ [i])
      else controlChain k fuel (linkNext ws) (seen ++ [i])

/-- The last instruction of a line before any PAD. -/
def Kernel.lastOf (k : Kernel) (i : Nat) : Option Placed := (k.instrsOf i).bind (·.getLast?)

def isBr (p : Placed) : Bool := match p.instr with
  | .br .. => true
  | _ => false
def isEnd (p : Placed) : Bool := match p.instr with
  | .endOp .. => true
  | _ => false

/-- The chain cut into its parts. -/
def partsOfChain (k : Kernel) (chain : List Nat) : Option Parts :=
  match chain.findIdx? (· == k.mark.head) with
  | none => none
  | some h =>
    let rest := chain.drop h
    match rest.findIdx? fun i => ((k.lastOf i).map isBr).getD false with
    | none => none
    | some n => some ⟨chain.take h, rest.take (n + 1), rest.drop (n + 1)⟩

/-- Which parts an instruction may stand in: prologue, loop, epilogue; other streams' lines count as none of them (R265). -/
def allowedIn (i : Instr) : Bool × Bool × Bool :=
  match i with
  | .fork _ _ mask => (popCount 4 mask.toNat == 1, false, false)
  | .rdv .. => (false, false, true)
  | .item .. => (true, false, false)
  | .emit .. => (false, false, true)
  | .endOp .. => (false, false, true)
  | .phase .. | .bopen .. | .bseal .. | .babort .. => (true, false, true)
  | .call .. | .pbrr .. | .steer .. | .yield .. | .tret .. => (false, false, false)
  | .mts _ _ n => let ok := n.toNat != 7 && n.toNat != 5; (ok, ok, ok)
  | _ => (true, true, true)

def inPart (f : Bool × Bool × Bool → Bool) (k : Kernel) (lines : List Nat) : Bool :=
  lines.all fun i => ((k.instrsOf i).getD []).all fun p => f (allowedIn p.instr)

def countIn (k : Kernel) (lines : List Nat) (f : Instr → Bool) : Nat :=
  ((lines.flatMap fun i => (k.instrsOf i).getD []).filter fun p => f p.instr).length

def isItem (i : Instr) : Bool := match i with
  | .item .. => true
  | _ => false
def isEmit (i : Instr) : Bool := match i with
  | .emit .. => true
  | _ => false
def isEndOp (i : Instr) : Bool := match i with
  | .endOp .. => true
  | _ => false

/-- The branch register of the closing branch. -/
def closingB (k : Kernel) (x : Parts) : Option Nat :=
  (x.loop.getLast?.bind k.lastOf).bind fun p => match p.instr with
    | .br _ n _ _ => some n.toNat
    | _ => none

/-- The PBRs of a kernel. -/
def pbrs (all : List Placed) : List (Placed × Nat × Nat) :=
  all.filterMap fun p => match p.instr with
    | .pbr _ n target => some (p, n.toNat, target.toNat)
    | _ => none

/-- Line and slot of a PBR target (R26). -/
def targetLine (t : Nat) : Nat := t % 2 ^ 24
def targetSlot (t : Nat) : Nat := t / 2 ^ 24

/-- The conditions of R264 and R265 on a kernel. -/
def formOk (k : Kernel) (chain : List Nat) (x : Parts) (all : List Placed) : Bool :=
  let ctl := chain
  let owners := k.lines.all fun l => linkOwner l.2.2 == streamNum l.2.1
  let single := k.lines.all fun l => !k.lines.any fun m => m.1 == l.1 && m.2.1 != l.2.1
  let links := k.lines.all fun l => bits (linkOf l.2.2) 24 2 == 0 && !(linkS l.2.2 && linkE l.2.2)
  let closing := match closingB k x with
    | none => false
    | some n =>
      let writers := (pbrs all).filter fun p => p.2.1 == n
      writers.length == 1 && writers.all fun p =>
        x.prologue.contains p.1.line && targetLine p.2.2 == k.mark.head && targetSlot p.2.2 == 1
  let has (e : StreamId × Nat) : Bool := k.lines.any fun l => l.1 == e.2 && l.2.1 == e.1
  let started := all.all fun p => (startsLines p.instr).all has
  let followed := k.lines.all fun l => linkS l.2.2 || linkE l.2.2 || has (l.2.1, linkNext l.2.2)
  let targets := (pbrs all).all fun p =>
    ctl.contains (targetLine p.2.2)
      && ((k.instrsOf (targetLine p.2.2)).getD []).any fun q => q.slot == targetSlot p.2.2
  owners && single && links && started && followed && closing && targets
    && (k.lines.all fun l => l.2.1 != .c || ctl.contains l.1)
    && ((chain.getLast?.bind k.lastOf).map isEnd).getD false
    && countIn k chain isEndOp == 1 && countIn k chain isItem ≤ 1 && countIn k chain isEmit ≤ 1
    && inPart (·.1) k x.prologue && inPart (·.2.1) k x.loop && inPart (·.2.2) k x.epilogue
    && all.all fun p => p.instr.wf

/-! Declarations (R67). -/

/-- The kernel holds an MCFG with the pair FP32 × FP32 (R185). -/
def fp32Pair (all : List Placed) : Bool :=
  all.any fun p => match p.instr with
    | .mcfg .. => bits (wordAt p.words 1) 5 5 == 1 && bits (wordAt p.words 1) 0 5 == 1
    | _ => false

/-- The planes that an instruction names, by the static rule of R185. -/
def planesOf (fp32 : Bool) (p : Placed) : List Nat :=
  match p.instr with
  | .mlds _ f => if f.pln = 0 ∧ fp32 then [0, 1] else [f.pln.toNat]
  | .mldsLong _ f _ => if f.pln = 0 ∧ fp32 then [0, 1] else [f.pln.toNat]
  | .mswap .. => [0, 1]
  | .mstr .. | .mconv .. => if fp32 then [0, 1] else [0]
  | _ => []

def Placed.fields (p : Placed) : List RField := fieldsOf p.st p.instr p.words

/-- Numbers that an instruction names of a kind. -/
def Placed.named (p : Placed) (k : RKind) : List Nat := (p.fields.filter fun f => f.kind == k).flatMap fun f => f.names p.words

/-- Token FIFOs of an instruction. -/
def Placed.fifos (p : Placed) : List Nat :=
  let y := syncOf (p.words.getD 0 0)
  (if y.pop then [popFifo p.st y] else []) ++ (if y.push then [pushFifo p.st y.pdst] else [])

/-- Every instruction keeps to its kernel's declaration (R67). -/
def declOk (k : Kernel) (all : List Placed) : Bool :=
  let within (mask : Nat) (l : List Nat) : Bool := l.all fun n => bit mask n
  all.all fun p =>
    within (k.declared 32 4) (p.named .v) && within (k.declared 36 4) p.fifos && within (k.declared 40 2) (p.named .cb)
      && within (k.declared 42 1) (p.named .cc) && within (k.declared 43 1) (p.named .z)
      && within (k.declared 43 1) ((planesOf (fp32Pair all) p).map (· + 2))

/-! Renumbering (R270). -/

/-- A map of the consumer's numbers of one kind. -/
abbrev Renames := List (Nat × Nat)

/-- Consumer numbers, ascending, each to the lowest number not taken. -/
def assign (limit : Nat) : List Nat → List Nat → Renames → Option Renames
  | [], _, acc => some acc
  | n :: rest, taken, acc =>
    match (List.range limit).find? fun m => !taken.contains m with
    | none => none
    | some m => assign limit rest (m :: taken) (acc ++ [(n, m)])

def maskList (mask n : Nat) : List Nat := (List.range n).filter fun i => bit mask i

/-- The numbers of a kind named in a kernel, ascending. -/
def scanned (all : List Placed) (k : RKind) (n : Nat) : List Nat :=
  let l := all.flatMap fun p => p.named k
  (List.range n).filter fun i => l.contains i

/-- Every consumer number moved by one δ. -/
def shift (f : Nat → Nat → Nat) (deltas : Nat) (ok : Nat → Bool) (producer consumer : List Nat) : Option Nat :=
  (List.range deltas).find? fun d => consumer.all fun n => ok (f n d) && !producer.contains (f n d)

/-- All the renames of a consumer. -/
structure Renaming where
  g : Renames
  b : Renames
  d : Renames
  q : Renames
  cc : Renames
  cb : Renames
  z : Renames
  v : Nat
  p : List (StreamId × Nat)
deriving DecidableEq, Repr

def lookup (r : Renames) (n : Nat) : Nat := (kget r n).getD n

def Renaming.apply (r : Renaming) (k : RKind) (n : Nat) : Nat :=
  match k with
  | .g => if n = 0 then 0 else lookup r.g n
  | .b => lookup r.b n
  | .d => lookup r.d n
  | .q => lookup r.q n
  | .cc => lookup r.cc n
  | .cb => lookup r.cb n
  | .z => lookup r.z n
  | .v => (n + r.v) % 32
  | .p st => n + ((r.p.find? fun e => e.1 == st).map (·.2)).getD 0

/-- A field of a word replaced. -/
def putBits (w : Word) (lo n x : Nat) : Word :=
  BitVec.ofNat 32 (w.toNat - bits w.toNat lo n * 2 ^ lo + x % 2 ^ n * 2 ^ lo)

def renameWords (r : Renaming) (p : Placed) : List Word :=
  p.fields.foldl (fun (ws : List Word) (f : RField) =>
    ws.modify f.word fun w => putBits w f.lo f.width (r.apply f.kind (f.value p.words))) p.words

/-- A handle that a kernel sets shared. -/
def setsShared (all : List Placed) : List Nat :=
  all.filterMap fun p => match p.instr with
    | .cbset _ h f => if f.shr then some h.toNat else none
    | _ => none

/-- k.p15 named by a CKW write-out (R227). -/
def writesOut (all : List Placed) : Bool :=
  all.any fun p => p.st == .k && opcOf p.words < 0xF0 && bit (wordAt p.words 3) 7

def usesChains (all : List Placed) : Bool :=
  all.any fun p => p.st == .k && opcOf p.words < 0xF0 && bits (wordAt p.words 3) 30 2 != 0

def engines : List StreamId := [.w, .v, .m, .k]

/-- p registers that a kernel names in a stream, CKW's included. -/
def paramsOf (all : List Placed) (st : StreamId) : List Nat :=
  let l := scanned all (.p st) 16
  if st = .k ∧ writesOut all ∧ !l.contains 15 then l ++ [15] else l

/-- The handles: CMARK.CB becomes PMARK.CB, the others take the lowest free numbers. -/
def handles (p c : Kernel) : Option Renames :=
  let used := maskList (p.declared 40 2) 16
  let taken := if used.contains p.mark.cb then used else p.mark.cb :: used
  assign 16 ((maskList (c.declared 40 2) 16).filter (· != c.mark.cb)) taken [(c.mark.cb, p.mark.cb)]

/-- The δ of every engine stream. -/
def paramShifts (pa ca : List Placed) : List StreamId → Option (List (StreamId × Nat))
  | [] => some []
  | st :: rest =>
    match shift (· + ·) 16 (· < 16) (paramsOf pa st) (paramsOf ca st) with
    | none => none
    | some d => (paramShifts pa ca rest).map ((st, d) :: ·)

/-- The renaming, or the first reason against it in the order of R275. -/
def findRenaming (p c : Kernel) (pa ca : List Placed) : Except Nat Renaming :=
  let vs (k : Kernel) : List Nat := maskList (k.declared 32 4) 32
  let tiles (k : Kernel) : List Nat := maskList (k.declared 43 1) 2
  let planes (k : Kernel) : Nat := bits (k.declared 43 1) 2 2
  let cbs (k : Kernel) : List Nat := maskList (k.declared 40 2) 16
  let shared := (setsShared pa ++ setsShared ca).any fun h => (cbs p).contains h && (cbs c).contains h
  let sharedMark := (setsShared pa).contains p.mark.cb || (setsShared ca).contains c.mark.cb
  let low (k : RKind) (n : Nat) : Option Renames := assign n (scanned ca k n) (scanned pa k n) []
  match shift (fun n d => (n + d) % 32) 32 (fun _ => true) (vs p) (vs c) with
  | none => .error 6
  | some v =>
    match handles p c with
    | none => .error 7
    | some cb =>
      if shared || sharedMark then .error 7
      else match assign 2 (tiles c) (tiles p) [] with
        | none => .error 8
        | some z =>
          if planes p != 0 && planes c != 0 then .error 8
          else if p.declared 36 4 &&& c.declared 36 4 != 0 then .error 9
          else match assign 32 ((scanned ca .g 32).filter (· != 0)) (0 :: scanned pa .g 32) [] with
            | none => .error 10
            | some g =>
              match low .b 8, low .d 16, low .q 4,
                assign 8 (maskList (c.declared 42 1) 8) (maskList (p.declared 42 1) 8) [], paramShifts pa ca engines with
              | some b, some d, some q, some cc, some ps =>
                if writesOut ca && ps.any (fun e => e.1 == .k && e.2 != 0) then .error 11
                else if usesChains pa && usesChains ca then .error 12
                else .ok ⟨g, b, d, q, cc, cb, z, v, ps⟩
              | _, _, _, _, _ => .error 11

/-! The age queue (R271). -/

/-- The lines of a segment: from a line to the first with S = 1 or E = 1. -/
def segmentLines (k : Kernel) : Nat → Nat → List Nat
  | 0, _ => []
  | fuel + 1, i =>
    match k.line i with
    | none => []
    | some (_, ws) => if linkS ws || linkE ws then [i] else i :: segmentLines k fuel (linkNext ws)

def agesOk : List Placed → Nat → Bool
  | [], _ => true
  | p :: rest, n => (agesRead p.words).all (· < n) && agesOk rest (n + pushes p.words)

/-- Lines at which segments of a stream start: FORK lines, steered lines. -/
def entryLines (k : Kernel) (lines : List Nat) (st : StreamId) : List Nat :=
  ((lines.flatMap fun i => (k.instrsOf i).getD []).flatMap fun p => startsLines p.instr).filterMap fun e =>
    if e.1 = st then some e.2 else none

def ageOk (k : Kernel) (chain : List Nat) : Bool :=
  (entryLines k chain .v).all fun i =>
    agesOk ((segmentLines k k.lines.length i).flatMap fun n => (k.instrsOf n).getD []) 0

/-! Forwarding pairs (R272). -/

/-- The loop lines of an engine stream. -/
def loopLines (k : Kernel) (x : Parts) (st : StreamId) : List Nat :=
  let steered := ((x.loop.flatMap fun i => (k.instrsOf i).getD []).flatMap fun p => match p.instr with
    | .steerImm _ e line => if engineOf e = st then [line.toNat] else []
    | _ => [])
  (steered.flatMap (segmentLines k k.lines.length)).eraseDups

/-- The units of a writer or reader: COUNT, or NROW. -/
def unitsOfFwd (i : Instr) : Nat :=
  match i with
  | .vwrLong _ f _ => f.count.toNat
  | .mdrnLong _ f _ => f.nrow.toNat
  | .vrdLong _ f _ => f.count.toNat
  | _ => 0

/-- A VWR or MDRN of four words on the mark's ring, 256 apart, of 1 to 8 units; a VRD of the same shape. -/
def forwards (cb : Nat) (writer : Bool) (p : Placed) : Bool :=
  let units := unitsOfFwd p.instr
  let ring := bit (wordAt p.words 3) 31 && bits (wordAt p.words 3) 27 4 == cb && wordAt p.words 2 == 256
  p.words.length == 4 && ring && 1 ≤ units && units ≤ 8 && match p.instr with
    | .vwrLong .. | .mdrnLong .. => writer
    | .vrdLong .. => !writer
    | _ => false

def forwarders (k : Kernel) (x : Parts) (writer : Bool) (all : List Placed) : List Placed :=
  let lines := loopLines k x .v ++ loopLines k x .m
  let here := all.filter fun p => lines.contains p.line && forwards k.mark.cb writer p
  let lineOrder := (here.map (·.line)).eraseDups
  let sorted := lineOrder.foldl (fun (l : List Nat) (i : Nat) => l.takeWhile (· < i) ++ i :: l.dropWhile (· < i)) []
  sorted.flatMap fun i => here.filter fun p => p.line == i

/-! The fused operator (R266 to R268). -/

/-- A line of the splice buffer before it is relinked. -/
structure BufLine where
  side : Bool
  line : Nat
  st : StreamId
  words : List Word
deriving DecidableEq, Repr

/-- Engine lines of a kernel in ascending index. -/
def engineLines (k : Kernel) : List (Nat × StreamId × List Word) :=
  (k.lines.filter fun l => l.2.1 != .c).foldl
    (fun (a : List (Nat × StreamId × List Word)) (l : Nat × StreamId × List Word) =>
      a.takeWhile (fun e => e.1 < l.1) ++ l :: a.dropWhile (fun e => e.1 < l.1)) []

def bufferLines (p c : Kernel) (xp xc : Parts) : List BufLine :=
  let ctl (side : Bool) (k : Kernel) (l : List Nat) : List BufLine :=
    l.filterMap fun i => (k.line i).map fun e => ⟨side, i, e.1, e.2⟩
  let eng (side : Bool) (k : Kernel) : List BufLine := (engineLines k).map fun l => ⟨side, l.1, l.2.1, l.2.2⟩
  ctl false p xp.prologue ++ ctl true c xc.prologue ++ ctl false p xp.loop ++ ctl true c xc.loop
    ++ ctl false p xp.epilogue ++ ctl true c xc.epilogue ++ eng false p ++ eng true c

/-- The buffer index of a kernel's line. -/
def bufIndex (buf : List BufLine) (side : Bool) (line : Nat) : Nat := buf.findIdx fun b => b.side == side && b.line == line

/-- What the conversions need to know. -/
structure Fusion where
  buf : List BufLine
  ren : Renaming
  producerHead : Nat
  closing : Nat × Nat
  consumerB : Nat
  producerForks : List StreamId
  consumerForks : List StreamId
deriving DecidableEq, Repr

/-- A NOP with the sync field of a word. -/
def nopFor (w : Word) : Word := (encode (.nop ⟨syncOf w, false⟩)).getD 0 0

/-- The streams that a kernel forks. -/
def forked (all : List Placed) : List StreamId :=
  all.flatMap fun p => match p.instr with
    | .fork .. => (startsLines p.instr).map (·.1)
    | _ => []

/-- An instruction as it stands in the fused operator, and whether R267 converted it. -/
def fuse (x : Fusion) (side : Bool) (p : Placed) : List Word × Bool :=
  let ws := if side then renameWords x.ren p else p.words
  let w0 := ws.getD 0 0
  let idx (line : Nat) : Nat := bufIndex x.buf side line
  match p.instr with
  | .br .. => if !side && (p.line, p.slot) == x.closing then ([nopFor w0], true) else (ws, false)
  | .endOp .. => if side then (ws, false) else ([nopFor w0], true)
  | .rdv _ mask =>
    if side then (ws, false)
    else
      let kept := (List.range 4).filter fun n => mask.getLsbD n && !x.consumerForks.contains (streamOf (n + 1))
      let m := (kept.map fun n => 2 ^ n).sum
      (if m = 0 then [nopFor w0] else [putBits w0 0 4 m], true)
  | .fork m line mask =>
    let st := (startsLines p.instr).map (·.1)
    if side && st.any x.producerForks.contains then
      let e : BitVec 2 := BitVec.ofNat 2 (log2Floor mask.toNat)
      (encode (.steerImm m e (BitVec.ofNat 24 (idx line.toNat))), true)
    else (ws.modify 1 fun w => putBits w 0 24 (idx line.toNat), false)
  | .steerImm _ _ line => (ws.modify 1 fun w => putBits w 0 24 (idx line.toNat), false)
  | .pbr _ n target =>
    let goal := if side && n.toNat == x.consumerB then x.producerHead else idx (targetLine target.toNat)
    (ws.modify 1 fun w => putBits w 0 24 goal, false)
  | .item .. => (ws, side)
  | .emit .. => (ws, !side)
  | _ => (ws, false)

/-- The instructions put back into a line; PADs stay. -/
def fuseSlots (x : Fusion) (side : Bool) (ps : List Placed) (ws : List Word) : List Word :=
  ps.foldl (fun (ws : List Word) (p : Placed) =>
    let out := (fuse x side p).1
    ws.take p.slot ++ out ++ ws.drop (p.slot + out.length)) ws

/-- The new link word of buffer line `n` (R266, R268). -/
def fuseLink (x : Fusion) (nctl n : Nat) (b : BufLine) : Word :=
  let w := linkOf b.words
  let keep := bits w 29 3 * 2 ^ 29 + bits w 26 1 * 2 ^ 26
  if b.st = .c then
    if n + 1 = nctl then BitVec.ofNat 32 (keep + 2 ^ 27) else BitVec.ofNat 32 (keep + (n + 1))
  else
    let both := x.producerForks.contains b.st && x.consumerForks.contains b.st
    let s := linkS b.words || (!b.side && linkE b.words && both)
    let e := linkE b.words && !s
    BitVec.ofNat 32 (keep + (if s then 2 ^ 28 else 0) + (if e then 2 ^ 27 else 0)
      + (if s || e then 0 else bufIndex x.buf b.side (linkNext b.words)))

/-- A line of the splice buffer with its map entry (R266, R276). -/
def fuseLine (x : Fusion) (p c : Kernel) (nctl n : Nat) (b : BufLine) : List Word × SpliceEntry :=
  let k := if b.side then c else p
  let ps := (k.instrsOf b.line).getD []
  let conv := (ps.filterMap fun i => if (fuse x b.side i).2 then some (2 ^ (i.slot - 1)) else none).sum
  (fuseLink x nctl n b :: (fuseSlots x b.side ps b.words).drop 1,
   ⟨BitVec.ofNat 64 (field k.header 96 8), BitVec.ofNat 24 b.line, b.side, BitVec.ofNat 15 conv, k.base⟩)

/-! The attempt (R262, R263, R275). -/

/-- One kernel read: its lines, form and parts. -/
structure Reading where
  kernel : Kernel
  chain : List Nat
  parts : Parts
  all : List Placed
deriving DecidableEq, Repr

def readKernel (asid : BitVec 11) (base : Dword) (header : List Byte) (mark : Mark) : X Kernel := do
  let lines ← reachLines asid base (field header 8 4) (2 ^ 30) [(.c, field header 12 4), (.c, mark.head)] []
  pure ⟨base, header, mark, lines⟩

/-- Line and slot of the closing branch. -/
def closingAt (r : Reading) : Nat × Nat :=
  ((r.parts.loop.getLast?.bind r.kernel.lastOf).map fun p => (p.line, p.slot)).getD (0, 0)

/-- HEAD names a control-stream line with L = 1 (R263, R67). -/
def headOk (k : Kernel) : Bool :=
  k.lines.any fun l => l.1 == k.mark.head && linkOwner l.2.2 == 0 && linkL l.2.2

def readForm (k : Kernel) : Option Reading :=
  (controlChain k (k.lines.length + 1) k.centry []).bind fun chain =>
    (partsOfChain k chain).bind fun x =>
      k.instrs.bind fun all => if formOk k chain x all then some ⟨k, chain, x, all⟩ else none

/-- The fused operator, or the first reason of R275's table against it. -/
def buildSplice (p c : Kernel) : Except Nat Splice :=
  if !headOk p || !headOk c then .error 3
  else match readForm p, readForm c with
    | some rp, some rc =>
      if !declOk p rp.all || !declOk c rc.all then .error 5
      else match findRenaming p c rp.all rc.all with
        | .error e => .error e
        | .ok ren =>
          if !ageOk p rp.chain || !ageOk c rc.chain then .error 13
          else
            let ws := forwarders p rp.parts true rp.all
            let rs := forwarders c rc.parts false rc.all
            let pairs := ((ws.zip rs).take 4).filter fun e => unitsOfFwd e.1.instr == unitsOfFwd e.2.instr
            let transient := bit p.mark.flags 0
            let buf := bufferLines p c rp.parts rc.parts
            if transient && pairs.isEmpty then .error 14
            else if 1024 < buf.length then .error 15
            else
              let nctl := rp.chain.length + rc.chain.length
              let x : Fusion :=
                { buf := buf, ren := ren, producerHead := bufIndex buf false p.mark.head
                  closing := closingAt rp, consumerB := (closingB c rc.parts).getD 8
                  producerForks := forked rp.all, consumerForks := forked rc.all }
              let out := buf.mapIdx fun n b => fuseLine x p c nctl n b
              let pair (e : Placed × Placed) : FwdPair :=
                ⟨bufIndex buf false e.1.line, e.1.slot, bufIndex buf true e.2.line, e.2.slot, []⟩
              .ok ⟨out.map (·.1), out.map (·.2), pairs.map pair, transient, Tag.ofCode p.mark.fmt⟩
    | _, _ => .error 4

/-- The splice of stages with the given images, headers and core masks: built, or refused with a reason (R262, R263, R275),
with the state that the splicer's reads leave. -/
def trySplice (s : State) (asid : BitVec 11) (baseP baseC : Dword) (hp hc : List Byte) (sameCores : Bool) :
    Except Nat Splice × State :=
  let mp := markAt hp 48
  let mc := markAt hc 80
  let marked := bit (field hp 6 2) 0 && bit (field hc 6 2) 1
  if !marked || mp.trips != mc.trips || mp.step != mc.step || mp.fmt != mc.fmt || mc.flags != 0 then (.error 1, s)
  else if !sameCores then (.error 2, s)
  else
    let p := frontOutcome (readKernel asid baseP hp mp) s
    let c := frontOutcome (readKernel asid baseC hc mc) p.2
    match p.1, c.1 with
    | some kp, some kc => (buildSplice kp kc, c.2)
    | _, _ => (.error 16, c.2)

/-- The bytes of a splice-map entry (R276). -/
def entryBytes (e : SpliceEntry) : List Byte :=
  leBytes 8 e.kernid.toNat ++ leBytes 4 e.line.toNat ++ leBytes 1 (if e.side then 1 else 0)
    ++ leBytes 1 (e.conv.toNat % 2 ^ 7) ++ leBytes 1 (e.conv.toNat / 2 ^ 7) ++ leBytes 1 0

def mapBytes (x : Splice) : List Byte := x.map.flatMap entryBytes

end Sys2Proof.Machine
end

