-- ==== Sys2Proof/Machine/Graph.lean ====
section
/-! DEFINITION. Resident graphs (R337 to R341): triggers, the six node kinds, the launches of plain operators through shadow
banks (R340) and the binding of stages with their splices (R330, R262). -/

namespace Sys2Proof.Machine

/-! Runs (R338, R341). -/

/-- A run's state changed. -/
def modRun (s : State) (rid : Nat) (f : GraphRun → GraphRun) : State := modRegion s rid fun r => { r with run := r.run.map f }

/-- The end of a run; a recorded trigger starts one new run (R341). -/
def endGraphRun (s : State) (rid : Nat) : State :=
  modRegion s rid fun r =>
    match r.pendTrig with
    | some v => startRun (now0 s) v { r with pendTrig := none }
    | none => { r with run := none }

/-- The run ends with a graph-fault record that names the node (R337, R338, R420). -/
def graphFault (s : State) (r : Region) (node : Nat) : State :=
  let rec_ : EventRec := { src := 17, code := 0x0401, sev := 2, core := none, rid := r.rid, asid := some r.asid,
                           body := leBytes 2 0 ++ leBytes 4 node, ext := [] }
  endGraphRun (writeRecord s rec_) r.rid

/-- A node as read (R337). -/
structure Node where
  kind : Nat
  next : Nat
  arg0 : Dword
  arg1 : Dword
  arg2 : Dword
deriving DecidableEq, Repr

/-- The node that a run has reached; none where reading it ends the run (R337, R338). -/
def nodeAt (s : State) (r : Region) (g : GraphRun) : Option Node :=
  let xs := physRead s (r.graph + 32 * g.node) 32
  let kind := field xs 0 1
  if 4096 ≤ g.node || 1048576 ≤ g.executed || 6 ≤ kind || !zeroBytes xs 1 3 then none
  else some ⟨kind, field xs 4 4, leDword (xs.drop 8), leDword ((xs.drop 16).take 8), leDword ((xs.drop 24).take 8)⟩

/-- The run goes to a node, one more having been executed. -/
def goNode (s : State) (rid node : Nat) : State :=
  modRun s rid fun g => { g with node := node, executed := g.executed + 1, wait := .none }

/-- A step of a region's run at a node of a kind: a bad node ends the run, whichever kind is tried; a node of another kind, or
a run that waits, leaves the machine as it is. A run reaches its first node in the cycle after its start, so that the triggers of one
cycle count as one (R341). -/
def nodeStep (rid kind : Nat) (s : State) (f : Region → GraphRun → Node → State) : Out :=
  match regionAt s rid with
  | none => .next s
  | some r =>
    match r.run with
    | none => .next s
    | some g =>
      if r.dead || g.wait != .none || g.since == now0 s then .next s
      else match nodeAt s r g with
        | none => .next (graphFault s r g.node)
        | some n => if n.kind = kind then .next (f r g n) else .next s

/-- NODE_END (R338). -/
def execNodeEnd (rid : Nat) (s : State) : Out := nodeStep rid 0 s fun r _ _ => endGraphRun s r.rid

/-- NODE_LOOP (R338). -/
def execNodeLoop (rid : Nat) (s : State) : Out := nodeStep rid 2 s fun r g n =>
  let count := (kget g.counters g.node).getD 0
  if count < bits n.arg0.toNat 0 32 then
    goNode (modRun s r.rid fun x => { x with counters := kset x.counters g.node (count + 1) }) r.rid (bits n.arg1.toNat 0 12)
  else goNode s r.rid n.next

/-- An aligned PLAIN word of the region's memory, translated at S for a graph node (R338). -/
def graphWord (r : Region) (k : AccKind) (va : Dword) : X Nat := do
  require (va.toNat % 8 == 0 && !isWindow va) .align va
  let p ← translate none r.asid true k va
  classCheck none k va 8 p
  require (p.cls == 0) .class_ va
  if k = .read then do
    let s ← get
    match flawOf s none [⟨va, 8, p⟩] with
    | some (v, pa) => do
      set (uncorrRecord s pa v.toNat none)
      fail .uncorr v
    | none => pure p.pa
  else pure p.pa

/-- The value of a graph word, with the state that its translation leaves. -/
def readGraphWord (s : State) (r : Region) (va : Dword) : Option Dword × State :=
  match graphWord r .read va s with
  | .ok pa s1 => (some (physDword s1 pa), s1)
  | .error _ s1 => (none, s1)

/-- NODE_COND (R338). -/
def execNodeCond (rid : Nat) (s : State) : Out := nodeStep rid 3 s fun r g n =>
  match readGraphWord s r n.arg0 with
  | (some x, s1) => goNode s1 r.rid (if x = 0 then n.next else bits n.arg1.toNat 0 12)
  | (none, s1) => graphFault s1 r g.node

/-- The word of a WAIT node read: the run goes on when it matches, and waits for the next check otherwise (R338). -/
def pollWord (s : State) (r : Region) (g : GraphRun) (next : Nat) (va value : Dword) : State :=
  match readGraphWord s r va with
  | (some x, s1) =>
    if x = value then goNode s1 r.rid next else modRun s1 r.rid fun g => { g with wait := .word va value (now0 s) next }
  | (none, s1) => graphFault s1 r g.node

/-- A run that waits for its operators goes on when they have all retired (R338). -/
def waitOperators (s : State) (r : Region) (g : GraphRun) (next : Nat) : State :=
  if g.launched = 0 then goNode s r.rid next else modRun s r.rid fun g => { g with wait := .operators next }

/-- NODE_WAIT: the node is reached, or its wait for operators is over (R338). -/
def execNodeWait (rid : Nat) (s : State) : Out :=
  match regionAt s rid with
  | none => .next s
  | some r =>
    match r.run with
    | none => .next s
    | some g =>
      match g.wait with
      | .operators next => .next (if r.dead then s else waitOperators s r g next)
      | _ => nodeStep rid 4 s fun r g n =>
        if n.arg0 = 0 then waitOperators s r g n.next
        else if n.arg0 = 1 then pollWord s r g n.next n.arg1 n.arg2
        else graphFault s r g.node

/-- NODE_WAIT_POLL: the word is read again 1,024 cycles after it was read last (R338). -/
def execNodeWaitPoll (rid : Nat) (s : State) : Out :=
  match regionAt s rid with
  | none => .next s
  | some r =>
    match r.run with
    | none => .next s
    | some g =>
      match g.wait with
      | .word va value since next =>
        if r.dead || (now0 s - since).toNat < 1024 then .next s else .next (pollWord s r g next va value)
      | _ => .next s

/-- NODE_SIGNAL: the write, then the interrupt (R338). -/
def execNodeSignal (rid : Nat) (s : State) : Out := nodeStep rid 5 s fun r g n =>
  match graphWord r .write n.arg1 s with
  | .error _ s1 => graphFault s1 r g.node
  | .ok pa s1 =>
    let s2 := physWrite s1 pa (leBytes 8 n.arg2.toNat)
    let s3 := if bit n.arg0.toNat 0 then sendMsix s2 r.fn (bits n.arg0.toNat 1 11) else s2
    goNode s3 r.rid n.next

/-! Binding (R330, R262, R275, R276). -/

/-- What binding finds of a stage (R330): its status, header and mask. -/
structure Binding where
  status : Nat
  base : Dword
  header : List Byte
  cset : BitVec 512
deriving DecidableEq, Repr

/-- The checks of one stage: a bad image, or a mask without a core (R330, R66). -/
def checkStage (s : State) (r : Region) (i : Nat) : Binding :=
  let base := physDword s (stageRec r i)
  let cset := BitVec.ofNat 512 (leValue (physRead s (physDword s (stageRec r i + 8)).toNat 64))
  match headerAt s r.asid base with
  | none => ⟨1, base, [], cset⟩
  | some h => ⟨if !headerOk h then 1 else if cset = 0 then 2 else 0, base, h, cset⟩

/-- A stage's state when it is bound alone; its input opens again (R335). -/
def boundStage (x : StageState) (b : Binding) : StageState :=
  { x with closed := false, status := BitVec.ofNat 8 b.status, reason := 1, base := b.base
           centry := BitVec.ofNat 24 (field b.header 12 4), kernid := BitVec.ofNat 64 (field b.header 96 8)
           cost := BitVec.ofNat 64 (field b.header 16 8), fusedNext := false, fusedPrev := false, splice := none, cset := b.cset }

/-- The splices of a region's stages (R262): each stage is tried with the next one, unless it is fused with the one before.
The records of both stages of a pair that is tried carry the reason; a later try of the second one replaces it. -/
def tryStages (asid : BitVec 11) (prev : Bool) (x : StageState) (b : Binding) :
    List (StageState × Binding) → State → List StageState × State
  | [], s => ([{ x with fusedPrev := prev }], s)
  | (y, c) :: rest, s =>
    if prev then
      let r := tryStages asid false y c rest s
      ({ x with fusedPrev := true } :: r.1, r.2)
    else if b.status = 0 ∧ c.status = 0 then
      let t := trySplice s asid b.base c.base b.header c.header (b.cset == c.cset)
      match t.1 with
      | .ok p =>
        let r := tryStages asid true { y with reason := 0 } c rest t.2
        ({ x with fusedNext := true, splice := some p, reason := 0 } :: r.1, r.2)
      | .error e =>
        let r := tryStages asid false { y with reason := BitVec.ofNat 8 e } c rest t.2
        ({ x with reason := BitVec.ofNat 8 e } :: r.1, r.2)
    else
      let r := tryStages asid false y c rest s
      (x :: r.1, r.2)

/-- The stages of a region after binding and splicing. -/
def spliceStages (asid : BitVec 11) : List (StageState × Binding) → State → List StageState × State
  | [], s => ([], s)
  | (x, b) :: rest, s => tryStages asid false x b rest s

/-- STATUS and the splice map of a stage record, written by the front end (R330, R276). -/
def writeStatus (s : State) (r : Region) : List (Nat × StageState) → State
  | [] => s
  | (i, x) :: rest =>
    let s1 := physWrite s (stageRec r i + 36) (leBytes 1 x.status.toNat ++ leBytes 1 x.reason.toNat ++ leBytes 2 0)
    let s2 := match x.splice with
      | some p => physWrite s1 (physDword s (stageRec r i + 40)).toNat (mapBytes p)
      | none => s1
    writeStatus s2 r rest

/-- The cores that a region's stages list. -/
def regionMask (r : Region) : BitVec 512 := r.stages.foldl (fun a x => a ||| x.cset) 0

/-- A core joins a phase group; its PHN becomes the group's (R246). -/
def joinGroup (s : State) (g c : Nat) : State :=
  let n := (vget s.phase g PhaseGroup.reset).gphn
  modCore { s with phase := vmod s.phase g fun p => { p with members := p.members ||| BitVec.ofNat 512 (2 ^ c) } } c
    fun k => { k with sr := { k.sr with phn := n } }

/-- The phase group that a region's binding gives one of its cores, if any: the lowest that names it (R246; log 25). -/
def wantedGroup (rid c : Nat) : Option Nat := (List.range 256).find? fun g => (Config.phaseMembers rid g).getLsbD c

/-- One core of a region placed in its phase group. -/
def placeMember (rid : Nat) (s : State) (c : Nat) : State :=
  let now := (List.range 256).find? fun g => (vget s.phase g PhaseGroup.reset).members.getLsbD c
  let want := wantedGroup rid c
  if now = want then s
  else
    let s1 := match now with
      | some g => leaveGroup s g c
      | none => s
    match want with
    | some g => joinGroup s1 g c
    | none => s1

/-- The phase table written when stages are bound (R246). -/
def assignGroups (s : State) (rid : Nat) : State :=
  match regionAt s rid with
  | none => s
  | some r =>
    let cs := (List.range 512).filter fun c => (regionMask r).getLsbD c
    modRegion (cs.foldl (placeMember rid) s) rid fun r => { r with groups := (cs.filterMap (wantedGroup rid)).eraseDups }

/-- Every stage of a region bound (R330). -/
def bindStages (s : State) (r : Region) : State :=
  let bs := (List.range r.nstage).map (checkStage s r)
  let s0 := bs.foldl (fun s b => headerRead s r.asid b.base) s
  let t := spliceStages r.asid ((r.stages.zip bs).map fun e => (boundStage e.1 e.2, e.2)) s0
  let s1 := modRegion t.2 r.rid fun r => { r with stages := t.1 }
  assignGroups (writeStatus s1 r (t.1.zipIdx.map fun e => (e.2, e.1))) r.rid

/-! Launches (R339, R340). -/

/-- The arguments of an operator record, TVAL taken where they ask for it (R339). -/
def launchValues (xs : List Byte) (tval : Dword) : List Dword :=
  (List.range 4).map fun i =>
    let a := leDword ((xs.drop (24 + 8 * i)).take 8)
    if a = 0xFFFFFFFFFFFFFFFF then tval else a

/-- The cores of a mask, in ascending order. -/
def coresOf (mask : BitVec 512) : List Nat := (List.range 512).filter fun c => mask.getLsbD c

/-- A plain operator: its launches wait for their shadow banks, in order (R339, R340). -/
def launchPlain (s : State) (r : Region) (g : GraphRun) (next : Nat) (xs : List Byte) : State :=
  let base := leDword ((xs.drop 8).take 8)
  let cset := BitVec.ofNat 512 (leValue (physRead s (field xs 16 8) 64))
  let s1 := headerRead s r.asid base
  match headerAt s r.asid base with
  | some h =>
    if headerOk h then
      if cset = 0 then goNode s1 r.rid next
      else modRun s1 r.rid fun x =>
        { x with wait := .launch base (BitVec.ofNat 24 (field h 12 4)) (coresOf cset) (launchValues xs x.tval) next }
    else graphFault s1 r g.node
  | none => graphFault s1 r g.node

/-- NODE_LAUNCH (R338, R339). -/
def execNodeLaunch (rid : Nat) (s : State) : Out := nodeStep rid 1 s fun r g n =>
  let xs := physRead s n.arg0.toNat 64
  if !zeroBytes xs 1 7 || !zeroBytes xs 56 8 then graphFault s r g.node
  else match field xs 0 1 with
    | 0 => launchPlain s r g n.next xs
    | 1 => if zeroBytes xs 8 16 then goNode (bindStages s r) r.rid n.next else graphFault s r g.node
    | _ => graphFault s r g.node

/-- SHADOW_BANK_WRITE: the next launch of a run is written when its core's bank is empty; the last one completes the node
(R338, R340). -/
def execShadowBankWrite (rid : Nat) (s : State) : Out :=
  match regionAt s rid with
  | none => .next s
  | some r =>
    match r.run with
    | none => .next s
    | some g =>
      match g.wait with
      | .launch base centry (c :: rest) args next =>
        if r.dead || (coreAt s c).shadow.isSome then .next s
        else
          let l : Launch := { base := base, centry := centry, asid := r.asid, verify := r.verify, rid := r.rid, stage := none,
                              args := args, fused := false, runNo := g.no }
          let s1 := modRun (modCore s c fun k => { k with shadow := some l }) r.rid fun x => { x with launched := x.launched + 1 }
          .next (match rest with
            | [] => goNode s1 r.rid next
            | _ => modRun s1 r.rid fun x => { x with wait := .launch base centry rest args next })
      | _ => .next s

/-- TRIGGER_WORD_WRITE: a write of a value that lands on the region's trigger word (R341). -/
def execTriggerWordWrite (rid : Nat) (v : BitVec 64) (s : State) : Out :=
  match regionAt s rid with
  | none => .next s
  | some r => .next (physWrite s r.trig (leBytes 8 v.toNat))

end Sys2Proof.Machine
end

