-- ==== Sys2Proof/Machine/Grant.lean ====
section
/-! DEFINITION. Cores given to regions (R343 to R345, R348), taken back by pre-emption (R347) and by the stop of a fault domain
(R329). -/

namespace Sys2Proof.Machine

/-! Wants (R343). -/

/-- A core that is free: operator retired, bank empty, no stage (R343). -/
def coreFree (k : Core) : Bool := k.op.isNone && k.shadow.isNone && k.stage.isNone && !k.stopped

/-- The core works for the region: it holds a stage of it, runs its operator, or is about to. -/
def worksFor (k : Core) (rid : Nat) : Bool :=
  (k.stage.map fun x => x.1 == rid).getD false || (k.op.map fun o => o.rid == rid).getD false
    || (k.shadow.map fun l => l.rid == rid).getD false

def heldCores (s : State) (rid : Nat) : Nat := (s.cores.toList.filter fun k => worksFor k rid).length

/-- A stage with more input than cores waiting for it, open to a core. -/
def stageWants (s : State) (r : Region) (c i : Nat) : Bool := stageOpen s r c i && stageWaiting s r.rid i < occOf r i

/-- The region wants the core (R343). -/
def wantsCore (s : State) (r : Region) (c : Nat) : Bool :=
  !r.dead && !r.removing && heldCores s r.rid < r.cmax && (List.range r.nstage).any fun i => stageWants s r c i

/-- The smallest ARRIVE among the queued items of a region (R343). -/
def oldestArrive (r : Region) : Nat :=
  (r.stages.flatMap (·.arrives)).foldl (fun a e => min a e.2.toNat) (2 ^ 64)

/-- The region of smallest ARRIVE, the lowest RID on equality. -/
def oldestFirst (rs : List Region) : Option Region :=
  rs.foldl (fun best r => match best with
    | none => some r
    | some b => if oldestArrive r < oldestArrive b ∨ (oldestArrive r = oldestArrive b ∧ r.rid < b.rid) then some r else best) none

/-- The oldest item of a region has waited more than the DUE of its class (R343 step 2, R349). -/
def overdue (s : State) (r : Region) : Bool :=
  let due := (vget s.deadlines r.dclass ⟨0, 1⟩).due.toNat
  due != 0 && r.stages.any (fun x => !x.arrives.isEmpty) && due < (now0 s).toNat - oldestArrive r

/-- The regions in ascending RID. -/
def byRid (rs : List Region) : List Region :=
  let add (l : List Region) (r : Region) : List Region := l.takeWhile (fun x => x.rid < r.rid) ++ r :: l.dropWhile fun x => x.rid < r.rid
  rs.foldl add []

/-! The lottery (R344). -/

/-- The first candidate whose running sum of tickets exceeds w. -/
def lotteryPick (w : Nat) : Nat → List Region → Option Region
  | _, [] => none
  | sum, r :: rest => if w < sum + r.tickets then some r else lotteryPick w (sum + r.tickets) rest

/-- The draw of a die among candidates (R344). -/
def lotteryWinner (d : Die) (rs : List Region) : Option Region :=
  let x := draw d.lseed 7 d.lcnt.toNat
  let total := rs.foldl (fun a r => a + r.tickets) 0
  lotteryPick (x * total / 2 ^ 32) 0 (byRid rs)

/-- The winner among the regions that want a core of a die, with whether a draw was made (R343). -/
def grantWinner (s : State) (d : Nat) (rs : List Region) : Option Region × Bool :=
  match oldestFirst (rs.filter fun r => heldCores s r.rid < r.cmin) with
  | some r => (some r, false)
  | none =>
    match oldestFirst (rs.filter (overdue s)) with
    | some r => (some r, false)
    | none =>
      let top := rs.foldl (fun a r => max a r.prio) 0
      match rs.filter fun r => r.prio == top with
      | [] => (none, false)
      | cs => (lotteryWinner (dieAt s d) cs, true)

/-- A core given to a region: to its open stage of highest pressure (R345). -/
def grantTo (s : State) (c : Nat) (r : Region) : State :=
  match bestStage s r c with
  | some i => launchStage s c r i
  | none => s

/-- The first free core of a die, in ascending number, that some region wants, with those regions (R343). -/
def nextGrant (s : State) (d : Nat) : Option (Nat × List Region) :=
  ((List.range 128).map (128 * d + ·)).findSome? fun c =>
    if coreFree (coreAt s c) then
      match s.regions.filter fun r => wantsCore s r c with
      | [] => none
      | rs => some (c, rs)
    else none

/-- A free core that no region wants, for a stage that holds a stolen item (R352). -/
def thiefGrant (s : State) (d : Nat) : Option (Nat × Region × Nat) :=
  ((List.range 128).map (128 * d + ·)).findSome? fun c =>
    if coreFree (coreAt s c) then
      s.regions.findSome? fun r =>
        ((List.range r.nstage).find? fun i =>
          !r.dead && !r.removing && stageOpen s r c i && ((stageOf r i).map fun x => !x.stolen.isEmpty).getD false
            && (stageCores s r.rid i).isEmpty).map fun i => (c, r, i)
    else none

/-- CORE_GRANT: one free core of a die given out (R343 to R345, R348). -/
def execCoreGrant (die : Nat) (s : State) : Out :=
  if 4 ≤ die then .next s
  else match nextGrant s die with
    | some (c, rs) =>
      let w := grantWinner s die rs
      let s1 := if w.2 then modDie s die fun d => { d with lcnt := d.lcnt + 1 } else s
      match w.1 with
      | some r => .next (grantTo s1 c r)
      | none => .next s1
    | none => match thiefGrant s die with
      | some (c, r, i) => .next (launchStage s c r i)
      | none => .next s

/-! Pre-emption orders (R347). -/

/-- Save areas that hold a context or are named by an order. -/
def areasOf (k : Core) : List Nat :=
  k.saved.map (·.area) ++ match k.preempt with
    | .pending a => [a]
    | .draining a => [a]
    | _ => []

/-- Save areas held for a region: of its contexts, and of the orders at its cores. -/
def areasHeld (s : State) (rid : Nat) : Nat :=
  (s.cores.toList.map fun k =>
    (k.saved.filter fun x => x.op.rid == rid).length
      + (if (k.op.map fun o => o.rid == rid).getD false then (areasOf k).length - k.saved.length else 0)).foldl (· + ·) 0

/-- Some leaf of a table, or of a table below it, maps a byte of `n` bytes at `pa` (R383, R385). -/
def tableMaps (s : State) (pa n t : Nat) : List Nat → Bool
  | [] => false
  | level :: rest => (List.range 1024).any fun i =>
    let e := physDword s (t + 8 * i)
    pteV e && if !pteR e && !pteW e && !pteX e then tableMaps s pa n (bits e.toNat 13 31 * 0x2000) rest
      else bits e.toNat 16 28 * 0x10000 < pa + n && pa < bits e.toNat 16 28 * 0x10000 + 2 ^ levelLog2 level

/-- No page of any ASID maps a byte of `n` bytes at `pa`, the pages of trap areas among them (R347, R366, R384). -/
def unmapped (s : State) (pa n : Nat) : Bool :=
  ((List.range 2048).all fun asid =>
    let e := physDword s (Config.asidTable + 8 * asid)
    !(bit e.toNat 63 && tableMaps s pa n (bits e.toNat 13 31 * 0x2000) [0, 1, 2, 3]))
    && (List.range 8).all fun i => Config.trapPage i + 0x10000 ≤ pa || pa + n ≤ Config.trapPage i

/-- A save area is aligned, in a stack of the core's die, free and mapped by no page (R347). -/
def areaOk (s : State) (c area : Nat) : Bool :=
  area % 4096 == 0 && isHbm area && stackOf area / 2 == dieOf c && usable area && usable (area + contextSize - 1)
    && stackOf (area + contextSize - 1) == stackOf area
    && (s.cores.toList.all fun k => (areasOf k).all fun a => a + contextSize ≤ area || area + contextSize ≤ a)
    && unmapped s area contextSize

/-- A region's budget of HBM takes one more save area (R347). -/
def areaBudget (s : State) (r : Region) : Bool := (areasHeld s r.rid + 1) * contextSize ≤ r.hbm

/-- The region would take the core if it were free (R343). -/
def couldUse (s : State) (r : Region) (c : Nat) : Bool := wantsCore s r c

/-- No free core meets what the region wants. -/
def noFreeCore (s : State) (r : Region) : Bool :=
  (List.range 512).all fun c => !(coreFree (coreAt s c) && wantsCore s r c)

/-- The reasons for which Gheah may take core `c` from region `v` for region `r` (R347, R329). -/
def mayPreempt (s : State) (c : Nat) (v r : Region) (reason : PreemptReason) : Bool :=
  match reason with
  | .priority => couldUse s r c && v.prio < r.prio && v.cmin < heldCores s v.rid
  | .floor => couldUse s r c && heldCores s r.rid < r.cmin && noFreeCore s r
  | .deadline => couldUse s r c && overdue s r && noFreeCore s r
  | .faultDomain => v.dead

/-- A pre-emption ordered: STAT.PEND is set (R375 step 1). -/
def orderPreempt (s : State) (c area : Nat) : State :=
  modCore s c fun k => { k with preempt := .pending area, sr := { k.sr with pend := true } }

/-- GHEAH_PREEMPT_ORDER (R347): an order that R347 does not allow is not made. -/
def execGheahPreemptOrder (c rid : Nat) (reason : PreemptReason) (area : Nat) (s : State) : Out :=
  let k := coreAt s c
  match regionOf s c, regionAt s rid with
  | some v, some r =>
    if c < 512 && k.preempt == .none && !k.stopped && areaOk s c area && areaBudget s v && mayPreempt s c v r reason then
      .next (orderPreempt s c area)
    else .next s
  | _, _ => .next s

/-! Fault domains (R329). -/

/-- The save area for a core whose fault domain is stopped (log 26). -/
def freeArea (s : State) (c : Nat) : Nat :=
  (((List.range 64).map (Config.saveArea c)).find? (areaOk s c)).getD (Config.saveArea c 0)

/-- A region stopped: its run ends, launches not begun are dropped, and its cores are pre-empted. -/
def stopRegion (s : State) (r : Region) (count : Nat) : State :=
  let s1 := writeRecord s
    { src := 24, code := 0x0104, sev := 3, core := none, rid := r.rid, asid := some r.asid,
      body := leBytes 2 0 ++ leBytes 1 r.fdom ++ leBytes 1 0 ++ leBytes 2 count, ext := [] }
  let s2 := modRegion s1 r.rid fun r => { r with dead := true, run := none, pendTrig := none }
  (List.range 512).foldl (fun s c =>
    let k := coreAt s c
    let s3 := if (k.shadow.map fun l => l.rid == r.rid).getD false then modCore s c fun k => { k with shadow := none } else s
    if (k.op.map fun o => o.rid == r.rid).getD false then
      (if k.preempt == .none && !k.stopped then orderPreempt s3 c (freeArea s3 c) else s3)
    else if (k.stage.map fun x => x.1 == r.rid).getD false then bindCore s3 c none else s3) s2

/-- Every region of a fault domain stopped (R329). -/
def stopDomain (s : State) (fdom : Nat) : State :=
  let rs := s.regions.filter fun r => r.fdom == fdom && !r.dead
  let s1 := rs.foldl (fun s r => stopRegion s r rs.length) s
  { s1 with fleet := { s1.fleet with stopDomains := s1.fleet.stopDomains.filter (· != fdom) } }

/-- FAULT_DOMAIN_STOP (R329, R369, R374). -/
def execFaultDomainStop (fdom : Nat) (s : State) : Out := .next (stopDomain s fdom)

end Sys2Proof.Machine
end

