-- ==== Sys2Proof/Machine/Packets.lean ====
section
/-! DEFINITION. Remote requests on their way (R293 to R301, R396): send allowances, the service of request packets at their
target, their answers at the issuer, and the failures of a request. -/

namespace Sys2Proof.Machine

/-! Peers and allowances (R299, R300, R407). -/

/-- A peer with its firmware values. -/
def Peer.fresh (chip : BitVec 12) : Peer :=
  ⟨chip, Config.allow, Config.alcfgStart, Config.alcfgFact, Config.alcfgTgt, 0, 0, none, 0⟩

def peerOf (f : Fabric) (chip : BitVec 12) : Peer := (f.peers.find? fun p => p.chip == chip).getD (Peer.fresh chip)

/-- A peer's registers changed. -/
def modPeer (f : Fabric) (chip : BitVec 12) (g : Peer → Peer) : Fabric :=
  { f with peers := if f.peers.any fun p => p.chip == chip then modFirst (fun p => p.chip == chip) g f.peers
                    else f.peers ++ [g (Peer.fresh chip)] }

/-- START in bytes (R407). -/
def startBytes (start : BitVec 10) : Nat := if start = 0 then 4194304 else 4096 * start.toNat

/-- f of R300, in 256ths. -/
def factOf (fact : BitVec 2) : Nat :=
  match fact.toNat with
  | 0 => 128
  | 1 => 192
  | _ => 224

/-- A after a round trip (R300). -/
def adjusted (p : Peer) (rtt : Nat) : Nat :=
  if rtt < p.tgt.toNat then min 4194304 (p.allow + 4096)
  else if p.tgt.toNat < rtt then max 4096 (p.allow * factOf p.fact / 65536 * 256)
  else p.allow

/-- The end of a round trip at an answer: every byte up to the mark is answered for. -/
def endTrip (now : Dword) (left : List RemoteReq) (p : Peer) : Peer :=
  match p.trip with
  | none => p
  | some (mark, t0) =>
    if left.any fun r => r.upTo ≤ mark then p
    else { p with allow := adjusted p (now - t0).toNat, trip := if left.isEmpty then none else some (p.sentBytes, now) }

/-- The requests in flight to a chip. -/
def flightTo (f : Fabric) (chip : BitVec 12) : List RemoteReq := f.inFlight.filter fun r => windowChip r.addr == chip

/-- A request in flight is answered: its bytes are no longer outstanding. -/
def answered (s : State) (r : RemoteReq) : State :=
  let chip := windowChip r.addr
  modFabric s fun f =>
    let f1 : Fabric := { f with inFlight := dropFirst (fun x => x == r) f.inFlight }
    modPeer f1 chip fun p =>
      endTrip (dieAt s 0).cyc (flightTo f1 chip) { p with outBytes := p.outBytes - requestSize r }

/-! Failures of a request (R295, R298, R301). -/

/-- The current unit of a transfer is to be done again, with the chains as they were before it (R229). -/
def rollCopy (k : Core) : Core :=
  match (k.stream .k).op with
  | .copy o =>
    let back : CopyOp := { o with unit := o.unit - 1, finished := false, placed := none }
    let k1 := k.modStream .k fun x => { x with op := .copy back, mpc := BitVec.ofNat 32 (o.unit - 1) }
    { k1 with k := Vector.ofFn fun (i : Fin 4) => o.chains.getD i.val 0 }
  | _ => k

/-- A stream of the core still runs the instruction that made the request. -/
def takesFault (k : Core) (st : StreamId) : Bool :=
  !k.stopped && k.op.isSome && (k.stream st).run != .faulted && ((k.stream st).op != .none || (st == .m && k.planeLoad.isSome))

/-- The window address of the fault of a request that fails on its way. -/
def peerExc (r : RemoteReq) : Exc := ⟨.peer, 0, r.addr, 0⟩

/-- A request fails: a load or atomic at its retirement, an engine's read at its unit, a write at the unit or, for a store
that has retired, at once (R295, R301). A unit whose write fails is done again after the trap; while the core is stopping for an earlier
fault nothing more is recorded (R372). -/
def failRequest (s : State) (r : RemoteReq) (e : Exc) : State :=
  let k := coreAt s r.core
  let awaits (i : InFlight) : Bool := i.wait == .remote r.tag
  match r.kind, r.st with
  | .write, .c => if k.op.isSome && !k.stopped then raise (settleBabort s r.core) r.core .c e else s
  | .write, st =>
    if takesFault k st then
      let mine (x : RemoteReq) : Bool := x.core == r.core && x.st == st && x.kind == .write
      let s1 := modCore (modFabric s fun f => { f with waiting := f.waiting.filter fun x => !mine x }) r.core rollCopy
      if k.raising.isSome then tryTrap s1 r.core else raise s1 r.core st e
    else s
  | _, .c => if k.inflight.any awaits then failFlight s r.core awaits e else s
  | _, st =>
    if takesFault k st then modCore s r.core fun k => { k with rfault := k.rfault ++ [(st, r.addr, r.len, e)] } else s

/-! Sending (R299 to R301). -/

/-- A request sent: counted as outstanding, and a round trip opened (R299, R300). -/
def sendRequest (s : State) (r : RemoteReq) : State :=
  let chip := windowChip r.addr
  let size := requestSize r
  let b := (peerOf s.fabric chip).sentBytes + size
  let s1 := modFabric s fun f =>
    modPeer { f with waiting := dropFirst (fun x => x == r) f.waiting, inFlight := f.inFlight ++ [{ r with upTo := b }] } chip
      fun p => { p with
        outBytes := p.outBytes + size, sentBytes := b
        trip := if f.frz then none else p.trip.or (some (b, (dieAt s 0).cyc)) }
  sendPacket s1 (requestPacket s.fabric.group.self r)

/-- The region that a request's core works for, by number. -/
def requestRid (s : State) (r : RemoteReq) : Option Nat := (coreAt s r.core).op.map (·.rid)

/-- Bytes that a region's cores have outstanding (R327). -/
def regionOut (s : State) (rid : Nat) : Nat :=
  ((s.fabric.inFlight.filter fun x => requestRid s x == some rid).map requestSize).foldl (· + ·) 0

/-- The region's cap on outstanding remote bytes lets a request go; one that is larger than the cap goes alone, since a cap changes no
result (R325, R327; log 65). -/
def capAllows (s : State) (r : RemoteReq) : Bool :=
  match (requestRid s r).bind (regionAt s) with
  | some q => q.fabric == 0 || regionOut s q.rid == 0 || regionOut s q.rid + requestSize r ≤ q.fabric
  | none => true

/-- The oldest waiting request to a chip, passing over those of regions that their cap holds back. -/
def nextRequest (s : State) (chip : Nat) : Option RemoteReq :=
  let l := s.fabric.waiting.filter fun r => (windowChip r.addr).toNat == chip
  l.find? fun r => capAllows s r && (l.find? fun x => requestRid s x == requestRid s r) == some r

/-- REMOTE_REQUEST_SEND: the oldest waiting request to a chip (R299, R301). -/
def execRemoteRequestSend (chip : Nat) (s : State) : Out :=
  let f := s.fabric
  match nextRequest s chip with
  | none => .next s
  | some r =>
    let p := peerOf f (windowChip r.addr)
    if f.frz || f.silenced then .next s
    else if !inGroup s (windowChip r.addr) then
      .next (failRequest (modFabric s fun f => { f with waiting := dropFirst (fun x => x == r) f.waiting }) r (peerExc r))
    else if p.outBytes + requestSize r ≤ p.allow then .next (sendRequest s r)
    else .next s

/-! Service at the target (R293, R295, R396). -/

/-- The packet has been dealt with. -/
def dropPacket (s : State) (p : Packet) : State :=
  modFabric s fun f => { f with rxPackets := dropFirst (fun x => x == p) f.rxPackets }

/-- Requests, and answers, are dealt with in the order in which they arrive. -/
def packetNext (s : State) (p : Packet) (ptype : Nat) : Bool :=
  p.ptype.toNat == ptype && (s.fabric.rxPackets.find? fun x => packetAnswers x == packetAnswers p) == some p

/-- The error answer to a request; OFS and SOFF give the failing byte (log 46). -/
def errorAnswer (p : Packet) (e : Exc) : Packet :=
  let off := windowOfs e.addr
  { answerTo p 7 (if e.cause = .buserr then 2 else 1) [] with ofs := BitVec.ofNat 36 (off / 16), soff := BitVec.ofNat 4 off }

/-- The service of a request: its answer sent as `done` says, or the error answer; while the memory cannot take it, it waits. -/
def servePacket {α : Type} (s : State) (p : Packet) (x : X α) (done : α → State → State) : Out :=
  match x s with
  | .ok v s1 => .next (done v (dropPacket s1 p))
  | .error .wait _ => .next s
  | .error .hold _ => .next s
  | .error (.exc e) s1 => .next (sendPacket (dropPacket s1 p) (errorAnswer p e))
  | .error (.mcheck _ _) s1 => .next (sendPacket (dropPacket s1 p) (errorAnswer p ⟨.buserr, 0, packetWindow p, 0⟩))

/-- The write or atomic has been performed before (R396). -/
def recalled (s : State) (p : Packet) : Option Remembered :=
  s.fabric.remembered.find? fun x => x.src == p.src && x.tag == p.tag

/-- The entries of a list, newest first, with at most `n` of one source. -/
def keepLast (src : BitVec 12) : Nat → List Remembered → List Remembered
  | _, [] => []
  | n, x :: rest =>
    if x.src = src then (if n = 0 then keepLast src 0 rest else x :: keepLast src (n - 1) rest)
    else x :: keepLast src n rest

/-- A write or atomic performed is remembered, the last 2^18 of its source (R396). -/
def remember (s : State) (p : Packet) (old : BitVec 128) (isAtomic : Bool) : State :=
  modFabric s fun f => { f with remembered := keepLast p.src (2 ^ 18) (⟨p.src, p.tag, old, isAtomic⟩ :: f.remembered) }

/-- RDREQ (R293). -/
def execRdreq (pkt : Packet) (s : State) : Out :=
  if packetNext s pkt 1 then
    servePacket s pkt (serveRead pkt.asid (packetWindow pkt) (packetBytes pkt)) fun xs s =>
      sendPacket s (answerTo pkt 2 0 (unitSlots (packetWindow pkt) xs))
  else .next s

/-- The bytes and the tag of a WRITE. -/
def writeData (p : Packet) : List Byte × Option (BitVec 24 × BitVec 16 × BitVec 6 × BitVec 64) :=
  let tagged := p.aux.getLsbD 0
  let slots := if tagged then p.data.drop 1 else p.data
  let xs := slots.flatMap fun x => leBytes 16 x.toNat
  ((xs.drop p.soff.toNat).take (packetBytes p), if tagged then some (extOf (p.data.headD 0)) else none)

/-- WRITE (R396). -/
def execWrite (pkt : Packet) (s : State) : Out :=
  if packetNext s pkt 3 then
    match recalled s pkt with
    | some _ => .next (ackWrite (dropPacket s pkt) (some pkt))
    | none =>
      let d := writeData pkt
      servePacket s pkt (serveWrite pkt.asid (packetWindow pkt) d.1 d.2 pkt) fun _ s => ackWrite (remember s pkt 0 false) (some pkt)
  else .next s

/-- ATOMIC (R294, R396). -/
def execAtomic (pkt : Packet) (s : State) : Out :=
  if packetNext s pkt 5 then
    match recalled s pkt with
    | some x => .next (sendPacket (dropPacket s pkt) (answerTo pkt 6 0 [x.old]))
    | none =>
      let x := pkt.data.headD 0
      servePacket s pkt
        (serveAtomic pkt.asid (packetWindow pkt) pkt.aux.toNat (x.extractLsb' 0 64) (x.extractLsb' 64 64)) fun old s =>
          sendPacket (remember s pkt (old.setWidth 128) true) (answerTo pkt 6 0 [old.setWidth 128])
  else .next s

/-! Answers at the issuer (R296, R298, R299). -/

/-- The request that an answer matches. -/
def requestOf (s : State) (p : Packet) : Option RemoteReq :=
  s.fabric.inFlight.find? fun r => r.tag % 2 ^ 18 == p.tag.toNat && windowChip r.addr == p.dst

/-- An answer taken: the request is no longer in flight, and `f` brings its result to its maker. -/
def answer (p : Packet) (ptype : Nat) (s : State) (f : State → RemoteReq → State) : Out :=
  if packetNext s p ptype then
    match requestOf s p with
    | some r => .next (f (answered (dropPacket s p) r) r)
    | none => .next (dropPacket s p)
  else .next s

/-- The data of a read: the value of a load, or the units that a stream's unit collects (R296). -/
def deliverRead (s : State) (r : RemoteReq) (slots : List (BitVec 128)) : State :=
  match r.st with
  | .c =>
    let awaits (i : InFlight) : Bool := i.wait == .remote r.tag
    let xs := ((slots.flatMap fun x => leBytes 16 x.toNat).drop (r.addr.toNat % 16)).take r.len
    match (coreAt s r.core).inflight.find? awaits with
    | some i => completeFlight s r.core awaits (loadValue i.conv xs)
    | none => s
  | st =>
    let units := slots.zipIdx.map fun x => (st, BitVec.ofNat 64 (r.addr.toNat / 16 * 16 + 16 * x.2), x.1)
    if takesFault (coreAt s r.core) st then
      modCore s r.core fun k => { k with rbuf := k.rbuf ++ units }
    else s

/-- A control access through the window of its own chip has been performed: the core's cached copy of the line is dropped, so that no
later load of its thread returns an older value (R238). -/
def dropOwnLine (s : State) (r : RemoteReq) : State :=
  if r.st = .c && windowChip r.addr == s.fabric.group.self && r.core < 512 then
    let a := BitVec.ofNat 64 (windowOfs r.addr)
    match walkTables s a r.asid with
    | .leaf _ e level => modCore s r.core fun k => dcDrop k ((leafPage a e (levelLog2 level)).pa / 128 * 128)
    | _ => s
  else s

/-- RDRESP (R296). -/
def execRdresp (pkt : Packet) (s : State) : Out :=
  answer pkt 2 s fun s r => deliverRead (dropOwnLine s r) r pkt.data

/-- A tagged write that has landed at another chip's home counts in the record kept of it here (R254, R255; log 19); at this chip's
own home the landing itself has counted it. -/
def landedThere (s : State) (r : RemoteReq) : State :=
  match r.tagged with
  | none => s
  | some (bid, v, g, _) =>
    if windowChip r.addr == s.fabric.group.self then s else sealAdvance (countLanding s bid g.toNat v) bid

/-- WRACK: the write lands (R298), and a stop of its core may have waited for it. -/
def execWrack (pkt : Packet) (s : State) : Out :=
  answer pkt 4 s fun s r => tryTrap (settleBabort (wroteFor (landedThere (dropOwnLine s r) r) r.core r.st) r.core) r.core

/-- ATRESP (R294, R395). -/
def execAtresp (pkt : Packet) (s : State) : Out :=
  answer pkt 6 s fun s r =>
    completeFlight (dropOwnLine s r) r.core (fun i => i.wait == .remote r.tag) ((pkt.data.headD 0).extractLsb' 0 64)

/-- ERRRESP: REMOTE or BUSERR with the window address of the failing byte (R295). -/
def execErrresp (pkt : Packet) (s : State) : Out :=
  answer pkt 7 s fun s r =>
    failRequest s r ⟨if pkt.aux = 2 then .buserr else .remote, 0, windowAddr pkt.dst (packetOffset pkt), 0⟩

/-! A peer declared failed (R244, R295, R406). -/

/-- The homes of open bundles that lie on a chip of which `gone` holds are lost (R255, R412). -/
def loseHomes (s : State) (gone : BitVec 12 → Bool) : State :=
  let lost := (List.range 512).flatMap fun c => (openOn (coreAt s c)).flatMap fun (v, rid) =>
    match regionAt s rid with
    | some r => (bundleEntryAt s (r.btab + 1040 * v.entry)).segs.zipIdx.filterMap fun g =>
        if gone g.1.chip && !(homeAt s v.bid g.2).lost then some (v.bid, g.2) else none
    | none => []
  lost.foldl (fun s x => homeLost s x.1 x.2) s

/-- The bytes of an entry of the group table for a member (R403). -/
def memberBytes (m : Member) : List Byte := leBytes 4 (m.x + 16 * m.y + 256 * m.z + 4096 + 8192 * m.failed.toNat)

/-- Stores to a failed peer were lost: the next fence of scope group or system of any core reports it, as every such scope's instance
holds this chip (R114, R244). -/
def noteLost (s : State) (chip : BitVec 12) : State :=
  (List.range 512).foldl (fun s c => modCore s c fun k => { k with
    lostPeers := if k.lostPeers.contains chip then k.lostPeers else k.lostPeers ++ [chip] }) s

/-- What becomes of a request outstanding to a failed peer: a write is dropped and remembered for the next fence, a read or
atomic raises PEER (R244, R295). -/
def loseRequest (s : State) (r : RemoteReq) : State :=
  match r.kind with
  | .write => tryTrap (settleBabort (noteLost s (windowChip r.addr)) r.core) r.core
  | _ => failRequest s r (peerExc r)

/-- Member `chip` is declared failed (R406). -/
def failPeer (s : State) (chip : BitVec 12) : State :=
  let mark (m : Member) : Member := if m.chip = chip then { m with failed := true } else m
  let lost := flightTo s.fabric chip
  let s1 := modFabric s fun f =>
    modPeer { f with
      group := { f.group with members := f.group.members.map mark }, inFlight := f.inFlight.filter fun r => windowChip r.addr != chip
      held := f.held.filter fun p => packetGoal p != chip
      ports := f.ports.map fun p => { p with out := p.out.filter fun o => o.begun || o.left.isEmpty || packetGoal o.pkt != chip } }
      chip fun p => { p with outBytes := 0, trip := none }
  let s2 := match s1.fabric.group.find chip with
    | some m => physWrite s1 (Config.groupTable + 576 + 4 * chip.toNat) (memberBytes m)
    | none => s1
  let s3 := fabricRecord (sendMgmt s2 .flood (.failed chip s.fabric.group.epoch)) 0x0305 { chip := chip }
  loseHomes (lost.foldl loseRequest s3) (· == chip)

end Sys2Proof.Machine
end

