-- ==== Sys2Proof/Machine/Group.lean ====
section
/-! DEFINITION. The group of a chip (R352, R353, R403 to R413): management packets, failed members, stealing, the regrouping
sequence, and the send-allowance registers. -/

namespace Sys2Proof.Machine

/-! Heartbeats and failures (R405, R406). -/

/-- The members of the group but this chip. -/
def otherMembers (s : State) : List (BitVec 12) :=
  (s.fabric.group.members.map (·.chip)).filter (· != s.fabric.group.self)

/-- HEARTBEAT_SEND: every 2^20 cycles, in IDLE only (R405, R413). -/
def execHeartbeatSend (s : State) : Out :=
  if s.fabric.rgState == .idle && 2 ^ 20 ≤ s.fabric.beat then
    let s1 := modFabric s fun f => { f with beat := 0 }
    .next ((otherMembers s).foldl (fun s c => sendMgmt s (.chip c) (.heartbeat s.fabric.group.epoch)) s1)
  else .next s

/-- HEARTBEAT (R406): the packet says that its sender lives, whatever its EPOCH. -/
def execHeartbeat (src : Nat) (_epoch : BitVec 32) (s : State) : Out :=
  if (otherMembers s).contains (BitVec.ofNat 12 src) then
    .next (modFabric s fun f => modPeer f (BitVec.ofNat 12 src) fun p => { p with sinceBeat := 0 })
  else .next s

/-- A member of the group, other than this chip, that is not declared failed. -/
def liveMember (s : State) (chip : BitVec 12) : Bool := inGroup s chip && chip != s.fabric.group.self

/-- PEER_FAIL_TIMEOUT (R406). -/
def execPeerFailTimeout (chip : Nat) (s : State) : Out :=
  let c := BitVec.ofNat 12 chip
  if s.fabric.rgState == .idle && liveMember s c && 4 * 2 ^ 20 ≤ (peerOf s.fabric c).sinceBeat then .next (failPeer s c)
  else .next s

/-- FAILED (R406): a notice with the chip's own EPOCH. A chip that is named itself sends only management packets from then on. -/
def execFailed (chip : Nat) (epoch : BitVec 32) (s : State) : Out :=
  let c := BitVec.ofNat 12 chip
  if epoch != s.fabric.group.epoch then .next s
  else if c = s.fabric.group.self then .next (modFabric s fun f => { f with silenced := true })
  else if liveMember s c then .next (failPeer s c)
  else .next s

/-! Stealing (R352, R353). -/

/-- The neighbours: the peers of connected ports. -/
def neighbours (s : State) : List (BitVec 12) :=
  (s.fabric.ports.toList.map (·.peer)).foldl (fun l c => if c = 0xFFF ∨ l.contains c then l else l ++ [c]) []

/-- The stealable inputs with their occupancies: region, stage, occupancy. -/
def stealable (s : State) : List (Nat × Nat × Nat) :=
  s.regions.flatMap fun r => (List.range r.nstage).filterMap fun i =>
    if stageSteal s r i && !((stageOf r i).map (·.fusedPrev)).getD true then some (r.rid, i, occOf r i) else none

/-- STEAL_ADVERT: every 4,096 cycles of die 0 (R352); it stops while the chip regroups (R409). -/
def execStealAdvert (s : State) : Out :=
  if s.fabric.rgState == .idle && 4096 ≤ s.fabric.advertAge then
    let s1 := modFabric s fun f => { f with advertAge := 0 }
    .next ((neighbours s).foldl (fun s c => (stealable s).foldl (fun s x => sendMgmt s (.chip c) (.advert x.1 x.2.1 x.2.2)) s) s1)
  else .next s

/-- A core is free and no local region wants one (R352). -/
def spareCore (s : State) : Bool :=
  (List.range 512).any fun c => coreFree (coreAt s c) && !s.regions.any fun r => wantsCore s r c

/-- ADVERT: a thief asks when R352 allows it. The advertisement does not carry the KERNID of the other chip's image: the request
carries that of the thief's, and the chip that holds the queue compares them (log 47). -/
def execAdvert (src rid stage occ : Nat) (s : State) : Out :=
  match regionAt s rid with
  | none => .next s
  | some r =>
    let bound := ((stageOf r stage).map fun x => x.status == 0 && !x.fusedPrev).getD false
    let kernid := ((stageOf r stage).map (·.kernid)).getD 0
    if s.fabric.rgState == .idle && bound && !r.dead && !r.removing && stageStealthr s r stage ≤ occ && spareCore s then
      .next (sendMgmt s (.chip (BitVec.ofNat 12 src)) (.stealAsk rid stage kernid))
    else .next s

/-- The item that a thief's operator has carried back is in its queue (R353). -/
def backDone (rid stage : Nat) (item : Dword) (o : Operator) : Operator :=
  if o.rid == rid && o.stage == some stage && o.back == .asked && (o.item.map fun x => BitVec.ofNat 64 (windowOfs x)) == some item
  then { o with back := .done } else o

/-- STEAL: a request is kept for its answer; an answer's item goes to the thief's stage; the acknowledgement of an insertion goes to
the operator whose EMIT waits for it, saved contexts included. -/
def execSteal (msg : StealMsg) (s : State) : Out :=
  match msg with
  | .request src rid stage kernid =>
    if s.fabric.rgState == .idle then
      .next (modFabric s fun f => { f with stealReqs := f.stealReqs ++ [(src, rid, stage, kernid)] })
    else .next s
  | .answer rid stage item =>
    match item with
    | none => .next s
    | some a => .next (modStage s rid stage fun x => { x with stolen := x.stolen ++ [((windowChip a).toNat, a)] })
  | .inserted rid stage item =>
    .next { s with cores := s.cores.map fun k => { k with
      op := k.op.map (backDone rid stage item), saved := k.saved.map fun x => { x with op := backDone rid stage item x.op } } }

/-- STEAL_REQUEST: at most one entry, none below STEALTHR, and none for a stage that another image serves there (R352). The record's
IFLAGS[0] is set; the thief gets its window address. -/
def execStealRequest (chip rid stage : Nat) (s : State) : Out :=
  match s.fabric.stealReqs.find? fun x => x.1 == chip && x.2.1 == rid && x.2.2.1 == stage with
  | none => .next s
  | some ask =>
    let s1 := modFabric s fun f => { f with stealReqs := f.stealReqs.erase ask }
    let say (s : State) (x : Option Dword) : State := sendMgmt s (.chip (BitVec.ofNat 12 chip)) (.stealAnswer rid stage x)
    match regionAt s rid with
    | none => .next (say s1 none)
    | some r =>
      let same := ((stageOf r stage).map fun x => x.status == 0 && x.kernid == ask.2.2.2).getD false
      if stageSteal s r stage && same && stageStealthr s r stage ≤ occOf r stage then
        match takeItem s1 r stage with
        | some (item, _, s2) =>
          match itemRecord r item s2, decide (item.toNat < 2 ^ 40) with
          | .ok pa _, true =>
            let s3 := physWrite s2 (pa + 22) [memGet s2.mem (pa + 22) ||| 1]
            let s4 := modFabric s3 fun f => { f with lent := f.lent ++ [(chip, rid, stage, item)] }
            .next (say s4 (some (windowAddr s.fabric.group.self item.toNat)))
          | _, _ => .next (say s1 none)
        | none => .next (say s1 none)
      else .next (say s1 none)

/-- STOLEN_EMIT: the item goes to the input of the next stage, or to CQ, and the thief is told (R353). -/
def execStolenEmit (rid stage : Nat) (item : BitVec 64) (s : State) : Out :=
  match s.fabric.lent.find? fun x => x.2 == (rid, stage, item), regionAt s rid with
  | some x, some r =>
    match handOn s r stage item (arriveOf s r item) with
    | .waits => .next s
    | .refused s1 => .next s1
    | .accepted s1 =>
      let s2 := modFabric s1 fun f => { f with lent := f.lent.erase x }
      .next (propagateClose (sendMgmt s2 (.chip (BitVec.ofNat 12 x.1)) (.stolenAck rid stage item)) rid)
  | _, _ => .next s

/-! The group table in memory (R403). -/

/-- PSTATE of a port. -/
def pstateCode : PState → Nat
  | .down => 0
  | .up => 1
  | .dark => 2

/-- PORT(n). -/
def portBytes (p : Port) : List Byte :=
  let w (b : Nat) : Nat := (p.bandAt b).width * 2 ^ (20 + 4 * b)
  leBytes 8 (p.peer.toNat + p.peerPort.toNat * 2 ^ 12 + pstateCode p.state * 2 ^ 18 + w 0 + w 1 + w 2 + w 3)

/-- The 16,960 bytes of the table. -/
def tableBytes (f : Fabric) : List Byte :=
  let g := f.group
  leBytes 4 0xF4B00001 ++ leBytes 4 g.epoch.toNat ++ leBytes 2 g.gid.toNat ++ leBytes 1 g.dx ++ leBytes 1 g.dy ++ leBytes 1 g.dz
    ++ leBytes 3 0 ++ leBytes 2 g.self.toNat ++ leBytes 46 0 ++ f.ports.toList.flatMap portBytes
    ++ (List.range 4096).flatMap fun c => match g.find (BitVec.ofNat 12 c) with
      | some m => memberBytes m
      | none => leBytes 4 0

/-- Gheah writes the table. -/
def writeTable (s : State) : State := physWrite s Config.groupTable (tableBytes s.fabric)

/-! Plans (R403, R408, R409). -/

/-- The words of a table's member entries, from chip 0 on. -/
def entriesOf : Nat → List Byte → List Nat
  | 0, _ => []
  | n + 1, xs => leValue (xs.take 4) :: entriesOf n (xs.drop 4)
def memberWords (xs : List Byte) : List Nat := entriesOf 4096 (xs.drop 576)

/-- The members that a plan names. -/
def planMembers (xs : List Byte) : List Member :=
  (memberWords xs).zipIdx.filterMap fun x =>
    let e := x.1
    if bit e 12 then some ⟨BitVec.ofNat 12 x.2, bits e 0 4, bits e 4 4, bits e 8 4, false⟩ else none

/-- The connected ports of a plan: port, peer, peer's port. -/
def planLinks (xs : List Byte) : List (Nat × BitVec 12 × BitVec 6) :=
  (List.range 64).filterMap fun n =>
    let e := field xs (64 + 8 * n) 8
    if bits e 0 12 = 0xFFF then none else some (n, BitVec.ofNat 12 e, BitVec.ofNat 6 (e / 4096))

/-- The group that a plan describes. -/
def planTable (xs : List Byte) : GroupTable :=
  { epoch := BitVec.ofNat 32 (field xs 4 4), gid := BitVec.ofNat 16 (field xs 8 2), dx := field xs 10 1, dy := field xs 11 1
    dz := field xs 12 1, self := BitVec.ofNat 12 (field xs 16 2), members := planMembers xs }

/-- MAGIC and the fields that are zero. -/
def planForm (xs : List Byte) : Bool :=
  field xs 0 4 == 0xF4B00001 && zeroBytes xs 13 3 && field xs 16 2 < 4096 && zeroBytes xs 18 46
    && ((List.range 64).all fun n => field xs (64 + 8 * n) 8 < 2 ^ 36)
    && (memberWords xs).all fun e => e < 2 ^ 14

/-- The member at given coordinates. -/
def GroupTable.at (g : GroupTable) (x y z : Nat) : Option Member := g.members.find? fun m => m.x == x && m.y == y && m.z == z

/-- The peer that a port of a torus group must have. -/
def torusPeer (g : GroupTable) (m : Member) (n : Nat) : Option Member :=
  let step (v ext : Nat) : Nat := if n / 8 % 2 = 0 then (v + 1) % ext else (v + ext - 1) % ext
  match n / 16 with
  | 0 => g.at (step m.x g.dx) m.y m.z
  | 1 => g.at m.x (step m.y g.dy) m.z
  | _ => g.at m.x m.y (step m.z g.dz)

/-- The conditions of a valid table (R403), with SELF this chip. -/
def planValid (self : BitVec 12) (g : GroupTable) (links : List (Nat × BitVec 12 × BitVec 6)) : Bool :=
  let extent (n : Nat) : Bool := 1 ≤ n && n ≤ 16
  let distinct := (g.members.map fun m => m.x + 16 * m.y + 256 * m.z).Pairwise (· ≠ ·)
  extent g.dx && extent g.dy && extent g.dz && g.members.length == g.dx * g.dy * g.dz
    && (g.members.all fun m => m.x < g.dx && m.y < g.dy && m.z < g.dz) && decide distinct && g.self == self
    && match g.find self with
      | none => false
      | some m => links.all fun l =>
          (g.find l.2.1).isSome && (48 ≤ l.1 || (torusPeer g m l.1).map (·.chip) == some l.2.1)

/-- QUIESCE (R408, R409). -/
def execQuiesce (s : State) : Out :=
  let f := s.fabric
  if f.rgState != .idle then .next s
  else
    let xs := physRead s f.rgplan.toNat 16960
    let g := planTable xs
    let links := planLinks xs
    if f.rgplan.toNat % 64 == 0 && planForm xs && planValid f.group.self g links && g.epoch != f.group.epoch then
      .next (modFabric s fun f => { f with
        rgState := .quiescing, plan := some g, planPorts := links, frz := true, settled := false, rgCycles := 0
        peers := f.peers.map fun p => { p with trip := none } })
    else .next (modFabric s fun f => { f with badplan := true })

/-- SETTLED: every request sent before QUIESCE has completed, or its peer has failed (R409). -/
def execSettled (s : State) : Out :=
  if s.fabric.rgState == .quiescing && !s.fabric.settled && s.fabric.inFlight.isEmpty then
    .next (vigilAdvance vigilFuel (modFabric s fun f => { f with settled := true }))
  else .next s

/-- VIGIL: a round of the group's own EPOCH is counted, and held until the chip quiesces (R410). -/
def execVigil (port round : Nat) (epoch : BitVec 32) (s : State) : Out :=
  if s.fabric.rxVigils.contains (port, round, epoch) then
    let s1 := modFabric s fun f => { f with rxVigils := f.rxVigils.erase (port, round, epoch) }
    if epoch = s.fabric.group.epoch then
      .next (vigilAdvance vigilFuel (modPort s1 port fun p => { p with vigilRx := max p.vigilRx round }))
    else .next s1
  else .next s

/-- QUIESCE_TIMEOUT (R410). -/
def execQuiesceTimeout (s : State) : Out :=
  if s.fabric.rgState == .quiescing && 2 ^ 24 ≤ s.fabric.rgCycles then
    let late := (otherMembers s).filter fun c => !(flightTo s.fabric c).isEmpty
    let s1 := modFabric s fun f => { f with timeout := true }
    .next (enterDark (late.foldl failPeer s1))
  else .next s

/-! Relock and commit (R411, R412). -/

/-- A port of the plan starts anew: bands relock, SEQ and E are 0, 64 credits a channel (R399, R411). -/
def Port.restart (p : Port) : Port :=
  let q := p.emptied
  { Port.relockAll q with
    state := .dark, txSeq := 0, rxE := 0, credit := .replicate 2 1024, fruitless := 0, sinceRpl := 1024, vigilRx := 0
    vigilTx := 0, commTx := false, commRx := false }

/-- A port that the plan does not connect: lasers off, DOWN. -/
def Port.off (p : Port) : Port :=
  let q := p.emptied
  { q with bands := q.bands.map fun b => { b with lit := 0 } }

/-- RELOCK (R408, R411). -/
def execRelock (s : State) : Out :=
  match s.fabric.rgState, s.fabric.plan with
  | .dark, some g =>
    let links := s.fabric.planPorts
    let s1 := modFabric s fun f => { f with
      rgState := .relocking, rgCycles := 0, held := [], rxVigils := []
      ports := f.ports.mapFinIdx fun n p _ => if links.any fun l => l.1 == n then p.restart else p.off }
    let s2 := links.foldl (fun s l => bandsDown s l.1 0 (List.range 4)) s1
    .next ((links.filter fun l => (portAt s2 l.1).state == .dark).foldl (fun s l =>
      sendMgmt s (.port l.1) (.linkid g.self l.1 g.epoch)) s2)
  | _, _ => .next s

/-- LINKID: the port is UP if it met the peer that the plan names, else DOWN with MISMATCH (R411). -/
def execLinkid (port peer peerPort : Nat) (epoch : BitVec 32) (s : State) : Out :=
  match s.fabric.planPorts.find? (fun l => l.1 == port), s.fabric.plan with
  | some l, some g =>
    let p := portAt s port
    if s.fabric.rgState == .relocking && p.state == .dark then
      if l.2.1.toNat == peer && l.2.2.toNat == peerPort && g.epoch == epoch then
        .next (modPort s port fun p => { p with state := .up, silent := 0 })
      else
        let s1 := modPort (modFabric s fun f => { f with mismatch := true }) port fun p => p.emptied
        .next (fabricRecord s1 0x0307 { port := port, chip := BitVec.ofNat 12 peer })
    else .next s
  | _, _ => .next s

/-- The ports of the plan that are neither UP nor DOWN. -/
def openLinks (f : Fabric) : List Nat :=
  (f.planPorts.map (·.1)).filter fun n => (vget f.ports n Port.reset).state == .dark

/-- RELOCK_TIMEOUT (R411). -/
def execRelockTimeout (s : State) : Out :=
  if s.fabric.rgState == .relocking && 2 ^ 22 ≤ s.fabric.rgCycles && !(openLinks s.fabric).isEmpty then
    .next ((openLinks s.fabric).foldl (fun s n => modPort s n Port.emptied) (modFabric s fun f => { f with timeout := true }))
  else .next s

/-- The allowances at commit: a peer in both tables keeps A; a new one, and one that left, starts again (R412). -/
def commitPeers (f : Fabric) (old new : GroupTable) : Fabric :=
  let both (c : BitVec 12) : Bool := (old.find c).isSome && (new.find c).isSome
  let either := ((old.members ++ new.members).map (·.chip)).filter (· != new.self)
  let f1 := either.foldl (fun f c => if both c then f else modPeer f c fun p => { p with allow := startBytes p.start }) f
  (new.members.filter fun m => m.chip != new.self).foldl (fun f m => modPeer f m.chip fun p => { p with sinceBeat := 0 }) f1

/-- REGROUP_COMMIT (R412): one step. -/
def execRegroupCommit (s : State) : Out :=
  match s.fabric.rgState, s.fabric.plan with
  | .relocking, some g =>
    if (openLinks s.fabric).isEmpty then
      let links := s.fabric.planPorts
      let linked (n : Nat) (p : Port) : Port := match links.find? fun l => l.1 == n with
        | some l => { p with peer := l.2.1, peerPort := l.2.2, commTx := p.state == .up }
        | none => { p with peer := 0xFFF, peerPort := 0 }
      let s1 := modFabric s fun f => { commitPeers f f.group g with
        group := g, ports := f.ports.mapFinIdx fun n p _ => linked n p, frz := false, rgState := .idle, silenced := false
        plan := none, planPorts := [], settled := false, beat := 0, advertAge := 0, stealReqs := [] }
      let s2 := fabricRecord (writeTable s1) 0x0306 {}
      let s3 := s2.fabric.upPorts.foldl (fun s n => sendMgmt s (.port n) (.committed g.epoch)) s2
      .next (flushHeld (loseHomes s3 fun c => (g.find c).isNone))
    else .next s
  | _, _ => .next s

/-- COMMITTED, for the group that this chip is in or is about to enter (R412). -/
def execCommitted (port : Nat) (epoch : BitVec 32) (s : State) : Out :=
  let next := (s.fabric.plan.map (·.epoch)).getD s.fabric.group.epoch
  if s.fabric.up port && epoch == next then .next (modPort s port fun p => { p with commRx := true }) else .next s

/-! The registers of R407. -/

/-- A written to ALLOW(c), clamped. -/
def execAllowWrite (chip : Nat) (v : BitVec 64) (s : State) : Out :=
  if 4096 ≤ chip then .next s
  else .next (modFabric s fun f => modPeer f (BitVec.ofNat 12 chip) fun p =>
    { p with allow := max 4096 (min 4194304 (bits v.toNat 0 23)) })

/-- ALCFG(c): a FACT of 3 leaves FACT unchanged. -/
def execAlcfgWrite (chip : Nat) (v : BitVec 64) (s : State) : Out :=
  if 4096 ≤ chip then .next s
  else .next (modFabric s fun f => modPeer f (BitVec.ofNat 12 chip) fun p =>
    let fact : BitVec 2 := v.extractLsb' 34 2
    { p with start := v.extractLsb' 36 10, fact := if fact = 3 then p.fact else fact, tgt := v.extractLsb' 0 32 })

/-- FABCTL, ALLOW(c) and ALCFG(c) as they read. -/
def readFabctl (f : Fabric) : Dword := BitVec.ofNat 64 f.frz.toNat
def readAllow (f : Fabric) (chip : BitVec 12) : Dword := BitVec.ofNat 64 (peerOf f chip).allow
def readAlcfg (f : Fabric) (chip : BitVec 12) : Dword :=
  let p := peerOf f chip
  BitVec.ofNat 64 (p.start.toNat * 2 ^ 36 + p.fact.toNat * 2 ^ 34 + p.tgt.toNat)

end Sys2Proof.Machine
end

