-- ==== Sys2Proof/Machine/Host.lean ====
section
/-! DEFINITION. Region control blocks, admission and removal (R325 to R328), and the host queues: control blocks, kick
registers, commands, completions, and the reset of their service cores (R354 to R359, R364). -/

namespace Sys2Proof.Machine

/-! Region control blocks (R325, R326). -/

def powerOfTwo (x lo hi : Nat) : Bool := lo ≤ x && x ≤ hi && x == 2 ^ x.log2

/-- Reserved fields and ranges of an RCB (R325, R327). -/
def rcbRanges (xs : List Byte) : Bool :=
  let vb := field xs 64 8
  let trig := field xs 104 8
  field xs 2 2 == 0 && field xs 4 4 < 4 && field xs 16 4 < 2 ^ 10 && field xs 20 2 < 2 ^ 11 && field xs 22 1 < 8
    && field xs 24 2 ≤ 512 && 1 ≤ field xs 26 2 && field xs 26 2 ≤ 512 && 1 ≤ field xs 28 2 && field xs 30 1 < 8
    && 1 ≤ field xs 31 1 && field xs 31 1 ≤ 16 && field xs 32 8 % 0x10000 == 0
    && vb < 2 ^ 47 && bits vb 0 44 % 0x10000 == 0 && bits vb 44 3 ≤ 5 && field xs 88 2 ≤ 1024 && zeroBytes xs 92 4
    && trig < 2 ^ 44 && trig % 8 == 0 && isHbm trig && 1 ≤ field xs 128 4 && field xs 128 4 ≤ 65535 && zeroBytes xs 132 124

/-- The inherited or own value of the field of an OVR bit (R326). -/
def eff (ovr b own : Nat) (parent : Option Region) (f : Region → Nat) : Nat :=
  match parent with
  | some p => if bit ovr b then own else f p
  | none => own

/-- A stage before it is bound (R330). -/
def StageState.unbound : StageState :=
  { head := 0, tail := 0, closed := false, status := 3, reason := 0, base := 0, centry := 0, kernid := 0, cost := 0,
    fusedNext := false, fusedPrev := false, splice := none, arrives := [], stolen := [], cset := 0 }

/-- The region of an RCB with the effective values that Gheah copies (R326, R327). -/
def regionFrom (xs : List Byte) (rcb fn : Nat) (parent : Option Region) : Region :=
  let ovr := field xs 16 4
  let flags := field xs 4 4
  let valloc := field xs 64 8
  { rid := field xs 0 2, fn := fn, rcb := rcb, parent := field xs 8 8
    verify := bit flags 0 || (parent.map (·.verify)).getD false, chained := bit flags 1
    asid := BitVec.ofNat 11 (eff ovr 8 (field xs 20 2) parent fun p => p.asid.toNat)
    prio := eff ovr 6 (field xs 22 1) parent (·.prio), fdom := eff ovr 7 (field xs 23 1) parent (·.fdom)
    cmin := eff ovr 0 (field xs 24 2) parent (·.cmin), cmax := eff ovr 1 (field xs 26 2) parent (·.cmax)
    tickets := eff ovr 5 (field xs 28 2) parent (·.tickets), dclass := eff ovr 9 (field xs 30 1) parent (·.dclass)
    nstage := field xs 31 1, vault := eff ovr 2 (field xs 32 8) parent (·.vault)
    hbm := eff ovr 3 (field xs 40 8) parent (·.hbm), fabric := eff ovr 4 (field xs 48 8) parent (·.fabric)
    cost := field xs 56 8, valloc := bits valloc 0 44, span := bits valloc 44 3, stagesAt := field xs 72 8
    btab := field xs 80 8, nbund := field xs 88 2, nextr := field xs 90 2, graph := field xs 96 8, trig := field xs 104 8
    handler := leDword ((xs.drop 112).take 8), cq := field xs 120 8, cqcap := field xs 128 4, cqHead := 0, cqTail := 0
    stages := List.replicate (field xs 31 1) StageState.unbound, items := 0, run := none, runs := 0, pendTrig := none
    lastTrig := none, groups := [], removing := false, dead := false }

/-- The vault allocation lies in one vault or in consecutive vaults of one die (R325). -/
def vaultOk (r : Region) : Bool :=
  let lo := r.valloc
  let hi := r.valloc + r.vault - 1
  r.vault == 0 || (isVault lo && isVault hi && (lo - 0x80000000000) / 0x20000000 == (hi - 0x80000000000) / 0x20000000)

def vaultsMeet (a b : Region) : Bool :=
  a.vault != 0 && b.vault != 0 && a.valloc < b.valloc + b.vault && b.valloc < a.valloc + a.vault

/-- The sum, the parent's limits and the vault allocation (R327). -/
def budgetOk (s : State) (r : Region) (parent : Option Region) : Bool :=
  s.regions.foldl (fun a x => a + x.cmin) r.cmin ≤ 512
    && (match parent with
      | none => true
      | some p => r.cmax ≤ p.cmax && r.vault ≤ p.vault && r.hbm ≤ p.hbm && (r.fabric == 0 || r.fabric ≤ p.fabric))
    && vaultOk r && !s.regions.any (vaultsMeet r)

/-- Statuses of a completion (R358). -/
def stOk : Nat := 0
def stFull : Nat := 1
def stBadRcb : Nat := 2
def stBudget : Nat := 3
def stBadCmd : Nat := 4
def stDenied : Nat := 5
def stNoRegion : Nat := 6

/-- The region that the RCB at an address describes, or the status that refuses it (R327, R357). -/
def judgeRcb (s : State) (fn rcb : Nat) : Except Nat Region :=
  let xs := physRead s rcb 256
  let parent := s.regions.find? fun p => field xs 8 8 != 0 && p.rcb == field xs 8 8
  let root := field xs 8 8 == 0
  let r := regionFrom xs rcb fn parent
  if rcb % 256 != 0 || !isHbm rcb || !rcbRanges xs || r.cmax < r.cmin then .error stBadRcb
  else if (root && field xs 16 4 != 0x3FF) || (!root && parent.isNone) then .error stBadRcb
  else if s.regions.any fun x => x.rid == r.rid then .error stBadRcb
  else if !asidAllowed s fn r.asid.toNat then .error stDenied
  else if budgetOk s r parent then .ok r else .error stBudget

/-- A region admitted: its stages are unbound and empty (R327, R330). -/
def addRegion (s : State) (r : Region) : State :=
  (List.range r.nstage).foldl (fun s i =>
    physWrite (physWrite s (stageRec r i + 36) [3, 0, 0, 0]) (stageRec r i + 48) (leBytes 8 0)) { s with regions := s.regions ++ [r] }

/-! Removal (R328). -/

/-- The region and its descendants with their depths. -/
def subtree (s : State) : Nat → Nat → Region → List (Nat × Region)
  | 0, d, r => [(d, r)]
  | fuel + 1, d, r => (d, r) :: (s.regions.filter fun x => x.parent != 0 && x.parent == r.rcb).flatMap (subtree s fuel (d + 1))

/-- The region of the subtree to be removed next: a deepest one. -/
def deepest (l : List (Nat × Region)) : Option Region :=
  (l.foldl (fun best e => match best with
    | none => some e
    | some b => if b.1 < e.1 then some e else best) none).map (·.2)

/-- Step 1: stage 0's input closes; the run ends, and no core is given any more. -/
def beginRemoval (s : State) (r : Region) : State :=
  let s1 := modStage s r.rid 0 fun x => { x with closed := true }
  propagateClose (modRegion s1 r.rid fun r => { r with removing := true, run := none, pendTrig := none }) r.rid

/-- Step 2: every core of the region has retired its operator; a core that a fault has stopped for good has abandoned it. -/
def removalReady (s : State) (rid : Nat) : Bool :=
  s.cores.toList.all fun k =>
    k.stopped || !((k.op.map fun o => o.rid == rid).getD false || (k.shadow.map fun l => l.rid == rid).getD false)

/-- A stopped core given back: its operator is gone (R374). -/
def releaseStopped (s : State) (c : Nat) : State :=
  let s1 := giveUpLease (leaveArray (orphan (abortOpen s c) c none) c) c
  modCore s1 c fun k => { k with
    stopped := false, op := none, shadow := none, streams := k.streams.map (fun _ => Stream.reset), inflight := [], block := none
    flow := none, planeLoad := none, frame := none, savedC := none, leaseLeft := 0, wantLease := none, moveTo := none
    rbuf := [], rfault := [], sr := { k.sr with mode := 0, asidNext := none } }

/-- Steps 3 and 5 for one core: released, its saved contexts of the region dropped, their open versions aborted (R256, R347). -/
def releaseCore (rid : Nat) (s : State) (c : Nat) : State :=
  let k := coreAt s c
  let mine (x : SavedOp) : Bool := x.op.rid == rid
  let s1 := (k.saved.filter mine).foldl (fun s x => match x.version with
    | some v => abortVersion s v.bid v.version
    | none => s) s
  let s2 := modCore s1 c fun k => { k with saved := k.saved.filter fun x => !mine x }
  let s3 := if k.stopped && (k.op.map fun o => o.rid == rid).getD false then releaseStopped s2 c else s2
  if (k.stage.map fun x => x.1 == rid).getD false then bindCore s3 c none else s3

/-- Step 4: the phase groups of the region lose their members and their pending state, that of the caches included (R250). -/
def dropGroups (s : State) (groups : List Nat) : State :=
  { s with
    cores := s.cores.map fun k => { k with dcache := k.dcache.filter fun l => !(l.phased && groups.contains l.group) }
    pending := s.pending.filter fun p => !groups.contains p.group
    phase := groups.foldl (fun t g => vmod t g fun p => { p with members := 0, arrived := 0 }) s.phase }

/-- The bundles that a region's table lists (R251). -/
def bundlesOf (s : State) (r : Region) : List (BitVec 24) :=
  (List.range r.nbund).map fun i => (bundleEntryAt s (r.btab + 1040 * i)).bid

/-- The homes, line tags and retained copies of the bundles that only this region lists go with it, so that an entry created again
starts at version 0 (R252, R253; DESIGN CHOICE, log 19). -/
def dropBundles (s : State) (r : Region) : State :=
  let kept := (s.regions.filter fun x => x.rid != r.rid).flatMap (bundlesOf s)
  let gone := (bundlesOf s r).filter fun b => !kept.contains b
  let lines := (s.tags.filter fun e => e.2.kind == 1 && gone.contains e.2.bid).map (·.1)
  { s with
    homes := s.homes.filter fun h => !gone.contains h.bid, tags := s.tags.filter fun e => !lines.contains e.1
    retained := s.retained.filter fun e => !lines.contains e.1 }

/-- Steps 3 to 5 of R328. -/
def finishRemoval (s : State) (r : Region) : State :=
  let s1 := dropBundles (dropGroups ((List.range 512).foldl (releaseCore r.rid) s) r.groups) r
  { s1 with regions := s1.regions.filter fun x => x.rid != r.rid }

/-- One step of the removal of a region, children first, deepest first; nothing while its cores have not retired. -/
def removeStep (s : State) (rid : Nat) : State :=
  match (regionAt s rid).bind fun r => deepest (subtree s s.regions.length 0 r) with
  | none => s
  | some r =>
    if !r.removing then beginRemoval s r
    else if removalReady s r.rid then finishRemoval s r else s

/-! Queue control blocks (R354, R355). -/

def queueAt (s : State) (fn q : Nat) : HostQueue := vget (fnAt s fn).queues q HostQueue.reset
def modQueue (s : State) (fn q : Nat) (f : HostQueue → HostQueue) : State :=
  modFn s fn fun h => { h with queues := vmod h.queues q f }

/-- Ranges and reserved fields of a QCB (R354). -/
def qcbOk (x : Qcb) : Bool :=
  bits x.qflags.toNat 1 31 == 0 && x.ring.toNat % 64 == 0 && powerOfTwo x.depth.toNat 2 65536 && bits x.msix.toNat 11 5 == 0
    && x.cring.toNat % 16 == 0 && powerOfTwo x.cdepth.toNat 2 65536 && x.rest == 0

/-- A queue disabled, with its record: 1 a bad block, 2 PROD too far ahead (R355, R356, R420). -/
def disableQueue (s : State) (fn q reason : Nat) : State :=
  writeRecord (modQueue s fn q fun x => { x with disabled := true })
    { src := 25 + fn % 2, code := 0x0402, sev := 2, core := none, rid := 0, asid := none,
      body := leBytes 2 0 ++ leBytes 2 fn ++ leBytes 2 q ++ leBytes 2 reason, ext := [] }

/-- The service core reads a block (R355): one being written is read again later, a bad one disables the queue, a good one
is accepted and copied to its shadow. -/
def judgeQcb (s : State) (fn q : Nat) : State :=
  let x := queueAt s fn q
  if x.qcb.seq.getLsbD 0 then modQueue s fn q fun x => { x with reread := some (now0 s) }
  else if qcbOk x.qcb then
    modQueue s fn q fun x => { x with shadow := x.qcb, accepted := true, disabled := false, reread := none }
  else disableQueue (modQueue s fn q fun x => { x with reread := none }) fn q 1

/-- A block read; a PROD more than DEPTH ahead of the consumer count then disables the queue (R355, R356). -/
def readQcb (s : State) (fn q : Nat) : State :=
  let s1 := judgeQcb s fn q
  let x := queueAt s1 fn q
  if x.accepted && !x.disabled && x.shadow.depth.toNat < (x.prod - x.cons).toNat then disableQueue s1 fn q 2 else s1

/-- A write to PROD (R356). -/
def putProd (prod v : BitVec 32) : BitVec 32 :=
  let d := (v - prod).toNat
  if 1 ≤ d ∧ d ≤ 2 ^ 31 - 1 then v else prod

/-- KICK_WRITE (R355, R356). -/
def execKickWrite (fn q : Nat) (v : BitVec 64) (s : State) : Out :=
  if 64 ≤ fn || 64 ≤ q || (fnAt s fn).flr then .next s
  else .next (readQcb (modQueue s fn q fun x => { x with prod := putProd x.prod (v.extractLsb' 0 32) }) fn q)

/-- QCB_REREAD: 1,024 cycles after an inconsistent read (R355). -/
def execQcbReread (fn q : Nat) (s : State) : Out :=
  match (queueAt s fn q).reread with
  | some t => if 1024 ≤ (now0 s - t).toNat && !(fnAt s fn).flr then .next (readQcb s fn q) else .next s
  | none => .next s

/-! Commands (R357). -/

/-- The queues of a function may begin a command: no reset of it (R362) or of its service core (R359, R363) is being carried out. -/
def fnServed (s : State) (fn : Nat) : Bool := !(fnAt s fn).flr && !s.fleet.resets.contains (fn % 2)

/-- The command at the head of a queue that may be executed now; one that is being executed goes on during a reset. -/
def headCommand (s : State) (fn q : Nat) : Option (List Byte) :=
  let x := queueAt s fn q
  if fn < 64 && q < 64 && (fnServed s fn || x.removal) && !s.fleet.recovery && x.accepted && !x.disabled && x.shadow.qflags.getLsbD 0
      && x.waiting.isNone && x.prod != x.cons then
    some (hostRead s (x.shadow.ring.toNat + 64 * (x.cons.toNat % x.shadow.depth.toNat)) 64)
  else none

/-- A command executed: its completion is to be written (R358). -/
def finishCommand (s : State) (fn q status : Nat) : State :=
  modQueue s fn q fun x => { x with
    waiting := some (x.cons, BitVec.ofNat 16 status), cons := x.cons + 1, removal := false }

/-- The region that a command names. -/
def commandRid (s : State) (fn q : Nat) (xs : List Byte) : Nat :=
  if field xs 2 2 = 0 then (queueAt s fn q).shadow.rid.toNat else field xs 2 2

/-- The commands of an OP executed by `f`; any other head command leaves the machine as it is. -/
def command (fn q : Nat) (isOp : Nat → Bool) (s : State) (f : List Byte → State) : Out :=
  match headCommand s fn q with
  | some xs => if isOp (field xs 0 1) then .next (f xs) else .next s
  | none => .next s

/-- A command on an admitted region that the function may address (R357). -/
def regionCommand (fn q op : Nat) (s : State) (f : List Byte → Region → State) : Out :=
  command fn q (· == op) s fun xs =>
    match regionAt s (commandRid s fn q xs) with
    | none => finishCommand s fn q (if (queueAt s fn q).removal then stOk else stNoRegion)
    | some r => if asidAllowed s fn r.asid.toNat then f xs r else finishCommand s fn q stDenied

/-- SUBMIT (R350, R357). -/
def execSubmit (fn q : Nat) (s : State) : Out := regionCommand fn q 1 s fun xs r =>
  let x := doorAdmit s r.rid (leDword ((xs.drop 8).take 8))
  finishCommand x.2 fn q x.1

/-- TRIGGER (R341, R357). -/
def execTrigger (fn q : Nat) (s : State) : Out := regionCommand fn q 2 s fun xs r =>
  finishCommand (physWrite s r.trig ((xs.drop 8).take 8)) fn q stOk

/-- CLOSE (R335, R357). -/
def execClose (fn q : Nat) (s : State) : Out := regionCommand fn q 3 s fun _ r =>
  finishCommand (propagateClose (modStage s r.rid 0 fun x => { x with closed := true }) r.rid) fn q stOk

/-- REGION_ADD: a region of the same RCB is removed first; the command completes when Gheah has finished (R327, R357, R358). -/
def execRegionAdd (fn q : Nat) (s : State) : Out := command fn q (· == 4) s fun xs =>
  let rcb := field xs 8 8
  let rid := leValue (physRead s rcb 2)
  match s.regions.find? fun r => r.rid == rid && r.rcb == rcb with
  | some old =>
    if asidAllowed s fn old.asid.toNat then modQueue (removeStep s old.rid) fn q fun x => { x with removal := true }
    else finishCommand s fn q stDenied
  | none =>
    match judgeRcb s fn rcb with
    | .ok r => finishCommand (addRegion s r) fn q stOk
    | .error e => finishCommand s fn q e

/-- REGION_REMOVE: it completes when Gheah has finished (R328, R357, R358). -/
def execRegionRemove (fn q : Nat) (s : State) : Out := regionCommand fn q 5 s fun _ r =>
  modQueue (removeStep s r.rid) fn q fun x => { x with removal := true }

/-- DLT_SET: from the PF only; a class or a DEADLINE out of range is a bad command (R349, R357; log 27). -/
def execDltSet (fn q : Nat) (s : State) : Out := command fn q (· == 6) s fun xs =>
  let d : Deadline := ⟨leDword ((xs.drop 16).take 8), leDword ((xs.drop 24).take 8)⟩
  if fn != 0 then finishCommand s fn q stDenied
  else if 8 ≤ field xs 8 1 || d.deadline == 0 then finishCommand s fn q stBadCmd
  else finishCommand { s with deadlines := vset s.deadlines (field xs 8 1) d } fn q stOk

/-- BADCMD (R357). -/
def execBadcmd (fn q : Nat) (s : State) : Out := command fn q (fun op => op == 0 || 7 ≤ op) s fun _ => finishCommand s fn q stBadCmd

/-! Completions (R358). -/

/-- The 16 bytes of a completion; the phase bit flips at each pass round the ring, from a first value that the spec leaves
open (log 28). -/
def completionBytes (x : HostQueue) (index : BitVec 32) (status : BitVec 16) : List Byte :=
  let phase := (index.toNat / x.shadow.cdepth.toNat + Config.firstPhase.toNat) % 2
  leBytes 4 index.toNat ++ leBytes 2 status.toNat ++ leBytes 1 phase ++ leBytes 9 0

/-- COMPLETION_WRITE: while its entry has been freed; then the interrupt (R358). The entry is the one that the command index
names. -/
def execCompletionWrite (fn q : Nat) (s : State) : Out :=
  let x := queueAt s fn q
  match x.waiting with
  | none => .next s
  | some (index, status) =>
    let depth := x.shadow.cdepth.toNat
    if fn < 64 && q < 64 && (x.cprod - x.ccons).toNat < depth then
      let s1 := hostWrite s (x.shadow.cring.toNat + 16 * (index.toNat % depth)) (completionBytes x index status)
      let s2 := modQueue s1 fn q fun x => { x with waiting := none, cprod := x.cprod + 1 }
      .next (sendMsix s2 fn (bits x.shadow.msix.toNat 0 11))
    else .next s

/-- COMPLETION_CONSUMER_WRITE (R358). -/
def execCompletionConsumerWrite (fn q : Nat) (v : BitVec 64) (s : State) : Out :=
  if 64 ≤ fn || 64 ≤ q then .next s else .next (modQueue s fn q fun x => { x with ccons := v.extractLsb' 0 32 })

/-! The watchdog of a service core (R359, R363, R364). -/

/-- A block read at the reset: one being written is replaced by its shadow, with a record; any other is judged by R355, one that no
driver has ever written among them. -/
def restoreQcb (fn : Nat) (s : State) (q : Nat) : State :=
  let x := queueAt s fn q
  if x.qcb.seq.getLsbD 0 then
    writeRecord (modQueue s fn q fun x => { x with qcb := x.shadow, reread := none })
      { src := 25 + fn % 2, code := 0x0403, sev := 1, core := none, rid := 0, asid := none,
        body := leBytes 2 0 ++ leBytes 2 fn ++ leBytes 2 q, ext := [] }
  else readQcb s fn q

/-- The functions that a service core serves: core 0 the even ones, core 1 the odd ones. -/
def servedBy (sc : Nat) : List Nat := (List.range 64).filter fun fn => fn % 2 == sc

/-- A command of a function is being executed. -/
def fnBusy (s : State) (fn : Nat) : Bool := (fnAt s fn).queues.toList.any fun x => x.removal

/-- SERVICE_CORE_WATCHDOG: the reset waits for the commands being executed, which complete first. -/
def execServiceCoreWatchdog (sc : Nat) (s : State) : Out :=
  if 2 ≤ sc then .next s
  else if (servedBy sc).any (fnBusy s) then
    .next { s with fleet := { s.fleet with resets := sc :: s.fleet.resets.filter (· != sc) } }
  else
    let s1 := { s with fleet := { s.fleet with resets := s.fleet.resets.filter (· != sc) } }
    .next ((servedBy sc).foldl (fun s fn => (List.range 64).foldl (restoreQcb fn) s) s1)

end Sys2Proof.Machine
end

