-- ==== Sys2Proof/Machine/Fleet.lean ====
section
/-! DEFINITION. Operating a fleet: the registers of BAR0 (R7, R389, R408, R421, R423, R426), the Almanac (R417, R418), power
and cooling (R423, R424), attestation (R425, R426), telemetry (R427), and the resets of functions and module (R362, R404). -/

namespace Sys2Proof.Machine

def modFleet (s : State) (f : Fleet → Fleet) : State := { s with fleet := f s.fleet }

/-! The Almanac (R417, R418). -/

/-- Gheah rewrites the Almanac: GEN is even again and has increased (R417). -/
def rewriteAlmanac (s : State) : State := modFleet s fun f => { f with almanacGen := f.almanacGen + 2 }

/-- An entry of the chain, its body filled to a multiple of 8 bytes. -/
def almanacEntry (id : Nat) (body : List Byte) : List Byte :=
  let n := roundUp body.length 8
  leBytes 2 id ++ [Config.almanacVer id, 0] ++ leBytes 2 n ++ leBytes 2 0 ++ padTo n body

/-- DEVICE. -/
def deviceEntry (s : State) : List Byte :=
  almanacEntry 1 (leBytes 2 Config.chipId.toNat ++ [Config.stepping] ++ leBytes 1 s.fleet.recovery.toNat ++ leBytes 4 0
    ++ (List.range 16).map Config.serial ++ s.dies.toList.flatMap (fun d => leBytes 1 d.ntok) ++ leBytes 4 0)

/-- MEMORY, for the eight stacks. -/
def memoryEntry : List Byte :=
  almanacEntry 2 ((List.range 8).flatMap fun n =>
    let tags := n * 0x2000000000 + Config.stackBytes - Config.tagBytes
    leBytes 8 (tags - Config.poolBytes) ++ leBytes 8 Config.poolBytes ++ leBytes 8 tags ++ leBytes 8 Config.tagBytes)

/-- TABLES. -/
def tablesEntry : List Byte :=
  almanacEntry 3 (leBytes 8 Config.asidTable ++ leBytes 8 Config.groupTable ++ leBytes 8 Config.allowBase ++ leBytes 8 Config.fabctl)

/-- The bytes of the Almanac; in recovery it holds only DEVICE (R425). -/
def almanacBytes (s : State) : List Byte :=
  let rest := if s.fleet.recovery then [] else
    memoryEntry ++ tablesEntry ++ almanacEntry 4 (leBytes 2 1 ++ leBytes 2 1 ++ leBytes 4 0x1F)
      ++ almanacEntry 5 (leBytes 2 s.fleet.pwrcap.toNat ++ leBytes 2 2000 ++ leBytes 2 3000 ++ leBytes 2 0)
      ++ almanacEntry 6 (padTo 132 Config.moduleKey ++ leBytes 4 0 ++ padTo 9732 Config.moduleKeySignature ++ leBytes 4 0)
  let chain := deviceEntry s ++ rest ++ leBytes 8 0
  leBytes 4 0xA1AA0001 ++ leBytes 4 s.fleet.almanacGen.toNat ++ leBytes 4 (16 + chain.length) ++ leBytes 4 0 ++ chain

/-! Power and cooling (R291, R423, R424). -/

/-- NTOK under a cap. -/
def ntokOf (cap : Nat) : Nat := min 32 ((cap - 1890) * 5 / 172)

/-- NTOK set: tokens that are wanting enter at cluster 0, and tokens beyond it leave as they are returned (R291). -/
def setNtok (s : State) (d n : Nat) : State :=
  let held := ((List.range 32).filter fun i => (clusterAt s (32 * d + i)).token).length
  modDie s d fun x => { x with ntok := n, tokens := x.tokens ++ List.replicate (n - (x.tokens.length + held)) 0 }

/-- A THROTTLE record: 1 cap, 2 temperature (R420). -/
def throttleRecord (s : State) (d old new cause : Nat) : State :=
  writeRecord s
    { src := 24, code := 0x0501, sev := 0, core := none, rid := 0, asid := none,
      body := leBytes 2 0 ++ leBytes 1 d ++ leBytes 1 old ++ leBytes 1 new ++ leBytes 1 cause, ext := [] }

/-- PWRCAP_WRITE (R423). -/
def execPwrcapWrite (v : BitVec 64) (s : State) : Out :=
  let cap := max 2000 (min 3000 (bits v.toNat 0 12))
  let n := ntokOf cap
  let s1 := modFleet s fun f => { f with pwrcap := BitVec.ofNat 12 cap }
  .next (rewriteAlmanac ((List.range 4).foldl (fun s d => throttleRecord (setNtok s d n) d (dieAt s d).ntok n 1) s1))

/-- NTOK of a die changed by its temperature. -/
def heatNtok (s : State) (d n : Nat) : State :=
  let old := (dieAt s d).ntok
  if old = n then s else rewriteAlmanac (throttleRecord (setNtok s d n) d old n 2)

/-- Every laser is turned off: every port that is UP goes DOWN with its bands (R401, R424). -/
def lasersOff (s : State) : State :=
  let dark (p : Port) : Port := { p with bands := p.bands.map fun b => { b with lit := 0, width := 0, mask := 0, relock := none } }
  let s1 := modFabric s fun f => { f with ports := f.ports.map dark }
  s.fabric.upPorts.foldl portDown s1

/-- Every region stopped, as an FDSTOP of every domain (R424). -/
def stopEverything (s : State) : State := (s.regions.map (·.fdom)).foldl stopDomain s

/-- THERMAL_SAMPLE (R424): the hottest sensor of a die and the inlet, in thousandths of a degree. -/
def execThermalSample (die milliC inletMilliC : Nat) (s : State) : Out :=
  if 4 ≤ die then .next s
  else
    let d := dieAt s die
    let s1 := if 120000 < milliC ∨ 50000 < inletMilliC then lasersOff (stopEverything s) else s
    if 100000 < milliC then
      let s2 := modDie s1 die fun d => { d with throttled := true, cool := none }
      .next (heatNtok s2 die (if 110000 < milliC then 0 else d.ntok / 2))
    else if 95000 ≤ milliC then .next (modDie s1 die fun d => { d with cool := none })
    else
      let since := d.cool.getD (now0 s)
      if d.throttled && 2 ^ 24 ≤ (now0 s - since).toNat then
        .next (heatNtok (modDie s1 die fun d => { d with throttled := false, cool := some since }) die (ntokOf s.fleet.pwrcap.toNat))
      else .next (modDie s1 die fun d => { d with cool := some since })

/-! The event ring's consumer index (R421). -/

/-- EVIDX_CONS_WRITE: ignored beyond PROD. -/
def execEvidxConsWrite (v : BitVec 64) (s : State) : Out :=
  let x : BitVec 32 := v.extractLsb' 0 32
  let beyond := (x - s.fleet.evprod).toNat
  if 1 ≤ beyond ∧ beyond < 2 ^ 31 then .next s else .next (modFleet s fun f => { f with evcons := x })

/-! Attestation (R425, R426). -/

/-- ATTESTATION_GO: no effect while a report is being made. -/
def execAttestationGo (v : BitVec 64) (s : State) : Out :=
  if v.getLsbD 0 && !s.fleet.attBusy then .next (modFleet s fun f => { f with attBusy := true, attCopy := f.attnonce })
  else .next s

/-- Bytes 0 to 295 of a report. -/
def reportHead (s : State) (leaf : Nat) : List Byte :=
  let digest (x : List Byte) : List Byte := leBytes 64 (Config.shake256 x).toNat
  leBytes 4 0xA7E50001 ++ leBytes 4 10028 ++ leBytes 2 Config.chipId.toNat ++ leBytes 6 0 ++ (List.range 16).map Config.serial
    ++ leBytes 64 s.fleet.attCopy.toNat ++ digest Config.gheahImage ++ digest Config.serviceImage ++ digest Config.firmwareConfig
    ++ leBytes 4 s.fabric.group.epoch.toNat ++ leBytes 4 leaf

/-- A report finished: OK, EXHAUSTED with every leaf used, or BADBUF for a buffer that runs past the bus addresses (log 48). -/
def finishReport (s : State) : State :=
  let f := s.fleet
  if 2 ^ 20 ≤ f.leaf then modFleet s fun f => { f with attStatus := 1, attBusy := false }
  else if 2 ^ 64 < f.attbuf.toNat + 16384 then modFleet s fun f => { f with attStatus := 2, attBusy := false }
  else
    let head := reportHead s f.leaf
    let s1 := hostWrite s f.attbuf.toNat (head ++ padTo 9732 (Config.xmssSign f.leaf head))
    sendMsix (modFleet s1 fun f => { f with attStatus := 0, attBusy := false, leaf := f.leaf + 1 }) 0 f.evvec.toNat

/-- ATTESTATION_REPORT_DONE. -/
def execAttestationReportDone (s : State) : Out := if s.fleet.attBusy then .next (finishReport s) else .next s

/-! Telemetry (R427). -/

/-- Retention copies in use on a stack. -/
def copiesInUse (s : State) (n : Nat) : Nat := poolUsed s n

/-- The counters of one refresh. -/
def telemetryOf (s : State) (snap : Dword) (t : TelemetrySample) : List (Nat × Dword) :=
  let f := s.fleet
  let row (off n : Nat) (g : Nat → Nat) : List (Nat × Dword) := (List.range n).map fun i => (off + 8 * i, BitVec.ofNat 64 (g i))
  [(0, snap), (8, t.powerMw)] ++ row 0x10 4 (fun d => (t.dieTemp.getD d 0).toNat) ++ [(0x30, t.inlet), (0x38, t.outlet)]
    ++ row 0x40 8 (fun n => vget f.correctedHbm n 0) ++ row 0x80 8 (fun n => vget f.uncorrHbm n 0)
    ++ row 0xC0 4 (fun d => vget f.correctedVault d 0) ++ row 0xE0 4 (fun d => vget f.uncorrVault d 0)
    ++ row 0x100 8 (copiesInUse s) ++ row 0x140 4 (fun d => vget f.tokenWaits d 0)
    ++ [(0x160, BitVec.ofNat 64 f.refused), (0x168, f.evlost.setWidth 64)]
    ++ row 0x200 64 (fun p => (kget f.replays p).getD 0) ++ row 0x400 64 (fun p => (kget f.losEvents p).getD 0)

/-- SNAP as last refreshed. -/
def snapOf (s : State) : Dword := (kget s.fleet.telemetry 0).getD 0

/-- TELEMETRY_REFRESH: once each 2^20 cycles of die 0. -/
def execTelemetryRefresh (t : TelemetrySample) (s : State) : Out :=
  if ((snapOf s).toNat + 1) * 2 ^ 20 ≤ (now0 s).toNat then
    .next (modFleet s fun f => { f with telemetry := telemetryOf s (snapOf s + 1) t })
  else .next s

/-! Register writes (R7). -/

/-- A 64-bit write to word `k` of a QCB (R354). -/
def putQcb (x : Qcb) (k : Nat) (v : BitVec 64) : Qcb :=
  match k with
  | 0 => { x with seq := v.extractLsb' 0 32, qflags := v.extractLsb' 32 32 }
  | 1 => { x with ring := v }
  | 2 => { x with depth := v.extractLsb' 0 32, rid := v.extractLsb' 32 16, msix := v.extractLsb' 48 16 }
  | 3 => { x with cring := v }
  | 4 => { x with cdepth := v.extractLsb' 0 32, rest := (x.rest.extractLsb' 32 192) ++ (v.extractLsb' 32 32) }
  | 5 => { x with rest := (x.rest.extractLsb' 96 128) ++ v ++ (x.rest.extractLsb' 0 32) }
  | 6 => { x with rest := (x.rest.extractLsb' 160 64) ++ v ++ (x.rest.extractLsb' 0 96) }
  | 7 => { x with rest := v ++ (x.rest.extractLsb' 0 160) }
  | _ => x

/-- A write to a block of the PF (R408, R421, R426): W1C fields clear by ones, RO and RSV fields keep their value. -/
def pfWrite (off : Nat) (v : BitVec 64) (s : State) : State :=
  match off with
  | 0x30000 => modFabric s fun f => { f with rgplan := v.extractLsb' 0 44 }
  | 0x30010 => modFabric s fun f => { f with
      badplan := f.badplan && !v.getLsbD 6, mismatch := f.mismatch && !v.getLsbD 5, timeout := f.timeout && !v.getLsbD 4 }
  | 0x50000 => modFleet s fun f => { f with evbase := v }
  | 0x50010 => modFleet s fun f => { f with evvec := v.extractLsb' 0 11 }
  | 0x70000 => modFleet s fun f => { f with attbuf := v &&& ~~~0x3F }
  | _ =>
    if 0x70040 ≤ off && off < 0x70080 then
      let n := 64 * ((off - 0x70040) / 8)
      let hole : BitVec 512 := ~~~(BitVec.ofNat 512 ((2 ^ 64 - 1) * 2 ^ n))
      modFleet s fun f => { f with attnonce := (f.attnonce &&& hole) ||| BitVec.ofNat 512 (v.toNat * 2 ^ n) }
    else s

/-- REGISTER_WRITE: eight bytes at an offset of a function's BAR0, or of the invalidation block that Gheah has for itself. Registers
with a row of their own are written by it; a VF's writes to the blocks of the PF have no effect. -/
def execRegisterWrite (fn off : Nat) (v : BitVec 64) (s : State) : Out :=
  if 65 ≤ fn || off % 8 != 0 then .next s
  else if off = 0x20000 then .next (modInv s fn fun b => { b with inva := v &&& ~~~0xFFFF })
  else if off = 0x20010 then .next (modInv s fn fun b => { b with denied := b.denied && !v.getLsbD 1 })
  else if fn = gheahFn then .next s
  else if off < 0x1000 then
    .next (modQueue s fn (off / 64) fun x => { x with qcb := putQcb x.qcb (off % 64 / 8) v })
  else if fn = 0 then .next (pfWrite off v s)
  else .next s

/-! Register reads (R7, R356, R358, R389, R408, R421, R423, R426, R427). -/

def rgCode : RgState → Nat
  | .idle => 0
  | .quiescing => 1
  | .dark => 2
  | .relocking => 3

/-- Word `k` of a QCB. -/
def readQcbWord (x : Qcb) (k : Nat) : BitVec 64 :=
  match k with
  | 0 => x.qflags ++ x.seq
  | 1 => x.ring
  | 2 => x.msix ++ x.rid ++ x.depth
  | 3 => x.cring
  | 4 => (x.rest.extractLsb' 0 32 : BitVec 32) ++ x.cdepth
  | 5 => x.rest.extractLsb' 32 64
  | 6 => x.rest.extractLsb' 96 64
  | _ => x.rest.extractLsb' 160 64

/-- What a read of eight bytes of the PF's own blocks returns; WO and RSV fields read as zero. -/
def pfRead (s : State) (off : Nat) : Dword :=
  let f := s.fabric
  let x := s.fleet
  match off with
  | 0x30000 => f.rgplan.setWidth 64
  | 0x30010 => BitVec.ofNat 64 (f.group.epoch.toNat * 2 ^ 32 + f.badplan.toNat * 64 + f.mismatch.toNat * 32 + f.timeout.toNat * 16
      + rgCode f.rgState)
  | 0x50000 => x.evbase
  | 0x50008 => x.evprod ++ x.evcons
  | 0x50010 => BitVec.ofNat 64 (x.evlost.toNat * 2 ^ 32 + x.evvec.toNat)
  | 0x60000 => x.pwrcap.setWidth 64
  | 0x70000 => x.attbuf
  | 0x70008 => BitVec.ofNat 64 (x.attStatus.toNat * 4 + x.attBusy.toNat * 2)
  | _ => if 0x70040 ≤ off && off < 0x70080 then x.attnonce.extractLsb' (8 * (off - 0x70040)) 64 else 0

/-- What a read of eight bytes at an aligned offset of a function's BAR0 returns. -/
def barRead (s : State) (fn off : Nat) : Dword :=
  let b := invAt s fn
  if off < 0x1000 then readQcbWord (queueAt s fn (off / 64)).qcb (off % 64 / 8)
  else if 0x10000 ≤ off && off < 0x10400 then
    let q := queueAt s fn ((off - 0x10000) / 16)
    if off % 16 = 0 then q.prod.setWidth 64 else q.ccons.setWidth 64
  else if off = 0x20000 then b.inva
  else if off = 0x20008 then BitVec.ofNat 64 (b.asid.toNat * 2 ^ 16 + b.kind.toNat)
  else if off = 0x20010 then BitVec.ofNat 64 (b.count.toNat * 2 ^ 32 + b.denied.toNat * 2 + b.job.isSome.toNat)
  else if 0x40000 ≤ off && off < 0x50000 then leDword (((almanacBytes s).drop (off - 0x40000)).take 8)
  else if 0x80000 ≤ off && off < 0x81000 then (kget s.fleet.telemetry (off - 0x80000)).getD 0
  else if fn = 0 then pfRead s off
  else 0

/-- What a host's read of eight bytes at an offset of BAR2's window returns: the registers of R407 where the Almanac says they are,
else what memory holds (R360, R418). -/
def bar2Read (s : State) (off : Nat) : Dword :=
  let pa := s.fleet.bar2 + off
  let chip : BitVec 12 := BitVec.ofNat 12 ((pa - Config.allowBase) / 16)
  if Config.allowBase ≤ pa && pa < Config.allowBase + 16 * 4096 then
    (if pa / 8 % 2 = 0 then readAllow s.fabric chip else readAlcfg s.fabric chip)
  else if pa = Config.fabctl then readFabctl s.fabric
  else physDword s pa

/-! Function-level reset (R362). -/

/-- The regions whose ASID lies in a function's range. -/
def vfRegions (s : State) (fn : Nat) : List Region :=
  s.regions.filter fun r => (fnAt s fn).asidLo ≤ r.asid.toNat && r.asid.toNat < (fnAt s fn).asidHi

/-- One step of the removal of regions. -/
def removeAll (s : State) (rs : List Region) : State := rs.foldl (fun s r => removeStep s r.rid) s

/-- The completions that can still be written are written. -/
def lastCompletions (s : State) (fn : Nat) : State :=
  (List.range 64).foldl (fun s q => match execCompletionWrite fn q s with
    | .next s1 => s1
    | _ => s) s

/-- Steps 3 and 4: queues cleared, the invalidation in progress completed, the block reset, and every ASID of the range
invalidated. -/
def clearFn (s : State) (fn : Nat) : State :=
  let s1 := lastCompletions s fn
  let h := fnAt s1 fn
  let s2 := match h.inv.job with
    | some (kind, asid, va) => invalidate s1 kind.toNat asid va
    | none => s1
  let s3 := (List.range (h.asidHi - h.asidLo)).foldl (fun s i => invalidate s 1 (BitVec.ofNat 11 (h.asidLo + i)) 0) s2
  modFn s3 fn fun h => { HostFn.reset with asidLo := h.asidLo, asidHi := h.asidHi }

/-- The command that a function is executing has completed, and so can its invalidation. -/
def flrReady (s : State) (fn : Nat) : Bool := !fnBusy s fn && invSettled s fn

/-- FLR_VF: its queues take no further command, and the one being executed completes; the reset ends when its regions are gone. -/
def execFlrVf (fn : Nat) (s : State) : Out :=
  if fn = 0 || 64 ≤ fn then .next s
  else
    let s1 := modFn s fn fun h => { h with flr := true }
    if !flrReady s1 fn then .next s1
    else match vfRegions s1 fn with
    | [] => .next (clearFn s1 fn)
    | rs => .next (removeAll s1 rs)

/-- The blocks of the PF at their reset values. The power in force stays as the Almanac says (log 49). -/
def resetPfBlocks (s : State) : State :=
  let s1 := modFleet s fun f => { f with
    evbase := 0, evprod := 0, evcons := 0, evlost := 0, evvec := 0, pwrcap := Config.pwrcap, attbuf := 0, attnonce := 0, attCopy := 0
    attStatus := 0 }
  modFabric s1 fun f => { f with rgplan := 0, badplan := false, mismatch := false, timeout := false }

/-- FLR_PF: first every VF, then the PF and every region of the chip; a report and a regrouping are carried through first. -/
def execFlrPf (s : State) : Out :=
  let s1 := { s with fns := s.fns.map fun h => { h with flr := true } }
  let vfs := (List.range 63).map (· + 1)
  if !(List.range 64).all (flrReady s1) then .next s1
  else match vfs.flatMap (vfRegions s1) with
  | r :: rs => .next (removeAll s1 (r :: rs))
  | [] =>
    let s2 := vfs.foldl (fun s fn => modFn (clearFn s fn) fn fun h => { h with flr := true }) s1
    if !s2.regions.isEmpty then .next (removeAll s2 s2.regions)
    else if s2.fleet.attBusy || s2.fabric.rgState != .idle then .next s2
    else
      let s3 := resetPfBlocks (clearFn s2 0)
      .next { s3 with fns := s3.fns.map fun h => { h with flr := false } }

/-! Module reset (R8, R404, R417, R425). -/

/-- MODULE_RESET: every register and table at its reset value; Gheah writes the Almanac and the lone group table, or, when no
image verifies, the module is in recovery. What lies outside the module, and the leaf counter, are kept. -/
def execModuleReset (sigOk : Bool) (s : State) : Out :=
  let s1 : State := { State.reset with inputs := s.inputs, turn := s.turn, free := s.free, hostMem := s.hostMem }
  let s2 := modFleet s1 fun f => { f with
    leaf := s.fleet.leaf, msix := s.fleet.msix, recovery := !sigOk, almanacGen := s.fleet.almanacGen + 2 }
  .next (writeTable s2)

end Sys2Proof.Machine
end

