-- ==== Sys2Proof/Machine/Lines.lean ====
section
/-! DEFINITION. Stores that wait for a retention copy (R259), stores to REPLICATED lines (R261), scrubbing (R422), and host
writes through BAR2 (R360). -/

namespace Sys2Proof.Machine

/-! The pool (R259). -/

/-- A store under an open version whose line needs a retained copy. -/
def needsCopy (s : State) (b : BStore) : Bool :=
  let t := tagAt s (b.pa / 128)
  !(t.kind == 1 && t.ver == b.version)

/-- POOL_STORE_RESUME: the oldest bundled store that waited for a copy lands now that one is free. A store to a PHASED line
waits in its own instruction or unit, which is then tried again. -/
def execPoolStoreResume (s : State) : Out :=
  let p (b : BStore) : Bool := needsCopy s b && storeCanLand s b
  match s.bstores.find? p with
  | none => .next s
  | some b => .next (wroteFor (ackWrite (landStore { s with bstores := dropFirst p s.bstores } b) b.ack) b.core b.st)

/-! Replicated lines (R261). -/

/-- Two stores have a line in common. -/
def linesMeet (a b : RStore) : Bool :=
  a.entry == b.entry && a.pa / 128 ≤ (b.pa + b.bytes.length - 1) / 128 && b.pa / 128 ≤ (a.pa + a.bytes.length - 1) / 128

/-- Another store holds replica `j` of a line of this one locked. -/
def lockedByOther (l : List RStore) (w : RStore) (j : Nat) : Bool :=
  (l.filter fun x => x != w).any fun x => linesMeet x w && x.written ≤ j && j < x.locked

/-- The store can take its next lock or make its next write. -/
def canAdvance (s : State) (w : RStore) : Bool :=
  (replicaEntry s w.entry).nrep ≤ w.locked || !lockedByOther s.rstores w w.locked

/-- One step of a store: the next lock in ascending order, then the next write, each unlocking its replica (R261). -/
def advanceStore (s : State) (w : RStore) : State :=
  let r := replicaEntry s w.entry
  let put (x : RStore) : State := { s with rstores := modFirst (· == w) (fun _ => x) s.rstores }
  if w.locked < r.nrep then put { w with locked := w.locked + 1 }
  else if w.written < r.nrep then physWrite (put { w with written := w.written + 1 }) (replicaAddr r w.pa w.written) w.bytes
  else wroteFor (ackWrite { s with rstores := dropFirst (· == w) s.rstores } w.ack) w.core w.st

/-- REPLICA_LOCK: the oldest store to a replicated line that can go on makes its next step. -/
def execReplicaLock (s : State) : Out :=
  match s.rstores.find? (canAdvance s) with
  | none => .next s
  | some w => .next (advanceStore s w)

/-! Scrubbing (R422). -/

/-- A correctable error found: rewritten and counted, with a CORRECTED record at most once per source each 2^20 cycles. -/
def correctedFound (s : State) (pa : Nat) : State :=
  let src := checkSource pa
  let f := s.fleet
  let counted := match holdsAt pa with
    | .vault v _ => { f with correctedVault := vmod f.correctedVault (v / 32) (· + 1) }
    | .hbm n _ => { f with correctedHbm := vmod f.correctedHbm n (· + 1) }
    | .nothing => f
  let x := (kget f.corrected src).getD (0, none)
  let now := (dieAt s (recDie src)).cyc
  let n := x.1 + 1
  let due := match x.2 with
    | none => true
    | some t => 2 ^ 20 ≤ (now - t).toNat
  if due then
    writeRecord { s with fleet := { counted with corrected := kset f.corrected src (0, some now) } }
      { src := src, code := 0x0201, sev := 1, core := none, rid := 0, asid := none,
        body := leBytes 2 0 ++ leBytes 4 (checkCode pa) ++ leBytes 8 pa ++ leBytes 8 n, ext := [] }
  else { s with fleet := { counted with corrected := kset f.corrected src (n, x.2) } }

/-- SCRUB of a granule. An uncorrectable error stays marked until a write repairs it; one already marked changes nothing. -/
def execScrub (pa : Nat) (found : ScrubResult) (s : State) : Out :=
  match holdsAt pa with
  | .nothing => .next s
  | _ =>
    match found with
    | .clean => .next s
    | .corrected => .next (if flawed s pa then s else correctedFound s pa)
    | .uncorrectable =>
      let s1 := if flawed s pa then s else { s with bad := granuleOf pa :: s.bad }
      .next (uncorrRecord s1 pa 0 none)

/-! Soft errors (R422). -/

/-- An UNCORR record of a check that no address belongs to (R420, R422): `what` stands in the field of the address (log 63). -/
def checkRecord (s : State) (src check what : Nat) (core : Option Nat) : State :=
  writeRecord s
    { src := src, code := 0x0202, sev := 2, core := core, rid := 0, asid := none,
      body := leBytes 2 0 ++ leBytes 4 check ++ leBytes 8 what ++ leBytes 8 0, ext := [] }

/-- Value bits of an accumulator cell flip. Its parity is checked: an error found poisons the cell, with a record of its tile row. -/
def strikeCell (s : State) (c : Nat) (z : BitVec 1) (n : Nat) (flip : BitVec 128) : State :=
  let x := (vget (coreAt s c).z z.toNat Tile.zero).cell n
  let hit : Cell := { x with value := x.value ^^^ flip }
  let s1 := modCore s c (modTile z fun t => t.setCell n hit.checked)
  if hit.par == parity hit.value then s1 else checkRecord s1 (dieOf c) 7 (n / 256) (some c)

/-- A soft error comes: to a buffer, where it lies until the buffer is used; to an accumulator cell; or to a request of the host link,
which is dropped with a record. -/
def takeSoft (s : State) (e : SoftError) : State :=
  match e with
  | .cell c z n flip => if c < 512 ∧ n < 32768 then strikeCell s c z n flip else s
  | .ecrc => checkRecord s 17 5 0 none
  | .line .. => { s with soft := s.soft ++ [e] }
  | .staging .. => { s with soft := s.soft ++ [e] }

/-! BAR2 (R360). -/

/-- BAR2's window is of 64 GiB. -/
def bar2Size : Nat := 2 ^ 36

/-- HOST_BAR2_WRITE: bytes stored at an offset of the window, to the device physical memory that Gheah has placed it on; those beyond
the window, and those where nothing is, are dropped (R232). -/
def execHostBar2Write (off : Nat) (bytes : List (BitVec 8)) (s : State) : Out :=
  let xs := bytes.take (bar2Size - off)
  let pa := s.fleet.bar2 + off
  let cells := xs.zipIdx.filter fun e => usable (pa + e.2)
  if cells.length = xs.length then .next (physWrite s pa xs)
  else .next (cells.foldl (fun s e => physWrite s (pa + e.2) [e.1]) s)

end Sys2Proof.Machine
end

