-- ==== Sys2Proof/Machine/Dispatch.lean ====
section
/-! DEFINITION. Which meaning each instruction and event has, one arm per constructor of `Instr`. -/

namespace Sys2Proof.Machine

def exec (i : Instr) (s : State) : Host.Outcome State Fault Refusal :=
  match i with
  | .nop m => Sys2Proof.Machine.execNop m s
  | .add m a b c => Sys2Proof.Machine.execAdd m a b c s
  | .addI m a b imm => Sys2Proof.Machine.execAddI m a b imm s
  | .sub m a b c => Sys2Proof.Machine.execSub m a b c s
  | .subI m a b imm => Sys2Proof.Machine.execSubI m a b imm s
  | .andG m a b c => Sys2Proof.Machine.execAndG m a b c s
  | .andGI m a b imm => Sys2Proof.Machine.execAndGI m a b imm s
  | .orG m a b c => Sys2Proof.Machine.execOrG m a b c s
  | .orGI m a b imm => Sys2Proof.Machine.execOrGI m a b imm s
  | .xorG m a b c => Sys2Proof.Machine.execXorG m a b c s
  | .xorGI m a b imm => Sys2Proof.Machine.execXorGI m a b imm s
  | .andn m a b c => Sys2Proof.Machine.execAndn m a b c s
  | .andnI m a b imm => Sys2Proof.Machine.execAndnI m a b imm s
  | .shl m a b c => Sys2Proof.Machine.execShl m a b c s
  | .shlI m a b imm => Sys2Proof.Machine.execShlI m a b imm s
  | .shr m a b c => Sys2Proof.Machine.execShr m a b c s
  | .shrI m a b imm => Sys2Proof.Machine.execShrI m a b imm s
  | .sra m a b c => Sys2Proof.Machine.execSra m a b c s
  | .sraI m a b imm => Sys2Proof.Machine.execSraI m a b imm s
  | .rol m a b c => Sys2Proof.Machine.execRol m a b c s
  | .rolI m a b imm => Sys2Proof.Machine.execRolI m a b imm s
  | .mul m a b c => Sys2Proof.Machine.execMul m a b c s
  | .mulI m a b imm => Sys2Proof.Machine.execMulI m a b imm s
  | .mulh m a b c => Sys2Proof.Machine.execMulh m a b c s
  | .mulhu m a b c => Sys2Proof.Machine.execMulhu m a b c s
  | .div m a b c => Sys2Proof.Machine.execDiv m a b c s
  | .divu m a b c => Sys2Proof.Machine.execDivu m a b c s
  | .rem m a b c => Sys2Proof.Machine.execRem m a b c s
  | .remu m a b c => Sys2Proof.Machine.execRemu m a b c s
  | .min m a b c => Sys2Proof.Machine.execMin m a b c s
  | .minI m a b imm => Sys2Proof.Machine.execMinI m a b imm s
  | .max m a b c => Sys2Proof.Machine.execMax m a b c s
  | .maxI m a b imm => Sys2Proof.Machine.execMaxI m a b imm s
  | .minu m a b c => Sys2Proof.Machine.execMinu m a b c s
  | .minuI m a b imm => Sys2Proof.Machine.execMinuI m a b imm s
  | .maxu m a b c => Sys2Proof.Machine.execMaxu m a b c s
  | .maxuI m a b imm => Sys2Proof.Machine.execMaxuI m a b imm s
  | .clz m a b => Sys2Proof.Machine.execClz m a b s
  | .popc m a b => Sys2Proof.Machine.execPopc m a b s
  | .sext m a b w => Sys2Proof.Machine.execSext m a b w s
  | .zext m a b w => Sys2Proof.Machine.execZext m a b w s
  | .cmpeq m a b c => Sys2Proof.Machine.execCmpeq m a b c s
  | .cmpeqI m a b imm => Sys2Proof.Machine.execCmpeqI m a b imm s
  | .cmplt m a b c => Sys2Proof.Machine.execCmplt m a b c s
  | .cmpltI m a b imm => Sys2Proof.Machine.execCmpltI m a b imm s
  | .cmpltu m a b c => Sys2Proof.Machine.execCmpltu m a b c s
  | .cmpltuI m a b imm => Sys2Proof.Machine.execCmpltuI m a b imm s
  | .sel m a b c => Sys2Proof.Machine.execSel m a b c s
  | .li m a imm => Sys2Proof.Machine.execLi m a imm s
  | .liWide m a lo hi => Sys2Proof.Machine.execLiWide m a lo hi s
  | .lih m a imm => Sys2Proof.Machine.execLih m a imm s
  | .lea m a b c sh disp => Sys2Proof.Machine.execLea m a b c sh disp s
  | .dset m d b qtr => Sys2Proof.Machine.execDset m d b qtr s
  | .ld8 m a b => Sys2Proof.Machine.execLd8 m a b s
  | .ld8Disp m a b disp => Sys2Proof.Machine.execLd8Disp m a b disp s
  | .ld8s m a b => Sys2Proof.Machine.execLd8s m a b s
  | .ld8sDisp m a b disp => Sys2Proof.Machine.execLd8sDisp m a b disp s
  | .ld16 m a b => Sys2Proof.Machine.execLd16 m a b s
  | .ld16Disp m a b disp => Sys2Proof.Machine.execLd16Disp m a b disp s
  | .ld16s m a b => Sys2Proof.Machine.execLd16s m a b s
  | .ld16sDisp m a b disp => Sys2Proof.Machine.execLd16sDisp m a b disp s
  | .ld32 m a b => Sys2Proof.Machine.execLd32 m a b s
  | .ld32Disp m a b disp => Sys2Proof.Machine.execLd32Disp m a b disp s
  | .ld32s m a b => Sys2Proof.Machine.execLd32s m a b s
  | .ld32sDisp m a b disp => Sys2Proof.Machine.execLd32sDisp m a b disp s
  | .ld64 m a b => Sys2Proof.Machine.execLd64 m a b s
  | .ld64Disp m a b disp => Sys2Proof.Machine.execLd64Disp m a b disp s
  | .pref m b => Sys2Proof.Machine.execPref m b s
  | .prefDisp m b disp => Sys2Proof.Machine.execPrefDisp m b disp s
  | .st8 m b c => Sys2Proof.Machine.execSt8 m b c s
  | .st8Disp m b c disp => Sys2Proof.Machine.execSt8Disp m b c disp s
  | .st16 m b c => Sys2Proof.Machine.execSt16 m b c s
  | .st16Disp m b c disp => Sys2Proof.Machine.execSt16Disp m b c disp s
  | .st32 m b c => Sys2Proof.Machine.execSt32 m b c s
  | .st32Disp m b c disp => Sys2Proof.Machine.execSt32Disp m b c disp s
  | .st64 m b c => Sys2Proof.Machine.execSt64 m b c s
  | .st64Disp m b c disp => Sys2Proof.Machine.execSt64Disp m b c disp s
  | .aadd m a b c disp scope => Sys2Proof.Machine.execAadd m a b c disp scope s
  | .aand m a b c disp scope => Sys2Proof.Machine.execAand m a b c disp scope s
  | .aor m a b c disp scope => Sys2Proof.Machine.execAor m a b c disp scope s
  | .axor m a b c disp scope => Sys2Proof.Machine.execAxor m a b c disp scope s
  | .amin m a b c disp scope => Sys2Proof.Machine.execAmin m a b c disp scope s
  | .amax m a b c disp scope => Sys2Proof.Machine.execAmax m a b c disp scope s
  | .aminu m a b c disp scope => Sys2Proof.Machine.execAminu m a b c disp scope s
  | .amaxu m a b c disp scope => Sys2Proof.Machine.execAmaxu m a b c disp scope s
  | .aswap m a b c disp scope => Sys2Proof.Machine.execAswap m a b c disp scope s
  | .acas m a b c disp scope => Sys2Proof.Machine.execAcas m a b c disp scope s
  | .fence m scope => Sys2Proof.Machine.execFence m scope s
  | .fenceComplete => Sys2Proof.Machine.execFenceComplete s
  | .xfence m scope src dst => Sys2Proof.Machine.execXfence m scope src dst s
  | .xfenceComplete => Sys2Proof.Machine.execXfenceComplete s
  | .phase m => Sys2Proof.Machine.execPhase m s
  | .phaseCommit g => Sys2Proof.Machine.execPhaseCommit g s
  | .bopen m a b => Sys2Proof.Machine.execBopen m a b s
  | .bopenAnswer answer => Sys2Proof.Machine.execBopenAnswer answer s
  | .bseal m a => Sys2Proof.Machine.execBseal m a s
  | .bsealComplete => Sys2Proof.Machine.execBsealComplete s
  | .babort m => Sys2Proof.Machine.execBabort m s
  | .bundledStoreLand => Sys2Proof.Machine.execBundledStoreLand s
  | .homeCommit bid seg => Sys2Proof.Machine.execHomeCommit bid seg s
  | .homeLost bid seg => Sys2Proof.Machine.execHomeLost bid seg s
  | .pbr m n target => Sys2Proof.Machine.execPbr m n target s
  | .pbrr m n b => Sys2Proof.Machine.execPbrr m n b s
  | .br m n b cond => Sys2Proof.Machine.execBr m n b cond s
  | .bra m n => Sys2Proof.Machine.execBra m n s
  | .call m n => Sys2Proof.Machine.execCall m n s
  | .fork m line mask => Sys2Proof.Machine.execFork m line mask s
  | .rdv m mask => Sys2Proof.Machine.execRdv m mask s
  | .rdvComplete => Sys2Proof.Machine.execRdvComplete s
  | .steer m e b => Sys2Proof.Machine.execSteer m e b s
  | .steerImm m e line => Sys2Proof.Machine.execSteerImm m e line s
  | .steerAppend => Sys2Proof.Machine.execSteerAppend s
  | .earg m e b n => Sys2Proof.Machine.execEarg m e b n s
  | .waitcc m n value => Sys2Proof.Machine.execWaitcc m n value s
  | .waitccComplete => Sys2Proof.Machine.execWaitccComplete s
  | .cbset m h f => Sys2Proof.Machine.execCbset m h f s
  | .cbsetComplete => Sys2Proof.Machine.execCbsetComplete s
  | .cbwait m h role c => Sys2Proof.Machine.execCbwait m h role c s
  | .cbwaitComplete => Sys2Proof.Machine.execCbwaitComplete s
  | .cbadv m h role c => Sys2Proof.Machine.execCbadv m h role c s
  | .item m a => Sys2Proof.Machine.execItem m a s
  | .itemReturn => Sys2Proof.Machine.execItemReturn s
  | .emit m a b => Sys2Proof.Machine.execEmit m a b s
  | .emitAccept => Sys2Proof.Machine.execEmitAccept s
  | .yield m => Sys2Proof.Machine.execYield m s
  | .mfs m a n => Sys2Proof.Machine.execMfs m a n s
  | .mts m a n => Sys2Proof.Machine.execMts m a n s
  | .trap m code => Sys2Proof.Machine.execTrap m code s
  | .tret m => Sys2Proof.Machine.execTret m s
  | .endOp m => Sys2Proof.Machine.execEndOp m s
  | .hint y op opnd => Sys2Proof.Machine.execHint y op opnd s
  | .hintLong y op opnd ext => Sys2Proof.Machine.execHintLong y op opnd ext s
  | .wcfg y f => Sys2Proof.Machine.execWcfg y f s
  | .wbmap y f => Sys2Proof.Machine.execWbmap y f s
  | .wcoord y f => Sys2Proof.Machine.execWcoord y f s
  | .wdense y f => Sys2Proof.Machine.execWdense y f s
  | .wmark y p => Sys2Proof.Machine.execWmark y p s
  | .walkMsprMeet => Sys2Proof.Machine.execWalkMsprMeet s
  | .roundPrepare => Sys2Proof.Machine.execRoundPrepare s
  | .flowStep => Sys2Proof.Machine.execFlowStep s
  | .flowEnd => Sys2Proof.Machine.execFlowEnd s
  | .listRecordWrite => Sys2Proof.Machine.execListRecordWrite s
  | .mlease y n1 => Sys2Proof.Machine.execMlease y n1 s
  | .leaseGrant cl => Sys2Proof.Machine.execLeaseGrant cl s
  | .mrel y => Sys2Proof.Machine.execMrel y s
  | .mcfg y f => Sys2Proof.Machine.execMcfg y f s
  | .mzero y z => Sys2Proof.Machine.execMzero y z s
  | .mlds y f => Sys2Proof.Machine.execMlds y f s
  | .mldsLong y f x => Sys2Proof.Machine.execMldsLong y f x s
  | .mldsColumn => Sys2Proof.Machine.execMldsColumn s
  | .mswap y => Sys2Proof.Machine.execMswap y s
  | .mstr y f x => Sys2Proof.Machine.execMstr y f x s
  | .mconv y f => Sys2Proof.Machine.execMconv y f s
  | .rowStep => Sys2Proof.Machine.execRowStep s
  | .mspr y f => Sys2Proof.Machine.execMspr y f s
  | .arrayCommandComplete => Sys2Proof.Machine.execArrayCommandComplete s
  | .powerTokenTake cl => Sys2Proof.Machine.execPowerTokenTake cl s
  | .mdrn y f => Sys2Proof.Machine.execMdrn y f s
  | .mdrnLong y f x => Sys2Proof.Machine.execMdrnLong y f x s
  | .mdrnRow => Sys2Proof.Machine.execMdrnRow s
  | .vrd y f => Sys2Proof.Machine.execVrd y f s
  | .vrdLong y f x => Sys2Proof.Machine.execVrdLong y f x s
  | .readRunPlace q => Sys2Proof.Machine.execReadRunPlace q s
  | .vwr y f => Sys2Proof.Machine.execVwr y f s
  | .vwrLong y f x => Sys2Proof.Machine.execVwrLong y f x s
  | .vgath y f => Sys2Proof.Machine.execVgath y f s
  | .vscat y f => Sys2Proof.Machine.execVscat y f s
  | .vectorIteration => Sys2Proof.Machine.execVectorIteration s
  | .vectorWritesLanded => Sys2Proof.Machine.execVectorWritesLanded s
  | .vmov y f => Sys2Proof.Machine.execVmov y f s
  | .vmovV2 y f => Sys2Proof.Machine.execVmovV2 y f s
  | .vsplat y f => Sys2Proof.Machine.execVsplat y f s
  | .vadd y f => Sys2Proof.Machine.execVadd y f s
  | .vaddV2 y f => Sys2Proof.Machine.execVaddV2 y f s
  | .vsub y f => Sys2Proof.Machine.execVsub y f s
  | .vsubV2 y f => Sys2Proof.Machine.execVsubV2 y f s
  | .vmul y f => Sys2Proof.Machine.execVmul y f s
  | .vmulV2 y f => Sys2Proof.Machine.execVmulV2 y f s
  | .vfma y f => Sys2Proof.Machine.execVfma y f s
  | .vfmaV2 y f => Sys2Proof.Machine.execVfmaV2 y f s
  | .vmin y f => Sys2Proof.Machine.execVmin y f s
  | .vminV2 y f => Sys2Proof.Machine.execVminV2 y f s
  | .vmax y f => Sys2Proof.Machine.execVmax y f s
  | .vmaxV2 y f => Sys2Proof.Machine.execVmaxV2 y f s
  | .vabs y f => Sys2Proof.Machine.execVabs y f s
  | .vabsV2 y f => Sys2Proof.Machine.execVabsV2 y f s
  | .vneg y f => Sys2Proof.Machine.execVneg y f s
  | .vnegV2 y f => Sys2Proof.Machine.execVnegV2 y f s
  | .vand y f => Sys2Proof.Machine.execVand y f s
  | .vandV2 y f => Sys2Proof.Machine.execVandV2 y f s
  | .vor y f => Sys2Proof.Machine.execVor y f s
  | .vorV2 y f => Sys2Proof.Machine.execVorV2 y f s
  | .vxor y f => Sys2Proof.Machine.execVxor y f s
  | .vxorV2 y f => Sys2Proof.Machine.execVxorV2 y f s
  | .vshl y f => Sys2Proof.Machine.execVshl y f s
  | .vshlV2 y f => Sys2Proof.Machine.execVshlV2 y f s
  | .vshr y f => Sys2Proof.Machine.execVshr y f s
  | .vshrV2 y f => Sys2Proof.Machine.execVshrV2 y f s
  | .vsra y f => Sys2Proof.Machine.execVsra y f s
  | .vsraV2 y f => Sys2Proof.Machine.execVsraV2 y f s
  | .vcmp y f => Sys2Proof.Machine.execVcmp y f s
  | .vcmpV2 y f => Sys2Proof.Machine.execVcmpV2 y f s
  | .vsel y f => Sys2Proof.Machine.execVsel y f s
  | .vselV2 y f => Sys2Proof.Machine.execVselV2 y f s
  | .vclmp y f => Sys2Proof.Machine.execVclmp y f s
  | .vcvt y f => Sys2Proof.Machine.execVcvt y f s
  | .vcvtV2 y f => Sys2Proof.Machine.execVcvtV2 y f s
  | .vqnt y f => Sys2Proof.Machine.execVqnt y f s
  | .vrcp y f => Sys2Proof.Machine.execVrcp y f s
  | .vrcpV2 y f => Sys2Proof.Machine.execVrcpV2 y f s
  | .vrsq y f => Sys2Proof.Machine.execVrsq y f s
  | .vrsqV2 y f => Sys2Proof.Machine.execVrsqV2 y f s
  | .vexp2 y f => Sys2Proof.Machine.execVexp2 y f s
  | .vexp2V2 y f => Sys2Proof.Machine.execVexp2V2 y f s
  | .vlog2 y f => Sys2Proof.Machine.execVlog2 y f s
  | .vlog2V2 y f => Sys2Proof.Machine.execVlog2V2 y f s
  | .vred y f => Sys2Proof.Machine.execVred y f s
  | .vredV2 y f => Sys2Proof.Machine.execVredV2 y f s
  | .vscan y f => Sys2Proof.Machine.execVscan y f s
  | .vscanV2 y f => Sys2Proof.Machine.execVscanV2 y f s
  | .vpart y f => Sys2Proof.Machine.execVpart y f s
  | .viota y f => Sys2Proof.Machine.execViota y f s
  | .vshuf y f => Sys2Proof.Machine.execVshuf y f s
  | .vshufV2 y f => Sys2Proof.Machine.execVshufV2 y f s
  | .vpack y f => Sys2Proof.Machine.execVpack y f s
  | .vunpk y f => Sys2Proof.Machine.execVunpk y f s
  | .kcopy y f => Sys2Proof.Machine.execKcopy y f s
  | .k2d y f => Sys2Proof.Machine.execK2d y f s
  | .kgath y f => Sys2Proof.Machine.execKgath y f s
  | .kscat y f => Sys2Proof.Machine.execKscat y f s
  | .kfill y f => Sys2Proof.Machine.execKfill y f s
  | .kpf y f => Sys2Proof.Machine.execKpf y f s
  | .kenc y f => Sys2Proof.Machine.execKenc y f s
  | .kdec y f => Sys2Proof.Machine.execKdec y f s
  | .ktab y f => Sys2Proof.Machine.execKtab y f s
  | .kview y f => Sys2Proof.Machine.execKview y f s
  | .kviewPass => Sys2Proof.Machine.execKviewPass s
  | .kimg y f => Sys2Proof.Machine.execKimg y f s
  | .pageDecoderAssign die => Sys2Proof.Machine.execPageDecoderAssign die s
  | .patchRowWrite => Sys2Proof.Machine.execPatchRowWrite s
  | .copyUnit => Sys2Proof.Machine.execCopyUnit s
  | .transferComplete => Sys2Proof.Machine.execTransferComplete s
  | .lineFetch st => Sys2Proof.Machine.execLineFetch st s
  | .exposedResultWrite => Sys2Proof.Machine.execExposedResultWrite s
  | .interlockedValueArrive => Sys2Proof.Machine.execInterlockedValueArrive s
  | .retiringPush st => Sys2Proof.Machine.execRetiringPush st s
  | .hangTimeout st => Sys2Proof.Machine.execHangTimeout st s
  | .operatorRetire => Sys2Proof.Machine.execOperatorRetire s
  | .launchBankSwapIn => Sys2Proof.Machine.execLaunchBankSwapIn s
  | .bankWakeDone bank => Sys2Proof.Machine.execBankWakeDone bank s
  | .bankGatedExit bank => Sys2Proof.Machine.execBankGatedExit bank s
  | .bankEnterRetain bank => Sys2Proof.Machine.execBankEnterRetain bank s
  | .preemptRequest => Sys2Proof.Machine.execPreemptRequest s
  | .contextSave => Sys2Proof.Machine.execContextSave s
  | .machineCheck kind pa => Sys2Proof.Machine.execMachineCheck kind pa s
  | .poolStoreResume => Sys2Proof.Machine.execPoolStoreResume s
  | .replicaLock => Sys2Proof.Machine.execReplicaLock s
  | .scrub pa found => Sys2Proof.Machine.execScrub pa found s
  | .kickWrite fn q v => Sys2Proof.Machine.execKickWrite fn q v s
  | .qcbReread fn q => Sys2Proof.Machine.execQcbReread fn q s
  | .submit fn q => Sys2Proof.Machine.execSubmit fn q s
  | .trigger fn q => Sys2Proof.Machine.execTrigger fn q s
  | .close fn q => Sys2Proof.Machine.execClose fn q s
  | .regionAdd fn q => Sys2Proof.Machine.execRegionAdd fn q s
  | .regionRemove fn q => Sys2Proof.Machine.execRegionRemove fn q s
  | .dltSet fn q => Sys2Proof.Machine.execDltSet fn q s
  | .badcmd fn q => Sys2Proof.Machine.execBadcmd fn q s
  | .completionWrite fn q => Sys2Proof.Machine.execCompletionWrite fn q s
  | .completionConsumerWrite fn q v => Sys2Proof.Machine.execCompletionConsumerWrite fn q v s
  | .triggerWordWrite rid v => Sys2Proof.Machine.execTriggerWordWrite rid v s
  | .nodeEnd rid => Sys2Proof.Machine.execNodeEnd rid s
  | .nodeLaunch rid => Sys2Proof.Machine.execNodeLaunch rid s
  | .nodeLoop rid => Sys2Proof.Machine.execNodeLoop rid s
  | .nodeCond rid => Sys2Proof.Machine.execNodeCond rid s
  | .nodeWait rid => Sys2Proof.Machine.execNodeWait rid s
  | .nodeWaitPoll rid => Sys2Proof.Machine.execNodeWaitPoll rid s
  | .nodeSignal rid => Sys2Proof.Machine.execNodeSignal rid s
  | .shadowBankWrite rid => Sys2Proof.Machine.execShadowBankWrite rid s
  | .coreGrant die => Sys2Proof.Machine.execCoreGrant die s
  | .gheahPreemptOrder c rid reason area => Sys2Proof.Machine.execGheahPreemptOrder c rid reason area s
  | .inputClosePropagate rid => Sys2Proof.Machine.execInputClosePropagate rid s
  | .faultDomainStop fdom => Sys2Proof.Machine.execFaultDomainStop fdom s
  | .stealAdvert => Sys2Proof.Machine.execStealAdvert s
  | .stealRequest chip rid stage => Sys2Proof.Machine.execStealRequest chip rid stage s
  | .stolenEmit rid stage item => Sys2Proof.Machine.execStolenEmit rid stage item s
  | .flrVf fn => Sys2Proof.Machine.execFlrVf fn s
  | .flrPf => Sys2Proof.Machine.execFlrPf s
  | .serviceCoreWatchdog sc => Sys2Proof.Machine.execServiceCoreWatchdog sc s
  | .moduleReset sigOk => Sys2Proof.Machine.execModuleReset sigOk s
  | .invcGo fn v => Sys2Proof.Machine.execInvcGo fn v s
  | .invalidationComplete fn => Sys2Proof.Machine.execInvalidationComplete fn s
  | .flitSend port => Sys2Proof.Machine.execFlitSend port s
  | .idleSend port => Sys2Proof.Machine.execIdleSend port s
  | .flitReceive port flit => Sys2Proof.Machine.execFlitReceive port flit s
  | .replayRequest port => Sys2Proof.Machine.execReplayRequest port s
  | .ackTimeout port => Sys2Proof.Machine.execAckTimeout port s
  | .portSilent port => Sys2Proof.Machine.execPortSilent port s
  | .lossOfLight port band waves => Sys2Proof.Machine.execLossOfLight port band waves s
  | .rstr port band lit => Sys2Proof.Machine.execRstr port band lit s
  | .relockEnd port band => Sys2Proof.Machine.execRelockEnd port band s
  | .remoteRequestSend chip => Sys2Proof.Machine.execRemoteRequestSend chip s
  | .write pkt => Sys2Proof.Machine.execWrite pkt s
  | .rdreq pkt => Sys2Proof.Machine.execRdreq pkt s
  | .atomic pkt => Sys2Proof.Machine.execAtomic pkt s
  | .rdresp pkt => Sys2Proof.Machine.execRdresp pkt s
  | .wrack pkt => Sys2Proof.Machine.execWrack pkt s
  | .atresp pkt => Sys2Proof.Machine.execAtresp pkt s
  | .errresp pkt => Sys2Proof.Machine.execErrresp pkt s
  | .heartbeatSend => Sys2Proof.Machine.execHeartbeatSend s
  | .heartbeat src epoch => Sys2Proof.Machine.execHeartbeat src epoch s
  | .peerFailTimeout chip => Sys2Proof.Machine.execPeerFailTimeout chip s
  | .failed chip epoch => Sys2Proof.Machine.execFailed chip epoch s
  | .advert src rid stage occ => Sys2Proof.Machine.execAdvert src rid stage occ s
  | .steal msg => Sys2Proof.Machine.execSteal msg s
  | .linkid port peer peerPort epoch => Sys2Proof.Machine.execLinkid port peer peerPort epoch s
  | .committed port epoch => Sys2Proof.Machine.execCommitted port epoch s
  | .quiesce => Sys2Proof.Machine.execQuiesce s
  | .settled => Sys2Proof.Machine.execSettled s
  | .vigil port round epoch => Sys2Proof.Machine.execVigil port round epoch s
  | .quiesceTimeout => Sys2Proof.Machine.execQuiesceTimeout s
  | .relock => Sys2Proof.Machine.execRelock s
  | .relockTimeout => Sys2Proof.Machine.execRelockTimeout s
  | .regroupCommit => Sys2Proof.Machine.execRegroupCommit s
  | .allowWrite chip v => Sys2Proof.Machine.execAllowWrite chip v s
  | .alcfgWrite chip v => Sys2Proof.Machine.execAlcfgWrite chip v s
  | .evidxConsWrite v => Sys2Proof.Machine.execEvidxConsWrite v s
  | .pwrcapWrite v => Sys2Proof.Machine.execPwrcapWrite v s
  | .thermalSample die milliC inletMilliC => Sys2Proof.Machine.execThermalSample die milliC inletMilliC s
  | .attestationGo v => Sys2Proof.Machine.execAttestationGo v s
  | .attestationReportDone => Sys2Proof.Machine.execAttestationReportDone s
  | .telemetryRefresh t => Sys2Proof.Machine.execTelemetryRefresh t s
  | .registerWrite fn off v => Sys2Proof.Machine.execRegisterWrite fn off v s
  | .illegalInstruction => Sys2Proof.Machine.execIllegalInstruction s
  | .mzeroComplete => Sys2Proof.Machine.execMzeroComplete s
  | .mdrnWritesLanded => Sys2Proof.Machine.execMdrnWritesLanded s
  | .hostBar2Write pa bytes => Sys2Proof.Machine.execHostBar2Write pa bytes s
  | .laserRecovery port band lm => Sys2Proof.Machine.execLaserRecovery port band lm s
  | .portRetrain port => Sys2Proof.Machine.execPortRetrain port s

end Sys2Proof.Machine
end

