-- ==== Sys2Proof/Machine/Order.lean ====
section
/-! DEFINITION. The order within a cycle where the spec gives one (R22, R24, R25, R49, R334, R348, R353, R372; log 61). `step` asks
here whether an action may still take place in the cycle it comes in; one that comes too late in it leaves the machine as it is. -/

namespace Sys2Proof.Machine

/-! At one core. -/

/-- The rank of a stream's own actions: the lowest stream comes first, so that its fault is the one recorded (R49, R372 row 2). -/
def streamRank (st : StreamId) : Nat := 1 + streamNum st

/-- The rank of an event at a core: a machine check before all (R372 row 1), then the streams, then what belongs to the end of the
cycle, which is the landing of pushes (R22, R105), the comparison of WAITCC (R25), and the pre-emption request, which comes behind the
faults and END (R372 row 4). Other events have no place in the cycle. -/
def eventRank : Instr → Option Nat
  | .machineCheck .. => some 0
  | .lineFetch st => some (streamRank st)
  | .hangTimeout st => some (streamRank st)
  | .exposedResultWrite | .interlockedValueArrive | .fenceComplete | .xfenceComplete | .bopenAnswer .. | .bsealComplete | .rdvComplete
  | .steerAppend | .cbsetComplete | .cbwaitComplete | .itemReturn | .emitAccept => some (streamRank .c)
  | .walkMsprMeet | .roundPrepare | .flowStep | .flowEnd | .listRecordWrite => some (streamRank .w)
  | .vectorIteration | .vectorWritesLanded | .readRunPlace .. => some (streamRank .v)
  | .mldsColumn | .rowStep | .arrayCommandComplete | .mdrnRow | .mdrnWritesLanded | .mzeroComplete => some (streamRank .m)
  | .kviewPass | .copyUnit | .transferComplete | .patchRowWrite => some (streamRank .k)
  | .retiringPush .. | .waitccComplete | .preemptRequest => some 6
  | _ => none

/-- The stream on whose behalf an event at a core acts. -/
def eventStream (i : Instr) : StreamId :=
  match eventRank i with
  | some n => if 2 ≤ n && n ≤ 5 then streamOf (n - 1) else .c
  | none => .c

/-! At the front end. -/

/-- The place of a change of a stage's queue within a cycle: removals by ITEM by core, by stealing, insertions by host commands in
queue order, by EMIT by core (R334, R353). -/
def queueRank (c : Nat) : Instr → Option Nat
  | .itemReturn => some c
  | .stealRequest .. => some 512
  | .submit fn q => some (513 + 64 * fn + q)
  | .emitAccept => some (4609 + c)
  | .stolenEmit .. => some 5121
  | _ => none

/-- Grants of one cycle are counted chip-wide in ascending die order (R348). -/
def grantRank : Instr → Option Nat
  | .coreGrant d => some d
  | _ => none

/-- A rank that is not below how far the cycle has come. -/
def notLate (reached : Nat) : Option Nat → Bool
  | none => true
  | some r => reached ≤ r

/-- How far the cycle has come after it. -/
def reach (reached : Nat) : Option Nat → Nat
  | none => reached
  | some r => r

/-- An event that may still take place in this cycle. -/
def inOrder (s : State) (c : Nat) (i : Instr) : Bool :=
  notLate (coreAt s c).rank (eventRank i) && notLate s.queueTurn (queueRank c i) && notLate s.grantTurn (grantRank i)

/-- How far the cycle has come with an event. -/
def noteOrder (s : State) (c : Nat) (i : Instr) : State :=
  let s1 := { s with queueTurn := reach s.queueTurn (queueRank c i), grantTurn := reach s.grantTurn (grantRank i) }
  match eventRank i with
  | none => s1
  | some r => modCore s1 c fun k => { k with rank := r }

/-! At issue. -/

/-- The instruction moves a handle that its cluster shares (R24). -/
def movesShared (s : State) (c : Nat) : Instr → Bool
  | .cbadv _ h .. => (sharedCb s c h).valid
  | _ => false

/-- A stream may still issue in this cycle; a shared handle is moved by the cores of a cluster in ascending order (R24, R49). -/
def issueInOrder (s : State) (c : Nat) (st : StreamId) (i : Instr) : Bool :=
  (coreAt s c).rank ≤ streamRank st && (!movesShared s c i || (clusterAt s (clusterOf c)).cbTurn ≤ c)

/-- How far the cycle has come with an issue. -/
def noteIssue (s : State) (c : Nat) (st : StreamId) (i : Instr) : State :=
  let s1 := modCore s c fun k => { k with rank := streamRank st }
  if movesShared s c i then modCluster s1 (clusterOf c) fun l => { l with cbTurn := c } else s1

end Sys2Proof.Machine
end

