-- ==== Sys2Proof/Machine/Turns.lean ====
section
/-! DEFINITION. The model's own turns when no input says what happens next (log 1): each core tries what its streams and units
may do, and after each core the chip tries one thing of the front end, the host queues or the fabric. -/

namespace Sys2Proof.Machine

/-- What the front end and Gheah may do. -/
def regionTurns (s : State) : List (State → Out) :=
  s.regions.flatMap (fun r =>
    [execInputClosePropagate r.rid, execNodeEnd r.rid, execNodeLaunch r.rid, execNodeLoop r.rid, execNodeCond r.rid,
     execNodeWait r.rid, execNodeWaitPoll r.rid, execNodeSignal r.rid, execShadowBankWrite r.rid])
  ++ (List.range 4).map execCoreGrant ++ s.fleet.stopDomains.map execFaultDomainStop
  ++ (s.homes.filter fun h => (openVersionOf s h.bid).isSome || isDecided s h.bid).map (fun h => execHomeCommit h.bid h.seg) ++ (List.range 256).map execPhaseCommit

/-- A function-level reset that has begun goes on (R362). -/
def resetTurns (s : State) : List (State → Out) :=
  if (fnAt s 0).flr then [execFlrPf]
  else ((List.range 64).filter fun fn => (fnAt s fn).flr).map execFlrVf

/-- What the service of the host queues may do. -/
def queueTurns (s : State) : List (State → Out) :=
  (s.fns.toList.zipIdx.flatMap fun f => f.1.queues.toList.zipIdx.flatMap fun q =>
    if !q.1.accepted && q.1.reread.isNone then []
    else [execQcbReread f.2 q.2, execSubmit f.2 q.2, execTrigger f.2 q.2, execClose f.2 q.2, execRegionAdd f.2 q.2,
          execRegionRemove f.2 q.2, execDltSet f.2 q.2, execBadcmd f.2 q.2, execCompletionWrite f.2 q.2])
  ++ s.fleet.resets.map execServiceCoreWatchdog ++ resetTurns s
  ++ (List.range 65).map execInvalidationComplete ++ [execAttestationReportDone]

/-- A packet that has arrived is dealt with (R395). -/
def packetTurn (p : Packet) : State → Out :=
  match p.ptype.toNat with
  | 1 => execRdreq p
  | 2 => execRdresp p
  | 3 => execWrite p
  | 4 => execWrack p
  | 5 => execAtomic p
  | 6 => execAtresp p
  | 7 => execErrresp p
  | _ => fun s => .next s

/-- What the fabric interface may do. -/
def fabricTurns (s : State) : List (State → Out) :=
  (s.fabric.ports.toList.zipIdx.flatMap fun p =>
    if p.1.state = .down then []
    else [execFlitSend p.2, execIdleSend p.2, execReplayRequest p.2, execAckTimeout p.2, execPortSilent p.2,
          execRelockEnd p.2 0, execRelockEnd p.2 1, execRelockEnd p.2 2, execRelockEnd p.2 3])
  ++ s.fabric.waiting.map (fun r => execRemoteRequestSend (windowChip r.addr).toNat)
  ++ s.fabric.rxPackets.map packetTurn ++ s.fabric.rxVigils.map (fun v => execVigil v.1 v.2.1 v.2.2)
  ++ s.fabric.stealReqs.map (fun x => execStealRequest x.1 x.2.1 x.2.2.1)
  ++ s.fabric.group.members.map (fun m => execPeerFailTimeout m.chip.toNat)
  ++ [execHeartbeatSend, execStealAdvert, execSettled, execQuiesceTimeout, execRelockTimeout, execRegroupCommit]

/-- What the chip tries in turn, beside its cores. -/
def chipTurns (s : State) : List (State → Out) := regionTurns s ++ queueTurns s ++ fabricTurns s

/-- The model's own turn: an action of a core, or something that the chip tries. -/
def ownTurn (s : State) : Action ⊕ (State → Out) :=
  let n := coreTurns.length
  let c : Fin 512 := ⟨s.turn / (n + 1) % 512, Nat.mod_lt _ (by decide)⟩
  match coreTurns[s.turn % (n + 1)]? with
  | some f => .inl (f c)
  | none =>
    let chip := chipTurns s
    match chip[s.turn / (n + 1) % chip.length]? with
    | some f => .inr f
    | none => .inl (.tick 0)

end Sys2Proof.Machine
end

