-- ==== Sys2Proof/Machine/Step.lean ====
section
/-! DEFINITION. One step of the machine: the next input, or the model's own turn, runs an instruction at a stream, an event
of the machine, or a cycle of a die (log 1). -/

namespace Sys2Proof.Machine

/-- A stream tries to issue the instruction it stands at; a refused word raises ILLEGAL (R47). A stream that cannot issue
now, or no more in this cycle, leaves the machine as it is. -/
def stepIssue (s : State) (c : Fin 512) (st : StreamId) : Host.Outcome State Fault Refusal :=
  if streamReady s c.val st then
    match decodeHere ((coreAt s c.val).stream st) st with
    | .ok (i, len) =>
      if issueInOrder s c.val st i then exec i { noteIssue s c.val st i with cur := ⟨c, st, len⟩ } else .next s
    | .error _ =>
      if issueInOrder s c.val st .illegalInstruction then
        exec .illegalInstruction { noteIssue s c.val st .illegalInstruction with cur := ⟨c, st, 1⟩ }
      else .next s
  else .next s

/-- One action. -/
def stepAction (s : State) (a : Action) : Host.Outcome State Fault Refusal :=
  match a with
  | .issue c st => stepIssue s c st
  | .event c i =>
    if i.place = .event then
      (if inOrder s c.val i then exec i { noteOrder s c.val i with cur := ⟨c, eventStream i, 0⟩ } else .next s)
    else .fault .notAnEvent
  | .tick d => .next (tick s d.val)
  | .flip e => .next (takeSoft s e)
  | .answerView x => .next { s with far := x }
  | .placeBar2 base => .next { s with fleet := { s.fleet with bar2 := base.toNat } }

/-- One step: the first input, or the model's own turn. -/
def step (s : State) : Host.Outcome State Fault Refusal :=
  match s.inputs with
  | a :: rest => stepAction { s with inputs := rest } a
  | [] =>
    let s1 := { s with turn := s.turn + 1 }
    match ownTurn s with
    | .inl a => stepAction s1 a
    | .inr f => f s1

/-- The state with an instruction where the next step issues (log 2): in slots 1 to 4 of a line that core 0's stream of that
opcode map holds, running, with that issue as the next action. -/
def State.withFetchWord (s : State) (nbits w : Nat) : State :=
  let w := w % 2 ^ nbits
  let st := (tableStream (tableWords w)).getD .c
  { modCore s 0 (fun k => placeAt k st (placedLine st w)) with inputs := [.issue 0 st] }

end Sys2Proof.Machine
end

