-- ==== Sys2Proof/Laws/Memory.lean ====
section
/-! SUPPORT. Memory as a list of cells: what a byte reads as after a write, and that every write keeps the canonical form. -/

namespace Sys2Proof.Machine

/-- The form from a lower address on follows from the form from a higher one. -/
theorem wfFrom_mono {m : List Host.Cell} {lo hi : Nat} (h : lo ≤ hi) (w : Memory.wfFrom hi m = true) :
    Memory.wfFrom lo m = true := by
  cases m with
  | nil => rfl
  | cons e rest =>
    obtain ⟨a, x⟩ := e
    simp only [Memory.wfFrom, Bool.and_eq_true, decide_eq_true_eq] at w ⊢
    exact ⟨⟨by omega, w.1.2⟩, w.2⟩

/-- No listed address lies below the lower bound. -/
theorem memGet_below {m : List Host.Cell} {lo a : Nat} (w : Memory.wfFrom lo m = true) (h : a < lo) : memGet m a = 0 := by
  cases m with
  | nil => rfl
  | cons e rest =>
    obtain ⟨b, x⟩ := e
    simp only [Memory.wfFrom, Bool.and_eq_true, decide_eq_true_eq] at w
    have hb : ¬ a = b := by omega
    have hlt : a < b := by omega
    simp [memGet, hb, hlt]

/-- A write keeps the canonical form. -/
theorem wfFrom_memPut {m : List Host.Cell} {lo a : Nat} {v : Byte} (w : Memory.wfFrom lo m = true) (h : lo ≤ a) :
    Memory.wfFrom lo (memPut m a v) = true := by
  induction m generalizing lo with
  | nil =>
    simp only [memPut]
    split
    · rfl
    · simp_all [Memory.wfFrom]
  | cons e rest ih =>
    obtain ⟨b, x⟩ := e
    simp only [Memory.wfFrom, Bool.and_eq_true, decide_eq_true_eq, bne_iff_ne, ne_eq] at w
    simp only [memPut]
    split
    · split
      · simp only [Memory.wfFrom, Bool.and_eq_true, decide_eq_true_eq, bne_iff_ne, ne_eq]
        exact w
      · rename_i hab hv
        simp only [Memory.wfFrom, Bool.and_eq_true, decide_eq_true_eq, bne_iff_ne, ne_eq]
        exact ⟨⟨h, hv⟩, ⟨by omega, w.1.2⟩, w.2⟩
    · split
      · split
        · exact wfFrom_mono (by omega) w.2
        · rename_i hab hv
          subst hab
          simp only [Memory.wfFrom, Bool.and_eq_true, decide_eq_true_eq, bne_iff_ne, ne_eq]
          exact ⟨⟨h, hv⟩, w.2⟩
      · simp only [Memory.wfFrom, Bool.and_eq_true, decide_eq_true_eq, bne_iff_ne, ne_eq]
        exact ⟨w.1, ih w.2 (by omega)⟩

theorem wf_memPut {m : List Host.Cell} {a : Nat} {v : Byte} (w : Memory.wf m = true) : Memory.wf (memPut m a v) = true :=
  wfFrom_memPut w (Nat.zero_le a)

theorem wf_memWrite {m : List Host.Cell} {a : Nat} (xs : List Byte) (w : Memory.wf m = true) :
    Memory.wf (memWrite m a xs) = true := by
  induction xs generalizing m a with
  | nil => exact w
  | cons x xs ih => exact ih (wf_memPut w)

/-- The byte written reads back, and every other byte reads as before. -/
theorem memGet_memPut {m : List Host.Cell} {lo : Nat} (w : Memory.wfFrom lo m = true) (a c : Nat) (v : Byte) :
    memGet (memPut m a v) c = if c = a then v else memGet m c := by
  induction m generalizing lo with
  | nil =>
    by_cases hv : v = 0 <;> simp only [memPut, hv, if_true, if_false, memGet]
    · split <;> rfl
    · split
      · rfl
      · split <;> rfl
  | cons e rest ih =>
    obtain ⟨b, x⟩ := e
    simp only [Memory.wfFrom, Bool.and_eq_true, decide_eq_true_eq] at w
    have low : ∀ d, d ≤ b → memGet rest d = 0 := fun d hd => memGet_below w.2 (by omega)
    simp only [memPut]
    split
    · rename_i hab
      by_cases hv : v = 0
      · simp only [hv, if_true, memGet]
        by_cases hca : c = a
        · have h1 : ¬ c = b := by omega
          have h2 : c < b := by omega
          rw [if_neg h1, if_pos h2, if_pos hca]
        · rw [if_neg hca]
      · simp only [hv, if_false, memGet]
        by_cases hca : c = a
        · rw [if_pos hca, if_pos hca]
        · rw [if_neg hca, if_neg hca]
          by_cases hlt : c < a
          · have h1 : ¬ c = b := by omega
            have h2 : c < b := by omega
            rw [if_pos hlt, if_neg h1, if_pos h2]
          · rw [if_neg hlt]
    · split
      · rename_i hnot hab
        subst hab
        by_cases hv : v = 0
        · simp only [hv, if_true, memGet]
          by_cases hca : c = a
          · rw [if_pos hca, low c (by omega)]
          · by_cases hlt : c < a
            · rw [if_neg hca, if_neg hca, if_pos hlt, low c (by omega)]
            · rw [if_neg hca, if_neg hca, if_neg hlt]
        · simp only [hv, if_false, memGet]
          by_cases hca : c = a
          · rw [if_pos hca, if_pos hca]
          · rw [if_neg hca, if_neg hca, if_neg hca]
      · rename_i hnot hab
        simp only [memGet]
        rw [ih w.2]
        by_cases hcb : c = b
        · have h1 : ¬ c = a := by omega
          rw [if_pos hcb, if_neg h1, if_pos hcb]
        · by_cases hlt : c < b
          · have h1 : ¬ c = a := by omega
            rw [if_neg hcb, if_pos hlt, if_neg h1, if_neg hcb, if_pos hlt]
          · rw [if_neg hcb, if_neg hlt, if_neg hcb, if_neg hlt]

/-- A byte after a write of bytes from `a` on. -/
theorem memGet_memWrite {m : List Host.Cell} (w : Memory.wf m = true) (a c : Nat) (xs : List Byte) :
    memGet (memWrite m a xs) c = if a ≤ c ∧ c < a + xs.length then xs.getD (c - a) 0 else memGet m c := by
  induction xs generalizing m a with
  | nil => simp only [memWrite, List.length_nil, Nat.add_zero]; rw [if_neg (by omega)]
  | cons x xs ih =>
    simp only [memWrite, List.length_cons]
    rw [ih (wf_memPut w), memGet_memPut (lo := 0) w]
    by_cases h0 : c = a
    · subst h0
      rw [if_neg (by omega), if_pos rfl, if_pos (by omega)]
      simp
    · by_cases h1 : a + 1 ≤ c ∧ c < a + 1 + xs.length
      · rw [if_pos h1, if_pos (by omega)]
        have : c - a = (c - (a + 1)) + 1 := by omega
        rw [this]; simp
      · rw [if_neg h1, if_neg h0, if_neg (by omega)]

theorem memRead_length (m : List Host.Cell) (a n : Nat) : (memRead m a n).length = n := by
  induction n generalizing a with
  | zero => rfl
  | succ n ih => simp [memRead, ih]

theorem memRead_append (m : List Host.Cell) (a n k : Nat) : memRead m a (n + k) = memRead m a n ++ memRead m (a + n) k := by
  induction n generalizing a with
  | zero => simp [memRead]
  | succ n ih => rw [Nat.succ_add, memRead, ih, memRead, List.cons_append]; congr 3; omega

/-- Above every listed address memory reads as 0. -/
theorem memRead_above {m : List Host.Cell} {a : Nat} (h : ∀ c ∈ m, c.1 < a) (n : Nat) : memRead m a n = List.replicate n 0 := by
  have g : ∀ (m : List Host.Cell) (b : Nat), a ≤ b → (∀ c ∈ m, c.1 < a) → memGet m b = 0 := by
    intro m b hb
    induction m with
    | nil => intro _; rfl
    | cons c m ih =>
      intro hm
      obtain ⟨x, v⟩ := c
      have hx : x < a := hm (x, v) (by simp)
      have h1 : ¬b = x := by omega
      have h2 : ¬b < x := by omega
      simp only [memGet, h1, h2, if_false]
      exact ih fun c hc => hm c (List.mem_cons_of_mem _ hc)
  have k : ∀ b, a ≤ b → memRead m b n = List.replicate n 0 := by
    induction n with
    | zero => intro _ _; rfl
    | succ n ih => intro b hb; rw [memRead, g m b hb h, ih (b + 1) (by omega), List.replicate_succ]
  exact k a (Nat.le_refl a)

theorem memRead_getD (m : List Host.Cell) (a n i : Nat) (h : i < n) : (memRead m a n).getD i 0 = memGet m (a + i) := by
  induction n generalizing a i with
  | zero => omega
  | succ n ih =>
    cases i with
    | zero => simp [memRead]
    | succ i =>
      have := ih (a + 1) i (by omega)
      simpa [memRead, Nat.add_assoc, Nat.add_comm 1 i] using this

/-- What was written reads back. -/
theorem memRead_memWrite_self {m : List Host.Cell} (w : Memory.wf m = true) (a : Nat) (xs : List Byte) :
    memRead (memWrite m a xs) a xs.length = xs := by
  apply List.ext_getElem
  · exact memRead_length ..
  · intro i h1 h2
    have := memRead_getD (memWrite m a xs) a xs.length i h2
    rw [memGet_memWrite w] at this
    rw [if_pos (by omega)] at this
    simpa [h1, h2] using this

/-- Bytes outside a write read as before. -/
theorem memGet_memWrite_of_outside {m : List Host.Cell} (w : Memory.wf m = true) (a c : Nat) (xs : List Byte)
    (h : c < a ∨ a + xs.length ≤ c) : memGet (memWrite m a xs) c = memGet m c := by
  rw [memGet_memWrite w, if_neg (by omega)]

/-! Physical and host memory. -/

@[simp] theorem noteTrigger_mem (s : State) (pa n : Nat) : (noteTrigger s pa n).mem = s.mem := by
  unfold noteTrigger; split <;> rfl
@[simp] theorem noteTrigger_hostMem (s : State) (pa n : Nat) : (noteTrigger s pa n).hostMem = s.hostMem := by
  unfold noteTrigger; split <;> rfl
@[simp] theorem noteTrigger_cores (s : State) (pa n : Nat) : (noteTrigger s pa n).cores = s.cores := by
  unfold noteTrigger; split <;> rfl

@[simp] theorem physWrite_mem (s : State) (pa : Nat) (xs : List Byte) : (physWrite s pa xs).mem = memWrite s.mem pa xs := by
  simp [physWrite]
@[simp] theorem physWrite_hostMem (s : State) (pa : Nat) (xs : List Byte) : (physWrite s pa xs).hostMem = s.hostMem := by
  simp [physWrite]
@[simp] theorem physWrite_cores (s : State) (pa : Nat) (xs : List Byte) : (physWrite s pa xs).cores = s.cores := by
  simp [physWrite]
@[simp] theorem hostWrite_hostMem (s : State) (a : Nat) (xs : List Byte) :
    (hostWrite s a xs).hostMem = memWrite s.hostMem a xs := rfl

end Sys2Proof.Machine
end

