-- ==== Sys2Proof/Certificates/Slice0/Obligations.lean ====
section
/-! DEFINITION. The statements for the provers. `Sys2Proof.Claims` holds the words they are written in: the running core, what
a step leaves unchanged, and the effects that many instructions share. Each statement cites the rule of spec/ it formalises. -/

namespace Sys2Proof.Claims

open Sys2Proof.Machine

/-! The words of the statements. -/

/-- The core that an instruction or event runs on. -/
def mine (s : State) : Core := coreAt s s.cur.core.val

/-- Nothing of the module changes but the running core. -/
def OnlyCore (s t : State) : Prop :=
  t = { s with cores := t.cores } ∧ ∀ c, c ≠ s.cur.core.val → coreAt t c = coreAt s c

/-- Both memories are in their canonical form, as every step keeps them (StepKeepsMemoryCanonical). -/
def MemOk (s : State) : Prop := Memory.wf s.mem = true ∧ Memory.wf s.hostMem = true

/-- Every byte of physical and host memory reads as before. -/
def MemKept (s t : State) : Prop :=
  (∀ a, memGet t.mem a = memGet s.mem a) ∧ ∀ a, memGet t.hostMem a = memGet s.hostMem a

/-- What the issue of a control instruction leaves of its core: everything but the general registers, the control stream's
place, the token it pops, the issue slot and the list of results in flight; the engine streams stay as they are. -/
def CtlFrame (m : CM) (k k' : Core) : Prop :=
  k' = { k with g := k'.g, streams := k'.streams, fifo := k'.fifo, issued := k'.issued, inflight := k'.inflight }
    ∧ (∀ st, st ≠ .c → k'.stream st = k.stream st)
    ∧ ∀ f, f < 20 → k'.tokens f = k.tokens f - if m.sync.pop ∧ f = popFifo .c m.sync then 1 else 0

/-- The general registers of two cores read alike but for `ga`. -/
def OtherG (a : BitVec 5) (k k' : Core) : Prop := ∀ r, r ≠ a → k'.readG r = k.readG r

/-- A control instruction that may issue answers a next state in which `ga` holds `v` of the old registers (nothing is written
for g0, which reads as zero), every other register of the core and everything else of the module is as before; an older
result for `ga` that would land in the same cycle is lost (R104). -/
def WritesG (i : Instr) (m : CM) (regs : List (BitVec 5)) (a : BitVec 5) (v : Core → Dword) : Prop :=
  ∀ s : State, (mine s).canIssue m regs = true → ∃ t, exec i s = .next t ∧ OnlyCore s t ∧ CtlFrame m (mine s) (mine t)
    ∧ (mine t).readG 0 = 0 ∧ (a ≠ 0 → (mine t).readG a = v (mine s)) ∧ OtherG a (mine s) (mine t)
    ∧ (mine t).inflight = (mine s).inflight.map fun e =>
        if e.dest = .g a ∧ e.wait = .cycles 1 then { e with dest := .none } else e

/-- A control instruction that may issue answers a next state in which its result `v` is in flight for `cycles` cycles to
`dest`, behind the results already in flight; no register of the core has changed yet (R104). -/
def InFlightG (i : Instr) (m : CM) (regs : List (BitVec 5)) (dest : Dest) (cycles : Nat) (v : Core → Dword) : Prop :=
  ∀ s : State, (mine s).canIssue m regs = true → ∃ t e, exec i s = .next t ∧ OnlyCore s t ∧ CtlFrame m (mine s) (mine t)
    ∧ (mine t).g = (mine s).g ∧ (mine t).inflight = (mine s).inflight ++ [e]
    ∧ e.dest = dest ∧ e.val = v (mine s) ∧ e.wait = .cycles cycles ∧ e.q = m.q ∧ e.sync = m.sync ∧ e.fault = none

/-- A control instruction that may issue answers a next state that differs only in the control stream's place, the popped
token and the issue slot. -/
def NoResult (i : Instr) (m : CM) (regs : List (BitVec 5)) (ok : State → Prop) : Prop :=
  ∀ s : State, (mine s).canIssue m regs = true → ok s → ∃ t, exec i s = .next t ∧ OnlyCore s t ∧ CtlFrame m (mine s) (mine t)
    ∧ (mine t).g = (mine s).g ∧ (mine t).inflight = (mine s).inflight

/-! An access that runs: what the spec asks of the tables and of the page, on the state and the address alone. -/

/-- The running core's TLBs or page tables map the address, with permission for the access, to `p` (R386 to R388). -/
def Mapped (s : State) (k : AccKind) (a : Dword) (p : Page) : Prop :=
  match tlbFind s s.cur.core.val (mine s).sr.asid a k with
  | some t => leafPermits t.leaf (mine s).atS k = true ∧ p = leafPage a t.leaf t.log2
  | none => ∃ ent e l, walkTables s a (mine s).sr.asid = .leaf ent e l ∧ leafPermits e (mine s).atS k = true
      ∧ p = leafPage a (markLeaf e k) (levelLog2 l)

/-- The state with the A bit, and for a write the D bit, of the entry that the walk ends in (R387). -/
def marked (s : State) (k : AccKind) (a : Dword) : State :=
  match tlbFind s s.cur.core.val (mine s).sr.asid a k, walkTables s a (mine s).sr.asid with
  | none, .leaf ent e _ => if markLeaf e k = e then s else physWrite s ent (leBytes 8 (markLeaf e k).toNat)
  | _, _ => s

/-- An access of `n` bytes at `a`, which lie in one page, that meets every condition of R29, R235, R292 and R382 on a PLAIN page: the
address has its form and lies in no window, it is mapped, its bytes exist, and none of them holds an uncorrectable error. -/
def PlainAccess (s : State) (k : AccKind) (a : Dword) (n : Nat) (p : Page) : Prop :=
  addressForm a = true ∧ isWindow a = false ∧ Mapped s k a p ∧ p.cls = 0 ∧ p.cidx = 0
    ∧ usable p.pa = true ∧ usable (p.pa + n - 1) = true ∧ ∀ i, i < n → flawed s (p.pa + i) = false

/-- The line `idx` that stream `st` fetches is there: in the splice buffer of a fused operator (R266), or on a PLAIN page that may be
executed; its link word obeys R17 and no parity error strikes it (R18). -/
def LineAt (s : State) (st : StreamId) (idx : BitVec 24) (l : CodeLine) : Prop :=
  let a := lineAddr s s.cur.core.val idx
  l.idx = idx ∧ l.addr = a ∧ l.side = lineSide (mine s) idx ∧ linkOk st l.words = true
    ∧ s.soft.contains (.line s.cur.core.val st) = false
    ∧ if (mine s).fusedNow then ((mine s).splice.bind fun x => x.lines[idx.toNat]?) = some l.words
      else a.toNat % 64 = 0
        ∧ ∃ p, PlainAccess s .fetch a 64 p ∧ l.words = lineWords 16 (memRead (marked s .fetch a).mem p.pa 64)

/-- The line `idx` can be fetched by a stream: it is there, or, wherever it stands, its fetch succeeds. -/
def LineOf (s : State) (st : StreamId) (idx : BitVec 24) (l : CodeLine) : Prop :=
  LineAt s st idx l ∨ ∃ s1, fetchCode s.cur.core.val st idx s = .ok l s1

/-- The `n` bytes at `a` can be read by the running core's control path: they lie in one page and the access is plain; or, whatever the
page, the read succeeds. `mem` is the memory that translation leaves. -/
def Reads (s : State) (a : Dword) (n : Nat) (xs : List Byte) (mem : List Host.Cell) : Prop :=
  (a.toNat % 65536 + n ≤ 65536 ∧ mem = (marked s .read a).mem ∧ ∃ p, PlainAccess s .read a n p ∧ xs = memRead mem p.pa n)
    ∨ ∃ s1, memLoad s.cur.core.val a n s = .ok xs s1 ∧ mem = s1.mem

/-- The `n` bytes at `a`, which lie in one page, can be written by the running core's control path: to a PLAIN page, at `pa`. -/
def Writes (s : State) (a : Dword) (n pa : Nat) : Prop :=
  a.toNat % 65536 + n ≤ 65536 ∧ ∃ p, PlainAccess s .write a n p ∧ p.pa = pa

/-- The state after a translation: the tables are marked, and the TLBs hold the entry of a walk (R387, R388). -/
def seen (s : State) (k : AccKind) (a : Dword) : State :=
  match tlbFind s s.cur.core.val (mine s).sr.asid a k, walkTables s a (mine s).sr.asid with
  | none, .leaf _ e l => tlbFill (marked s k a) s.cur.core.val
      ⟨(mine s).sr.asid, a.toNat / 2 ^ levelLog2 l, levelLog2 l, tlbLeaf (markLeaf e k) k⟩
  | _, _ => s

/-- The accesses of a unit, one after the other: each lies in one page and is plain. `out` gives, for each, its physical address and the
bytes that stand there when it is made, and `t` is the state that the translations leave. -/
def Accesses (k : AccKind) : State → List (Dword × Nat) → List (Nat × List Byte) → State → Prop
  | s, [], out, t => out = [] ∧ t = s
  | s, (a, n) :: rest, out, t => ∃ p more, a.toNat % 65536 + n ≤ 65536 ∧ 0 < n ∧ PlainAccess s k a n p
      ∧ out = (p.pa, memRead (seen s k a).mem p.pa n) :: more ∧ Accesses k (seen s k a) rest more t

/-- The physical addresses of the bytes of accesses, in order. -/
def placesOf (out : List (Nat × List Byte)) : List Nat := out.flatMap fun e => (List.range e.2.length).map (e.1 + ·)

/-- The value of the .i form's second operand. -/
def imm64 (x : BitVec 32) : Dword := x.signExtend 64

end Sys2Proof.Claims

open Sys2Proof Sys2Proof.Machine Sys2Proof.Claims

/-! Integer and address arithmetic (R108 to R110). -/

/-- R108: the two-register forms write the tabulated result to ga at the end of the issue cycle and change nothing else. -/
def Obligations.RegisterFormsWriteTheirResult : Prop :=
  ∀ (m : CM) (a b c : BitVec 5),
    WritesG (.add m a b c) m [a, b, c] a (fun k => k.readG b + k.readG c)
    ∧ WritesG (.sub m a b c) m [a, b, c] a (fun k => k.readG b - k.readG c)
    ∧ WritesG (.andG m a b c) m [a, b, c] a (fun k => k.readG b &&& k.readG c)
    ∧ WritesG (.orG m a b c) m [a, b, c] a (fun k => k.readG b ||| k.readG c)
    ∧ WritesG (.xorG m a b c) m [a, b, c] a (fun k => k.readG b ^^^ k.readG c)
    ∧ WritesG (.andn m a b c) m [a, b, c] a (fun k => k.readG b &&& ~~~(k.readG c))
    ∧ WritesG (.shl m a b c) m [a, b, c] a (fun k => k.readG b <<< ((k.readG c).toNat % 64))
    ∧ WritesG (.shr m a b c) m [a, b, c] a (fun k => k.readG b >>> ((k.readG c).toNat % 64))
    ∧ WritesG (.sra m a b c) m [a, b, c] a (fun k => BitVec.ofInt 64 ((k.readG b).toInt / 2 ^ ((k.readG c).toNat % 64)))
    ∧ WritesG (.rol m a b c) m [a, b, c] a (fun k =>
        k.readG b <<< ((k.readG c).toNat % 64) ||| k.readG b >>> (64 - (k.readG c).toNat % 64))
    ∧ WritesG (.min m a b c) m [a, b, c] a (fun k => if (k.readG b).slt (k.readG c) then k.readG b else k.readG c)
    ∧ WritesG (.max m a b c) m [a, b, c] a (fun k => if (k.readG b).slt (k.readG c) then k.readG c else k.readG b)
    ∧ WritesG (.minu m a b c) m [a, b, c] a (fun k => if k.readG b < k.readG c then k.readG b else k.readG c)
    ∧ WritesG (.maxu m a b c) m [a, b, c] a (fun k => if k.readG b < k.readG c then k.readG c else k.readG b)
    ∧ WritesG (.cmpeq m a b c) m [a, b, c] a (fun k => if k.readG b = k.readG c then 1 else 0)
    ∧ WritesG (.cmplt m a b c) m [a, b, c] a (fun k => if (k.readG b).toInt < (k.readG c).toInt then 1 else 0)
    ∧ WritesG (.cmpltu m a b c) m [a, b, c] a (fun k => if (k.readG b).toNat < (k.readG c).toNat then 1 else 0)
    ∧ WritesG (.sel m a b c) m [a, b, c] a (fun k => if k.readG a ≠ 0 then k.readG b else k.readG c)

/-- R108: the .i forms take the sign-extended word 1 in the place of gc. -/
def Obligations.ImmediateFormsWriteTheirResult : Prop :=
  ∀ (m : CM) (a b : BitVec 5) (imm : BitVec 32),
    WritesG (.addI m a b imm) m [a, b] a (fun k => k.readG b + imm64 imm)
    ∧ WritesG (.subI m a b imm) m [a, b] a (fun k => k.readG b - imm64 imm)
    ∧ WritesG (.andGI m a b imm) m [a, b] a (fun k => k.readG b &&& imm64 imm)
    ∧ WritesG (.orGI m a b imm) m [a, b] a (fun k => k.readG b ||| imm64 imm)
    ∧ WritesG (.xorGI m a b imm) m [a, b] a (fun k => k.readG b ^^^ imm64 imm)
    ∧ WritesG (.andnI m a b imm) m [a, b] a (fun k => k.readG b &&& ~~~(imm64 imm))
    ∧ WritesG (.shlI m a b imm) m [a, b] a (fun k => k.readG b <<< (imm.toNat % 64))
    ∧ WritesG (.shrI m a b imm) m [a, b] a (fun k => k.readG b >>> (imm.toNat % 64))
    ∧ WritesG (.sraI m a b imm) m [a, b] a (fun k => BitVec.ofInt 64 ((k.readG b).toInt / 2 ^ (imm.toNat % 64)))
    ∧ WritesG (.rolI m a b imm) m [a, b] a (fun k =>
        k.readG b <<< (imm.toNat % 64) ||| k.readG b >>> (64 - imm.toNat % 64))
    ∧ WritesG (.minI m a b imm) m [a, b] a (fun k => if (k.readG b).slt (imm64 imm) then k.readG b else imm64 imm)
    ∧ WritesG (.maxI m a b imm) m [a, b] a (fun k => if (k.readG b).slt (imm64 imm) then imm64 imm else k.readG b)
    ∧ WritesG (.minuI m a b imm) m [a, b] a (fun k => if k.readG b < imm64 imm then k.readG b else imm64 imm)
    ∧ WritesG (.maxuI m a b imm) m [a, b] a (fun k => if k.readG b < imm64 imm then imm64 imm else k.readG b)
    ∧ WritesG (.cmpeqI m a b imm) m [a, b] a (fun k => if k.readG b = imm64 imm then 1 else 0)
    ∧ WritesG (.cmpltI m a b imm) m [a, b] a (fun k => if (k.readG b).toInt < (imm64 imm).toInt then 1 else 0)
    ∧ WritesG (.cmpltuI m a b imm) m [a, b] a (fun k => if (k.readG b).toNat < (imm64 imm).toNat then 1 else 0)

/-- R108, R109: CLZ, POPC, SEXT, ZEXT, LI, LIH and LEA. -/
def Obligations.UnaryAndConstantResults : Prop :=
  ∀ (m : CM) (a b c : BitVec 5) (w : BitVec 2) (lo hi : BitVec 32) (sh : BitVec 3) (disp : BitVec 29),
    WritesG (.clz m a b) m [a, b] a (fun k => if k.readG b = 0 then 64 else BitVec.ofNat 64 (63 - (k.readG b).toNat.log2))
    ∧ WritesG (.popc m a b) m [a, b] a
        (fun k => BitVec.ofNat 64 ((List.range 64).countP fun i => (k.readG b).getLsbD i))
    ∧ (w ≠ 3 → WritesG (.sext m a b w) m [a, b] a (fun k => ((k.readG b).setWidth (8 * 2 ^ w.toNat)).signExtend 64))
    ∧ (w ≠ 3 → WritesG (.zext m a b w) m [a, b] a (fun k => ((k.readG b).setWidth (8 * 2 ^ w.toNat)).setWidth 64))
    ∧ WritesG (.li m a lo) m [a] a (fun _ => lo.signExtend 64)
    ∧ WritesG (.liWide m a lo hi) m [a] a (fun _ => hi ++ lo)
    ∧ WritesG (.lih m a hi) m [a] a (fun k => hi ++ (k.readG a).setWidth 32)
    ∧ WritesG (.lea m a b c sh disp) m [a, b, c] a
        (fun k => k.readG b + (k.readG c <<< sh.toNat) + disp.signExtend 64)

/-- R108, R104: the multiplications are in flight for 3 cycles and the divisions for 20; R110, R125: DSET and, at U, EARG for
one. At issue no register changes. R108's table of division by zero and of -2^63 divided by -1. -/
def Obligations.SlowResultsAreInFlight : Prop :=
  (∀ (m : CM) (a b c : BitVec 5) (imm : BitVec 32) (d : BitVec 4) (q e : BitVec 2) (n : BitVec 4),
    InFlightG (.mul m a b c) m [a, b, c] (.g a) 3 (fun k => k.readG b * k.readG c)
    ∧ InFlightG (.mulI m a b imm) m [a, b] (.g a) 3 (fun k => k.readG b * imm64 imm)
    ∧ InFlightG (.mulh m a b c) m [a, b, c] (.g a) 3
        (fun k => (((k.readG b).signExtend 128 * (k.readG c).signExtend 128).extractLsb' 64 64))
    ∧ InFlightG (.mulhu m a b c) m [a, b, c] (.g a) 3
        (fun k => (((k.readG b).setWidth 128 * (k.readG c).setWidth 128).extractLsb' 64 64))
    ∧ InFlightG (.div m a b c) m [a, b, c] (.g a) 20
        (fun k => if k.readG c = 0 then BitVec.allOnes 64 else (k.readG b).sdiv (k.readG c))
    ∧ InFlightG (.divu m a b c) m [a, b, c] (.g a) 20
        (fun k => if k.readG c = 0 then BitVec.allOnes 64 else k.readG b / k.readG c)
    ∧ InFlightG (.rem m a b c) m [a, b, c] (.g a) 20
        (fun k => if k.readG c = 0 then k.readG b else (k.readG b).srem (k.readG c))
    ∧ InFlightG (.remu m a b c) m [a, b, c] (.g a) 20
        (fun k => if k.readG c = 0 then k.readG b else k.readG b % k.readG c)
    ∧ InFlightG (.dset m d b q) m [b] (.desc d q) 1 (fun k => k.readG b)
    ∧ ∀ s : State, (mine s).canIssue m [b] = true → (mine s).sr.mode = 0 →
        ∃ t x, exec (.earg m e b n) s = .next t ∧ OnlyCore s t ∧ CtlFrame m (mine s) (mine t) ∧ (mine t).g = (mine s).g
          ∧ (mine t).inflight = (mine s).inflight ++ [x] ∧ x.dest = .param (engineOf e) n ∧ x.val = (mine s).readG b
          ∧ x.wait = .cycles 1)
  ∧ (∀ (m : CM) (a b c : BitVec 5) (s : State), (mine s).canIssue m [a, b, c] = true →
    ((mine s).readG c = 0 →
      (∃ t e, exec (.div m a b c) s = .next t ∧ (mine t).inflight = (mine s).inflight ++ [e] ∧ e.val = 0xFFFFFFFFFFFFFFFF)
      ∧ (∃ t e, exec (.divu m a b c) s = .next t ∧ (mine t).inflight = (mine s).inflight ++ [e] ∧ e.val = 0xFFFFFFFFFFFFFFFF)
      ∧ (∃ t e, exec (.rem m a b c) s = .next t ∧ (mine t).inflight = (mine s).inflight ++ [e] ∧ e.val = (mine s).readG b)
      ∧ (∃ t e, exec (.remu m a b c) s = .next t ∧ (mine t).inflight = (mine s).inflight ++ [e] ∧ e.val = (mine s).readG b))
    ∧ ((mine s).readG b = 0x8000000000000000 → (mine s).readG c = 0xFFFFFFFFFFFFFFFF →
      (∃ t e, exec (.div m a b c) s = .next t ∧ (mine t).inflight = (mine s).inflight ++ [e] ∧ e.val = 0x8000000000000000)
      ∧ (∃ t e, exec (.rem m a b c) s = .next t ∧ (mine t).inflight = (mine s).inflight ++ [e] ∧ e.val = 0)))

namespace Sys2Proof.Claims

/-! Blocking instructions (R104): issue and completion. -/

/-- A blocking instruction that may issue, in a state that `ok` admits, answers a next state that holds it: its token is taken,
no register changes, and the control stream stays at it, its issue being progress (R373). -/
def HeldAs (i : Instr) (m : CM) (regs : List (BitVec 5)) (ok : State → Prop) (kind : State → BlockKind) : Prop :=
  ∀ s : State, (mine s).canIssue m regs = true → ok s → ∃ t, exec i s = .next t ∧ OnlyCore s t
    ∧ mine t = { mine s with
        fifo := (mine t).fifo, issued := true, streams := (mine t).streams
        block := some ⟨kind s, m.sync, ((mine s).stream .c).here, s.cur.len⟩ }
    ∧ (mine t).stream .c = { (mine s).stream .c with progress := true }
    ∧ (∀ st, st ≠ .c → (mine t).stream st = (mine s).stream st)
    ∧ ∀ f, f < 20 → (mine t).tokens f = (mine s).tokens f - if m.sync.pop ∧ f = popFifo .c m.sync then 1 else 0

/-- At U (R365). -/
def AtU (s : State) : Prop := (mine s).sr.mode = 0

/-- The running core is held by a blocking instruction of this kind. -/
def Held (s : State) (kind : BlockKind) : Prop := ∃ y l n, (mine s).block = some ⟨kind, y, l, n⟩

/-- The held instruction completes: the core is released, its general registers are those `g` gives, and the streams but
control, when `keep` says so, stand as they stood. -/
def Completes (s : State) (i : Instr) (g : Vector Dword 32) : Prop :=
  ∃ t, exec i s = .next t ∧ (mine t).block = none ∧ (mine t).g = g
    ∧ ∀ c, c ≠ s.cur.core.val → coreAt t c = coreAt s c

end Sys2Proof.Claims

/-- R104, R114, R115, R124 to R127: FENCE, XFENCE, RDV, WAITCC, CBSET and CBWAIT are held at issue, at U where R369 asks for it;
no later control instruction can issue while one is held. -/
def Obligations.BlockingInstructionsAreHeld : Prop :=
  (∀ (m : CM) (scope : BitVec 3) (src dst : BitVec 7) (mask : BitVec 4) (n : BitVec 3) (v : BitVec 8) (h : BitVec 4)
      (f : CbsetF),
    HeldAs (.fence m scope) m [] (fun _ => True) (fun _ => .fence scope)
    ∧ HeldAs (.xfence m scope src dst) m [] (fun _ => True) (fun _ => .xfence scope src dst)
    ∧ HeldAs (.rdv m mask) m [] AtU (fun _ => .rdv mask)
    ∧ HeldAs (.waitcc m n v) m [] AtU (fun _ => .waitcc n v)
    ∧ HeldAs (.cbset m h f) m [] AtU (fun _ => .cbset h f))
  ∧ (∀ (m : CM) (h : BitVec 4) (role : Bool) (c : BitVec 5),
    HeldAs (.cbwait m h role c) m [c]
      (fun s => AtU s ∧ (cbAt s s.cur.core.val h).valid = true
        ∧ ((mine s).readG c).toNat ≤ (cbAt s s.cur.core.val h).nslot.toNat)
      (fun s => .cbwait h role ((mine s).readG c).toNat))
  ∧ ∀ s : State, (mine s).block.isSome = true → streamReady s s.cur.core.val .c = false

/-- R114, R112: a FENCE completes when every load, store and atomic of the control stream has been performed; from scope
cluster on, no PLAIN or REPLICATED line stays cached. R242: so does an XFENCE with the control class in TO. R124, R25, R20: RDV completes exactly when every stream of its mask is ENDED or IDLE, and leaves them IDLE with empty steer
queues; WAITCC when the counter is at most the value; a stalled STEER when the queue has room, with the line appended. -/
def Obligations.FencesJoinsAndWaitsComplete : Prop :=
  ((∀ (s : State) (scope : BitVec 3), Held s (.fence scope) → controlDone s s.cur.core.val scope = true →
    Completes s .fenceComplete (mine s).g
    ∧ ∀ t, exec .fenceComplete s = .next t → (scope ≠ 0 → ∀ l ∈ (mine t).dcache, l.phased = true)
        ∧ (scope = 0 → (mine t).dcache = (mine s).dcache))
  ∧ (∀ (s : State) (scope : BitVec 3), Held s (.fence scope) → controlDone s s.cur.core.val scope = false →
    exec .fenceComplete s = .next s)
  ∧ ∀ (s : State) (scope : BitVec 3) (src dst : BitVec 7), Held s (.xfence scope src dst) →
    xfenceReady s s.cur.core.val scope src = true → canWriteBack s s.cur.core.val = true →
    Completes s .xfenceComplete (mine s).g
    ∧ ∀ t, exec .xfenceComplete s = .next t → dst.getLsbD 0 = true → (mine t).dcache = [])
  ∧ ((∀ (s : State) (mask : BitVec 4), Held s (.rdv mask) →
    if (maskStreams mask).all (fun st => ((mine s).stream st).run == .ended || ((mine s).stream st).run == .idle) then
      Completes s .rdvComplete (mine s).g
      ∧ ∀ t, exec .rdvComplete s = .next t → ∀ st ∈ maskStreams mask, ((mine t).stream st).run = .idle
          ∧ (((mine s).stream st).run = .ended → ((mine t).stream st).steer = [])
    else exec .rdvComplete s = .next s)
  ∧ (∀ (s : State) (n : BitVec 3) (v : BitVec 8), Held s (.waitcc n v) →
    if (mine s).readCc n ≤ v.toNat then Completes s .waitccComplete (mine s).g else exec .waitccComplete s = .next s)
  ∧ ∀ (s : State) (e : BitVec 2) (line : BitVec 24), Held s (.steer e line) →
    if ((mine s).stream (engineOf e)).steer.length < 8 then
      Completes s .steerAppend (mine s).g
      ∧ ∀ t, exec .steerAppend s = .next t →
          ((mine t).stream (engineOf e)).steer = ((mine s).stream (engineOf e)).steer ++ [line]
    else exec .steerAppend s = .next s)

/-- R123: FORK, never in flight, starts the lowest stream of the mask at LINE and the others from their steer queues: such a stream takes
the head of its queue, removing it, and waits in RUN while the queue is empty. A stream already RUN or ENDED raises STREAMBUSY
instead, and none is started. MASK = 0 is refused by the map, and so raises ILLEGAL (StepRunsDecodedInstruction). -/
def Obligations.ForkStartsTheMask : Prop :=
  (∀ (ws : List Word) (m : CM) (line : BitVec 24), decode .c ws ≠ .ok (.fork m line 0))
  ∧ (∀ (st : StreamId) (s : State) (idx : BitVec 24) (rest : List (BitVec 24)) (l : CodeLine) (i : Nat),
    canFetch (mine s) st = true → ((mine s).stream st).next = .steered →
    (((mine s).stream st).steer = [] → exec (.lineFetch st) s = .next s)
    ∧ (((mine s).stream st).steer = idx :: rest → LineOf s st idx l → nextSlot l.words 1 = some i →
      ∃ t, exec (.lineFetch st) s = .next t ∧ ((mine t).stream st).line = some l ∧ ((mine t).stream st).slot = i
        ∧ ((mine t).stream st).run = .run ∧ ((mine t).stream st).steer = rest))
  ∧ ∀ (m : CM) (line : BitVec 24) (mask : BitVec 4) (s : State), (mine s).canIssue m [] = true → AtU s → mask ≠ 0 →
    ((∀ st ∈ maskStreams mask, ((mine s).stream st).run = .idle ∨ ((mine s).stream st).run = .faulted) →
      ∃ t, exec (.fork m line mask) s = .next t ∧ (mine t).g = (mine s).g ∧ (mine t).inflight = (mine s).inflight
        ∧ (mine t).block = (mine s).block
        ∧ (∀ st ∈ maskStreams mask, ((mine t).stream st).run = .run ∧ ((mine t).stream st).line = none
            ∧ ((mine t).stream st).next
              = (if (maskStreams mask).head? = some st then NextLine.at line else .steered)
            ∧ ((mine t).stream st).steer = ((mine s).stream st).steer)
        ∧ (∀ st, st ≠ .c → st ∉ maskStreams mask → (mine t).stream st = (mine s).stream st)
        ∧ ∀ c, c ≠ s.cur.core.val → coreAt t c = coreAt s c)
    ∧ ((∃ st ∈ maskStreams mask, ((mine s).stream st).run = .run ∨ ((mine s).stream st).run = .ended) →
      exec (.fork m line mask) s = .next (raise s s.cur.core.val .c ⟨.streambusy, 0, 0, 0⟩))

/-- R20, R125: STEER, in both forms, appends the line to a queue with room and is held by a full one. R126, R127, R24: CBADV moves HEAD or TAIL of a valid handle by gc when the counts allow it, and raises CBUF when they do
not; CBWAIT completes when the count is reached; CBSET completes when nothing issued names the handle, releasing it for
NSLOT = 0 and setting its geometry with HEAD = TAIL = 0 otherwise. -/
def Obligations.SteerQueuesAndCircularBuffers : Prop :=
  (∀ (m : CM) (e : BitVec 2) (b : BitVec 5) (line : BitVec 24) (s : State), AtU s →
    ((mine s).canIssue m [b] = true →
      (((mine s).stream (engineOf e)).steer.length < 8 → ∃ t, exec (.steer m e b) s = .next t ∧ OnlyCore s t
        ∧ ((mine t).stream (engineOf e)).steer
            = ((mine s).stream (engineOf e)).steer ++ [((mine s).readG b).setWidth 24]
        ∧ (∀ st, st ≠ .c → st ≠ engineOf e → (mine t).stream st = (mine s).stream st) ∧ (mine t).g = (mine s).g)
      ∧ (8 ≤ ((mine s).stream (engineOf e)).steer.length → ∃ t, exec (.steer m e b) s = .next t ∧ OnlyCore s t
        ∧ Held t (.steer e (((mine s).readG b).setWidth 24)) ∧ (∀ st, st ≠ .c → (mine t).stream st = (mine s).stream st) ∧ (mine t).g = (mine s).g))
    ∧ ((mine s).canIssue m [] = true →
      (((mine s).stream (engineOf e)).steer.length < 8 → ∃ t, exec (.steerImm m e line) s = .next t ∧ OnlyCore s t
        ∧ ((mine t).stream (engineOf e)).steer = ((mine s).stream (engineOf e)).steer ++ [line]
        ∧ (∀ st, st ≠ .c → st ≠ engineOf e → (mine t).stream st = (mine s).stream st) ∧ (mine t).g = (mine s).g)
      ∧ (8 ≤ ((mine s).stream (engineOf e)).steer.length → ∃ t, exec (.steerImm m e line) s = .next t ∧ OnlyCore s t
        ∧ Held t (.steer e line) ∧ (∀ st, st ≠ .c → (mine t).stream st = (mine s).stream st) ∧ (mine t).g = (mine s).g)))
  ∧ ((∀ (m : CM) (h : BitVec 4) (role : Bool) (c : BitVec 5) (s : State), (mine s).canIssue m [c] = true → AtU s →
    (cbAt s s.cur.core.val h).valid = true →
    (if role then ((mine s).readG c).toNat ≤ (cbAt s s.cur.core.val h).filled
      else (((mine s).readG c).toNat : Int) ≤ (cbAt s s.cur.core.val h).free) →
    ∃ t, exec (.cbadv m h role c) s = .next t ∧ (mine t).g = (mine s).g
      ∧ cbAt t s.cur.core.val h = (if role
          then { cbAt s s.cur.core.val h with tail := (cbAt s s.cur.core.val h).tail + ((mine s).readG c).setWidth 32 }
          else { cbAt s s.cur.core.val h with head := (cbAt s s.cur.core.val h).head + ((mine s).readG c).setWidth 32 }))
  ∧ (∀ (m : CM) (h : BitVec 4) (role : Bool) (c : BitVec 5) (s : State), (mine s).canIssue m [c] = true → AtU s →
    (cbAt s s.cur.core.val h).valid = false →
    exec (.cbadv m h role c) s = .next (raise s s.cur.core.val .c ⟨.cbuf, 0, 0, 0⟩)
    ∧ exec (.cbwait m h role c) s = .next (raise s s.cur.core.val .c ⟨.cbuf, 0, 0, 0⟩))
  ∧ (∀ (s : State) (h : BitVec 4) (role : Bool) (n : Nat), Held s (.cbwait h role n) →
    (cbAt s s.cur.core.val h).valid = true →
    if (if role then (n : Int) ≤ (cbAt s s.cur.core.val h).free else n ≤ (cbAt s s.cur.core.val h).filled)
    then Completes s .cbwaitComplete (mine s).g else exec .cbwaitComplete s = .next s)
  ∧ (∀ (s : State) (h : BitVec 4) (f : CbsetF), Held s (.cbset h f) → namesCb (mine s) h = false → f.nslot = 0 →
    (sharedCb s s.cur.core.val h).valid = false →
    Completes s .cbsetComplete (mine s).g
    ∧ ∀ t, exec .cbsetComplete s = .next t → (cbAt t s.cur.core.val h).valid = false)
  ∧ ∀ (s : State) (h : BitVec 4) (f : CbsetF) (r : Region), Held s (.cbset h f) → namesCb (mine s) h = false →
    f.nslot ≠ 0 → f.slotu ≠ 0 → regionOf s s.cur.core.val = some r →
    f.offHi.toNat * 2 ^ 40 + f.offLo.toNat * 2 ^ 8 + 256 * f.slotu.toNat * f.nslot.toNat ≤ r.vault →
    cbConflict s s.cur.core.val h f.shr = false →
    Completes s .cbsetComplete (mine s).g
    ∧ ∀ t, exec .cbsetComplete s = .next t →
        (cbAt t s.cur.core.val h).valid = true ∧ (cbAt t s.cur.core.val h).head = 0 ∧ (cbAt t s.cur.core.val h).tail = 0
        ∧ (cbAt t s.cur.core.val h).nslot = f.nslot
        ∧ (cbAt t s.cur.core.val h).slotsz.toNat = 256 * f.slotu.toNat
        ∧ (cbAt t s.cur.core.val h).base
            = BitVec.ofNat 44 (r.valloc + (f.offHi.toNat * 2 ^ 40 + f.offLo.toNat * 2 ^ 8)))

namespace Sys2Proof.Claims

/-! Accesses of the control stream (R29, R111 to R113). -/

/-- The effective address of a load or store (R111): gb + disp modulo 2^64. -/
def ea (s : State) (b : BitVec 5) (disp : Dword) : Dword := (mine s).readG b + disp

/-- mem_read by the control stream of an aligned datum: the bytes, and the state that translation, the data cache and the A
bit of the page's entry leave (R29, R112, R387). -/
def ctlRead (s : State) (a : Dword) (n : Nat) : Option (List Byte × State) :=
  match check s.cur.core.val .read a n s with
  | .ok [q] s1 => match cachedLoad s.cur.core.val q s1 with
    | .ok xs s2 => some (xs, s2)
    | _ => none
  | _ => none

/-- A read changes nothing but TLBs, the data cache with what it evicts, and page-table entries. -/
def ReadFrame (s t : State) : Prop :=
  t = { s with mem := t.mem, bad := t.bad, cores := t.cores, clusters := t.clusters, dies := t.dies, pending := t.pending,
               tags := t.tags, regions := t.regions }
    ∧ ∀ c, c ≠ s.cur.core.val → coreAt t c = coreAt s c

/-- What a load or atomic leaves of its core: everything but the control stream's place, its token, the issue slot, the results
in flight, the data cache and the TLB. -/
def AccessFrame (k k' : Core) : Prop :=
  k' = { k with streams := k'.streams, fifo := k'.fifo, issued := k'.issued, inflight := k'.inflight, dcache := k'.dcache,
                tlb := k'.tlb }
    ∧ ∀ st, st ≠ .c → k'.stream st = k.stream st

/-- The bytes that a control load of a PLAIN page returns: those of its cached line, or of memory (R112). -/
def plainBytes (s : State) (mem : List Host.Cell) (p : Page) (n : Nat) : List Byte :=
  match dcFind (mine s) (p.pa / 128 * 128) 256 with
  | some l => ((lineBytes l.data).drop (p.pa % 128)).take n
  | none => memRead mem p.pa n

/-- A load of `n` bytes puts the extended value in flight to ga, as a value at hand (R104, R111): from a PLAIN page whatever the cache
holds, and from any page whose access succeeds. -/
def Loads (i : Instr) (m : CM) (a b : BitVec 5) (disp : Dword) (n : Nat) (ext : List Byte → Dword) : Prop :=
  (∀ (s : State) (p : Page), (mine s).canIssue m [a, b] = true → (ea s b disp).toNat % n = 0 →
    PlainAccess s .read (ea s b disp) n p →
    ∃ t e, exec i s = .next t ∧ ReadFrame s t ∧ t.mem = (marked s .read (ea s b disp)).mem ∧ AccessFrame (mine s) (mine t)
      ∧ (mine t).inflight = (mine s).inflight ++ [e] ∧ e.dest = .g a ∧ e.val = ext (plainBytes s t.mem p n) ∧ e.wait = .ready
      ∧ e.fault = none ∧ e.q = m.q ∧ e.sync = m.sync)
  ∧ ∀ (s s1 : State) (xs : List Byte), (mine s).canIssue m [a, b] = true → (ea s b disp).toNat % n = 0 →
    isWindow (ea s b disp) = false → ctlRead s (ea s b disp) n = some (xs, s1) →
    ∃ t e, exec i s = .next t ∧ ReadFrame s t ∧ t.mem = s1.mem ∧ AccessFrame (mine s) (mine t)
      ∧ (mine t).inflight = (mine s).inflight ++ [e] ∧ e.dest = .g a ∧ e.val = ext xs ∧ e.wait = .ready ∧ e.fault = none
      ∧ e.q = m.q ∧ e.sync = m.sync

/-- The unsigned value of bytes. -/
def zext (xs : List Byte) : Dword := BitVec.ofNat 64 (leValue xs)

/-- A misaligned access raises ALIGN with its address and changes nothing else; with Q set a load's fault is kept for its
retirement (R106, R111). -/
def AlignTraps (i : Instr) (m : CM) (regs : List (BitVec 5)) (b : BitVec 5) (disp : Dword) (n : Nat) : Prop :=
  ∀ s : State, (mine s).canIssue m regs = true → (ea s b disp).toNat % n ≠ 0 → m.q = false →
    exec i s = .next (raise s s.cur.core.val .c ⟨.align, 0, ea s b disp, 0⟩)

/-- A store of `n` bytes of gc to a PLAIN page: its `n` bytes take the low bytes of gc, in memory and in a cached line, and every other
byte of memory is as translation left it; every register of the core is as before. -/
def StoresPlain (i : Instr) (m : CM) (b c : BitVec 5) (disp : Dword) (n : Nat) : Prop :=
  ∀ (s : State) (p : Page), MemOk s → (mine s).canIssue m [b, c] = true → (ea s b disp).toNat % n = 0 →
    PlainAccess s .write (ea s b disp) n p →
    ∃ t, exec i s = .next t ∧ ReadFrame s t ∧ AccessFrame (mine s) (mine t) ∧ (mine t).inflight = (mine s).inflight
      ∧ memRead t.mem p.pa n = leBytes n ((mine s).readG c).toNat
      ∧ plainBytes t t.mem p n = leBytes n ((mine s).readG c).toNat
      ∧ ∀ x, x < p.pa ∨ p.pa + n ≤ x → memGet t.mem x = memGet (marked s .write (ea s b disp)).mem x

end Sys2Proof.Claims

/-- R111: every load, in both its forms, reads n bytes at gb + disp and puts their zero or sign extension in flight to ga. -/
def Obligations.LoadsReturnMemory : Prop :=
  ∀ (m : CM) (a b : BitVec 5) (disp : BitVec 32),
    Loads (.ld8 m a b) m a b 0 1 zext ∧ Loads (.ld8Disp m a b disp) m a b (imm64 disp) 1 zext
    ∧ Loads (.ld8s m a b) m a b 0 1 (fun xs => (BitVec.ofNat 8 (leValue xs)).signExtend 64)
    ∧ Loads (.ld8sDisp m a b disp) m a b (imm64 disp) 1 (fun xs => (BitVec.ofNat 8 (leValue xs)).signExtend 64)
    ∧ Loads (.ld16 m a b) m a b 0 2 zext ∧ Loads (.ld16Disp m a b disp) m a b (imm64 disp) 2 zext
    ∧ Loads (.ld16s m a b) m a b 0 2 (fun xs => (BitVec.ofNat 16 (leValue xs)).signExtend 64)
    ∧ Loads (.ld16sDisp m a b disp) m a b (imm64 disp) 2 (fun xs => (BitVec.ofNat 16 (leValue xs)).signExtend 64)
    ∧ Loads (.ld32 m a b) m a b 0 4 zext ∧ Loads (.ld32Disp m a b disp) m a b (imm64 disp) 4 zext
    ∧ Loads (.ld32s m a b) m a b 0 4 (fun xs => (BitVec.ofNat 32 (leValue xs)).signExtend 64)
    ∧ Loads (.ld32sDisp m a b disp) m a b (imm64 disp) 4 (fun xs => (BitVec.ofNat 32 (leValue xs)).signExtend 64)
    ∧ Loads (.ld64 m a b) m a b 0 8 zext ∧ Loads (.ld64Disp m a b disp) m a b (imm64 disp) 8 zext

/-- R111: every store, in both its forms, writes the low n bytes of gc at gb + disp and changes no other byte. -/
def Obligations.StoresWriteMemory : Prop :=
  ∀ (m : CM) (b c : BitVec 5) (disp : BitVec 32),
    StoresPlain (.st8 m b c) m b c 0 1 ∧ StoresPlain (.st8Disp m b c disp) m b c (imm64 disp) 1
    ∧ StoresPlain (.st16 m b c) m b c 0 2 ∧ StoresPlain (.st16Disp m b c disp) m b c (imm64 disp) 2
    ∧ StoresPlain (.st32 m b c) m b c 0 4 ∧ StoresPlain (.st32Disp m b c disp) m b c (imm64 disp) 4
    ∧ StoresPlain (.st64 m b c) m b c 0 8 ∧ StoresPlain (.st64Disp m b c disp) m b c (imm64 disp) 8

/-- R111, R113: an address that is not a multiple of the width raises ALIGN with FADDR the address, for loads, stores and
atomics. R111: PREF issues whatever its address does, changes no register, and raises nothing. -/
def Obligations.MisalignedAccessesTrapAndPrefetchesDoNot : Prop :=
  (∀ (m : CM) (a b c : BitVec 5) (disp : BitVec 32) (d24 : BitVec 24) (scope : BitVec 3),
    AlignTraps (.ld16 m a b) m [a, b] b 0 2 ∧ AlignTraps (.ld16Disp m a b disp) m [a, b] b (imm64 disp) 2
    ∧ AlignTraps (.ld16s m a b) m [a, b] b 0 2 ∧ AlignTraps (.ld16sDisp m a b disp) m [a, b] b (imm64 disp) 2
    ∧ AlignTraps (.ld32 m a b) m [a, b] b 0 4 ∧ AlignTraps (.ld32Disp m a b disp) m [a, b] b (imm64 disp) 4
    ∧ AlignTraps (.ld32s m a b) m [a, b] b 0 4 ∧ AlignTraps (.ld32sDisp m a b disp) m [a, b] b (imm64 disp) 4
    ∧ AlignTraps (.ld64 m a b) m [a, b] b 0 8 ∧ AlignTraps (.ld64Disp m a b disp) m [a, b] b (imm64 disp) 8
    ∧ AlignTraps (.st16 m b c) m [b, c] b 0 2 ∧ AlignTraps (.st16Disp m b c disp) m [b, c] b (imm64 disp) 2
    ∧ AlignTraps (.st32 m b c) m [b, c] b 0 4 ∧ AlignTraps (.st32Disp m b c disp) m [b, c] b (imm64 disp) 4
    ∧ AlignTraps (.st64 m b c) m [b, c] b 0 8 ∧ AlignTraps (.st64Disp m b c disp) m [b, c] b (imm64 disp) 8
    ∧ AlignTraps (.aadd m a b c d24 scope) m [a, b, c] b (d24.signExtend 64) 8
    ∧ AlignTraps (.aswap m a b c d24 scope) m [a, b, c] b (d24.signExtend 64) 8
    ∧ AlignTraps (.acas m a b c d24 scope) m [a, b, c] b (d24.signExtend 64) 8)
  ∧ (∀ (m : CM) (b : BitVec 5) (disp : BitVec 32) (s : State), (mine s).canIssue m [b] = true →
    (∃ t, exec (.pref m b) s = .next t ∧ ReadFrame s t ∧ AccessFrame (mine s) (mine t)
      ∧ (mine t).inflight = (mine s).inflight)
    ∧ ∃ t, exec (.prefDisp m b disp) s = .next t ∧ ReadFrame s t ∧ AccessFrame (mine s) (mine t)
      ∧ (mine t).inflight = (mine s).inflight)

namespace Sys2Proof.Claims

/-- An atomic at an aligned address of a PLAIN page that may be read and written: the old doubleword, as memory holds it, is in flight
to ga, and memory holds `new` of it where that is defined, every other byte as translation left it (R113). -/
def Atomically (i : Instr) (m : CM) (a b c : BitVec 5) (disp : BitVec 24) (new : Dword → Dword → Dword → Option Dword) :
    Prop :=
  ∀ (s : State) (p : Page),
    let addr := (mine s).readG b + disp.signExtend 64
    MemOk s → (mine s).canIssue m [a, b, c] = true → addr.toNat % 8 = 0 → PlainAccess s .read addr 8 p → Mapped s .write addr p →
    let old := BitVec.ofNat 64 (leValue (memRead (marked s .read addr).mem p.pa 8))
    ∃ t e, exec i s = .next t ∧ ReadFrame s t ∧ AccessFrame (mine s) (mine t)
      ∧ (mine t).inflight = (mine s).inflight ++ [e] ∧ e.dest = .g a ∧ e.val = old ∧ e.wait = .ready ∧ e.fault = none
      ∧ e.q = m.q ∧ e.sync = m.sync
      ∧ match new old ((mine s).readG c) ((mine s).readG a) with
        | some x => memRead t.mem p.pa 8 = leBytes 8 x.toNat
            ∧ ∀ y, y < p.pa ∨ p.pa + 8 ≤ y → memGet t.mem y = memGet (marked (marked s .read addr) .write addr).mem y
        | none => t.mem = (marked s .read addr).mem

end Sys2Proof.Claims

/-- R113: each atomic returns the old doubleword and stores its tabulated new one; ACAS stores only on a match. -/
def Obligations.AtomicsReadAndWrite : Prop :=
  ∀ (m : CM) (a b c : BitVec 5) (disp : BitVec 24) (scope : BitVec 3),
    Atomically (.aadd m a b c disp scope) m a b c disp (fun old x _ => some (old + x))
    ∧ Atomically (.aand m a b c disp scope) m a b c disp (fun old x _ => some (old &&& x))
    ∧ Atomically (.aor m a b c disp scope) m a b c disp (fun old x _ => some (old ||| x))
    ∧ Atomically (.axor m a b c disp scope) m a b c disp (fun old x _ => some (old ^^^ x))
    ∧ Atomically (.amin m a b c disp scope) m a b c disp (fun old x _ => some (if old.slt x then old else x))
    ∧ Atomically (.amax m a b c disp scope) m a b c disp (fun old x _ => some (if old.slt x then x else old))
    ∧ Atomically (.aminu m a b c disp scope) m a b c disp (fun old x _ => some (if old < x then old else x))
    ∧ Atomically (.amaxu m a b c disp scope) m a b c disp (fun old x _ => some (if old < x then x else old))
    ∧ Atomically (.aswap m a b c disp scope) m a b c disp (fun _ x _ => some x)
    ∧ Atomically (.acas m a b c disp scope) m a b c disp (fun old x g => if old = g then some x else none)

/-- R383 to R387: a translation that succeeds changes no byte of memory outside the leaf entry its walk ends in, and the access
it allows is one that the entry permits. R385, R386: a walk that ends in a leaf has found it valid, at a level from 1 to 3, with its reserved and low PPN bits
clear. R29, R386: an address that is not 8 copies of bit 55 raises ADDRESS; an invalid ASID raises NOMAP with level 4. -/
def Obligations.TranslationFollowsTheTables : Prop :=
  (∀ (s s1 : State) (c : Nat) (asid : BitVec 11) (atS : Bool) (k : AccKind) (a : Dword) (p : Page),
    MemOk s → translate (some c) asid atS k a s = .ok p s1 →
    ∀ x, (∀ ent e l, walkTables s a asid = .leaf ent e l → x < ent ∨ ent + 8 ≤ x) → memGet s1.mem x = memGet s.mem x)
  ∧ (∀ (s : State) (a : Dword) (asid : BitVec 11) (ent l : Nat) (e : Dword), walkTables s a asid = .leaf ent e l →
    (e = physDword s ent ∨ trapLeaf s a asid = some e) ∧ e.getLsbD 0 = true ∧ (e.getLsbD 1 = true ∨ e.getLsbD 2 = true ∨ e.getLsbD 3 = true)
    ∧ 1 ≤ l ∧ l ≤ 3 ∧ e.extractLsb' 44 4 = 0 ∧ e.extractLsb' 12 4 = 0
    ∧ (e.toNat / 65536) % 2 ^ (30 - 10 * l) = 0)
  ∧ ((∀ (s : State) (c : Option Nat) (asid : BitVec 11) (atS : Bool) (k : AccKind) (a : Dword),
    a.extractLsb' 56 8 ≠ (if a.getLsbD 55 then 0xFF else 0) →
    translate c asid atS k a s = .error (.exc ⟨.address, 0, a, 0⟩) s)
  ∧ ∀ (s : State) (asid : BitVec 11) (atS : Bool) (k : AccKind) (a : Dword),
    a.extractLsb' 56 8 = (if a.getLsbD 55 then 0xFF else 0) →
    (physDword s (Config.asidTable + 8 * asid.toNat)).getLsbD 63 = false →
    flawed s (Config.asidTable + 8 * asid.toNat) = false →
    translate none asid atS k a s = .error (.exc ⟨.nomap, 4, a, 0⟩) s)

namespace Sys2Proof.Claims

/-- A taken branch to bN whose target is fetched and checked: issue goes on at the target's line and slot, every squashable result
in flight is dropped and no other, and the target waits max(0, 3 - d) cycles (R106, R120, R121). -/
def Branches (s : State) (n : BitVec 3) (l : CodeLine) (t : State) : Prop :=
  (∀ c, c ≠ s.cur.core.val → coreAt t c = coreAt s c)
    ∧ ((mine t).stream .c).line = some l ∧ ((mine t).stream .c).slot = ((mine s).readB n).toNat / 2 ^ 24
    ∧ (∀ e ∈ (mine t).inflight, e.q = false)
    ∧ (mine t).inflight.length = ((mine s).inflight.filter fun e => !e.q).length
    ∧ (mine t).b = (mine s).b ∧ (mine t).sr = (mine s).sr
    ∧ (mine t).stall = (match (mine s).pbrSeq.find? fun e => e.1 == n with
        | none => 0
        | some e => 3 - (((mine s).stream .c).here.seq - e.2).toNat)
    ∧ ∀ st, st ≠ .c → (mine t).stream st = (mine s).stream st

/-- The target of bN can be fetched (R17, R26, R44): its line is there and its slot starts an instruction; or, wherever the line
stands, its fetch succeeds. -/
def TargetOf (s : State) (n : BitVec 3) (l : CodeLine) : Prop :=
  let idx := ((mine s).readB n).extractLsb' 0 24
  let slot := (((mine s).readB n).extractLsb' 24 4).toNat
  (LineAt s .c idx l ∧ (starts l.words).contains slot = true) ∨ ∃ s1, fetchTarget s.cur.core.val .c idx slot s = .ok l s1

end Sys2Proof.Claims

/-- R120: PBR and PBRR write bN and note their sequence number, and change no other register. -/
def Obligations.PrepareBranchWritesTarget : Prop :=
  ∀ (m : CM) (n : BitVec 3) (target : BitVec 28) (b : BitVec 5) (s : State),
    ((mine s).canIssue m [] = true → ∃ t, exec (.pbr m n target) s = .next t ∧ OnlyCore s t ∧ (mine t).readB n = target
      ∧ (∀ j, j ≠ n → (mine t).readB j = (mine s).readB j) ∧ (mine t).g = (mine s).g ∧ (mine t).sr = (mine s).sr
      ∧ (mine t).pbrSeq.find? (fun e => e.1 == n) = some (n, ((mine s).stream .c).here.seq)
      ∧ (mine t).inflight = (mine s).inflight ∧ ∀ st, st ≠ .c → (mine t).stream st = (mine s).stream st)
    ∧ ((mine s).canIssue m [b] = true → ∃ t, exec (.pbrr m n b) s = .next t ∧ OnlyCore s t
      ∧ (mine t).readB n = ((mine s).readG b).setWidth 28
      ∧ (∀ j, j ≠ n → (mine t).readB j = (mine s).readB j) ∧ (mine t).g = (mine s).g ∧ (mine t).sr = (mine s).sr
      ∧ (mine t).pbrSeq.find? (fun e => e.1 == n) = some (n, ((mine s).stream .c).here.seq)
      ∧ (mine t).inflight = (mine s).inflight ∧ ∀ st, st ≠ .c → (mine t).stream st = (mine s).stream st)

/-- R120 to R122: BR taken exactly on its condition, BRA and CALL always; CALL links in g31 the next instruction's place, the first of
line NEXT, or 0; a branch to 0 raises a fetch fault. -/
def Obligations.BranchesGoToTheirTarget : Prop :=
  ∀ (m : CM) (n : BitVec 3) (b : BitVec 5) (cond : BitVec 2) (s s1 : State) (l : CodeLine),
    ((mine s).canIssue m [b] = true →
      ((cond = 0 ∧ (mine s).readG b ≠ 0) ∨ (cond = 1 ∧ (mine s).readG b = 0) ∨ (cond = 2 ∧ 0 ≤ ((mine s).readG b).toInt)
        ∨ (cond = 3 ∧ ((mine s).readG b).toInt < 0)) →
      ∃ t, exec (.br m n b cond) s = .next t ∧ OnlyCore s t ∧ CtlFrame m (mine s) (mine t) ∧ (mine t).g = (mine s).g
        ∧ (mine t).inflight = (mine s).inflight)
    ∧ ((mine s).canIssue m [b] = true → TargetOf s n l →
      ((cond = 0 ∧ (mine s).readG b = 0) ∨ (cond = 1 ∧ (mine s).readG b ≠ 0) ∨ (cond = 2 ∧ ((mine s).readG b).toInt < 0)
        ∨ (cond = 3 ∧ 0 ≤ ((mine s).readG b).toInt)) →
      ∃ t, exec (.br m n b cond) s = .next t ∧ Branches s n l t ∧ (mine t).g = (mine s).g)
    ∧ ((mine s).canIssue m [] = true → TargetOf s n l →
      ∃ t, exec (.bra m n) s = .next t ∧ Branches s n l t ∧ (mine t).g = (mine s).g)
    ∧ ((mine s).canIssue m [] = true → (mine s).readB n = 0 → fetchCode s.cur.core.val .c 0 s = .ok l s1 →
      exec (.bra m n) s = .next (raise s1 s.cur.core.val .c ⟨.fetch, 0, l.addr, 0⟩))
    ∧ ((mine s).canIssue m [31] = true → TargetOf s n l →
      ∃ t, exec (.call m n) s = .next t ∧ Branches s n l t ∧ OtherG 31 (mine s) (mine t)
        ∧ ∀ l0, ((mine s).stream .c).line = some l0 →
            (mine t).readG 31 = match nextSlot l0.words (((mine s).stream .c).slot + s.cur.len) with
              | some i => BitVec.ofNat 64 (i * 2 ^ 24 + l0.idx.toNat)
              | none => if (l0.words.getD 0 0).getLsbD 27 then 0
                  else if (l0.words.getD 0 0).getLsbD 28 then 0
                  else BitVec.ofNat 64 (2 ^ 24 + ((l0.words.getD 0 0).extractLsb' 0 24).toNat))

/-- R17, R45: a stream whose next line is `idx` fetches it and stands at its first slot that holds no PAD, the stream's steer queue
untouched; a steered one takes the head of its queue. R17: a line is fetched only with OWNER the fetching stream, bits [25:24] zero, and not both S and E; a control line has S
clear (R120). -/
def Obligations.LineFetchGoesOn : Prop :=
  (∀ (st : StreamId) (idx : BitVec 24) (rest : List (BitVec 24)) (s : State) (l : CodeLine) (i : Nat),
    canFetch (mine s) st = true → LineOf s st idx l → nextSlot l.words 1 = some i →
    (((mine s).stream st).next = .at idx →
      ∃ t, exec (.lineFetch st) s = .next t ∧ ((mine t).stream st).line = some l ∧ ((mine t).stream st).slot = i
        ∧ ((mine t).stream st).run = .run ∧ ((mine t).stream st).steer = ((mine s).stream st).steer ∧ (mine t).g = (mine s).g
        ∧ ∀ st', st' ≠ st → (mine t).stream st' = (mine s).stream st')
    ∧ (((mine s).stream st).next = .steered → ((mine s).stream st).steer = idx :: rest →
      ∃ t, exec (.lineFetch st) s = .next t ∧ ((mine t).stream st).line = some l ∧ ((mine t).stream st).slot = i
        ∧ ((mine t).stream st).run = .run ∧ ((mine t).stream st).steer = rest ∧ (mine t).g = (mine s).g
        ∧ ∀ st', st' ≠ st → (mine t).stream st' = (mine s).stream st'))
  ∧ (∀ (c : Nat) (st : StreamId) (idx : BitVec 24) (s s1 : State) (l : CodeLine), fetchCode c st idx s = .ok l s1 →
    let w := l.words.getD 0 0
    (w.extractLsb' 29 3).toNat = streamNum st ∧ w.extractLsb' 24 2 = 0 ∧ ¬(w.getLsbD 27 = true ∧ w.getLsbD 28 = true)
    ∧ (st = .c → w.getLsbD 28 = false) ∧ l.idx = idx)

/-- R21, R22: a held push lands when its FIFO is below 15, adding one token, and waits at 15. R104, R106: exposed results whose last cycle has ended are written, the later issued of two for one register last, and the
other entries in flight are kept; the oldest interlocked value at hand is written by its arrival, and an older exposed result for its
register that would land in the same cycle is lost; or its fault is raised. R106: a taken BRA leaves no squashable result in flight, so that a killed instruction writes no register. R105: an instruction
with a push makes it when it retires, after the pushes its stream already holds. -/
def Obligations.ResultsAndPushesLand : Prop :=
  (∀ (st : StreamId) (x : BitVec 2) (s : State), ((mine s).stream st).held = [.push x] →
    ((mine s).tokens (pushFifo st x) < 15 → ∃ t, exec (.retiringPush st) s = .next t ∧ OnlyCore s t
      ∧ (mine t).tokens (pushFifo st x) = (mine s).tokens (pushFifo st x) + 1 ∧ ((mine t).stream st).held = []
      ∧ (∀ f, f ≠ pushFifo st x → (mine t).tokens f = (mine s).tokens f) ∧ (mine t).g = (mine s).g)
    ∧ ((mine s).tokens (pushFifo st x) = 15 → ∃ t, exec (.retiringPush st) s = .next t ∧ OnlyCore s t
      ∧ (mine t).fifo = (mine s).fifo ∧ ((mine t).stream st).held = [.push x] ∧ (mine t).g = (mine s).g))
  ∧ ((∀ (n : BitVec 5) (before after : List InFlight) (e : InFlight) (s : State), n ≠ 0 →
    (mine s).inflight = before ++ [e] ++ after → e.dest = .g n → e.wait = .cycles 0 →
    (∀ x ∈ after, ¬(x.dest = .g n ∧ x.wait = .cycles 0)) →
    ∃ t, exec .exposedResultWrite s = .next t ∧ OnlyCore s t ∧ (mine t).readG n = e.val
      ∧ (mine t).inflight = (mine s).inflight.filter (fun x => x.wait != .cycles 0))
  ∧ (∀ (n : BitVec 5) (before after : List InFlight) (e : InFlight) (s : State), n ≠ 0 → (mine s).raising = none →
    (mine s).inflight = before ++ [e] ++ after → (∀ x ∈ before, x.wait ≠ .ready) → e.wait = .ready → e.dest = .g n →
    (e.fault = none → ∃ t, exec .interlockedValueArrive s = .next t ∧ OnlyCore s t ∧ (mine t).readG n = e.val
      ∧ OtherG n (mine s) (mine t)
      ∧ (mine t).inflight = (before ++ after).map fun x =>
          if x.dest = .g n ∧ (x.wait = .cycles 0 ∨ x.wait = .cycles 1) then { x with dest := .none } else x)
    ∧ (∀ x, e.fault = some x → exec .interlockedValueArrive s = .next (raise s s.cur.core.val .c x))))
  ∧ (∀ (m : CM) (s : State), (mine s).canIssue m [] = true →
    ∃ t, exec (.nop m) s = .next t ∧ OnlyCore s t ∧ CtlFrame m (mine s) (mine t) ∧ (mine t).g = (mine s).g
      ∧ (mine t).inflight = (mine s).inflight
      ∧ ((mine t).stream .c).held = ((mine s).stream .c).held ++ (if m.sync.push then [.push m.sync.pdst] else []))

namespace Sys2Proof.Claims

/-- A special-register number that the core may name now (R33). -/
def NumberOk (s : State) (n : BitVec 8) : Prop :=
  n.toNat < 0x13 ∧ ((mine s).sr.mode ≠ 0 ∨ (n ≠ 0x01 ∧ n ≠ 0x02 ∧ n ≠ 0x03 ∧ n ≠ 0x10 ∧ n ≠ 0x11))

/-- STAT by its field map (R34). -/
def statBits (r : Special) : Dword :=
  (if r.sat then 0x8000 else 0) ||| (if r.peerlost then 0x4000 else 0) ||| (if r.verify then 8 else 0)
    ||| (if r.pend then 4 else 0) ||| r.mode.setWidth 64

/-- The value of special register `n` by R33's table, for the numbers whose register is held as one value. -/
def specialValue (s : State) (n : BitVec 8) : Option Dword :=
  let r := (mine s).sr
  match n.toNat with
  | 0x00 => some (statBits r)
  | 0x01 => some r.sstat
  | 0x02 => some r.cause
  | 0x03 => some r.faddr
  | 0x04 => some (BitVec.ofNat 64 s.cur.core.val)
  | 0x05 => some ((r.asidNext.getD r.asid).setWidth 64)
  | 0x06 => some (vget s.dies (s.cur.core.val / 128) Die.reset).cyc
  | 0x07 => some r.seed
  | 0x08 => some (r.phn.setWidth 64)
  | 0x09 => some r.bopenid
  | 0x0A => some r.lagcnt
  | 0x0B => some r.ovfcnt
  | 0x0C => some r.skipcnt
  | 0x0D => some r.confcnt
  | 0x10 => some (r.vbank.setWidth 64)
  | 0x11 => some r.hanglim
  | _ => none

end Sys2Proof.Claims

/-- R33, R131: MFS puts the named register's value in flight to ga; TOKLO and TOKHI show FIFO f's count in their f-th four bits. -/
def Obligations.MfsReadsSpecialRegisters : Prop :=
  ∀ (m : CM) (a : BitVec 5) (n : BitVec 8) (s : State), (mine s).canIssue m [a] = true → NumberOk s n →
    ∃ t e, exec (.mfs m a n) s = .next t ∧ OnlyCore s t ∧ CtlFrame m (mine s) (mine t) ∧ (mine t).g = (mine s).g
      ∧ (mine t).inflight = (mine s).inflight ++ [e] ∧ e.dest = .g a ∧ e.wait = .ready ∧ e.fault = none
      ∧ (∀ x, specialValue s n = some x → e.val = x)
      ∧ (n = 0x0E → ∀ f, f < 16 → (e.val.extractLsb' (4 * f) 4).toNat = (mine s).tokens f)
      ∧ (n = 0x0F → (∀ f, f < 4 → (e.val.extractLsb' (4 * f) 4).toNat = (mine s).tokens (16 + f)) ∧ e.val.toNat < 2 ^ 16)

/-- R7, R33, R34, R131: MTS to each register but VBANK. STAT clears SAT and PEERLOST where 1 is written; SSTAT keeps all; CAUSE
keeps [15:0]; read-only registers keep their value; ASID at S waits for TRET. No general register changes. -/
def Obligations.MtsWritesSpecialRegisters : Prop :=
  ∀ (m : CM) (a : BitVec 5) (n : BitVec 8) (s : State), (mine s).canIssue m [a] = true → NumberOk s n → n ≠ 0x10 →
    let x := (mine s).readG a
    let r := (mine s).sr
    ∃ t, exec (.mts m a n) s = .next t ∧ OnlyCore s t ∧ (mine t).g = (mine s).g ∧ (mine t).inflight = (mine s).inflight
      ∧ (∀ st, st ≠ .c → (mine t).stream st = (mine s).stream st)
      ∧ (mine t).sr = match n.toNat with
        | 0x00 => { r with sat := r.sat && !x.getLsbD 15, peerlost := r.peerlost && !x.getLsbD 14 }
        | 0x01 => { r with sstat := x }
        | 0x02 => { r with cause := x &&& 0xFFFF }
        | 0x03 => { r with faddr := x }
        | 0x05 => if r.mode = 0 then r else { r with asidNext := some (x.setWidth 11) }
        | 0x07 => { r with seed := x }
        | 0x0A => { r with lagcnt := x }
        | 0x0B => { r with ovfcnt := x }
        | 0x0C => { r with skipcnt := x }
        | 0x0D => { r with confcnt := x }
        | 0x11 => { r with hanglim := x }
        | _ => r

/-- R33: a register marked "trap" raises PRIV at U, and a number from 0x13 on raises ILLEGAL with the word's address. R369: at S the stream, queue, phase and bundle instructions raise ILLEGAL, which there is a handler fault. -/
def Obligations.PrivilegeChecksHold : Prop :=
  (∀ (m : CM) (a : BitVec 5) (n : BitVec 8) (s : State), (mine s).canIssue m [a] = true → m.q = false →
    (((mine s).sr.mode = 0 ∧ (n = 0x01 ∨ n = 0x02 ∨ n = 0x03 ∨ n = 0x10 ∨ n = 0x11)) →
      exec (.mfs m a n) s = .next (raise s s.cur.core.val .c ⟨.priv, 0, 0, 0⟩)
      ∧ exec (.mts m a n) s = .next (raise s s.cur.core.val .c ⟨.priv, 0, 0, 0⟩))
    ∧ (0x13 ≤ n.toNat →
      exec (.mfs m a n) s = .next (raise s s.cur.core.val .c ⟨.illegal, 0, ((mine s).stream .c).wordAddr, 0⟩)
      ∧ exec (.mts m a n) s = .next (raise s s.cur.core.val .c ⟨.illegal, 0, ((mine s).stream .c).wordAddr, 0⟩)))
  ∧ (∀ (m : CM) (s : State) (line : BitVec 24) (mask v4 : BitVec 4) (e : BitVec 2) (a b c : BitVec 5) (n3 : BitVec 3)
    (v8 : BitVec 8) (f : CbsetF) (role : Bool),
    (mine s).sr.mode ≠ 0 → m.q = false → (mine s).popReady .c m.sync = true → (mine s).inflight = [] →
    let ill := Host.Outcome.next (raise s s.cur.core.val .c ⟨.illegal, 0, ((mine s).stream .c).wordAddr, 0⟩)
    exec (.fork m line mask) s = ill ∧ exec (.rdv m mask) s = ill ∧ exec (.steer m e b) s = ill
    ∧ exec (.steerImm m e line) s = ill ∧ exec (.earg m e b v4) s = ill ∧ exec (.waitcc m n3 v8) s = ill
    ∧ exec (.cbset m v4 f) s = ill ∧ exec (.cbwait m v4 role c) s = ill ∧ exec (.cbadv m v4 role c) s = ill
    ∧ exec (.item m a) s = ill ∧ exec (.yield m) s = ill ∧ exec (.phase m) s = ill
    ∧ exec (.bopen m a b) s = ill ∧ exec (.bseal m a) s = ill ∧ exec (.babort m) s = ill
    ∧ exec (.emit m a b) s = ill)

/-- R29, R368, R366: a trap that is entered writes CAUSE, FADDR and SSTAT, sets MODE to S, puts the trap area, CAUSE and FADDR in
g1 to g3 and leaves g4 to g31, b, d and p; every stream goes to FAULTED and the control stream runs the handler with sequence
number 0. An entry that fails stops the core instead. -/
def Obligations.TrapEntryState : Prop :=
  ∀ (s : State) (c : Nat) (st : StreamId) (e : Exc), c < 512 → (coreAt s c).sr.mode = 0 → (coreAt s c).raising = none →
    (coreAt s c).inflight = [] → workDone s c = true → (coreAt s c).stopped = false →
    let k := coreAt s c
    let k' := coreAt (raise s c st e) c
    k'.stopped = false →
    k'.sr.cause = BitVec.ofNat 64 (e.cause.code + 256 * e.level) ∧ k'.sr.faddr = e.addr ∧ k'.sr.sstat = statBits k.sr
    ∧ k'.sr.mode = 1 ∧ k'.readG 1 = 0xFFB0000000000000 + BitVec.ofNat 64 (1024 * c)
    ∧ k'.readG 2 = BitVec.ofNat 64 (e.cause.code + 256 * e.level) ∧ k'.readG 3 = e.addr
    ∧ (∀ r : BitVec 5, 4 ≤ r.toNat → k'.readG r = k.readG r) ∧ k'.b = k.b ∧ k'.d = k.d ∧ k'.p = k.p
    ∧ (k'.stream .c).run = .run ∧ (k'.stream .c).seq = 0 ∧ (∀ t, t ≠ .c → (k'.stream t).run = .faulted)
    ∧ k'.frame.isSome = true

/-- R132: TRAP completes, as a NOP does, and then raises SOFTWARE with its code in FADDR, the stream standing behind it. R369: what a raise at S does: the core stops. R47: a refused word at issue raises ILLEGAL with the address of its word 0, whatever Q and the tokens say. R134, R373: HANG is raised for the lowest-numbered stream in RUN whose count exceeds a nonzero HANGLIM, as HANGLIM stood when the cycle began, and for
no other. -/
def Obligations.TrapsAreRaised : Prop :=
  ((∀ (m : CM) (code : BitVec 10) (s : State), (mine s).canIssue m [] = true →
    ∃ t, exec (.nop m) s = .next t ∧ OnlyCore s t ∧ CtlFrame m (mine s) (mine t) ∧ (mine t).g = (mine s).g
      ∧ (mine t).inflight = (mine s).inflight ∧ exec (.trap m code) s = .next (raise t s.cur.core.val .c ⟨.software, 0, code.setWidth 64, 0⟩))
  ∧ ∀ (s : State) (c : Nat) (st : StreamId) (e : Exc), c < 512 → (coreAt s c).sr.mode ≠ 0 → (coreAt s c).raising = none →
    workDone s c = true → (coreAt (raise s c st e) c).stopped = true
      ∧ (coreAt (raise s c st e) c).sr.pend = false ∧ (coreAt (raise s c st e) c).preempt = .none)
  ∧ (∀ (s : State) (l : CodeLine), ((mine s).stream s.cur.st).run = .run → ((mine s).stream s.cur.st).line = some l →
    exec .illegalInstruction s = .next (raise s s.cur.core.val s.cur.st
      ⟨.illegal, 0, l.addr + BitVec.ofNat 64 (4 * ((mine s).stream s.cur.st).slot), 0⟩))
  ∧ (∀ (st : StreamId) (s : State), (mine s).stopped = false →
    (((mine s).limit = 0 ∨ ((mine s).stream st).run ≠ .run ∨ ((mine s).stream st).idle ≤ (mine s).limit.toNat) →
      exec (.hangTimeout st) s = .next s)
    ∧ ((mine s).limit ≠ 0 → ((mine s).stream st).run = .run → (mine s).limit.toNat < ((mine s).stream st).idle →
      (∀ t, streamNum t < streamNum st → ((mine s).stream t).run ≠ .run ∨ ((mine s).stream t).idle ≤ (mine s).limit.toNat) →
      exec (.hangTimeout st) s = .next (raise s s.cur.core.val st ⟨.hang, 0, 0, 0⟩)))

/-- R133, R370: TRET at U raises PRIV; at S with a bad SSTAT it raises BADSTAT, a handler fault; with an unedited frame and no
ASID change it restores g and b from the trap area, SAT, PEERLOST and MODE from SSTAT, VERIFY and PEND staying, and every stream's
line, slot, MPC, sequence number and run state: a stream that had a line fetches it again, to go on at its slot. -/
def Obligations.TretRestoresTheKernel : Prop :=
  ∀ (m : CM) (s : State), (mine s).canIssue m [] = true →
    ((mine s).sr.mode = 0 → exec (.tret m) s = .next (raise s s.cur.core.val .c ⟨.priv, 0, 0, 0⟩))
    ∧ ((mine s).sr.mode ≠ 0 → (mine s).inflight = [] →
      ((mine s).sr.sstat.extractLsb' 16 48 ≠ 0 ∨ (mine s).sr.sstat.extractLsb' 4 10 ≠ 0 ∨ (mine s).sr.sstat.getLsbD 1 = true) →
      exec (.tret m) s = .next (raise s s.cur.core.val .c ⟨.badstat, 0, 0, 0⟩))
    ∧ ∀ (frame regs : List Byte) (mem : List Host.Cell), (mine s).sr.mode ≠ 0 → (mine s).inflight = [] →
      (mine s).sr.sstat.extractLsb' 16 48 = 0 → (mine s).sr.sstat.extractLsb' 4 10 = 0 → (mine s).sr.sstat.getLsbD 1 = false →
      frame = leBytes 512 ((mine s).frame.getD 0).toNat → regs.length = 320 → (mine s).sr.asidNext = none →
      Reads s (0xFFB0000000000000 + BitVec.ofNat 64 (1024 * s.cur.core.val)) 832 (frame ++ regs) mem →
      ∃ t, exec (.tret m) s = .next t
        ∧ (∀ r : BitVec 5, r ≠ 0 → (mine t).readG r = BitVec.ofNat 64 (leValue ((regs.drop (8 * r.toNat)).take 8)))
        ∧ (∀ n : BitVec 3, (mine t).readB n = BitVec.ofNat 28 (leValue ((regs.drop (256 + 8 * n.toNat)).take 8)))
        ∧ (mine t).sr.sat = (mine s).sr.sstat.getLsbD 15 ∧ (mine t).sr.peerlost = (mine s).sr.sstat.getLsbD 14
        ∧ (mine t).sr.mode = (mine s).sr.sstat.extractLsb' 0 2
        ∧ (mine t).sr.verify = (mine s).sr.verify ∧ (mine t).sr.pend = (mine s).sr.pend
        ∧ (∀ st, let x := if st = .c then (mine s).savedC.getD Stream.reset else (mine s).stream st
            ((mine t).stream st).run = x.saved ∧ ((mine t).stream st).seq = x.seq ∧ ((mine t).stream st).mpc = x.mpc
              ∧ (x.line.isSome = true → ((mine t).stream st).next = .resume x.here ∧ ((mine t).stream st).line = none))
        ∧ (mine t).frame = none ∧ (mine t).d = (mine s).d ∧ (mine t).p = (mine s).p

/-- The control stream's chain has ended: at once, or behind the retirements that a full FIFO holds (R21, R134). -/
def Sys2Proof.Claims.ChainEnds (t : State) (was : RunState) (held : List Retiring) : Prop :=
  ((mine t).stream .c).line = none ∧ ((mine t).stream .c).next = .none
    ∧ if held = [] then ((mine t).stream .c).run = .ended ∧ ((mine t).stream .c).held = []
      else ((mine t).stream .c).run = was ∧ ((mine t).stream .c).held = held ++ [.ends]

/-- R134: END at U moves the control stream to ENDED, behind the pushes it still has to make (R21). R371: at S it abandons the operator:
every engine stream is ENDED and the control stream ends likewise, MODE is U, SAT and PEERLOST are SSTAT's. -/
def Obligations.EndEndsOrAbandons : Prop :=
  ∀ (m : CM) (s : State), (mine s).canIssue m [] = true →
    let own : List Retiring := if m.sync.push then [.push m.sync.pdst] else []
    ((mine s).sr.mode = 0 → ∃ t, exec (.endOp m) s = .next t
      ∧ ChainEnds t ((mine s).stream .c).run (((mine s).stream .c).held ++ own) ∧ (mine t).g = (mine s).g ∧ (mine t).sr = (mine s).sr
      ∧ (∀ st, st ≠ .c → (mine t).stream st = (mine s).stream st) ∧ ∀ c, c ≠ s.cur.core.val → coreAt t c = coreAt s c)
    ∧ ((mine s).sr.mode ≠ 0 → ∃ t, exec (.endOp m) s = .next t ∧ (∀ st, st ≠ .c → ((mine t).stream st).run = .ended)
      ∧ ChainEnds t ((mine s).stream .c).run (((mine s).savedC.map (·.held)).getD [] ++ ((mine s).stream .c).held ++ own)
      ∧ (mine t).sr.mode = 0 ∧ (mine t).sr.sat = (mine s).sr.sstat.getLsbD 15
      ∧ (mine t).sr.peerlost = (mine s).sr.sstat.getLsbD 14 ∧ (mine t).version = none ∧ (mine t).g = (mine s).g
      ∧ (mine t).z = (mine s).z ∧ (mine t).w = (mine s).w ∧ (mine t).d = (mine s).d)

/-- R135, R48, R119, R130: NOP, a hint of any length in the control stream, BABORT with no version open and YIELD on a core that is
not moved only take their sequence number and honour their sync field. -/
def Obligations.InstructionsWithoutEffect : Prop :=
  ∀ (m : CM) (y : Sync) (op : BitVec 4) (opnd : BitVec 16) (x : HintExt),
    NoResult (.nop m) m [] (fun _ => True)
    ∧ NoResult (.hint y op opnd) ⟨y, false⟩ [] (fun s => s.cur.st = .c)
    ∧ NoResult (.hintLong y op opnd x) ⟨y, false⟩ [] (fun s => s.cur.st = .c)
    ∧ NoResult (.babort m) m [] (fun s => AtU s ∧ (mine s).version = none ∧ (mine s).block = none)
    ∧ NoResult (.yield m) m [] (fun s => AtU s ∧ moveTarget s s.cur.core.val = none)

/-- R116, R246: PHASE at U on a member of a group is held, and on a core of no group raises PHASE. R249: a group whose members have
all arrived commits: ARRIVED becomes 0, GPHN grows by one, and each member's PHN is the new GPHN, its CONFCNT grown by CONFBYTES,
its data cache empty and its PHASE completed; a group that waits for a member does not. R247, R248: a member's store to a PHASED page goes to its pending copy and leaves memory as it is; the member reads it back
and every other core still reads the committed byte. -/
def Obligations.PhasesCommitTogether : Prop :=
  ((∀ (m : CM) (s : State), (mine s).canIssue m [] = true → AtU s →
    (groupOf s s.cur.core.val = none → exec (.phase m) s = .next (raise s s.cur.core.val .c ⟨.phase, 0, 0, 0⟩))
    ∧ (∀ g, groupOf s s.cur.core.val = some g → ∃ t l, exec (.phase m) s = .next t
        ∧ Held t (.phase l) ∧ (mine t).g = (mine s).g ∧ ∀ st, st ≠ .c → (mine t).stream st = (mine s).stream st))
  ∧ (∀ (g : Nat) (s : State), g < 256 → (vget s.phase g PhaseGroup.reset).members ≠ 0 →
    (vget s.phase g PhaseGroup.reset).arrived = (vget s.phase g PhaseGroup.reset).members →
    (∀ c, (vget s.phase g PhaseGroup.reset).members.getLsbD c = true → (coreAt s c).phaseArrived = true) →
    ∃ t, exec (.phaseCommit g) s = .next t
      ∧ (vget t.phase g PhaseGroup.reset).arrived = 0
      ∧ (vget t.phase g PhaseGroup.reset).gphn = (vget s.phase g PhaseGroup.reset).gphn + 1
      ∧ (∀ p ∈ t.pending, p.group ≠ g)
      ∧ ∀ c, c < 512 → (vget s.phase g PhaseGroup.reset).members.getLsbD c = true →
          (coreAt t c).sr.phn = (vget s.phase g PhaseGroup.reset).gphn + 1 ∧ (coreAt t c).dcache = []
          ∧ (coreAt t c).sr.confcnt = (coreAt s c).sr.confcnt + (vget t.phase g PhaseGroup.reset).confbytes
          ∧ ∀ l y loc n, (coreAt t c).block ≠ some ⟨.phase l, y, loc, n⟩)
  ∧ ∀ (g : Nat) (s : State), g < 256 → (∀ c, (vget s.phase g PhaseGroup.reset).members.getLsbD c = true →
      ∀ l, ∀ y n x, (coreAt s c).block ≠ some ⟨.phase l, y, n, x⟩) →
    (vget s.phase g PhaseGroup.reset).arrived ≠ (vget s.phase g PhaseGroup.reset).members →
    exec (.phaseCommit g) s = .next s)
  ∧ (∀ (s : State) (g c pa : Nat) (x : Byte), g < 256 → (vget s.phase g PhaseGroup.reset).members.getLsbD c = true →
    let t := pendBytes s g c pa [x]
    t.mem = s.mem ∧ phasedByte t (some c) g pa = x
    ∧ ∀ d, some c ≠ d → phasedByte t d g pa = phasedByte s d g pa)

/-- R117, R251: BOPEN waits for the master home's answer in flight; the cases decided at the core raise BUNDLE. The answer of a free
master home on this chip opens COMMITTED + 1, names the core as its opener, sets BOPENID and returns the version; a busy one
returns 2^63 and opens nothing. R118, R255: BSEAL closes the version to stores and waits in flight; it completes with 0 when the master home holds the version
as committed, and with 1 when it does not, and BOPENID is then 0. With no version open it raises BUNDLE. R119, R256: BABORT aborts the open
version: each of its lines holds its retained bytes again, its homes are IDLE and the master's OPENER clear, no store of it is left and
BOPENID is 0; a decided version stays, and while a store of it is on its way to another chip BABORT waits. -/
def Obligations.BundlesOpenAndSeal : Prop :=
  ((∀ (m : CM) (a b : BitVec 5) (s : State) (r : Region) (i : Nat) (e : BundleEntry), (mine s).canIssue m [a, b] = true →
    AtU s → regionOf s s.cur.core.val = some r → findBundle s r (((mine s).readG b).setWidth 24) = some (i, e) →
    entryOk s (r.btab + 1040 * i) e = true → pagesOk s s.cur.core.val i e = true → (mine s).version = none →
    ∃ t x, exec (.bopen m a b) s = .next t ∧ OnlyCore s t ∧ CtlFrame m (mine s) (mine t) ∧ (mine t).g = (mine s).g
      ∧ (mine t).inflight = (mine s).inflight ++ [x] ∧ x.dest = .g a ∧ x.fault = none
      ∧ x.wait = .bopen (((mine s).readG b).setWidth 24))
  ∧ (∀ (m : CM) (a b : BitVec 5) (s : State) (r : Region), (mine s).canIssue m [a, b] = true → AtU s → m.q = false →
    regionOf s s.cur.core.val = some r →
    (findBundle s r (((mine s).readG b).setWidth 24) = none ∨ (mine s).version.isSome = true) →
    exec (.bopen m a b) s = .next (raise s s.cur.core.val .c ⟨.bundle, 0, 0, 0⟩))
  ∧ ∀ (s : State) (x : InFlight) (a : BitVec 5) (bid : BitVec 24) (r : Region) (i : Nat) (e : BundleEntry), a ≠ 0 →
    (mine s).inflight = [x] → x.wait = .bopen bid → x.dest = .g a → regionOf s s.cur.core.val = some r →
    findBundle s r bid = some (i, e) → (e.segs.map (·.chip)).head? = some s.fabric.group.self →
    (mine s).raising = none → (mine s).version = none → (homeAt s bid 0).lost = false →
    ((homeAt s bid 0).opener = none → ∃ t, exec (.bopenAnswer .here) s = .next t
      ∧ (mine t).readG a = BitVec.ofNat 64 ((homeAt s bid 0).committed + 1).toNat
      ∧ (mine t).sr.bopenid = BitVec.ofNat 64 (2 ^ 63 + bid.toNat * 2 ^ 16 + ((homeAt s bid 0).committed + 1).toNat)
      ∧ (homeAt t bid 0).opener = some (s.fabric.group.self, BitVec.ofNat 9 s.cur.core.val)
      ∧ (mine t).version.isSome = true ∧ OtherG a (mine s) (mine t) ∧ t.mem = s.mem)
    ∧ ((homeAt s bid 0).opener.isSome = true → ∃ t, exec (.bopenAnswer .here) s = .next t
      ∧ (mine t).readG a = 0x8000000000000000 ∧ (mine t).version = (mine s).version
      ∧ (mine t).sr = (mine s).sr ∧ OtherG a (mine s) (mine t) ∧ t.mem = s.mem))
  ∧ ((∀ (m : CM) (a : BitVec 5) (s : State) (v : OpenVersion), (mine s).canIssue m [a] = true → AtU s →
    (mine s).version = some v → v.sealing = false →
    ∃ t x, exec (.bseal m a) s = .next t ∧ (mine t).inflight = (mine s).inflight ++ [x] ∧ x.dest = .g a ∧ x.wait = .bseal
      ∧ x.fault = none ∧ (mine t).g = (mine s).g ∧ (mine t).version = some { v with sealing := true })
  ∧ (∀ (m : CM) (a : BitVec 5) (s : State), (mine s).canIssue m [a] = true → AtU s → m.q = false → (mine s).version = none →
    exec (.bseal m a) s = .next (raise s s.cur.core.val .c ⟨.bundle, 0, 0, 0⟩))
  ∧ ∀ (s : State) (v : OpenVersion) (x : InFlight) (a : BitVec 5), a ≠ 0 → (mine s).version = some v → v.sealing = true →
    (homeAt s v.bid 0).opener = none → (mine s).inflight = [x] → x.wait = .bseal → x.dest = .g a → (mine s).raising = none →
    ∃ t, exec .bsealComplete s = .next t ∧ (mine t).sr.bopenid = 0 ∧ (mine t).version = none
      ∧ (mine t).readG a = (if (homeAt s v.bid 0).committed = v.version then 0 else 1) ∧ OtherG a (mine s) (mine t)
      ∧ t.mem = s.mem)
  ∧ ∀ (m : CM) (s : State) (v : OpenVersion), (mine s).canIssue m [] = true → AtU s → (mine s).version = some v →
    let out := ∃ r ∈ s.fabric.waiting ++ s.fabric.inFlight, r.core = s.cur.core.val ∧ r.tagged.isSome = true
    ((homeAt s v.bid 0).decided = false → ¬out → (∀ e ∈ (mine s).inflight, e.wait ≠ .bseal) → ∃ t, exec (.babort m) s = .next t
      ∧ (mine t).block = none ∧ (mine t).g = (mine s).g ∧ (mine t).version = none ∧ (mine t).sr.bopenid = 0
      ∧ (∀ h ∈ t.homes, h.bid = v.bid → h.state = .idle ∧ h.opener = none ∧ h.decided = false)
      ∧ (∀ b ∈ t.bstores, ¬(b.bid = v.bid ∧ b.version = v.version))
      ∧ ∀ line x, MemOk s → atVersion (tagAt s line) v.bid none v.version = true → kget s.retained line = some x →
          memRead t.mem (line * 128) 128 = lineBytes x ∧ kget t.retained line = none ∧ (tagAt t line).ver = (tagAt s line).rver)
    ∧ ((homeAt s v.bid 0).decided = true → ∃ t, exec (.babort m) s = .next t ∧ (mine t).block = none ∧ (mine t).version = some v
        ∧ t.homes = s.homes ∧ t.mem = s.mem)
    ∧ ((homeAt s v.bid 0).decided = false → out → ∃ t, exec (.babort m) s = .next t ∧ Held t .babort ∧ (mine t).version = some v
        ∧ takesStores (mine t) = none ∧ t.homes = s.homes ∧ t.mem = s.mem)

/-- R254 to R257: a bundled store that may land writes its bytes and its line's tag, keeps the line's former bytes as the retained
copy when the line held another version, and adds one to NLAND; until the home commits, a reader still sees the former byte. R255 steps 3 and 4: once the version is decided, a home commits it, becomes IDLE and keeps no retained copy of its lines; R256:
a home lost while the version is being sealed and not decided aborts it. -/
def Obligations.BundledStoresLandAndCommit : Prop :=
  (∀ (s : State) (b : BStore) (rest : List BStore), MemOk s → s.bstores = b :: rest → storeCanLand s b = true →
    b.pa / 128 = (b.pa + b.bytes.length - 1) / 128 → b.bytes ≠ [] → (homeAt s b.bid b.seg).state = .opened →
    (homeAt s b.bid 0).opener = none →
    let line := b.pa / 128
    let fresh := (if (tagAt s line).kind = 1 then (tagAt s line).ver else 0) ≠ b.version
    (∃ t, exec .bundledStoreLand s = .next t ∧ t.bstores = rest
      ∧ memRead t.mem b.pa b.bytes.length = b.bytes
      ∧ (∀ x, x < b.pa ∨ b.pa + b.bytes.length ≤ x → memGet t.mem x = memGet s.mem x)
      ∧ (tagAt t line).kind = 1 ∧ (tagAt t line).bid = b.bid ∧ (tagAt t line).ver = b.version
      ∧ (homeAt t b.bid b.seg).nland = (homeAt s b.bid b.seg).nland + 1
      ∧ (fresh → newer b.version (homeAt s b.bid b.seg).committed = true → (tagAt t line).seg.toNat = b.seg →
          bundledByte t b.pa = memGet s.mem b.pa))
    ∧ (fresh → ∃ t, exec .poolStoreResume s = .next t ∧ t.bstores = rest
      ∧ memRead t.mem b.pa b.bytes.length = b.bytes))
  ∧ ((∀ (s : State) (bid : BitVec 24) (seg : Nat) (v : BitVec 16), openVersionOf s bid = some v → (homeAt s bid 0).decided = true →
    (homeAt s bid seg).committed ≠ v → seg < segsOfBundle s bid → seg ≠ 0 →
    ∃ t, exec (.homeCommit bid seg) s = .next t ∧ (homeAt t bid seg).committed = v ∧ (homeAt t bid seg).state = .idle
      ∧ t.mem = s.mem ∧ ∀ line, atVersion (tagAt s line) bid (some seg) v = true → kget t.retained line = none)
  ∧ ∀ (s : State) (bid : BitVec 24) (seg : Nat) (v : BitVec 16), openVersionOf s bid = some v →
    (homeAt s bid 0).decided = false → (homeAt s bid 0).state = .sealing → (homeAt s bid 0).fmask.getLsbD seg = true →
    seg ≠ 0 →
    ∃ t, exec (.homeLost bid seg) s = .next t ∧ (homeAt t bid seg).lost = true ∧ (homeAt t bid 0).opener = none
      ∧ (homeAt t bid 0).state = .idle ∧ (homeAt t bid 0).committed = (homeAt s bid 0).committed)


namespace Sys2Proof.Claims

/-- Stage `i` of region `rid` is as `r` and `x` say. -/
def StageIs (s : State) (rid i : Nat) (r : Region) (x : StageState) : Prop :=
  regionAt s rid = some r ∧ r.rid = rid ∧ stageOf r i = some x

/-- A stage stands after a step with these counts. -/
def CountsAre (t : State) (rid i head tail : Nat) : Prop :=
  ∃ r x, StageIs t rid i r x ∧ x.head = head ∧ x.tail = tail

end Sys2Proof.Claims

/-- R128, R335, R346, R353: ITEM waits for its input, no later control instruction issuing; it returns the oldest queued record, which the core then holds, and 0 with the
core released when the input is closed and empty. R267: in a fused consumer it returns the producer's item. R130, R346: a YIELD, or an ITEM, of a core that the scheduler moves ends its operator's control stream and writes no register;
its next stage is the one named. -/
def Obligations.ItemsAreTakenInOrder : Prop :=
  ((∀ (s : State) (a : BitVec 5), Held s (.item a) → streamReady s s.cur.core.val .c = false)
  ∧ (∀ (m : CM) (a : BitVec 5),
    HeldAs (.item m a) m [a] (fun s => AtU s ∧ onConsumer (mine s) = false ∧ moveTarget s s.cur.core.val = none) fun _ => .item a)
  ∧ (∀ (m : CM) (a : BitVec 5) (s : State), (mine s).canIssue m [a] = true → AtU s → onConsumer (mine s) = true → a ≠ 0 →
    ∃ t o, exec (.item m a) s = .next t ∧ OnlyCore s t ∧ CtlFrame m (mine s) (mine t) ∧ OtherG a (mine s) (mine t)
      ∧ (mine s).op = some o ∧ (mine t).readG a = o.producerItem.getD 0)
  ∧ (∀ (s : State) (a : BitVec 5) (rid i : Nat) (r : Region) (x : StageState), a ≠ 0 → Held s (.item a) →
    (mine s).stage = some (rid, i) → StageIs s rid i r x → x.head < x.tail →
    ∃ t, exec .itemReturn s = .next t ∧ (mine t).block = none ∧ OtherG a (mine s) (mine t)
      ∧ (mine t).readG a = physDword s (stageQbase s r i + 16 * (x.head % stageQcap s r i))
      ∧ CountsAre t rid i (x.head + 1) x.tail
      ∧ ∀ o, (mine s).op = some o → ∃ o', (mine t).op = some o' ∧ o'.item = some ((mine t).readG a) ∧ o'.stolen = false)
  ∧ (∀ (s : State) (a : BitVec 5) (rid i : Nat) (r : Region) (x : StageState), a ≠ 0 → Held s (.item a) →
    (mine s).stage = some (rid, i) → StageIs s rid i r x → x.head = x.tail →
    (x.stolen = [] → x.closed = false → exec .itemReturn s = .next s)
    ∧ (x.stolen = [] → x.closed = true → ∃ t, exec .itemReturn s = .next t ∧ (mine t).block = none
        ∧ (mine t).readG a = 0 ∧ OtherG a (mine s) (mine t) ∧ (mine t).stage = none)
    ∧ (∀ chip item rest, x.stolen = (chip, item) :: rest → ∃ t, exec .itemReturn s = .next t ∧ (mine t).block = none
        ∧ (mine t).readG a = item ∧ CountsAre t rid i x.head x.tail)))
  ∧ (∀ (m : CM) (a : BitVec 5) (s : State) (goal : Nat × Nat), AtU s → moveTarget s s.cur.core.val = some goal →
    let held := ((mine s).stream .c).held ++ (if m.sync.push then [.push m.sync.pdst] else [])
    ((mine s).canIssue m [] = true → ∃ t, exec (.yield m) s = .next t ∧ OnlyCore s t ∧ ChainEnds t ((mine s).stream .c).run held
      ∧ (mine t).moveTo = some goal ∧ (mine t).g = (mine s).g ∧ ∀ st, st ≠ .c → (mine t).stream st = (mine s).stream st)
    ∧ ((mine s).canIssue m [a] = true → onConsumer (mine s) = false → ∃ t, exec (.item m a) s = .next t ∧ OnlyCore s t
      ∧ ChainEnds t ((mine s).stream .c).run held ∧ (mine t).moveTo = some goal ∧ (mine t).g = (mine s).g
      ∧ ∀ st, st ≠ .c → (mine t).stream st = (mine s).stream st))

/-- R129, R336, R353, R267: EMIT waits at its output, no later control instruction issuing; it is accepted with 0 and the entry is queued behind the others when the next
stage's input, or the completion queue, has room, and waits while it has none. The
door of a chained region refuses it with 1, the item not handed on, or admits it. A stolen item is carried back to its chip; the EMIT
completes with 0 when that insertion is acknowledged, and raises PEER when the chip has left the group before. A fused producer emits
exactly what its last ITEM returned. -/
def Obligations.EmitsHandTheItemOn : Prop :=
  (∀ (s : State) (a : BitVec 5) (item : Dword), Held s (.emit a item) → streamReady s s.cur.core.val .c = false)
  ∧ (∀ (s s1 : State) (a : BitVec 5) (item : Dword) (o : Operator) (i pa : Nat) (r q : Region) (x : StageState),
    Held s (.emit a item) → (mine s).op = some o → o.stage = some i → StageIs s o.rid i r x → x.fusedNext = false →
    i + 1 = r.nstage → r.chained = true → regionAt s r.nextr = some q → itemRecord q item s = .ok pa s1 →
    let cost := regionCost s1 q
    (doorOpen cost.2 q cost.1 = false → ∃ t, exec .emitAccept s = .next t ∧ (mine t).block = none ∧ (a ≠ 0 → (mine t).readG a = 1)
      ∧ OtherG a (mine s) (mine t) ∧ (mine t).op = some o ∧ t.regions = s.regions ∧ t.mem = s.mem)
    ∧ (doorOpen cost.2 q cost.1 = true → ∃ t o', exec .emitAccept s = .next t ∧ (mine t).block = none ∧ (mine t).readG a = 0
      ∧ OtherG a (mine s) (mine t) ∧ (mine t).op = some o' ∧ o'.item = none))
  ∧ (∀ (m : CM) (a b : BitVec 5),
    HeldAs (.emit m a b) m [a, b]
      (fun s => AtU s ∧ onProducer (mine s) = false ∧ ∀ o, (mine s).op = some o → o.stolen = false)
      (fun s => .emit a ((mine s).readG b))
    ∧ ∀ (s : State) (o : Operator), (mine s).canIssue m [a, b] = true → AtU s → onProducer (mine s) = false →
      (mine s).op = some o → o.stolen = true →
      ∃ t o', exec (.emit m a b) s = .next t ∧ Held t (.emitStolen a ((mine s).readG b)) ∧ (mine t).g = (mine s).g
        ∧ (mine t).op = some o' ∧ o'.item = o.item ∧ o'.stolen = true
        ∧ o'.back = (if o.back = .no then .asked else o.back) ∧ ∀ c, c ≠ s.cur.core.val → coreAt t c = coreAt s c)
  ∧ (∀ (m : CM) (a b : BitVec 5) (s : State) (o : Operator), (mine s).canIssue m [a, b] = true → AtU s →
    onProducer (mine s) = true → (mine s).op = some o →
    (o.producerItem = some ((mine s).readG b) → ∃ t, exec (.emit m a b) s = .next t ∧ OnlyCore s t
      ∧ CtlFrame m (mine s) (mine t) ∧ (mine t).readG a = 0 ∧ OtherG a (mine s) (mine t))
    ∧ (o.producerItem ≠ some ((mine s).readG b) →
      exec (.emit m a b) s = .next (raise s s.cur.core.val .c ⟨.splice, 0, 0, 0⟩)))
  ∧ (∀ (s : State) (a : BitVec 5) (item : Dword) (o : Operator) (i : Nat) (r : Region) (x y : StageState),
    Held s (.emit a item) → (mine s).op = some o → o.stage = some i → StageIs s o.rid i r x → x.fusedNext = false →
    i + 1 < r.nstage → stageOf r (i + 1) = some y → y.head ≤ y.tail →
    (y.tail - y.head < stageQcap s r (i + 1) → ∃ t, exec .emitAccept s = .next t ∧ (mine t).block = none
      ∧ (mine t).readG a = 0 ∧ OtherG a (mine s) (mine t) ∧ CountsAre t o.rid (i + 1) y.head (y.tail + 1)
      ∧ ∃ o', (mine t).op = some o' ∧ o'.item = none)
    ∧ (stageQcap s r (i + 1) ≤ y.tail - y.head → exec .emitAccept s = .next s))
  ∧ (∀ (s : State) (a : BitVec 5) (item : Dword) (o : Operator) (i : Nat) (r : Region) (x : StageState),
    Held s (.emit a item) → (mine s).op = some o → o.stage = some i → StageIs s o.rid i r x → x.fusedNext = false →
    i + 1 = r.nstage → r.chained = false →
    (r.cqTail - r.cqHead < r.cqcap → ∃ t r', exec .emitAccept s = .next t ∧ (mine t).block = none ∧ (mine t).readG a = 0
      ∧ OtherG a (mine s) (mine t) ∧ regionAt t o.rid = some r' ∧ r'.cqTail = r.cqTail + 1 ∧ r'.items = r.items - 1)
    ∧ (r.cqcap ≤ r.cqTail - r.cqHead → exec .emitAccept s = .next s))
  ∧ ∀ (s : State) (a : BitVec 5) (rec : Dword) (o : Operator) (item : Dword), Held s (.emitStolen a rec) →
    (mine s).op = some o → o.item = some item →
    (o.back = .done → ∃ t, exec .emitAccept s = .next t ∧ (mine t).block = none
      ∧ (mine t).readG a = 0 ∧ OtherG a (mine s) (mine t) ∧ MemKept s t)
    ∧ (o.back ≠ .done → inGroup s (BitVec.ofNat 12 o.ownerChip) = true → exec .emitAccept s = .next s)
    ∧ (o.back ≠ .done → inGroup s (BitVec.ofNat 12 o.ownerChip) = false →
      exec .emitAccept s = .next (raise s s.cur.core.val .c ⟨.peer, 0, item, 0⟩))

namespace Sys2Proof.Claims

/-- The 2-bit field of VBANK for a bank (R37). -/
def bankField (v : BitVec 8) (i : Nat) : BitVec 2 := v.extractLsb' (2 * i) 2

/-- The eight registers of a bank are zero and INVALID, or as they were. -/
def BankCleared (k' : Core) (i : Nat) : Prop := ∀ j, j < 8 → vget k'.v (8 * i + j) Seg.zero = Seg.zero
def BankKept (k k' : Core) (i : Nat) : Prop := ∀ j, j < 8 → vget k'.v (8 * i + j) Seg.zero = vget k.v (8 * i + j) Seg.zero

end Sys2Proof.Claims

/-- R37: an MTS to VBANK at S, with no vector instruction issued and no bank on its way out of ON, takes each bank to its new state and completes: 0b11 changes nothing,
a bank taken to or from GATED is cleared, the others keep their contents; a wake takes 96 cycles and an exit from GATED 256. An
issued vector instruction that names a bank taken out of ON holds the MTS until BANK_ENTER_RETAIN finds the bank unnamed. -/
def Obligations.VectorBanksChangePower : Prop :=
  (∀ (m : CM) (a : BitVec 5) (s : State), (mine s).canIssue m [a] = true → (mine s).sr.mode ≠ 0 →
    ((mine s).stream .v).op = .none → (∀ i, i < 4 → isLeaving (bankMove (mine s) i) = false) →
    ∃ t, exec (.mts m a 0x10) s = .next t ∧ OnlyCore s t ∧ (mine t).g = (mine s).g ∧ (mine t).block = none
      ∧ ∀ i, i < 4 →
        let x := ((mine s).readG a).extractLsb' (2 * i) 2
        let old := bankField (mine s).sr.vbank i
        bankField (mine t).sr.vbank i = (if x = 3 then old else x)
        ∧ (x = 3 ∨ x = old → BankKept (mine s) (mine t) i ∧ bankMove (mine t) i = bankMove (mine s) i)
        ∧ (x ≠ 3 → x ≠ old → (x = 2 ∨ 2 ≤ old.toNat → BankCleared (mine t) i)
            ∧ (x ≠ 2 → old.toNat < 2 → BankKept (mine s) (mine t) i)
            ∧ (old = 1 → x = 0 → bankMove (mine t) i = .waking 96)
            ∧ (2 ≤ old.toNat → ∃ b, bankMove (mine t) i = .ungating 256 b)))
  ∧ (∀ (m : CM) (a : BitVec 5) (s : State) (i : Nat), (mine s).canIssue m [a] = true → (mine s).sr.mode ≠ 0 → i < 4 →
    bankNamed (mine s) i = true → bankField (mine s).sr.vbank i = 0 →
    (∀ j, j < 4 → j ≠ i → ((mine s).readG a).extractLsb' (2 * j) 2 = 3
      ∨ ((mine s).readG a).extractLsb' (2 * j) 2 = bankField (mine s).sr.vbank j) →
    (((mine s).readG a).extractLsb' (2 * i) 2 = 1 ∨ ((mine s).readG a).extractLsb' (2 * i) 2 = 2) →
    ∃ t, exec (.mts m a 0x10) s = .next t ∧ Held t .vbank ∧ bankField (mine t).sr.vbank i = 0 ∧ (mine t).g = (mine s).g)
  ∧ (∀ (s : State) (i : Nat) (gated : Bool), i < 4 → bankMove (mine s) i = .leaving gated → bankNamed (mine s) i = false →
    (∀ j, j < 4 → j ≠ i → isLeaving (bankMove (mine s) j) = false) → Held s .vbank →
    ∃ t, exec (.bankEnterRetain i) s = .next t ∧ OnlyCore s t ∧ bankField (mine t).sr.vbank i = (if gated then 2 else 1)
      ∧ (mine t).block = none ∧ (mine t).g = (mine s).g ∧ (if gated then BankCleared (mine t) i else BankKept (mine s) (mine t) i))
  ∧ ∀ (s : State) (i n : Nat) (b : Bool), i < 4 →
    (bankMove (mine s) i = .waking 0 → ∃ t, exec (.bankWakeDone i) s = .next t ∧ OnlyCore s t
      ∧ bankField (mine t).sr.vbank i = 0 ∧ bankMove (mine t) i = .none ∧ (mine t).v = (mine s).v)
    ∧ (bankMove (mine s) i = .ungating 0 b → ∃ t, exec (.bankGatedExit i) s = .next t ∧ OnlyCore s t
      ∧ (mine t).sr = (mine s).sr ∧ bankMove (mine t) i = .none ∧ (mine t).v = (mine s).v)
    ∧ (bankMove (mine s) i = .waking (n + 1) → ∃ t, exec (.bankWakeDone i) s = .next t ∧ mine t = mine s)
    ∧ (bankMove (mine s) i = .ungating (n + 1) b → ∃ t, exec (.bankGatedExit i) s = .next t ∧ mine t = mine s)

/-- R134, R371, R340, R347: an operator whose streams are at rest retires, its open version gone and a pending pre-emption answered;
one that is not at rest does not. R340, R35: a launch in the bank of a core without an operator starts at CENTRY with its arguments
in g1 to g4, the bank then being empty; registers are kept within an ASID and cleared between two. -/
def Obligations.OperatorsRetireAndStart : Prop :=
  (∀ s : State, (canRetire (mine s) = true → ∃ t, exec .operatorRetire s = .next t ∧ (mine t).op = none
      ∧ (mine t).version = none ∧ (mine t).sr.pend = false ∧ (mine t).preempt = .none ∧ (mine t).g = (mine s).g
      ∧ (mine t).streams = (mine s).streams)
    ∧ (canRetire (mine s) = false → exec .operatorRetire s = .next s))
  ∧ ∀ (s : State) (l : Launch), (mine s).op = none → (mine s).stopped = false → (mine s).saved = [] →
    (mine s).shadow = some l →
    ∃ t o, exec .launchBankSwapIn s = .next t ∧ (mine t).shadow = none ∧ (mine t).op = some o ∧ o.base = l.base
      ∧ o.rid = l.rid ∧ o.stage = l.stage ∧ o.fused = l.fused ∧ (mine t).sr.verify = l.verify ∧ (mine t).sr.mode = 0
      ∧ (mine t).sr.asid = l.asid ∧ ((mine t).stream .c).run = .run ∧ ((mine t).stream .c).next = .at l.centry
      ∧ (∀ st, ((mine t).stream st).seq = 0 ∧ ((mine t).stream st).steer = [])
      ∧ (∀ st, st ≠ .c → ((mine t).stream st).run = (if ((mine s).stream st).run = .ended then .idle else ((mine s).stream st).run))
      ∧ (∀ a0 a1 a2 a3, l.args = [a0, a1, a2, a3] → (mine t).readG 1 = a0 ∧ (mine t).readG 2 = a1 ∧ (mine t).readG 3 = a2
          ∧ (mine t).readG 4 = a3)
      ∧ (l.asid = (mine s).sr.asid → (l.args = [] → (mine t).g = (mine s).g)
          ∧ (∀ r : BitVec 5, 4 < r.toNat → (mine t).readG r = (mine s).readG r)
          ∧ (mine t).v = (mine s).v ∧ (mine t).z = (mine s).z ∧ (mine t).d = (mine s).d)
      ∧ (l.asid ≠ (mine s).sr.asid → (∀ r : BitVec 5, 4 < r.toNat → (mine t).readG r = 0)
          ∧ (mine t).v = .replicate 32 Seg.zero ∧ (mine t).z = .replicate 2 Tile.zero ∧ (mine t).d = .replicate 16 0
          ∧ (mine t).cc = .replicate 8 0 ∧ (mine t).fifo = .replicate 20 0)

/-- R347, R375, R372, R376, R377: an allowed order sets STAT.PEND; a request at U begins the drain, one at S stays pending, and one
that finds the operator ended is answered so; once all has drained the context is saved, its general registers at the record's
offset 512, and the core keeps no operator; the context is resumed from that record. -/
def Obligations.PreemptionSavesTheContext : Prop :=
  (∀ (s : State) (c rid area : Nat) (reason : PreemptReason) (v r : Region), c < 512 → regionOf s c = some v →
    regionAt s rid = some r → (coreAt s c).preempt = .none → (coreAt s c).stopped = false →
    (areaOk s c area = true → areaBudget s v = true → mayPreempt s c v r reason = true → ∃ t, exec (.gheahPreemptOrder c rid reason area) s = .next t
      ∧ (coreAt t c).preempt = .pending area ∧ (coreAt t c).sr.pend = true ∧ (coreAt t c).g = (coreAt s c).g
      ∧ ∀ d, d ≠ c → coreAt t d = coreAt s d)
    ∧ (mayPreempt s c v r reason = false → exec (.gheahPreemptOrder c rid reason area) s = .next s))
  ∧ (∀ (s : State) (area : Nat), (mine s).preempt = .pending area →
    ((mine s).sr.mode ≠ 0 → exec .preemptRequest s = .next s)
    ∧ (AtU s → (mine s).raising = none → (mine s).stopped = false → (((mine s).stream .c).run = .ended ∨ (mine s).op = none) →
      ∃ t, exec .preemptRequest s = .next t ∧ OnlyCore s t ∧ (mine t).preempt = .ended ∧ (mine t).sr.pend = false)
    ∧ (AtU s → (mine s).raising = none → (mine s).stopped = false → ((mine s).stream .c).run ≠ .ended → (mine s).op.isSome = true →
      ∃ t, exec .preemptRequest s = .next t ∧ (mine t).preempt = .draining area ∧ (mine t).g = (mine s).g
        ∧ ((mine s).phaseArrived = false → (mine t).sr = (mine s).sr) ∧ ∀ st, streamReady t t.cur.core.val st = false))
  ∧ (∀ (s : State) (area : Nat) (o : Operator), (mine s).preempt = .draining area → (mine s).op = some o →
    MemOk s → (mine s).drained = true → (∀ x ∈ s.fabric.waiting ++ s.fabric.inFlight, x.core ≠ s.cur.core.val) → (mine s).stage = none →
    ∃ t x, exec .contextSave s = .next t ∧ (mine t).preempt = .none ∧ (mine t).sr.pend = false ∧ (mine t).op = none
      ∧ (mine t).saved = x :: (mine s).saved ∧ x.area = area ∧ x.op = o ∧ (∀ st, ((mine t).stream st).run = .idle)
      ∧ ∀ r : BitVec 5, memRead t.mem (area + 512 + 8 * r.toNat) 8 = leBytes 8 ((mine s).readG r).toNat)
  ∧ (∀ (s : State) (area : Nat), (mine s).preempt = .draining area → (mine s).drained = false → exec .contextSave s = .next s)
  ∧ ∀ (s : State) (x : SavedOp), (mine s).op = none → (mine s).stopped = false → (mine s).saved = [x] → (mine s).shadow = none →
    mayResume s x = true → contextFlaw s x.area = none →
    ∃ t, exec .launchBankSwapIn s = .next t ∧ (mine t).op = some x.op ∧ (mine t).saved = [] ∧ (mine t).sr.asid = x.asid
      ∧ (mine t).sr.verify = x.verify ∧ (mine t).version = x.version
      ∧ ∀ r : BitVec 5, r ≠ 0 → (mine t).readG r = leDword (memRead s.mem (x.area + 512 + 8 * r.toNat) 8)

/-- R374: a machine check at a core that runs an operator stops the core; R422: scrubbing marks an uncorrectable granule; R261: a store
to a REPLICATED line locks its replicas in ascending order, then writes and unlocks each; R360: a host write through BAR2 lands in
the memory that the window has been placed on. -/
def Obligations.ModuleStoresAndChecks : Prop :=
  (∀ (s : State) (kind : McheckKind) (pa : Nat),
    ((mine s).op.isSome = true → (mine s).stopped = false → ∃ t, exec (.machineCheck kind pa) s = .next t
      ∧ (mine t).stopped = true ∧ (mine t).sr.pend = false ∧ (mine t).g = (mine s).g
      ∧ ((mine s).phaseArrived = false → ∀ c, c ≠ s.cur.core.val → coreAt t c = coreAt s c))
    ∧ ((mine s).op = none → exec (.machineCheck kind pa) s = .next s))
  ∧ (∀ (s : State) (pa : Nat), holdsAt pa ≠ .nothing →
    exec (.scrub pa .clean) s = .next s
    ∧ (∃ t, exec (.scrub pa .uncorrectable) s = .next t ∧ flawed t pa = true ∧ t.cores = s.cores ∧ t.mem = s.mem)
    ∧ ∃ t, exec (.scrub pa .corrected) s = .next t ∧ t.bad = s.bad ∧ t.cores = s.cores ∧ t.mem = s.mem)
  ∧ (∀ (s : State) (w : RStore), MemOk s → s.rstores = [w] →
    (w.locked < (replicaEntry s w.entry).nrep → ∃ t, exec .replicaLock s = .next t
      ∧ t.rstores = [{ w with locked := w.locked + 1 }] ∧ t.mem = s.mem)
    ∧ ((replicaEntry s w.entry).nrep ≤ w.locked → w.written < (replicaEntry s w.entry).nrep →
      let pa := replicaAddr (replicaEntry s w.entry) w.pa w.written
      ∃ t, exec .replicaLock s = .next t ∧ t.rstores = [{ w with written := w.written + 1 }]
        ∧ memRead t.mem pa w.bytes.length = w.bytes
        ∧ ∀ a, a < pa ∨ pa + w.bytes.length ≤ a → memGet t.mem a = memGet s.mem a)
    ∧ ((replicaEntry s w.entry).nrep ≤ w.locked → (replicaEntry s w.entry).nrep ≤ w.written →
      ∃ t, exec .replicaLock s = .next t ∧ t.rstores = [] ∧ t.mem = s.mem))
  ∧ ∀ (s : State) (off : Nat) (bytes : List (BitVec 8)), MemOk s → off + bytes.length ≤ 2 ^ 36 →
    (∀ i, i < bytes.length → usable (s.fleet.bar2 + off + i) = true) →
    let pa := s.fleet.bar2 + off
    ∃ t, exec (.hostBar2Write off bytes) s = .next t ∧ memRead t.mem pa bytes.length = bytes ∧ t.cores = s.cores
      ∧ ∀ a, a < pa ∨ pa + bytes.length ≤ a → memGet t.mem a = memGet s.mem a
namespace Sys2Proof.Claims

/-! Engine streams: issue, and instructions that do their work at issue (R21, R27, R31). -/

/-- What the issue of an instruction of engine stream `st` leaves of its core: everything but the streams, the tokens and the
completion counters; the other streams stay as they are, and only the popped token is gone. -/
def EngFrame (st : StreamId) (y : Sync) (k k' : Core) : Prop :=
  k' = { k with streams := k'.streams, fifo := k'.fifo, cc := k'.cc }
    ∧ (∀ u, u ≠ st → k'.stream u = k.stream u)
    ∧ ∀ f, f < 20 → k'.tokens f = k.tokens f - if y.pop ∧ f = popFifo st y then 1 else 0

/-- An engine instruction whose token and counter are ready issues as the operation `op`: the stream moves past it with MPC 0,
its counter goes up by one, and nothing else changes. -/
def IssuesAs (i : Instr) (st : StreamId) (y : Sync) (cc : Option (BitVec 3)) (ok : State → Prop) (op : State → EngineOp) :
    Prop :=
  ∀ s : State, (mine s).popReady st y = true → (mine s).ccRoom cc = true → ok s →
    ∃ t, exec i s = .next t ∧ OnlyCore s t ∧ EngFrame st y (mine s) (mine t) ∧ (mine t).cc = ((mine s).ccUp cc).cc
      ∧ (mine t).stream st = { ((mine s).stream st).step s.cur.len with op := op s, mpc := 0 }

/-- A stream after an instruction that retired at issue: it stands past it with its push held behind the others, and it may
have come to its end (R19, R21). -/
def RetiredAt (y : Sync) (len : Nat) (x x' : Stream) : Prop :=
  x' = { x.step len with held := x.held ++ (if y.push then [.push y.pdst] else []), run := x'.run }
    ∧ (x'.run = x.run ∨ (x'.run = .ended ∧ x'.line = none ∧ x'.next = .none ∧ x'.held = []))

/-- An engine instruction that is done at issue changes its core as `f` does, and takes its token, sequence number and
push. -/
def DoneAtIssue (i : Instr) (st : StreamId) (y : Sync) (ok : State → Prop) (f : State → Core → Core) : Prop :=
  ∀ s : State, (mine s).popReady st y = true → ok s →
    ∃ t, exec i s = .next t ∧ OnlyCore s t
      ∧ mine t = { f s (mine s) with streams := (mine t).streams, fifo := (mine t).fifo }
      ∧ (∀ u, u ≠ st → (mine t).stream u = (mine s).stream u) ∧ RetiredAt y s.cur.len ((mine s).stream st) ((mine t).stream st)
      ∧ ∀ g, g < 20 → (mine t).tokens g = (mine s).tokens g - if y.pop ∧ g = popFifo st y then 1 else 0

/-- An engine instruction that has completed counts its counter down and makes its push, behind what the stream's earlier retirements
have still to do (R21, R25). -/
def Finished (st : StreamId) (y : Sync) (cc : Option (BitVec 3)) (k k' : Core) : Prop :=
  let own : List Retiring := if y.push then [.push y.pdst] else []
  if (k.stream st).held = [] then k'.cc = (k.ccDown cc).cc ∧ (k'.stream st).held = own
  else k'.cc = k.cc ∧ (k'.stream st).held = (k.stream st).held ++ (match cc with
    | none => []
    | some n => [.done n]) ++ own

/-- A bank is ON (R36, R37). -/
def BankOn (k : Core) (r : Nat) : Prop := bankMove k (r / 8) = .none ∧ bankState k (r / 8) = 0

/-- The banks of the v registers that the operand fields name are ON, as issue asks (R36). -/
def NamedOn (k : Core) (o : VecOp) : Prop :=
  o.count ≠ 0 → (o.kind.usesA = true → o.a.toNat < 32 → BankOn k o.a.toNat) ∧ (o.kind.usesB = true → o.b.toNat < 32 → BankOn k o.b.toNat)
    ∧ (o.kind.usesC = true → o.c.toNat < 32 → BankOn k o.c.toNat) ∧ (o.dv = true → BankOn k o.d.toNat)

/-- A vector instruction issues as the operation `op`, once its token and counter are ready, its banks are ON and `ok` holds. -/
def VectorIssues (i : Instr) (y : Sync) (cc : Option (BitVec 3)) (ok : State → Prop) (op : State → VecOp) : Prop :=
  IssuesAs i .v y cc (fun s => NamedOn (mine s) (op s) ∧ ok s) fun s => .vec (op s)

/-- The fields of a one-word and of a two-word vector instruction as the operation holds them (R139). -/
def v1Op (kind : VKind) (f : V1F) (y : Sync) (s : State) : VecOp :=
  { VecOp.blank (mine s) y with kind := kind, a := f.a, b := f.b, rnd := f.rnd }
def v2Op (kind : VKind) (f : V2F) (y : Sync) (s : State) : VecOp :=
  { VecOp.blank (mine s) y with
    kind := kind, a := f.a, b := f.b, c := f.c, rnd := f.rnd, count := f.count.toNat, d := f.d, dv := f.dv
    dadv := f.dadv, aadv := f.aadv, badv := f.badv, cadv := f.cadv }

/-- VRED's and VSCAN's operation by SUB (R167). -/
def subOp (x : BitVec 2) : RedOp := if x = 0 then .sum else if x = 1 then .min else .max

end Sys2Proof.Claims

/-- R138, R139, R142, R36, R156 to R172: every vector instruction that works on segments issues, once its token is there and the banks of
the registers it names are ON, with its fields as the words give them: V1 with COUNT 1 and C h0, V2 with its count, destination and advances. Nothing but the
stream and the token changes. R135: a hint of an engine stream is done at issue and changes nothing. -/
def Obligations.VectorInstructionsIssue : Prop :=
  (∀ (y : Sync) (f : V1F), ∀ p ∈ [(Instr.vmov y f, VKind.move), (.vadd y f, .bin .add), (.vsub y f, .bin .sub),
      (.vmul y f, .bin .mul), (.vfma y f, .fma), (.vmin y f, .bin .min), (.vmax y f, .bin .max), (.vabs y f, .abs),
      (.vneg y f, .neg), (.vand y f, .bin .band), (.vor y f, .bin .bor), (.vxor y f, .bin .bxor), (.vshl y f, .bin .shl),
      (.vshr y f, .bin .shr), (.vsra y f, .bin .sra), (.vcmp y f, .cmp (f.rnd ++ f.sub)), (.vsel y f, .sel),
      (.vrcp y f, .fn .rcp), (.vrsq y f, .fn .rsq), (.vexp2 y f, .fn .exp2), (.vlog2 y f, .fn .log2),
      (.vred y f, .red (subOp f.sub)), (.vscan y f, .scan (subOp f.sub)), (.viota y f, .iota), (.vshuf y f, .shuf)],
    VectorIssues p.1 y none (fun _ => True) (v1Op p.2 f y))
  ∧ (∀ (y : Sync) (f : V2F), ∀ p ∈ [(Instr.vmovV2 y f, VKind.move), (.vaddV2 y f, .bin .add), (.vsubV2 y f, .bin .sub),
      (.vmulV2 y f, .bin .mul), (.vfmaV2 y f, .fma), (.vminV2 y f, .bin .min), (.vmaxV2 y f, .bin .max), (.vabsV2 y f, .abs),
      (.vnegV2 y f, .neg), (.vandV2 y f, .bin .band), (.vorV2 y f, .bin .bor), (.vxorV2 y f, .bin .bxor),
      (.vshlV2 y f, .bin .shl), (.vshrV2 y f, .bin .shr), (.vsraV2 y f, .bin .sra), (.vcmpV2 y f, .cmp (f.rnd ++ f.sub)),
      (.vselV2 y f, .sel), (.vclmp y f, .clamp), (.vrcpV2 y f, .fn .rcp), (.vrsqV2 y f, .fn .rsq), (.vexp2V2 y f, .fn .exp2),
      (.vlog2V2 y f, .fn .log2), (.vredV2 y f, .red (subOp f.sub)), (.vscanV2 y f, .scan (subOp f.sub)), (.vpart y f, .part),
      (.vshufV2 y f, .shuf), (.vpack y f, .pack), (.vunpk y f, .unpk)],
    VectorIssues p.1 y none (fun _ => True) (v2Op p.2 f y))
  ∧ (∀ (y : Sync) (f : VsplatF), VectorIssues (.vsplat y f) y none (fun _ => True) fun s =>
      { VecOp.blank (mine s) y with kind := .splat (Tag.ofCode f.tag.toNat) f.imm, d := f.d, dv := f.dv })
  ∧ (∀ (y : Sync) (f : Vcvt1F), VectorIssues (.vcvt y f) y none (fun _ => True) fun s =>
      { VecOp.blank (mine s) y with kind := .cvt (Tag.ofCode f.t.toNat) f.s false, a := f.a })
  ∧ (∀ (y : Sync) (f : Vcvt2F), VectorIssues (.vcvtV2 y f) y none (fun _ => True) fun s =>
      { VecOp.blank (mine s) y with
        kind := .cvt (Tag.ofCode f.t.toNat) f.s f.sat, a := f.a, rnd := f.rnd, count := f.count.toNat, d := f.d, dv := f.dv
        dadv := f.dadv, aadv := f.aadv })
  ∧ (∀ (y : Sync) (f : VqntF), VectorIssues (.vqnt y f) y none (fun _ => True) fun s =>
      { VecOp.blank (mine s) y with
        kind := .qnt (Tag.ofCode f.t.toNat), a := f.a, b := f.b, rnd := f.rnd, count := f.count.toNat, d := f.d, dv := f.dv
        dadv := f.dadv, aadv := f.aadv, badv := f.badv })
  ∧ ∀ (y : Sync) (op : BitVec 4) (x : BitVec 16) (w : HintExt) (st : StreamId), st ≠ .c →
      DoneAtIssue (.hint y op x) st y (fun s => s.cur.st = st) (fun _ k => k)
      ∧ DoneAtIssue (.hintLong y op x w) st y (fun s => s.cur.st = st) (fun _ k => k)

namespace Sys2Proof.Claims

/-! Descriptors and rings at issue (R27, R149, R150, R153). -/

/-- A descriptor that an issuing instruction accepts, not on another chip (R27, R294). -/
def DescOk (d : BitVec 256) : Prop := (tileD d).ok = true ∧ isWindow (tileD d).base = false

/-- Word 3 of R149 lets the instruction issue: its handle is valid, WAIT is at most NSLOT, and WAIT slots are filled, or free
for a writer (R24, R153). -/
def RingReady (s : State) (x : LongF) (free : Bool) : Prop :=
  x.cben = true →
    let c := cbAt s s.cur.core.val x.cbh
    c.valid = true ∧ x.wait.toNat ≤ c.nslot.toNat
      ∧ (if free then (x.wait.toNat : Int) ≤ c.nslot.toNat - (c.head - c.tail).toNat else x.wait.toNat ≤ (c.head - c.tail).toNat)

/-- The ring that word 3 gives the instruction, starting at TAIL, or at HEAD for a writer. -/
def ringOf (s : State) (x : LongF) (free : Bool) : Option RingRef :=
  let c := cbAt s s.cur.core.val x.cbh
  if x.cben then some ⟨x.cbh, c.base, c.slotsz, c.nslot, if free then c.head else c.tail, x.wait⟩ else none

/-- The counter that CCEN and CCN name. -/
def ccOf (en : Bool) (n : BitVec 3) : Option (BitVec 3) := if en then some n else none

/-- The bytes of the first and the last of `count` units of `n` bytes lie in the slots awaited (R150). -/
def SpanOk (ring : Option RingRef) (p : Dword) (step : BitVec 32) (count n : Nat) : Prop :=
  ∀ r, ring = some r → count ≠ 0 →
    let last := p.toInt + (count - 1 : Nat) * step.toInt
    0 ≤ p.toInt ∧ p.toInt + n ≤ r.wait.toNat * r.slotsz.toNat ∧ 0 ≤ last ∧ last + n ≤ r.wait.toNat * r.slotsz.toNat

/-- What a VRD accepts (R150): a dense tile within its slots, or a compressed one whose blocks exist. -/
def VrdOk (d : BitVec 256) (ring : Option RingRef) (p : Dword) (step : BitVec 32) (count : Nat) : Prop :=
  let t := tileD d
  DescOk d ∧ ((t.kind = 0 ∧ SpanOk ring p step count 256)
    ∨ ((t.kind = 1 ∨ t.kind = 3 ∨ t.kind = 4) ∧ kindAccepts t.kind t.tag = true ∧ t.tag ≠ .qn4 ∧ ring = none
        ∧ (count = 0 ∨ p.toNat + count ≤ t.nblk)))

/-- The read run that a VRD puts behind its queue's runs, its counter up by one (R148). -/
def withRun (f : VrdF) (step : BitVec 32) (ring : State → Option RingRef) (cc : Option (BitVec 3)) (s : State) (k : Core) :
    Core :=
  let run : ReadRun := { desc := k.readD f.ds, off := k.readP .v f.p, step := step, count := f.count.toNat, mpc := 0,
                         ratio := f.rat, ring := ring s, cc := cc, decode := (tileD (k.readD f.ds)).kind != 0, fwd := .none }
  { (k.ccUp cc) with q := vmod k.q f.q.toNat fun x => { x with runs := x.runs ++ [run] } }

/-- The queue of a VRD has fewer than four runs. -/
def RunRoom (s : State) (q : BitVec 2) : Prop := (vget (mine s).q q.toNat ⟨[], []⟩).runs.length < 4

/-- The first byte written by iteration `j` of a VWR outside a ring (R153). -/
def vwrAddr (o : VecOp) (j : Nat) : Dword :=
  addrAt ((tileD o.desc).base + o.off) (match o.step with | some st => j * st.toInt | none => o.written)

/-- The bytes that an iteration of a VWR writes for a source segment (R153). -/
def vwrLen (o : VecOp) (x : Seg) : Nat :=
  let t := (tileD o.desc).tag
  if x.tag = t then (if t.width = 6 ∧ t.isScaled = false then 255 else 256) else ceilDiv (x.tag.count * t.width) 8

end Sys2Proof.Claims

/-- R148 to R155: VGATH, VSCAT and VWR issue with a descriptor they accept, copying it and their parameter; in the four-word forms
the ring is taken once its slots are ready and the counter goes up by one; VRD puts a read run behind those of its queue and
is done. -/
def Obligations.VectorMemoryInstructionsIssue : Prop :=
  (∀ (y : Sync) (f : VgathF), VectorIssues (.vgath y f) y none
    (fun s => DescOk ((mine s).readD f.ds) ∧ gatherTag (tileD ((mine s).readD f.ds)).tag = true)
    fun s => { VecOp.blank (mine s) y with
      kind := .gath f.men, a := f.a, c := f.c, count := f.count.toNat, d := f.d, dv := f.dv, dadv := f.dadv
      aadv := f.aadv, cadv := f.cadv, desc := (mine s).readD f.ds, off := (mine s).readP .v f.p })
  ∧ (∀ (y : Sync) (f : VscatF), VectorIssues (.vscat y f) y (ccOf f.ccen f.ccn)
    (fun s => DescOk ((mine s).readD f.ds) ∧ gatherTag (tileD ((mine s).readD f.ds)).tag = true)
    fun s => { VecOp.blank (mine s) y with
      kind := .scat f.men, a := f.a, b := f.b, c := f.c, count := f.count.toNat, aadv := f.aadv, badv := f.badv
      cadv := f.cadv, desc := (mine s).readD f.ds, off := (mine s).readP .v f.p, cc := ccOf f.ccen f.ccn })
  ∧ (∀ (y : Sync) (f : VwrF), VectorIssues (.vwr y f) y none
    (fun s => DescOk ((mine s).readD f.ds) ∧ (tileD ((mine s).readD f.ds)).kind = 0)
    fun s => { VecOp.blank (mine s) y with
      kind := .write f.sat, a := f.src, aadv := f.sadv, rnd := f.rnd, count := f.count.toNat
      desc := (mine s).readD f.ds, off := (mine s).readP .v f.p })
  ∧ (∀ (y : Sync) (f : VwrF) (x : LongF), VectorIssues (.vwrLong y f x) y (ccOf x.ccen x.ccn)
    (fun s => DescOk ((mine s).readD f.ds) ∧ (tileD ((mine s).readD f.ds)).kind = 0 ∧ RingReady s x true
      ∧ (mine s).fusedNow = false)
    fun s => { VecOp.blank (mine s) y with
      kind := .write f.sat, a := f.src, aadv := f.sadv, rnd := f.rnd, count := f.count.toNat
      desc := (mine s).readD f.ds, off := (mine s).readP .v f.p, step := some x.step, ring := ringOf s x true
      cc := ccOf x.ccen x.ccn })
  ∧ (∀ (y : Sync) (f : VrdF), DoneAtIssue (.vrd y f) .v y
    (fun s => RunRoom s f.q ∧ (mine s).fusedNow = false
      ∧ VrdOk ((mine s).readD f.ds) none ((mine s).readP .v f.p) 256 f.count.toNat)
    (withRun f 256 (fun _ => none) none))
  ∧ ∀ (y : Sync) (f : VrdF) (x : LongF), DoneAtIssue (.vrdLong y f x) .v y
    (fun s => RunRoom s f.q ∧ (mine s).fusedNow = false ∧ RingReady s x false
      ∧ (mine s).ccRoom (ccOf x.ccen x.ccn) = true
      ∧ VrdOk ((mine s).readD f.ds) (ringOf s x false) ((mine s).readP .v f.p) x.step f.count.toNat)
    (withRun f x.step (fun s => ringOf s x false) (ccOf x.ccen x.ccn))

namespace Sys2Proof.Claims

/-! Iterations (R143 to R145). -/

/-- The running core executes iteration `j` of `o`. -/
def Iterates (s : State) (o : VecOp) (j : Nat) : Prop :=
  ((mine s).stream .v).op = .vec o ∧ ((mine s).stream .v).mpc.toNat = j ∧ j < o.count
    ∧ o.heldA = none ∧ o.heldB = none ∧ (mine s).stopped = false ∧ (mine s).raising = none
    ∧ ((mine s).stream .v).run = .run

/-- The segment that a source code names at step `j`, there to be read (R143). -/
def Source (k : Core) (code : BitVec 6) (adv : Bool) (j : Nat) (x : Seg) : Prop :=
  let i := code.toNat
  let r := if adv then (i + j) % 32 else i
  (i < 32 → BankOn k r ∧ vget k.v r Seg.zero = x)
    ∧ (32 ≤ i → i < 48 → (adv = true → j ≤ i - 32) ∧ vget k.h (if adv then i - 32 - j else i - 32) Seg.zero = x)
    ∧ (48 ≤ i → (vget k.q (i - 48) ⟨[], []⟩).segs.head? = some x)

/-- The kinds whose operands are plain segments. -/
def plainKind : VKind → Bool
  | .cvt .. | .qnt _ | .gath _ | .scat _ | .write _ => false
  | _ => true

/-- VRED and VSCAN read B in iteration 0 only (R167, R168). -/
def readsB (o : VecOp) (j : Nat) : Bool :=
  o.kind.usesB && (match o.kind with | .red _ | .scan _ => j == 0 | _ => true)

/-- An operand that is read is there; one that is not counts as zero bits. -/
def Operand (k : Core) (reads : Bool) (code : BitVec 6) (adv : Bool) (j : Nat) (x : Seg) : Prop :=
  if reads then Source k code adv j x else x = Seg.zero

/-- A queue that a plain operand of the iteration names. -/
def namesQueue (o : VecOp) (j i : Nat) : Bool :=
  (o.kind.usesA && o.a.toNat == 48 + i) || (readsB o j && o.b.toNat == 48 + i) || (o.kind.usesC && o.c.toNat == 48 + i)

/-- The results of an iteration have been pushed in order: the newest is h0, the others have aged, and the oldest are gone; the
first is written to the destination (R144). -/
def Pushed (o : VecOp) (j : Nat) (xs : List Seg) (k k' : Core) : Prop :=
  (∀ i, i < 16 → vget k'.h i Seg.zero = (xs.reverse ++ k.h.toList).getD i Seg.zero)
    ∧ (o.dv = true → ∀ x, xs.head? = some x → vget k'.v (o.dest j) Seg.zero = x)
    ∧ ∀ r, r < 32 → (o.dv = false ∨ r ≠ o.dest j) → vget k'.v r Seg.zero = vget k.v r Seg.zero

/-- After an iteration the MPC is one more; after the last one the instruction has retired (R142, R145). -/
def Advanced (o o' : VecOp) (j : Nat) (k k' : Core) : Prop :=
  (∀ u, u ≠ .v → k'.stream u = k.stream u)
    ∧ (j + 1 < o.count → (k'.stream .v).op = .vec o' ∧ (k'.stream .v).mpc = (k.stream .v).mpc + 1
        ∧ (k'.stream .v).held = (k.stream .v).held ∧ (k'.stream .v).run = .run)
    ∧ (o.count ≤ j + 1 → (k'.stream .v).op = .none
        ∧ (k'.stream .v).held = (k.stream .v).held ++ (if o.sync.push then [.push o.sync.pdst] else []))

end Sys2Proof.Claims

/-- R143 to R145: an iteration whose operands are there, with its banks ON, pushes its results in order, ages the history, writes the
first to its destination, removes the head of every queue it names once, and adds one to the MPC, or retires the instruction
after the last; a tag that the instruction refuses raises TAG with FADDR 0 and changes nothing else. R163, R164: so does an
iteration of a conversion between tags of one element count, whose element e is the narrowed element e of its source. -/
def Obligations.VectorIterationsPushResults : Prop :=
  (∀ (s : State) (o : VecOp) (j : Nat) (a b c : Seg), Iterates s o j → plainKind o.kind = true →
    Operand (mine s) o.kind.usesA o.a o.aadv j a → Operand (mine s) (readsB o j) o.b o.badv j b →
    Operand (mine s) o.kind.usesC o.c o.cadv j c → (o.dv = true → BankOn (mine s) (o.dest j)) →
    (vecResult o j a b c (vget (mine s).h 0 Seg.zero) = none →
      exec .vectorIteration s = .next (raise s s.cur.core.val .v ⟨.tag, 0, 0, 0⟩))
    ∧ ∀ xs, vecResult o j a b c (vget (mine s).h 0 Seg.zero) = some xs →
      ∃ t, exec .vectorIteration s = .next t ∧ OnlyCore s t ∧ Pushed o j xs (mine s) (mine t) ∧ Advanced o o j (mine s) (mine t)
        ∧ mine t = { mine s with h := (mine t).h, v := (mine t).v, q := (mine t).q, streams := (mine t).streams }
        ∧ ∀ i, i < 4 → (vget (mine t).q i ⟨[], []⟩).runs = (vget (mine s).q i ⟨[], []⟩).runs
            ∧ (vget (mine t).q i ⟨[], []⟩).segs = (vget (mine s).q i ⟨[], []⟩).segs.drop (if namesQueue o j i then 1 else 0))
  ∧ ∀ (s : State) (o : VecOp) (j : Nat) (x : Seg) (u : Tag) (expect : BitVec 5) (sat : Bool), Iterates s o j →
    o.kind = .cvt u expect sat → o.usedA = j → o.tag0A = (if j = 0 then none else some x.tag) →
    Source (mine s) o.a o.aadv j x → x.tag ≠ .invalid → x.tag.count = u.count → u.isScaled = false → (expect = 0 ∨ x.tag.code = expect.toNat) →
    (o.dv = true → BankOn (mine s) (o.dest j)) →
    ∃ t r, exec .vectorIteration s = .next t ∧ OnlyCore s t ∧ Pushed o j [r] (mine s) (mine t)
      ∧ Advanced o { o with tag0A := some x.tag, usedA := j + 1 } j (mine s) (mine t) ∧ r.tag = u
      ∧ ∀ e, e < u.count → u ≠ .e8m10 → segElem u r.bits e
          = (roundTag u (Rnd.ofCode o.rnd) (o.rounding.draw (j * u.count + e)) sat (segVal x e)).1 % 2 ^ u.width

/-- R153, R142, R145: an iteration of a dense VWR writes its source unchanged when its tag is FMT, and otherwise its elements narrowed
and packed, at BASE + v.pP + s_j, and changes no other byte; after the last iteration the writes land while the stream goes on, and then the VWR
retires and its counter goes down by one. R148, R150: a read run that is due places the 256 bytes of its next segment, from
memory or from the ring, with the descriptor's tag and zeros where R68 has no element. R29: reading a PLAIN page without a flawed granule gives its bytes. -/
def Obligations.VectorMemoryIterations : Prop :=
  (∀ (s : State) (o : VecOp) (j pa : Nat) (sat : Bool) (x : Seg), MemOk s → (mine s).landing = [] → Iterates s o j → o.kind = .write sat →
    o.ring = none → Source (mine s) o.a o.aadv j x → x.tag ≠ .invalid → (tileD o.desc).tag ≠ .invalid →
    (x.tag = (tileD o.desc).tag ∨ (tileD o.desc).tag.isScaled = false) → (vwrAddr o j).toNat % 16 = 0 →
    Writes s (vwrAddr o j) (vwrLen o x) pa →
    ∃ t, exec .vectorIteration s = .next t ∧ (∀ c, c ≠ s.cur.core.val → coreAt t c = coreAt s c)
      ∧ (∀ y, y < pa ∨ pa + vwrLen o x ≤ y → memGet t.mem y = memGet (marked s .write (vwrAddr o j)).mem y)
      ∧ (x.tag = (tileD o.desc).tag → memRead t.mem pa (vwrLen o x) = (segBytes x.bits).take (vwrLen o x))
      ∧ (x.tag ≠ (tileD o.desc).tag → ∀ e, e < x.tag.count →
          bits (leValue (memRead t.mem pa (vwrLen o x))) ((tileD o.desc).tag.width * e) (tileD o.desc).tag.width
            = (roundTag (tileD o.desc).tag (Rnd.ofCode o.rnd) (o.rounding.draw (j * x.tag.count + e)) sat (segVal x e)).1
                % 2 ^ (tileD o.desc).tag.width)
      ∧ (mine t).h = (mine s).h ∧ (mine t).v = (mine s).v
      ∧ ((mine t).stream .v).held = ((mine s).stream .v).held
      ∧ (j + 1 < o.count → (mine t).landing = []
          ∧ ((mine t).stream .v).op = .vec { o with written := o.written + roundUp (vwrLen o x) 16 })
      ∧ (o.count ≤ j + 1 → ((mine t).stream .v).op = .none ∧ (mine t).landing = [⟨o.sync, o.cc, none⟩]))
  ∧ (∀ (s : State) (l : VLanding), (mine s).landing = [l] → (mine s).raising = none →
    ((∀ w ∈ s.rstores, w.core ≠ s.cur.core.val) → (∀ b ∈ s.bstores, b.core ≠ s.cur.core.val) →
      ∃ t, exec .vectorWritesLanded s = .next t ∧ OnlyCore s t ∧ ((mine t).stream .v).op = ((mine s).stream .v).op
        ∧ (mine t).landing = [] ∧ Finished .v l.sync l.cc (mine s) (mine t) ∧ (mine t).v = (mine s).v ∧ (mine t).h = (mine s).h)
    ∧ ((∃ b ∈ s.bstores, b.core = s.cur.core.val) → exec .vectorWritesLanded s = .next s))
  ∧ (∀ (s : State) (q : Nat) (r : ReadRun) (rest : List ReadRun) (xs : List Byte) (mem : List Host.Cell), q < 4 →
    let x := vget (mine s).q q ⟨[], []⟩
    x.runs = r :: rest → x.segs.length < 8 → r.mpc < r.count → r.decode = false → r.fwd = .none →
    (mine s).stopped = false → (mine s).raising = none → ((mine s).stream .v).run ≠ .faulted →
    (match r.ring with
     | none => (addrAt ((tileD r.desc).base + r.off) (r.mpc * r.step.toInt)).toNat % 16 = 0
        ∧ Reads s (addrAt ((tileD r.desc).base + r.off) (r.mpc * r.step.toInt)) 256 xs mem
     | some g => mem = s.mem ∧ s.bad = [] ∧ (∀ a ∈ g.bytes (r.off.toInt + r.mpc * r.step.toInt).toNat 256, usable a = true)
        ∧ xs = (g.bytes (r.off.toInt + r.mpc * r.step.toInt).toNat 256).map (memGet s.mem)) →
    ∃ t, exec (.readRunPlace q) s = .next t ∧ t.mem = mem
      ∧ (vget (mine t).q q ⟨[], []⟩).segs = x.segs ++ [⟨cleanSeg (tileD r.desc).tag (segOf xs), (tileD r.desc).tag⟩]
      ∧ (vget (mine t).q q ⟨[], []⟩).runs = (if r.mpc + 1 = r.count then rest else { r with mpc := r.mpc + 1 } :: rest)
      ∧ (∀ i, i ≠ q → vget (mine t).q i ⟨[], []⟩ = vget (mine s).q i ⟨[], []⟩)
      ∧ (mine t).v = (mine s).v ∧ (mine t).h = (mine s).h
      ∧ (mine t).cc = (if r.mpc + 1 = r.count then ((mine s).ccDown r.cc).cc else (mine s).cc))
  ∧ (∀ (s s1 : State) (c n : Nat) (a : Dword) (p : Piece), check c .read a n s = .ok [p] s1 → p.page.cls = 0 → s1.bad = [] →
    memLoad c a n s = .ok ((List.range p.n).map fun i => memGet s1.mem (p.page.pa + i)) s1)
  ∧ ∀ (s : State) (n : Nat) (a : Dword) (p : Page), a.toNat % 65536 + n ≤ 65536 → 0 < n → PlainAccess s .read a n p →
    ∃ s1, memLoad s.cur.core.val a n s = .ok (memRead s1.mem p.pa n) s1 ∧ s1.mem = (marked s .read a).mem

namespace Sys2Proof.Claims

/-- An iteration of this kind on sources `a`, `b`, `c` pushes one segment, of tag `u`, whose element `e` is `f e`. -/
def Elements (o : VecOp) (kind : VKind) (j : Nat) (a b c h0 : Seg) (u : Tag) (f : Nat → Nat) : Prop :=
  ∃ r, vecResult { o with kind := kind } j a b c h0 = some [r] ∧ r.tag = u ∧ ∀ e, e < u.count → segElem u r.bits e = f e

/-- Element `e` of a segment: its stored bits, its integer, and its exact value (R69, R70). -/
def el (x : Seg) (e : Nat) : Nat := segElem x.tag x.bits e
def int (x : Seg) (e : Nat) : Int := intOf x.tag (el x e)
def real (x : Seg) (e : Nat) : Val := x.tag.val (el x e)

/-- A signed number in the two's complement of a width, and a number clamped to a tag's range (R158). -/
def wrapTo (t : Tag) (x : Int) : Nat := (x % 2 ^ t.width).toNat
def clampTo (t : Tag) (x : Int) : Nat :=
  match t.intRange with
  | some (lo, hi) => wrapTo t (if x < lo then lo else if hi < x then hi else x)
  | none => 0

/-- The integer result of R158 under RND. -/
def intRes (o : VecOp) (t : Tag) (x : Int) : Nat := if o.rnd.getLsbD 0 then clampTo t x else wrapTo t x

/-- The float result of R158: the exact value narrowed, element `e` of iteration `j` drawing number j × N + e (R80). -/
def fpRes (o : VecOp) (t : Tag) (j e : Nat) (x : Val) : Nat :=
  (roundTag t (Rnd.ofCode o.rnd) (o.rounding.draw (j * t.count + e)) false x).1 % 2 ^ t.width

/-- The number of true mask elements below position `e` (R170). -/
def truesBelow (m : Seg) (e : Nat) : Nat := ((List.range e).filter fun i => el m i != 0).length

end Sys2Proof.Claims

/-- R157, R158, R163: VSPLAT fills a segment with its immediate. VADD, VSUB, VMUL and VFMA of an FP tag give the exact result
narrowed by RND, and of an INT tag the exact integer, wrapped or clamped as RND[0] says; VMIN and VMAX of integers the smaller
and the larger; VABS and VNEG of integers the magnitude and the negative. Sources of unlike tags are refused. R156, R159 to R161, R167 to R172: copies, bitwise operations over all bits, shifts by b mod width, comparison masks with the
rules for NaN, selection, integer sums and prefix sums, counts, shuffles, packing and unpacking, element by element. -/
def Obligations.VectorResultElements : Prop :=
  ((∀ (o : VecOp) (j : Nat) (a b c h0 : Seg), a.tag.isFp = true → a.tag = b.tag →
    Elements o (.bin .add) j a b c h0 a.tag (fun e => fpRes o a.tag j e ((real a e).add (real b e)))
    ∧ Elements o (.bin .sub) j a b c h0 a.tag (fun e => fpRes o a.tag j e ((real a e).add (real b e).neg))
    ∧ Elements o (.bin .mul) j a b c h0 a.tag (fun e => fpRes o a.tag j e ((real a e).mul (real b e)))
    ∧ (a.tag = c.tag → Elements o .fma j a b c h0 a.tag
        fun e => fpRes o a.tag j e (((real a e).mul (real b e)).add (real c e))))
  ∧ (∀ (o : VecOp) (j : Nat) (a b c h0 : Seg), a.tag.isInt = true → a.tag = b.tag →
    Elements o (.bin .add) j a b c h0 a.tag (fun e => intRes o a.tag (int a e + int b e))
    ∧ Elements o (.bin .sub) j a b c h0 a.tag (fun e => intRes o a.tag (int a e - int b e))
    ∧ Elements o (.bin .mul) j a b c h0 a.tag (fun e => intRes o a.tag (int a e * int b e))
    ∧ (a.tag = c.tag → Elements o .fma j a b c h0 a.tag fun e => intRes o a.tag (int a e * int b e + int c e))
    ∧ Elements o (.bin .min) j a b c h0 a.tag (fun e => if int b e ≤ int a e then el b e else el a e)
    ∧ Elements o (.bin .max) j a b c h0 a.tag (fun e => if int a e < int b e then el b e else el a e)
    ∧ (a.tag = c.tag → Elements o .clamp j a b c h0 a.tag fun e =>
        if int c e ≤ max (int a e) (int b e) then el c e else if int a e < int b e then el b e else el a e))
  ∧ (∀ (o : VecOp) (j : Nat) (a b c h0 : Seg), a.tag = .int8 ∨ a.tag = .int32 ∨ a.tag = .int64 →
    Elements o .abs j a b c h0 a.tag (fun e => intRes o a.tag (int a e).natAbs)
    ∧ Elements o .neg j a b c h0 a.tag (fun e => intRes o a.tag (-int a e)))
  ∧ (∀ (o : VecOp) (j : Nat) (a b c h0 : Seg) (op : VBin), a.tag ≠ b.tag →
    vecResult { o with kind := .bin op } j a b c h0 = none ∧ vecResult { o with kind := .fma } j a b c h0 = none
    ∧ vecResult { o with kind := .clamp } j a b c h0 = none ∧ vecResult { o with kind := .sel } j a b c h0 = none)
  ∧ ∀ (o : VecOp) (j : Nat) (a b c h0 : Seg) (imm : Word),
    Elements o (.splat .int32 imm) j a b c h0 .int32 (fun _ => imm.toNat)
    ∧ Elements o (.splat .fp32 imm) j a b c h0 .fp32 (fun _ => imm.toNat)
    ∧ Elements o (.splat .bf16 imm) j a b c h0 .bf16 (fun _ => imm.toNat % 65536)
    ∧ Elements o (.splat .int64 imm) j a b c h0 .int64 (fun _ => (imm.signExtend 64).toNat)
    ∧ Elements o (.splat .e8m10 imm) j a b c h0 .e8m10 (fun _ => imm.toNat % 524288))
  ∧ ((∀ (o : VecOp) (j : Nat) (a b c h0 : Seg), a.tag ≠ .invalid →
    vecResult { o with kind := .move } j a b c h0 = some [a]
    ∧ (a.tag = b.tag →
        vecResult { o with kind := .bin .band } j a b c h0 = some [⟨a.bits &&& b.bits, a.tag⟩]
        ∧ vecResult { o with kind := .bin .bor } j a b c h0 = some [⟨a.bits ||| b.bits, a.tag⟩]
        ∧ vecResult { o with kind := .bin .bxor } j a b c h0 = some [⟨a.bits ^^^ b.bits, a.tag⟩]))
  ∧ (∀ (o : VecOp) (j : Nat) (a b c h0 : Seg), a.tag.isInt = true → a.tag = b.tag →
    let w := a.tag.width
    Elements o (.bin .shl) j a b c h0 a.tag (fun e => el a e * 2 ^ (el b e % w) % 2 ^ w)
    ∧ Elements o (.bin .shr) j a b c h0 a.tag (fun e => el a e / 2 ^ (el b e % w))
    ∧ Elements o (.bin .sra) j a b c h0 a.tag (fun e => (signExtend (el a e) w / 2 ^ (el b e % w) % 2 ^ w).toNat)
    ∧ ∀ cond : BitVec 4, cond.toNat < 6 → Elements o (.cmp cond) j a b c h0 (cmpTag w) fun e =>
        if (cond = 0 ∧ int a e = int b e) ∨ (cond = 1 ∧ int a e ≠ int b e) ∨ (cond = 2 ∧ int a e < int b e)
          ∨ (cond = 3 ∧ int a e ≤ int b e) ∨ (cond = 4 ∧ int b e < int a e) ∨ (cond = 5 ∧ int b e ≤ int a e)
        then 2 ^ w - 1 else 0)
  ∧ (∀ (o : VecOp) (j : Nat) (a b c h0 : Seg), a.tag.isFp = true → a.tag = b.tag →
    ∀ e, e < a.tag.count → (real a e = .nan ∨ real b e = .nan) → ∀ cond : BitVec 4, cond.toNat < 7 →
      ∃ r, vecResult { o with kind := .cmp cond } j a b c h0 = some [r]
        ∧ segElem r.tag r.bits e = (if cond = 1 ∨ cond = 6 then 2 ^ a.tag.width - 1 else 0))
  ∧ (∀ (o : VecOp) (j : Nat) (a b c h0 : Seg), a.tag.permutable = true → a.tag ≠ .e8m10 →
    (a.tag = b.tag → maskFor c.tag a.tag = true →
      Elements o .sel j a b c h0 a.tag fun e => if el c e = 0 then el b e else el a e)
    ∧ (maskFor b.tag a.tag = true →
      Elements o .shuf j a b c h0 a.tag (fun e => if el b e < a.tag.count then el a (el b e) else 0)
      ∧ (∃ p n, vecResult { o with kind := .part } j a b c h0 = some [p, n] ∧ p.tag = a.tag ∧ n.tag = .int32
          ∧ segElem .int32 n.bits 0 = truesBelow b a.tag.count ∧ segElem .int32 n.bits 1 = a.tag.count - truesBelow b a.tag.count
          ∧ ∀ e, e < a.tag.count → segElem p.tag p.bits
              (if el b e ≠ 0 then truesBelow b e else truesBelow b a.tag.count + (e - truesBelow b e)) = el a e)
      ∧ (∃ r, vecResult { o with kind := .pack } j a b c h0 = some [r] ∧ r.tag = a.tag
          ∧ (∀ e, e < a.tag.count → el b e ≠ 0 → segElem r.tag r.bits (truesBelow b e) = el a e)
          ∧ ∀ e, truesBelow b a.tag.count ≤ e → e < a.tag.count → segElem r.tag r.bits e = 0)
      ∧ (c.tag = a.tag → Elements o .unpk j a b c h0 a.tag fun e => if el b e ≠ 0 then el a (truesBelow b e) else el c e)))
  ∧ (∀ (o : VecOp) (j : Nat) (a b c h0 : Seg), a.tag.isMask = true →
    Elements o .iota j a b c h0 (iotaTag a.tag.width) fun e => truesBelow a e)
  ∧ ∀ (o : VecOp) (a b c h0 : Seg), a.tag.isInt = true →
    (b.tag = .int64 → ∃ r, vecResult { o with kind := .red .sum } 0 a b c h0 = some [r] ∧ r.tag = .int64
      ∧ (segElem .int64 r.bits 0 : Int)
          = (el b 0 + ((List.range a.tag.count).map (int a)).foldl (· + ·) 0) % 2 ^ 64
      ∧ ∀ e, 0 < e → e < 32 → segElem .int64 r.bits e = 0)
    ∧ (a.tag = .int32 ∨ a.tag = .int64 → b.tag = a.tag → Elements o (.scan .sum) 0 a b c h0 a.tag fun e =>
        (el b 0 + ((List.range (e + 1)).map (el a)).foldl (· + ·) 0) % 2 ^ a.tag.width))

namespace Sys2Proof.Claims

/-! The walker and the matrix stream. -/

/-- A walk's descriptors pass the checks of R177. -/
def WalkOk (kind : WalkKind) (a b : BitVec 256) : Prop :=
  DescOk a ∧ DescOk b ∧ (tileD a).kind = (match kind with | .bmap => 1 | .coord => 2 | .dense => 0)
    ∧ ((tileD b).kind = 1 ∨ (tileD b).kind = 2) ∧ (tileD a).dim0 = (tileD b).dim1 ∧ (tileD b).dim0 ≤ 256

/-- A walk's configuration at issue: with STAT.VERIFY set, T is -512 (R175). -/
def cfgOf (k : Core) : WCfg := if k.sr.verify then { k.wcfg with skip := -512 } else k.wcfg

/-- A walk as it issues: nothing of it is prepared, and its configuration, window and descriptors are copied (R27, R175, R179). -/
def walkOp (kind : WalkKind) (y : Sync) (f : WalkF) (waiting : Bool) (k : Core) : Walk :=
  { kind := kind, da := f.da, db := f.db, cfg := cfgOf k, row0 := k.row0.toNat, descA := k.readD f.da, descB := k.readD f.db
    cc := ccOf f.ccen f.ccn, loc := (k.stream .w).here, wordAddr := (k.stream .w).wordAddr, sync := y
    waiting := waiting, checked := false, round := 0, seqNext := 0, recount := false, ready := [], begun := false
    ended := false, emitted := 0, records := 0, resume := [] }

/-- A walk of this kind: in list mode it issues; in array mode, with no MSPR at issue, it waits there (R176, R183). -/
def Walks (i : Instr) (kind : WalkKind) (y : Sync) (f : WalkF) : Prop :=
  IssuesAs i .w y (ccOf f.ccen f.ccn)
    (fun s => (mine s).wcfg.mode = true ∧ (cbAt s s.cur.core.val (mine s).wcfg.cbh).valid = true
      ∧ WalkOk kind ((mine s).readD f.da) ((mine s).readD f.db))
    (fun s => .walk (walkOp kind y f false (mine s)))
  ∧ ∀ s : State, (mine s).popReady .w y = true → (mine s).ccRoom (ccOf f.ccen f.ccn) = true → (mine s).wcfg.mode = false →
    ((mine s).stream .m).op = .none →
    ∃ t, exec i s = .next t ∧ OnlyCore s t
      ∧ mine t = { mine s with streams := (mine t).streams } ∧ (∀ u, u ≠ .w → (mine t).stream u = (mine s).stream u)
      ∧ (mine t).stream .w = { (mine s).stream .w with op := .walk (walkOp kind y f true (mine s)) }

/-- The tile and the descriptors of a walk pass the checks of R197. -/
def SparseOk (k : Core) (z : BitVec 1) (a b : BitVec 256) : Prop :=
  let t := vget k.z z.toNat Tile.zero
  t.tag ≠ .invalid ∧ (tileD a).tag = t.tag ∧ (tileD b).tag = t.btag ∧ t.tag.isMx = false ∧ t.btag.isMx = false
    ∧ t.tag ≠ .int1 ∧ t.btag ≠ .int1 ∧ (t.mode = .arrival → k.sr.verify = false)

/-- A walk and an MSPR wait at issue and may meet (R176). -/
def MayMeet (k : Core) (w : Walk) (o : MatOp) (z : BitVec 1) : Prop :=
  k.stopped = false ∧ k.raising = none ∧ w.waiting = true ∧ o.kind = .spr z ∧ o.started = false ∧ k.ccRoom w.cc = true
    ∧ (k.ccUp w.cc).ccRoom o.cc = true ∧ WalkOk w.kind (k.readD w.da) (k.readD w.db)
    ∧ SparseOk k z (k.readD w.da) (k.readD w.db)

/-- They have issued together: the copies are those of this cycle, both MPCs are 0, and the flow is at its first step with nothing
in it (R27, R176, R278). -/
def Met (s t : State) (w : Walk) (o : MatOp) : Prop :=
  OnlyCore s t ∧ (mine t).z = (mine s).z ∧ (mine t).g = (mine s).g
    ∧ ∃ w' o' f, ((mine t).stream .w).op = .walk w' ∧ ((mine t).stream .m).op = .mat o' ∧ (mine t).flow = some f
      ∧ ((mine t).stream .w).mpc = 0 ∧ ((mine t).stream .m).mpc = 0
      ∧ w' = { w with waiting := false, cfg := cfgOf (mine s), row0 := (mine s).row0.toNat
                      descA := (mine s).readD w.da, descB := (mine s).readD w.db }
      ∧ o' = { o with started := true, seed := (mine s).sr.seed }
      ∧ f.lanes = [] ∧ f.rowq = [] ∧ f.spill = [] ∧ f.held = [] ∧ f.step = 0 ∧ f.next = 0 ∧ f.walkDone = false ∧ f.cfg = w'.cfg

/-- A tile header that passes the checks of R91, R94 and R99. -/
def HeadOk (t : TileD) (h : List Byte) : Prop :=
  field h 0 1 = t.kind ∧ field h 1 1 = t.code ∧ field h 2 2 = 0xC0BF ∧ kindAccepts t.kind t.tag = true
    ∧ (if t.kind ≤ 2 then field h 4 4 = 0 else bits (field h 4 4) 4 12 = 0) ∧ field h 8 4 = t.dim1 ∧ field h 12 4 = t.dim0
    ∧ field h 16 4 = t.nblk ∧ field h 20 4 = (if t.kind = 3 then 0 else t.count) ∧ 32 + 4 * t.nblk ≤ field h 24 8

/-- A tile whose header is read: its 32 bytes lie in one page, the access is plain, and they pass their checks. -/
def HeadReads (s : State) (t : TileD) : Prop :=
  t.base.toNat % 65536 + 32 ≤ 65536
    ∧ ∃ p, PlainAccess s .read t.base 32 p ∧ HeadOk t (memRead (marked s .read t.base).mem p.pa 32)

/-- A walk that may prepare its next round: every pair of the last one has gone, and nothing stops the core, the stream or the flow
(R182, R288). -/
def MayPrepare (s : State) (w : Walk) : Prop :=
  ((mine s).stream .w).op = .walk w ∧ w.waiting = false ∧ w.ready = [] ∧ w.ended = false ∧ (mine s).stopped = false
    ∧ (mine s).raising = none ∧ (∀ f, (mine s).flow = some f → f.stop = none) ∧ ((mine s).stream .w).run = .run

end Sys2Proof.Claims

/-- R175, R179: WCFG and WMARK set the configuration and the window, whose first row has bits [6:0] clear. R176, R177, R183: a walk in list
mode issues with the copies of its descriptors; in array mode it waits for an MSPR, and the two issue in one cycle when both
wait, whichever came last. R180, R182: a round that is prepared holds the pairs found, numbered on from the last round. A walk
of a dense A tile that has no row in the window, or whose B tile has no block, finds none, once B's header is read, and has ended. -/
def Obligations.WalksIssueAndPrepareRounds : Prop :=
  (∀ (y : Sync) (f : WcfgF), DoneAtIssue (.wcfg y f) .w y (fun _ => True)
    fun _ k => { k with wcfg := ⟨f.mode, f.ovf, f.chk, f.cbh, f.lag, f.skip⟩ })
  ∧ (∀ (y : Sync) (p : BitVec 4), DoneAtIssue (.wmark y p) .w y (fun _ => True)
    fun _ k => { k with row0 := BitVec.ofNat 32 ((k.readP .w p).toNat % 2 ^ 32 / 128 * 128) })
  ∧ (∀ (y : Sync) (f : WalkF), Walks (.wbmap y f) .bmap y f ∧ Walks (.wcoord y f) .coord y f ∧ Walks (.wdense y f) .dense y f)
  ∧ (∀ (s : State) (w : Walk) (o : MatOp) (z : BitVec 1), ((mine s).stream .w).op = .walk w → ((mine s).stream .m).op = .mat o →
    MayMeet (mine s) w o z → ∃ t, exec .walkMsprMeet s = .next t ∧ Met s t w o)
  ∧ (∀ (s : State) (y : Sync) (f : WalkF) (o : MatOp) (z : BitVec 1), ((mine s).stream .m).op = .mat o →
    (mine s).wcfg.mode = false → (mine s).popReady .w y = true → (mine s).ccRoom (ccOf f.ccen f.ccn) = true →
    MayMeet (mine s) (walkOp .bmap y f true (mine s)) o z → ∃ t, exec (.wbmap y f) s = .next t
      ∧ Met s t (walkOp .bmap y f true (mine s)) o)
  ∧ (∀ (s : State) (w : Walk), MayPrepare s w → w.cfg.chk = false → (tileD w.descA).kind = 0 →
    (windowRows w = [] ∨ (tileD w.descB).nblk = 0) → HeadReads s (tileD w.descB) →
    ∃ t w', exec .roundPrepare s = .next t ∧ ((mine t).stream .w).op = .walk w' ∧ w'.round = w.round + 1 ∧ w'.ended = true
      ∧ w'.ready = [] ∧ t.mem = (marked s .read (tileD w.descB).base).mem)
  ∧ ∀ (s s1 s2 : State) (w : Walk) (x : WalkTiles) (ps : List Pair) (n : Nat), MayPrepare s w →
    w.cfg.mode = false → w.cfg.chk = false → w.recount = false → walkTiles s.cur.core.val w s = .ok x s1 →
    roundRows s.cur.core.val w x w.round (windowRows w) s1 = .ok (ps, n) s2 → (ps = [] ∨ w.round < 65535) →
    ∃ t w', exec .roundPrepare s = .next t ∧ ((mine t).stream .w).op = .walk w' ∧ w'.round = w.round + 1
      ∧ w'.ended = ps.isEmpty ∧ w'.seqNext = w.seqNext + ps.length ∧ t.mem = s2.mem
      ∧ w'.ready.map (·.seq) = (List.range ps.length).map (w.seqNext + ·)
      ∧ w'.ready.map (fun p => (p.row, p.k, p.a, p.brow)) = ps.map fun p => (p.row, p.k, p.a, p.brow)

/-- R183, R184: in list mode a pair's record of 16 bytes goes to its place in the slot that HEAD names, HEAD growing by one with the
slot's last record, and a skipped pair only counts in SKIPCNT. R280 to R282: a flow step whose core has the lease and whose cluster
has the token applies the pairs that complete, in
ascending lane, starts pairs and keeps at most four pairs in a row queue and 32 in the overflow queue. R186, R290: a
flow resumed after a trap takes no step before it has the lease again. R283, R197: with no pair left, the MSPR retires. -/
def Obligations.PairsFlowAndRecordsAreWritten : Prop :=
  (∀ (s : State) (w : Walk) (p : Pair) (rest : List Pair), ((mine s).stream .w).op = .walk w → w.cfg.mode = true →
    w.ready = p :: rest → (mine s).stopped = false → (mine s).raising = none → ((mine s).stream .w).run = .run →
    (p.skipped = true → ∃ t, exec .listRecordWrite s = .next t ∧ OnlyCore s t
      ∧ (mine t).sr = { (mine s).sr with skipcnt := (mine s).sr.skipcnt + 1 }
      ∧ ((mine t).stream .w).op = .walk { w with ready := rest, emitted := w.emitted + 1 })
    ∧ (let h := cbAt s s.cur.core.val w.cfg.cbh
       let per := h.slotsz.toNat / 16
       let a := h.base.toNat + h.head.toNat % h.nslot.toNat * h.slotsz.toNat + 16 * (w.records % per)
       p.skipped = false → MemOk s → h.valid = true → (w.records % per = 0 → 1 ≤ h.free) →
       (∀ i, i < 16 → usable (a + i) = true) →
       ∃ t, exec .listRecordWrite s = .next t
        ∧ memRead t.mem a 16 = leBytes 4 p.k ++ leBytes 2 p.row ++ leBytes 2 0 ++ leBytes 4 p.seq ++ leBytes 4 p.a.toNat
        ∧ (∀ x, x < a ∨ a + 16 ≤ x → memGet t.mem x = memGet s.mem x)
        ∧ ((mine t).stream .w).op = .walk { w with ready := rest, emitted := w.emitted + 1, records := w.records + 1 }
        ∧ (cbAt t s.cur.core.val w.cfg.cbh).head = (if w.records % per + 1 = per then h.head + 1 else h.head)
        ∧ (mine t).sr = (mine s).sr))
  ∧ (∀ (s : State) (w : Walk), ((mine s).stream .w).op = .walk w → w.cfg.mode = true → w.ready = [] → w.ended = true →
    (mine s).stopped = false → (mine s).raising = none → ((mine s).stream .w).run = .run →
    w.records % ((cbAt s s.cur.core.val w.cfg.cbh).slotsz.toNat / 16) = 0 →
    ∃ t, exec .listRecordWrite s = .next t ∧ OnlyCore s t ∧ ((mine t).stream .w).op = .none ∧ t.mem = s.mem
      ∧ Finished .w w.sync w.cc (mine s) (mine t))
  ∧ (∀ (s : State) (f : Flow) (z : BitVec 1), (mine s).flow = some f → sprTile (mine s) = some z → f.stop = none →
    flowHolds s s.cur.core.val = true → (mine s).stopped = false → (mine s).raising = none → ((mine s).stream .m).run = .run → ((mine s).stream .w).op = .none →
    (f.walkDone = false ∨ f.drained = false) → (∀ w ∈ f.lanes, ∀ x ∈ w.pair.brow, x.flaw = none) →
    (∀ l, ∀ p ∈ f.queue l, ∀ x ∈ p.brow, x.flaw = none) → (∀ p ∈ f.spill, ∀ x ∈ p.brow, x.flaw = none) →
    let done := ((f.lanes.filter fun w => w.left ≤ 1).mergeSort fun a b => a.lane ≤ b.lane).map (·.pair)
    let tl := vget (mine s).z z.toNat Tile.zero
    ∃ t f', exec .flowStep s = .next t ∧ (mine t).flow = some f' ∧ f'.step = f.step + 1 ∧ t.mem = s.mem
      ∧ (tl.mode = .arrival → vget (mine t).z z.toNat Tile.zero = done.foldl (fun t p => applyPair f p t) tl)
      ∧ (∀ i, i ≠ z.toNat → vget (mine t).z i Tile.zero = vget (mine s).z i Tile.zero)
      ∧ (∀ l, (f'.queue l).length ≤ (f.queue l).length) ∧ f'.spill.length ≤ f.spill.length
      ∧ (∀ p ∈ done, (kget f'.done p.row).isSome = true) ∧ (mine t).g = (mine s).g)
  ∧ (∀ (s : State), (mine s).wantLease ≠ none → exec .flowStep s = .next s ∧ exec .flowEnd s = .next s)
  ∧ (∀ (f : Flow) (p : Pair), (∀ l, (f.queue l).length ≤ 4) → f.spill.length ≤ 32 →
    (∀ l, ((f.present p).flow.queue l).length ≤ 4) ∧ (f.present p).flow.spill.length ≤ 32
    ∧ ((f.present p).emitted = true ↔ (f.queue p.row).length < 4 ∨ (f.cfg.ovf = true ∧ f.spill.length < 32)))
  ∧ ∀ (s : State) (f : Flow) (o : MatOp), (mine s).flow = some f → ((mine s).stream .m).op = .mat o → o.started = true →
    f.walkDone = true → f.drained = true → f.stop = none → (mine s).stopped = false → (mine s).raising = none →
    ((mine s).stream .m).run = .run → flowHolds s s.cur.core.val = true →
    ∃ t, exec .flowEnd s = .next t ∧ (mine t).flow = none ∧ ((mine t).stream .m).op = .none ∧ (mine t).z = (mine s).z
      ∧ Finished .m o.sync o.cc (mine s) (mine t) ∧ t.mem = s.mem
namespace Sys2Proof.Claims

/-- The core of this state holds its cluster's lease and asks for none (R186). -/
def HoldsLease (s : State) : Prop :=
  (clusterAt s (clusterOf s.cur.core.val)).holder = some s.cur.core.val ∧ (mine s).wantLease = none

/-- A command of this many steps has its power token where it needs one (R203). -/
def TokenOk (s : State) (steps : Nat) : Prop := steps ≤ 64 ∨ (clusterAt s (clusterOf s.cur.core.val)).token = true

/-- Every byte that rows `first` to `first + count - 1` access lies in the slots awaited (R150). -/
def RowsOk (t : TileD) (ring : Option RingRef) (step : Int) (first count : Nat) (l : List (Option Nat)) : Prop :=
  ∀ g, ring = some g → count ≠ 0 → ∀ n, some n ∈ l → ∀ e ∈ (elemSpans t n).list, ∀ i, (i = first ∨ i = first + count - 1) →
    g.holds (i * step + e.1) e.2 = true

/-- The row index and kofs of a parameter register (R189). -/
def rowOf (p : Dword) : Nat := p.toNat % 2 ^ 32
def kofsOf (p : Dword) : Nat := p.toNat / 2 ^ 32

/-- What MLDS accepts (R189, R190). -/
def PlaneOk (d : BitVec 256) (pln : BitVec 1) (p : Dword) (step : BitVec 32) (ncol : Nat) (ring : Option RingRef) : Prop :=
  let t := tileD d
  t.ok = true ∧ matrixOperand t.tag = true ∧ (t.tag = .fp32 → pln = 0) ∧ t.kind = 0 ∧ kofsOk t.tag (kofsOf p) = true
    ∧ RowsOk t ring (rowStepOf t step) (rowOf p) ncol (rowRange t (kofsOf p) (planeDepth t.tag))

/-- MLDS has issued: its plane is empty with the descriptor's tag, for FP32 so is plane 1, and the plane-load unit holds it. -/
def PlaneStarts (s t : State) (y : Sync) (f : MldsF) (step : BitVec 32) (ring : Option RingRef) (cc : Option (BitVec 3)) : Prop :=
  let k := mine s
  let tag := (tileD (k.readD f.ds)).tag
  OnlyCore s t ∧ (∀ u, u ≠ .m → (mine t).stream u = k.stream u) ∧ (mine t).stream .m = (k.stream .m).step s.cur.len
    ∧ (mine t).cc = (k.ccUp cc).cc
    ∧ vget (mine t).w f.pln.toNat Plane.zero = ⟨tag, [], []⟩ ∧ (tag = .fp32 → vget (mine t).w 1 Plane.zero = ⟨tag, [], []⟩)
    ∧ (∀ i, i ≠ f.pln.toNat → tag ≠ .fp32 → vget (mine t).w i Plane.zero = vget k.w i Plane.zero)
    ∧ (mine t).planeLoad = some { pln := f.pln, desc := k.readD f.ds, p := k.readP .m f.p, ncol := f.ncol.toNat, step := step
                                  ring := ring, cc := cc, loc := (k.stream .m).here, wordAddr := (k.stream .m).wordAddr
                                  sync := y, mpc := 0, status := 0
                                  other := (k.stream .m).seqOf (!(k.stream .m).here.side) }
    ∧ mine t = { k with streams := (mine t).streams, fifo := (mine t).fifo, cc := (mine t).cc, w := (mine t).w
                        planeLoad := (mine t).planeLoad }

/-- What a dense command accepts of its tile and planes (R185, R192, R193, R202). -/
def DenseOk (k : Core) (z : BitVec 1) (d : BitVec 256) : Prop :=
  let tl := vget k.z z.toNat Tile.zero
  let t := tileD d
  t.ok = true ∧ tl.tag ≠ .invalid ∧ (tl.mode = .arrival → k.sr.verify = false) ∧ t.tag = tl.tag
    ∧ (vget k.w 0 Plane.zero).tag = tl.btag ∧ (tl.pair = .fp32 → (vget k.w 1 Plane.zero).tag = .fp32) ∧ t.kind = 0
    ∧ (∀ p, k.planeLoad = some p → p.pln ≠ 0 ∧ (tileD p.desc).tag ≠ .fp32 ∧ ¬(tl.pair = .fp32 ∧ tl.tag = .fp32))

/-- The accesses that elements of a row make, as offsets from the row's start (R90). -/
def rowSpansOf (t : TileD) (l : List (Option Nat)) : List (Int × Nat) := l.flatMap fun e => match e with
  | none => []
  | some n => (elemSpans t n).list

/-- The elements of a row from the bytes of its accesses; zero bits for those it does not have (R189, R195). -/
def rowBuilt (t : TileD) : List (Option Nat) → List (List Byte) → List RElem
  | [], _ => []
  | none :: rest, xss => RElem.zero t.tag :: rowBuilt t rest xss
  | some n :: rest, xss =>
    let m := (elemSpans t n).list.length
    (elemSpans t n).build t ((xss.take m).map fun xs => xs.map fun x => (x, none)) :: rowBuilt t rest (xss.drop m)

/-- A row of an array command that can be read where it stands: in a ring, or by accesses that are plain, and no row that is read with it
or ahead of it in a remote window. `xs` are its elements, and `t` is the state that the translations leave. -/
def RowReads (s : State) (d : TileD) (r : RowPlace) (ahead : List RowPlace) (l : List (Option Nat)) (xs : List RElem) (t : State) : Prop :=
  (∀ q ∈ r :: ahead, q.ring = none → isWindow q.at_ = false) ∧ ∃ bytes : List (List Byte),
    (match r.ring with
      | some g =>
        let pas := (rowSpansOf d l).map fun e => g.bytes (r.off + e.1).toNat e.2
        t = s ∧ (∀ l ∈ pas, ∀ pa ∈ l, usable pa = true ∧ flawed s pa = false) ∧ bytes = pas.map fun l => l.map (memGet s.mem)
      | none => ∃ out, Accesses .read s ((rowSpansOf d l).map fun e => (addrAt r.at_ e.1, e.2)) out t ∧ bytes = out.map (·.2))
    ∧ xs = rowBuilt d l bytes

/-- Column `mpc` of a plane load has its row. -/
def ColumnReads (s : State) (p : PlaneLoad) (xs : List RElem) (t : State) : Prop :=
  let d := tileD p.desc
  let row (u : Nat) : RowPlace := rowPlace d p.ring (rowStepOf d p.step) (rowOf p.p + u)
  let l := rowRange d (kofsOf p.p) (planeDepth d.tag)
  let ahead := (unitsAhead p.mpc p.ncol).map row
  RowReads s d (row p.mpc) ahead l xs t ∨ loadRow d (row p.mpc) true l ahead s = .ok xs t

/-- Step `u` of a dense command has its elements `xs` for row `row` of tile `z`: a row of an MSTR, or the positions of a pixel of an
MCONV, of which those outside the image are zero (R195). -/
def StepReads (s : State) (o : MatOp) (u : Nat) (z : BitVec 1) (row : Nat) (xs : List RElem) (t : State) : Prop :=
  let d := tileD o.desc
  (match o.kind with
    | .str z' zrow n =>
      let at_ (u : Nat) : RowPlace := rowPlace d o.ring (rowStepOf d o.step) (rowOf o.p + u)
      z = z' ∧ row = zrow + u
        ∧ RowReads s d (at_ u) ((unitsAhead u n).map at_)
            (rowRange d (kofsOf o.p) (stepDepth (vget (mine s).z z.toNat Tile.zero).pair)) xs t
    | .conv f =>
      let l := pixelElems f d (rowOf o.p + u)
      z = f.z ∧ row = f.zrow.toNat + u ∧ (∀ y, y < d.dim1 → isWindow (addrAt d.base (y * d.s1)) = false)
        ∧ ∃ out, Accesses .read s (l.flatMap fun e => match e with
              | none => []
              | some (y, n) => (elemSpans d n).list.map fun a => (addrAt (addrAt d.base (y * d.s1)) a.1, a.2)) out t
          ∧ xs = rowBuilt d (l.map fun e => e.map (·.2)) (out.map (·.2))
    | _ => False)
  ∨ stepElems o (mine s) u s = .ok (z, row, xs) t

/-- The writes of a drained row in ascending address, each with its bytes (R200). -/
def drainOrder (d : TileD) (c0 : Nat) (bytes : List Byte) : List ((Int × Nat) × List Byte) :=
  (drainWrites (drainSpans d c0) bytes).mergeSort fun a b => a.1.1 ≤ b.1.1

/-- The places where a drained row goes, byte by byte: in a ring, or by accesses that are plain. -/
def DrainPlaces (s : State) (r : RowPlace) (ws : List ((Int × Nat) × List Byte)) (pas : List Nat) (t : State) : Prop :=
  match r.ring with
  | some g => t = s ∧ pas = ws.flatMap (fun e => g.bytes (r.off + e.1.1).toNat e.1.2) ∧ ∀ pa ∈ pas, usable pa = true
  | none => (∃ out, Accesses .write s (ws.map fun e => (addrAt r.at_ e.1.1, e.1.2)) out t ∧ pas = placesOf out)
      ∨ ∃ ps, drainCheck r (ws.map (·.1)) s = .ok ps t ∧ (∀ x ∈ ps, ∃ q : Piece, x = [q] ∧ q.page.cls = 0)
          ∧ pas = ps.flatten.flatMap fun q => (List.range q.n).map (q.page.pa + ·)

end Sys2Proof.Claims

/-- R186: MLEASE waits at issue; the array is granted, 8 cycles after a run's end, to the first asking core after the last holder, and
the MLEASE then retires; MREL gives it up. R187, R188, R191: MCFG sets its tile's tags, mode and anchor; MZERO clears its tile
after its cycles; MSWAP exchanges the planes, after any running MLDS. R291: a waiting cluster takes a free token that stands at it. -/
def Obligations.MatrixStateInstructions : Prop :=
  (∀ (y : Sync) (n1 : BitVec 4) (s : State), (mine s).popReady .m y = true →
    (clusterAt s (clusterOf s.cur.core.val)).holder ≠ some s.cur.core.val →
    ∃ t, exec (.mlease y n1) s = .next t ∧ OnlyCore s t ∧ ((mine s).stopped = false → (mine s).raising = none →
        ((mine s).stream .m).run = .run → askedLease (mine t) = some (n1.toNat + 1))
      ∧ ((mine t).stream .m).op = .mat { MatOp.blank (mine s) y (.lease (n1.toNat + 1)) with started := false }
      ∧ (mine t).fifo = (mine s).fifo ∧ (mine t).g = (mine s).g)
  ∧ (∀ (s : State) (cl i n : Nat) (o : MatOp), cl < 128 → i < 4 → (clusterAt s cl).holder = none →
    8 ≤ (clusterAt s cl).sinceEnd →
    let core (j : Nat) : Nat := 4 * cl + ((clusterAt s cl).last + 1 + j) % 4
    ((coreAt s (core i)).stream .m).op = .mat o → o.kind = .lease n → askedLease (coreAt s (core i)) = some n →
    (∀ j, j < i → askedLease (coreAt s (core j)) = none) →
    ∃ t, exec (.leaseGrant cl) s = .next t ∧ (clusterAt t cl).holder = some (core i) ∧ (clusterAt t cl).left = n
      ∧ ((coreAt t (core i)).stream .m).op = .none
      ∧ Finished .m o.sync none (coreAt s (core i)) (coreAt t (core i))
      ∧ ∀ c, c ≠ core i → coreAt t c = coreAt s c)
  ∧ (∀ (s : State) (cl : Nat), (clusterAt s cl).holder = none → (clusterAt s cl).sinceEnd < 8 →
    exec (.leaseGrant cl) s = .next s)
  ∧ (∀ (y : Sync) (s : State), (mine s).popReady .m y = true →
    ∃ t, exec (.mrel y) s = .next t ∧ (clusterAt t (clusterOf s.cur.core.val)).holder ≠ some s.cur.core.val
      ∧ ((clusterAt s (clusterOf s.cur.core.val)).holder = some s.cur.core.val →
          (clusterAt t (clusterOf s.cur.core.val)).holder = none ∧ (clusterAt t (clusterOf s.cur.core.val)).sinceEnd = 0)
      ∧ (mine t).wantLease = none ∧ RetiredAt y s.cur.len ((mine s).stream .m) ((mine t).stream .m)
      ∧ (mine t).z = (mine s).z ∧ (mine t).w = (mine s).w ∧ (∀ c, c ≠ s.cur.core.val → coreAt t c = coreAt s c))
  ∧ (∀ (y : Sync) (f : McfgF), DoneAtIssue (.mcfg y f) .m y
    (fun s => matrixOperand (Tag.ofCode f.atag.toNat) = true ∧ matrixOperand (Tag.ofCode f.btag.toNat) = true
      ∧ (pairKind (Tag.ofCode f.atag.toNat) (Tag.ofCode f.btag.toNat)).isSome = true ∧ (f.mode = 0 → (mine s).sr.verify = false))
    fun _ k => { k with z := vmod k.z f.z.toNat fun t => { t with
      tag := Tag.ofCode f.atag.toNat, btag := Tag.ofCode f.btag.toNat, anchor := f.anchor
      mode := if f.mode = 0 then .arrival else if f.mode = 1 then .canon else .exact } })
  ∧ (∀ (y : Sync) (z : BitVec 1), IssuesAs (.mzero y z) .m y none (fun _ => True)
    fun s => .mat (MatOp.blank (mine s) y (.zero z 64)))
  ∧ (∀ (s : State) (o : MatOp) (z : BitVec 1), ((mine s).stream .m).op = .mat o → o.kind = .zero z 0 →
    (mine s).stopped = false → (mine s).raising = none → ((mine s).stream .m).run = .run →
    ∃ t, exec .mzeroComplete s = .next t ∧ OnlyCore s t ∧ ((mine t).stream .m).op = .none
      ∧ Finished .m o.sync none (mine s) (mine t)
      ∧ (∀ n, (vget (mine t).z z.toNat Tile.zero).cell n = Cell.zero)
      ∧ (vget (mine t).z z.toNat Tile.zero).tag = (vget (mine s).z z.toNat Tile.zero).tag
      ∧ (vget (mine t).z z.toNat Tile.zero).mode = (vget (mine s).z z.toNat Tile.zero).mode
      ∧ ∀ i, i ≠ z.toNat → vget (mine t).z i Tile.zero = vget (mine s).z i Tile.zero)
  ∧ (∀ (y : Sync), DoneAtIssue (.mswap y) .m y (fun s => (mine s).planeLoad = none)
    fun _ k => { k with w := vset (vset k.w 0 (vget k.w 1 Plane.zero)) 1 (vget k.w 0 Plane.zero) })
  ∧ (∀ (y : Sync) (s : State), (mine s).planeLoad.isSome = true → exec (.mswap y) s = .next s)
  ∧ ∀ (s : State) (cl : Nat), cl < 128 →
    ((clusterAt s cl).waitToken = true → (clusterAt s cl).token = false → (dieAt s (cl / 32)).tokens.contains (cl % 32) = true →
      ∃ t, exec (.powerTokenTake cl) s = .next t ∧ (clusterAt t cl).token = true ∧ (clusterAt t cl).waitToken = false
        ∧ (dieAt t (cl / 32)).tokens.length + 1 = (dieAt s (cl / 32)).tokens.length ∧ t.cores = s.cores)
    ∧ ((clusterAt s cl).token = true → exec (.powerTokenTake cl) s = .next s)

/-- R185, R189, R190, R192 to R196, R199, R203: MLDS hands its plane to the plane-load unit; MSTR, MCONV and MDRN issue with their
copies once the lease, the token, the ring and the planes are ready and the tags agree; without the lease a dense command
raises LEASE. An MSPR with the lease and its token waits for a walk, and issues with one that waits. -/
def Obligations.MatrixInstructionsIssue : Prop :=
  (∀ (y : Sync) (f : MldsF) (s : State), (mine s).popReady .m y = true → (mine s).planeLoad = none →
    PlaneOk ((mine s).readD f.ds) f.pln ((mine s).readP .m f.p) 0 f.ncol.toNat none →
    ∃ t, exec (.mlds y f) s = .next t ∧ PlaneStarts s t y f 0 none none)
  ∧ (∀ (y : Sync) (f : MldsF) (x : LongF) (s : State), (mine s).popReady .m y = true → (mine s).planeLoad = none →
    RingReady s x false → (mine s).ccRoom (ccOf x.ccen x.ccn) = true →
    PlaneOk ((mine s).readD f.ds) f.pln ((mine s).readP .m f.p) x.step f.ncol.toNat (ringOf s x false) →
    ∃ t, exec (.mldsLong y f x) s = .next t ∧ PlaneStarts s t y f x.step (ringOf s x false) (ccOf x.ccen x.ccn))
  ∧ (∀ (y : Sync) (f : MstrF) (x : LongF), IssuesAs (.mstr y f x) .m y (ccOf x.ccen x.ccn)
    (fun s =>
      let p := (mine s).readP .m f.p
      let t := tileD ((mine s).readD f.da)
      let pair := (vget (mine s).z f.z.toNat Tile.zero).pair
      HoldsLease s ∧ TokenOk s (lasts pair f.nrow.toNat) ∧ RingReady s x false ∧ DenseOk (mine s) f.z ((mine s).readD f.da)
        ∧ kofsOk t.tag (kofsOf p) = true
        ∧ RowsOk t (ringOf s x false) (rowStepOf t x.step) (rowOf p) f.nrow.toNat (rowRange t (kofsOf p) (stepDepth pair)))
    fun s => .mat { MatOp.blank (mine s) y (.str f.z f.zrow.toNat f.nrow.toNat) with
      desc := (mine s).readD f.da, p := (mine s).readP .m f.p, step := x.step, ring := ringOf s x false
      cc := ccOf x.ccen x.ccn })
  ∧ (∀ (y : Sync) (f : MconvF), IssuesAs (.mconv y f) .m y (ccOf f.ccen f.ccn)
    (fun s =>
      let t := tileD ((mine s).readD f.da)
      let pair := (vget (mine s).z f.z.toNat Tile.zero).pair
      HoldsLease s ∧ TokenOk s (lasts pair f.npix.toNat) ∧ DenseOk (mine s) f.z ((mine s).readD f.da)
        ∧ (f.kh1.toNat + 1) * (f.kw1.toNat + 1) * f.ch.toNat ≤ stepDepth pair ∧ kofsOk t.tag f.ch.toNat = true)
    fun s => .mat { MatOp.blank (mine s) y (.conv f) with
      desc := (mine s).readD f.da, p := (mine s).readP .m f.p, cc := ccOf f.ccen f.ccn })
  ∧ (∀ (y : Sync) (f : MstrF) (x : LongF) (s : State), (mine s).popReady .m y = true → x.cben = false → x.ccen = false →
    (mine s).planeLoad = none → (mine s).wantLease = none →
    (clusterAt s (clusterOf s.cur.core.val)).holder ≠ some s.cur.core.val →
    ∃ t, exec (.mstr y f x) s = .next (raise t s.cur.core.val .m ⟨.lease, 0, 0, 0⟩) ∧ (mine t).z = (mine s).z ∧ t.mem = s.mem)
  ∧ (∀ (y : Sync) (f : MdrnF), IssuesAs (.mdrn y f) .m y none
    (fun s => DescOk ((mine s).readD f.ds) ∧ drainTag (tileD ((mine s).readD f.ds)).tag = true
      ∧ (vget (mine s).z f.z.toNat Tile.zero).tag ≠ .invalid ∧ (tileD ((mine s).readD f.ds)).kind = 0)
    fun s => .mat { MatOp.blank (mine s) y (.drn f.z f.zrow.toNat f.nrow.toNat f.rnd) with
      desc := (mine s).readD f.ds, p := (mine s).readP .m f.p })
  ∧ (∀ (y : Sync) (f : MdrnF) (x : LongF), IssuesAs (.mdrnLong y f x) .m y (ccOf x.ccen x.ccn)
    (fun s =>
      let p := (mine s).readP .m f.p
      let t := tileD ((mine s).readD f.ds)
      DescOk ((mine s).readD f.ds) ∧ drainTag t.tag = true ∧ (vget (mine s).z f.z.toNat Tile.zero).tag ≠ .invalid ∧ t.kind = 0
        ∧ (mine s).fusedNow = false ∧ RingReady s x true
        ∧ ∀ g, ringOf s x true = some g → f.nrow.toNat ≠ 0 → ∀ e ∈ drainSpans t (kofsOf p),
            g.holds (rowOf p * rowStepOf t x.step + e.1) e.2 = true
            ∧ g.holds ((rowOf p + f.nrow.toNat - 1 : Nat) * rowStepOf t x.step + e.1) e.2 = true)
    fun s => .mat { MatOp.blank (mine s) y (.drn f.z f.zrow.toNat f.nrow.toNat f.rnd) with
      desc := (mine s).readD f.ds, p := (mine s).readP .m f.p, step := x.step, ring := ringOf s x true
      cc := ccOf x.ccen x.ccn })
  ∧ ∀ (y : Sync) (f : MsprF) (s : State), (mine s).popReady .m y = true → (mine s).ccRoom (ccOf f.ccen f.ccn) = true →
    HoldsLease s → TokenOk s 65 →
    let o : MatOp := { MatOp.blank (mine s) y (.spr f.z) with started := false, cc := ccOf f.ccen f.ccn }
    (((mine s).stream .w).op = .none → ∃ t, exec (.mspr y f) s = .next t ∧ OnlyCore s t ∧ ((mine t).stream .m).op = .mat o
      ∧ (mine t).flow = (mine s).flow ∧ (mine t).fifo = (mine s).fifo)
    ∧ ∀ w, ((mine s).stream .w).op = .walk w → MayMeet (mine s) w o f.z → ∃ t, exec (.mspr y f) s = .next t ∧ Met s t w o

/-- R189, R190: the plane-load unit puts a row's elements, expanded, into its column and no other. R193, R195: a row step of a dense
command adds to each of the 256 cells of its tile row the addends of that column, and to no other cell; after its last step the
command retires and gives its token back. R199, R200: a row of an MDRN writes each cell of the row, converted with saturation,
at its column's place, changes no other byte, and sets STAT.SAT when one saturated; a poisoned cell raises POISON and writes
nothing; once its writes have landed the MDRN retires. -/
def Obligations.PlanesStepsAndDrains : Prop :=
  (∀ (s s1 : State) (p : PlaneLoad) (xs : List RElem), (mine s).planeLoad = some p → (mine s).stopped = false →
    (mine s).raising = none → ((mine s).stream .m).run = .run → p.mpc < p.ncol → p.mpc < 256 →
    let t := tileD p.desc
    ColumnReads s p xs s1 →
    ∃ u, exec .mldsColumn s = .next u ∧ u.mem = s1.mem
      ∧ (mine u).planeLoad = (if p.mpc + 1 = p.ncol then none else some { p with mpc := p.mpc + 1 })
      ∧ (p.mpc + 1 = p.ncol → Finished .m p.sync p.cc (mine s) (mine u))
      ∧ (∀ n j, j < 256 → j ≠ p.mpc → (vget (mine u).w p.pln.toNat Plane.zero).entry n j
          = (vget (mine s).w p.pln.toNat Plane.zero).entry n j)
      ∧ (pairKind t.tag t.tag = some .float → ∀ n, n < 128 → (vget (mine u).w p.pln.toNat Plane.zero).entry n p.mpc
          = expandE8m10 t.tag (xs.getD n (RElem.zero t.tag)).bits (xs.getD n (RElem.zero t.tag)).scale % 2 ^ 19)
      ∧ (t.tag = .fp32 → p.pln = 0 → ∀ n, n < 128 →
          (vget (mine u).w 0 Plane.zero).entry n p.mpc = splitHi (xs.getD n (RElem.zero .fp32)).bits % 2 ^ 19
          ∧ (vget (mine u).w 1 Plane.zero).entry n p.mpc = splitLo (xs.getD n (RElem.zero .fp32)).bits % 2 ^ 19)
      ∧ (mine u).z = (mine s).z)
  ∧ (∀ (s s1 : State) (o : MatOp) (n u row : Nat) (z : BitVec 1) (xs : List RElem), ((mine s).stream .m).op = .mat o →
    denseCount o.kind = some n → (mine s).stopped = false → (mine s).raising = none → ((mine s).stream .m).run = .run →
    ((mine s).stream .m).mpc.toNat = u → u < n → StepReads s o u z row xs s1 → (∀ x ∈ xs, x.flaw = none) →
    let tl := vget (mine s1).z z.toNat Tile.zero
    let w0 := vget (mine s1).w 0 Plane.zero
    let w1 := vget (mine s1).w 1 Plane.zero
    ∃ t, exec .rowStep s = .next t ∧ t.mem = s1.mem ∧ ((mine t).stream .m).mpc = ((mine s1).stream .m).mpc + 1
      ∧ ((mine t).stream .m).op = ((mine s1).stream .m).op
      ∧ (∀ j, j < 256 → (vget (mine t).z z.toNat Tile.zero).cell (256 * row + j)
          = (stepAddends tl w0 w1 xs j).foldl (fun c v => applyAddend tl.mode tl.pair tl.anchor v c) (tl.cell (256 * row + j)))
      ∧ (∀ i, (i < 256 * row ∨ 256 * row + 256 ≤ i) → (vget (mine t).z z.toNat Tile.zero).cell i = tl.cell i)
      ∧ (mine t).w = (mine s1).w)
  ∧ (∀ (s : State) (o : MatOp) (n : Nat), ((mine s).stream .m).op = .mat o → denseCount o.kind = some n →
    (mine s).stopped = false → (mine s).raising = none → ((mine s).stream .m).run = .run → n ≤ ((mine s).stream .m).mpc.toNat →
    ∃ t, exec .arrayCommandComplete s = .next t ∧ ((mine t).stream .m).op = .none ∧ (mine t).z = (mine s).z
      ∧ Finished .m o.sync o.cc (mine s) (mine t) ∧ (clusterAt t (clusterOf s.cur.core.val)).token = false)
  ∧ (∀ (s : State) (o : MatOp) (z : BitVec 1) (zrow n u : Nat) (rnd : BitVec 2), ((mine s).stream .m).op = .mat o →
    o.kind = .drn z zrow n rnd → o.landing = false → (mine s).stopped = false → (mine s).raising = none →
    ((mine s).stream .m).run = .run → ((mine s).stream .m).mpc.toNat = u →
    let t := tileD o.desc
    let tl := vget (mine s).z z.toNat Tile.zero
    let c0 := kofsOf o.p
    let r := rowPlace t o.ring (rowStepOf t o.step) (rowOf o.p + u)
    (n ≤ u → ∃ x, exec .mdrnRow s = .next x ∧ OnlyCore s x ∧ ((mine x).stream .m).op = .mat { o with landing := true })
    ∧ (u < n → (∃ j, j < 256 ∧ (tl.cell (256 * (zrow + u) + j)).poi = true) →
        ∃ a, exec .mdrnRow s = .next (raise s s.cur.core.val .m ⟨.poison, 0, a, 0⟩))
    ∧ ∀ (s1 : State) (pas : List Nat), u < n → MemOk s → o.fwd = none → drainAligned t c0 = true →
        (∀ j, j < 256 → (tl.cell (256 * (zrow + u) + j)).poi = false) →
        let cell (j : Nat) := roundTag t.tag (Rnd.ofCode rnd)
          ((⟨Rnd.ofCode rnd, o.seed, drawIndex .m o.loc.seq⟩ : Rounding).draw (256 * (zrow + u) + j)) true
          (drainVal tl.mode tl.pair tl.anchor (tl.cell (256 * (zrow + u) + j)))
        let ws := drainOrder t c0 (drainBytes t ((List.range (drainCols t c0)).map fun j => (cell j).1))
        DrainPlaces s r ws pas s1 →
        ∃ x, exec .mdrnRow s = .next x ∧ (mine x).z = (mine s).z
          ∧ (∀ a, a ∉ pas → memGet x.mem a = memGet s1.mem a)
          ∧ (pas.Nodup → ∀ i, i < pas.length → memGet x.mem (pas.getD i 0) = (ws.flatMap (·.2)).getD i 0)
          ∧ ((mine x).stream .m).mpc = ((mine s).stream .m).mpc + 1
          ∧ (mine x).sr.sat = ((mine s).sr.sat || (List.range (drainCols t c0)).any fun j => (cell j).2))
  ∧ ∀ (s : State) (o : MatOp), ((mine s).stream .m).op = .mat o → o.landing = true → (mine s).raising = none →
    (∀ w ∈ s.rstores, w.core ≠ s.cur.core.val) → (∀ b ∈ s.bstores, b.core ≠ s.cur.core.val) →
    remoteWritesOut s s.cur.core.val .m = false →
    ∃ t, exec .mdrnWritesLanded s = .next t ∧ OnlyCore s t ∧ ((mine t).stream .m).op = .none
      ∧ Finished .m o.sync o.cc (mine s) (mine t) ∧ (mine t).z = (mine s).z
namespace Sys2Proof.Claims

/-! The copy stream. -/

/-- Word 3 of R207 as the ring word of R149. -/
def ringWord (f : KF) : LongF := ⟨0, f.cben, f.cbh, f.wait, f.ccen, f.ccn⟩

/-- The transfer that an issuing copy instruction makes (R205, R207, R217). -/
def transferOf (s : State) (kind : KKind) (y : Sync) (f : KF) : CopyOp :=
  newCopy (mine s) kind y f (ringOf s (ringWord f) f.cbside)

/-- Chain `i` after the start of a transfer: set where CKOP starts it and the transfer feeds it, else as it was (R224 to
R226). -/
def ChainStarted (f : KF) (i : Nat) (k k' : Core) : Prop :=
  if f.ckop.getLsbD 0 = true ∧ f.ckm ≠ 0 ∧ (f.cksel = 2 ∨ f.cksel.toNat = i) then
    vget k'.k (2 * i) 0 = (if f.ckm = 1 then 0xFFFFFFFF else 0) ∧ vget k'.k (2 * i + 1) 0 = 0
  else vget k'.k (2 * i) 0 = vget k.k (2 * i) 0 ∧ vget k'.k (2 * i + 1) 0 = vget k.k (2 * i + 1) 0

/-- The copy instruction has issued as the transfer `o`: the stream is past it with MPC 0, its chains are started, its counter is
up by one, its token is gone, and nothing else of the core changes (R205). -/
def CopyStarted (s t : State) (y : Sync) (f : KF) (o : CopyOp) : Prop :=
  mine t = { mine s with streams := (mine t).streams, fifo := (mine t).fifo, cc := (mine t).cc, k := (mine t).k }
    ∧ (∀ u, u ≠ .k → (mine t).stream u = (mine s).stream u) ∧ (∀ c, c ≠ s.cur.core.val → coreAt t c = coreAt s c)
    ∧ (∀ g, g < 20 → (mine t).tokens g = (mine s).tokens g - if y.pop ∧ g = popFifo .k y then 1 else 0)
    ∧ (mine t).cc = ((mine s).ccUp (ccOf f.ccen f.ccn)).cc
    ∧ (mine t).stream .k = { ((mine s).stream .k).step s.cur.len with op := .copy o, mpc := 0 }
    ∧ ChainStarted f 0 (mine s) (mine t) ∧ ChainStarted f 1 (mine s) (mine t)

/-- The token, the slots and the counter that a copy instruction waits for at issue are there (R205, R217). -/
def CopyReady (s : State) (y : Sync) (f : KF) : Prop :=
  (mine s).popReady .k y = true ∧ (mine s).ccRoom (ccOf f.ccen f.ccn) = true ∧ RingReady s (ringWord f) f.cbside

/-- A named descriptor passes: its fields, its KIND, and a local BASE where the instruction asks for one (R27, R208, R294). -/
def SideOk (d : BitVec 256) (compressed free : Bool) : Prop :=
  (tileD d).fieldsOk = true ∧ ((tileD d).kind ≠ 0 ↔ compressed = true) ∧ (free = true ∨ isWindow (tileD d).base = false)

/-- The descriptors that the instruction names, of which not both are in remote windows; a ring side has no BASE (R208, R217, R294). -/
def NamedOk (o : CopyOp) : Prop :=
  (o.kind.usesS = true → SideOk o.descS (o.kind == .dec) (o.kind.remote || o.ringS.isSome))
    ∧ (o.kind.usesD = true → SideOk o.descD (o.kind == .enc) (o.kind.remote || o.ringD.isSome))
    ∧ (o.kind = .gath ∨ o.kind = .scat → SideOk o.descI false false ∧ (tileD o.descI).ok = true)
    ∧ ¬(o.kind.usesS = true ∧ o.kind.usesD = true ∧ o.ringS = none ∧ o.ringD = none
        ∧ isWindow (tileD o.descS).base = true ∧ isWindow (tileD o.descD).base = true)

/-- The tags (R90, R210, R212, R214, R215, R218, R219). -/
def TagsOk (o : CopyOp) : Prop :=
  (o.kind.tagged = true →
    (o.kind.usesS = true → o.ts ≠ .invalid) ∧ (o.kind.usesD = true → o.td ≠ .invalid)
      ∧ (o.kind.usesS = true → o.kind.usesD = true → o.ts ≠ o.td →
          o.td.isScaled = false ∧ o.ts ≠ .index16 ∧ o.ts ≠ .index32 ∧ o.td ≠ .index16 ∧ o.td ≠ .index32
            ∧ (o.kind = .copy → o.ts.isScaled = false))
      ∧ (o.kind = .fill → o.td.isScaled = false) ∧ (o.kind = .dec → o.td.isMx = false)
      ∧ (o.kind = .enc → kindAccepts o.dst.kind o.td = true))
    ∧ (o.kind = .gath ∨ o.kind = .scat → (tileD o.descI).tag ∈ [Tag.index16, .index32, .int32, .int64])
    ∧ ((o.kind.tagged = true ∨ o.kind = .pf) → o.kind ≠ .copy →
        (o.kind.usesS = true → o.kind ≠ .dec → blocksWhole o.ts o.src.dim0 = true)
          ∧ (o.kind.usesD = true → o.kind ≠ .enc → blocksWhole o.td o.dst.dim0 = true))

/-- Rows and columns lie in their tiles, converted chunks make whole bytes, and a compare has both chains (R211, R212, R214, R215, R219,
R224). -/
def RangesOk (o : CopyOp) : Prop :=
  (o.f.ckop.getLsbD 1 = true → o.f.cksel = 2 ∧ o.raw = true)
    ∧ (o.kind ∈ [KKind.two, .gath, .scat] →
        rangeOk o.src (o.kind == .gath) o.count o.rs o.cs o.nel o.dst.dim0 = true
          ∧ rangeOk o.dst (o.kind == .scat) o.count o.rd o.cd o.nel o.src.dim0 = true)
    ∧ (o.kind = .fill → o.cd ≤ o.dst.dim0 ∧ rangeOk o.dst false o.count o.rd o.cd o.nel o.nel = true)
    ∧ (o.kind = .copy → o.raw = false →
        o.bytes * 8 % o.ts.width = 0 ∧ (o.ts.width = 6 → o.bytes % 3 = 0)
          ∧ o.bytes * 8 / o.ts.width * o.td.width % (if o.td.width = 6 then 24 else 8) = 0)
    ∧ (o.kind = .dec → (o.count = 0 ∨ o.rs + o.count ≤ o.src.nblk) ∧ (o.td = .qn4 → o.cd % 64 = 0))

/-- Every byte of these spans of a ring side lies in the slots awaited (R217). -/
def HeldIn (t : TileD) (l : List (Int × Nat)) : Prop := ∀ r, t.ring = some r → ∀ e ∈ l, r.holds e.1 e.2 = true

/-- The first and the last of `count` rows do. -/
def RowsHeldIn (t : TileD) (r c n count : Nat) : Prop :=
  count = 0 ∨ n = 0 ∨ HeldIn t (rowSpans t r c n ++ rowSpans t ((r + count - 1 : Nat) : Int) c n)

/-- Every byte of a ring side that the fields fix lies in the slots awaited (R217). -/
def RingsOk (o : CopyOp) : Prop :=
  match o.kind with
  | .copy => o.count = 0 ∨ o.bytes = 0
      ∨ (HeldIn o.src [(o.offS 0, o.bytes), (o.offS (o.count - 1), o.bytes)]
          ∧ HeldIn o.dst [(o.offD 0, o.outBytes), (o.offD (o.count - 1), o.outBytes)])
  | .two => RowsHeldIn o.src o.rs o.cs o.nel o.count ∧ RowsHeldIn o.dst o.rd o.cd o.nel o.count
  | .gath => RowsHeldIn o.dst o.rd o.cd o.nel o.count
  | .scat => RowsHeldIn o.src o.rs o.cs o.nel o.count
  | .fill => RowsHeldIn o.dst o.rd o.cd o.nel o.count
  | .enc => RowsHeldIn o.src o.rs o.cs o.dst.dim0 o.dst.dim1 ∧ HeldIn o.dst [(0, 32 + 4 * o.dst.nblk)]
  | .dec => o.count = 0 ∨ (HeldIn o.src [(0, 32), ((32 + 4 * o.rs : Nat), 4 * o.count)]
      ∧ ∀ n, n < o.count → let e := o.src.extent (o.rs + n)
          RowsHeldIn o.dst (o.rd + e.row0) (o.cd + e.col0) e.ncols e.nrows)
  | _ => True

/-- The checks at issue let the transfer pass. -/
def CopyOk (o : CopyOp) : Prop := NamedOk o ∧ TagsOk o ∧ RangesOk o ∧ RingsOk o

/-- A copy instruction of this kind issues when its checks pass, and a check that fails raises its cause. -/
def CopyIssues (i : Instr) (kind : KKind) (y : Sync) (f : KF) : Prop :=
  ∀ s : State, CopyReady s y f →
    (CopyOk (transferOf s kind y f) →
      ∃ t, exec i s = .next t ∧ OnlyCore s t ∧ CopyStarted s t y f (transferOf s kind y f))
    ∧ ∀ e, copyChecks (transferOf s kind y f) s = .error (.exc e) s →
      ∃ t, exec i s = .next (raise t s.cur.core.val .k e) ∧ OnlyCore s t
        ∧ mine t = (mine s).modStream .k fun x => { x with mpc := 0 }

end Sys2Proof.Claims

/-- R205, R207 to R212, R214, R215, R217, R219, R224: each copy instruction issues once its token, its slots and its counter are there and
its checks pass, copying its descriptors, parameters and SEED, starting the chains it feeds, and counting in its counter; a
check that fails raises its cause instead. R208 to R219: what the checks let pass. R302, R307: a KIMG also reads its normalisation
block and enters its die's queue. -/
def Obligations.CopyInstructionsIssue : Prop :=
  (∀ (y : Sync) (f : KF), CopyIssues (.kcopy y f) .copy y f ∧ CopyIssues (.k2d y f) .two y f ∧ CopyIssues (.kgath y f) .gath y f
    ∧ CopyIssues (.kscat y f) .scat y f ∧ CopyIssues (.kfill y f) .fill y f ∧ CopyIssues (.kpf y f) .pf y f
    ∧ CopyIssues (.kenc y f) .enc y f ∧ CopyIssues (.kdec y f) .dec y f ∧ CopyIssues (.ktab y f) .tab y f
    ∧ CopyIssues (.kview y f) .view y f)
  ∧ (∀ (s : State) (o : CopyOp), copyChecks o s = .ok () s ↔ CopyOk o)
  ∧ (∀ (s : State) (kind : KKind) (y : Sync) (f : KF), let o := transferOf s kind y f
    o.descS = (mine s).readD f.ds ∧ o.descD = (mine s).readD f.dd ∧ o.seed = (mine s).sr.seed ∧ o.unit = 0 ∧ o.finished = false
      ∧ (∀ i, i < 4 → f.p.toNat + i < 16 → o.par i = (mine s).readP .k (f.p + BitVec.ofNat 4 i))
      ∧ o.ts = (if f.sfmt = 0 then (tileD ((mine s).readD f.ds)).tag else Tag.ofCode f.sfmt.toNat)
      ∧ o.td = (if f.dfmt = 0 then (tileD ((mine s).readD f.dd)).tag else Tag.ofCode f.dfmt.toNat))
  ∧ ∀ (s : State) (y : Sync) (f : KF), CopyReady s y f → f.cben = false →
    let o := transferOf s .img y f
    let queued (t : State) : Prop := (dieAt t (dieOf s.cur.core.val)).kimgQueue.Perm
      ((dieAt s (dieOf s.cur.core.val)).kimgQueue ++ [((dieAt s (dieOf s.cur.core.val)).cyc.toNat, s.cur.core.val)])
    CopyOk o → imgCode (BitVec.ofNat 5 o.td.code) = true →
    (o.td = .int1 → f.w2.getLsbD 15 = true →
      ∃ t, exec (.kimg y f) s = .next t ∧ CopyStarted s t y f { o with held := [] } ∧ queued t)
    ∧ ∀ (xs : List Byte) (mem : List Host.Cell), ¬(o.td = .int1 ∧ f.w2.getLsbD 15 = true) → (o.par 3).toNat % 8 = 0 →
      Reads s (o.par 3) 24 xs mem →
      ∃ t, exec (.kimg y f) s = .next t ∧ ((mine t).stream .k).op = .copy { o with held := xs } ∧ ((mine t).stream .k).mpc = 0
        ∧ queued t ∧ t.mem = mem ∧ (mine t).cc = ((mine s).ccUp (ccOf f.ccen f.ccn)).cc

namespace Sys2Proof.Claims

/-- The copy engine is to begin a unit of `o` (R205), and no error strikes its staging buffer (R422). -/
def UnitBegins (s : State) (o : CopyOp) : Prop :=
  ((mine s).stream .k).op = .copy o ∧ (mine s).stopped = false ∧ (mine s).raising = none ∧ ((mine s).stream .k).run = .run
    ∧ o.finished = false ∧ o.unit < o.units
    ∧ (∀ c i x, SoftError.staging c i x ∈ s.soft → c ≠ s.cur.core.val) ∧ remoteWritesOut s s.cur.core.val .k = false

/-- The state in which the unit's work begins: the chains are kept. -/
def atUnit (s : State) (o : CopyOp) : State :=
  setCore s s.cur.core.val (setCopy { o with chains := (mine s).k.toList } (mine s))

/-- The unit is complete: the transfer stands at the next one, the MPC counts it, and the chains have been fed the bytes read
and the bytes written (R205, R224). -/
def UnitEnds (s t : State) (o : CopyOp) (read written : List Byte) : Prop :=
  (mine t).k = (feedChain o.f 1 written (feedChain o.f 0 read (mine s))).k
    ∧ ((mine t).stream .k).mpc = BitVec.ofNat 32 (o.unit + 1)
    ∧ ((mine t).stream .k).op = .copy { o with
        chains := (mine s).k.toList, unit := o.unit + 1, finished := decide (o.unit + 1 = o.units) && o.kind != .enc && o.kind != .img }
    ∧ (∀ u, u ≠ .k → (mine t).stream u = (mine s).stream u) ∧ (mine t).g = (mine s).g ∧ (mine t).cc = (mine s).cc

/-- A read of `n` bytes at a local address: one plain access, or, whatever the pages, one that succeeds. -/
def ReadOk (s : State) (a : Dword) (n : Nat) (xs : List Byte) (t : State) : Prop :=
  (∃ pa, Accesses .read s [(a, n)] [(pa, xs)] t) ∨ (isWindow a = false ∧ memLoad s.cur.core.val a n s = .ok xs t)

/-- A write of `n` bytes at a local address passes its checks: one plain access to physical address `pa`, or one piece of a PLAIN page. -/
def WriteOk (s : State) (a : Dword) (n pa : Nat) (t : State) : Prop :=
  (∃ xs, Accesses .write s [(a, n)] [(pa, xs)] t)
    ∨ (isWindow a = false ∧ ∃ q : Piece, check s.cur.core.val .write a n s = .ok [q] t ∧ q.n = n ∧ q.page.cls = 0 ∧ q.page.pa = pa)

/-- A read at `a` of `n` bytes and then a write at `b` of `m` bytes pass their checks, on local addresses. -/
def Moves (s0 s2 : State) (a : Dword) (n : Nat) (xs : List Byte) (b : Dword) (m pa : Nat) : Prop :=
  ∃ s1, ReadOk s0 a n xs s1 ∧ xs.length = n ∧ WriteOk s1 b m pa s2

/-- The bytes `ys` stand in memory at `pa`, and every other byte is as `s2` has it. -/
def Wrote (s2 t : State) (pa : Nat) (ys : List Byte) : Prop :=
  memRead t.mem pa ys.length = ys ∧ ∀ x, x < pa ∨ pa + ys.length ≤ x → memGet t.mem x = memGet s2.mem x

/-- The copy engine has no pass yet of the view `o` (R221). -/
def ViewBegins (s : State) (o : CopyOp) : Prop :=
  ((mine s).stream .k).op = .copy o ∧ o.kind = .view ∧ (mine s).stopped = false ∧ (mine s).raising = none
    ∧ ((mine s).stream .k).run = .run ∧ o.unit < o.units ∧ o.placed = none

/-- The copy engine works on the KIMG `o`, which has its page decoder (R302). -/
def PageBegins (s : State) (o : CopyOp) : Prop :=
  ((mine s).stream .k).op = .copy o ∧ o.kind = .img ∧ o.finished = false ∧ (mine s).stopped = false ∧ (mine s).raising = none
    ∧ ((mine s).stream .k).run = .run
    ∧ (vget s.dies (dieOf s.cur.core.val) Die.reset).decoders.contains (some s.cur.core.val) = true

/-- A tile whose rows hold whole-byte elements one behind the other. -/
def PlainRows (t : TileD) : Prop :=
  t.kind = 0 ∧ t.ring = none ∧ t.tag.isScaled = false ∧ t.tag.width ∈ [8, 16, 32, 64] ∧ t.s0 = ((t.tag.width / 8 : Nat) : Int)

/-- The address of element `c` of row `r` of such a tile. -/
def rowAddr (t : TileD) (r : Int) (c : Nat) : Dword := addrAt t.base (r * t.s1 + ((c * (t.tag.width / 8) : Nat) : Int))

end Sys2Proof.Claims

/-- R205, R212, R213, R215, R216, R224: a unit of a raw KCOPY copies its chunk, one of a raw K2D its row, and one of a KFILL puts its
pattern into each element; no other byte changes, the chains are fed what was read and written, and the MPC counts the unit. R214: an index out of
range raises INDEX before the unit writes. R216: a KPF unit stores nothing. R227: once its last write has landed, a transfer compares and writes out its
chains, and retires, its counter going down; a mismatch raises CHECKSUM. R220: a KTAB's table takes effect at completion. -/
def Obligations.CopyUnitsMoveBytesAndComplete : Prop :=
  (∀ (s s2 : State) (o : CopyOp) (xs : List Byte) (pa : Nat), MemOk s → UnitBegins s o → o.kind = .copy → o.raw = true →
    o.ringS = none → o.ringD = none →
    let j := o.unit / o.per
    let lo := o.unit % o.per * 256
    let n := min 256 (o.bytes - lo)
    Moves (atUnit s o) s2 (addrAt o.src.base (o.offS j + (lo : Int))) n xs (addrAt o.dst.base (o.offD j + (lo : Int))) n pa →
    ∃ t, exec .copyUnit s = .next t ∧ Wrote s2 t pa xs ∧ UnitEnds s t o xs xs)
  ∧ (∀ (s s2 : State) (o : CopyOp) (xs : List Byte) (pa : Nat), MemOk s → UnitBegins s o → o.kind = .two → o.raw = true →
    PlainRows o.src → PlainRows o.dst → o.src.tag = o.ts → o.dst.tag = o.td → 0 < o.nel →
    let n := o.nel * (o.td.width / 8)
    Moves (atUnit s o) s2 (rowAddr o.src (o.rs + o.unit : Nat) o.cs) n xs (rowAddr o.dst (o.rd + o.unit : Nat) o.cd) n pa →
    ∃ t, exec .copyUnit s = .next t ∧ Wrote s2 t pa xs ∧ UnitEnds s t o xs xs)
  ∧ (∀ (s s2 : State) (o : CopyOp) (pa : Nat), MemOk s → UnitBegins s o → o.kind = .fill → PlainRows o.dst → o.dst.tag = o.td →
    o.f.ckm = 0 → 0 < o.nel →
    let n := o.nel * (o.td.width / 8)
    WriteOk (atUnit s o) (rowAddr o.dst (o.rd + o.unit : Nat) o.cd) n pa s2 →
    let x : Nat := if o.td = .int64 then (o.f.w2.signExtend 64).toNat
      else if o.td = .e8m10 then o.f.w2.toNat % 2 ^ 19 else o.f.w2.toNat % 2 ^ o.td.width
    ∃ t, exec .copyUnit s = .next t ∧ Wrote s2 t pa (List.replicate o.nel (leBytes (o.td.width / 8) x)).flatten ∧ UnitEnds s t o [] [])
  ∧ (∀ (s s1 : State) (o : CopyOp) (xs : List Byte), UnitBegins s o → o.kind = .gath → (tileD o.descI).tag = .int32 →
    (tileD o.descI).kind = 0 → (tileD o.descI).s0 = 4 →
    let a := addrAt (tileD o.descI).base ((4 * ((o.par 2).toNat % 2 ^ 32 + o.unit) : Nat) : Int)
    ReadOk (atUnit s o) a 4 xs s1 →
    let row := (o.rs : Int) + (BitVec.ofNat 32 (leValue xs)).toInt
    (row < 0 ∨ (o.src.dim1 : Int) ≤ row) → exec .copyUnit s = .next (raise s1 s.cur.core.val .k ⟨.index, 0, a, 0⟩))
  ∧ (∀ (s : State) (o : CopyOp), UnitBegins s o → o.kind = .pf → ∃ t, exec .copyUnit s = .next t ∧ t.pending = s.pending
    ∧ t.bstores = s.bstores ∧ t.rstores = s.rstores ∧ (mine t).k = (mine s).k
    ∧ ((mine t).stream .k).mpc = BitVec.ofNat 32 (o.unit + 1))
  ∧ (∀ (s : State) (o : CopyOp), ((mine s).stream .k).op = .copy o → (mine s).stopped = false → (mine s).raising = none →
    ((mine s).stream .k).run = .run → o.finished = true → copyLanded s s.cur.core.val = true →
    let same := vget (mine s).k 0 0 = vget (mine s).k 2 0 ∧ vget (mine s).k 1 0 = vget (mine s).k 3 0
    ((o.compared = true ∧ o.mismatch = false) ∨ (o.f.ckw = false ∧ o.compared = false ∧ (o.f.ckop.getLsbD 1 = false ∨ same)) →
      ∃ t, exec .transferComplete s = .next t ∧ ((mine t).stream .k).op = .none ∧ t.mem = s.mem
        ∧ Finished .k o.sync (ccOf o.f.ccen o.f.ccn) (mine s) (mine t) ∧ (mine t).k = (mine s).k
        ∧ t.huff = (if o.kind = .tab then vset s.huff (o.f.w2.toNat / 2 ^ 28) (tableOf o.held) else s.huff))
    ∧ ((o.compared = true ∧ o.mismatch = true) ∨ (o.f.ckw = false ∧ o.compared = false ∧ o.f.ckop.getLsbD 1 = true ∧ ¬same) →
      ∃ t, exec .transferComplete s = .next (raise t s.cur.core.val .k ⟨.checksum, 0, o.dst.base + o.par 1, 0⟩)
        ∧ ((mine t).stream .k).op = .copy { o with compared := true, mismatch := false } ∧ t.mem = s.mem ∧ (mine t).k = (mine s).k)
    ∧ ∀ (s1 : State) (pa : Nat), MemOk s → o.f.ckw = true → o.compared = false → o.p15.toNat % 8 = 0 →
        (o.f.ckop.getLsbD 1 = false ∨ same) → WriteOk s o.p15 32 pa s1 →
        ∃ t, exec .transferComplete s = .next t ∧ ((mine t).stream .k).op = .none
          ∧ Wrote s1 t pa ((List.range 4).flatMap fun i => leBytes 8 (vget (mine s).k i 0).toNat))
  ∧ ∀ (s : State) (o : CopyOp), ((mine s).stream .k).op = .copy o → o.finished = true →
    (∃ r ∈ s.fabric.waiting, r.core = s.cur.core.val ∧ r.st = .k ∧ r.kind = .write) → exec .transferComplete s = .next s

/-- R221, R258: a pass of a KVIEW reads every range of its list, keeps its bytes by destination, and notes every bundle met with the newest version seen, taken when it is decided and the one before
it, with FRACT, when it is not, and keeps each entry's current bytes where no bundled line is newer. R302: a page decoder takes the
queue's first KIMG. R223, R305, R306: a page is decoded, its scale is the largest whose patches stay within BUDGET, and the record's header is
written last, after which the decoder is free. -/
def Obligations.ViewsAndPages : Prop :=
  (∀ (s s1 : State) (o : CopyOp) (rs : List (Dword × Nat × Nat)) (out : List (Nat × List Byte)), ViewBegins s o →
    rs.length = o.count →
    (∀ r ∈ rs, r.1.toNat % 16 = 0 ∧ r.2.1 % 16 = 0 ∧ r.2.2 % 16 = 0 ∧ r.2.1 < 2 ^ 32 ∧ r.2.2 < 2 ^ 32) →
    Accesses .read s ((List.range o.count).flatMap fun i =>
      [(o.src.base + o.par 0 + BitVec.ofNat 64 (16 * i), 16), ((rs.getD i (0, 0, 0)).1, (rs.getD i (0, 0, 0)).2.1)]) out s1 →
    (∀ i, i < o.count → (out.getD (2 * i) (0, [])).2
      = leBytes 8 (rs.getD i (0, 0, 0)).1.toNat ++ leBytes 4 (rs.getD i (0, 0, 0)).2.1 ++ leBytes 4 (rs.getD i (0, 0, 0)).2.2) →
    (∀ e, kget s.tags e = none) →
    ∃ t o', exec .kviewPass s = .next t ∧ t.mem = s1.mem ∧ ((mine t).stream .k).op = .copy o' ∧ o'.views = []
      ∧ o'.placed = some ((List.range o.count).map fun i =>
          (o.dst.base + o.par 1 + BitVec.ofNat 64 (rs.getD i (0, 0, 0)).2.2, (out.getD (2 * i + 1) (0, [])).2)))
  ∧ (∀ (s s1 : State) (o : CopyOp) (es : List (Dword × List ViewPart)), ViewBegins s o →
    readEntries s.far o o.count s = .ok es s1 →
    let parts := es.flatMap (·.2)
    let bundles := ((parts.filter fun p => p.tag.kind == 1).map (·.tag.bid)).eraseDups
    (64 < bundles.length → exec .kviewPass s = .next (raise s1 s.cur.core.val .k ⟨.view, 0, 0, 0⟩))
    ∧ (bundles.length ≤ 64 → ∃ t o', exec .kviewPass s = .next t ∧ t.mem = s1.mem ∧ ((mine t).stream .k).op = .copy o'
        ∧ o'.views.map (·.bid) = bundles
        ∧ (∀ v ∈ o'.views, (∃ p ∈ parts, p.tag.kind = 1 ∧ p.tag.bid = v.bid ∧ p.tag.ver = v.newest)
            ∧ v.fract = !decidedAt s.far s1 s.cur.core.val v.bid v.newest ∧ v.taken = (if v.fract then v.newest - 1 else v.newest))
        ∧ ((∀ p ∈ parts, p.tag.kind ≠ 1) → o'.placed = some (es.map fun e => (e.1, e.2.flatMap (·.cur))))
        ∧ (o'.placed.map fun l => l.map (·.1)) = some (es.map (·.1))))
  ∧ (∀ (s : State) (die i : Nat) (e : Nat × Nat) (rest : List (Nat × Nat)), die < 4 → i < 2 →
    (vget s.dies die Die.reset).kimgQueue = e :: rest → (vget s.dies die Die.reset).decoders.length = 2 →
    (vget s.dies die Die.reset).decoders[i]? = some none →
    (∀ j, j < i → (vget s.dies die Die.reset).decoders[j]? ≠ some none) →
    ∃ t, exec (.pageDecoderAssign die) s = .next t ∧ (vget t.dies die Die.reset).kimgQueue = rest
      ∧ (vget t.dies die Die.reset).decoders = (vget s.dies die Die.reset).decoders.set i (some e.2) ∧ t.cores = s.cores ∧ t.mem = s.mem)
  ∧ (∀ (s s1 : State) (o : CopyOp) (xs : List Byte) (p : PageData) (k : Nat), PageBegins s o → o.page = none →
    ReadOk s o.pageAt o.src.dim0 xs s1 → decodePage xs = .ok p → o.td ≠ .int1 →
    o.f.w2.getLsbD 15 = false → 1 ≤ k → k ≤ 64 →
    let budget := o.f.w2.toNat / 2 ^ 16
    let patches (k : Nat) : Nat := ((p.width * k + 1023) / 1024) * ((p.height * k + 1023) / 1024)
    patches k ≤ budget → (∀ j, k < j → j ≤ 64 → budget < patches j) →
    ∃ t o' j, exec .patchRowWrite s = .next t ∧ t.mem = s1.mem ∧ ((mine t).stream .k).op = .copy o' ∧ o'.page = some j
      ∧ j.sk = k ∧ j.width = p.width ∧ j.height = p.height ∧ o'.units = (p.height * k + 1023) / 1024 ∧ o'.unit = o.unit)
  ∧ (∀ (s s1 : State) (o : CopyOp) (j : PageJob) (pa : Nat), MemOk s → PageBegins s o → o.page = some j → o.unit < o.units →
    let row := (List.range j.cols).flatMap (patchEntry o j o.unit)
    WriteOk s (o.recordAt + BitVec.ofNat 64 (32 + o.unit * j.cols * patchBytes o j)) row.length pa s1 →
    ∃ t, exec .patchRowWrite s = .next t ∧ Wrote s1 t pa row ∧ ((mine t).stream .k).mpc = BitVec.ofNat 32 (o.unit + 1)
      ∧ ((mine t).stream .k).op = .copy { o with unit := o.unit + 1 })
  ∧ (∀ (o : CopyOp) (j : PageJob) (r c : Nat),
    (patchEntry o j r c).take 16 = leBytes 4 (r * j.cols + c) ++ leBytes 2 r ++ leBytes 2 c ++ leBytes 8 0)
  ∧ ∀ (s s1 : State) (o : CopyOp) (j : PageJob) (pa : Nat), MemOk s → PageBegins s o → o.page = some j → o.units ≤ o.unit →
    WriteOk s o.recordAt 32 pa s1 →
    let pbytes := (16 + 256 * j.chan * o.td.width / 8 + 15) / 16 * 16
    ∃ t, exec .patchRowWrite s = .next t
      ∧ Wrote s1 t pa (leBytes 8 (o.par 2).toNat ++ leBytes 4 j.width ++ leBytes 4 j.height ++ leBytes 2 j.rows ++ leBytes 2 j.cols
          ++ leBytes 1 j.sk ++ leBytes 1 j.chan ++ leBytes 1 o.td.code ++ leBytes 1 j.src ++ leBytes 4 pbytes
          ++ leBytes 4 (j.rows * j.cols))
      ∧ ((mine t).stream .k).op = .copy { o with finished := true }
      ∧ (vget t.dies (dieOf s.cur.core.val) Die.reset).decoders.contains (some s.cur.core.val) = false
namespace Sys2Proof.Claims

/-! Host queues and resident graphs. -/

/-- A queue after a command: its completion is to be written with this status, and the next command is next (R357, R358). -/
def Ended (s t : State) (fn q status : Nat) : Prop :=
  queueAt t fn q = { queueAt s fn q with
    waiting := some ((queueAt s fn q).cons, BitVec.ofNat 16 status), cons := (queueAt s fn q).cons + 1, removal := false }

/-- The command ends with this status and changes nothing but its queue. -/
def OnlyStatus (i : Instr) (s : State) (fn q status : Nat) : Prop :=
  ∃ t, exec i s = .next t ∧ Ended s t fn q status ∧ t = { s with fns := t.fns }

/-- The head command of a queue of a function is `xs`, an OP `op` command. -/
def Commands (s : State) (fn q op : Nat) (xs : List Byte) : Prop :=
  fn < 64 ∧ q < 64 ∧ headCommand s fn q = some xs ∧ field xs 0 1 = op

/-- A region as before, but for what a write that lands on its trigger word changes (R341). -/
def UpToRun (r r' : Region) : Prop :=
  r' = { r with run := r'.run, runs := r'.runs, pendTrig := r'.pendTrig, lastTrig := r'.lastTrig }

/-- An access of the front end of `n` bytes at `a`, in one page, under an ASID, that is translated by the tables and plain (R29, R235,
R386, R387). -/
def FrontAccess (s : State) (asid : BitVec 11) (atS : Bool) (k : AccKind) (a : Dword) (n : Nat) (p : Page) : Prop :=
  addressForm a = true ∧ isWindow a = false ∧ a.toNat % 65536 + n ≤ 65536
    ∧ (∃ ent e l, walkTables s a asid = .leaf ent e l ∧ leafPermits e atS k = true ∧ p = leafPage a (markLeaf e k) (levelLog2 l))
    ∧ p.cls = 0 ∧ p.cidx = 0 ∧ usable p.pa = true ∧ usable (p.pa + n - 1) = true ∧ ∀ i, i < n → flawed s (p.pa + i) = false

/-- The state that such an access leaves: the leaf is marked (R387). -/
def frontSeen (s : State) (asid : BitVec 11) (k : AccKind) (a : Dword) : State :=
  match walkTables s a asid with
  | .leaf ent e _ => if markLeaf e k = e then s else physWrite s ent (leBytes 8 (markLeaf e k).toNat)
  | _ => s

/-- The 64 bytes of an item's record are aligned, PLAIN and writable at U (R333); or, however the record is checked, it passes. -/
def ItemOk (s : State) (r : Region) (item : Dword) (pa : Nat) (s1 : State) : Prop :=
  (item.toNat % 64 = 0 ∧ (∃ p, FrontAccess s r.asid false .write item 64 p ∧ p.pa = pa) ∧ s1 = frontSeen s r.asid .write item)
    ∨ itemRecord r item s = .ok pa s1

/-- A word that a graph node names is aligned and PLAIN (R338); or, however it is checked, it passes. -/
def WordOk (s : State) (r : Region) (k : AccKind) (va : Dword) (pa : Nat) (s1 : State) : Prop :=
  (va.toNat % 8 = 0 ∧ (∃ p, FrontAccess s r.asid true k va 8 p ∧ p.pa = pa) ∧ s1 = frontSeen s r.asid k va)
    ∨ graphWord r k va s = .ok pa s1

/-- The header of an image is read (R339): its 256 bytes lie in one PLAIN page; or, wherever they lie, they can be read. -/
def HeaderReads (s : State) (r : Region) (base : Dword) (h : List Byte) (s1 : State) : Prop :=
  (s1 = frontSeen s r.asid .read base ∧ ∃ p, FrontAccess s r.asid true .read base 256 p ∧ h = memRead s1.mem p.pa 256)
    ∨ (headerAt s r.asid base = some h ∧ headerRead s r.asid base = s1)

/-- The doubleword at byte `o` of a command. -/
def operandAt (xs : List Byte) (o : Nat) : Dword := leDword ((xs.drop o).take 8)

/-- What a trigger of value `v` makes of a region (R341): a run with TVAL `v`, the value recorded for one further run, or, beside an
earlier trigger of the same cycle that has started the run, the value of that run. -/
def Triggered (s : State) (r r' : Region) (v : Dword) : Prop :=
  (r.run = none → ∃ g, r'.run = some g ∧ g.tval = v ∧ g.node = 0 ∧ g.counters = [] ∧ g.executed = 0)
    ∧ (∀ g, r.run = some g → g.since ≠ now0 s ∨ r.pendTrig ≠ none ∨ r.lastTrig ≠ some (now0 s) →
        r'.run = some g ∧ r'.pendTrig = some v)
    ∧ (∀ g, r.run = some g → g.since = now0 s → r.pendTrig = none → r.lastTrig = some (now0 s) →
        r'.run = some { g with tval := v } ∧ r'.pendTrig = none)

/-- A write of `v` to the region's trigger word. -/
def WritesTrigger (s t : State) (r : Region) (v : Dword) : Prop :=
  (MemOk s → memRead t.mem r.trig 8 = leBytes 8 v.toNat ∧ ∀ x, x < r.trig ∨ r.trig + 8 ≤ x → memGet t.mem x = memGet s.mem x)
    ∧ (r.dead = false → ∃ r', regionAt t r.rid = some r' ∧ (MemOk s → Triggered s r r' v))

end Sys2Proof.Claims

/-- R355, R356: a write to a kick register moves PROD forward only, and the block is then read: odd SEQ keeps the accepted block until a
read 1,024 cycles later, a good block is copied to the shadow, and a bad one disables the queue. R357, R358: the commands, executed in ring
order, with their effects and statuses; BADCMD, DENIED and NOREGION change nothing else; a completion goes to its place in the ring
while that is free, and MSI-X follows. DLT_SET's refusal of a class or DEADLINE out of range is the model's choice (log 27), as is the
first phase bit (log 28). R341: a write to a trigger word starts a run, or is recorded for one further run. -/
def Obligations.HostQueuesExecuteCommands : Prop :=
  (∀ (s : State) (fn q : Nat) (v : BitVec 64), fn < 64 → q < 64 → (fnAt s fn).flr = false →
    let x := queueAt s fn q
    let w := BitVec.ofNat 32 v.toNat
    ∃ t, exec (.kickWrite fn q v) s = .next t ∧ t.mem = s.mem ∧ t.cores = s.cores
      ∧ (let y := queueAt t fn q
         y.prod = (if 1 ≤ (w - x.prod).toNat ∧ (w - x.prod).toNat ≤ 2 ^ 31 - 1 then w else x.prod) ∧ y.cons = x.cons ∧ y.qcb = x.qcb
         ∧ (x.qcb.seq.getLsbD 0 = true → y.shadow = x.shadow ∧ y.accepted = x.accepted ∧ y.reread = some (now0 s))
         ∧ (x.qcb.seq.getLsbD 0 = false → qcbOk x.qcb = true → y.shadow = x.qcb ∧ y.accepted = true ∧ y.reread = none
              ∧ y.disabled = decide (x.qcb.depth.toNat < (y.prod - x.cons).toNat))
         ∧ (x.qcb.seq.getLsbD 0 = false → qcbOk x.qcb = false → y.shadow = x.shadow ∧ y.accepted = x.accepted ∧ y.disabled = true)))
  ∧ (∀ (s : State) (fn q : Nat) (since : Dword), fn < 64 → q < 64 → (queueAt s fn q).reread = some since → (fnAt s fn).flr = false →
    ((now0 s - since).toNat < 1024 → exec (.qcbReread fn q) s = .next s)
    ∧ (1024 ≤ (now0 s - since).toNat → (queueAt s fn q).qcb.seq.getLsbD 0 = false → qcbOk (queueAt s fn q).qcb = true →
      ∃ t, exec (.qcbReread fn q) s = .next t ∧ (queueAt t fn q).shadow = (queueAt s fn q).qcb ∧ (queueAt t fn q).accepted = true
        ∧ (queueAt t fn q).reread = none))
  ∧ (∀ (s : State) (fn q : Nat) (xs : List Byte) (r : Region) (i : Instr) (op : Nat), Commands s fn q op xs →
    (i, op) ∈ [(Instr.submit fn q, 1), (.trigger fn q, 2), (.close fn q, 3), (.regionRemove fn q, 5)] →
    let rid := if field xs 2 2 = 0 then (queueAt s fn q).shadow.rid.toNat else field xs 2 2
    (regionAt s rid = none → (queueAt s fn q).removal = false → OnlyStatus i s fn q 6)
    ∧ (regionAt s rid = some r → fn ≠ 0 → ¬((fnAt s fn).asidLo ≤ r.asid.toNat ∧ r.asid.toNat < (fnAt s fn).asidHi) →
        OnlyStatus i s fn q 5)
    ∧ (regionAt s rid = some r → asidAllowed s fn r.asid.toNat = true →
        (op = 1 → (∀ pa s1, itemRecord r (operandAt xs 8) s ≠ .ok pa s1) → OnlyStatus i s fn q 7)
        ∧ (∀ pa s1, op = 1 → ItemOk s r (operandAt xs 8) pa s1 → doorOpen (regionCost s1 r).2 r (regionCost s1 r).1 = false →
            ∃ t, exec i s = .next t ∧ Ended s t fn q 1 ∧ t.regions = s.regions ∧ t.mem = s.mem)
        ∧ (∀ pa s1 x, op = 1 → ItemOk s r (operandAt xs 8) pa s1 → doorOpen (regionCost s1 r).2 r (regionCost s1 r).1 = true → stageOf r 0 = some x →
            ∃ t r' x', exec i s = .next t ∧ Ended s t fn q 0 ∧ regionAt t r.rid = some r' ∧ r'.items = r.items + 1
              ∧ stageOf r' 0 = some x' ∧ x'.tail = x.tail + 1 ∧ x'.head = x.head
              ∧ x'.arrives = x.arrives ++ [(operandAt xs 8, now0 s)] ∧ ∀ n, n ≠ 0 → stageOf r' n = stageOf r n)
        ∧ (op = 2 → ∃ t, exec i s = .next t ∧ Ended s t fn q 0 ∧ WritesTrigger s t r (operandAt xs 8))
        ∧ (op = 3 → ∀ x, stageOf r 0 = some x → ∃ t r' x', exec i s = .next t ∧ Ended s t fn q 0 ∧ t.mem = s.mem
            ∧ regionAt t r.rid = some r' ∧ stageOf r' 0 = some x' ∧ x' = { x with closed := true })
        ∧ (op = 5 → r.removing = false → (∀ x ∈ s.regions, x.parent = 0 ∨ x.parent ≠ r.rcb) →
            ∃ t r', exec i s = .next t ∧ regionAt t r.rid = some r' ∧ r'.removing = true ∧ r'.run = none
              ∧ queueAt t fn q = { queueAt s fn q with removal := true })
        ∧ (op = 5 → r.removing = true → (∀ x ∈ s.regions, x.parent = 0 ∨ x.parent ≠ r.rcb) → removalReady s r.rid = true →
            ∃ t, exec i s = .next t ∧ regionAt t r.rid = none ∧ (∀ x ∈ s.regions, x.rid ≠ r.rid → (regionAt t x.rid).isSome = true)
              ∧ queueAt t fn q = { queueAt s fn q with removal := true })))
  ∧ (∀ (s : State) (fn q : Nat) (xs : List Byte), Commands s fn q 5 xs → (queueAt s fn q).removal = true →
    regionAt s (if field xs 2 2 = 0 then (queueAt s fn q).shadow.rid.toNat else field xs 2 2) = none →
    OnlyStatus (.regionRemove fn q) s fn q 0)
  ∧ (∀ (s : State) (fn q : Nat) (xs : List Byte), Commands s fn q 4 xs →
    let rcb := field xs 8 8
    (∀ x ∈ s.regions, ¬(x.rid = leValue (physRead s rcb 2) ∧ x.rcb = rcb)) →
    (∀ e, judgeRcb s fn rcb = .error e → OnlyStatus (.regionAdd fn q) s fn q e)
    ∧ ∀ r, judgeRcb s fn rcb = .ok r → ∃ t r', exec (.regionAdd fn q) s = .next t ∧ Ended s t fn q 0
        ∧ regionAt t r.rid = some r' ∧ UpToRun r r' ∧ rcb % 256 = 0 ∧ r.cmin + (s.regions.map (·.cmin)).sum ≤ 512
        ∧ asidAllowed s fn r.asid.toNat = true ∧ r.rid = field (physRead s rcb 256) 0 2 ∧ (∀ x ∈ s.regions, x.rid ≠ r.rid))
  ∧ (∀ (s : State) (fn q : Nat) (xs : List Byte), Commands s fn q 6 xs →
    (fn ≠ 0 → OnlyStatus (.dltSet fn q) s fn q 5)
    ∧ (fn = 0 → (8 ≤ field xs 8 1 ∨ operandAt xs 24 = 0) → OnlyStatus (.dltSet fn q) s fn q 4)
    ∧ (fn = 0 → field xs 8 1 < 8 → operandAt xs 24 ≠ 0 → ∃ t, exec (.dltSet fn q) s = .next t ∧ Ended s t fn q 0
        ∧ vget t.deadlines (field xs 8 1) ⟨0, 1⟩ = ⟨operandAt xs 16, operandAt xs 24⟩
        ∧ (∀ c, c ≠ field xs 8 1 → vget t.deadlines c ⟨0, 1⟩ = vget s.deadlines c ⟨0, 1⟩) ∧ t.mem = s.mem))
  ∧ (∀ (s : State) (fn q op : Nat) (xs : List Byte), Commands s fn q op xs → (op = 0 ∨ 7 ≤ op) → OnlyStatus (.badcmd fn q) s fn q 4)
  ∧ (∀ (s : State) (fn q : Nat) (xs : List Byte), headCommand s fn q = some xs → fn < 64 → q < 64 →
    let x := queueAt s fn q
    x.accepted = true ∧ x.disabled = false ∧ x.waiting = none ∧ x.prod ≠ x.cons
      ∧ xs = memRead s.hostMem (x.shadow.ring.toNat + 64 * (x.cons.toNat % x.shadow.depth.toNat)) 64)
  ∧ (∀ (s : State) (fn q : Nat) (index : BitVec 32) (status : BitVec 16), fn < 64 → q < 64 → MemOk s →
    (queueAt s fn q).waiting = some (index, status) →
    let x := queueAt s fn q
    let n := x.shadow.cdepth.toNat
    let a := x.shadow.cring.toNat + 16 * (index.toNat % n)
    (n ≤ (x.cprod - x.ccons).toNat → exec (.completionWrite fn q) s = .next s)
    ∧ ((x.cprod - x.ccons).toNat < n → ∃ t, exec (.completionWrite fn q) s = .next t
        ∧ memRead t.hostMem a 16 = leBytes 4 index.toNat ++ leBytes 2 status.toNat
            ++ leBytes 1 ((index.toNat / n + Config.firstPhase.toNat) % 2) ++ leBytes 9 0
        ∧ (∀ y, y < a ∨ a + 16 ≤ y → memGet t.hostMem y = memGet s.hostMem y)
        ∧ queueAt t fn q = { x with waiting := none, cprod := x.cprod + 1 }
        ∧ t.fleet.msix = (fn, x.shadow.msix.toNat % 2048) :: s.fleet.msix ∧ t.mem = s.mem))
  ∧ (∀ (s : State) (fn q : Nat) (v : BitVec 64), fn < 64 → q < 64 → ∃ t, exec (.completionConsumerWrite fn q v) s = .next t
    ∧ queueAt t fn q = { queueAt s fn q with ccons := BitVec.ofNat 32 v.toNat } ∧ t = { s with fns := t.fns })
  ∧ ∀ (s : State) (rid : Nat) (r : Region) (v : BitVec 64), regionAt s rid = some r →
    ∃ t, exec (.triggerWordWrite rid v) s = .next t ∧ WritesTrigger s t r v

namespace Sys2Proof.Claims

/-- The run of region `rid`, which goes on by itself and has not been started in this cycle, stands at a node of KIND `kind` (R337, R338,
R341). -/
def AtNode (s : State) (rid kind : Nat) (r : Region) (g : GraphRun) (n : Node) : Prop :=
  regionAt s rid = some r ∧ r.run = some g ∧ r.dead = false ∧ g.wait = .none ∧ g.since ≠ now0 s
    ∧ nodeAt s r g = some n ∧ n.kind = kind

/-- The run has gone to node `node`, one node more having been executed; nothing else of the region changes. -/
def WentTo (t : State) (r : Region) (g g' : GraphRun) (node : Nat) : Prop :=
  (regionAt t r.rid).map (·.run) = some (some { g' with node := node, executed := g.executed + 1, wait := .none })

end Sys2Proof.Claims

/-- R337, R338: what each node does. END ends the run, LOOP counts and branches, COND branches on a PLAIN word, WAIT waits for the
operators of the run or for a word, read again each 1,024 cycles, SIGNAL writes a word; a malformed node ends the run. R339, R340: a
LAUNCH of a plain operator writes the empty shadow banks of its cores one after another, with the region's ASID and its arguments.
R341: at the end of a run a recorded trigger starts one further run. R343 to R345: a free core goes to the region below its floor.
R335: an input closes after a closed, empty one. R329: the stop of a fault domain ends its regions' runs. -/
def Obligations.GraphsRunAndCoresAreGranted : Prop :=
  (∀ (s : State) (rid : Nat) (r : Region) (g : GraphRun) (n : Node),
    (AtNode s rid 0 r g n → (r.pendTrig = none → ∃ t, exec (.nodeEnd rid) s = .next t
        ∧ (regionAt t rid).map (·.run) = some none ∧ t.mem = s.mem ∧ t.cores = s.cores)
      ∧ ∀ v, r.pendTrig = some v → ∃ t r' g', exec (.nodeEnd rid) s = .next t ∧ regionAt t rid = some r' ∧ r'.run = some g'
          ∧ g'.tval = v ∧ g'.node = 0 ∧ g'.executed = 0 ∧ r'.pendTrig = none)
    ∧ (AtNode s rid 2 r g n →
        let k := (kget g.counters g.node).getD 0
        (k < n.arg0.toNat % 2 ^ 32 → ∃ t, exec (.nodeLoop rid) s = .next t ∧ t.mem = s.mem
          ∧ WentTo t r g { g with counters := kset g.counters g.node (k + 1) } (n.arg1.toNat % 2 ^ 12))
        ∧ (n.arg0.toNat % 2 ^ 32 ≤ k → ∃ t, exec (.nodeLoop rid) s = .next t ∧ WentTo t r g g n.next))
    ∧ (AtNode s rid 3 r g n → ∀ pa s1, WordOk s r .read n.arg0 pa s1 → s1.regions = s.regions →
        ∃ t, exec (.nodeCond rid) s = .next t ∧ t.mem = s1.mem
          ∧ WentTo t r g g (if leValue (memRead s1.mem pa 8) = 0 then n.next else n.arg1.toNat % 2 ^ 12))
    ∧ (AtNode s rid 4 r g n → n.arg0 = 0 → (g.launched = 0 → ∃ t, exec (.nodeWait rid) s = .next t ∧ WentTo t r g g n.next)
        ∧ (g.launched ≠ 0 → ∃ t, exec (.nodeWait rid) s = .next t
            ∧ (regionAt t rid).map (·.run) = some (some { g with wait := .operators n.next })))
    ∧ (AtNode s rid 4 r g n → n.arg0 = 1 → ∀ pa s1, WordOk s r .read n.arg1 pa s1 → s1.regions = s.regions →
        let x := BitVec.ofNat 64 (leValue (memRead s1.mem pa 8))
        ∃ t, exec (.nodeWait rid) s = .next t ∧ t.mem = s1.mem ∧ (x = n.arg2 → WentTo t r g g n.next)
          ∧ (x ≠ n.arg2 → (regionAt t rid).map (·.run) = some (some { g with wait := .word n.arg1 n.arg2 (now0 s) n.next })))
    ∧ (AtNode s rid 5 r g n → ∀ pa s1, WordOk s r .write n.arg1 pa s1 → s1.regions = s.regions → MemOk s →
        (∀ x ∈ s.regions, x.trig + 8 ≤ pa ∨ pa + 8 ≤ x.trig) → ∃ t, exec (.nodeSignal rid) s = .next t ∧ WentTo t r g g n.next
          ∧ memRead t.mem pa 8 = leBytes 8 n.arg2.toNat ∧ (∀ y, y < pa ∨ pa + 8 ≤ y → memGet t.mem y = memGet s1.mem y)
          ∧ t.fleet.msix = if n.arg0.getLsbD 0 then (r.fn, n.arg0.toNat / 2 % 2048) :: s1.fleet.msix else s1.fleet.msix)
    ∧ (AtNode s rid 1 r g n →
        let xs := physRead s n.arg0.toNat 64
        let base := leDword ((xs.drop 8).take 8)
        let mask := BitVec.ofNat 512 (leValue (physRead s (field xs 16 8) 64))
        field xs 0 8 = 0 → field xs 56 8 = 0 → mask ≠ 0 → ∀ h s1, HeaderReads s r base h s1 → headerOk h = true →
        s1.regions = s.regions →
        ∃ t, exec (.nodeLaunch rid) s = .next t ∧ t.cores = s1.cores ∧ t.mem = s1.mem ∧ (regionAt t rid).map (·.run) = some (some { g with
          wait := .launch base (BitVec.ofNat 24 (field h 12 4)) ((List.range 512).filter fun c => mask.getLsbD c)
            ((List.range 4).map fun i => let a := operandAt xs (24 + 8 * i); if a = 0xFFFFFFFFFFFFFFFF then g.tval else a) n.next })))
  ∧ (∀ (s : State) (rid : Nat) (r : Region) (g : GraphRun), regionAt s rid = some r → r.run = some g → r.dead = false →
    g.wait = .none → g.since ≠ now0 s → nodeAt s r g = none → r.pendTrig = none →
    ∃ t, exec (.nodeEnd rid) s = .next t ∧ (regionAt t rid).map (·.run) = some none ∧ t.mem = s.mem)
  ∧ (∀ (s : State) (rid next : Nat) (r : Region) (g : GraphRun), regionAt s rid = some r → r.run = some g → r.dead = false →
    g.wait = .operators next →
    (g.launched = 0 → ∃ t, exec (.nodeWait rid) s = .next t ∧ WentTo t r g g next)
    ∧ (g.launched ≠ 0 → ∃ t, exec (.nodeWait rid) s = .next t ∧ (regionAt t rid).map (·.run) = some (some g)))
  ∧ (∀ (s : State) (rid next : Nat) (r : Region) (g : GraphRun) (va value since : Dword), regionAt s rid = some r →
    r.run = some g → r.dead = false → g.wait = .word va value since next →
    ((now0 s - since).toNat < 1024 → exec (.nodeWaitPoll rid) s = .next s)
    ∧ ∀ pa s1, 1024 ≤ (now0 s - since).toNat → WordOk s r .read va pa s1 → s1.regions = s.regions →
        let x := BitVec.ofNat 64 (leValue (memRead s1.mem pa 8))
        ∃ t, exec (.nodeWaitPoll rid) s = .next t ∧ (x = value → WentTo t r g g next)
          ∧ (x ≠ value → (regionAt t rid).map (·.run) = some (some { g with wait := .word va value (now0 s) next })))
  ∧ (∀ (s : State) (rid c : Nat) (r : Region) (g : GraphRun) (base : Dword) (centry : BitVec 24) (rest : List Nat) (args : List Dword)
    (next : Nat), regionAt s rid = some r → r.run = some g → r.dead = false → g.wait = .launch base centry (c :: rest) args next →
    c < 512 →
    ((coreAt s c).shadow.isSome = true → exec (.shadowBankWrite rid) s = .next s)
    ∧ ((coreAt s c).shadow = none → ∃ t g', exec (.shadowBankWrite rid) s = .next t
        ∧ coreAt t c = { coreAt s c with shadow := some ⟨base, centry, r.asid, r.verify, r.rid, none, args, false, g.no⟩ }
        ∧ (∀ i, i ≠ c → coreAt t i = coreAt s i) ∧ (regionAt t rid).map (·.run) = some (some g') ∧ g'.launched = g.launched + 1
        ∧ (rest = [] → g'.node = next ∧ g'.wait = .none) ∧ (rest ≠ [] → g'.wait = .launch base centry rest args next ∧ g'.node = g.node)))
  ∧ (∀ (s : State) (die c i : Nat) (r : Region), die < 4 → c < 512 → c / 128 = die → s.regions = [r] → coreFree (coreAt s c) = true →
    wantsCore s r c = true → heldCores s r.rid < r.cmin → (∀ b, 128 * die ≤ b → b < c → coreFree (coreAt s b) = false) →
    bestStage s r c = some i → ∃ t, exec (.coreGrant die) s = .next t ∧ (coreAt t c).stage = some (r.rid, i)
      ∧ (coreAt t c).shadow = stageLaunch r i ∧ (∀ b, b ≠ c → coreAt t b = coreAt s b) ∧ (dieAt t die).lcnt = (dieAt s die).lcnt)
  ∧ (∀ (s : State) (rid i : Nat) (r : Region) (x y : StageState), regionAt s rid = some r → i < 16 → stageOf r i = some x →
    x.closed = true → x.head = x.tail → x.stolen = [] → x.fusedNext = false → stageHolds s rid i = false → stageOf r (i + 1) = some y →
    ∃ t r' y', exec (.inputClosePropagate rid) s = .next t ∧ regionAt t rid = some r' ∧ stageOf r' (i + 1) = some y'
      ∧ y' = { y with closed := true } ∧ t.mem = s.mem ∧ t.cores = s.cores)
  ∧ ∀ (s : State) (fdom : Nat), ∃ t, exec (.faultDomainStop fdom) s = .next t ∧ fdom ∉ t.fleet.stopDomains
    ∧ (∀ r ∈ s.regions, (∀ x ∈ s.regions, x.rid = r.rid → x = r) → r.fdom = fdom → r.dead = false →
        ∃ r', regionAt t r.rid = some r' ∧ r'.dead = true ∧ r'.run = none)
    ∧ ∀ r ∈ s.regions, (∀ x ∈ s.regions, x.rid = r.rid → x = r) → r.fdom ≠ fdom →
        ∃ r', regionAt t r.rid = some r' ∧ UpToRun r r'
namespace Sys2Proof.Claims

/-! The fleet operator's registers and the resets. -/

/-- The records that a source has had a number for (R419, R421). -/
def recordsOf (s : State) (src : Nat) : BitVec 32 := (kget s.fleet.sseq src).getD 0

/-- No TLB of the chip holds an entry that the invalidation covers (R389). -/
def NoneCovered (t : State) (kind : Nat) (asid : BitVec 11) (va : Dword) : Prop :=
  (∀ c, ∀ e ∈ (coreAt t c).tlb, invCovers kind asid va e = false) ∧ (∀ c, ∀ e ∈ (clusterAt t c).tlb, invCovers kind asid va e = false)
    ∧ ∀ d, ∀ e ∈ (dieAt t d).tlb, invCovers kind asid va e = false

/-- The stores that stood translated on their way when the invalidation of a block began have been performed (R389). -/
def Performed (s : State) (fn : Nat) : Prop :=
  (∀ x ∈ (invAt s fn).before.1, x ∉ s.bstores) ∧ ∀ x ∈ (invAt s fn).before.2, ∀ y ∈ s.rstores, sameStore x y = false

end Sys2Proof.Claims

/-- R421: a CONS beyond PROD is ignored. R423, R424: a PWRCAP write clamps the cap and sets NTOK of every die, with a THROTTLE record of each
and a new Almanac; a die above 100 °C has its NTOK halved, above 110 °C it is 0, and above 120 °C every region stops and no port stays UP.
R426: GO copies the nonce, a report is written whole with its leaf index. R427: a refresh raises SNAP. R354, R408, R421, R426: register
writes. R359, R363, R364: the watchdog of a service core puts the shadow in place of a block that was being written, judges the others,
and keeps PROD and the consumer count; a command that is being executed completes first, and no other one begins. -/
def Obligations.FleetRegistersAndReports : Prop :=
  (∀ (s : State) (v : BitVec 64), let x := BitVec.ofNat 32 v.toNat
    (1 ≤ (x - s.fleet.evprod).toNat ∧ (x - s.fleet.evprod).toNat < 2 ^ 31 → exec (.evidxConsWrite v) s = .next s)
    ∧ (¬(1 ≤ (x - s.fleet.evprod).toNat ∧ (x - s.fleet.evprod).toNat < 2 ^ 31) →
        exec (.evidxConsWrite v) s = .next { s with fleet := { s.fleet with evcons := x } }))
  ∧ (∀ (s : State) (v : BitVec 64), let cap := max 2000 (min 3000 (v.toNat % 4096))
    ∃ t, exec (.pwrcapWrite v) s = .next t ∧ t.fleet.pwrcap.toNat = cap ∧ t.mem = s.mem ∧ t.cores = s.cores
      ∧ t.clusters = s.clusters ∧ t.fleet.almanacGen = s.fleet.almanacGen + 2 ∧ recordsOf t 24 = recordsOf s 24 + 4
      ∧ ∀ d, d < 4 → (dieAt t d).ntok = min 32 ((cap - 1890) * 5 / 172) ∧ (dieAt t d).cyc = (dieAt s d).cyc)
  ∧ (∀ (s : State) (die milliC inlet : Nat), die < 4 →
    (100000 < milliC → ∃ t, exec (.thermalSample die milliC inlet) s = .next t ∧ (dieAt t die).throttled = true
      ∧ (dieAt t die).ntok = (if 110000 < milliC then 0 else (dieAt s die).ntok / 2)
      ∧ ((120000 < milliC ∨ 50000 < inlet) → (s.regions.map (·.rid)).Nodup →
          (∀ r ∈ t.regions, r.dead = true) ∧ ∀ n, n < 64 → (portAt t n).state ≠ .up)
      ∧ (milliC ≤ 120000 → inlet ≤ 50000 → t.regions = s.regions ∧ t.cores = s.cores))
    ∧ (milliC < 95000 → inlet ≤ 50000 → (dieAt s die).throttled = true → (∀ since, (dieAt s die).cool = some since →
        2 ^ 24 ≤ (now0 s - since).toNat → ∃ t, exec (.thermalSample die milliC inlet) s = .next t
          ∧ (dieAt t die).ntok = min 32 ((s.fleet.pwrcap.toNat - 1890) * 5 / 172) ∧ (dieAt t die).throttled = false)
      ∧ ((dieAt s die).cool = none → ∃ t, exec (.thermalSample die milliC inlet) s = .next t
          ∧ (dieAt t die).ntok = (dieAt s die).ntok ∧ (dieAt t die).cool = some (now0 s))))
  ∧ (∀ (s : State) (v : BitVec 64), v.getLsbD 0 = true →
    (s.fleet.attBusy = true → exec (.attestationGo v) s = .next s)
    ∧ (s.fleet.attBusy = false → exec (.attestationGo v) s
        = .next { s with fleet := { s.fleet with attBusy := true, attCopy := s.fleet.attnonce } }))
  ∧ (∀ s : State, s.fleet.attBusy = true →
    (2 ^ 20 ≤ s.fleet.leaf → ∃ t, exec .attestationReportDone s = .next t ∧ t.fleet.attStatus = 1 ∧ t.fleet.attBusy = false
      ∧ t.hostMem = s.hostMem)
    ∧ (s.fleet.leaf < 2 ^ 20 → s.fleet.attbuf.toNat + 16384 ≤ 2 ^ 64 → MemOk s →
        let digest (x : List Byte) : List Byte := leBytes 64 (Config.shake256 x).toNat
        let head := leBytes 4 0xA7E50001 ++ leBytes 4 10028 ++ leBytes 2 Config.chipId.toNat ++ leBytes 6 0
          ++ (List.range 16).map Config.serial ++ leBytes 64 s.fleet.attCopy.toNat ++ digest Config.gheahImage
          ++ digest Config.serviceImage ++ digest Config.firmwareConfig ++ leBytes 4 s.fabric.group.epoch.toNat
          ++ leBytes 4 s.fleet.leaf
        ∃ t, exec .attestationReportDone s = .next t ∧ memRead t.hostMem s.fleet.attbuf.toNat 296 = head
          ∧ memRead t.hostMem (s.fleet.attbuf.toNat + 296) 9732 = padTo 9732 (Config.xmssSign s.fleet.leaf head)
          ∧ t.fleet.attStatus = 0 ∧ t.fleet.attBusy = false ∧ t.fleet.leaf = s.fleet.leaf + 1
          ∧ t.fleet.msix = (0, s.fleet.evvec.toNat) :: s.fleet.msix ∧ t.mem = s.mem))
  ∧ (∀ (s : State) (x : TelemetrySample), let snap := (kget s.fleet.telemetry 0).getD 0
    ((now0 s).toNat < (snap.toNat + 1) * 2 ^ 20 → exec (.telemetryRefresh x) s = .next s)
    ∧ ((snap.toNat + 1) * 2 ^ 20 ≤ (now0 s).toNat → ∃ t, exec (.telemetryRefresh x) s = .next t
        ∧ kget t.fleet.telemetry 0 = some (snap + 1) ∧ kget t.fleet.telemetry 8 = some x.powerMw
        ∧ kget t.fleet.telemetry 0x160 = some (BitVec.ofNat 64 s.fleet.refused)
        ∧ kget t.fleet.telemetry 0x168 = some (s.fleet.evlost.setWidth 64) ∧ t = { s with fleet := t.fleet }))
  ∧ (∀ (s : State) (fn q : Nat) (v : BitVec 64), fn < 64 → q < 64 →
    (∃ t, exec (.registerWrite fn (64 * q) v) s = .next t ∧ queueAt t fn q = { queueAt s fn q with
        qcb := { (queueAt s fn q).qcb with seq := BitVec.ofNat 32 v.toNat, qflags := BitVec.ofNat 32 (v.toNat / 2 ^ 32) } })
    ∧ (∃ t, exec (.registerWrite fn (64 * q + 8) v) s = .next t
        ∧ queueAt t fn q = { queueAt s fn q with qcb := { (queueAt s fn q).qcb with ring := v } })
    ∧ (∃ t, exec (.registerWrite fn (64 * q + 24) v) s = .next t
        ∧ queueAt t fn q = { queueAt s fn q with qcb := { (queueAt s fn q).qcb with cring := v } })
    ∧ exec (.registerWrite 0 0x50000 v) s = .next { s with fleet := { s.fleet with evbase := v } }
    ∧ exec (.registerWrite 0 0x30000 v) s = .next { s with fabric := { s.fabric with rgplan := BitVec.ofNat 44 v.toNat } }
    ∧ (fn ≠ 0 → exec (.registerWrite fn 0x50000 v) s = .next s ∧ exec (.registerWrite fn 0x30000 v) s = .next s))
  ∧ (∀ (s : State) (fn : Nat) (v : BitVec 64), fn ≤ 64 →
    (∃ t, exec (.registerWrite fn 0x20000 v) s = .next t
      ∧ invAt t fn = { invAt s fn with inva := BitVec.ofNat 64 (v.toNat / 65536 * 65536) })
    ∧ ∃ t, exec (.registerWrite fn 0x20010 v) s = .next t
      ∧ invAt t fn = { invAt s fn with denied := (invAt s fn).denied && !v.getLsbD 1 })
  ∧ ∀ (s : State) (sc : Nat), sc < 2 →
    ((∀ fn q, fn < 64 → q < 64 → fn % 2 = sc → (queueAt s fn q).removal = false) →
      ∃ t, exec (.serviceCoreWatchdog sc) s = .next t ∧ t.mem = s.mem ∧ t.cores = s.cores ∧ sc ∉ t.fleet.resets
      ∧ ∀ fn q, fn < 64 → q < 64 → (queueAt t fn q).prod = (queueAt s fn q).prod ∧ (queueAt t fn q).cons = (queueAt s fn q).cons
        ∧ (fn % 2 = sc → (queueAt s fn q).qcb.seq.getLsbD 0 = true → (queueAt t fn q).qcb = (queueAt s fn q).shadow)
        ∧ (fn % 2 = sc → (queueAt s fn q).qcb.seq.getLsbD 0 = false → qcbOk (queueAt s fn q).qcb = false → (queueAt t fn q).disabled = true)
        ∧ (fn % 2 ≠ sc → queueAt t fn q = queueAt s fn q))
    ∧ ((∃ fn q, fn < 64 ∧ q < 64 ∧ fn % 2 = sc ∧ (queueAt s fn q).removal = true) →
      ∃ t, exec (.serviceCoreWatchdog sc) s = .next t ∧ t = { s with fleet := { s.fleet with resets := t.fleet.resets } }
        ∧ ∀ fn q, fn % 2 = sc → (queueAt s fn q).removal = false → headCommand t fn q = none)

/-- R389: a GO that is allowed begins an invalidation, a VF's beyond its range is denied, and at its completion, for which the stores
translated before it have been performed, no TLB holds an entry that it covers. R362: a VF's reset lets a command that is being
executed complete and, once its regions are gone, clears its queues and its invalidation block and invalidates its range; a
PF's returns the blocks of the PF to their reset values and keeps memory and the group. R404, R425: a module reset leaves the state of
State.reset with the lone group table in memory, or RECOVERY. -/
def Obligations.ResetsAndInvalidations : Prop :=
  (∀ (s : State) (fn : Nat) (v : BitVec 64), fn ≤ 64 →
    let kind := BitVec.ofNat 2 v.toNat
    let asid := BitVec.ofNat 11 (v.toNat / 2 ^ 16)
    let free := fn = 0 ∨ fn = 64 ∨ (kind.toNat < 2 ∧ (fnAt s fn).asidLo ≤ asid.toNat ∧ asid.toNat < (fnAt s fn).asidHi)
    v.getLsbD 31 = true → (invAt s fn).job = none →
    (free → ∃ t, exec (.invcGo fn v) s = .next t
      ∧ invAt t fn = { invAt s fn with
          asid := asid, kind := kind, job := some (kind, asid, (invAt s fn).inva), before := (s.bstores, s.rstores) }
      ∧ t.cores = s.cores)
    ∧ (¬free → ∃ t, exec (.invcGo fn v) s = .next t
        ∧ invAt t fn = { invAt s fn with asid := asid, kind := kind, denied := true } ∧ t.cores = s.cores))
  ∧ (∀ (s : State) (fn : Nat) (kind : BitVec 2) (asid : BitVec 11) (va : Dword), fn ≤ 64 →
    (invAt s fn).job = some (kind, asid, va) →
    (Performed s fn → ∃ t, exec (.invalidationComplete fn) s = .next t
      ∧ invAt t fn = { invAt s fn with job := none, before := ([], []), count := (invAt s fn).count + 1 }
      ∧ NoneCovered t kind.toNat asid va ∧ t.mem = s.mem ∧ t.regions = s.regions)
    ∧ (¬Performed s fn → exec (.invalidationComplete fn) s = .next s))
  ∧ (∀ (s : State) (fn : Nat), 1 ≤ fn → fn < 64 → (∀ q, q < 64 → (queueAt s fn q).removal = false) → Performed s fn →
    (∀ r ∈ s.regions, ¬((fnAt s fn).asidLo ≤ r.asid.toNat ∧ r.asid.toNat < (fnAt s fn).asidHi)) →
    ∃ t, exec (.flrVf fn) s = .next t ∧ fnAt t fn = { HostFn.reset with asidLo := (fnAt s fn).asidLo, asidHi := (fnAt s fn).asidHi }
      ∧ (∀ n, n < 64 → n ≠ fn → fnAt t n = fnAt s n) ∧ t.mem = s.mem ∧ t.regions = s.regions
      ∧ ∀ asid : BitVec 11, (fnAt s fn).asidLo ≤ asid.toNat → asid.toNat < (fnAt s fn).asidHi → NoneCovered t 1 asid 0)
  ∧ (∀ (s : State) (fn : Nat), 1 ≤ fn → fn < 64 → (∃ r ∈ s.regions, (fnAt s fn).asidLo ≤ r.asid.toNat
      ∧ r.asid.toNat < (fnAt s fn).asidHi) → ∃ t, exec (.flrVf fn) s = .next t ∧ (fnAt t fn).flr = true
      ∧ ∀ q, (queueAt s fn q).removal = false → headCommand t fn q = none)
  ∧ (∀ (s : State) (fn q : Nat), 1 ≤ fn → fn < 64 → q < 64 → (queueAt s fn q).removal = true →
    ∃ t, exec (.flrVf fn) s = .next t ∧ t = { s with fns := t.fns } ∧ fnAt t fn = { fnAt s fn with flr := true })
  ∧ (∀ s : State, (∀ fn q, fn < 64 → q < 64 → (queueAt s fn q).removal = false) → (∀ fn, fn < 64 → Performed s fn) → s.regions = [] → s.fleet.attBusy = false → s.fabric.rgState = .idle →
    ∃ t, exec .flrPf s = .next t ∧ t.mem = s.mem ∧ t.fabric.group = s.fabric.group ∧ t.fabric.ports = s.fabric.ports
      ∧ (∀ fn, fn < 64 → fnAt t fn = { HostFn.reset with asidLo := (fnAt s fn).asidLo, asidHi := (fnAt s fn).asidHi })
      ∧ t.fleet.evbase = 0 ∧ t.fleet.evprod = 0 ∧ t.fleet.evcons = 0 ∧ t.fleet.evlost = 0 ∧ t.fleet.evvec = 0 ∧ t.fleet.attbuf = 0
      ∧ t.fleet.attnonce = 0 ∧ t.fleet.attStatus = 0 ∧ t.fabric.rgplan = 0 ∧ t.fleet.leaf = s.fleet.leaf)
  ∧ ∀ (s : State) (ok : Bool), ∃ t, exec (.moduleReset ok) s = .next t ∧ t.fleet.recovery = !ok ∧ t.fleet.leaf = s.fleet.leaf
    ∧ t.hostMem = s.hostMem ∧ t.regions = [] ∧ t.fabric = State.reset.fabric ∧ t.fns = State.reset.fns ∧ t.cores = State.reset.cores
    ∧ t.clusters = State.reset.clusters ∧ t.dies = State.reset.dies ∧ t.phase = State.reset.phase ∧ t.huff = State.reset.huff
    ∧ memRead t.mem Config.groupTable 18 = leBytes 4 0xF4B00001 ++ leBytes 4 0 ++ leBytes 2 0 ++ leBytes 1 1 ++ leBytes 1 1 ++ leBytes 1 1
        ++ leBytes 3 0 ++ leBytes 2 Config.chipId.toNat

namespace Sys2Proof.Claims

/-! Links and packets. -/

/-- A flit read: its header and the slots that carry packet data. -/
def FlitIs (f : BitVec 1536) (kind nslot : Nat) (seq ack : BitVec 24) (slots : List (BitVec 128)) : Prop :=
  flitGood f = true ∧ (flitHdr f).kind = kind ∧ (flitHdr f).nslot = nslot ∧ (flitHdr f).seq = seq ∧ (flitHdr f).ack = ack
    ∧ (flitSlots f).take nslot = slots

/-- Nothing but a port of the fabric changes. -/
def OnlyPort (s t : State) (n : Nat) : Prop :=
  t = { s with fabric := { s.fabric with ports := t.fabric.ports } } ∧ ∀ i, i ≠ n → portAt t i = portAt s i

/-- The band that carries flit `seq` of a port (R402). -/
def CarriedBy (p : Port) (seq : BitVec 24) (b : Nat) : Prop :=
  ((∀ i, i < 4 → (p.bandAt i).usable = true ∧ (p.bandAt i).width = (p.bandAt 0).width) → b = seq.toNat % 4)
    ∧ (p.bandAt b).usable = true ∧ b < 4

/-- A request or an answer has been sent on: it waits at the port that its route takes, or at this hop (R403); one for this chip is
served here (R293). -/
def SentOn (s t : State) (p : Packet) : Prop :=
  if packetGoal p = s.fabric.group.self then
    t.fabric.rxPackets = s.fabric.rxPackets ++ [p] ∧ t.fabric.held = s.fabric.held ∧ t.fabric.ports = s.fabric.ports
  else t.fabric.rxPackets = s.fabric.rxPackets ∧ match routePort s.fabric p with
    | some n => portAt t n = { portAt s n with out := (portAt s n).out ++ [⟨p, packetHead p :: p.data, 0⟩] }
        ∧ (∀ i, i ≠ n → portAt t i = portAt s i) ∧ t.fabric.held = s.fabric.held
    | none => t.fabric.held = s.fabric.held ++ [p] ∧ t.fabric.ports = s.fabric.ports

/-- The answer of a type to a request packet: its data, and the identity of the request (R395). -/
def answerOf (p : Packet) (ptype : BitVec 4) (data : List (BitVec 128)) : Packet :=
  { p with ptype := ptype, aux := 0, empty := false, vc := false, data := data }

/-- An access at its target (R293): one page, translated by the tables at U, exported, and plain. -/
def TargetAccess (s : State) (p : Packet) (k : AccKind) (n : Nat) (pg : Page) : Prop :=
  FrontAccess s p.asid false k (BitVec.ofNat 64 (packetOffset p)) n pg ∧ pg.exp = true

/-- The state that an access at its target leaves (R387). -/
def targetSeen (s : State) (p : Packet) (k : AccKind) : State := frontSeen s p.asid k (BitVec.ofNat 64 (packetOffset p))

/-- A RDREQ reads `xs`: from one plain page; or, wherever its bytes lie, they can be read. -/
def ReadsFor (s : State) (p : Packet) (xs : List Byte) (s1 : State) : Prop :=
  (s1 = targetSeen s p .read ∧ ∃ pg, TargetAccess s p .read (packetBytes p) pg ∧ xs = memRead s1.mem pg.pa (packetBytes p))
    ∨ serveRead p.asid (packetWindow p) (packetBytes p) s = .ok xs s1

/-- An ATOMIC reads `old` and writes what R113 makes of it: in one plain page; or, wherever its doubleword lies, it can be performed. -/
def PerformsFor (s : State) (p : Packet) (old : Dword) (s1 : State) : Prop :=
  let x := (p.data.headD 0).extractLsb' 0 64
  let cmp := (p.data.headD 0).extractLsb' 64 64
  let s0 := targetSeen s p .read
  (∃ pg, TargetAccess s p .read 8 pg ∧ old = leDword (memRead s0.mem pg.pa 8) ∧ match atomicOp p.aux.toNat old x cmp with
      | none => s1 = s0
      | some new => ∃ qg, TargetAccess s0 p .write 8 qg ∧ s1 = physWrite (targetSeen s0 p .write) qg.pa (leBytes 8 new.toNat))
    ∨ serveAtomic p.asid (packetWindow p) p.aux.toNat x cmp s = .ok old s1

/-- Core `c` waits in no BABORT, and is not stopping for a fault (R119, R372). -/
def Unhurried (s : State) (c : Nat) : Prop :=
  (coreAt s c).raising = none ∧ ∀ b, (coreAt s c).block = some b → b.kind ≠ .babort

end Sys2Proof.Claims

/-- R393, R394, R397, R399, R400, R402: a port sends its packets' slots in a DATA flit of the next SEQ, kept for replay, with E as its ACK and
a good CRC-64, on the lit wavelengths of the band of R402, and management packets before them in MGMT flits; with 2,048 flits unacknowledged it sends no new one; with nothing to send it sends an IDLE, which takes no SEQ.
R397, R398: a bad flit is discarded; a flit above E is held, one at E delivered, its packet taken and its slots owed as credits, one below E discarded. A gap asks for a
replay once in 1,024 cycles, and a replay resends every unacknowledged flit. R401, R428: loss of light, relock and silence. -/
def Obligations.LinksSendReceiveAndReplay : Prop :=
  (∀ (s : State) (n : Nat) (o : OutPacket), n < 64 → (portAt s n).state = .up → (portAt s n).again = [] → (portAt s n).vigils = [] →
    (portAt s n).replay.length < 2048 → (portAt s n).commTx = true → (portAt s n).commRx = true → s.fabric.silenced = false →
    (portAt s n).mgmt = [] → (portAt s n).out = [o] → o.left ≠ [] → o.left.length ≤ 11 → o.left.length ≤ vget (portAt s n).credit o.pkt.vc.toNat 0 →
    (∀ i, i < 4 → ((portAt s n).bandAt i).usable = true) →
    ∃ t b flit, exec (.flitSend n) s = .next t ∧ OnlyPort s t n ∧ CarriedBy (portAt s n) (portAt s n).txSeq b
      ∧ (portAt t n).wire = (b, lightOf ((portAt s n).bandAt b).mask flit) :: (portAt s n).wire
      ∧ FlitIs flit 1 o.left.length (portAt s n).txSeq (portAt s n).rxE o.left
      ∧ (portAt t n).txSeq = (portAt s n).txSeq + 1 ∧ (portAt t n).replay = (portAt s n).replay ++ [⟨(portAt s n).txSeq, flit⟩]
      ∧ (portAt t n).out = [⟨o.pkt, [], (portAt s n).txSeq⟩]
      ∧ vget (portAt t n).credit o.pkt.vc.toNat 0 = vget (portAt s n).credit o.pkt.vc.toNat 0 - o.left.length)
  ∧ (∀ (s : State) (n : Nat) (o : OutPacket), n < 64 → (portAt s n).state = .up ∨ ((portAt s n).state = .dark ∧ linkLocal o.pkt = true) →
    (portAt s n).again = [] → (portAt s n).vigils = [] → (portAt s n).replay.length < 2048 → (portAt s n).mgmt = [o] → o.left ≠ [] →
    o.left.length ≤ 11 → o.left.length ≤ vget (portAt s n).credit o.pkt.vc.toNat 0 →
    (∀ i, i < 4 → ((portAt s n).bandAt i).usable = true) →
    ∃ t b flit, exec (.flitSend n) s = .next t ∧ OnlyPort s t n ∧ CarriedBy (portAt s n) (portAt s n).txSeq b
      ∧ FlitIs flit 2 o.left.length (portAt s n).txSeq (portAt s n).rxE o.left ∧ (portAt t n).txSeq = (portAt s n).txSeq + 1
      ∧ (portAt t n).replay = (portAt s n).replay ++ [⟨(portAt s n).txSeq, flit⟩] ∧ (portAt t n).out = (portAt s n).out
      ∧ (portAt t n).mgmt = [⟨o.pkt, [], (portAt s n).txSeq⟩])
  ∧ (∀ (s : State) (n : Nat), (portAt s n).again = [] → 2048 ≤ (portAt s n).replay.length → exec (.flitSend n) s = .next s)
  ∧ (∀ (s : State) (n b : Nat), n < 64 → (portAt s n).state = .up → (portAt s n).sendNext s = none → 127 ≤ (portAt s n).sinceSend →
    (portAt s n).freeBand = some b → ∃ t flit, exec (.idleSend n) s = .next t ∧ OnlyPort s t n
      ∧ (portAt t n).wire = (b, lightOf ((portAt s n).bandAt b).mask flit) :: (portAt s n).wire
      ∧ FlitIs flit 0 0 0 (portAt s n).rxE []
      ∧ (portAt t n).txSeq = (portAt s n).txSeq ∧ (portAt t n).replay = (portAt s n).replay ∧ (portAt t n).sinceSend = 0)
  ∧ (∀ (s : State) (n : Nat) (f : BitVec 1536), flitGood f = false → exec (.flitReceive n f) s = .next s)
  ∧ (∀ (s : State) (n : Nat) (f : BitVec 1536), n < 64 → (portAt s n).state = .up → flitGood f = true → (flitHdr f).rpl = false →
    (flitHdr f).kind = 1 →
    let d := ((flitHdr f).seq - (portAt s n).rxE).toNat
    (2 ^ 23 ≤ d → ∃ t, exec (.flitReceive n f) s = .next t ∧ OnlyPort s t n ∧ (portAt t n).rxE = (portAt s n).rxE
      ∧ (portAt t n).window = (portAt s n).window)
    ∧ (1 ≤ d → d < 64 → (∀ x ∈ (portAt s n).window, x.seq ≠ (flitHdr f).seq ∧ x.seq ≠ (portAt s n).rxE) →
        ∃ t, exec (.flitReceive n f) s = .next t ∧ OnlyPort s t n ∧ (portAt t n).rxE = (portAt s n).rxE
          ∧ (portAt t n).window = (portAt s n).window ++ [⟨(flitHdr f).seq, f⟩])
    ∧ ∀ p : Packet, d = 0 → (portAt s n).window = [] → (portAt s n).slots = [] → packetGood p = true →
        p.ptype ≠ 8 → packetGoal p = s.fabric.group.self → p.data.length = dataSlots p →
        (flitSlots f).take (flitHdr f).nslot = packetHead p :: p.data →
        ∃ t, exec (.flitReceive n f) s = .next t ∧ (portAt t n).rxE = (portAt s n).rxE + 1
          ∧ t.fabric.rxPackets = s.fabric.rxPackets ++ [p] ∧ (portAt t n).silent = 0 ∧ t.mem = s.mem ∧ t.cores = s.cores
          ∧ vget (portAt t n).owed p.vc.toNat 0 = vget (portAt s n).owed p.vc.toNat 0 + (p.data.length + 1))
  ∧ (∀ (s : State) (n : Nat), n < 64 → (portAt s n).state = .up →
    (256 ≤ (portAt s n).gap → 1024 ≤ (portAt s n).sinceRpl → ∃ t, exec (.replayRequest n) s = .next t ∧ OnlyPort s t n
      ∧ (portAt t n).rplDue = true ∧ (portAt t n).sinceRpl = 0)
    ∧ ((portAt s n).sinceRpl < 1024 → exec (.replayRequest n) s = .next s)
    ∧ ((portAt s n).replay ≠ [] → 8192 ≤ (portAt s n).sinceAck → (portAt s n).fruitless < 63 → ∃ t, exec (.ackTimeout n) s = .next t
        ∧ (portAt t n).again = (portAt s n).replay ∧ (portAt t n).replay = (portAt s n).replay
        ∧ (portAt t n).fruitless = (portAt s n).fruitless + 1 ∧ (portAt t n).sinceAck = 0)
    ∧ ((portAt s n).sinceAck < 8192 → exec (.ackTimeout n) s = .next s)
    ∧ (2 ^ 16 ≤ (portAt s n).silent → s.fabric.rgState = .idle → ∃ t, exec (.portSilent n) s = .next t ∧ (portAt t n).state = .down
        ∧ (portAt t n).replay = [] ∧ recordsOf t 16 = recordsOf s 16 + 1)
    ∧ ((portAt s n).silent < 2 ^ 16 → exec (.portSilent n) s = .next s))
  ∧ (∀ (s : State) (n b : Nat) (waves : BitVec 16), n < 64 → b < 4 → vget (portAt s n).rxMask b 0 &&& waves ≠ 0 →
    let now := vget (portAt s n).rxMask b 0 &&& ~~~waves
    ∃ t, exec (.lossOfLight n b waves) s = .next t ∧ vget (portAt t n).rxMask b 0 = now ∧ t.mem = s.mem
      ∧ ((portAt s n).state = .up → recordsOf t 16 = recordsOf s 16 + 1
          ∧ t.fabric.mgmt = (.port n, .rstr (portAt s n).peerPort.toNat b now) :: s.fabric.mgmt)
      ∧ ((portAt s n).state ≠ .up → t.fleet = s.fleet ∧ t.fabric.mgmt = s.fabric.mgmt))
  ∧ (∀ (s : State) (n b : Nat) (lit : BitVec 16), n < 64 → b < 4 → (portAt s n).state = .up → ((portAt s n).bandAt b).width ≠ 0 →
    ((portAt s n).bandAt b).lit &&& wholeModules lit ≠ 0 → ∃ t, exec (.rstr n b lit) s = .next t ∧ OnlyPort s t n
      ∧ ((portAt t n).bandAt b).relock = some 4096 ∧ ((portAt t n).bandAt b).usable = false
      ∧ ((portAt t n).bandAt b).width = popCount 4 (((portAt s n).bandAt b).lit &&& wholeModules lit).toNat
      ∧ ∀ i, i ≠ b → (portAt t n).bandAt i = (portAt s n).bandAt i)
  ∧ (∀ (s : State) (n b : Nat) (lm : Nat), n < 64 → b < 4 → lm < 4 →
    (((portAt s n).bandAt b).relock = some 0 → (portAt s n).state = .up → ∃ t, exec (.relockEnd n b) s = .next t
      ∧ ((portAt t n).bandAt b).relock = none ∧ ((portAt t n).bandAt b).width = ((portAt s n).bandAt b).width
      ∧ recordsOf t 16 = recordsOf s 16 + 1)
    ∧ (∃ t, exec (.laserRecovery n b lm) s = .next t ∧ OnlyPort s t n ∧ ((portAt t n).bandAt b).failed.getLsbD lm = false
        ∧ ((portAt t n).bandAt b).width = ((portAt s n).bandAt b).width ∧ ((portAt t n).bandAt b).mask = ((portAt s n).bandAt b).mask)
    ∧ ((portAt s n).state = .up → (∀ i, i < 4 → ((portAt s n).bandAt i).failed ≠ 15) → ∃ t, exec (.portRetrain n) s = .next t ∧ OnlyPort s t n
        ∧ ((portAt t n).bandAt b).lit = ~~~((portAt s n).bandAt b).failed
        ∧ ((portAt t n).bandAt b).width = popCount 4 (~~~((portAt s n).bandAt b).failed).toNat))
  ∧ (∀ (mask : BitVec 16) (flit : BitVec 1536) (j w i : Nat), (lanesOf mask)[j]? = some w → i * (lanesOf mask).length + j < 48 →
    (waveUnits mask flit w)[i]? = some (flit.extractLsb' (32 * (i * (lanesOf mask).length + j)) 32))
  ∧ lanesOf 0xFF0F = [0, 1, 2, 3, 8, 9, 10, 11, 12, 13, 14, 15] ∧ wholeModules 0xFF0F = 0b1101

/-- R293, R299, R300, R301: the oldest waiting request to a chip is sent when the peer's outstanding bytes and its own are at most A, as its
packet; one to a chip that has left the group raises PEER, and none is sent while the allowances are frozen. R293, R395, R396: a request
packet is translated, checked and served once: a read is answered with its bytes, a write puts its bytes into memory and no others and is
acknowledged, an atomic returns the old value, a page that is not exported is answered with an error; a write that comes again is
answered again and not performed. R296, R298, R295: an answer brings a read's units or value to its maker, lands a write, and an error
answer raises its fault. -/
def Obligations.RemoteRequestsAreServed : Prop :=
  (∀ (s : State) (chip : Nat) (r : RemoteReq), s.fabric.waiting.find? (fun r => (windowChip r.addr).toNat == chip) = some r →
    capAllows s r = true →
    let p := peerOf s.fabric (windowChip r.addr)
    let gone : State := { s with fabric := { s.fabric with waiting := dropFirst (fun x => x == r) s.fabric.waiting } }
    (s.fabric.frz = false → s.fabric.silenced = false →
      (inGroup s (windowChip r.addr) = true → p.outBytes + requestSize r ≤ p.allow → ∃ t, exec (.remoteRequestSend chip) s = .next t
        ∧ t.fabric.waiting = gone.fabric.waiting ∧ SentOn s t (requestPacket s.fabric.group.self r)
        ∧ t.fabric.inFlight = s.fabric.inFlight ++ [{ r with upTo := p.sentBytes + requestSize r }]
        ∧ (peerOf t.fabric (windowChip r.addr)).outBytes = p.outBytes + requestSize r
        ∧ (p.trip = none → (peerOf t.fabric (windowChip r.addr)).trip = some (p.sentBytes + requestSize r, (dieAt s 0).cyc))
        ∧ t.mem = s.mem ∧ t.cores = s.cores)
      ∧ (inGroup s (windowChip r.addr) = true → p.allow < p.outBytes + requestSize r → exec (.remoteRequestSend chip) s = .next s)
      ∧ (inGroup s (windowChip r.addr) = false → r.kind = .write → r.st = .c → (coreAt s r.core).op.isSome = true →
          (coreAt s r.core).stopped = false →
          exec (.remoteRequestSend chip) s = .next (raise (settleBabort gone r.core) r.core .c ⟨.peer, 0, r.addr, 0⟩))
      ∧ (inGroup s (windowChip r.addr) = false → r.kind = .read → r.st = .v → r.core < 512 → takesFault (coreAt s r.core) .v = true →
          ∃ t, exec (.remoteRequestSend chip) s = .next t ∧ t.fabric = gone.fabric ∧ t.mem = s.mem
            ∧ (coreAt t r.core).rfault = (coreAt s r.core).rfault ++ [(.v, r.addr, r.len, ⟨.peer, 0, r.addr, 0⟩)]))
    ∧ (s.fabric.frz = true ∨ s.fabric.silenced = true → exec (.remoteRequestSend chip) s = .next s))
  ∧ (∀ (s s1 : State) (p : Packet) (xs : List Byte), packetNext s p 1 = true → ReadsFor s p xs s1 →
    ∃ t, exec (.rdreq p) s = .next t ∧ t.mem = s1.mem
      ∧ SentOn (dropPacket s1 p) t (answerOf p 2 (unitSlots (packetWindow p) xs)))
  ∧ (∀ (s : State) (p : Packet) (pg : Page), packetNext s p 1 = true →
    FrontAccess s p.asid false .read (BitVec.ofNat 64 (packetOffset p)) (packetBytes p) pg → pg.exp = false →
    ∃ t, exec (.rdreq p) s = .next t ∧ t.mem = (targetSeen s p .read).mem
      ∧ SentOn (dropPacket s p) t { answerOf p 7 [] with aux := 1 })
  ∧ (∀ (s s1 : State) (p : Packet) (e : Exc), packetNext s p 1 = true →
    serveRead p.asid (packetWindow p) (packetBytes p) s = .error (.exc e) s1 →
    ∃ t, exec (.rdreq p) s = .next t ∧ t.mem = s1.mem ∧ SentOn (dropPacket s1 p) t (errorAnswer p e))
  ∧ (∀ (s : State) (p : Packet) (pg : Page), MemOk s → packetNext s p 3 = true → p.aux = 0 →
    (∀ x ∈ s.fabric.remembered, ¬(x.src = p.src ∧ x.tag = p.tag)) → p.soff.toNat + packetBytes p ≤ 16 * p.data.length →
    awaitsLanding s p = false → TargetAccess s p .write (packetBytes p) pg →
    ∃ t, exec (.write p) s = .next t
      ∧ memRead t.mem pg.pa (packetBytes p) = ((p.data.flatMap fun x => leBytes 16 x.toNat).drop p.soff.toNat).take (packetBytes p)
      ∧ (∀ y, y < pg.pa ∨ pg.pa + packetBytes p ≤ y → memGet t.mem y = memGet (targetSeen s p .write).mem y)
      ∧ SentOn (dropPacket s p) t (answerOf p 4 []) ∧ t.fabric.remembered.head? = some ⟨p.src, p.tag, 0, false⟩ ∧ t.cores = s.cores)
  ∧ (∀ (s : State) (p : Packet), packetNext s p 3 = true → (∃ x ∈ s.fabric.remembered, x.src = p.src ∧ x.tag = p.tag) →
    (awaitsLanding s p = false → ∃ t, exec (.write p) s = .next t ∧ t.mem = s.mem ∧ t.cores = s.cores
      ∧ SentOn (dropPacket s p) t (answerOf p 4 []))
    ∧ (awaitsLanding s p = true → exec (.write p) s = .next (dropPacket s p)))
  ∧ (∀ (s s1 : State) (p : Packet) (old : Dword), packetNext s p 5 = true →
    (∀ x ∈ s.fabric.remembered, ¬(x.src = p.src ∧ x.tag = p.tag)) → PerformsFor s p old s1 →
    ∃ t, exec (.atomic p) s = .next t ∧ t.mem = s1.mem ∧ SentOn (dropPacket s1 p) t (answerOf p 6 [old.setWidth 128])
      ∧ t.fabric.remembered.head? = some ⟨p.src, p.tag, old.setWidth 128, true⟩)
  ∧ (∀ (s : State) (p : Packet) (r : RemoteReq), requestOf s p = some r → r.core < 512 →
    let other := windowChip r.addr ≠ s.fabric.group.self
    (packetNext s p 4 = true → other → Unhurried s r.core → ∃ t, exec (.wrack p) s = .next t ∧ t.mem = s.mem
      ∧ t.fabric.inFlight = dropFirst (fun x => x == r) s.fabric.inFlight
      ∧ (peerOf t.fabric (windowChip r.addr)).outBytes = (peerOf s.fabric (windowChip r.addr)).outBytes - requestSize r
      ∧ (∀ c, c ≠ r.core → coreAt t c = coreAt s c)
      ∧ coreAt t r.core = if r.st = .c then coreAt s r.core else (coreAt s r.core).modStream r.st fun x => { x with progress := true })
    ∧ (packetNext s p 2 = true → r.st = .v → takesFault (coreAt s r.core) .v = true → ∃ t, exec (.rdresp p) s = .next t
        ∧ t.mem = s.mem ∧ (coreAt t r.core).rbuf = (coreAt s r.core).rbuf ++ p.data.zipIdx.map (fun x =>
            (StreamId.v, BitVec.ofNat 64 (r.addr.toNat / 16 * 16 + 16 * x.2), x.1))
        ∧ ∀ c, c ≠ r.core → coreAt t c = coreAt s c)
    ∧ (packetNext s p 7 = true → r.st = .v → r.kind = .read → takesFault (coreAt s r.core) .v = true →
        ∃ t, exec (.errresp p) s = .next t ∧ t.mem = s.mem ∧ (coreAt t r.core).rfault = (coreAt s r.core).rfault
          ++ [(.v, r.addr, r.len, ⟨if p.aux = 2 then .buserr else .remote, 0, windowAddr p.dst (packetOffset p), 0⟩)])
    ∧ ∀ e : InFlight, other → (coreAt s r.core).raising = none → e.sync.push = false → (coreAt s r.core).inflight = [e] →
        e.wait = .remote r.tag → ∀ g, e.dest = .g g → g ≠ 0 →
        (packetNext s p 6 = true → ∃ t, exec (.atresp p) s = .next t ∧ t.mem = s.mem ∧ (coreAt t r.core).inflight = []
          ∧ (coreAt t r.core).readG g = (p.data.headD 0).extractLsb' 0 64)
        ∧ (packetNext s p 2 = true → r.st = .c → ∃ t, exec (.rdresp p) s = .next t ∧ t.mem = s.mem ∧ (coreAt t r.core).inflight = []
          ∧ (coreAt t r.core).readG g
            = loadValue e.conv (((p.data.flatMap fun x => leBytes 16 x.toNat).drop (r.addr.toNat % 16)).take r.len)))
  ∧ ∀ (p : Peer) (rtt : Nat), adjusted p rtt = if rtt < p.tgt.toNat then min 4194304 (p.allow + 4096)
      else if p.tgt.toNat < rtt then max 4096 (p.allow * (if p.fact = 0 then 128 else if p.fact = 1 then 192 else 224) / 256 / 256 * 256)
      else p.allow

namespace Sys2Proof.Claims

/-- The chip is a live member of the group, other than this chip. -/
def Live (s : State) (c : BitVec 12) : Prop := c ≠ s.fabric.group.self ∧ ∃ m ∈ s.fabric.group.members, m.chip = c ∧ m.failed = false

/-- Member `c` has been declared failed: its entries say so, its requests are gone, and the notice goes out (R406, R244). -/
def DeclaredFailed (s t : State) (c : BitVec 12) : Prop :=
  (∀ m ∈ t.fabric.group.members, m.chip = c → m.failed = true)
    ∧ t.fabric.group.members.map (·.chip) = s.fabric.group.members.map (·.chip)
    ∧ (∀ r ∈ t.fabric.inFlight, windowChip r.addr ≠ c) ∧ (.flood, .failed c s.fabric.group.epoch) ∈ t.fabric.mgmt
    ∧ recordsOf t 16 = recordsOf s 16 + 1

/-- No bundle version is open on a core or in a saved context of the chip. -/
def NoVersionOpen (s : State) : Prop := ∀ c, openOn (coreAt s c) = []

end Sys2Proof.Claims

/-- R405, R406: heartbeats go to each member each 2^20 cycles, and a member without one for 4 × 2^20 cycles, or named in a notice of this
EPOCH, is declared failed. R352, R353: advertisements, requests of at most one entry not below STEALTHR, and the items they bring. R408 to
R412: QUIESCE with a good plan freezes the allowances, a bad one sets BADPLAN; SETTLED, VIGIL rounds, DARK, RELOCK, LINKID, their timeouts, and
the commit that puts the plan in force. R407: a write to ALLOW is clamped, and a FACT of 3 leaves FACT. -/
def Obligations.GroupsFormAndRegroup : Prop :=
  (∀ s : State, s.fabric.rgState = .idle → 2 ^ 20 ≤ s.fabric.beat → ∃ t, exec .heartbeatSend s = .next t ∧ t.fabric.beat = 0
    ∧ t = { s with fabric := t.fabric } ∧ ∀ m ∈ s.fabric.group.members, m.chip ≠ s.fabric.group.self →
      (.chip m.chip, .heartbeat s.fabric.group.epoch) ∈ t.fabric.mgmt)
  ∧ (∀ (s : State) (src : Nat) (epoch : BitVec 32), Live s (BitVec.ofNat 12 src) → ∃ t, exec (.heartbeat src epoch) s = .next t
    ∧ (peerOf t.fabric (BitVec.ofNat 12 src)).sinceBeat = 0 ∧ t = { s with fabric := t.fabric })
  ∧ (∀ (s : State) (chip : Nat), Live s (BitVec.ofNat 12 chip) → (s.fabric.group.members.map (·.chip)).Nodup →
    (s.fabric.rgState = .idle → 4 * 2 ^ 20 ≤ (peerOf s.fabric (BitVec.ofNat 12 chip)).sinceBeat →
      flightTo s.fabric (BitVec.ofNat 12 chip) = [] → NoVersionOpen s →
      ∃ t, exec (.peerFailTimeout chip) s = .next t ∧ DeclaredFailed s t (BitVec.ofNat 12 chip) ∧ t.cores = s.cores)
    ∧ ((peerOf s.fabric (BitVec.ofNat 12 chip)).sinceBeat < 4 * 2 ^ 20 → exec (.peerFailTimeout chip) s = .next s)
    ∧ (flightTo s.fabric (BitVec.ofNat 12 chip) = [] → NoVersionOpen s →
        ∃ t, exec (.failed chip s.fabric.group.epoch) s = .next t ∧ DeclaredFailed s t (BitVec.ofNat 12 chip))
    ∧ ∀ epoch, epoch ≠ s.fabric.group.epoch → exec (.failed chip epoch) s = .next s)
  ∧ (∀ (s : State) (chip : Nat), BitVec.ofNat 12 chip = s.fabric.group.self →
    exec (.failed chip s.fabric.group.epoch) s = .next { s with fabric := { s.fabric with silenced := true } })
  ∧ (∀ s : State, s.fabric.rgState = .idle → 4096 ≤ s.fabric.advertAge → ∃ t, exec .stealAdvert s = .next t
    ∧ t.fabric.advertAge = 0 ∧ t = { s with fabric := t.fabric } ∧ ∀ n, n < 64 → (portAt s n).peer ≠ 0xFFF →
      ∀ x ∈ stealable s, (.chip (portAt s n).peer, .advert x.1 x.2.1 x.2.2) ∈ t.fabric.mgmt)
  ∧ (∀ (s : State) (src rid stage occ : Nat) (r : Region) (x : StageState), regionAt s rid = some r → stageOf r stage = some x →
    s.fabric.rgState = .idle → r.dead = false → r.removing = false → x.fusedPrev = false → x.status = 0 →
    (stageStealthr s r stage ≤ occ → spareCore s = true → ∃ t, exec (.advert src rid stage occ) s = .next t
      ∧ t.fabric.mgmt = (.chip (BitVec.ofNat 12 src), .stealAsk rid stage x.kernid) :: s.fabric.mgmt ∧ t = { s with fabric := t.fabric })
    ∧ (occ < stageStealthr s r stage → exec (.advert src rid stage occ) s = .next s)
    ∧ (∀ kernid : Dword, ∃ t, exec (.steal (.request src rid stage kernid)) s = .next t
        ∧ t.fabric.stealReqs = s.fabric.stealReqs ++ [(src, rid, stage, kernid)] ∧ t = { s with fabric := t.fabric })
    ∧ (∀ a : Dword, ∃ t r' x', exec (.steal (.answer rid stage (some a))) s = .next t ∧ regionAt t rid = some r'
        ∧ stageOf r' stage = some x' ∧ x'.stolen = x.stolen ++ [((windowChip a).toNat, a)] ∧ t.mem = s.mem))
  ∧ (∀ (s : State) (rid stage c : Nat) (item a : Dword) (o : Operator), (coreAt s c).op = some o → o.rid = rid → o.stage = some stage →
    o.back = .asked → o.item = some a → windowOfs a = item.toNat →
    ∃ t, exec (.steal (.inserted rid stage item)) s = .next t ∧ (coreAt t c).op = some { o with back := .done } ∧ t.mem = s.mem)
  ∧ (∀ (s : State) (chip rid stage : Nat) (kernid : Dword) (r : Region) (x : StageState),
    s.fabric.stealReqs.find? (fun x => x.1 == chip && x.2.1 == rid && x.2.2.1 == stage) = some (chip, rid, stage, kernid) →
    regionAt s rid = some r → stageOf r stage = some x →
    let asked : State := { s with fabric := { s.fabric with stealReqs := s.fabric.stealReqs.erase (chip, rid, stage, kernid) } }
    ((stageSteal s r stage = false ∨ occOf r stage < stageStealthr s r stage ∨ x.kernid ≠ kernid ∨ x.status ≠ 0 ∨ x.occ = 0) →
      ∃ t, exec (.stealRequest chip rid stage) s = .next t ∧ t.regions = s.regions ∧ t.mem = s.mem
        ∧ t.fabric.stealReqs = asked.fabric.stealReqs
        ∧ t.fabric.mgmt = (.chip (BitVec.ofNat 12 chip), .stealAnswer rid stage none) :: s.fabric.mgmt)
    ∧ ∀ item arrive s2 pa s3, stageSteal s r stage = true → stageStealthr s r stage ≤ occOf r stage → x.kernid = kernid → x.status = 0 →
      takeItem asked r stage = some (item, arrive, s2) → ItemOk s2 r item pa s3 → item.toNat < 2 ^ 40 → MemOk s →
      ∃ t r' x', exec (.stealRequest chip rid stage) s = .next t ∧ t.fabric.stealReqs = asked.fabric.stealReqs
        ∧ t.fabric.lent = s.fabric.lent ++ [(chip, rid, stage, item)]
        ∧ t.fabric.mgmt = (.chip (BitVec.ofNat 12 chip), .stealAnswer rid stage (some (windowAddr s.fabric.group.self item.toNat)))
            :: s.fabric.mgmt
        ∧ memGet t.mem (pa + 22) = memGet s2.mem (pa + 22) ||| 1 ∧ regionAt t rid = some r' ∧ stageOf r' stage = some x'
        ∧ x'.head = x.head + 1 ∧ x'.tail = x.tail ∧ t.cores = s.cores)
  ∧ (∀ (s : State) (chip rid stage : Nat) (r : Region) (x y : StageState) (item : Dword), s.fabric.lent = [(chip, rid, stage, item)] →
    regionAt s rid = some r → stageOf r stage = some x → x.fusedNext = false → stage + 1 < r.nstage → stage + 1 < 16 →
    stageOf r (stage + 1) = some y → occOf r (stage + 1) < stageQcap s r (stage + 1) →
    ∃ t r' y', exec (.stolenEmit rid stage item) s = .next t ∧ t.fabric.lent = [] ∧ regionAt t rid = some r'
      ∧ stageOf r' (stage + 1) = some y' ∧ y'.tail = y.tail + 1 ∧ y'.arrives.map (·.1) = y.arrives.map (·.1) ++ [item]
      ∧ t.fabric.mgmt = (.chip (BitVec.ofNat 12 chip), .stolenAck rid stage item) :: s.fabric.mgmt)
  ∧ (∀ s : State, s.fabric.rgState = .idle →
    let xs := physRead s s.fabric.rgplan.toNat 16960
    let good := s.fabric.rgplan.toNat % 64 = 0 ∧ planForm xs = true ∧ planValid s.fabric.group.self (planTable xs) (planLinks xs) = true
      ∧ (planTable xs).epoch ≠ s.fabric.group.epoch
    (good → ∃ t, exec .quiesce s = .next t ∧ t.fabric.rgState = .quiescing ∧ t.fabric.frz = true ∧ t.fabric.plan = some (planTable xs)
      ∧ t.fabric.settled = false ∧ t.fabric.group = s.fabric.group ∧ (∀ p ∈ t.fabric.peers, p.trip = none) ∧ t = { s with fabric := t.fabric })
    ∧ (¬good → exec .quiesce s = .next { s with fabric := { s.fabric with badplan := true } }))
  ∧ (∀ s : State, s.fabric.rgState = .quiescing → s.fabric.settled = false →
    (s.fabric.inFlight ≠ [] → exec .settled s = .next s)
    ∧ (s.fabric.inFlight = [] → s.fabric.upPorts = [] → ∃ t, exec .settled s = .next t ∧ t.fabric.rgState = .dark
        ∧ ∀ n, n < 64 → (portAt t n).state = .dark)
    ∧ (s.fabric.inFlight = [] → s.fabric.upPorts ≠ [] → (∀ n ∈ s.fabric.upPorts, (portAt s n).vigilTx = 0 ∧ (portAt s n).vigils = []) →
        ∃ t, exec .settled s = .next t ∧ t.fabric.rgState = .quiescing ∧ t.fabric.settled = true
          ∧ ∀ n ∈ s.fabric.upPorts, (portAt t n).vigilTx = 1 ∧ (portAt t n).vigils = [1]))
  ∧ (∀ (s : State) (n round : Nat) (epoch : BitVec 32), (n, round, epoch) ∈ s.fabric.rxVigils → n < 64 →
    (epoch = s.fabric.group.epoch → s.fabric.rgState = .idle → ∃ t, exec (.vigil n round epoch) s = .next t
      ∧ (portAt t n).vigilRx = max (portAt s n).vigilRx round ∧ t.fabric.rgState = .idle)
    ∧ (epoch = s.fabric.group.epoch → s.fabric.rgState = .quiescing → s.fabric.settled = true → s.fabric.upPorts = [n] →
        (portAt s n).vigilTx = s.fabric.group.diameter → (portAt s n).vigils = [] → s.fabric.group.diameter ≤ 24 → (portAt s n).vigilRx < round →
        round = s.fabric.group.diameter →
        ∃ t, exec (.vigil n round epoch) s = .next t ∧ t.fabric.rgState = .dark))
  ∧ (∀ s : State, s.fabric.rgState = .quiescing → (∀ m ∈ s.fabric.group.members, flightTo s.fabric m.chip = []) →
    (2 ^ 24 ≤ s.fabric.rgCycles → ∃ t, exec .quiesceTimeout s = .next t ∧ t.fabric.rgState = .dark ∧ t.fabric.timeout = true)
    ∧ (s.fabric.rgCycles < 2 ^ 24 → exec .quiesceTimeout s = .next s))
  ∧ (∀ (s : State) (g : GroupTable), s.fabric.rgState = .dark → s.fabric.plan = some g → ∃ t, exec .relock s = .next t
    ∧ t.fabric.rgState = .relocking ∧ t.fabric.group = s.fabric.group
    ∧ (∀ l ∈ s.fabric.planPorts, l.1 < 64 → (portAt t l.1).txSeq = 0 ∧ (portAt t l.1).rxE = 0
        ∧ ((∃ b, b < 4 ∧ ((portAt s l.1).bandAt b).failed ≠ 15) → (portAt t l.1).state = .dark
            ∧ (.port l.1, .linkid g.self l.1 g.epoch) ∈ t.fabric.mgmt)
        ∧ ((∀ b, b < 4 → ((portAt s l.1).bandAt b).failed = 15) → (portAt t l.1).state = .down))
    ∧ ∀ n, n < 64 → (∀ l ∈ s.fabric.planPorts, l.1 ≠ n) → (portAt t n).state = .down)
  ∧ (∀ s : State, s.fabric.rgState ≠ .dark → exec .relock s = .next s)
  ∧ (∀ (s : State) (g : GroupTable) (n peer peerPort : Nat) (epoch : BitVec 32) (l : Nat × BitVec 12 × BitVec 6), n < 64 →
    s.fabric.rgState = .relocking → s.fabric.plan = some g → s.fabric.planPorts.find? (fun l => l.1 == n) = some l →
    (portAt s n).state = .dark →
    (l.2.1.toNat = peer → l.2.2.toNat = peerPort → g.epoch = epoch → ∃ t, exec (.linkid n peer peerPort epoch) s = .next t
      ∧ (portAt t n).state = .up ∧ OnlyPort s t n)
    ∧ (¬(l.2.1.toNat = peer ∧ l.2.2.toNat = peerPort ∧ g.epoch = epoch) → ∃ t, exec (.linkid n peer peerPort epoch) s = .next t
        ∧ (portAt t n).state = .down ∧ t.fabric.mismatch = true ∧ recordsOf t 16 = recordsOf s 16 + 1))
  ∧ (∀ s : State, s.fabric.rgState = .relocking →
    (2 ^ 22 ≤ s.fabric.rgCycles → openLinks s.fabric ≠ [] → ∃ t, exec .relockTimeout s = .next t ∧ t.fabric.timeout = true
      ∧ ∀ n ∈ openLinks s.fabric, n < 64 → (portAt t n).state = .down)
    ∧ (s.fabric.rgCycles < 2 ^ 22 → exec .relockTimeout s = .next s)
    ∧ (openLinks s.fabric ≠ [] → exec .regroupCommit s = .next s))
  ∧ (∀ (s : State) (g : GroupTable), s.fabric.rgState = .relocking → s.fabric.plan = some g → openLinks s.fabric = [] →
    NoVersionOpen s → s.fabric.held = [] → ∃ t, exec .regroupCommit s = .next t ∧ t.fabric.group = g
      ∧ t.fabric.rgState = .idle ∧ t.fabric.frz = false ∧ recordsOf t 16 = recordsOf s 16 + 1 ∧ t.cores = s.cores
      ∧ (∀ m ∈ s.fabric.group.members, m.chip ≠ g.self → (g.find m.chip).isSome = true →
          (peerOf t.fabric m.chip).allow = (peerOf s.fabric m.chip).allow)
      ∧ ∀ m ∈ g.members, m.chip ≠ g.self → (s.fabric.group.find m.chip).isNone = true →
          (peerOf t.fabric m.chip).allow = (let n := (peerOf s.fabric m.chip).start; if n = 0 then 4194304 else 4096 * n.toNat))
  ∧ (∀ (s : State) (n : Nat), n < 64 → (portAt s n).state = .up → s.fabric.plan = none →
    ∃ t, exec (.committed n s.fabric.group.epoch) s = .next t ∧ OnlyPort s t n ∧ portAt t n = { portAt s n with commRx := true })
  ∧ ∀ (s : State) (c : Nat) (v : BitVec 64), c < 4096 →
    (∃ t, exec (.allowWrite c v) s = .next t ∧ t = { s with fabric := t.fabric }
      ∧ (peerOf t.fabric (BitVec.ofNat 12 c)).allow = max 4096 (min 4194304 (v.toNat % 2 ^ 23)))
    ∧ ∃ t, exec (.alcfgWrite c v) s = .next t ∧ t = { s with fabric := t.fabric }
      ∧ (let p := peerOf t.fabric (BitVec.ofNat 12 c)
         p.start = BitVec.ofNat 10 (v.toNat / 2 ^ 36) ∧ p.tgt = BitVec.ofNat 32 v.toNat
         ∧ p.fact = if v.toNat / 2 ^ 34 % 4 = 3 then (peerOf s.fabric (BitVec.ofNat 12 c)).fact else BitVec.ofNat 2 (v.toNat / 2 ^ 34))
namespace Sys2Proof.Claims

/-- The words of the rest of a stream's line, from the slot it stands at. -/
def lineRest (s : State) (c : Nat) (st : StreamId) (l : CodeLine) : List Word :=
  (l.words.take 16).drop ((coreAt s c).stream st).slot

/-- Stream `st` of core `c` stands at an instruction of line `l` and may issue it: the core is not stopped, stopping or being emptied, no
exposed result is still to be written, and the stream's earlier instruction has gone far enough (R17, R104, R142, R369). -/
def Ready (s : State) (c : Nat) (st : StreamId) (l : CodeLine) : Prop :=
  let k := coreAt s c
  k.stopped = false ∧ k.raising = none ∧ k.due = false ∧ k.draining = false ∧ (k.stream st).run = .run ∧ (k.stream st).line = some l
    ∧ (st = .c → k.block = none ∧ k.issued = false ∧ k.stall = 0) ∧ (st ≠ .c → (k.stream st).op = .none)

/-- The action of a stream comes in its place: no action of a higher stream has been taken in this cycle (R49, R372), and a handle that
the cluster shares has been moved by no higher core in it (R24). -/
def Timely (s : State) (c : Nat) (st : StreamId) (i : Instr) : Prop :=
  (coreAt s c).rank ≤ streamRank st ∧ (movesShared s c i = true → (clusterAt s (clusterOf c)).cbTurn ≤ c)

/-- Cell `n` of tile `z` of core `c` (R32). -/
def cellAt (s : State) (c : Nat) (z : BitVec 1) (n : Nat) : Cell := (vget (coreAt s c).z z.toNat Tile.zero).cell n

/-- An instruction of a stream's map, or a hint (R48, R50 to R54). -/
def InMap (i : Instr) (st : StreamId) : Prop := i.place = .one st ∨ i.place = .every

end Sys2Proof.Claims

/-- R19, R21, R33, R349, R404, R419: what reset leaves. Both memories list nothing and are in canonical form; that an unlisted byte reads 0 is
the model's choice (log 8). -/
def Obligations.ResetState : Prop :=
  MemOk State.reset ∧ (∀ a, memGet State.reset.mem a = 0) ∧ (∀ a, memGet State.reset.hostMem a = 0)
  ∧ (∀ c, let k := coreAt State.reset c
      (∀ st, (k.stream st).run = .idle ∧ (k.stream st).line = none) ∧ (∀ f, k.tokens f = 0) ∧ k.readG 0 = 0
      ∧ k.sr.mode = 0 ∧ k.sr.sat = false ∧ k.sr.peerlost = false ∧ k.sr.verify = false ∧ k.sr.pend = false ∧ k.sr.sstat = 0
      ∧ k.sr.cause = 0 ∧ k.sr.faddr = 0 ∧ k.sr.asid = 0 ∧ k.sr.seed = 0 ∧ k.sr.phn = 0 ∧ k.sr.bopenid = 0 ∧ k.sr.lagcnt = 0
      ∧ k.sr.ovfcnt = 0 ∧ k.sr.skipcnt = 0 ∧ k.sr.confcnt = 0 ∧ k.sr.vbank = 0)
  ∧ (∀ d, (dieAt State.reset d).cyc = 0) ∧ (∀ n, n < 8 → vget State.reset.deadlines n ⟨0, 0⟩ = ⟨0, 2 ^ 40⟩)
  ∧ State.reset.fabric.group = ⟨0, 0, 1, 1, 1, Config.chipId, [⟨Config.chipId, 0, 0, 0, false⟩]⟩
  ∧ State.reset.fabric.rgState = .idle ∧ State.reset.fabric.frz = false
  ∧ (∀ n, (portAt State.reset n).state = .down ∧ (portAt State.reset n).peer = 0xFFF
      ∧ ∀ b, ((portAt State.reset n).bandAt b).width = 0 ∧ ((portAt State.reset n).bandAt b).lit = 0)
  ∧ State.reset.fleet.evprod = 0 ∧ State.reset.fleet.evcons = 0 ∧ State.reset.regions = []

/-- The form of both memories that the model chooses (log 8) is an invariant of every step: a byte has one listing, and a listed byte is
not 0. -/
def Obligations.StepKeepsMemoryCanonical : Prop :=
  ∀ s t : State, MemOk s → step s = .next t → MemOk t

/-- One step runs the instruction that its input names. A stream that stands, ready, at words that its map accepts runs that instruction; where the map refuses them it raises
ILLEGAL (R47); a stream that is not ready leaves the machine as it is. An event of the machine runs its meaning, a clock input ends
a cycle, a soft error comes (R422: one in an accumulator cell poisons it where its parity finds it), an answer to KVIEW or a new base of BAR2 is noted, and without input the model takes a turn of its own (log 1). An action that comes
behind its place in the order of its cycle has no effect (log 61). R17, R31: an instruction that issues takes a sequence number and its stream goes to the next slot that holds no PAD. -/
def Obligations.StepRunsDecodedInstruction : Prop :=
  (∀ (s : State) (c : Fin 512) (st : StreamId) (l : CodeLine) (rest : List Action), s.inputs = .issue c st :: rest →
    Ready s c.val st l →
    let s0 := { s with inputs := rest }
    (∀ i, decode st (lineRest s c.val st l) = .ok i → i.wf = true ∧ InMap i st
      ∧ (Timely s c.val st i →
          step s = exec i { noteIssue s0 c.val st i with cur := ⟨c, st, lengthOf (lineRest s c.val st l)⟩ })
      ∧ (¬Timely s c.val st i → step s = .next s0))
    ∧ (∀ e, decode st (lineRest s c.val st l) = .error e → Timely s c.val st .illegalInstruction →
      step s = exec .illegalInstruction { noteIssue s0 c.val st .illegalInstruction with cur := ⟨c, st, 1⟩ }))
  ∧ (∀ (s : State) (c : Fin 512) (st : StreamId) (i : Instr), let t := noteIssue s c.val st i
      t = { s with cores := t.cores, clusters := t.clusters } ∧ coreAt t c.val = { coreAt s c.val with rank := streamRank st }
      ∧ (∀ d, d ≠ c.val → coreAt t d = coreAt s d) ∧ (movesShared s c.val i = false → t.clusters = s.clusters))
  ∧ (∀ (s : State) (c : Fin 512) (st : StreamId) (rest : List Action), s.inputs = .issue c st :: rest →
      (∀ l, ¬Ready s c.val st l) → step s = .next { s with inputs := rest })
  ∧ (∀ (s : State) (c : Fin 512) (i : Instr) (rest : List Action), s.inputs = .event c i :: rest →
      let s0 := { s with inputs := rest }
      (i.place = .event → inOrder s c.val i = true → step s = exec i { noteOrder s0 c.val i with cur := ⟨c, eventStream i, 0⟩ })
      ∧ (i.place = .event → inOrder s c.val i = false → step s = .next s0)
      ∧ (i.place = .event → eventRank i = none → queueRank c.val i = none → grantRank i = none →
          inOrder s c.val i = true ∧ noteOrder s0 c.val i = s0)
      ∧ (i.place ≠ .event → step s = .fault .notAnEvent))
  ∧ (∀ (s : State) (d : Fin 4) (rest : List Action), s.inputs = .tick d :: rest → step s = .next (tick { s with inputs := rest } d.val))
  ∧ (∀ (s : State) (e : SoftError) (rest : List Action), s.inputs = .flip e :: rest →
      ((∃ c st, e = .line c st) ∨ (∃ c b x, e = .staging c b x) → step s = .next { s with inputs := rest, soft := s.soft ++ [e] })
      ∧ (∀ c z n x, e = .cell c z n x → c < 512 → n < 32768 → ∃ t, step s = .next t ∧ t.mem = s.mem ∧ t.soft = s.soft
          ∧ (∀ d, d ≠ c → coreAt t d = coreAt s d)
          ∧ let old := cellAt s c z n
            cellAt t c z n = { old with value := old.value ^^^ x, poi := old.poi || old.par != parity (old.value ^^^ x) }
            ∧ ∀ y m, y ≠ z ∨ m ≠ n → cellAt t c y m = cellAt s c y m)
      ∧ (e = .ecrc → ∃ t, step s = .next t ∧ recordsOf t 17 = recordsOf s 17 + 1 ∧ t.mem = s.mem ∧ t.cores = s.cores))
  ∧ (∀ (s : State) (x : FarAnswer) (rest : List Action), s.inputs = .answerView x :: rest →
      step s = .next { s with inputs := rest, far := x })
  ∧ (∀ (s : State) (base : BitVec 44) (rest : List Action), s.inputs = .placeBar2 base :: rest →
      step s = .next { s with inputs := rest, fleet := { s.fleet with bar2 := base.toNat } })
  ∧ (∀ s : State, s.inputs = [] →
      (∀ a, ownTurn s = .inl a → step s = step { s with turn := s.turn + 1, inputs := [a] })
      ∧ ∀ f, ownTurn s = .inr f → step s = f { s with turn := s.turn + 1 })
  ∧ ∀ (s : State) (m : CM) (l : CodeLine) (i : Nat), (mine s).canIssue m [] = true → ((mine s).stream .c).line = some l →
      l.side = false → nextSlot l.words (((mine s).stream .c).slot + s.cur.len) = some i →
      ∃ t, exec (.nop m) s = .next t ∧ ((mine t).stream .c).slot = i ∧ ((mine t).stream .c).line = some l
        ∧ ((mine t).stream .c).seq = ((mine s).stream .c).seq + 1

/-- No instruction and no event of the opcode table stops the machine, in any state and with any operands: where it waits, traps, is turned away or has no
effect, exec still answers a next state. The one stop is a step whose input gives as an event an instruction of a stream. -/
def Obligations.EveryInstructionAnswersNext : Prop :=
  (∀ (i : Instr) (s : State), ∃ t, exec i s = .next t)
  ∧ ∀ s : State, (∃ t, step s = .next t) ∨ (step s = .fault .notAnEvent ∧ ∃ c i rest, s.inputs = .event c i :: rest ∧ i.place ≠ .event)

/-- R40 to R54: for every instruction that has an encoding, with every operand at every value that its encoding admits, decoding its
words gives it back in its own stream whatever follows it in the line, and a hint in every stream; it takes 1, 2 or 4 words, as its length code
says. And what a map accepts is exactly the words of what it decodes to. -/
def Obligations.DecodingInvertsEncoding : Prop :=
  (∀ (i : Instr) (st : StreamId) (more : List Word), i.wf = true → InMap i st →
    decode st (encode i ++ more) = .ok i ∧ lengthOf (encode i ++ more) = (encode i).length
    ∧ ((encode i).length = 1 ∨ (encode i).length = 2 ∨ (encode i).length = 4))
  ∧ ∀ (st : StreamId) (ws : List Word) (i : Instr), decode st ws = .ok i → encode i = ws.take (lengthOf ws) ∧ i.wf = true ∧ InMap i st

/-- The words that the spec's own examples assemble (02 to 08, 12) decode to the instructions they stand for, in every map; and the fates
that R47 and R48 give to words that a map refuses or takes as a hint. -/
def Obligations.HandWrittenWordsDecode : Prop :=
  let n : Sync := ⟨false, 0, false, 0⟩
  decode .c [0x02050C85] = .ok (.add ⟨⟨false, 0, true, 1⟩, false⟩ 3 4 5)
  ∧ decode .c [0x02408C80, 0xFFFFFFF8] = .ok (.addI ⟨n, true⟩ 3 4 0xFFFFFFF8)
  ∧ decode .c [0x20801800, 0x9ABCDEF0, 0x12345678, 0] = .ok (.liWide ⟨n, false⟩ 6 0x9ABCDEF0 0x12345678)
  ∧ decode .c [0x94000000] = .ok (.endOp ⟨n, false⟩)
  ∧ decode .c [0x60400400, 0x01000005] = .ok (.pbr ⟨n, false⟩ 1 0x1000005)
  ∧ decode .c [0x0C009443] = .ok (.mul ⟨n, true⟩ 5 2 3) ∧ decode .c [0x62000481] = .ok (.br ⟨n, false⟩ 1 4 1)
  ∧ decode .v [0x01400400, 0x00400000] = .ok (.vrd n ⟨0, 1, 0, 0, 4⟩)
  ∧ decode .v [0x06400820, 0] = .ok (.vsplat n ⟨1, 0, true, 0⟩)
  ∧ decode .v [0x1340C310, 0x00480000] = .ok (.vfmaV2 n ⟨48, 49, 0, 0, 4, 32, 0, false, false, false, false, false, 0⟩)
  ∧ decode .v [0x34008000] = .ok (.vred n ⟨32, 0, 0, 0⟩)
  ∧ decode .v [0x02408048, 0x00100000] = .ok (.vwr n ⟨32, 1, 2, 0, 1, false, false⟩)
  ∧ decode .w [0x01404000, 0x04FB0000] = .ok (.wcfg n ⟨false, true, false, 0, 4, 0x3EC⟩)
  ∧ decode .m [0x0340BF00, 0x00000042] = .ok (.mcfg n ⟨1, 1, 0x1F0, 2, 2⟩)
  ∧ decode .m [0x20809800, 0x20800000, 0, 0] = .ok (.mstr n ⟨1, 3, 0, 32, 64⟩ ⟨0, false, 0, 0, false, 0⟩)
  ∧ decode .m [0x21801080, 0x40009028, 0x00080004, 0] = .ok (.mconv n ⟨0, 2, 1, 64, 0, 2, 2, 0, 0, 1, 1, 8, 4, false, 0⟩)
  ∧ decode .m [0x22400000, 0x00000009] = .ok (.mspr n ⟨0, true, 1⟩)
  ∧ decode .k [0x01801200, 0x00100240, 0x00001000, 0xA4000000]
      = .ok (.kcopy n ⟨1, 2, 0, 0, false, 1, 0, 0, true, 1, 0x1000, 2, 2, 1, false, false, 0, 0, false⟩)
  ∧ decode .k [0x21801240, 0x00000E80, 0x02400000, 0]
      = .ok (.kimg n ⟨1, 2, 4, 0, false, 0, 0, 3, true, 2, 0x2400000, 0, 0, 0, false, false, 0, 0, false⟩)
  ∧ decode .v [0xF2800000, 7, 8, 9] = .ok (.hintLong n 2 0 (.four 7 8 9)) ∧ decode .c [0xF2C00000] = .error .lengthCode
  ∧ decode .c [0x00000001] = .error .opcode ∧ decode .c [0x01400000, 0] = .error .opcode ∧ decode .c [0x02080000] = .error .badField
  ∧ decode .c [0xA1000000] = .error .opcode ∧ decode .w [0x06000000] = .error .opcode
end

