-- ==== Sys2Proof/Laws/Vectors.lean ====
section
/-! SUPPORT. Reads after writes of the fixed-size vectors and keyed lists that State is made of. -/

namespace Sys2Proof.Machine

variable {α : Type} {n : Nat}

theorem vget_of_lt (v : Vector α n) (i : Nat) (d : α) (h : i < n) : vget v i d = v[i] := by
  simp [vget, List.getD, h]

theorem vget_of_le (v : Vector α n) (i : Nat) (d : α) (h : n ≤ i) : vget v i d = d := by
  simp [vget, List.getD, h]

@[simp] theorem vget_vset_self (v : Vector α n) (i : Nat) (x d : α) (h : i < n) : vget (vset v i x) i d = x := by
  simp [vset, h, vget_of_lt]

@[simp] theorem vget_vset_ne (v : Vector α n) (i j : Nat) (x d : α) (h : j ≠ i) : vget (vset v i x) j d = vget v j d := by
  unfold vset
  split
  · rcases Nat.lt_or_ge j n with hj | hj
    · simp [vget_of_lt, hj, h.symm]
    · simp [vget_of_le, hj]
  · rfl

@[simp] theorem vget_vmod_self (v : Vector α n) (i : Nat) (f : α → α) (d : α) (h : i < n) :
    vget (vmod v i f) i d = f (vget v i d) := by
  simp [vmod, h, vget_of_lt]

@[simp] theorem vget_vmod_ne (v : Vector α n) (i j : Nat) (f : α → α) (d : α) (h : j ≠ i) :
    vget (vmod v i f) j d = vget v j d := by
  unfold vmod
  split
  · rcases Nat.lt_or_ge j n with hj | hj
    · simp [vget_of_lt, hj, h.symm]
    · simp [vget_of_le, hj]
  · rfl

@[simp] theorem vmod_id (v : Vector α n) (i : Nat) : vmod v i (fun x => x) = v := by
  unfold vmod
  split
  · simp
  · rfl

end Sys2Proof.Machine
end

