-- ==== Sys2Proof/Laws/State.lean ====
section
/-! SUPPORT. Field by field, what each update of State and of Core changes and what it leaves. -/

namespace Sys2Proof.Machine

/-! setCore. -/

@[simp] theorem setCore_inputs (s : State) (c : Nat) (k : Core) : (setCore s c k).inputs = s.inputs := rfl
@[simp] theorem setCore_turn (s : State) (c : Nat) (k : Core) : (setCore s c k).turn = s.turn := rfl
@[simp] theorem setCore_cur (s : State) (c : Nat) (k : Core) : (setCore s c k).cur = s.cur := rfl
@[simp] theorem setCore_queueTurn (s : State) (c : Nat) (k : Core) : (setCore s c k).queueTurn = s.queueTurn := rfl
@[simp] theorem setCore_grantTurn (s : State) (c : Nat) (k : Core) : (setCore s c k).grantTurn = s.grantTurn := rfl
@[simp] theorem setCore_free (s : State) (c : Nat) (k : Core) : (setCore s c k).free = s.free := rfl
@[simp] theorem setCore_mem (s : State) (c : Nat) (k : Core) : (setCore s c k).mem = s.mem := rfl
@[simp] theorem setCore_bad (s : State) (c : Nat) (k : Core) : (setCore s c k).bad = s.bad := rfl
@[simp] theorem setCore_soft (s : State) (c : Nat) (k : Core) : (setCore s c k).soft = s.soft := rfl
@[simp] theorem setCore_far (s : State) (c : Nat) (k : Core) : (setCore s c k).far = s.far := rfl
@[simp] theorem setCore_hostMem (s : State) (c : Nat) (k : Core) : (setCore s c k).hostMem = s.hostMem := rfl
@[simp] theorem setCore_clusters (s : State) (c : Nat) (k : Core) : (setCore s c k).clusters = s.clusters := rfl
@[simp] theorem setCore_dies (s : State) (c : Nat) (k : Core) : (setCore s c k).dies = s.dies := rfl
@[simp] theorem setCore_phase (s : State) (c : Nat) (k : Core) : (setCore s c k).phase = s.phase := rfl
@[simp] theorem setCore_tags (s : State) (c : Nat) (k : Core) : (setCore s c k).tags = s.tags := rfl
@[simp] theorem setCore_retained (s : State) (c : Nat) (k : Core) : (setCore s c k).retained = s.retained := rfl
@[simp] theorem setCore_pending (s : State) (c : Nat) (k : Core) : (setCore s c k).pending = s.pending := rfl
@[simp] theorem setCore_homes (s : State) (c : Nat) (k : Core) : (setCore s c k).homes = s.homes := rfl
@[simp] theorem setCore_bstores (s : State) (c : Nat) (k : Core) : (setCore s c k).bstores = s.bstores := rfl
@[simp] theorem setCore_rstores (s : State) (c : Nat) (k : Core) : (setCore s c k).rstores = s.rstores := rfl
@[simp] theorem setCore_huff (s : State) (c : Nat) (k : Core) : (setCore s c k).huff = s.huff := rfl
@[simp] theorem setCore_regions (s : State) (c : Nat) (k : Core) : (setCore s c k).regions = s.regions := rfl
@[simp] theorem setCore_deadlines (s : State) (c : Nat) (k : Core) : (setCore s c k).deadlines = s.deadlines := rfl
@[simp] theorem setCore_fns (s : State) (c : Nat) (k : Core) : (setCore s c k).fns = s.fns := rfl
@[simp] theorem setCore_gheahInv (s : State) (c : Nat) (k : Core) : (setCore s c k).gheahInv = s.gheahInv := rfl
@[simp] theorem setCore_fleet (s : State) (c : Nat) (k : Core) : (setCore s c k).fleet = s.fleet := rfl
@[simp] theorem setCore_fabric (s : State) (c : Nat) (k : Core) : (setCore s c k).fabric = s.fabric := rfl

/-! modCore. -/

@[simp] theorem modCore_inputs (s : State) (c : Nat) (f : Core → Core) : (modCore s c f).inputs = s.inputs := rfl
@[simp] theorem modCore_turn (s : State) (c : Nat) (f : Core → Core) : (modCore s c f).turn = s.turn := rfl
@[simp] theorem modCore_cur (s : State) (c : Nat) (f : Core → Core) : (modCore s c f).cur = s.cur := rfl
@[simp] theorem modCore_queueTurn (s : State) (c : Nat) (f : Core → Core) : (modCore s c f).queueTurn = s.queueTurn := rfl
@[simp] theorem modCore_grantTurn (s : State) (c : Nat) (f : Core → Core) : (modCore s c f).grantTurn = s.grantTurn := rfl
@[simp] theorem modCore_free (s : State) (c : Nat) (f : Core → Core) : (modCore s c f).free = s.free := rfl
@[simp] theorem modCore_mem (s : State) (c : Nat) (f : Core → Core) : (modCore s c f).mem = s.mem := rfl
@[simp] theorem modCore_bad (s : State) (c : Nat) (f : Core → Core) : (modCore s c f).bad = s.bad := rfl
@[simp] theorem modCore_soft (s : State) (c : Nat) (f : Core → Core) : (modCore s c f).soft = s.soft := rfl
@[simp] theorem modCore_far (s : State) (c : Nat) (f : Core → Core) : (modCore s c f).far = s.far := rfl
@[simp] theorem modCore_hostMem (s : State) (c : Nat) (f : Core → Core) : (modCore s c f).hostMem = s.hostMem := rfl
@[simp] theorem modCore_clusters (s : State) (c : Nat) (f : Core → Core) : (modCore s c f).clusters = s.clusters := rfl
@[simp] theorem modCore_dies (s : State) (c : Nat) (f : Core → Core) : (modCore s c f).dies = s.dies := rfl
@[simp] theorem modCore_phase (s : State) (c : Nat) (f : Core → Core) : (modCore s c f).phase = s.phase := rfl
@[simp] theorem modCore_tags (s : State) (c : Nat) (f : Core → Core) : (modCore s c f).tags = s.tags := rfl
@[simp] theorem modCore_retained (s : State) (c : Nat) (f : Core → Core) : (modCore s c f).retained = s.retained := rfl
@[simp] theorem modCore_pending (s : State) (c : Nat) (f : Core → Core) : (modCore s c f).pending = s.pending := rfl
@[simp] theorem modCore_homes (s : State) (c : Nat) (f : Core → Core) : (modCore s c f).homes = s.homes := rfl
@[simp] theorem modCore_bstores (s : State) (c : Nat) (f : Core → Core) : (modCore s c f).bstores = s.bstores := rfl
@[simp] theorem modCore_rstores (s : State) (c : Nat) (f : Core → Core) : (modCore s c f).rstores = s.rstores := rfl
@[simp] theorem modCore_huff (s : State) (c : Nat) (f : Core → Core) : (modCore s c f).huff = s.huff := rfl
@[simp] theorem modCore_regions (s : State) (c : Nat) (f : Core → Core) : (modCore s c f).regions = s.regions := rfl
@[simp] theorem modCore_deadlines (s : State) (c : Nat) (f : Core → Core) : (modCore s c f).deadlines = s.deadlines := rfl
@[simp] theorem modCore_fns (s : State) (c : Nat) (f : Core → Core) : (modCore s c f).fns = s.fns := rfl
@[simp] theorem modCore_gheahInv (s : State) (c : Nat) (f : Core → Core) : (modCore s c f).gheahInv = s.gheahInv := rfl
@[simp] theorem modCore_fleet (s : State) (c : Nat) (f : Core → Core) : (modCore s c f).fleet = s.fleet := rfl
@[simp] theorem modCore_fabric (s : State) (c : Nat) (f : Core → Core) : (modCore s c f).fabric = s.fabric := rfl

/-! modCluster. -/

@[simp] theorem modCluster_inputs (s : State) (n : Nat) (f : Cluster → Cluster) : (modCluster s n f).inputs = s.inputs := rfl
@[simp] theorem modCluster_turn (s : State) (n : Nat) (f : Cluster → Cluster) : (modCluster s n f).turn = s.turn := rfl
@[simp] theorem modCluster_cur (s : State) (n : Nat) (f : Cluster → Cluster) : (modCluster s n f).cur = s.cur := rfl
@[simp] theorem modCluster_queueTurn (s : State) (n : Nat) (f : Cluster → Cluster) : (modCluster s n f).queueTurn = s.queueTurn := rfl
@[simp] theorem modCluster_grantTurn (s : State) (n : Nat) (f : Cluster → Cluster) : (modCluster s n f).grantTurn = s.grantTurn := rfl
@[simp] theorem modCluster_free (s : State) (n : Nat) (f : Cluster → Cluster) : (modCluster s n f).free = s.free := rfl
@[simp] theorem modCluster_mem (s : State) (n : Nat) (f : Cluster → Cluster) : (modCluster s n f).mem = s.mem := rfl
@[simp] theorem modCluster_bad (s : State) (n : Nat) (f : Cluster → Cluster) : (modCluster s n f).bad = s.bad := rfl
@[simp] theorem modCluster_soft (s : State) (n : Nat) (f : Cluster → Cluster) : (modCluster s n f).soft = s.soft := rfl
@[simp] theorem modCluster_far (s : State) (n : Nat) (f : Cluster → Cluster) : (modCluster s n f).far = s.far := rfl
@[simp] theorem modCluster_hostMem (s : State) (n : Nat) (f : Cluster → Cluster) : (modCluster s n f).hostMem = s.hostMem := rfl
@[simp] theorem modCluster_cores (s : State) (n : Nat) (f : Cluster → Cluster) : (modCluster s n f).cores = s.cores := rfl
@[simp] theorem modCluster_dies (s : State) (n : Nat) (f : Cluster → Cluster) : (modCluster s n f).dies = s.dies := rfl
@[simp] theorem modCluster_phase (s : State) (n : Nat) (f : Cluster → Cluster) : (modCluster s n f).phase = s.phase := rfl
@[simp] theorem modCluster_tags (s : State) (n : Nat) (f : Cluster → Cluster) : (modCluster s n f).tags = s.tags := rfl
@[simp] theorem modCluster_retained (s : State) (n : Nat) (f : Cluster → Cluster) : (modCluster s n f).retained = s.retained := rfl
@[simp] theorem modCluster_pending (s : State) (n : Nat) (f : Cluster → Cluster) : (modCluster s n f).pending = s.pending := rfl
@[simp] theorem modCluster_homes (s : State) (n : Nat) (f : Cluster → Cluster) : (modCluster s n f).homes = s.homes := rfl
@[simp] theorem modCluster_bstores (s : State) (n : Nat) (f : Cluster → Cluster) : (modCluster s n f).bstores = s.bstores := rfl
@[simp] theorem modCluster_rstores (s : State) (n : Nat) (f : Cluster → Cluster) : (modCluster s n f).rstores = s.rstores := rfl
@[simp] theorem modCluster_huff (s : State) (n : Nat) (f : Cluster → Cluster) : (modCluster s n f).huff = s.huff := rfl
@[simp] theorem modCluster_regions (s : State) (n : Nat) (f : Cluster → Cluster) : (modCluster s n f).regions = s.regions := rfl
@[simp] theorem modCluster_deadlines (s : State) (n : Nat) (f : Cluster → Cluster) : (modCluster s n f).deadlines = s.deadlines := rfl
@[simp] theorem modCluster_fns (s : State) (n : Nat) (f : Cluster → Cluster) : (modCluster s n f).fns = s.fns := rfl
@[simp] theorem modCluster_gheahInv (s : State) (n : Nat) (f : Cluster → Cluster) : (modCluster s n f).gheahInv = s.gheahInv := rfl
@[simp] theorem modCluster_fleet (s : State) (n : Nat) (f : Cluster → Cluster) : (modCluster s n f).fleet = s.fleet := rfl
@[simp] theorem modCluster_fabric (s : State) (n : Nat) (f : Cluster → Cluster) : (modCluster s n f).fabric = s.fabric := rfl

/-! modDie. -/

@[simp] theorem modDie_inputs (s : State) (n : Nat) (f : Die → Die) : (modDie s n f).inputs = s.inputs := rfl
@[simp] theorem modDie_turn (s : State) (n : Nat) (f : Die → Die) : (modDie s n f).turn = s.turn := rfl
@[simp] theorem modDie_cur (s : State) (n : Nat) (f : Die → Die) : (modDie s n f).cur = s.cur := rfl
@[simp] theorem modDie_queueTurn (s : State) (n : Nat) (f : Die → Die) : (modDie s n f).queueTurn = s.queueTurn := rfl
@[simp] theorem modDie_grantTurn (s : State) (n : Nat) (f : Die → Die) : (modDie s n f).grantTurn = s.grantTurn := rfl
@[simp] theorem modDie_free (s : State) (n : Nat) (f : Die → Die) : (modDie s n f).free = s.free := rfl
@[simp] theorem modDie_mem (s : State) (n : Nat) (f : Die → Die) : (modDie s n f).mem = s.mem := rfl
@[simp] theorem modDie_bad (s : State) (n : Nat) (f : Die → Die) : (modDie s n f).bad = s.bad := rfl
@[simp] theorem modDie_soft (s : State) (n : Nat) (f : Die → Die) : (modDie s n f).soft = s.soft := rfl
@[simp] theorem modDie_far (s : State) (n : Nat) (f : Die → Die) : (modDie s n f).far = s.far := rfl
@[simp] theorem modDie_hostMem (s : State) (n : Nat) (f : Die → Die) : (modDie s n f).hostMem = s.hostMem := rfl
@[simp] theorem modDie_cores (s : State) (n : Nat) (f : Die → Die) : (modDie s n f).cores = s.cores := rfl
@[simp] theorem modDie_clusters (s : State) (n : Nat) (f : Die → Die) : (modDie s n f).clusters = s.clusters := rfl
@[simp] theorem modDie_phase (s : State) (n : Nat) (f : Die → Die) : (modDie s n f).phase = s.phase := rfl
@[simp] theorem modDie_tags (s : State) (n : Nat) (f : Die → Die) : (modDie s n f).tags = s.tags := rfl
@[simp] theorem modDie_retained (s : State) (n : Nat) (f : Die → Die) : (modDie s n f).retained = s.retained := rfl
@[simp] theorem modDie_pending (s : State) (n : Nat) (f : Die → Die) : (modDie s n f).pending = s.pending := rfl
@[simp] theorem modDie_homes (s : State) (n : Nat) (f : Die → Die) : (modDie s n f).homes = s.homes := rfl
@[simp] theorem modDie_bstores (s : State) (n : Nat) (f : Die → Die) : (modDie s n f).bstores = s.bstores := rfl
@[simp] theorem modDie_rstores (s : State) (n : Nat) (f : Die → Die) : (modDie s n f).rstores = s.rstores := rfl
@[simp] theorem modDie_huff (s : State) (n : Nat) (f : Die → Die) : (modDie s n f).huff = s.huff := rfl
@[simp] theorem modDie_regions (s : State) (n : Nat) (f : Die → Die) : (modDie s n f).regions = s.regions := rfl
@[simp] theorem modDie_deadlines (s : State) (n : Nat) (f : Die → Die) : (modDie s n f).deadlines = s.deadlines := rfl
@[simp] theorem modDie_fns (s : State) (n : Nat) (f : Die → Die) : (modDie s n f).fns = s.fns := rfl
@[simp] theorem modDie_gheahInv (s : State) (n : Nat) (f : Die → Die) : (modDie s n f).gheahInv = s.gheahInv := rfl
@[simp] theorem modDie_fleet (s : State) (n : Nat) (f : Die → Die) : (modDie s n f).fleet = s.fleet := rfl
@[simp] theorem modDie_fabric (s : State) (n : Nat) (f : Die → Die) : (modDie s n f).fabric = s.fabric := rfl

/-! modRegion. -/

@[simp] theorem modRegion_inputs (s : State) (n : Nat) (f : Region → Region) : (modRegion s n f).inputs = s.inputs := rfl
@[simp] theorem modRegion_turn (s : State) (n : Nat) (f : Region → Region) : (modRegion s n f).turn = s.turn := rfl
@[simp] theorem modRegion_cur (s : State) (n : Nat) (f : Region → Region) : (modRegion s n f).cur = s.cur := rfl
@[simp] theorem modRegion_queueTurn (s : State) (n : Nat) (f : Region → Region) : (modRegion s n f).queueTurn = s.queueTurn := rfl
@[simp] theorem modRegion_grantTurn (s : State) (n : Nat) (f : Region → Region) : (modRegion s n f).grantTurn = s.grantTurn := rfl
@[simp] theorem modRegion_free (s : State) (n : Nat) (f : Region → Region) : (modRegion s n f).free = s.free := rfl
@[simp] theorem modRegion_mem (s : State) (n : Nat) (f : Region → Region) : (modRegion s n f).mem = s.mem := rfl
@[simp] theorem modRegion_bad (s : State) (n : Nat) (f : Region → Region) : (modRegion s n f).bad = s.bad := rfl
@[simp] theorem modRegion_soft (s : State) (n : Nat) (f : Region → Region) : (modRegion s n f).soft = s.soft := rfl
@[simp] theorem modRegion_far (s : State) (n : Nat) (f : Region → Region) : (modRegion s n f).far = s.far := rfl
@[simp] theorem modRegion_hostMem (s : State) (n : Nat) (f : Region → Region) : (modRegion s n f).hostMem = s.hostMem := rfl
@[simp] theorem modRegion_cores (s : State) (n : Nat) (f : Region → Region) : (modRegion s n f).cores = s.cores := rfl
@[simp] theorem modRegion_clusters (s : State) (n : Nat) (f : Region → Region) : (modRegion s n f).clusters = s.clusters := rfl
@[simp] theorem modRegion_dies (s : State) (n : Nat) (f : Region → Region) : (modRegion s n f).dies = s.dies := rfl
@[simp] theorem modRegion_phase (s : State) (n : Nat) (f : Region → Region) : (modRegion s n f).phase = s.phase := rfl
@[simp] theorem modRegion_tags (s : State) (n : Nat) (f : Region → Region) : (modRegion s n f).tags = s.tags := rfl
@[simp] theorem modRegion_retained (s : State) (n : Nat) (f : Region → Region) : (modRegion s n f).retained = s.retained := rfl
@[simp] theorem modRegion_pending (s : State) (n : Nat) (f : Region → Region) : (modRegion s n f).pending = s.pending := rfl
@[simp] theorem modRegion_homes (s : State) (n : Nat) (f : Region → Region) : (modRegion s n f).homes = s.homes := rfl
@[simp] theorem modRegion_bstores (s : State) (n : Nat) (f : Region → Region) : (modRegion s n f).bstores = s.bstores := rfl
@[simp] theorem modRegion_rstores (s : State) (n : Nat) (f : Region → Region) : (modRegion s n f).rstores = s.rstores := rfl
@[simp] theorem modRegion_huff (s : State) (n : Nat) (f : Region → Region) : (modRegion s n f).huff = s.huff := rfl
@[simp] theorem modRegion_deadlines (s : State) (n : Nat) (f : Region → Region) : (modRegion s n f).deadlines = s.deadlines := rfl
@[simp] theorem modRegion_fns (s : State) (n : Nat) (f : Region → Region) : (modRegion s n f).fns = s.fns := rfl
@[simp] theorem modRegion_gheahInv (s : State) (n : Nat) (f : Region → Region) : (modRegion s n f).gheahInv = s.gheahInv := rfl
@[simp] theorem modRegion_fleet (s : State) (n : Nat) (f : Region → Region) : (modRegion s n f).fleet = s.fleet := rfl
@[simp] theorem modRegion_fabric (s : State) (n : Nat) (f : Region → Region) : (modRegion s n f).fabric = s.fabric := rfl

/-! modPort. -/

@[simp] theorem modPort_inputs (s : State) (n : Nat) (f : Port → Port) : (modPort s n f).inputs = s.inputs := rfl
@[simp] theorem modPort_turn (s : State) (n : Nat) (f : Port → Port) : (modPort s n f).turn = s.turn := rfl
@[simp] theorem modPort_cur (s : State) (n : Nat) (f : Port → Port) : (modPort s n f).cur = s.cur := rfl
@[simp] theorem modPort_queueTurn (s : State) (n : Nat) (f : Port → Port) : (modPort s n f).queueTurn = s.queueTurn := rfl
@[simp] theorem modPort_grantTurn (s : State) (n : Nat) (f : Port → Port) : (modPort s n f).grantTurn = s.grantTurn := rfl
@[simp] theorem modPort_free (s : State) (n : Nat) (f : Port → Port) : (modPort s n f).free = s.free := rfl
@[simp] theorem modPort_mem (s : State) (n : Nat) (f : Port → Port) : (modPort s n f).mem = s.mem := rfl
@[simp] theorem modPort_bad (s : State) (n : Nat) (f : Port → Port) : (modPort s n f).bad = s.bad := rfl
@[simp] theorem modPort_soft (s : State) (n : Nat) (f : Port → Port) : (modPort s n f).soft = s.soft := rfl
@[simp] theorem modPort_far (s : State) (n : Nat) (f : Port → Port) : (modPort s n f).far = s.far := rfl
@[simp] theorem modPort_hostMem (s : State) (n : Nat) (f : Port → Port) : (modPort s n f).hostMem = s.hostMem := rfl
@[simp] theorem modPort_cores (s : State) (n : Nat) (f : Port → Port) : (modPort s n f).cores = s.cores := rfl
@[simp] theorem modPort_clusters (s : State) (n : Nat) (f : Port → Port) : (modPort s n f).clusters = s.clusters := rfl
@[simp] theorem modPort_dies (s : State) (n : Nat) (f : Port → Port) : (modPort s n f).dies = s.dies := rfl
@[simp] theorem modPort_phase (s : State) (n : Nat) (f : Port → Port) : (modPort s n f).phase = s.phase := rfl
@[simp] theorem modPort_tags (s : State) (n : Nat) (f : Port → Port) : (modPort s n f).tags = s.tags := rfl
@[simp] theorem modPort_retained (s : State) (n : Nat) (f : Port → Port) : (modPort s n f).retained = s.retained := rfl
@[simp] theorem modPort_pending (s : State) (n : Nat) (f : Port → Port) : (modPort s n f).pending = s.pending := rfl
@[simp] theorem modPort_homes (s : State) (n : Nat) (f : Port → Port) : (modPort s n f).homes = s.homes := rfl
@[simp] theorem modPort_bstores (s : State) (n : Nat) (f : Port → Port) : (modPort s n f).bstores = s.bstores := rfl
@[simp] theorem modPort_rstores (s : State) (n : Nat) (f : Port → Port) : (modPort s n f).rstores = s.rstores := rfl
@[simp] theorem modPort_huff (s : State) (n : Nat) (f : Port → Port) : (modPort s n f).huff = s.huff := rfl
@[simp] theorem modPort_regions (s : State) (n : Nat) (f : Port → Port) : (modPort s n f).regions = s.regions := rfl
@[simp] theorem modPort_deadlines (s : State) (n : Nat) (f : Port → Port) : (modPort s n f).deadlines = s.deadlines := rfl
@[simp] theorem modPort_fns (s : State) (n : Nat) (f : Port → Port) : (modPort s n f).fns = s.fns := rfl
@[simp] theorem modPort_gheahInv (s : State) (n : Nat) (f : Port → Port) : (modPort s n f).gheahInv = s.gheahInv := rfl
@[simp] theorem modPort_fleet (s : State) (n : Nat) (f : Port → Port) : (modPort s n f).fleet = s.fleet := rfl

/-! modFabric. -/

@[simp] theorem modFabric_inputs (s : State) (f : Fabric → Fabric) : (modFabric s f).inputs = s.inputs := rfl
@[simp] theorem modFabric_turn (s : State) (f : Fabric → Fabric) : (modFabric s f).turn = s.turn := rfl
@[simp] theorem modFabric_cur (s : State) (f : Fabric → Fabric) : (modFabric s f).cur = s.cur := rfl
@[simp] theorem modFabric_queueTurn (s : State) (f : Fabric → Fabric) : (modFabric s f).queueTurn = s.queueTurn := rfl
@[simp] theorem modFabric_grantTurn (s : State) (f : Fabric → Fabric) : (modFabric s f).grantTurn = s.grantTurn := rfl
@[simp] theorem modFabric_free (s : State) (f : Fabric → Fabric) : (modFabric s f).free = s.free := rfl
@[simp] theorem modFabric_mem (s : State) (f : Fabric → Fabric) : (modFabric s f).mem = s.mem := rfl
@[simp] theorem modFabric_bad (s : State) (f : Fabric → Fabric) : (modFabric s f).bad = s.bad := rfl
@[simp] theorem modFabric_soft (s : State) (f : Fabric → Fabric) : (modFabric s f).soft = s.soft := rfl
@[simp] theorem modFabric_far (s : State) (f : Fabric → Fabric) : (modFabric s f).far = s.far := rfl
@[simp] theorem modFabric_hostMem (s : State) (f : Fabric → Fabric) : (modFabric s f).hostMem = s.hostMem := rfl
@[simp] theorem modFabric_cores (s : State) (f : Fabric → Fabric) : (modFabric s f).cores = s.cores := rfl
@[simp] theorem modFabric_clusters (s : State) (f : Fabric → Fabric) : (modFabric s f).clusters = s.clusters := rfl
@[simp] theorem modFabric_dies (s : State) (f : Fabric → Fabric) : (modFabric s f).dies = s.dies := rfl
@[simp] theorem modFabric_phase (s : State) (f : Fabric → Fabric) : (modFabric s f).phase = s.phase := rfl
@[simp] theorem modFabric_tags (s : State) (f : Fabric → Fabric) : (modFabric s f).tags = s.tags := rfl
@[simp] theorem modFabric_retained (s : State) (f : Fabric → Fabric) : (modFabric s f).retained = s.retained := rfl
@[simp] theorem modFabric_pending (s : State) (f : Fabric → Fabric) : (modFabric s f).pending = s.pending := rfl
@[simp] theorem modFabric_homes (s : State) (f : Fabric → Fabric) : (modFabric s f).homes = s.homes := rfl
@[simp] theorem modFabric_bstores (s : State) (f : Fabric → Fabric) : (modFabric s f).bstores = s.bstores := rfl
@[simp] theorem modFabric_rstores (s : State) (f : Fabric → Fabric) : (modFabric s f).rstores = s.rstores := rfl
@[simp] theorem modFabric_huff (s : State) (f : Fabric → Fabric) : (modFabric s f).huff = s.huff := rfl
@[simp] theorem modFabric_regions (s : State) (f : Fabric → Fabric) : (modFabric s f).regions = s.regions := rfl
@[simp] theorem modFabric_deadlines (s : State) (f : Fabric → Fabric) : (modFabric s f).deadlines = s.deadlines := rfl
@[simp] theorem modFabric_fns (s : State) (f : Fabric → Fabric) : (modFabric s f).fns = s.fns := rfl
@[simp] theorem modFabric_gheahInv (s : State) (f : Fabric → Fabric) : (modFabric s f).gheahInv = s.gheahInv := rfl
@[simp] theorem modFabric_fleet (s : State) (f : Fabric → Fabric) : (modFabric s f).fleet = s.fleet := rfl

/-! sendMsix. -/

@[simp] theorem sendMsix_inputs (s : State) (n v : Nat) : (sendMsix s n v).inputs = s.inputs := rfl
@[simp] theorem sendMsix_turn (s : State) (n v : Nat) : (sendMsix s n v).turn = s.turn := rfl
@[simp] theorem sendMsix_cur (s : State) (n v : Nat) : (sendMsix s n v).cur = s.cur := rfl
@[simp] theorem sendMsix_queueTurn (s : State) (n v : Nat) : (sendMsix s n v).queueTurn = s.queueTurn := rfl
@[simp] theorem sendMsix_grantTurn (s : State) (n v : Nat) : (sendMsix s n v).grantTurn = s.grantTurn := rfl
@[simp] theorem sendMsix_free (s : State) (n v : Nat) : (sendMsix s n v).free = s.free := rfl
@[simp] theorem sendMsix_mem (s : State) (n v : Nat) : (sendMsix s n v).mem = s.mem := rfl
@[simp] theorem sendMsix_bad (s : State) (n v : Nat) : (sendMsix s n v).bad = s.bad := rfl
@[simp] theorem sendMsix_soft (s : State) (n v : Nat) : (sendMsix s n v).soft = s.soft := rfl
@[simp] theorem sendMsix_far (s : State) (n v : Nat) : (sendMsix s n v).far = s.far := rfl
@[simp] theorem sendMsix_hostMem (s : State) (n v : Nat) : (sendMsix s n v).hostMem = s.hostMem := rfl
@[simp] theorem sendMsix_cores (s : State) (n v : Nat) : (sendMsix s n v).cores = s.cores := rfl
@[simp] theorem sendMsix_clusters (s : State) (n v : Nat) : (sendMsix s n v).clusters = s.clusters := rfl
@[simp] theorem sendMsix_dies (s : State) (n v : Nat) : (sendMsix s n v).dies = s.dies := rfl
@[simp] theorem sendMsix_phase (s : State) (n v : Nat) : (sendMsix s n v).phase = s.phase := rfl
@[simp] theorem sendMsix_tags (s : State) (n v : Nat) : (sendMsix s n v).tags = s.tags := rfl
@[simp] theorem sendMsix_retained (s : State) (n v : Nat) : (sendMsix s n v).retained = s.retained := rfl
@[simp] theorem sendMsix_pending (s : State) (n v : Nat) : (sendMsix s n v).pending = s.pending := rfl
@[simp] theorem sendMsix_homes (s : State) (n v : Nat) : (sendMsix s n v).homes = s.homes := rfl
@[simp] theorem sendMsix_bstores (s : State) (n v : Nat) : (sendMsix s n v).bstores = s.bstores := rfl
@[simp] theorem sendMsix_rstores (s : State) (n v : Nat) : (sendMsix s n v).rstores = s.rstores := rfl
@[simp] theorem sendMsix_huff (s : State) (n v : Nat) : (sendMsix s n v).huff = s.huff := rfl
@[simp] theorem sendMsix_regions (s : State) (n v : Nat) : (sendMsix s n v).regions = s.regions := rfl
@[simp] theorem sendMsix_deadlines (s : State) (n v : Nat) : (sendMsix s n v).deadlines = s.deadlines := rfl
@[simp] theorem sendMsix_fns (s : State) (n v : Nat) : (sendMsix s n v).fns = s.fns := rfl
@[simp] theorem sendMsix_gheahInv (s : State) (n v : Nat) : (sendMsix s n v).gheahInv = s.gheahInv := rfl
@[simp] theorem sendMsix_fabric (s : State) (n v : Nat) : (sendMsix s n v).fabric = s.fabric := rfl

/-! sendMgmt. -/

@[simp] theorem sendMgmt_inputs (s : State) (goal : MgmtTo) (m : Mgmt) : (sendMgmt s goal m).inputs = s.inputs := rfl
@[simp] theorem sendMgmt_turn (s : State) (goal : MgmtTo) (m : Mgmt) : (sendMgmt s goal m).turn = s.turn := rfl
@[simp] theorem sendMgmt_cur (s : State) (goal : MgmtTo) (m : Mgmt) : (sendMgmt s goal m).cur = s.cur := rfl
@[simp] theorem sendMgmt_queueTurn (s : State) (goal : MgmtTo) (m : Mgmt) : (sendMgmt s goal m).queueTurn = s.queueTurn := rfl
@[simp] theorem sendMgmt_grantTurn (s : State) (goal : MgmtTo) (m : Mgmt) : (sendMgmt s goal m).grantTurn = s.grantTurn := rfl
@[simp] theorem sendMgmt_free (s : State) (goal : MgmtTo) (m : Mgmt) : (sendMgmt s goal m).free = s.free := rfl
@[simp] theorem sendMgmt_mem (s : State) (goal : MgmtTo) (m : Mgmt) : (sendMgmt s goal m).mem = s.mem := rfl
@[simp] theorem sendMgmt_bad (s : State) (goal : MgmtTo) (m : Mgmt) : (sendMgmt s goal m).bad = s.bad := rfl
@[simp] theorem sendMgmt_soft (s : State) (goal : MgmtTo) (m : Mgmt) : (sendMgmt s goal m).soft = s.soft := rfl
@[simp] theorem sendMgmt_far (s : State) (goal : MgmtTo) (m : Mgmt) : (sendMgmt s goal m).far = s.far := rfl
@[simp] theorem sendMgmt_hostMem (s : State) (goal : MgmtTo) (m : Mgmt) : (sendMgmt s goal m).hostMem = s.hostMem := rfl
@[simp] theorem sendMgmt_cores (s : State) (goal : MgmtTo) (m : Mgmt) : (sendMgmt s goal m).cores = s.cores := rfl
@[simp] theorem sendMgmt_clusters (s : State) (goal : MgmtTo) (m : Mgmt) : (sendMgmt s goal m).clusters = s.clusters := rfl
@[simp] theorem sendMgmt_dies (s : State) (goal : MgmtTo) (m : Mgmt) : (sendMgmt s goal m).dies = s.dies := rfl
@[simp] theorem sendMgmt_phase (s : State) (goal : MgmtTo) (m : Mgmt) : (sendMgmt s goal m).phase = s.phase := rfl
@[simp] theorem sendMgmt_tags (s : State) (goal : MgmtTo) (m : Mgmt) : (sendMgmt s goal m).tags = s.tags := rfl
@[simp] theorem sendMgmt_retained (s : State) (goal : MgmtTo) (m : Mgmt) : (sendMgmt s goal m).retained = s.retained := rfl
@[simp] theorem sendMgmt_pending (s : State) (goal : MgmtTo) (m : Mgmt) : (sendMgmt s goal m).pending = s.pending := rfl
@[simp] theorem sendMgmt_homes (s : State) (goal : MgmtTo) (m : Mgmt) : (sendMgmt s goal m).homes = s.homes := rfl
@[simp] theorem sendMgmt_bstores (s : State) (goal : MgmtTo) (m : Mgmt) : (sendMgmt s goal m).bstores = s.bstores := rfl
@[simp] theorem sendMgmt_rstores (s : State) (goal : MgmtTo) (m : Mgmt) : (sendMgmt s goal m).rstores = s.rstores := rfl
@[simp] theorem sendMgmt_huff (s : State) (goal : MgmtTo) (m : Mgmt) : (sendMgmt s goal m).huff = s.huff := rfl
@[simp] theorem sendMgmt_regions (s : State) (goal : MgmtTo) (m : Mgmt) : (sendMgmt s goal m).regions = s.regions := rfl
@[simp] theorem sendMgmt_deadlines (s : State) (goal : MgmtTo) (m : Mgmt) : (sendMgmt s goal m).deadlines = s.deadlines := rfl
@[simp] theorem sendMgmt_fns (s : State) (goal : MgmtTo) (m : Mgmt) : (sendMgmt s goal m).fns = s.fns := rfl
@[simp] theorem sendMgmt_gheahInv (s : State) (goal : MgmtTo) (m : Mgmt) : (sendMgmt s goal m).gheahInv = s.gheahInv := rfl
@[simp] theorem sendMgmt_fleet (s : State) (goal : MgmtTo) (m : Mgmt) : (sendMgmt s goal m).fleet = s.fleet := rfl

/-! hostWrite. -/

@[simp] theorem hostWrite_inputs (s : State) (a : Nat) (xs : List Byte) : (hostWrite s a xs).inputs = s.inputs := rfl
@[simp] theorem hostWrite_turn (s : State) (a : Nat) (xs : List Byte) : (hostWrite s a xs).turn = s.turn := rfl
@[simp] theorem hostWrite_cur (s : State) (a : Nat) (xs : List Byte) : (hostWrite s a xs).cur = s.cur := rfl
@[simp] theorem hostWrite_queueTurn (s : State) (a : Nat) (xs : List Byte) : (hostWrite s a xs).queueTurn = s.queueTurn := rfl
@[simp] theorem hostWrite_grantTurn (s : State) (a : Nat) (xs : List Byte) : (hostWrite s a xs).grantTurn = s.grantTurn := rfl
@[simp] theorem hostWrite_free (s : State) (a : Nat) (xs : List Byte) : (hostWrite s a xs).free = s.free := rfl
@[simp] theorem hostWrite_mem (s : State) (a : Nat) (xs : List Byte) : (hostWrite s a xs).mem = s.mem := rfl
@[simp] theorem hostWrite_bad (s : State) (a : Nat) (xs : List Byte) : (hostWrite s a xs).bad = s.bad := rfl
@[simp] theorem hostWrite_soft (s : State) (a : Nat) (xs : List Byte) : (hostWrite s a xs).soft = s.soft := rfl
@[simp] theorem hostWrite_far (s : State) (a : Nat) (xs : List Byte) : (hostWrite s a xs).far = s.far := rfl
@[simp] theorem hostWrite_cores (s : State) (a : Nat) (xs : List Byte) : (hostWrite s a xs).cores = s.cores := rfl
@[simp] theorem hostWrite_clusters (s : State) (a : Nat) (xs : List Byte) : (hostWrite s a xs).clusters = s.clusters := rfl
@[simp] theorem hostWrite_dies (s : State) (a : Nat) (xs : List Byte) : (hostWrite s a xs).dies = s.dies := rfl
@[simp] theorem hostWrite_phase (s : State) (a : Nat) (xs : List Byte) : (hostWrite s a xs).phase = s.phase := rfl
@[simp] theorem hostWrite_tags (s : State) (a : Nat) (xs : List Byte) : (hostWrite s a xs).tags = s.tags := rfl
@[simp] theorem hostWrite_retained (s : State) (a : Nat) (xs : List Byte) : (hostWrite s a xs).retained = s.retained := rfl
@[simp] theorem hostWrite_pending (s : State) (a : Nat) (xs : List Byte) : (hostWrite s a xs).pending = s.pending := rfl
@[simp] theorem hostWrite_homes (s : State) (a : Nat) (xs : List Byte) : (hostWrite s a xs).homes = s.homes := rfl
@[simp] theorem hostWrite_bstores (s : State) (a : Nat) (xs : List Byte) : (hostWrite s a xs).bstores = s.bstores := rfl
@[simp] theorem hostWrite_rstores (s : State) (a : Nat) (xs : List Byte) : (hostWrite s a xs).rstores = s.rstores := rfl
@[simp] theorem hostWrite_huff (s : State) (a : Nat) (xs : List Byte) : (hostWrite s a xs).huff = s.huff := rfl
@[simp] theorem hostWrite_regions (s : State) (a : Nat) (xs : List Byte) : (hostWrite s a xs).regions = s.regions := rfl
@[simp] theorem hostWrite_deadlines (s : State) (a : Nat) (xs : List Byte) : (hostWrite s a xs).deadlines = s.deadlines := rfl
@[simp] theorem hostWrite_fns (s : State) (a : Nat) (xs : List Byte) : (hostWrite s a xs).fns = s.fns := rfl
@[simp] theorem hostWrite_gheahInv (s : State) (a : Nat) (xs : List Byte) : (hostWrite s a xs).gheahInv = s.gheahInv := rfl
@[simp] theorem hostWrite_fleet (s : State) (a : Nat) (xs : List Byte) : (hostWrite s a xs).fleet = s.fleet := rfl
@[simp] theorem hostWrite_fabric (s : State) (a : Nat) (xs : List Byte) : (hostWrite s a xs).fabric = s.fabric := rfl

/-! Cores by number. -/

@[simp] theorem coreAt_setCore_self (s : State) (c : Nat) (k : Core) (h : c < 512) : coreAt (setCore s c k) c = k := by
  simp [coreAt, setCore, h]
@[simp] theorem coreAt_setCore_ne (s : State) (c d : Nat) (k : Core) (h : d ≠ c) : coreAt (setCore s c k) d = coreAt s d := by
  simp [coreAt, setCore, h]
@[simp] theorem coreAt_modCore_self (s : State) (c : Nat) (f : Core → Core) (h : c < 512) :
    coreAt (modCore s c f) c = f (coreAt s c) := by
  simp [coreAt, modCore, h]
@[simp] theorem coreAt_modCore_ne (s : State) (c d : Nat) (f : Core → Core) (h : d ≠ c) :
    coreAt (modCore s c f) d = coreAt s d := by
  simp [coreAt, modCore, h]

/-! Core.setStream. -/

@[simp] theorem Core.setStream_g (k : Core) (st : StreamId) (x : Stream) : (k.setStream st x).g = k.g := rfl
@[simp] theorem Core.setStream_b (k : Core) (st : StreamId) (x : Stream) : (k.setStream st x).b = k.b := rfl
@[simp] theorem Core.setStream_d (k : Core) (st : StreamId) (x : Stream) : (k.setStream st x).d = k.d := rfl
@[simp] theorem Core.setStream_p (k : Core) (st : StreamId) (x : Stream) : (k.setStream st x).p = k.p := rfl
@[simp] theorem Core.setStream_v (k : Core) (st : StreamId) (x : Stream) : (k.setStream st x).v = k.v := rfl
@[simp] theorem Core.setStream_h (k : Core) (st : StreamId) (x : Stream) : (k.setStream st x).h = k.h := rfl
@[simp] theorem Core.setStream_q (k : Core) (st : StreamId) (x : Stream) : (k.setStream st x).q = k.q := rfl
@[simp] theorem Core.setStream_w (k : Core) (st : StreamId) (x : Stream) : (k.setStream st x).w = k.w := rfl
@[simp] theorem Core.setStream_z (k : Core) (st : StreamId) (x : Stream) : (k.setStream st x).z = k.z := rfl
@[simp] theorem Core.setStream_k (k : Core) (st : StreamId) (x : Stream) : (k.setStream st x).k = k.k := rfl
@[simp] theorem Core.setStream_cb (k : Core) (st : StreamId) (x : Stream) : (k.setStream st x).cb = k.cb := rfl
@[simp] theorem Core.setStream_cc (k : Core) (st : StreamId) (x : Stream) : (k.setStream st x).cc = k.cc := rfl
@[simp] theorem Core.setStream_fifo (k : Core) (st : StreamId) (x : Stream) : (k.setStream st x).fifo = k.fifo := rfl
@[simp] theorem Core.setStream_sr (k : Core) (st : StreamId) (x : Stream) : (k.setStream st x).sr = k.sr := rfl
@[simp] theorem Core.setStream_inflight (k : Core) (st : StreamId) (x : Stream) : (k.setStream st x).inflight = k.inflight := rfl
@[simp] theorem Core.setStream_block (k : Core) (st : StreamId) (x : Stream) : (k.setStream st x).block = k.block := rfl
@[simp] theorem Core.setStream_issued (k : Core) (st : StreamId) (x : Stream) : (k.setStream st x).issued = k.issued := rfl
@[simp] theorem Core.setStream_pbrSeq (k : Core) (st : StreamId) (x : Stream) : (k.setStream st x).pbrSeq = k.pbrSeq := rfl
@[simp] theorem Core.setStream_stall (k : Core) (st : StreamId) (x : Stream) : (k.setStream st x).stall = k.stall := rfl
@[simp] theorem Core.setStream_rank (k : Core) (st : StreamId) (x : Stream) : (k.setStream st x).rank = k.rank := rfl
@[simp] theorem Core.setStream_limit (k : Core) (st : StreamId) (x : Stream) : (k.setStream st x).limit = k.limit := rfl
@[simp] theorem Core.setStream_dcache (k : Core) (st : StreamId) (x : Stream) : (k.setStream st x).dcache = k.dcache := rfl
@[simp] theorem Core.setStream_tlb (k : Core) (st : StreamId) (x : Stream) : (k.setStream st x).tlb = k.tlb := rfl
@[simp] theorem Core.setStream_wcfg (k : Core) (st : StreamId) (x : Stream) : (k.setStream st x).wcfg = k.wcfg := rfl
@[simp] theorem Core.setStream_row0 (k : Core) (st : StreamId) (x : Stream) : (k.setStream st x).row0 = k.row0 := rfl
@[simp] theorem Core.setStream_flow (k : Core) (st : StreamId) (x : Stream) : (k.setStream st x).flow = k.flow := rfl
@[simp] theorem Core.setStream_planeLoad (k : Core) (st : StreamId) (x : Stream) : (k.setStream st x).planeLoad = k.planeLoad := rfl
@[simp] theorem Core.setStream_leaseLeft (k : Core) (st : StreamId) (x : Stream) : (k.setStream st x).leaseLeft = k.leaseLeft := rfl
@[simp] theorem Core.setStream_wantLease (k : Core) (st : StreamId) (x : Stream) : (k.setStream st x).wantLease = k.wantLease := rfl
@[simp] theorem Core.setStream_banks (k : Core) (st : StreamId) (x : Stream) : (k.setStream st x).banks = k.banks := rfl
@[simp] theorem Core.setStream_landing (k : Core) (st : StreamId) (x : Stream) : (k.setStream st x).landing = k.landing := rfl
@[simp] theorem Core.setStream_version (k : Core) (st : StreamId) (x : Stream) : (k.setStream st x).version = k.version := rfl
@[simp] theorem Core.setStream_phaseArrived (k : Core) (st : StreamId) (x : Stream) : (k.setStream st x).phaseArrived = k.phaseArrived := rfl
@[simp] theorem Core.setStream_op (k : Core) (st : StreamId) (x : Stream) : (k.setStream st x).op = k.op := rfl
@[simp] theorem Core.setStream_shadow (k : Core) (st : StreamId) (x : Stream) : (k.setStream st x).shadow = k.shadow := rfl
@[simp] theorem Core.setStream_splice (k : Core) (st : StreamId) (x : Stream) : (k.setStream st x).splice = k.splice := rfl
@[simp] theorem Core.setStream_raising (k : Core) (st : StreamId) (x : Stream) : (k.setStream st x).raising = k.raising := rfl
@[simp] theorem Core.setStream_frame (k : Core) (st : StreamId) (x : Stream) : (k.setStream st x).frame = k.frame := rfl
@[simp] theorem Core.setStream_savedC (k : Core) (st : StreamId) (x : Stream) : (k.setStream st x).savedC = k.savedC := rfl
@[simp] theorem Core.setStream_stopped (k : Core) (st : StreamId) (x : Stream) : (k.setStream st x).stopped = k.stopped := rfl
@[simp] theorem Core.setStream_stage (k : Core) (st : StreamId) (x : Stream) : (k.setStream st x).stage = k.stage := rfl
@[simp] theorem Core.setStream_moveTo (k : Core) (st : StreamId) (x : Stream) : (k.setStream st x).moveTo = k.moveTo := rfl
@[simp] theorem Core.setStream_preempt (k : Core) (st : StreamId) (x : Stream) : (k.setStream st x).preempt = k.preempt := rfl
@[simp] theorem Core.setStream_saved (k : Core) (st : StreamId) (x : Stream) : (k.setStream st x).saved = k.saved := rfl
@[simp] theorem Core.setStream_rbuf (k : Core) (st : StreamId) (x : Stream) : (k.setStream st x).rbuf = k.rbuf := rfl
@[simp] theorem Core.setStream_rfault (k : Core) (st : StreamId) (x : Stream) : (k.setStream st x).rfault = k.rfault := rfl
@[simp] theorem Core.setStream_lostPeers (k : Core) (st : StreamId) (x : Stream) : (k.setStream st x).lostPeers = k.lostPeers := rfl

/-! Core.modStream. -/

@[simp] theorem Core.modStream_g (k : Core) (st : StreamId) (f : Stream → Stream) : (k.modStream st f).g = k.g := rfl
@[simp] theorem Core.modStream_b (k : Core) (st : StreamId) (f : Stream → Stream) : (k.modStream st f).b = k.b := rfl
@[simp] theorem Core.modStream_d (k : Core) (st : StreamId) (f : Stream → Stream) : (k.modStream st f).d = k.d := rfl
@[simp] theorem Core.modStream_p (k : Core) (st : StreamId) (f : Stream → Stream) : (k.modStream st f).p = k.p := rfl
@[simp] theorem Core.modStream_v (k : Core) (st : StreamId) (f : Stream → Stream) : (k.modStream st f).v = k.v := rfl
@[simp] theorem Core.modStream_h (k : Core) (st : StreamId) (f : Stream → Stream) : (k.modStream st f).h = k.h := rfl
@[simp] theorem Core.modStream_q (k : Core) (st : StreamId) (f : Stream → Stream) : (k.modStream st f).q = k.q := rfl
@[simp] theorem Core.modStream_w (k : Core) (st : StreamId) (f : Stream → Stream) : (k.modStream st f).w = k.w := rfl
@[simp] theorem Core.modStream_z (k : Core) (st : StreamId) (f : Stream → Stream) : (k.modStream st f).z = k.z := rfl
@[simp] theorem Core.modStream_k (k : Core) (st : StreamId) (f : Stream → Stream) : (k.modStream st f).k = k.k := rfl
@[simp] theorem Core.modStream_cb (k : Core) (st : StreamId) (f : Stream → Stream) : (k.modStream st f).cb = k.cb := rfl
@[simp] theorem Core.modStream_cc (k : Core) (st : StreamId) (f : Stream → Stream) : (k.modStream st f).cc = k.cc := rfl
@[simp] theorem Core.modStream_fifo (k : Core) (st : StreamId) (f : Stream → Stream) : (k.modStream st f).fifo = k.fifo := rfl
@[simp] theorem Core.modStream_sr (k : Core) (st : StreamId) (f : Stream → Stream) : (k.modStream st f).sr = k.sr := rfl
@[simp] theorem Core.modStream_inflight (k : Core) (st : StreamId) (f : Stream → Stream) : (k.modStream st f).inflight = k.inflight := rfl
@[simp] theorem Core.modStream_block (k : Core) (st : StreamId) (f : Stream → Stream) : (k.modStream st f).block = k.block := rfl
@[simp] theorem Core.modStream_issued (k : Core) (st : StreamId) (f : Stream → Stream) : (k.modStream st f).issued = k.issued := rfl
@[simp] theorem Core.modStream_pbrSeq (k : Core) (st : StreamId) (f : Stream → Stream) : (k.modStream st f).pbrSeq = k.pbrSeq := rfl
@[simp] theorem Core.modStream_stall (k : Core) (st : StreamId) (f : Stream → Stream) : (k.modStream st f).stall = k.stall := rfl
@[simp] theorem Core.modStream_rank (k : Core) (st : StreamId) (f : Stream → Stream) : (k.modStream st f).rank = k.rank := rfl
@[simp] theorem Core.modStream_limit (k : Core) (st : StreamId) (f : Stream → Stream) : (k.modStream st f).limit = k.limit := rfl
@[simp] theorem Core.modStream_dcache (k : Core) (st : StreamId) (f : Stream → Stream) : (k.modStream st f).dcache = k.dcache := rfl
@[simp] theorem Core.modStream_tlb (k : Core) (st : StreamId) (f : Stream → Stream) : (k.modStream st f).tlb = k.tlb := rfl
@[simp] theorem Core.modStream_wcfg (k : Core) (st : StreamId) (f : Stream → Stream) : (k.modStream st f).wcfg = k.wcfg := rfl
@[simp] theorem Core.modStream_row0 (k : Core) (st : StreamId) (f : Stream → Stream) : (k.modStream st f).row0 = k.row0 := rfl
@[simp] theorem Core.modStream_flow (k : Core) (st : StreamId) (f : Stream → Stream) : (k.modStream st f).flow = k.flow := rfl
@[simp] theorem Core.modStream_planeLoad (k : Core) (st : StreamId) (f : Stream → Stream) : (k.modStream st f).planeLoad = k.planeLoad := rfl
@[simp] theorem Core.modStream_leaseLeft (k : Core) (st : StreamId) (f : Stream → Stream) : (k.modStream st f).leaseLeft = k.leaseLeft := rfl
@[simp] theorem Core.modStream_wantLease (k : Core) (st : StreamId) (f : Stream → Stream) : (k.modStream st f).wantLease = k.wantLease := rfl
@[simp] theorem Core.modStream_banks (k : Core) (st : StreamId) (f : Stream → Stream) : (k.modStream st f).banks = k.banks := rfl
@[simp] theorem Core.modStream_landing (k : Core) (st : StreamId) (f : Stream → Stream) : (k.modStream st f).landing = k.landing := rfl
@[simp] theorem Core.modStream_version (k : Core) (st : StreamId) (f : Stream → Stream) : (k.modStream st f).version = k.version := rfl
@[simp] theorem Core.modStream_phaseArrived (k : Core) (st : StreamId) (f : Stream → Stream) : (k.modStream st f).phaseArrived = k.phaseArrived := rfl
@[simp] theorem Core.modStream_op (k : Core) (st : StreamId) (f : Stream → Stream) : (k.modStream st f).op = k.op := rfl
@[simp] theorem Core.modStream_shadow (k : Core) (st : StreamId) (f : Stream → Stream) : (k.modStream st f).shadow = k.shadow := rfl
@[simp] theorem Core.modStream_splice (k : Core) (st : StreamId) (f : Stream → Stream) : (k.modStream st f).splice = k.splice := rfl
@[simp] theorem Core.modStream_raising (k : Core) (st : StreamId) (f : Stream → Stream) : (k.modStream st f).raising = k.raising := rfl
@[simp] theorem Core.modStream_frame (k : Core) (st : StreamId) (f : Stream → Stream) : (k.modStream st f).frame = k.frame := rfl
@[simp] theorem Core.modStream_savedC (k : Core) (st : StreamId) (f : Stream → Stream) : (k.modStream st f).savedC = k.savedC := rfl
@[simp] theorem Core.modStream_stopped (k : Core) (st : StreamId) (f : Stream → Stream) : (k.modStream st f).stopped = k.stopped := rfl
@[simp] theorem Core.modStream_stage (k : Core) (st : StreamId) (f : Stream → Stream) : (k.modStream st f).stage = k.stage := rfl
@[simp] theorem Core.modStream_moveTo (k : Core) (st : StreamId) (f : Stream → Stream) : (k.modStream st f).moveTo = k.moveTo := rfl
@[simp] theorem Core.modStream_preempt (k : Core) (st : StreamId) (f : Stream → Stream) : (k.modStream st f).preempt = k.preempt := rfl
@[simp] theorem Core.modStream_saved (k : Core) (st : StreamId) (f : Stream → Stream) : (k.modStream st f).saved = k.saved := rfl
@[simp] theorem Core.modStream_rbuf (k : Core) (st : StreamId) (f : Stream → Stream) : (k.modStream st f).rbuf = k.rbuf := rfl
@[simp] theorem Core.modStream_rfault (k : Core) (st : StreamId) (f : Stream → Stream) : (k.modStream st f).rfault = k.rfault := rfl
@[simp] theorem Core.modStream_lostPeers (k : Core) (st : StreamId) (f : Stream → Stream) : (k.modStream st f).lostPeers = k.lostPeers := rfl

/-! Core.putB. -/

@[simp] theorem Core.putB_g (k : Core) (n : BitVec 3) (x : BitVec 28) : (k.putB n x).g = k.g := rfl
@[simp] theorem Core.putB_d (k : Core) (n : BitVec 3) (x : BitVec 28) : (k.putB n x).d = k.d := rfl
@[simp] theorem Core.putB_p (k : Core) (n : BitVec 3) (x : BitVec 28) : (k.putB n x).p = k.p := rfl
@[simp] theorem Core.putB_v (k : Core) (n : BitVec 3) (x : BitVec 28) : (k.putB n x).v = k.v := rfl
@[simp] theorem Core.putB_h (k : Core) (n : BitVec 3) (x : BitVec 28) : (k.putB n x).h = k.h := rfl
@[simp] theorem Core.putB_q (k : Core) (n : BitVec 3) (x : BitVec 28) : (k.putB n x).q = k.q := rfl
@[simp] theorem Core.putB_w (k : Core) (n : BitVec 3) (x : BitVec 28) : (k.putB n x).w = k.w := rfl
@[simp] theorem Core.putB_z (k : Core) (n : BitVec 3) (x : BitVec 28) : (k.putB n x).z = k.z := rfl
@[simp] theorem Core.putB_k (k : Core) (n : BitVec 3) (x : BitVec 28) : (k.putB n x).k = k.k := rfl
@[simp] theorem Core.putB_cb (k : Core) (n : BitVec 3) (x : BitVec 28) : (k.putB n x).cb = k.cb := rfl
@[simp] theorem Core.putB_cc (k : Core) (n : BitVec 3) (x : BitVec 28) : (k.putB n x).cc = k.cc := rfl
@[simp] theorem Core.putB_fifo (k : Core) (n : BitVec 3) (x : BitVec 28) : (k.putB n x).fifo = k.fifo := rfl
@[simp] theorem Core.putB_sr (k : Core) (n : BitVec 3) (x : BitVec 28) : (k.putB n x).sr = k.sr := rfl
@[simp] theorem Core.putB_streams (k : Core) (n : BitVec 3) (x : BitVec 28) : (k.putB n x).streams = k.streams := rfl
@[simp] theorem Core.putB_inflight (k : Core) (n : BitVec 3) (x : BitVec 28) : (k.putB n x).inflight = k.inflight := rfl
@[simp] theorem Core.putB_block (k : Core) (n : BitVec 3) (x : BitVec 28) : (k.putB n x).block = k.block := rfl
@[simp] theorem Core.putB_issued (k : Core) (n : BitVec 3) (x : BitVec 28) : (k.putB n x).issued = k.issued := rfl
@[simp] theorem Core.putB_pbrSeq (k : Core) (n : BitVec 3) (x : BitVec 28) : (k.putB n x).pbrSeq = k.pbrSeq := rfl
@[simp] theorem Core.putB_stall (k : Core) (n : BitVec 3) (x : BitVec 28) : (k.putB n x).stall = k.stall := rfl
@[simp] theorem Core.putB_rank (k : Core) (n : BitVec 3) (x : BitVec 28) : (k.putB n x).rank = k.rank := rfl
@[simp] theorem Core.putB_limit (k : Core) (n : BitVec 3) (x : BitVec 28) : (k.putB n x).limit = k.limit := rfl
@[simp] theorem Core.putB_dcache (k : Core) (n : BitVec 3) (x : BitVec 28) : (k.putB n x).dcache = k.dcache := rfl
@[simp] theorem Core.putB_tlb (k : Core) (n : BitVec 3) (x : BitVec 28) : (k.putB n x).tlb = k.tlb := rfl
@[simp] theorem Core.putB_wcfg (k : Core) (n : BitVec 3) (x : BitVec 28) : (k.putB n x).wcfg = k.wcfg := rfl
@[simp] theorem Core.putB_row0 (k : Core) (n : BitVec 3) (x : BitVec 28) : (k.putB n x).row0 = k.row0 := rfl
@[simp] theorem Core.putB_flow (k : Core) (n : BitVec 3) (x : BitVec 28) : (k.putB n x).flow = k.flow := rfl
@[simp] theorem Core.putB_planeLoad (k : Core) (n : BitVec 3) (x : BitVec 28) : (k.putB n x).planeLoad = k.planeLoad := rfl
@[simp] theorem Core.putB_leaseLeft (k : Core) (n : BitVec 3) (x : BitVec 28) : (k.putB n x).leaseLeft = k.leaseLeft := rfl
@[simp] theorem Core.putB_wantLease (k : Core) (n : BitVec 3) (x : BitVec 28) : (k.putB n x).wantLease = k.wantLease := rfl
@[simp] theorem Core.putB_banks (k : Core) (n : BitVec 3) (x : BitVec 28) : (k.putB n x).banks = k.banks := rfl
@[simp] theorem Core.putB_landing (k : Core) (n : BitVec 3) (x : BitVec 28) : (k.putB n x).landing = k.landing := rfl
@[simp] theorem Core.putB_version (k : Core) (n : BitVec 3) (x : BitVec 28) : (k.putB n x).version = k.version := rfl
@[simp] theorem Core.putB_phaseArrived (k : Core) (n : BitVec 3) (x : BitVec 28) : (k.putB n x).phaseArrived = k.phaseArrived := rfl
@[simp] theorem Core.putB_op (k : Core) (n : BitVec 3) (x : BitVec 28) : (k.putB n x).op = k.op := rfl
@[simp] theorem Core.putB_shadow (k : Core) (n : BitVec 3) (x : BitVec 28) : (k.putB n x).shadow = k.shadow := rfl
@[simp] theorem Core.putB_splice (k : Core) (n : BitVec 3) (x : BitVec 28) : (k.putB n x).splice = k.splice := rfl
@[simp] theorem Core.putB_raising (k : Core) (n : BitVec 3) (x : BitVec 28) : (k.putB n x).raising = k.raising := rfl
@[simp] theorem Core.putB_frame (k : Core) (n : BitVec 3) (x : BitVec 28) : (k.putB n x).frame = k.frame := rfl
@[simp] theorem Core.putB_savedC (k : Core) (n : BitVec 3) (x : BitVec 28) : (k.putB n x).savedC = k.savedC := rfl
@[simp] theorem Core.putB_stopped (k : Core) (n : BitVec 3) (x : BitVec 28) : (k.putB n x).stopped = k.stopped := rfl
@[simp] theorem Core.putB_stage (k : Core) (n : BitVec 3) (x : BitVec 28) : (k.putB n x).stage = k.stage := rfl
@[simp] theorem Core.putB_moveTo (k : Core) (n : BitVec 3) (x : BitVec 28) : (k.putB n x).moveTo = k.moveTo := rfl
@[simp] theorem Core.putB_preempt (k : Core) (n : BitVec 3) (x : BitVec 28) : (k.putB n x).preempt = k.preempt := rfl
@[simp] theorem Core.putB_saved (k : Core) (n : BitVec 3) (x : BitVec 28) : (k.putB n x).saved = k.saved := rfl
@[simp] theorem Core.putB_rbuf (k : Core) (n : BitVec 3) (x : BitVec 28) : (k.putB n x).rbuf = k.rbuf := rfl
@[simp] theorem Core.putB_rfault (k : Core) (n : BitVec 3) (x : BitVec 28) : (k.putB n x).rfault = k.rfault := rfl
@[simp] theorem Core.putB_lostPeers (k : Core) (n : BitVec 3) (x : BitVec 28) : (k.putB n x).lostPeers = k.lostPeers := rfl

/-! Core.putQuarter. -/

@[simp] theorem Core.putQuarter_g (k : Core) (n : BitVec 4) (q : BitVec 2) (x : Dword) : (k.putQuarter n q x).g = k.g := rfl
@[simp] theorem Core.putQuarter_b (k : Core) (n : BitVec 4) (q : BitVec 2) (x : Dword) : (k.putQuarter n q x).b = k.b := rfl
@[simp] theorem Core.putQuarter_p (k : Core) (n : BitVec 4) (q : BitVec 2) (x : Dword) : (k.putQuarter n q x).p = k.p := rfl
@[simp] theorem Core.putQuarter_v (k : Core) (n : BitVec 4) (q : BitVec 2) (x : Dword) : (k.putQuarter n q x).v = k.v := rfl
@[simp] theorem Core.putQuarter_h (k : Core) (n : BitVec 4) (q : BitVec 2) (x : Dword) : (k.putQuarter n q x).h = k.h := rfl
@[simp] theorem Core.putQuarter_q (k : Core) (n : BitVec 4) (q : BitVec 2) (x : Dword) : (k.putQuarter n q x).q = k.q := rfl
@[simp] theorem Core.putQuarter_w (k : Core) (n : BitVec 4) (q : BitVec 2) (x : Dword) : (k.putQuarter n q x).w = k.w := rfl
@[simp] theorem Core.putQuarter_z (k : Core) (n : BitVec 4) (q : BitVec 2) (x : Dword) : (k.putQuarter n q x).z = k.z := rfl
@[simp] theorem Core.putQuarter_k (k : Core) (n : BitVec 4) (q : BitVec 2) (x : Dword) : (k.putQuarter n q x).k = k.k := rfl
@[simp] theorem Core.putQuarter_cb (k : Core) (n : BitVec 4) (q : BitVec 2) (x : Dword) : (k.putQuarter n q x).cb = k.cb := rfl
@[simp] theorem Core.putQuarter_cc (k : Core) (n : BitVec 4) (q : BitVec 2) (x : Dword) : (k.putQuarter n q x).cc = k.cc := rfl
@[simp] theorem Core.putQuarter_fifo (k : Core) (n : BitVec 4) (q : BitVec 2) (x : Dword) : (k.putQuarter n q x).fifo = k.fifo := rfl
@[simp] theorem Core.putQuarter_sr (k : Core) (n : BitVec 4) (q : BitVec 2) (x : Dword) : (k.putQuarter n q x).sr = k.sr := rfl
@[simp] theorem Core.putQuarter_streams (k : Core) (n : BitVec 4) (q : BitVec 2) (x : Dword) : (k.putQuarter n q x).streams = k.streams := rfl
@[simp] theorem Core.putQuarter_inflight (k : Core) (n : BitVec 4) (q : BitVec 2) (x : Dword) : (k.putQuarter n q x).inflight = k.inflight := rfl
@[simp] theorem Core.putQuarter_block (k : Core) (n : BitVec 4) (q : BitVec 2) (x : Dword) : (k.putQuarter n q x).block = k.block := rfl
@[simp] theorem Core.putQuarter_issued (k : Core) (n : BitVec 4) (q : BitVec 2) (x : Dword) : (k.putQuarter n q x).issued = k.issued := rfl
@[simp] theorem Core.putQuarter_pbrSeq (k : Core) (n : BitVec 4) (q : BitVec 2) (x : Dword) : (k.putQuarter n q x).pbrSeq = k.pbrSeq := rfl
@[simp] theorem Core.putQuarter_stall (k : Core) (n : BitVec 4) (q : BitVec 2) (x : Dword) : (k.putQuarter n q x).stall = k.stall := rfl
@[simp] theorem Core.putQuarter_rank (k : Core) (n : BitVec 4) (q : BitVec 2) (x : Dword) : (k.putQuarter n q x).rank = k.rank := rfl
@[simp] theorem Core.putQuarter_limit (k : Core) (n : BitVec 4) (q : BitVec 2) (x : Dword) : (k.putQuarter n q x).limit = k.limit := rfl
@[simp] theorem Core.putQuarter_dcache (k : Core) (n : BitVec 4) (q : BitVec 2) (x : Dword) : (k.putQuarter n q x).dcache = k.dcache := rfl
@[simp] theorem Core.putQuarter_tlb (k : Core) (n : BitVec 4) (q : BitVec 2) (x : Dword) : (k.putQuarter n q x).tlb = k.tlb := rfl
@[simp] theorem Core.putQuarter_wcfg (k : Core) (n : BitVec 4) (q : BitVec 2) (x : Dword) : (k.putQuarter n q x).wcfg = k.wcfg := rfl
@[simp] theorem Core.putQuarter_row0 (k : Core) (n : BitVec 4) (q : BitVec 2) (x : Dword) : (k.putQuarter n q x).row0 = k.row0 := rfl
@[simp] theorem Core.putQuarter_flow (k : Core) (n : BitVec 4) (q : BitVec 2) (x : Dword) : (k.putQuarter n q x).flow = k.flow := rfl
@[simp] theorem Core.putQuarter_planeLoad (k : Core) (n : BitVec 4) (q : BitVec 2) (x : Dword) : (k.putQuarter n q x).planeLoad = k.planeLoad := rfl
@[simp] theorem Core.putQuarter_leaseLeft (k : Core) (n : BitVec 4) (q : BitVec 2) (x : Dword) : (k.putQuarter n q x).leaseLeft = k.leaseLeft := rfl
@[simp] theorem Core.putQuarter_wantLease (k : Core) (n : BitVec 4) (q : BitVec 2) (x : Dword) : (k.putQuarter n q x).wantLease = k.wantLease := rfl
@[simp] theorem Core.putQuarter_banks (k : Core) (n : BitVec 4) (q : BitVec 2) (x : Dword) : (k.putQuarter n q x).banks = k.banks := rfl
@[simp] theorem Core.putQuarter_landing (k : Core) (n : BitVec 4) (q : BitVec 2) (x : Dword) : (k.putQuarter n q x).landing = k.landing := rfl
@[simp] theorem Core.putQuarter_version (k : Core) (n : BitVec 4) (q : BitVec 2) (x : Dword) : (k.putQuarter n q x).version = k.version := rfl
@[simp] theorem Core.putQuarter_phaseArrived (k : Core) (n : BitVec 4) (q : BitVec 2) (x : Dword) : (k.putQuarter n q x).phaseArrived = k.phaseArrived := rfl
@[simp] theorem Core.putQuarter_op (k : Core) (n : BitVec 4) (q : BitVec 2) (x : Dword) : (k.putQuarter n q x).op = k.op := rfl
@[simp] theorem Core.putQuarter_shadow (k : Core) (n : BitVec 4) (q : BitVec 2) (x : Dword) : (k.putQuarter n q x).shadow = k.shadow := rfl
@[simp] theorem Core.putQuarter_splice (k : Core) (n : BitVec 4) (q : BitVec 2) (x : Dword) : (k.putQuarter n q x).splice = k.splice := rfl
@[simp] theorem Core.putQuarter_raising (k : Core) (n : BitVec 4) (q : BitVec 2) (x : Dword) : (k.putQuarter n q x).raising = k.raising := rfl
@[simp] theorem Core.putQuarter_frame (k : Core) (n : BitVec 4) (q : BitVec 2) (x : Dword) : (k.putQuarter n q x).frame = k.frame := rfl
@[simp] theorem Core.putQuarter_savedC (k : Core) (n : BitVec 4) (q : BitVec 2) (x : Dword) : (k.putQuarter n q x).savedC = k.savedC := rfl
@[simp] theorem Core.putQuarter_stopped (k : Core) (n : BitVec 4) (q : BitVec 2) (x : Dword) : (k.putQuarter n q x).stopped = k.stopped := rfl
@[simp] theorem Core.putQuarter_stage (k : Core) (n : BitVec 4) (q : BitVec 2) (x : Dword) : (k.putQuarter n q x).stage = k.stage := rfl
@[simp] theorem Core.putQuarter_moveTo (k : Core) (n : BitVec 4) (q : BitVec 2) (x : Dword) : (k.putQuarter n q x).moveTo = k.moveTo := rfl
@[simp] theorem Core.putQuarter_preempt (k : Core) (n : BitVec 4) (q : BitVec 2) (x : Dword) : (k.putQuarter n q x).preempt = k.preempt := rfl
@[simp] theorem Core.putQuarter_saved (k : Core) (n : BitVec 4) (q : BitVec 2) (x : Dword) : (k.putQuarter n q x).saved = k.saved := rfl
@[simp] theorem Core.putQuarter_rbuf (k : Core) (n : BitVec 4) (q : BitVec 2) (x : Dword) : (k.putQuarter n q x).rbuf = k.rbuf := rfl
@[simp] theorem Core.putQuarter_rfault (k : Core) (n : BitVec 4) (q : BitVec 2) (x : Dword) : (k.putQuarter n q x).rfault = k.rfault := rfl
@[simp] theorem Core.putQuarter_lostPeers (k : Core) (n : BitVec 4) (q : BitVec 2) (x : Dword) : (k.putQuarter n q x).lostPeers = k.lostPeers := rfl

/-! Core.putP. -/

@[simp] theorem Core.putP_g (k : Core) (st : StreamId) (n : BitVec 4) (x : Dword) : (k.putP st n x).g = k.g := rfl
@[simp] theorem Core.putP_b (k : Core) (st : StreamId) (n : BitVec 4) (x : Dword) : (k.putP st n x).b = k.b := rfl
@[simp] theorem Core.putP_d (k : Core) (st : StreamId) (n : BitVec 4) (x : Dword) : (k.putP st n x).d = k.d := rfl
@[simp] theorem Core.putP_v (k : Core) (st : StreamId) (n : BitVec 4) (x : Dword) : (k.putP st n x).v = k.v := rfl
@[simp] theorem Core.putP_h (k : Core) (st : StreamId) (n : BitVec 4) (x : Dword) : (k.putP st n x).h = k.h := rfl
@[simp] theorem Core.putP_q (k : Core) (st : StreamId) (n : BitVec 4) (x : Dword) : (k.putP st n x).q = k.q := rfl
@[simp] theorem Core.putP_w (k : Core) (st : StreamId) (n : BitVec 4) (x : Dword) : (k.putP st n x).w = k.w := rfl
@[simp] theorem Core.putP_z (k : Core) (st : StreamId) (n : BitVec 4) (x : Dword) : (k.putP st n x).z = k.z := rfl
@[simp] theorem Core.putP_k (k : Core) (st : StreamId) (n : BitVec 4) (x : Dword) : (k.putP st n x).k = k.k := rfl
@[simp] theorem Core.putP_cb (k : Core) (st : StreamId) (n : BitVec 4) (x : Dword) : (k.putP st n x).cb = k.cb := rfl
@[simp] theorem Core.putP_cc (k : Core) (st : StreamId) (n : BitVec 4) (x : Dword) : (k.putP st n x).cc = k.cc := rfl
@[simp] theorem Core.putP_fifo (k : Core) (st : StreamId) (n : BitVec 4) (x : Dword) : (k.putP st n x).fifo = k.fifo := rfl
@[simp] theorem Core.putP_sr (k : Core) (st : StreamId) (n : BitVec 4) (x : Dword) : (k.putP st n x).sr = k.sr := rfl
@[simp] theorem Core.putP_streams (k : Core) (st : StreamId) (n : BitVec 4) (x : Dword) : (k.putP st n x).streams = k.streams := rfl
@[simp] theorem Core.putP_inflight (k : Core) (st : StreamId) (n : BitVec 4) (x : Dword) : (k.putP st n x).inflight = k.inflight := rfl
@[simp] theorem Core.putP_block (k : Core) (st : StreamId) (n : BitVec 4) (x : Dword) : (k.putP st n x).block = k.block := rfl
@[simp] theorem Core.putP_issued (k : Core) (st : StreamId) (n : BitVec 4) (x : Dword) : (k.putP st n x).issued = k.issued := rfl
@[simp] theorem Core.putP_pbrSeq (k : Core) (st : StreamId) (n : BitVec 4) (x : Dword) : (k.putP st n x).pbrSeq = k.pbrSeq := rfl
@[simp] theorem Core.putP_stall (k : Core) (st : StreamId) (n : BitVec 4) (x : Dword) : (k.putP st n x).stall = k.stall := rfl
@[simp] theorem Core.putP_rank (k : Core) (st : StreamId) (n : BitVec 4) (x : Dword) : (k.putP st n x).rank = k.rank := rfl
@[simp] theorem Core.putP_limit (k : Core) (st : StreamId) (n : BitVec 4) (x : Dword) : (k.putP st n x).limit = k.limit := rfl
@[simp] theorem Core.putP_dcache (k : Core) (st : StreamId) (n : BitVec 4) (x : Dword) : (k.putP st n x).dcache = k.dcache := rfl
@[simp] theorem Core.putP_tlb (k : Core) (st : StreamId) (n : BitVec 4) (x : Dword) : (k.putP st n x).tlb = k.tlb := rfl
@[simp] theorem Core.putP_wcfg (k : Core) (st : StreamId) (n : BitVec 4) (x : Dword) : (k.putP st n x).wcfg = k.wcfg := rfl
@[simp] theorem Core.putP_row0 (k : Core) (st : StreamId) (n : BitVec 4) (x : Dword) : (k.putP st n x).row0 = k.row0 := rfl
@[simp] theorem Core.putP_flow (k : Core) (st : StreamId) (n : BitVec 4) (x : Dword) : (k.putP st n x).flow = k.flow := rfl
@[simp] theorem Core.putP_planeLoad (k : Core) (st : StreamId) (n : BitVec 4) (x : Dword) : (k.putP st n x).planeLoad = k.planeLoad := rfl
@[simp] theorem Core.putP_leaseLeft (k : Core) (st : StreamId) (n : BitVec 4) (x : Dword) : (k.putP st n x).leaseLeft = k.leaseLeft := rfl
@[simp] theorem Core.putP_wantLease (k : Core) (st : StreamId) (n : BitVec 4) (x : Dword) : (k.putP st n x).wantLease = k.wantLease := rfl
@[simp] theorem Core.putP_banks (k : Core) (st : StreamId) (n : BitVec 4) (x : Dword) : (k.putP st n x).banks = k.banks := rfl
@[simp] theorem Core.putP_landing (k : Core) (st : StreamId) (n : BitVec 4) (x : Dword) : (k.putP st n x).landing = k.landing := rfl
@[simp] theorem Core.putP_version (k : Core) (st : StreamId) (n : BitVec 4) (x : Dword) : (k.putP st n x).version = k.version := rfl
@[simp] theorem Core.putP_phaseArrived (k : Core) (st : StreamId) (n : BitVec 4) (x : Dword) : (k.putP st n x).phaseArrived = k.phaseArrived := rfl
@[simp] theorem Core.putP_op (k : Core) (st : StreamId) (n : BitVec 4) (x : Dword) : (k.putP st n x).op = k.op := rfl
@[simp] theorem Core.putP_shadow (k : Core) (st : StreamId) (n : BitVec 4) (x : Dword) : (k.putP st n x).shadow = k.shadow := rfl
@[simp] theorem Core.putP_splice (k : Core) (st : StreamId) (n : BitVec 4) (x : Dword) : (k.putP st n x).splice = k.splice := rfl
@[simp] theorem Core.putP_raising (k : Core) (st : StreamId) (n : BitVec 4) (x : Dword) : (k.putP st n x).raising = k.raising := rfl
@[simp] theorem Core.putP_frame (k : Core) (st : StreamId) (n : BitVec 4) (x : Dword) : (k.putP st n x).frame = k.frame := rfl
@[simp] theorem Core.putP_savedC (k : Core) (st : StreamId) (n : BitVec 4) (x : Dword) : (k.putP st n x).savedC = k.savedC := rfl
@[simp] theorem Core.putP_stopped (k : Core) (st : StreamId) (n : BitVec 4) (x : Dword) : (k.putP st n x).stopped = k.stopped := rfl
@[simp] theorem Core.putP_stage (k : Core) (st : StreamId) (n : BitVec 4) (x : Dword) : (k.putP st n x).stage = k.stage := rfl
@[simp] theorem Core.putP_moveTo (k : Core) (st : StreamId) (n : BitVec 4) (x : Dword) : (k.putP st n x).moveTo = k.moveTo := rfl
@[simp] theorem Core.putP_preempt (k : Core) (st : StreamId) (n : BitVec 4) (x : Dword) : (k.putP st n x).preempt = k.preempt := rfl
@[simp] theorem Core.putP_saved (k : Core) (st : StreamId) (n : BitVec 4) (x : Dword) : (k.putP st n x).saved = k.saved := rfl
@[simp] theorem Core.putP_rbuf (k : Core) (st : StreamId) (n : BitVec 4) (x : Dword) : (k.putP st n x).rbuf = k.rbuf := rfl
@[simp] theorem Core.putP_rfault (k : Core) (st : StreamId) (n : BitVec 4) (x : Dword) : (k.putP st n x).rfault = k.rfault := rfl
@[simp] theorem Core.putP_lostPeers (k : Core) (st : StreamId) (n : BitVec 4) (x : Dword) : (k.putP st n x).lostPeers = k.lostPeers := rfl

/-! Core.kill. -/

@[simp] theorem Core.kill_g (k : Core) : (k.kill).g = k.g := rfl
@[simp] theorem Core.kill_b (k : Core) : (k.kill).b = k.b := rfl
@[simp] theorem Core.kill_d (k : Core) : (k.kill).d = k.d := rfl
@[simp] theorem Core.kill_p (k : Core) : (k.kill).p = k.p := rfl
@[simp] theorem Core.kill_v (k : Core) : (k.kill).v = k.v := rfl
@[simp] theorem Core.kill_h (k : Core) : (k.kill).h = k.h := rfl
@[simp] theorem Core.kill_q (k : Core) : (k.kill).q = k.q := rfl
@[simp] theorem Core.kill_w (k : Core) : (k.kill).w = k.w := rfl
@[simp] theorem Core.kill_z (k : Core) : (k.kill).z = k.z := rfl
@[simp] theorem Core.kill_k (k : Core) : (k.kill).k = k.k := rfl
@[simp] theorem Core.kill_cb (k : Core) : (k.kill).cb = k.cb := rfl
@[simp] theorem Core.kill_cc (k : Core) : (k.kill).cc = k.cc := rfl
@[simp] theorem Core.kill_fifo (k : Core) : (k.kill).fifo = k.fifo := rfl
@[simp] theorem Core.kill_sr (k : Core) : (k.kill).sr = k.sr := rfl
@[simp] theorem Core.kill_streams (k : Core) : (k.kill).streams = k.streams := rfl
@[simp] theorem Core.kill_block (k : Core) : (k.kill).block = k.block := rfl
@[simp] theorem Core.kill_issued (k : Core) : (k.kill).issued = k.issued := rfl
@[simp] theorem Core.kill_pbrSeq (k : Core) : (k.kill).pbrSeq = k.pbrSeq := rfl
@[simp] theorem Core.kill_stall (k : Core) : (k.kill).stall = k.stall := rfl
@[simp] theorem Core.kill_rank (k : Core) : (k.kill).rank = k.rank := rfl
@[simp] theorem Core.kill_limit (k : Core) : (k.kill).limit = k.limit := rfl
@[simp] theorem Core.kill_dcache (k : Core) : (k.kill).dcache = k.dcache := rfl
@[simp] theorem Core.kill_tlb (k : Core) : (k.kill).tlb = k.tlb := rfl
@[simp] theorem Core.kill_wcfg (k : Core) : (k.kill).wcfg = k.wcfg := rfl
@[simp] theorem Core.kill_row0 (k : Core) : (k.kill).row0 = k.row0 := rfl
@[simp] theorem Core.kill_flow (k : Core) : (k.kill).flow = k.flow := rfl
@[simp] theorem Core.kill_planeLoad (k : Core) : (k.kill).planeLoad = k.planeLoad := rfl
@[simp] theorem Core.kill_leaseLeft (k : Core) : (k.kill).leaseLeft = k.leaseLeft := rfl
@[simp] theorem Core.kill_wantLease (k : Core) : (k.kill).wantLease = k.wantLease := rfl
@[simp] theorem Core.kill_banks (k : Core) : (k.kill).banks = k.banks := rfl
@[simp] theorem Core.kill_landing (k : Core) : (k.kill).landing = k.landing := rfl
@[simp] theorem Core.kill_version (k : Core) : (k.kill).version = k.version := rfl
@[simp] theorem Core.kill_phaseArrived (k : Core) : (k.kill).phaseArrived = k.phaseArrived := rfl
@[simp] theorem Core.kill_op (k : Core) : (k.kill).op = k.op := rfl
@[simp] theorem Core.kill_shadow (k : Core) : (k.kill).shadow = k.shadow := rfl
@[simp] theorem Core.kill_splice (k : Core) : (k.kill).splice = k.splice := rfl
@[simp] theorem Core.kill_raising (k : Core) : (k.kill).raising = k.raising := rfl
@[simp] theorem Core.kill_frame (k : Core) : (k.kill).frame = k.frame := rfl
@[simp] theorem Core.kill_savedC (k : Core) : (k.kill).savedC = k.savedC := rfl
@[simp] theorem Core.kill_stopped (k : Core) : (k.kill).stopped = k.stopped := rfl
@[simp] theorem Core.kill_stage (k : Core) : (k.kill).stage = k.stage := rfl
@[simp] theorem Core.kill_moveTo (k : Core) : (k.kill).moveTo = k.moveTo := rfl
@[simp] theorem Core.kill_preempt (k : Core) : (k.kill).preempt = k.preempt := rfl
@[simp] theorem Core.kill_saved (k : Core) : (k.kill).saved = k.saved := rfl
@[simp] theorem Core.kill_rbuf (k : Core) : (k.kill).rbuf = k.rbuf := rfl
@[simp] theorem Core.kill_rfault (k : Core) : (k.kill).rfault = k.rfault := rfl
@[simp] theorem Core.kill_lostPeers (k : Core) : (k.kill).lostPeers = k.lostPeers := rfl

/-! Core.countDown. -/

@[simp] theorem Core.countDown_g (k : Core) : (k.countDown).g = k.g := rfl
@[simp] theorem Core.countDown_b (k : Core) : (k.countDown).b = k.b := rfl
@[simp] theorem Core.countDown_d (k : Core) : (k.countDown).d = k.d := rfl
@[simp] theorem Core.countDown_p (k : Core) : (k.countDown).p = k.p := rfl
@[simp] theorem Core.countDown_v (k : Core) : (k.countDown).v = k.v := rfl
@[simp] theorem Core.countDown_h (k : Core) : (k.countDown).h = k.h := rfl
@[simp] theorem Core.countDown_q (k : Core) : (k.countDown).q = k.q := rfl
@[simp] theorem Core.countDown_w (k : Core) : (k.countDown).w = k.w := rfl
@[simp] theorem Core.countDown_z (k : Core) : (k.countDown).z = k.z := rfl
@[simp] theorem Core.countDown_k (k : Core) : (k.countDown).k = k.k := rfl
@[simp] theorem Core.countDown_cb (k : Core) : (k.countDown).cb = k.cb := rfl
@[simp] theorem Core.countDown_cc (k : Core) : (k.countDown).cc = k.cc := rfl
@[simp] theorem Core.countDown_fifo (k : Core) : (k.countDown).fifo = k.fifo := rfl
@[simp] theorem Core.countDown_sr (k : Core) : (k.countDown).sr = k.sr := rfl
@[simp] theorem Core.countDown_streams (k : Core) : (k.countDown).streams = k.streams := rfl
@[simp] theorem Core.countDown_block (k : Core) : (k.countDown).block = k.block := rfl
@[simp] theorem Core.countDown_issued (k : Core) : (k.countDown).issued = k.issued := rfl
@[simp] theorem Core.countDown_pbrSeq (k : Core) : (k.countDown).pbrSeq = k.pbrSeq := rfl
@[simp] theorem Core.countDown_stall (k : Core) : (k.countDown).stall = k.stall := rfl
@[simp] theorem Core.countDown_rank (k : Core) : (k.countDown).rank = k.rank := rfl
@[simp] theorem Core.countDown_limit (k : Core) : (k.countDown).limit = k.limit := rfl
@[simp] theorem Core.countDown_dcache (k : Core) : (k.countDown).dcache = k.dcache := rfl
@[simp] theorem Core.countDown_tlb (k : Core) : (k.countDown).tlb = k.tlb := rfl
@[simp] theorem Core.countDown_wcfg (k : Core) : (k.countDown).wcfg = k.wcfg := rfl
@[simp] theorem Core.countDown_row0 (k : Core) : (k.countDown).row0 = k.row0 := rfl
@[simp] theorem Core.countDown_flow (k : Core) : (k.countDown).flow = k.flow := rfl
@[simp] theorem Core.countDown_planeLoad (k : Core) : (k.countDown).planeLoad = k.planeLoad := rfl
@[simp] theorem Core.countDown_leaseLeft (k : Core) : (k.countDown).leaseLeft = k.leaseLeft := rfl
@[simp] theorem Core.countDown_wantLease (k : Core) : (k.countDown).wantLease = k.wantLease := rfl
@[simp] theorem Core.countDown_banks (k : Core) : (k.countDown).banks = k.banks := rfl
@[simp] theorem Core.countDown_landing (k : Core) : (k.countDown).landing = k.landing := rfl
@[simp] theorem Core.countDown_version (k : Core) : (k.countDown).version = k.version := rfl
@[simp] theorem Core.countDown_phaseArrived (k : Core) : (k.countDown).phaseArrived = k.phaseArrived := rfl
@[simp] theorem Core.countDown_op (k : Core) : (k.countDown).op = k.op := rfl
@[simp] theorem Core.countDown_shadow (k : Core) : (k.countDown).shadow = k.shadow := rfl
@[simp] theorem Core.countDown_splice (k : Core) : (k.countDown).splice = k.splice := rfl
@[simp] theorem Core.countDown_raising (k : Core) : (k.countDown).raising = k.raising := rfl
@[simp] theorem Core.countDown_frame (k : Core) : (k.countDown).frame = k.frame := rfl
@[simp] theorem Core.countDown_savedC (k : Core) : (k.countDown).savedC = k.savedC := rfl
@[simp] theorem Core.countDown_stopped (k : Core) : (k.countDown).stopped = k.stopped := rfl
@[simp] theorem Core.countDown_stage (k : Core) : (k.countDown).stage = k.stage := rfl
@[simp] theorem Core.countDown_moveTo (k : Core) : (k.countDown).moveTo = k.moveTo := rfl
@[simp] theorem Core.countDown_preempt (k : Core) : (k.countDown).preempt = k.preempt := rfl
@[simp] theorem Core.countDown_saved (k : Core) : (k.countDown).saved = k.saved := rfl
@[simp] theorem Core.countDown_rbuf (k : Core) : (k.countDown).rbuf = k.rbuf := rfl
@[simp] theorem Core.countDown_rfault (k : Core) : (k.countDown).rfault = k.rfault := rfl
@[simp] theorem Core.countDown_lostPeers (k : Core) : (k.countDown).lostPeers = k.lostPeers := rfl

/-! Core.putG: what it may change. -/

theorem Core.putG_only (k : Core) (n : BitVec 5) (x : Dword) : k.putG n x = { k with g := (k.putG n x).g } := by
  unfold Core.putG; split <;> rfl
@[simp] theorem Core.putG_b (k : Core) (n : BitVec 5) (x : Dword) : (k.putG n x).b = k.b := by rw [Core.putG_only]
@[simp] theorem Core.putG_d (k : Core) (n : BitVec 5) (x : Dword) : (k.putG n x).d = k.d := by rw [Core.putG_only]
@[simp] theorem Core.putG_p (k : Core) (n : BitVec 5) (x : Dword) : (k.putG n x).p = k.p := by rw [Core.putG_only]
@[simp] theorem Core.putG_v (k : Core) (n : BitVec 5) (x : Dword) : (k.putG n x).v = k.v := by rw [Core.putG_only]
@[simp] theorem Core.putG_h (k : Core) (n : BitVec 5) (x : Dword) : (k.putG n x).h = k.h := by rw [Core.putG_only]
@[simp] theorem Core.putG_q (k : Core) (n : BitVec 5) (x : Dword) : (k.putG n x).q = k.q := by rw [Core.putG_only]
@[simp] theorem Core.putG_w (k : Core) (n : BitVec 5) (x : Dword) : (k.putG n x).w = k.w := by rw [Core.putG_only]
@[simp] theorem Core.putG_z (k : Core) (n : BitVec 5) (x : Dword) : (k.putG n x).z = k.z := by rw [Core.putG_only]
@[simp] theorem Core.putG_k (k : Core) (n : BitVec 5) (x : Dword) : (k.putG n x).k = k.k := by rw [Core.putG_only]
@[simp] theorem Core.putG_cb (k : Core) (n : BitVec 5) (x : Dword) : (k.putG n x).cb = k.cb := by rw [Core.putG_only]
@[simp] theorem Core.putG_cc (k : Core) (n : BitVec 5) (x : Dword) : (k.putG n x).cc = k.cc := by rw [Core.putG_only]
@[simp] theorem Core.putG_fifo (k : Core) (n : BitVec 5) (x : Dword) : (k.putG n x).fifo = k.fifo := by rw [Core.putG_only]
@[simp] theorem Core.putG_sr (k : Core) (n : BitVec 5) (x : Dword) : (k.putG n x).sr = k.sr := by rw [Core.putG_only]
@[simp] theorem Core.putG_streams (k : Core) (n : BitVec 5) (x : Dword) : (k.putG n x).streams = k.streams := by rw [Core.putG_only]
@[simp] theorem Core.putG_inflight (k : Core) (n : BitVec 5) (x : Dword) : (k.putG n x).inflight = k.inflight := by rw [Core.putG_only]
@[simp] theorem Core.putG_block (k : Core) (n : BitVec 5) (x : Dword) : (k.putG n x).block = k.block := by rw [Core.putG_only]
@[simp] theorem Core.putG_issued (k : Core) (n : BitVec 5) (x : Dword) : (k.putG n x).issued = k.issued := by rw [Core.putG_only]
@[simp] theorem Core.putG_pbrSeq (k : Core) (n : BitVec 5) (x : Dword) : (k.putG n x).pbrSeq = k.pbrSeq := by rw [Core.putG_only]
@[simp] theorem Core.putG_stall (k : Core) (n : BitVec 5) (x : Dword) : (k.putG n x).stall = k.stall := by rw [Core.putG_only]
@[simp] theorem Core.putG_rank (k : Core) (n : BitVec 5) (x : Dword) : (k.putG n x).rank = k.rank := by rw [Core.putG_only]
@[simp] theorem Core.putG_limit (k : Core) (n : BitVec 5) (x : Dword) : (k.putG n x).limit = k.limit := by rw [Core.putG_only]
@[simp] theorem Core.putG_dcache (k : Core) (n : BitVec 5) (x : Dword) : (k.putG n x).dcache = k.dcache := by rw [Core.putG_only]
@[simp] theorem Core.putG_tlb (k : Core) (n : BitVec 5) (x : Dword) : (k.putG n x).tlb = k.tlb := by rw [Core.putG_only]
@[simp] theorem Core.putG_wcfg (k : Core) (n : BitVec 5) (x : Dword) : (k.putG n x).wcfg = k.wcfg := by rw [Core.putG_only]
@[simp] theorem Core.putG_row0 (k : Core) (n : BitVec 5) (x : Dword) : (k.putG n x).row0 = k.row0 := by rw [Core.putG_only]
@[simp] theorem Core.putG_flow (k : Core) (n : BitVec 5) (x : Dword) : (k.putG n x).flow = k.flow := by rw [Core.putG_only]
@[simp] theorem Core.putG_planeLoad (k : Core) (n : BitVec 5) (x : Dword) : (k.putG n x).planeLoad = k.planeLoad := by rw [Core.putG_only]
@[simp] theorem Core.putG_leaseLeft (k : Core) (n : BitVec 5) (x : Dword) : (k.putG n x).leaseLeft = k.leaseLeft := by rw [Core.putG_only]
@[simp] theorem Core.putG_wantLease (k : Core) (n : BitVec 5) (x : Dword) : (k.putG n x).wantLease = k.wantLease := by rw [Core.putG_only]
@[simp] theorem Core.putG_banks (k : Core) (n : BitVec 5) (x : Dword) : (k.putG n x).banks = k.banks := by rw [Core.putG_only]
@[simp] theorem Core.putG_landing (k : Core) (n : BitVec 5) (x : Dword) : (k.putG n x).landing = k.landing := by rw [Core.putG_only]
@[simp] theorem Core.putG_version (k : Core) (n : BitVec 5) (x : Dword) : (k.putG n x).version = k.version := by rw [Core.putG_only]
@[simp] theorem Core.putG_phaseArrived (k : Core) (n : BitVec 5) (x : Dword) : (k.putG n x).phaseArrived = k.phaseArrived := by rw [Core.putG_only]
@[simp] theorem Core.putG_op (k : Core) (n : BitVec 5) (x : Dword) : (k.putG n x).op = k.op := by rw [Core.putG_only]
@[simp] theorem Core.putG_shadow (k : Core) (n : BitVec 5) (x : Dword) : (k.putG n x).shadow = k.shadow := by rw [Core.putG_only]
@[simp] theorem Core.putG_splice (k : Core) (n : BitVec 5) (x : Dword) : (k.putG n x).splice = k.splice := by rw [Core.putG_only]
@[simp] theorem Core.putG_raising (k : Core) (n : BitVec 5) (x : Dword) : (k.putG n x).raising = k.raising := by rw [Core.putG_only]
@[simp] theorem Core.putG_frame (k : Core) (n : BitVec 5) (x : Dword) : (k.putG n x).frame = k.frame := by rw [Core.putG_only]
@[simp] theorem Core.putG_savedC (k : Core) (n : BitVec 5) (x : Dword) : (k.putG n x).savedC = k.savedC := by rw [Core.putG_only]
@[simp] theorem Core.putG_stopped (k : Core) (n : BitVec 5) (x : Dword) : (k.putG n x).stopped = k.stopped := by rw [Core.putG_only]
@[simp] theorem Core.putG_stage (k : Core) (n : BitVec 5) (x : Dword) : (k.putG n x).stage = k.stage := by rw [Core.putG_only]
@[simp] theorem Core.putG_moveTo (k : Core) (n : BitVec 5) (x : Dword) : (k.putG n x).moveTo = k.moveTo := by rw [Core.putG_only]
@[simp] theorem Core.putG_preempt (k : Core) (n : BitVec 5) (x : Dword) : (k.putG n x).preempt = k.preempt := by rw [Core.putG_only]
@[simp] theorem Core.putG_saved (k : Core) (n : BitVec 5) (x : Dword) : (k.putG n x).saved = k.saved := by rw [Core.putG_only]
@[simp] theorem Core.putG_rbuf (k : Core) (n : BitVec 5) (x : Dword) : (k.putG n x).rbuf = k.rbuf := by rw [Core.putG_only]
@[simp] theorem Core.putG_rfault (k : Core) (n : BitVec 5) (x : Dword) : (k.putG n x).rfault = k.rfault := by rw [Core.putG_only]
@[simp] theorem Core.putG_lostPeers (k : Core) (n : BitVec 5) (x : Dword) : (k.putG n x).lostPeers = k.lostPeers := by rw [Core.putG_only]

/-! Core.takePop: what it may change. -/

theorem Core.takePop_only (k : Core) (st : StreamId) (y : Sync) : k.takePop st y = { k with fifo := (k.takePop st y).fifo } := by
  unfold Core.takePop; split <;> rfl
@[simp] theorem Core.takePop_g (k : Core) (st : StreamId) (y : Sync) : (k.takePop st y).g = k.g := by rw [Core.takePop_only]
@[simp] theorem Core.takePop_b (k : Core) (st : StreamId) (y : Sync) : (k.takePop st y).b = k.b := by rw [Core.takePop_only]
@[simp] theorem Core.takePop_d (k : Core) (st : StreamId) (y : Sync) : (k.takePop st y).d = k.d := by rw [Core.takePop_only]
@[simp] theorem Core.takePop_p (k : Core) (st : StreamId) (y : Sync) : (k.takePop st y).p = k.p := by rw [Core.takePop_only]
@[simp] theorem Core.takePop_v (k : Core) (st : StreamId) (y : Sync) : (k.takePop st y).v = k.v := by rw [Core.takePop_only]
@[simp] theorem Core.takePop_h (k : Core) (st : StreamId) (y : Sync) : (k.takePop st y).h = k.h := by rw [Core.takePop_only]
@[simp] theorem Core.takePop_q (k : Core) (st : StreamId) (y : Sync) : (k.takePop st y).q = k.q := by rw [Core.takePop_only]
@[simp] theorem Core.takePop_w (k : Core) (st : StreamId) (y : Sync) : (k.takePop st y).w = k.w := by rw [Core.takePop_only]
@[simp] theorem Core.takePop_z (k : Core) (st : StreamId) (y : Sync) : (k.takePop st y).z = k.z := by rw [Core.takePop_only]
@[simp] theorem Core.takePop_k (k : Core) (st : StreamId) (y : Sync) : (k.takePop st y).k = k.k := by rw [Core.takePop_only]
@[simp] theorem Core.takePop_cb (k : Core) (st : StreamId) (y : Sync) : (k.takePop st y).cb = k.cb := by rw [Core.takePop_only]
@[simp] theorem Core.takePop_cc (k : Core) (st : StreamId) (y : Sync) : (k.takePop st y).cc = k.cc := by rw [Core.takePop_only]
@[simp] theorem Core.takePop_sr (k : Core) (st : StreamId) (y : Sync) : (k.takePop st y).sr = k.sr := by rw [Core.takePop_only]
@[simp] theorem Core.takePop_streams (k : Core) (st : StreamId) (y : Sync) : (k.takePop st y).streams = k.streams := by rw [Core.takePop_only]
@[simp] theorem Core.takePop_inflight (k : Core) (st : StreamId) (y : Sync) : (k.takePop st y).inflight = k.inflight := by rw [Core.takePop_only]
@[simp] theorem Core.takePop_block (k : Core) (st : StreamId) (y : Sync) : (k.takePop st y).block = k.block := by rw [Core.takePop_only]
@[simp] theorem Core.takePop_issued (k : Core) (st : StreamId) (y : Sync) : (k.takePop st y).issued = k.issued := by rw [Core.takePop_only]
@[simp] theorem Core.takePop_pbrSeq (k : Core) (st : StreamId) (y : Sync) : (k.takePop st y).pbrSeq = k.pbrSeq := by rw [Core.takePop_only]
@[simp] theorem Core.takePop_stall (k : Core) (st : StreamId) (y : Sync) : (k.takePop st y).stall = k.stall := by rw [Core.takePop_only]
@[simp] theorem Core.takePop_rank (k : Core) (st : StreamId) (y : Sync) : (k.takePop st y).rank = k.rank := by rw [Core.takePop_only]
@[simp] theorem Core.takePop_limit (k : Core) (st : StreamId) (y : Sync) : (k.takePop st y).limit = k.limit := by rw [Core.takePop_only]
@[simp] theorem Core.takePop_dcache (k : Core) (st : StreamId) (y : Sync) : (k.takePop st y).dcache = k.dcache := by rw [Core.takePop_only]
@[simp] theorem Core.takePop_tlb (k : Core) (st : StreamId) (y : Sync) : (k.takePop st y).tlb = k.tlb := by rw [Core.takePop_only]
@[simp] theorem Core.takePop_wcfg (k : Core) (st : StreamId) (y : Sync) : (k.takePop st y).wcfg = k.wcfg := by rw [Core.takePop_only]
@[simp] theorem Core.takePop_row0 (k : Core) (st : StreamId) (y : Sync) : (k.takePop st y).row0 = k.row0 := by rw [Core.takePop_only]
@[simp] theorem Core.takePop_flow (k : Core) (st : StreamId) (y : Sync) : (k.takePop st y).flow = k.flow := by rw [Core.takePop_only]
@[simp] theorem Core.takePop_planeLoad (k : Core) (st : StreamId) (y : Sync) : (k.takePop st y).planeLoad = k.planeLoad := by rw [Core.takePop_only]
@[simp] theorem Core.takePop_leaseLeft (k : Core) (st : StreamId) (y : Sync) : (k.takePop st y).leaseLeft = k.leaseLeft := by rw [Core.takePop_only]
@[simp] theorem Core.takePop_wantLease (k : Core) (st : StreamId) (y : Sync) : (k.takePop st y).wantLease = k.wantLease := by rw [Core.takePop_only]
@[simp] theorem Core.takePop_banks (k : Core) (st : StreamId) (y : Sync) : (k.takePop st y).banks = k.banks := by rw [Core.takePop_only]
@[simp] theorem Core.takePop_landing (k : Core) (st : StreamId) (y : Sync) : (k.takePop st y).landing = k.landing := by rw [Core.takePop_only]
@[simp] theorem Core.takePop_version (k : Core) (st : StreamId) (y : Sync) : (k.takePop st y).version = k.version := by rw [Core.takePop_only]
@[simp] theorem Core.takePop_phaseArrived (k : Core) (st : StreamId) (y : Sync) : (k.takePop st y).phaseArrived = k.phaseArrived := by rw [Core.takePop_only]
@[simp] theorem Core.takePop_op (k : Core) (st : StreamId) (y : Sync) : (k.takePop st y).op = k.op := by rw [Core.takePop_only]
@[simp] theorem Core.takePop_shadow (k : Core) (st : StreamId) (y : Sync) : (k.takePop st y).shadow = k.shadow := by rw [Core.takePop_only]
@[simp] theorem Core.takePop_splice (k : Core) (st : StreamId) (y : Sync) : (k.takePop st y).splice = k.splice := by rw [Core.takePop_only]
@[simp] theorem Core.takePop_raising (k : Core) (st : StreamId) (y : Sync) : (k.takePop st y).raising = k.raising := by rw [Core.takePop_only]
@[simp] theorem Core.takePop_frame (k : Core) (st : StreamId) (y : Sync) : (k.takePop st y).frame = k.frame := by rw [Core.takePop_only]
@[simp] theorem Core.takePop_savedC (k : Core) (st : StreamId) (y : Sync) : (k.takePop st y).savedC = k.savedC := by rw [Core.takePop_only]
@[simp] theorem Core.takePop_stopped (k : Core) (st : StreamId) (y : Sync) : (k.takePop st y).stopped = k.stopped := by rw [Core.takePop_only]
@[simp] theorem Core.takePop_stage (k : Core) (st : StreamId) (y : Sync) : (k.takePop st y).stage = k.stage := by rw [Core.takePop_only]
@[simp] theorem Core.takePop_moveTo (k : Core) (st : StreamId) (y : Sync) : (k.takePop st y).moveTo = k.moveTo := by rw [Core.takePop_only]
@[simp] theorem Core.takePop_preempt (k : Core) (st : StreamId) (y : Sync) : (k.takePop st y).preempt = k.preempt := by rw [Core.takePop_only]
@[simp] theorem Core.takePop_saved (k : Core) (st : StreamId) (y : Sync) : (k.takePop st y).saved = k.saved := by rw [Core.takePop_only]
@[simp] theorem Core.takePop_rbuf (k : Core) (st : StreamId) (y : Sync) : (k.takePop st y).rbuf = k.rbuf := by rw [Core.takePop_only]
@[simp] theorem Core.takePop_rfault (k : Core) (st : StreamId) (y : Sync) : (k.takePop st y).rfault = k.rfault := by rw [Core.takePop_only]
@[simp] theorem Core.takePop_lostPeers (k : Core) (st : StreamId) (y : Sync) : (k.takePop st y).lostPeers = k.lostPeers := by rw [Core.takePop_only]

/-! Core.undoPop: what it may change. -/

theorem Core.undoPop_only (k : Core) (st : StreamId) (y : Sync) : k.undoPop st y = { k with fifo := (k.undoPop st y).fifo } := by
  unfold Core.undoPop; split <;> rfl
@[simp] theorem Core.undoPop_g (k : Core) (st : StreamId) (y : Sync) : (k.undoPop st y).g = k.g := by rw [Core.undoPop_only]
@[simp] theorem Core.undoPop_b (k : Core) (st : StreamId) (y : Sync) : (k.undoPop st y).b = k.b := by rw [Core.undoPop_only]
@[simp] theorem Core.undoPop_d (k : Core) (st : StreamId) (y : Sync) : (k.undoPop st y).d = k.d := by rw [Core.undoPop_only]
@[simp] theorem Core.undoPop_p (k : Core) (st : StreamId) (y : Sync) : (k.undoPop st y).p = k.p := by rw [Core.undoPop_only]
@[simp] theorem Core.undoPop_v (k : Core) (st : StreamId) (y : Sync) : (k.undoPop st y).v = k.v := by rw [Core.undoPop_only]
@[simp] theorem Core.undoPop_h (k : Core) (st : StreamId) (y : Sync) : (k.undoPop st y).h = k.h := by rw [Core.undoPop_only]
@[simp] theorem Core.undoPop_q (k : Core) (st : StreamId) (y : Sync) : (k.undoPop st y).q = k.q := by rw [Core.undoPop_only]
@[simp] theorem Core.undoPop_w (k : Core) (st : StreamId) (y : Sync) : (k.undoPop st y).w = k.w := by rw [Core.undoPop_only]
@[simp] theorem Core.undoPop_z (k : Core) (st : StreamId) (y : Sync) : (k.undoPop st y).z = k.z := by rw [Core.undoPop_only]
@[simp] theorem Core.undoPop_k (k : Core) (st : StreamId) (y : Sync) : (k.undoPop st y).k = k.k := by rw [Core.undoPop_only]
@[simp] theorem Core.undoPop_cb (k : Core) (st : StreamId) (y : Sync) : (k.undoPop st y).cb = k.cb := by rw [Core.undoPop_only]
@[simp] theorem Core.undoPop_cc (k : Core) (st : StreamId) (y : Sync) : (k.undoPop st y).cc = k.cc := by rw [Core.undoPop_only]
@[simp] theorem Core.undoPop_sr (k : Core) (st : StreamId) (y : Sync) : (k.undoPop st y).sr = k.sr := by rw [Core.undoPop_only]
@[simp] theorem Core.undoPop_streams (k : Core) (st : StreamId) (y : Sync) : (k.undoPop st y).streams = k.streams := by rw [Core.undoPop_only]
@[simp] theorem Core.undoPop_inflight (k : Core) (st : StreamId) (y : Sync) : (k.undoPop st y).inflight = k.inflight := by rw [Core.undoPop_only]
@[simp] theorem Core.undoPop_block (k : Core) (st : StreamId) (y : Sync) : (k.undoPop st y).block = k.block := by rw [Core.undoPop_only]
@[simp] theorem Core.undoPop_issued (k : Core) (st : StreamId) (y : Sync) : (k.undoPop st y).issued = k.issued := by rw [Core.undoPop_only]
@[simp] theorem Core.undoPop_pbrSeq (k : Core) (st : StreamId) (y : Sync) : (k.undoPop st y).pbrSeq = k.pbrSeq := by rw [Core.undoPop_only]
@[simp] theorem Core.undoPop_stall (k : Core) (st : StreamId) (y : Sync) : (k.undoPop st y).stall = k.stall := by rw [Core.undoPop_only]
@[simp] theorem Core.undoPop_rank (k : Core) (st : StreamId) (y : Sync) : (k.undoPop st y).rank = k.rank := by rw [Core.undoPop_only]
@[simp] theorem Core.undoPop_limit (k : Core) (st : StreamId) (y : Sync) : (k.undoPop st y).limit = k.limit := by rw [Core.undoPop_only]
@[simp] theorem Core.undoPop_dcache (k : Core) (st : StreamId) (y : Sync) : (k.undoPop st y).dcache = k.dcache := by rw [Core.undoPop_only]
@[simp] theorem Core.undoPop_tlb (k : Core) (st : StreamId) (y : Sync) : (k.undoPop st y).tlb = k.tlb := by rw [Core.undoPop_only]
@[simp] theorem Core.undoPop_wcfg (k : Core) (st : StreamId) (y : Sync) : (k.undoPop st y).wcfg = k.wcfg := by rw [Core.undoPop_only]
@[simp] theorem Core.undoPop_row0 (k : Core) (st : StreamId) (y : Sync) : (k.undoPop st y).row0 = k.row0 := by rw [Core.undoPop_only]
@[simp] theorem Core.undoPop_flow (k : Core) (st : StreamId) (y : Sync) : (k.undoPop st y).flow = k.flow := by rw [Core.undoPop_only]
@[simp] theorem Core.undoPop_planeLoad (k : Core) (st : StreamId) (y : Sync) : (k.undoPop st y).planeLoad = k.planeLoad := by rw [Core.undoPop_only]
@[simp] theorem Core.undoPop_leaseLeft (k : Core) (st : StreamId) (y : Sync) : (k.undoPop st y).leaseLeft = k.leaseLeft := by rw [Core.undoPop_only]
@[simp] theorem Core.undoPop_wantLease (k : Core) (st : StreamId) (y : Sync) : (k.undoPop st y).wantLease = k.wantLease := by rw [Core.undoPop_only]
@[simp] theorem Core.undoPop_banks (k : Core) (st : StreamId) (y : Sync) : (k.undoPop st y).banks = k.banks := by rw [Core.undoPop_only]
@[simp] theorem Core.undoPop_landing (k : Core) (st : StreamId) (y : Sync) : (k.undoPop st y).landing = k.landing := by rw [Core.undoPop_only]
@[simp] theorem Core.undoPop_version (k : Core) (st : StreamId) (y : Sync) : (k.undoPop st y).version = k.version := by rw [Core.undoPop_only]
@[simp] theorem Core.undoPop_phaseArrived (k : Core) (st : StreamId) (y : Sync) : (k.undoPop st y).phaseArrived = k.phaseArrived := by rw [Core.undoPop_only]
@[simp] theorem Core.undoPop_op (k : Core) (st : StreamId) (y : Sync) : (k.undoPop st y).op = k.op := by rw [Core.undoPop_only]
@[simp] theorem Core.undoPop_shadow (k : Core) (st : StreamId) (y : Sync) : (k.undoPop st y).shadow = k.shadow := by rw [Core.undoPop_only]
@[simp] theorem Core.undoPop_splice (k : Core) (st : StreamId) (y : Sync) : (k.undoPop st y).splice = k.splice := by rw [Core.undoPop_only]
@[simp] theorem Core.undoPop_raising (k : Core) (st : StreamId) (y : Sync) : (k.undoPop st y).raising = k.raising := by rw [Core.undoPop_only]
@[simp] theorem Core.undoPop_frame (k : Core) (st : StreamId) (y : Sync) : (k.undoPop st y).frame = k.frame := by rw [Core.undoPop_only]
@[simp] theorem Core.undoPop_savedC (k : Core) (st : StreamId) (y : Sync) : (k.undoPop st y).savedC = k.savedC := by rw [Core.undoPop_only]
@[simp] theorem Core.undoPop_stopped (k : Core) (st : StreamId) (y : Sync) : (k.undoPop st y).stopped = k.stopped := by rw [Core.undoPop_only]
@[simp] theorem Core.undoPop_stage (k : Core) (st : StreamId) (y : Sync) : (k.undoPop st y).stage = k.stage := by rw [Core.undoPop_only]
@[simp] theorem Core.undoPop_moveTo (k : Core) (st : StreamId) (y : Sync) : (k.undoPop st y).moveTo = k.moveTo := by rw [Core.undoPop_only]
@[simp] theorem Core.undoPop_preempt (k : Core) (st : StreamId) (y : Sync) : (k.undoPop st y).preempt = k.preempt := by rw [Core.undoPop_only]
@[simp] theorem Core.undoPop_saved (k : Core) (st : StreamId) (y : Sync) : (k.undoPop st y).saved = k.saved := by rw [Core.undoPop_only]
@[simp] theorem Core.undoPop_rbuf (k : Core) (st : StreamId) (y : Sync) : (k.undoPop st y).rbuf = k.rbuf := by rw [Core.undoPop_only]
@[simp] theorem Core.undoPop_rfault (k : Core) (st : StreamId) (y : Sync) : (k.undoPop st y).rfault = k.rfault := by rw [Core.undoPop_only]
@[simp] theorem Core.undoPop_lostPeers (k : Core) (st : StreamId) (y : Sync) : (k.undoPop st y).lostPeers = k.lostPeers := by rw [Core.undoPop_only]

/-! Core.settle: what it may change. -/

theorem Core.settle_only (k : Core) (st : StreamId) : k.settle st = { k with streams := (k.settle st).streams } := by
  unfold Core.settle
  split <;> rfl
@[simp] theorem Core.settle_g (k : Core) (st : StreamId) : (k.settle st).g = k.g := by rw [Core.settle_only]
@[simp] theorem Core.settle_b (k : Core) (st : StreamId) : (k.settle st).b = k.b := by rw [Core.settle_only]
@[simp] theorem Core.settle_d (k : Core) (st : StreamId) : (k.settle st).d = k.d := by rw [Core.settle_only]
@[simp] theorem Core.settle_p (k : Core) (st : StreamId) : (k.settle st).p = k.p := by rw [Core.settle_only]
@[simp] theorem Core.settle_v (k : Core) (st : StreamId) : (k.settle st).v = k.v := by rw [Core.settle_only]
@[simp] theorem Core.settle_h (k : Core) (st : StreamId) : (k.settle st).h = k.h := by rw [Core.settle_only]
@[simp] theorem Core.settle_q (k : Core) (st : StreamId) : (k.settle st).q = k.q := by rw [Core.settle_only]
@[simp] theorem Core.settle_w (k : Core) (st : StreamId) : (k.settle st).w = k.w := by rw [Core.settle_only]
@[simp] theorem Core.settle_z (k : Core) (st : StreamId) : (k.settle st).z = k.z := by rw [Core.settle_only]
@[simp] theorem Core.settle_k (k : Core) (st : StreamId) : (k.settle st).k = k.k := by rw [Core.settle_only]
@[simp] theorem Core.settle_cb (k : Core) (st : StreamId) : (k.settle st).cb = k.cb := by rw [Core.settle_only]
@[simp] theorem Core.settle_cc (k : Core) (st : StreamId) : (k.settle st).cc = k.cc := by rw [Core.settle_only]
@[simp] theorem Core.settle_fifo (k : Core) (st : StreamId) : (k.settle st).fifo = k.fifo := by rw [Core.settle_only]
@[simp] theorem Core.settle_sr (k : Core) (st : StreamId) : (k.settle st).sr = k.sr := by rw [Core.settle_only]
@[simp] theorem Core.settle_inflight (k : Core) (st : StreamId) : (k.settle st).inflight = k.inflight := by rw [Core.settle_only]
@[simp] theorem Core.settle_block (k : Core) (st : StreamId) : (k.settle st).block = k.block := by rw [Core.settle_only]
@[simp] theorem Core.settle_issued (k : Core) (st : StreamId) : (k.settle st).issued = k.issued := by rw [Core.settle_only]
@[simp] theorem Core.settle_pbrSeq (k : Core) (st : StreamId) : (k.settle st).pbrSeq = k.pbrSeq := by rw [Core.settle_only]
@[simp] theorem Core.settle_stall (k : Core) (st : StreamId) : (k.settle st).stall = k.stall := by rw [Core.settle_only]
@[simp] theorem Core.settle_rank (k : Core) (st : StreamId) : (k.settle st).rank = k.rank := by rw [Core.settle_only]
@[simp] theorem Core.settle_limit (k : Core) (st : StreamId) : (k.settle st).limit = k.limit := by rw [Core.settle_only]
@[simp] theorem Core.settle_dcache (k : Core) (st : StreamId) : (k.settle st).dcache = k.dcache := by rw [Core.settle_only]
@[simp] theorem Core.settle_tlb (k : Core) (st : StreamId) : (k.settle st).tlb = k.tlb := by rw [Core.settle_only]
@[simp] theorem Core.settle_wcfg (k : Core) (st : StreamId) : (k.settle st).wcfg = k.wcfg := by rw [Core.settle_only]
@[simp] theorem Core.settle_row0 (k : Core) (st : StreamId) : (k.settle st).row0 = k.row0 := by rw [Core.settle_only]
@[simp] theorem Core.settle_flow (k : Core) (st : StreamId) : (k.settle st).flow = k.flow := by rw [Core.settle_only]
@[simp] theorem Core.settle_planeLoad (k : Core) (st : StreamId) : (k.settle st).planeLoad = k.planeLoad := by rw [Core.settle_only]
@[simp] theorem Core.settle_leaseLeft (k : Core) (st : StreamId) : (k.settle st).leaseLeft = k.leaseLeft := by rw [Core.settle_only]
@[simp] theorem Core.settle_wantLease (k : Core) (st : StreamId) : (k.settle st).wantLease = k.wantLease := by rw [Core.settle_only]
@[simp] theorem Core.settle_banks (k : Core) (st : StreamId) : (k.settle st).banks = k.banks := by rw [Core.settle_only]
@[simp] theorem Core.settle_landing (k : Core) (st : StreamId) : (k.settle st).landing = k.landing := by rw [Core.settle_only]
@[simp] theorem Core.settle_version (k : Core) (st : StreamId) : (k.settle st).version = k.version := by rw [Core.settle_only]
@[simp] theorem Core.settle_phaseArrived (k : Core) (st : StreamId) : (k.settle st).phaseArrived = k.phaseArrived := by rw [Core.settle_only]
@[simp] theorem Core.settle_op (k : Core) (st : StreamId) : (k.settle st).op = k.op := by rw [Core.settle_only]
@[simp] theorem Core.settle_shadow (k : Core) (st : StreamId) : (k.settle st).shadow = k.shadow := by rw [Core.settle_only]
@[simp] theorem Core.settle_splice (k : Core) (st : StreamId) : (k.settle st).splice = k.splice := by rw [Core.settle_only]
@[simp] theorem Core.settle_raising (k : Core) (st : StreamId) : (k.settle st).raising = k.raising := by rw [Core.settle_only]
@[simp] theorem Core.settle_frame (k : Core) (st : StreamId) : (k.settle st).frame = k.frame := by rw [Core.settle_only]
@[simp] theorem Core.settle_savedC (k : Core) (st : StreamId) : (k.settle st).savedC = k.savedC := by rw [Core.settle_only]
@[simp] theorem Core.settle_stopped (k : Core) (st : StreamId) : (k.settle st).stopped = k.stopped := by rw [Core.settle_only]
@[simp] theorem Core.settle_stage (k : Core) (st : StreamId) : (k.settle st).stage = k.stage := by rw [Core.settle_only]
@[simp] theorem Core.settle_moveTo (k : Core) (st : StreamId) : (k.settle st).moveTo = k.moveTo := by rw [Core.settle_only]
@[simp] theorem Core.settle_preempt (k : Core) (st : StreamId) : (k.settle st).preempt = k.preempt := by rw [Core.settle_only]
@[simp] theorem Core.settle_saved (k : Core) (st : StreamId) : (k.settle st).saved = k.saved := by rw [Core.settle_only]
@[simp] theorem Core.settle_rbuf (k : Core) (st : StreamId) : (k.settle st).rbuf = k.rbuf := by rw [Core.settle_only]
@[simp] theorem Core.settle_rfault (k : Core) (st : StreamId) : (k.settle st).rfault = k.rfault := by rw [Core.settle_only]
@[simp] theorem Core.settle_lostPeers (k : Core) (st : StreamId) : (k.settle st).lostPeers = k.lostPeers := by rw [Core.settle_only]

/-! Core.retire: what it may change. -/

theorem Core.retire_only (k : Core) (st : StreamId) (y : Sync) : k.retire st y = { k with streams := (k.retire st y).streams } := by
  unfold Core.retire
  split <;> rw [Core.settle_only] <;> rfl
@[simp] theorem Core.retire_g (k : Core) (st : StreamId) (y : Sync) : (k.retire st y).g = k.g := by rw [Core.retire_only]
@[simp] theorem Core.retire_b (k : Core) (st : StreamId) (y : Sync) : (k.retire st y).b = k.b := by rw [Core.retire_only]
@[simp] theorem Core.retire_d (k : Core) (st : StreamId) (y : Sync) : (k.retire st y).d = k.d := by rw [Core.retire_only]
@[simp] theorem Core.retire_p (k : Core) (st : StreamId) (y : Sync) : (k.retire st y).p = k.p := by rw [Core.retire_only]
@[simp] theorem Core.retire_v (k : Core) (st : StreamId) (y : Sync) : (k.retire st y).v = k.v := by rw [Core.retire_only]
@[simp] theorem Core.retire_h (k : Core) (st : StreamId) (y : Sync) : (k.retire st y).h = k.h := by rw [Core.retire_only]
@[simp] theorem Core.retire_q (k : Core) (st : StreamId) (y : Sync) : (k.retire st y).q = k.q := by rw [Core.retire_only]
@[simp] theorem Core.retire_w (k : Core) (st : StreamId) (y : Sync) : (k.retire st y).w = k.w := by rw [Core.retire_only]
@[simp] theorem Core.retire_z (k : Core) (st : StreamId) (y : Sync) : (k.retire st y).z = k.z := by rw [Core.retire_only]
@[simp] theorem Core.retire_k (k : Core) (st : StreamId) (y : Sync) : (k.retire st y).k = k.k := by rw [Core.retire_only]
@[simp] theorem Core.retire_cb (k : Core) (st : StreamId) (y : Sync) : (k.retire st y).cb = k.cb := by rw [Core.retire_only]
@[simp] theorem Core.retire_cc (k : Core) (st : StreamId) (y : Sync) : (k.retire st y).cc = k.cc := by rw [Core.retire_only]
@[simp] theorem Core.retire_fifo (k : Core) (st : StreamId) (y : Sync) : (k.retire st y).fifo = k.fifo := by rw [Core.retire_only]
@[simp] theorem Core.retire_sr (k : Core) (st : StreamId) (y : Sync) : (k.retire st y).sr = k.sr := by rw [Core.retire_only]
@[simp] theorem Core.retire_inflight (k : Core) (st : StreamId) (y : Sync) : (k.retire st y).inflight = k.inflight := by rw [Core.retire_only]
@[simp] theorem Core.retire_block (k : Core) (st : StreamId) (y : Sync) : (k.retire st y).block = k.block := by rw [Core.retire_only]
@[simp] theorem Core.retire_issued (k : Core) (st : StreamId) (y : Sync) : (k.retire st y).issued = k.issued := by rw [Core.retire_only]
@[simp] theorem Core.retire_pbrSeq (k : Core) (st : StreamId) (y : Sync) : (k.retire st y).pbrSeq = k.pbrSeq := by rw [Core.retire_only]
@[simp] theorem Core.retire_stall (k : Core) (st : StreamId) (y : Sync) : (k.retire st y).stall = k.stall := by rw [Core.retire_only]
@[simp] theorem Core.retire_rank (k : Core) (st : StreamId) (y : Sync) : (k.retire st y).rank = k.rank := by rw [Core.retire_only]
@[simp] theorem Core.retire_limit (k : Core) (st : StreamId) (y : Sync) : (k.retire st y).limit = k.limit := by rw [Core.retire_only]
@[simp] theorem Core.retire_dcache (k : Core) (st : StreamId) (y : Sync) : (k.retire st y).dcache = k.dcache := by rw [Core.retire_only]
@[simp] theorem Core.retire_tlb (k : Core) (st : StreamId) (y : Sync) : (k.retire st y).tlb = k.tlb := by rw [Core.retire_only]
@[simp] theorem Core.retire_wcfg (k : Core) (st : StreamId) (y : Sync) : (k.retire st y).wcfg = k.wcfg := by rw [Core.retire_only]
@[simp] theorem Core.retire_row0 (k : Core) (st : StreamId) (y : Sync) : (k.retire st y).row0 = k.row0 := by rw [Core.retire_only]
@[simp] theorem Core.retire_flow (k : Core) (st : StreamId) (y : Sync) : (k.retire st y).flow = k.flow := by rw [Core.retire_only]
@[simp] theorem Core.retire_planeLoad (k : Core) (st : StreamId) (y : Sync) : (k.retire st y).planeLoad = k.planeLoad := by rw [Core.retire_only]
@[simp] theorem Core.retire_leaseLeft (k : Core) (st : StreamId) (y : Sync) : (k.retire st y).leaseLeft = k.leaseLeft := by rw [Core.retire_only]
@[simp] theorem Core.retire_wantLease (k : Core) (st : StreamId) (y : Sync) : (k.retire st y).wantLease = k.wantLease := by rw [Core.retire_only]
@[simp] theorem Core.retire_banks (k : Core) (st : StreamId) (y : Sync) : (k.retire st y).banks = k.banks := by rw [Core.retire_only]
@[simp] theorem Core.retire_landing (k : Core) (st : StreamId) (y : Sync) : (k.retire st y).landing = k.landing := by rw [Core.retire_only]
@[simp] theorem Core.retire_version (k : Core) (st : StreamId) (y : Sync) : (k.retire st y).version = k.version := by rw [Core.retire_only]
@[simp] theorem Core.retire_phaseArrived (k : Core) (st : StreamId) (y : Sync) : (k.retire st y).phaseArrived = k.phaseArrived := by rw [Core.retire_only]
@[simp] theorem Core.retire_op (k : Core) (st : StreamId) (y : Sync) : (k.retire st y).op = k.op := by rw [Core.retire_only]
@[simp] theorem Core.retire_shadow (k : Core) (st : StreamId) (y : Sync) : (k.retire st y).shadow = k.shadow := by rw [Core.retire_only]
@[simp] theorem Core.retire_splice (k : Core) (st : StreamId) (y : Sync) : (k.retire st y).splice = k.splice := by rw [Core.retire_only]
@[simp] theorem Core.retire_raising (k : Core) (st : StreamId) (y : Sync) : (k.retire st y).raising = k.raising := by rw [Core.retire_only]
@[simp] theorem Core.retire_frame (k : Core) (st : StreamId) (y : Sync) : (k.retire st y).frame = k.frame := by rw [Core.retire_only]
@[simp] theorem Core.retire_savedC (k : Core) (st : StreamId) (y : Sync) : (k.retire st y).savedC = k.savedC := by rw [Core.retire_only]
@[simp] theorem Core.retire_stopped (k : Core) (st : StreamId) (y : Sync) : (k.retire st y).stopped = k.stopped := by rw [Core.retire_only]
@[simp] theorem Core.retire_stage (k : Core) (st : StreamId) (y : Sync) : (k.retire st y).stage = k.stage := by rw [Core.retire_only]
@[simp] theorem Core.retire_moveTo (k : Core) (st : StreamId) (y : Sync) : (k.retire st y).moveTo = k.moveTo := by rw [Core.retire_only]
@[simp] theorem Core.retire_preempt (k : Core) (st : StreamId) (y : Sync) : (k.retire st y).preempt = k.preempt := by rw [Core.retire_only]
@[simp] theorem Core.retire_saved (k : Core) (st : StreamId) (y : Sync) : (k.retire st y).saved = k.saved := by rw [Core.retire_only]
@[simp] theorem Core.retire_rbuf (k : Core) (st : StreamId) (y : Sync) : (k.retire st y).rbuf = k.rbuf := by rw [Core.retire_only]
@[simp] theorem Core.retire_rfault (k : Core) (st : StreamId) (y : Sync) : (k.retire st y).rfault = k.rfault := by rw [Core.retire_only]
@[simp] theorem Core.retire_lostPeers (k : Core) (st : StreamId) (y : Sync) : (k.retire st y).lostPeers = k.lostPeers := by rw [Core.retire_only]

/-! Core.issue: what it may change. -/

theorem Core.issue_only (k : Core) (m : CM) (len : Nat) : k.issue m len = { k with streams := (k.issue m len).streams, fifo := (k.issue m len).fifo, issued := (k.issue m len).issued } := by
  unfold Core.issue
  rw [Core.takePop_only]; rfl
@[simp] theorem Core.issue_g (k : Core) (m : CM) (len : Nat) : (k.issue m len).g = k.g := by rw [Core.issue_only]
@[simp] theorem Core.issue_b (k : Core) (m : CM) (len : Nat) : (k.issue m len).b = k.b := by rw [Core.issue_only]
@[simp] theorem Core.issue_d (k : Core) (m : CM) (len : Nat) : (k.issue m len).d = k.d := by rw [Core.issue_only]
@[simp] theorem Core.issue_p (k : Core) (m : CM) (len : Nat) : (k.issue m len).p = k.p := by rw [Core.issue_only]
@[simp] theorem Core.issue_v (k : Core) (m : CM) (len : Nat) : (k.issue m len).v = k.v := by rw [Core.issue_only]
@[simp] theorem Core.issue_h (k : Core) (m : CM) (len : Nat) : (k.issue m len).h = k.h := by rw [Core.issue_only]
@[simp] theorem Core.issue_q (k : Core) (m : CM) (len : Nat) : (k.issue m len).q = k.q := by rw [Core.issue_only]
@[simp] theorem Core.issue_w (k : Core) (m : CM) (len : Nat) : (k.issue m len).w = k.w := by rw [Core.issue_only]
@[simp] theorem Core.issue_z (k : Core) (m : CM) (len : Nat) : (k.issue m len).z = k.z := by rw [Core.issue_only]
@[simp] theorem Core.issue_k (k : Core) (m : CM) (len : Nat) : (k.issue m len).k = k.k := by rw [Core.issue_only]
@[simp] theorem Core.issue_cb (k : Core) (m : CM) (len : Nat) : (k.issue m len).cb = k.cb := by rw [Core.issue_only]
@[simp] theorem Core.issue_cc (k : Core) (m : CM) (len : Nat) : (k.issue m len).cc = k.cc := by rw [Core.issue_only]
@[simp] theorem Core.issue_sr (k : Core) (m : CM) (len : Nat) : (k.issue m len).sr = k.sr := by rw [Core.issue_only]
@[simp] theorem Core.issue_inflight (k : Core) (m : CM) (len : Nat) : (k.issue m len).inflight = k.inflight := by rw [Core.issue_only]
@[simp] theorem Core.issue_block (k : Core) (m : CM) (len : Nat) : (k.issue m len).block = k.block := by rw [Core.issue_only]
@[simp] theorem Core.issue_pbrSeq (k : Core) (m : CM) (len : Nat) : (k.issue m len).pbrSeq = k.pbrSeq := by rw [Core.issue_only]
@[simp] theorem Core.issue_stall (k : Core) (m : CM) (len : Nat) : (k.issue m len).stall = k.stall := by rw [Core.issue_only]
@[simp] theorem Core.issue_rank (k : Core) (m : CM) (len : Nat) : (k.issue m len).rank = k.rank := by rw [Core.issue_only]
@[simp] theorem Core.issue_limit (k : Core) (m : CM) (len : Nat) : (k.issue m len).limit = k.limit := by rw [Core.issue_only]
@[simp] theorem Core.issue_dcache (k : Core) (m : CM) (len : Nat) : (k.issue m len).dcache = k.dcache := by rw [Core.issue_only]
@[simp] theorem Core.issue_tlb (k : Core) (m : CM) (len : Nat) : (k.issue m len).tlb = k.tlb := by rw [Core.issue_only]
@[simp] theorem Core.issue_wcfg (k : Core) (m : CM) (len : Nat) : (k.issue m len).wcfg = k.wcfg := by rw [Core.issue_only]
@[simp] theorem Core.issue_row0 (k : Core) (m : CM) (len : Nat) : (k.issue m len).row0 = k.row0 := by rw [Core.issue_only]
@[simp] theorem Core.issue_flow (k : Core) (m : CM) (len : Nat) : (k.issue m len).flow = k.flow := by rw [Core.issue_only]
@[simp] theorem Core.issue_planeLoad (k : Core) (m : CM) (len : Nat) : (k.issue m len).planeLoad = k.planeLoad := by rw [Core.issue_only]
@[simp] theorem Core.issue_leaseLeft (k : Core) (m : CM) (len : Nat) : (k.issue m len).leaseLeft = k.leaseLeft := by rw [Core.issue_only]
@[simp] theorem Core.issue_wantLease (k : Core) (m : CM) (len : Nat) : (k.issue m len).wantLease = k.wantLease := by rw [Core.issue_only]
@[simp] theorem Core.issue_banks (k : Core) (m : CM) (len : Nat) : (k.issue m len).banks = k.banks := by rw [Core.issue_only]
@[simp] theorem Core.issue_landing (k : Core) (m : CM) (len : Nat) : (k.issue m len).landing = k.landing := by rw [Core.issue_only]
@[simp] theorem Core.issue_version (k : Core) (m : CM) (len : Nat) : (k.issue m len).version = k.version := by rw [Core.issue_only]
@[simp] theorem Core.issue_phaseArrived (k : Core) (m : CM) (len : Nat) : (k.issue m len).phaseArrived = k.phaseArrived := by rw [Core.issue_only]
@[simp] theorem Core.issue_op (k : Core) (m : CM) (len : Nat) : (k.issue m len).op = k.op := by rw [Core.issue_only]
@[simp] theorem Core.issue_shadow (k : Core) (m : CM) (len : Nat) : (k.issue m len).shadow = k.shadow := by rw [Core.issue_only]
@[simp] theorem Core.issue_splice (k : Core) (m : CM) (len : Nat) : (k.issue m len).splice = k.splice := by rw [Core.issue_only]
@[simp] theorem Core.issue_raising (k : Core) (m : CM) (len : Nat) : (k.issue m len).raising = k.raising := by rw [Core.issue_only]
@[simp] theorem Core.issue_frame (k : Core) (m : CM) (len : Nat) : (k.issue m len).frame = k.frame := by rw [Core.issue_only]
@[simp] theorem Core.issue_savedC (k : Core) (m : CM) (len : Nat) : (k.issue m len).savedC = k.savedC := by rw [Core.issue_only]
@[simp] theorem Core.issue_stopped (k : Core) (m : CM) (len : Nat) : (k.issue m len).stopped = k.stopped := by rw [Core.issue_only]
@[simp] theorem Core.issue_stage (k : Core) (m : CM) (len : Nat) : (k.issue m len).stage = k.stage := by rw [Core.issue_only]
@[simp] theorem Core.issue_moveTo (k : Core) (m : CM) (len : Nat) : (k.issue m len).moveTo = k.moveTo := by rw [Core.issue_only]
@[simp] theorem Core.issue_preempt (k : Core) (m : CM) (len : Nat) : (k.issue m len).preempt = k.preempt := by rw [Core.issue_only]
@[simp] theorem Core.issue_saved (k : Core) (m : CM) (len : Nat) : (k.issue m len).saved = k.saved := by rw [Core.issue_only]
@[simp] theorem Core.issue_rbuf (k : Core) (m : CM) (len : Nat) : (k.issue m len).rbuf = k.rbuf := by rw [Core.issue_only]
@[simp] theorem Core.issue_rfault (k : Core) (m : CM) (len : Nat) : (k.issue m len).rfault = k.rfault := by rw [Core.issue_only]
@[simp] theorem Core.issue_lostPeers (k : Core) (m : CM) (len : Nat) : (k.issue m len).lostPeers = k.lostPeers := by rw [Core.issue_only]

/-! Core.writeG: what it may change. -/

theorem Core.writeG_only (k : Core) (n : BitVec 5) (x : Dword) : k.writeG n x = { k with g := (k.writeG n x).g, inflight := (k.writeG n x).inflight } := by
  unfold Core.writeG
  rw [Core.putG_only]
@[simp] theorem Core.writeG_b (k : Core) (n : BitVec 5) (x : Dword) : (k.writeG n x).b = k.b := by rw [Core.writeG_only]
@[simp] theorem Core.writeG_d (k : Core) (n : BitVec 5) (x : Dword) : (k.writeG n x).d = k.d := by rw [Core.writeG_only]
@[simp] theorem Core.writeG_p (k : Core) (n : BitVec 5) (x : Dword) : (k.writeG n x).p = k.p := by rw [Core.writeG_only]
@[simp] theorem Core.writeG_v (k : Core) (n : BitVec 5) (x : Dword) : (k.writeG n x).v = k.v := by rw [Core.writeG_only]
@[simp] theorem Core.writeG_h (k : Core) (n : BitVec 5) (x : Dword) : (k.writeG n x).h = k.h := by rw [Core.writeG_only]
@[simp] theorem Core.writeG_q (k : Core) (n : BitVec 5) (x : Dword) : (k.writeG n x).q = k.q := by rw [Core.writeG_only]
@[simp] theorem Core.writeG_w (k : Core) (n : BitVec 5) (x : Dword) : (k.writeG n x).w = k.w := by rw [Core.writeG_only]
@[simp] theorem Core.writeG_z (k : Core) (n : BitVec 5) (x : Dword) : (k.writeG n x).z = k.z := by rw [Core.writeG_only]
@[simp] theorem Core.writeG_k (k : Core) (n : BitVec 5) (x : Dword) : (k.writeG n x).k = k.k := by rw [Core.writeG_only]
@[simp] theorem Core.writeG_cb (k : Core) (n : BitVec 5) (x : Dword) : (k.writeG n x).cb = k.cb := by rw [Core.writeG_only]
@[simp] theorem Core.writeG_cc (k : Core) (n : BitVec 5) (x : Dword) : (k.writeG n x).cc = k.cc := by rw [Core.writeG_only]
@[simp] theorem Core.writeG_fifo (k : Core) (n : BitVec 5) (x : Dword) : (k.writeG n x).fifo = k.fifo := by rw [Core.writeG_only]
@[simp] theorem Core.writeG_sr (k : Core) (n : BitVec 5) (x : Dword) : (k.writeG n x).sr = k.sr := by rw [Core.writeG_only]
@[simp] theorem Core.writeG_streams (k : Core) (n : BitVec 5) (x : Dword) : (k.writeG n x).streams = k.streams := by rw [Core.writeG_only]
@[simp] theorem Core.writeG_block (k : Core) (n : BitVec 5) (x : Dword) : (k.writeG n x).block = k.block := by rw [Core.writeG_only]
@[simp] theorem Core.writeG_issued (k : Core) (n : BitVec 5) (x : Dword) : (k.writeG n x).issued = k.issued := by rw [Core.writeG_only]
@[simp] theorem Core.writeG_pbrSeq (k : Core) (n : BitVec 5) (x : Dword) : (k.writeG n x).pbrSeq = k.pbrSeq := by rw [Core.writeG_only]
@[simp] theorem Core.writeG_stall (k : Core) (n : BitVec 5) (x : Dword) : (k.writeG n x).stall = k.stall := by rw [Core.writeG_only]
@[simp] theorem Core.writeG_rank (k : Core) (n : BitVec 5) (x : Dword) : (k.writeG n x).rank = k.rank := by rw [Core.writeG_only]
@[simp] theorem Core.writeG_limit (k : Core) (n : BitVec 5) (x : Dword) : (k.writeG n x).limit = k.limit := by rw [Core.writeG_only]
@[simp] theorem Core.writeG_dcache (k : Core) (n : BitVec 5) (x : Dword) : (k.writeG n x).dcache = k.dcache := by rw [Core.writeG_only]
@[simp] theorem Core.writeG_tlb (k : Core) (n : BitVec 5) (x : Dword) : (k.writeG n x).tlb = k.tlb := by rw [Core.writeG_only]
@[simp] theorem Core.writeG_wcfg (k : Core) (n : BitVec 5) (x : Dword) : (k.writeG n x).wcfg = k.wcfg := by rw [Core.writeG_only]
@[simp] theorem Core.writeG_row0 (k : Core) (n : BitVec 5) (x : Dword) : (k.writeG n x).row0 = k.row0 := by rw [Core.writeG_only]
@[simp] theorem Core.writeG_flow (k : Core) (n : BitVec 5) (x : Dword) : (k.writeG n x).flow = k.flow := by rw [Core.writeG_only]
@[simp] theorem Core.writeG_planeLoad (k : Core) (n : BitVec 5) (x : Dword) : (k.writeG n x).planeLoad = k.planeLoad := by rw [Core.writeG_only]
@[simp] theorem Core.writeG_leaseLeft (k : Core) (n : BitVec 5) (x : Dword) : (k.writeG n x).leaseLeft = k.leaseLeft := by rw [Core.writeG_only]
@[simp] theorem Core.writeG_wantLease (k : Core) (n : BitVec 5) (x : Dword) : (k.writeG n x).wantLease = k.wantLease := by rw [Core.writeG_only]
@[simp] theorem Core.writeG_banks (k : Core) (n : BitVec 5) (x : Dword) : (k.writeG n x).banks = k.banks := by rw [Core.writeG_only]
@[simp] theorem Core.writeG_landing (k : Core) (n : BitVec 5) (x : Dword) : (k.writeG n x).landing = k.landing := by rw [Core.writeG_only]
@[simp] theorem Core.writeG_version (k : Core) (n : BitVec 5) (x : Dword) : (k.writeG n x).version = k.version := by rw [Core.writeG_only]
@[simp] theorem Core.writeG_phaseArrived (k : Core) (n : BitVec 5) (x : Dword) : (k.writeG n x).phaseArrived = k.phaseArrived := by rw [Core.writeG_only]
@[simp] theorem Core.writeG_op (k : Core) (n : BitVec 5) (x : Dword) : (k.writeG n x).op = k.op := by rw [Core.writeG_only]
@[simp] theorem Core.writeG_shadow (k : Core) (n : BitVec 5) (x : Dword) : (k.writeG n x).shadow = k.shadow := by rw [Core.writeG_only]
@[simp] theorem Core.writeG_splice (k : Core) (n : BitVec 5) (x : Dword) : (k.writeG n x).splice = k.splice := by rw [Core.writeG_only]
@[simp] theorem Core.writeG_raising (k : Core) (n : BitVec 5) (x : Dword) : (k.writeG n x).raising = k.raising := by rw [Core.writeG_only]
@[simp] theorem Core.writeG_frame (k : Core) (n : BitVec 5) (x : Dword) : (k.writeG n x).frame = k.frame := by rw [Core.writeG_only]
@[simp] theorem Core.writeG_savedC (k : Core) (n : BitVec 5) (x : Dword) : (k.writeG n x).savedC = k.savedC := by rw [Core.writeG_only]
@[simp] theorem Core.writeG_stopped (k : Core) (n : BitVec 5) (x : Dword) : (k.writeG n x).stopped = k.stopped := by rw [Core.writeG_only]
@[simp] theorem Core.writeG_stage (k : Core) (n : BitVec 5) (x : Dword) : (k.writeG n x).stage = k.stage := by rw [Core.writeG_only]
@[simp] theorem Core.writeG_moveTo (k : Core) (n : BitVec 5) (x : Dword) : (k.writeG n x).moveTo = k.moveTo := by rw [Core.writeG_only]
@[simp] theorem Core.writeG_preempt (k : Core) (n : BitVec 5) (x : Dword) : (k.writeG n x).preempt = k.preempt := by rw [Core.writeG_only]
@[simp] theorem Core.writeG_saved (k : Core) (n : BitVec 5) (x : Dword) : (k.writeG n x).saved = k.saved := by rw [Core.writeG_only]
@[simp] theorem Core.writeG_rbuf (k : Core) (n : BitVec 5) (x : Dword) : (k.writeG n x).rbuf = k.rbuf := by rw [Core.writeG_only]
@[simp] theorem Core.writeG_rfault (k : Core) (n : BitVec 5) (x : Dword) : (k.writeG n x).rfault = k.rfault := by rw [Core.writeG_only]
@[simp] theorem Core.writeG_lostPeers (k : Core) (n : BitVec 5) (x : Dword) : (k.writeG n x).lostPeers = k.lostPeers := by rw [Core.writeG_only]

end Sys2Proof.Machine
end

