-- ==== Sys2Proof/Laws/Control.lean ====
section
/-! SUPPORT. What the shared operations of control issue can do: `ctl`, `ctlFlight`, the cores they leave, and the registers
that a delivered result changes. -/

namespace Sys2Proof.Machine

/-! Registers of a core. -/

@[simp] theorem Core.readG_zero (k : Core) : k.readG 0 = 0 := rfl

theorem Core.readG_putG_self (k : Core) (n : BitVec 5) (x : Dword) (h : n ≠ 0) : (k.putG n x).readG n = x := by
  have hn : n.toNat < 32 := n.isLt
  simp only [Core.readG, Core.putG, if_neg h, vget_vset_self _ _ _ _ hn]

theorem Core.readG_putG_ne (k : Core) (n r : BitVec 5) (x : Dword) (h : r ≠ n) : (k.putG n x).readG r = k.readG r := by
  have : r.toNat ≠ n.toNat := fun e => h (BitVec.eq_of_toNat_eq e)
  by_cases hn : n = 0
  · simp only [Core.putG, if_pos hn]
  · simp only [Core.readG, Core.putG, if_neg hn, vget_vset_ne _ _ _ _ _ this]

/-! Token pops. -/

theorem streamNum_lt (st : StreamId) : streamNum st < 5 := by cases st <;> decide

theorem popFifo_lt (st : StreamId) (y : Sync) : popFifo st y < 20 := by
  unfold popFifo fifoNumber relStream
  have := streamNum_lt st
  have := y.psrc.isLt
  split <;> split <;> omega

theorem Core.tokens_takePop (k : Core) (st : StreamId) (y : Sync) (f : Nat) (h : k.popReady st y = true) :
    (k.takePop st y).tokens f = k.tokens f - if y.pop ∧ f = popFifo st y then 1 else 0 := by
  cases hp : y.pop with
  | false => simp [Core.takePop, hp]
  | true =>
    by_cases hf : f = popFifo st y
    · have h20 := popFifo_lt st y
      have hpos : 0 < k.tokens (popFifo st y) := by simpa [Core.popReady, hp] using h
      subst hf
      simp only [Core.takePop, hp, Core.tokens, if_true, true_and, vget_vmod_self _ _ _ _ h20]
      simp only [Core.tokens] at hpos
      have h1 : (1 : BitVec 4) ≤ vget k.fifo (popFifo st y) 0 := by rw [BitVec.le_def]; exact hpos
      rw [BitVec.toNat_sub_of_le h1]
      rfl
    · simp [Core.takePop, hp, hf, Core.tokens, vget_vmod_ne _ _ _ _ _ hf]

/-! Streams other than the one that issues. -/

theorem streamNum_inj {a b : StreamId} (h : streamNum a = streamNum b) : a = b := by
  cases a <;> cases b <;> first | rfl | (exact absurd h (by decide))

theorem Core.stream_modStream_ne (k : Core) (st t : StreamId) (f : Stream → Stream) (h : t ≠ st) :
    (k.modStream st f).stream t = k.stream t := by
  have : streamNum t ≠ streamNum st := fun e => h (streamNum_inj e)
  simp [Core.modStream, Core.stream, this]

theorem Core.stream_settle_ne (k : Core) (st t : StreamId) (h : t ≠ st) : (k.settle st).stream t = k.stream t := by
  unfold Core.settle
  split
  · exact Core.stream_modStream_ne _ _ _ _ h
  · rfl

theorem Core.stream_retire_ne (k : Core) (st t : StreamId) (y : Sync) (h : t ≠ st) :
    (k.retire st y).stream t = k.stream t := by
  unfold Core.retire
  rw [Core.stream_settle_ne _ _ _ h]
  split
  · exact Core.stream_modStream_ne _ _ _ _ h
  · rfl

/-! The shared issues. -/

/-- A control instruction of one cycle that may issue answers the core that `f` makes of the issued one, retired. -/
theorem ctl_next (m : CM) (regs : List (BitVec 5)) (s : State) (f : Core → Core)
    (h : (coreAt s s.cur.core.val).canIssue m regs = true) :
    ctl m regs s f = .next (setCore s s.cur.core.val
      ((f ((coreAt s s.cur.core.val).issue m s.cur.len)).retire .c m.sync)) := by
  simp [ctl, h]

/-- A control instruction that may not issue waits. -/
theorem ctl_waits (m : CM) (regs : List (BitVec 5)) (s : State) (f : Core → Core)
    (h : (coreAt s s.cur.core.val).canIssue m regs = false) : ctl m regs s f = .next s := by
  simp [ctl, h]

/-- A control instruction with a result in flight that may issue. -/
theorem ctlFlight_next (m : CM) (regs : List (BitVec 5)) (s : State) (d : Dest) (v : Core → Dword) (n : Nat)
    (h : (coreAt s s.cur.core.val).canIssue m regs = true) :
    let k := coreAt s s.cur.core.val
    ctlFlight m regs s d v n = .next (setCore s s.cur.core.val { k.issue m s.cur.len with
      inflight := k.inflight ++ [⟨d, v k, .cycles n, m.q, m.sync, (k.stream .c).here, none, (8, false)⟩] }) := by
  simp [ctlFlight, h]

end Sys2Proof.Machine
end

