-- ==== Sys2Proof/Laws/Dispatch.lean ====
section
/-! SUPPORT. The meaning of each constructor of Instr, as a rewrite rule: the dispatch itself need never be unfolded. -/

namespace Sys2Proof.Machine

variable (s : State)

theorem exec_nop (m : CM) : exec (.nop m) s = execNop m s := rfl
theorem exec_add (m : CM) (a : BitVec 5) (b : BitVec 5) (c : BitVec 5) : exec (.add m a b c) s = execAdd m a b c s := rfl
theorem exec_addI (m : CM) (a : BitVec 5) (b : BitVec 5) (imm : BitVec 32) : exec (.addI m a b imm) s = execAddI m a b imm s := rfl
theorem exec_sub (m : CM) (a : BitVec 5) (b : BitVec 5) (c : BitVec 5) : exec (.sub m a b c) s = execSub m a b c s := rfl
theorem exec_subI (m : CM) (a : BitVec 5) (b : BitVec 5) (imm : BitVec 32) : exec (.subI m a b imm) s = execSubI m a b imm s := rfl
theorem exec_andG (m : CM) (a : BitVec 5) (b : BitVec 5) (c : BitVec 5) : exec (.andG m a b c) s = execAndG m a b c s := rfl
theorem exec_andGI (m : CM) (a : BitVec 5) (b : BitVec 5) (imm : BitVec 32) : exec (.andGI m a b imm) s = execAndGI m a b imm s := rfl
theorem exec_orG (m : CM) (a : BitVec 5) (b : BitVec 5) (c : BitVec 5) : exec (.orG m a b c) s = execOrG m a b c s := rfl
theorem exec_orGI (m : CM) (a : BitVec 5) (b : BitVec 5) (imm : BitVec 32) : exec (.orGI m a b imm) s = execOrGI m a b imm s := rfl
theorem exec_xorG (m : CM) (a : BitVec 5) (b : BitVec 5) (c : BitVec 5) : exec (.xorG m a b c) s = execXorG m a b c s := rfl
theorem exec_xorGI (m : CM) (a : BitVec 5) (b : BitVec 5) (imm : BitVec 32) : exec (.xorGI m a b imm) s = execXorGI m a b imm s := rfl
theorem exec_andn (m : CM) (a : BitVec 5) (b : BitVec 5) (c : BitVec 5) : exec (.andn m a b c) s = execAndn m a b c s := rfl
theorem exec_andnI (m : CM) (a : BitVec 5) (b : BitVec 5) (imm : BitVec 32) : exec (.andnI m a b imm) s = execAndnI m a b imm s := rfl
theorem exec_shl (m : CM) (a : BitVec 5) (b : BitVec 5) (c : BitVec 5) : exec (.shl m a b c) s = execShl m a b c s := rfl
theorem exec_shlI (m : CM) (a : BitVec 5) (b : BitVec 5) (imm : BitVec 32) : exec (.shlI m a b imm) s = execShlI m a b imm s := rfl
theorem exec_shr (m : CM) (a : BitVec 5) (b : BitVec 5) (c : BitVec 5) : exec (.shr m a b c) s = execShr m a b c s := rfl
theorem exec_shrI (m : CM) (a : BitVec 5) (b : BitVec 5) (imm : BitVec 32) : exec (.shrI m a b imm) s = execShrI m a b imm s := rfl
theorem exec_sra (m : CM) (a : BitVec 5) (b : BitVec 5) (c : BitVec 5) : exec (.sra m a b c) s = execSra m a b c s := rfl
theorem exec_sraI (m : CM) (a : BitVec 5) (b : BitVec 5) (imm : BitVec 32) : exec (.sraI m a b imm) s = execSraI m a b imm s := rfl
theorem exec_rol (m : CM) (a : BitVec 5) (b : BitVec 5) (c : BitVec 5) : exec (.rol m a b c) s = execRol m a b c s := rfl
theorem exec_rolI (m : CM) (a : BitVec 5) (b : BitVec 5) (imm : BitVec 32) : exec (.rolI m a b imm) s = execRolI m a b imm s := rfl
theorem exec_mul (m : CM) (a : BitVec 5) (b : BitVec 5) (c : BitVec 5) : exec (.mul m a b c) s = execMul m a b c s := rfl
theorem exec_mulI (m : CM) (a : BitVec 5) (b : BitVec 5) (imm : BitVec 32) : exec (.mulI m a b imm) s = execMulI m a b imm s := rfl
theorem exec_mulh (m : CM) (a : BitVec 5) (b : BitVec 5) (c : BitVec 5) : exec (.mulh m a b c) s = execMulh m a b c s := rfl
theorem exec_mulhu (m : CM) (a : BitVec 5) (b : BitVec 5) (c : BitVec 5) : exec (.mulhu m a b c) s = execMulhu m a b c s := rfl
theorem exec_div (m : CM) (a : BitVec 5) (b : BitVec 5) (c : BitVec 5) : exec (.div m a b c) s = execDiv m a b c s := rfl
theorem exec_divu (m : CM) (a : BitVec 5) (b : BitVec 5) (c : BitVec 5) : exec (.divu m a b c) s = execDivu m a b c s := rfl
theorem exec_rem (m : CM) (a : BitVec 5) (b : BitVec 5) (c : BitVec 5) : exec (.rem m a b c) s = execRem m a b c s := rfl
theorem exec_remu (m : CM) (a : BitVec 5) (b : BitVec 5) (c : BitVec 5) : exec (.remu m a b c) s = execRemu m a b c s := rfl
theorem exec_min (m : CM) (a : BitVec 5) (b : BitVec 5) (c : BitVec 5) : exec (.min m a b c) s = execMin m a b c s := rfl
theorem exec_minI (m : CM) (a : BitVec 5) (b : BitVec 5) (imm : BitVec 32) : exec (.minI m a b imm) s = execMinI m a b imm s := rfl
theorem exec_max (m : CM) (a : BitVec 5) (b : BitVec 5) (c : BitVec 5) : exec (.max m a b c) s = execMax m a b c s := rfl
theorem exec_maxI (m : CM) (a : BitVec 5) (b : BitVec 5) (imm : BitVec 32) : exec (.maxI m a b imm) s = execMaxI m a b imm s := rfl
theorem exec_minu (m : CM) (a : BitVec 5) (b : BitVec 5) (c : BitVec 5) : exec (.minu m a b c) s = execMinu m a b c s := rfl
theorem exec_minuI (m : CM) (a : BitVec 5) (b : BitVec 5) (imm : BitVec 32) : exec (.minuI m a b imm) s = execMinuI m a b imm s := rfl
theorem exec_maxu (m : CM) (a : BitVec 5) (b : BitVec 5) (c : BitVec 5) : exec (.maxu m a b c) s = execMaxu m a b c s := rfl
theorem exec_maxuI (m : CM) (a : BitVec 5) (b : BitVec 5) (imm : BitVec 32) : exec (.maxuI m a b imm) s = execMaxuI m a b imm s := rfl
theorem exec_clz (m : CM) (a : BitVec 5) (b : BitVec 5) : exec (.clz m a b) s = execClz m a b s := rfl
theorem exec_popc (m : CM) (a : BitVec 5) (b : BitVec 5) : exec (.popc m a b) s = execPopc m a b s := rfl
theorem exec_sext (m : CM) (a : BitVec 5) (b : BitVec 5) (w : BitVec 2) : exec (.sext m a b w) s = execSext m a b w s := rfl
theorem exec_zext (m : CM) (a : BitVec 5) (b : BitVec 5) (w : BitVec 2) : exec (.zext m a b w) s = execZext m a b w s := rfl
theorem exec_cmpeq (m : CM) (a : BitVec 5) (b : BitVec 5) (c : BitVec 5) : exec (.cmpeq m a b c) s = execCmpeq m a b c s := rfl
theorem exec_cmpeqI (m : CM) (a : BitVec 5) (b : BitVec 5) (imm : BitVec 32) : exec (.cmpeqI m a b imm) s = execCmpeqI m a b imm s := rfl
theorem exec_cmplt (m : CM) (a : BitVec 5) (b : BitVec 5) (c : BitVec 5) : exec (.cmplt m a b c) s = execCmplt m a b c s := rfl
theorem exec_cmpltI (m : CM) (a : BitVec 5) (b : BitVec 5) (imm : BitVec 32) : exec (.cmpltI m a b imm) s = execCmpltI m a b imm s := rfl
theorem exec_cmpltu (m : CM) (a : BitVec 5) (b : BitVec 5) (c : BitVec 5) : exec (.cmpltu m a b c) s = execCmpltu m a b c s := rfl
theorem exec_cmpltuI (m : CM) (a : BitVec 5) (b : BitVec 5) (imm : BitVec 32) : exec (.cmpltuI m a b imm) s = execCmpltuI m a b imm s := rfl
theorem exec_sel (m : CM) (a : BitVec 5) (b : BitVec 5) (c : BitVec 5) : exec (.sel m a b c) s = execSel m a b c s := rfl
theorem exec_li (m : CM) (a : BitVec 5) (imm : BitVec 32) : exec (.li m a imm) s = execLi m a imm s := rfl
theorem exec_liWide (m : CM) (a : BitVec 5) (lo : BitVec 32) (hi : BitVec 32) : exec (.liWide m a lo hi) s = execLiWide m a lo hi s := rfl
theorem exec_lih (m : CM) (a : BitVec 5) (imm : BitVec 32) : exec (.lih m a imm) s = execLih m a imm s := rfl
theorem exec_lea (m : CM) (a : BitVec 5) (b : BitVec 5) (c : BitVec 5) (sh : BitVec 3) (disp : BitVec 29) : exec (.lea m a b c sh disp) s = execLea m a b c sh disp s := rfl
theorem exec_dset (m : CM) (d : BitVec 4) (b : BitVec 5) (qtr : BitVec 2) : exec (.dset m d b qtr) s = execDset m d b qtr s := rfl
theorem exec_ld8 (m : CM) (a : BitVec 5) (b : BitVec 5) : exec (.ld8 m a b) s = execLd8 m a b s := rfl
theorem exec_ld8Disp (m : CM) (a : BitVec 5) (b : BitVec 5) (disp : BitVec 32) : exec (.ld8Disp m a b disp) s = execLd8Disp m a b disp s := rfl
theorem exec_ld8s (m : CM) (a : BitVec 5) (b : BitVec 5) : exec (.ld8s m a b) s = execLd8s m a b s := rfl
theorem exec_ld8sDisp (m : CM) (a : BitVec 5) (b : BitVec 5) (disp : BitVec 32) : exec (.ld8sDisp m a b disp) s = execLd8sDisp m a b disp s := rfl
theorem exec_ld16 (m : CM) (a : BitVec 5) (b : BitVec 5) : exec (.ld16 m a b) s = execLd16 m a b s := rfl
theorem exec_ld16Disp (m : CM) (a : BitVec 5) (b : BitVec 5) (disp : BitVec 32) : exec (.ld16Disp m a b disp) s = execLd16Disp m a b disp s := rfl
theorem exec_ld16s (m : CM) (a : BitVec 5) (b : BitVec 5) : exec (.ld16s m a b) s = execLd16s m a b s := rfl
theorem exec_ld16sDisp (m : CM) (a : BitVec 5) (b : BitVec 5) (disp : BitVec 32) : exec (.ld16sDisp m a b disp) s = execLd16sDisp m a b disp s := rfl
theorem exec_ld32 (m : CM) (a : BitVec 5) (b : BitVec 5) : exec (.ld32 m a b) s = execLd32 m a b s := rfl
theorem exec_ld32Disp (m : CM) (a : BitVec 5) (b : BitVec 5) (disp : BitVec 32) : exec (.ld32Disp m a b disp) s = execLd32Disp m a b disp s := rfl
theorem exec_ld32s (m : CM) (a : BitVec 5) (b : BitVec 5) : exec (.ld32s m a b) s = execLd32s m a b s := rfl
theorem exec_ld32sDisp (m : CM) (a : BitVec 5) (b : BitVec 5) (disp : BitVec 32) : exec (.ld32sDisp m a b disp) s = execLd32sDisp m a b disp s := rfl
theorem exec_ld64 (m : CM) (a : BitVec 5) (b : BitVec 5) : exec (.ld64 m a b) s = execLd64 m a b s := rfl
theorem exec_ld64Disp (m : CM) (a : BitVec 5) (b : BitVec 5) (disp : BitVec 32) : exec (.ld64Disp m a b disp) s = execLd64Disp m a b disp s := rfl
theorem exec_pref (m : CM) (b : BitVec 5) : exec (.pref m b) s = execPref m b s := rfl
theorem exec_prefDisp (m : CM) (b : BitVec 5) (disp : BitVec 32) : exec (.prefDisp m b disp) s = execPrefDisp m b disp s := rfl
theorem exec_st8 (m : CM) (b : BitVec 5) (c : BitVec 5) : exec (.st8 m b c) s = execSt8 m b c s := rfl
theorem exec_st8Disp (m : CM) (b : BitVec 5) (c : BitVec 5) (disp : BitVec 32) : exec (.st8Disp m b c disp) s = execSt8Disp m b c disp s := rfl
theorem exec_st16 (m : CM) (b : BitVec 5) (c : BitVec 5) : exec (.st16 m b c) s = execSt16 m b c s := rfl
theorem exec_st16Disp (m : CM) (b : BitVec 5) (c : BitVec 5) (disp : BitVec 32) : exec (.st16Disp m b c disp) s = execSt16Disp m b c disp s := rfl
theorem exec_st32 (m : CM) (b : BitVec 5) (c : BitVec 5) : exec (.st32 m b c) s = execSt32 m b c s := rfl
theorem exec_st32Disp (m : CM) (b : BitVec 5) (c : BitVec 5) (disp : BitVec 32) : exec (.st32Disp m b c disp) s = execSt32Disp m b c disp s := rfl
theorem exec_st64 (m : CM) (b : BitVec 5) (c : BitVec 5) : exec (.st64 m b c) s = execSt64 m b c s := rfl
theorem exec_st64Disp (m : CM) (b : BitVec 5) (c : BitVec 5) (disp : BitVec 32) : exec (.st64Disp m b c disp) s = execSt64Disp m b c disp s := rfl
theorem exec_aadd (m : CM) (a : BitVec 5) (b : BitVec 5) (c : BitVec 5) (disp : BitVec 24) (scope : BitVec 3) : exec (.aadd m a b c disp scope) s = execAadd m a b c disp scope s := rfl
theorem exec_aand (m : CM) (a : BitVec 5) (b : BitVec 5) (c : BitVec 5) (disp : BitVec 24) (scope : BitVec 3) : exec (.aand m a b c disp scope) s = execAand m a b c disp scope s := rfl
theorem exec_aor (m : CM) (a : BitVec 5) (b : BitVec 5) (c : BitVec 5) (disp : BitVec 24) (scope : BitVec 3) : exec (.aor m a b c disp scope) s = execAor m a b c disp scope s := rfl
theorem exec_axor (m : CM) (a : BitVec 5) (b : BitVec 5) (c : BitVec 5) (disp : BitVec 24) (scope : BitVec 3) : exec (.axor m a b c disp scope) s = execAxor m a b c disp scope s := rfl
theorem exec_amin (m : CM) (a : BitVec 5) (b : BitVec 5) (c : BitVec 5) (disp : BitVec 24) (scope : BitVec 3) : exec (.amin m a b c disp scope) s = execAmin m a b c disp scope s := rfl
theorem exec_amax (m : CM) (a : BitVec 5) (b : BitVec 5) (c : BitVec 5) (disp : BitVec 24) (scope : BitVec 3) : exec (.amax m a b c disp scope) s = execAmax m a b c disp scope s := rfl
theorem exec_aminu (m : CM) (a : BitVec 5) (b : BitVec 5) (c : BitVec 5) (disp : BitVec 24) (scope : BitVec 3) : exec (.aminu m a b c disp scope) s = execAminu m a b c disp scope s := rfl
theorem exec_amaxu (m : CM) (a : BitVec 5) (b : BitVec 5) (c : BitVec 5) (disp : BitVec 24) (scope : BitVec 3) : exec (.amaxu m a b c disp scope) s = execAmaxu m a b c disp scope s := rfl
theorem exec_aswap (m : CM) (a : BitVec 5) (b : BitVec 5) (c : BitVec 5) (disp : BitVec 24) (scope : BitVec 3) : exec (.aswap m a b c disp scope) s = execAswap m a b c disp scope s := rfl
theorem exec_acas (m : CM) (a : BitVec 5) (b : BitVec 5) (c : BitVec 5) (disp : BitVec 24) (scope : BitVec 3) : exec (.acas m a b c disp scope) s = execAcas m a b c disp scope s := rfl
theorem exec_fence (m : CM) (scope : BitVec 3) : exec (.fence m scope) s = execFence m scope s := rfl
theorem exec_fenceComplete : exec (.fenceComplete) s = execFenceComplete s := rfl
theorem exec_xfence (m : CM) (scope : BitVec 3) (src : BitVec 7) (dst : BitVec 7) : exec (.xfence m scope src dst) s = execXfence m scope src dst s := rfl
theorem exec_xfenceComplete : exec (.xfenceComplete) s = execXfenceComplete s := rfl
theorem exec_phase (m : CM) : exec (.phase m) s = execPhase m s := rfl
theorem exec_phaseCommit (g : Nat) : exec (.phaseCommit g) s = execPhaseCommit g s := rfl
theorem exec_bopen (m : CM) (a : BitVec 5) (b : BitVec 5) : exec (.bopen m a b) s = execBopen m a b s := rfl
theorem exec_bopenAnswer (answer : RemoteAnswer) : exec (.bopenAnswer answer) s = execBopenAnswer answer s := rfl
theorem exec_bseal (m : CM) (a : BitVec 5) : exec (.bseal m a) s = execBseal m a s := rfl
theorem exec_bsealComplete : exec (.bsealComplete) s = execBsealComplete s := rfl
theorem exec_babort (m : CM) : exec (.babort m) s = execBabort m s := rfl
theorem exec_bundledStoreLand : exec (.bundledStoreLand) s = execBundledStoreLand s := rfl
theorem exec_homeCommit (bid : BitVec 24) (seg : Nat) : exec (.homeCommit bid seg) s = execHomeCommit bid seg s := rfl
theorem exec_homeLost (bid : BitVec 24) (seg : Nat) : exec (.homeLost bid seg) s = execHomeLost bid seg s := rfl
theorem exec_pbr (m : CM) (n : BitVec 3) (target : BitVec 28) : exec (.pbr m n target) s = execPbr m n target s := rfl
theorem exec_pbrr (m : CM) (n : BitVec 3) (b : BitVec 5) : exec (.pbrr m n b) s = execPbrr m n b s := rfl
theorem exec_br (m : CM) (n : BitVec 3) (b : BitVec 5) (cond : BitVec 2) : exec (.br m n b cond) s = execBr m n b cond s := rfl
theorem exec_bra (m : CM) (n : BitVec 3) : exec (.bra m n) s = execBra m n s := rfl
theorem exec_call (m : CM) (n : BitVec 3) : exec (.call m n) s = execCall m n s := rfl
theorem exec_fork (m : CM) (line : BitVec 24) (mask : BitVec 4) : exec (.fork m line mask) s = execFork m line mask s := rfl
theorem exec_rdv (m : CM) (mask : BitVec 4) : exec (.rdv m mask) s = execRdv m mask s := rfl
theorem exec_rdvComplete : exec (.rdvComplete) s = execRdvComplete s := rfl
theorem exec_steer (m : CM) (e : BitVec 2) (b : BitVec 5) : exec (.steer m e b) s = execSteer m e b s := rfl
theorem exec_steerImm (m : CM) (e : BitVec 2) (line : BitVec 24) : exec (.steerImm m e line) s = execSteerImm m e line s := rfl
theorem exec_steerAppend : exec (.steerAppend) s = execSteerAppend s := rfl
theorem exec_earg (m : CM) (e : BitVec 2) (b : BitVec 5) (n : BitVec 4) : exec (.earg m e b n) s = execEarg m e b n s := rfl
theorem exec_waitcc (m : CM) (n : BitVec 3) (value : BitVec 8) : exec (.waitcc m n value) s = execWaitcc m n value s := rfl
theorem exec_waitccComplete : exec (.waitccComplete) s = execWaitccComplete s := rfl
theorem exec_cbset (m : CM) (h : BitVec 4) (f : CbsetF) : exec (.cbset m h f) s = execCbset m h f s := rfl
theorem exec_cbsetComplete : exec (.cbsetComplete) s = execCbsetComplete s := rfl
theorem exec_cbwait (m : CM) (h : BitVec 4) (role : Bool) (c : BitVec 5) : exec (.cbwait m h role c) s = execCbwait m h role c s := rfl
theorem exec_cbwaitComplete : exec (.cbwaitComplete) s = execCbwaitComplete s := rfl
theorem exec_cbadv (m : CM) (h : BitVec 4) (role : Bool) (c : BitVec 5) : exec (.cbadv m h role c) s = execCbadv m h role c s := rfl
theorem exec_item (m : CM) (a : BitVec 5) : exec (.item m a) s = execItem m a s := rfl
theorem exec_itemReturn : exec (.itemReturn) s = execItemReturn s := rfl
theorem exec_emit (m : CM) (a : BitVec 5) (b : BitVec 5) : exec (.emit m a b) s = execEmit m a b s := rfl
theorem exec_emitAccept : exec (.emitAccept) s = execEmitAccept s := rfl
theorem exec_yield (m : CM) : exec (.yield m) s = execYield m s := rfl
theorem exec_mfs (m : CM) (a : BitVec 5) (n : BitVec 8) : exec (.mfs m a n) s = execMfs m a n s := rfl
theorem exec_mts (m : CM) (a : BitVec 5) (n : BitVec 8) : exec (.mts m a n) s = execMts m a n s := rfl
theorem exec_trap (m : CM) (code : BitVec 10) : exec (.trap m code) s = execTrap m code s := rfl
theorem exec_tret (m : CM) : exec (.tret m) s = execTret m s := rfl
theorem exec_endOp (m : CM) : exec (.endOp m) s = execEndOp m s := rfl
theorem exec_hint (y : Sync) (op : BitVec 4) (opnd : BitVec 16) : exec (.hint y op opnd) s = execHint y op opnd s := rfl
theorem exec_hintLong (y : Sync) (op : BitVec 4) (opnd : BitVec 16) (ext : HintExt) : exec (.hintLong y op opnd ext) s = execHintLong y op opnd ext s := rfl
theorem exec_wcfg (y : Sync) (f : WcfgF) : exec (.wcfg y f) s = execWcfg y f s := rfl
theorem exec_wbmap (y : Sync) (f : WalkF) : exec (.wbmap y f) s = execWbmap y f s := rfl
theorem exec_wcoord (y : Sync) (f : WalkF) : exec (.wcoord y f) s = execWcoord y f s := rfl
theorem exec_wdense (y : Sync) (f : WalkF) : exec (.wdense y f) s = execWdense y f s := rfl
theorem exec_wmark (y : Sync) (p : BitVec 4) : exec (.wmark y p) s = execWmark y p s := rfl
theorem exec_walkMsprMeet : exec (.walkMsprMeet) s = execWalkMsprMeet s := rfl
theorem exec_roundPrepare : exec (.roundPrepare) s = execRoundPrepare s := rfl
theorem exec_flowStep : exec (.flowStep) s = execFlowStep s := rfl
theorem exec_flowEnd : exec (.flowEnd) s = execFlowEnd s := rfl
theorem exec_listRecordWrite : exec (.listRecordWrite) s = execListRecordWrite s := rfl
theorem exec_mlease (y : Sync) (n1 : BitVec 4) : exec (.mlease y n1) s = execMlease y n1 s := rfl
theorem exec_leaseGrant (cl : Nat) : exec (.leaseGrant cl) s = execLeaseGrant cl s := rfl
theorem exec_mrel (y : Sync) : exec (.mrel y) s = execMrel y s := rfl
theorem exec_mcfg (y : Sync) (f : McfgF) : exec (.mcfg y f) s = execMcfg y f s := rfl
theorem exec_mzero (y : Sync) (z : BitVec 1) : exec (.mzero y z) s = execMzero y z s := rfl
theorem exec_mlds (y : Sync) (f : MldsF) : exec (.mlds y f) s = execMlds y f s := rfl
theorem exec_mldsLong (y : Sync) (f : MldsF) (x : LongF) : exec (.mldsLong y f x) s = execMldsLong y f x s := rfl
theorem exec_mldsColumn : exec (.mldsColumn) s = execMldsColumn s := rfl
theorem exec_mswap (y : Sync) : exec (.mswap y) s = execMswap y s := rfl
theorem exec_mstr (y : Sync) (f : MstrF) (x : LongF) : exec (.mstr y f x) s = execMstr y f x s := rfl
theorem exec_mconv (y : Sync) (f : MconvF) : exec (.mconv y f) s = execMconv y f s := rfl
theorem exec_rowStep : exec (.rowStep) s = execRowStep s := rfl
theorem exec_mspr (y : Sync) (f : MsprF) : exec (.mspr y f) s = execMspr y f s := rfl
theorem exec_arrayCommandComplete : exec (.arrayCommandComplete) s = execArrayCommandComplete s := rfl
theorem exec_powerTokenTake (cl : Nat) : exec (.powerTokenTake cl) s = execPowerTokenTake cl s := rfl
theorem exec_mdrn (y : Sync) (f : MdrnF) : exec (.mdrn y f) s = execMdrn y f s := rfl
theorem exec_mdrnLong (y : Sync) (f : MdrnF) (x : LongF) : exec (.mdrnLong y f x) s = execMdrnLong y f x s := rfl
theorem exec_mdrnRow : exec (.mdrnRow) s = execMdrnRow s := rfl
theorem exec_vrd (y : Sync) (f : VrdF) : exec (.vrd y f) s = execVrd y f s := rfl
theorem exec_vrdLong (y : Sync) (f : VrdF) (x : LongF) : exec (.vrdLong y f x) s = execVrdLong y f x s := rfl
theorem exec_readRunPlace (q : Nat) : exec (.readRunPlace q) s = execReadRunPlace q s := rfl
theorem exec_vwr (y : Sync) (f : VwrF) : exec (.vwr y f) s = execVwr y f s := rfl
theorem exec_vwrLong (y : Sync) (f : VwrF) (x : LongF) : exec (.vwrLong y f x) s = execVwrLong y f x s := rfl
theorem exec_vgath (y : Sync) (f : VgathF) : exec (.vgath y f) s = execVgath y f s := rfl
theorem exec_vscat (y : Sync) (f : VscatF) : exec (.vscat y f) s = execVscat y f s := rfl
theorem exec_vectorIteration : exec (.vectorIteration) s = execVectorIteration s := rfl
theorem exec_vectorWritesLanded : exec (.vectorWritesLanded) s = execVectorWritesLanded s := rfl
theorem exec_vmov (y : Sync) (f : V1F) : exec (.vmov y f) s = execVmov y f s := rfl
theorem exec_vmovV2 (y : Sync) (f : V2F) : exec (.vmovV2 y f) s = execVmovV2 y f s := rfl
theorem exec_vsplat (y : Sync) (f : VsplatF) : exec (.vsplat y f) s = execVsplat y f s := rfl
theorem exec_vadd (y : Sync) (f : V1F) : exec (.vadd y f) s = execVadd y f s := rfl
theorem exec_vaddV2 (y : Sync) (f : V2F) : exec (.vaddV2 y f) s = execVaddV2 y f s := rfl
theorem exec_vsub (y : Sync) (f : V1F) : exec (.vsub y f) s = execVsub y f s := rfl
theorem exec_vsubV2 (y : Sync) (f : V2F) : exec (.vsubV2 y f) s = execVsubV2 y f s := rfl
theorem exec_vmul (y : Sync) (f : V1F) : exec (.vmul y f) s = execVmul y f s := rfl
theorem exec_vmulV2 (y : Sync) (f : V2F) : exec (.vmulV2 y f) s = execVmulV2 y f s := rfl
theorem exec_vfma (y : Sync) (f : V1F) : exec (.vfma y f) s = execVfma y f s := rfl
theorem exec_vfmaV2 (y : Sync) (f : V2F) : exec (.vfmaV2 y f) s = execVfmaV2 y f s := rfl
theorem exec_vmin (y : Sync) (f : V1F) : exec (.vmin y f) s = execVmin y f s := rfl
theorem exec_vminV2 (y : Sync) (f : V2F) : exec (.vminV2 y f) s = execVminV2 y f s := rfl
theorem exec_vmax (y : Sync) (f : V1F) : exec (.vmax y f) s = execVmax y f s := rfl
theorem exec_vmaxV2 (y : Sync) (f : V2F) : exec (.vmaxV2 y f) s = execVmaxV2 y f s := rfl
theorem exec_vabs (y : Sync) (f : V1F) : exec (.vabs y f) s = execVabs y f s := rfl
theorem exec_vabsV2 (y : Sync) (f : V2F) : exec (.vabsV2 y f) s = execVabsV2 y f s := rfl
theorem exec_vneg (y : Sync) (f : V1F) : exec (.vneg y f) s = execVneg y f s := rfl
theorem exec_vnegV2 (y : Sync) (f : V2F) : exec (.vnegV2 y f) s = execVnegV2 y f s := rfl
theorem exec_vand (y : Sync) (f : V1F) : exec (.vand y f) s = execVand y f s := rfl
theorem exec_vandV2 (y : Sync) (f : V2F) : exec (.vandV2 y f) s = execVandV2 y f s := rfl
theorem exec_vor (y : Sync) (f : V1F) : exec (.vor y f) s = execVor y f s := rfl
theorem exec_vorV2 (y : Sync) (f : V2F) : exec (.vorV2 y f) s = execVorV2 y f s := rfl
theorem exec_vxor (y : Sync) (f : V1F) : exec (.vxor y f) s = execVxor y f s := rfl
theorem exec_vxorV2 (y : Sync) (f : V2F) : exec (.vxorV2 y f) s = execVxorV2 y f s := rfl
theorem exec_vshl (y : Sync) (f : V1F) : exec (.vshl y f) s = execVshl y f s := rfl
theorem exec_vshlV2 (y : Sync) (f : V2F) : exec (.vshlV2 y f) s = execVshlV2 y f s := rfl
theorem exec_vshr (y : Sync) (f : V1F) : exec (.vshr y f) s = execVshr y f s := rfl
theorem exec_vshrV2 (y : Sync) (f : V2F) : exec (.vshrV2 y f) s = execVshrV2 y f s := rfl
theorem exec_vsra (y : Sync) (f : V1F) : exec (.vsra y f) s = execVsra y f s := rfl
theorem exec_vsraV2 (y : Sync) (f : V2F) : exec (.vsraV2 y f) s = execVsraV2 y f s := rfl
theorem exec_vcmp (y : Sync) (f : V1F) : exec (.vcmp y f) s = execVcmp y f s := rfl
theorem exec_vcmpV2 (y : Sync) (f : V2F) : exec (.vcmpV2 y f) s = execVcmpV2 y f s := rfl
theorem exec_vsel (y : Sync) (f : V1F) : exec (.vsel y f) s = execVsel y f s := rfl
theorem exec_vselV2 (y : Sync) (f : V2F) : exec (.vselV2 y f) s = execVselV2 y f s := rfl
theorem exec_vclmp (y : Sync) (f : V2F) : exec (.vclmp y f) s = execVclmp y f s := rfl
theorem exec_vcvt (y : Sync) (f : Vcvt1F) : exec (.vcvt y f) s = execVcvt y f s := rfl
theorem exec_vcvtV2 (y : Sync) (f : Vcvt2F) : exec (.vcvtV2 y f) s = execVcvtV2 y f s := rfl
theorem exec_vqnt (y : Sync) (f : VqntF) : exec (.vqnt y f) s = execVqnt y f s := rfl
theorem exec_vrcp (y : Sync) (f : V1F) : exec (.vrcp y f) s = execVrcp y f s := rfl
theorem exec_vrcpV2 (y : Sync) (f : V2F) : exec (.vrcpV2 y f) s = execVrcpV2 y f s := rfl
theorem exec_vrsq (y : Sync) (f : V1F) : exec (.vrsq y f) s = execVrsq y f s := rfl
theorem exec_vrsqV2 (y : Sync) (f : V2F) : exec (.vrsqV2 y f) s = execVrsqV2 y f s := rfl
theorem exec_vexp2 (y : Sync) (f : V1F) : exec (.vexp2 y f) s = execVexp2 y f s := rfl
theorem exec_vexp2V2 (y : Sync) (f : V2F) : exec (.vexp2V2 y f) s = execVexp2V2 y f s := rfl
theorem exec_vlog2 (y : Sync) (f : V1F) : exec (.vlog2 y f) s = execVlog2 y f s := rfl
theorem exec_vlog2V2 (y : Sync) (f : V2F) : exec (.vlog2V2 y f) s = execVlog2V2 y f s := rfl
theorem exec_vred (y : Sync) (f : V1F) : exec (.vred y f) s = execVred y f s := rfl
theorem exec_vredV2 (y : Sync) (f : V2F) : exec (.vredV2 y f) s = execVredV2 y f s := rfl
theorem exec_vscan (y : Sync) (f : V1F) : exec (.vscan y f) s = execVscan y f s := rfl
theorem exec_vscanV2 (y : Sync) (f : V2F) : exec (.vscanV2 y f) s = execVscanV2 y f s := rfl
theorem exec_vpart (y : Sync) (f : V2F) : exec (.vpart y f) s = execVpart y f s := rfl
theorem exec_viota (y : Sync) (f : V1F) : exec (.viota y f) s = execViota y f s := rfl
theorem exec_vshuf (y : Sync) (f : V1F) : exec (.vshuf y f) s = execVshuf y f s := rfl
theorem exec_vshufV2 (y : Sync) (f : V2F) : exec (.vshufV2 y f) s = execVshufV2 y f s := rfl
theorem exec_vpack (y : Sync) (f : V2F) : exec (.vpack y f) s = execVpack y f s := rfl
theorem exec_vunpk (y : Sync) (f : V2F) : exec (.vunpk y f) s = execVunpk y f s := rfl
theorem exec_kcopy (y : Sync) (f : KF) : exec (.kcopy y f) s = execKcopy y f s := rfl
theorem exec_k2d (y : Sync) (f : KF) : exec (.k2d y f) s = execK2d y f s := rfl
theorem exec_kgath (y : Sync) (f : KF) : exec (.kgath y f) s = execKgath y f s := rfl
theorem exec_kscat (y : Sync) (f : KF) : exec (.kscat y f) s = execKscat y f s := rfl
theorem exec_kfill (y : Sync) (f : KF) : exec (.kfill y f) s = execKfill y f s := rfl
theorem exec_kpf (y : Sync) (f : KF) : exec (.kpf y f) s = execKpf y f s := rfl
theorem exec_kenc (y : Sync) (f : KF) : exec (.kenc y f) s = execKenc y f s := rfl
theorem exec_kdec (y : Sync) (f : KF) : exec (.kdec y f) s = execKdec y f s := rfl
theorem exec_ktab (y : Sync) (f : KF) : exec (.ktab y f) s = execKtab y f s := rfl
theorem exec_kview (y : Sync) (f : KF) : exec (.kview y f) s = execKview y f s := rfl
theorem exec_kviewPass : exec .kviewPass s = execKviewPass s := rfl
theorem exec_kimg (y : Sync) (f : KF) : exec (.kimg y f) s = execKimg y f s := rfl
theorem exec_pageDecoderAssign (die : Nat) : exec (.pageDecoderAssign die) s = execPageDecoderAssign die s := rfl
theorem exec_patchRowWrite : exec (.patchRowWrite) s = execPatchRowWrite s := rfl
theorem exec_copyUnit : exec (.copyUnit) s = execCopyUnit s := rfl
theorem exec_transferComplete : exec (.transferComplete) s = execTransferComplete s := rfl
theorem exec_lineFetch (st : StreamId) : exec (.lineFetch st) s = execLineFetch st s := rfl
theorem exec_exposedResultWrite : exec (.exposedResultWrite) s = execExposedResultWrite s := rfl
theorem exec_interlockedValueArrive : exec (.interlockedValueArrive) s = execInterlockedValueArrive s := rfl
theorem exec_retiringPush (st : StreamId) : exec (.retiringPush st) s = execRetiringPush st s := rfl
theorem exec_hangTimeout (st : StreamId) : exec (.hangTimeout st) s = execHangTimeout st s := rfl
theorem exec_operatorRetire : exec (.operatorRetire) s = execOperatorRetire s := rfl
theorem exec_launchBankSwapIn : exec (.launchBankSwapIn) s = execLaunchBankSwapIn s := rfl
theorem exec_bankWakeDone (bank : Nat) : exec (.bankWakeDone bank) s = execBankWakeDone bank s := rfl
theorem exec_bankGatedExit (bank : Nat) : exec (.bankGatedExit bank) s = execBankGatedExit bank s := rfl
theorem exec_bankEnterRetain (bank : Nat) : exec (.bankEnterRetain bank) s = execBankEnterRetain bank s := rfl
theorem exec_preemptRequest : exec (.preemptRequest) s = execPreemptRequest s := rfl
theorem exec_contextSave : exec (.contextSave) s = execContextSave s := rfl
theorem exec_machineCheck (kind : McheckKind) (pa : Nat) : exec (.machineCheck kind pa) s = execMachineCheck kind pa s := rfl
theorem exec_poolStoreResume : exec (.poolStoreResume) s = execPoolStoreResume s := rfl
theorem exec_replicaLock : exec (.replicaLock) s = execReplicaLock s := rfl
theorem exec_scrub (pa : Nat) (found : ScrubResult) : exec (.scrub pa found) s = execScrub pa found s := rfl
theorem exec_kickWrite (fn : Nat) (q : Nat) (v : BitVec 64) : exec (.kickWrite fn q v) s = execKickWrite fn q v s := rfl
theorem exec_qcbReread (fn : Nat) (q : Nat) : exec (.qcbReread fn q) s = execQcbReread fn q s := rfl
theorem exec_submit (fn : Nat) (q : Nat) : exec (.submit fn q) s = execSubmit fn q s := rfl
theorem exec_trigger (fn : Nat) (q : Nat) : exec (.trigger fn q) s = execTrigger fn q s := rfl
theorem exec_close (fn : Nat) (q : Nat) : exec (.close fn q) s = execClose fn q s := rfl
theorem exec_regionAdd (fn : Nat) (q : Nat) : exec (.regionAdd fn q) s = execRegionAdd fn q s := rfl
theorem exec_regionRemove (fn : Nat) (q : Nat) : exec (.regionRemove fn q) s = execRegionRemove fn q s := rfl
theorem exec_dltSet (fn : Nat) (q : Nat) : exec (.dltSet fn q) s = execDltSet fn q s := rfl
theorem exec_badcmd (fn : Nat) (q : Nat) : exec (.badcmd fn q) s = execBadcmd fn q s := rfl
theorem exec_completionWrite (fn : Nat) (q : Nat) : exec (.completionWrite fn q) s = execCompletionWrite fn q s := rfl
theorem exec_completionConsumerWrite (fn : Nat) (q : Nat) (v : BitVec 64) : exec (.completionConsumerWrite fn q v) s = execCompletionConsumerWrite fn q v s := rfl
theorem exec_triggerWordWrite (rid : Nat) (v : BitVec 64) : exec (.triggerWordWrite rid v) s = execTriggerWordWrite rid v s := rfl
theorem exec_nodeEnd (rid : Nat) : exec (.nodeEnd rid) s = execNodeEnd rid s := rfl
theorem exec_nodeLaunch (rid : Nat) : exec (.nodeLaunch rid) s = execNodeLaunch rid s := rfl
theorem exec_nodeLoop (rid : Nat) : exec (.nodeLoop rid) s = execNodeLoop rid s := rfl
theorem exec_nodeCond (rid : Nat) : exec (.nodeCond rid) s = execNodeCond rid s := rfl
theorem exec_nodeWait (rid : Nat) : exec (.nodeWait rid) s = execNodeWait rid s := rfl
theorem exec_nodeWaitPoll (rid : Nat) : exec (.nodeWaitPoll rid) s = execNodeWaitPoll rid s := rfl
theorem exec_nodeSignal (rid : Nat) : exec (.nodeSignal rid) s = execNodeSignal rid s := rfl
theorem exec_shadowBankWrite (rid : Nat) : exec (.shadowBankWrite rid) s = execShadowBankWrite rid s := rfl
theorem exec_coreGrant (die : Nat) : exec (.coreGrant die) s = execCoreGrant die s := rfl
theorem exec_gheahPreemptOrder (c : Nat) (rid : Nat) (reason : PreemptReason) (area : Nat) : exec (.gheahPreemptOrder c rid reason area) s = execGheahPreemptOrder c rid reason area s := rfl
theorem exec_inputClosePropagate (rid : Nat) : exec (.inputClosePropagate rid) s = execInputClosePropagate rid s := rfl
theorem exec_faultDomainStop (fdom : Nat) : exec (.faultDomainStop fdom) s = execFaultDomainStop fdom s := rfl
theorem exec_stealAdvert : exec (.stealAdvert) s = execStealAdvert s := rfl
theorem exec_stealRequest (chip : Nat) (rid : Nat) (stage : Nat) : exec (.stealRequest chip rid stage) s = execStealRequest chip rid stage s := rfl
theorem exec_stolenEmit (rid : Nat) (stage : Nat) (item : BitVec 64) : exec (.stolenEmit rid stage item) s = execStolenEmit rid stage item s := rfl
theorem exec_flrVf (fn : Nat) : exec (.flrVf fn) s = execFlrVf fn s := rfl
theorem exec_flrPf : exec (.flrPf) s = execFlrPf s := rfl
theorem exec_serviceCoreWatchdog (sc : Nat) : exec (.serviceCoreWatchdog sc) s = execServiceCoreWatchdog sc s := rfl
theorem exec_moduleReset (sigOk : Bool) : exec (.moduleReset sigOk) s = execModuleReset sigOk s := rfl
theorem exec_invcGo (fn : Nat) (v : BitVec 64) : exec (.invcGo fn v) s = execInvcGo fn v s := rfl
theorem exec_invalidationComplete (fn : Nat) : exec (.invalidationComplete fn) s = execInvalidationComplete fn s := rfl
theorem exec_flitSend (port : Nat) : exec (.flitSend port) s = execFlitSend port s := rfl
theorem exec_idleSend (port : Nat) : exec (.idleSend port) s = execIdleSend port s := rfl
theorem exec_flitReceive (port : Nat) (flit : BitVec 1536) : exec (.flitReceive port flit) s = execFlitReceive port flit s := rfl
theorem exec_replayRequest (port : Nat) : exec (.replayRequest port) s = execReplayRequest port s := rfl
theorem exec_ackTimeout (port : Nat) : exec (.ackTimeout port) s = execAckTimeout port s := rfl
theorem exec_portSilent (port : Nat) : exec (.portSilent port) s = execPortSilent port s := rfl
theorem exec_lossOfLight (port : Nat) (band : Nat) (waves : BitVec 16) : exec (.lossOfLight port band waves) s = execLossOfLight port band waves s := rfl
theorem exec_rstr (port : Nat) (band : Nat) (lit : BitVec 16) : exec (.rstr port band lit) s = execRstr port band lit s := rfl
theorem exec_relockEnd (port : Nat) (band : Nat) : exec (.relockEnd port band) s = execRelockEnd port band s := rfl
theorem exec_remoteRequestSend (chip : Nat) : exec (.remoteRequestSend chip) s = execRemoteRequestSend chip s := rfl
theorem exec_write (pkt : Packet) : exec (.write pkt) s = execWrite pkt s := rfl
theorem exec_rdreq (pkt : Packet) : exec (.rdreq pkt) s = execRdreq pkt s := rfl
theorem exec_atomic (pkt : Packet) : exec (.atomic pkt) s = execAtomic pkt s := rfl
theorem exec_rdresp (pkt : Packet) : exec (.rdresp pkt) s = execRdresp pkt s := rfl
theorem exec_wrack (pkt : Packet) : exec (.wrack pkt) s = execWrack pkt s := rfl
theorem exec_atresp (pkt : Packet) : exec (.atresp pkt) s = execAtresp pkt s := rfl
theorem exec_errresp (pkt : Packet) : exec (.errresp pkt) s = execErrresp pkt s := rfl
theorem exec_heartbeatSend : exec (.heartbeatSend) s = execHeartbeatSend s := rfl
theorem exec_heartbeat (src : Nat) (epoch : BitVec 32) : exec (.heartbeat src epoch) s = execHeartbeat src epoch s := rfl
theorem exec_peerFailTimeout (chip : Nat) : exec (.peerFailTimeout chip) s = execPeerFailTimeout chip s := rfl
theorem exec_failed (chip : Nat) (epoch : BitVec 32) : exec (.failed chip epoch) s = execFailed chip epoch s := rfl
theorem exec_advert (src : Nat) (rid : Nat) (stage : Nat) (occ : Nat) : exec (.advert src rid stage occ) s = execAdvert src rid stage occ s := rfl
theorem exec_steal (msg : StealMsg) : exec (.steal msg) s = execSteal msg s := rfl
theorem exec_linkid (port : Nat) (peer : Nat) (peerPort : Nat) (epoch : BitVec 32) : exec (.linkid port peer peerPort epoch) s = execLinkid port peer peerPort epoch s := rfl
theorem exec_committed (port : Nat) (epoch : BitVec 32) : exec (.committed port epoch) s = execCommitted port epoch s := rfl
theorem exec_quiesce : exec (.quiesce) s = execQuiesce s := rfl
theorem exec_settled : exec (.settled) s = execSettled s := rfl
theorem exec_vigil (port : Nat) (round : Nat) (epoch : BitVec 32) : exec (.vigil port round epoch) s = execVigil port round epoch s := rfl
theorem exec_quiesceTimeout : exec (.quiesceTimeout) s = execQuiesceTimeout s := rfl
theorem exec_relock : exec (.relock) s = execRelock s := rfl
theorem exec_relockTimeout : exec (.relockTimeout) s = execRelockTimeout s := rfl
theorem exec_regroupCommit : exec (.regroupCommit) s = execRegroupCommit s := rfl
theorem exec_allowWrite (chip : Nat) (v : BitVec 64) : exec (.allowWrite chip v) s = execAllowWrite chip v s := rfl
theorem exec_alcfgWrite (chip : Nat) (v : BitVec 64) : exec (.alcfgWrite chip v) s = execAlcfgWrite chip v s := rfl
theorem exec_evidxConsWrite (v : BitVec 64) : exec (.evidxConsWrite v) s = execEvidxConsWrite v s := rfl
theorem exec_pwrcapWrite (v : BitVec 64) : exec (.pwrcapWrite v) s = execPwrcapWrite v s := rfl
theorem exec_thermalSample (die : Nat) (milliC : Nat) (inletMilliC : Nat) : exec (.thermalSample die milliC inletMilliC) s = execThermalSample die milliC inletMilliC s := rfl
theorem exec_attestationGo (v : BitVec 64) : exec (.attestationGo v) s = execAttestationGo v s := rfl
theorem exec_attestationReportDone : exec (.attestationReportDone) s = execAttestationReportDone s := rfl
theorem exec_telemetryRefresh (t : TelemetrySample) : exec (.telemetryRefresh t) s = execTelemetryRefresh t s := rfl
theorem exec_registerWrite (fn : Nat) (off : Nat) (v : BitVec 64) : exec (.registerWrite fn off v) s = execRegisterWrite fn off v s := rfl
theorem exec_illegalInstruction : exec (.illegalInstruction) s = execIllegalInstruction s := rfl
theorem exec_mzeroComplete : exec (.mzeroComplete) s = execMzeroComplete s := rfl
theorem exec_mdrnWritesLanded : exec (.mdrnWritesLanded) s = execMdrnWritesLanded s := rfl
theorem exec_hostBar2Write (pa : Nat) (bytes : List (BitVec 8)) : exec (.hostBar2Write pa bytes) s = execHostBar2Write pa bytes s := rfl
theorem exec_laserRecovery (port : Nat) (band : Nat) (lm : Nat) : exec (.laserRecovery port band lm) s = execLaserRecovery port band lm s := rfl
theorem exec_portRetrain (port : Nat) : exec (.portRetrain port) s = execPortRetrain port s := rfl

end Sys2Proof.Machine
end

