-- ==== Sys2Proof/Safety.lean ====
section
/-! DEFINITION. What a safe run is: every step answers a next state, and memory keeps its canonical form. -/

namespace Sys2Proof.Safety

open Sys2Proof.Machine

/-- The canonical form of device and host memory. -/
def MemoryOk (s : State) : Prop := Memory.wf s.mem = true ∧ Memory.wf s.hostMem = true

/-- A step that goes on. -/
def StepsOn (s : State) : Prop := ∃ t, step s = .next t

/-- A run of `n` steps that goes on throughout and keeps memory in its canonical form. -/
def SafeRun : Nat → State → Prop
  | 0, s => MemoryOk s
  | n + 1, s => MemoryOk s ∧ ∃ t, step s = .next t ∧ SafeRun n t

end Sys2Proof.Safety
end

