-- ==== Sys2Proof/Tests/Slice0.lean ====
section
/-! SUPPORT. Tests of the model. Expected results are the spec's own words, worked cases and layouts; no value here was taken
from a run of the model. The theorems named `witness_<statement>` show a state and operands that meet the hypotheses of each
clause of that statement. -/

namespace Sys2Proof.Tests

open Sys2Proof.Machine Sys2Proof.Claims

/-! One declaration at a time: each thread that waits holds a stack of its own. -/
set_option Elab.async false

/-! Ill-formed terms, one per check of WellFormed. -/

/-- No sync request. -/
def y0 : Sync := ⟨false, 0, false, 0⟩
/-- A control instruction without sync request and not squashable. -/
def m0 : CM := ⟨y0, false⟩

theorem smoke_psrc_without_pop : (Instr.nop ⟨⟨false, 1, false, 0⟩, false⟩).wf = false := by decide
theorem smoke_pdst_without_push : (Instr.nop ⟨⟨false, 0, false, 2⟩, false⟩).wf = false := by decide
theorem smoke_scope_six : (Instr.fence m0 6).wf = false ∧ (Instr.aadd m0 1 2 3 0 7).wf = false := by decide
theorem smoke_xfence_empty_sets : (Instr.xfence m0 0 0 1).wf = false ∧ (Instr.xfence m0 0 1 0).wf = false := by decide
theorem smoke_width_three : (Instr.sext m0 1 2 3).wf = false ∧ (Instr.zext m0 1 2 3).wf = false := by decide
theorem smoke_empty_masks : (Instr.fork m0 4 0).wf = false ∧ (Instr.rdv m0 0).wf = false := by decide
theorem smoke_special_number : (Instr.mfs m0 1 0x13).wf = false ∧ (Instr.mts m0 1 0xFF).wf = false := by decide
theorem smoke_source_code : (Instr.vmov y0 ⟨52, 0, 0, 0⟩).wf = false ∧ (Instr.vadd y0 ⟨0, 63, 0, 0⟩).wf = false := by decide
theorem smoke_unused_source : (Instr.vmov y0 ⟨0, 1, 0, 0⟩).wf = false
    ∧ (Instr.vmovV2 y0 ⟨0, 0, 0, 0, 1, 0, 0, false, false, false, false, true, 0⟩).wf = false := by decide
theorem smoke_queue_advance : (Instr.vmovV2 y0 ⟨48, 0, 0, 0, 1, 0, 0, false, false, true, false, false, 0⟩).wf = false := by decide
theorem smoke_history_advance_too_young :
    (Instr.vmovV2 y0 ⟨32, 0, 0, 0, 2, 0, 0, false, false, true, false, false, 0⟩).wf = false
    ∧ (Instr.vmovV2 y0 ⟨33, 0, 0, 0, 2, 0, 0, false, false, true, false, false, 0⟩).wf = true := by decide
theorem smoke_no_destination : (Instr.vmovV2 y0 ⟨0, 0, 0, 0, 1, 0, 5, false, false, false, false, false, 0⟩).wf = false
    ∧ (Instr.vmovV2 y0 ⟨0, 0, 0, 0, 1, 0, 0, false, true, false, false, false, 0⟩).wf = false := by decide
theorem smoke_v2_reserved : (Instr.vmovV2 y0 ⟨0, 0, 0, 0, 1, 0, 0, false, false, false, false, false, 1⟩).wf = false := by decide
theorem smoke_rnd_and_sub_unused : (Instr.vmov y0 ⟨0, 0, 1, 0⟩).wf = false ∧ (Instr.vadd y0 ⟨0, 0, 0, 1⟩).wf = false
    ∧ (Instr.vand y0 ⟨0, 0, 2, 0⟩).wf = false ∧ (Instr.vshl y0 ⟨0, 0, 0, 3⟩).wf = false := by decide
theorem smoke_compare_code : (Instr.vcmp y0 ⟨0, 0, 1, 3⟩).wf = false := by decide
theorem smoke_reduction_code : (Instr.vred y0 ⟨0, 0, 0, 3⟩).wf = false ∧ (Instr.vscan y0 ⟨0, 0, 0, 3⟩).wf = false := by decide
theorem smoke_wait_and_cben : (Instr.vwrLong y0 ⟨0, 0, 0, 0, 1, false, false⟩ ⟨0, true, 0, 0, false, 0⟩).wf = false
    ∧ (Instr.vwrLong y0 ⟨0, 0, 0, 0, 1, false, false⟩ ⟨0, false, 0, 1, false, 0⟩).wf = false := by decide
theorem smoke_ratio : (Instr.vrd y0 ⟨0, 0, 0, 6, 1⟩).wf = false := by decide
theorem smoke_mask_without_men : (Instr.vgath y0 ⟨0, 0, 0, 1, 3, 0, false, false, false, false, false⟩).wf = false
    ∧ (Instr.vscat y0 ⟨0, 0, 0, 1, 3, 0, false, false, false, false, false, 0⟩).wf = false := by decide
theorem smoke_splat_tag : (Instr.vsplat y0 ⟨14, 0, true, 0⟩).wf = false := by decide
theorem smoke_convert_target : (Instr.vcvt y0 ⟨0, 20, 1⟩).wf = false ∧ (Instr.vcvt y0 ⟨0, 1, 26⟩).wf = false := by decide
theorem smoke_quantise_target : (Instr.vqnt y0 ⟨0, 0, 0, 1, 1, 0, false, false, false, false⟩).wf = false
    ∧ (Instr.vqnt y0 ⟨0, 0, 1, 1, 20, 0, false, false, false, false⟩).wf = false := by decide
theorem smoke_list_handle : (Instr.wcfg y0 ⟨false, false, false, 1, 0, 0⟩).wf = false := by decide
theorem smoke_mode_three : (Instr.mcfg y0 ⟨0, 3, 0, 2, 2⟩).wf = false ∧ (Instr.mcfg y0 ⟨0, 0, 0, 26, 2⟩).wf = false
    ∧ (Instr.mcfg y0 ⟨0, 0, 0, 2, 31⟩).wf = false := by decide
theorem smoke_columns : (Instr.mlds y0 ⟨0, 0, 0, 257⟩).wf = false := by decide
theorem smoke_tile_rows : (Instr.mdrn y0 ⟨0, 0, 0, 0, 2, 127⟩).wf = false ∧ (Instr.mdrn y0 ⟨0, 0, 0, 0, 129, 0⟩).wf = false
    ∧ (Instr.mdrn y0 ⟨0, 0, 0, 0, 128, 0⟩).wf = true := by decide
theorem smoke_conv_width : (Instr.mconv y0 ⟨0, 0, 0, 1, 0, 0, 0, 0, 0, 0, 0, 0, 4, false, 0⟩).wf = false
    ∧ (Instr.mconv y0 ⟨0, 0, 0, 1, 0, 0, 0, 0, 0, 0, 0, 4, 0, false, 0⟩).wf = false := by decide

/-- A raw KCOPY of no bytes. -/
def kf0 : KF := ⟨0, 0, 0, 0, false, 1, 0, 0, false, 0, 0, 0, 0, 0, false, false, 0, 0, false⟩

theorem smoke_copy_parameters : (Instr.kcopy y0 { kf0 with p := 14 }).wf = false ∧ (Instr.kcopy y0 { kf0 with p := 13 }).wf = true
    ∧ (Instr.kcopy y0 { kf0 with p := 13, ckm := 1, ckw := true }).wf = false := by decide
theorem smoke_copy_tags : (Instr.kcopy y0 { kf0 with sfmt := 26 }).wf = false ∧ (Instr.kcopy y0 { kf0 with dfmt := 31 }).wf = false := by decide
theorem smoke_copy_checksum : (Instr.kcopy y0 { kf0 with ckm := 3 }).wf = false ∧ (Instr.kcopy y0 { kf0 with ckm := 1, cksel := 3 }).wf = false
    ∧ (Instr.kcopy y0 { kf0 with ckop := 1 }).wf = false := by decide
theorem smoke_copy_ring : (Instr.kcopy y0 { kf0 with cben := true }).wf = false ∧ (Instr.kcopy y0 { kf0 with cbh := 1 }).wf = false
    ∧ (Instr.kfill y0 { kf0 with cben := true, wait := 1 }).wf = false := by decide
theorem smoke_copy_unused : (Instr.k2d y0 { kf0 with w2 := 0x10000000 }).wf = false ∧ (Instr.kfill y0 { kf0 with ds := 1 }).wf = false
    ∧ (Instr.kfill y0 { kf0 with rnd := 1 }).wf = false ∧ (Instr.kpf y0 { kf0 with dd := 1 }).wf = false
    ∧ (Instr.kenc y0 { kf0 with count := 0, w2 := 1 }).wf = false ∧ (Instr.kdec y0 { kf0 with w2 := 1 }).wf = false
    ∧ (Instr.ktab y0 { kf0 with sfmt := 1 }).wf = false ∧ (Instr.kview y0 { kf0 with sat := true }).wf = false
    ∧ (Instr.kenc y0 { kf0 with ckm := 1 }).wf = false := by decide
theorem smoke_image : (Instr.kimg y0 { kf0 with count := 0, w2 := 0x8000 }).wf = false
    ∧ (Instr.kimg y0 { kf0 with count := 0, w2 := 0x400001 }).wf = false
    ∧ (Instr.kimg y0 { kf0 with count := 0, w2 := 0x400000, dfmt := 14 }).wf = false
    ∧ (Instr.kimg y0 { kf0 with count := 0, w2 := 0x400000, dfmt := 13 }).wf = true := by decide

/-! Words written out from the encoding tables, bit by bit. -/

/-- R41, R42, R43, R108: SUB g3, g4, g5 with +pop.w and Q: opcode 0x03, LEN 00, SYNC 1 00 0 00, Q 1, 00011 00100 00101. -/
theorem test_decode_sub :
    decode .c [0b00000011#8 ++ 0b00#2 ++ 0b1#1 ++ 0b00#2 ++ 0b0#1 ++ 0b00#2 ++ 0b1#1 ++ 0b00011#5 ++ 0b00100#5 ++ 0b00101#5]
      = .ok (.sub ⟨⟨true, 0, false, 0⟩, true⟩ 3 4 5) := by decide +kernel
/-- 02, worked case under R42: +pop.k +push.m in the vector stream contributes 0x003E_0000; FIFOs 18 and 10. -/
theorem test_sync_of_vector : syncBits ⟨true, 3, true, 2⟩ = 0x3E#6 ∧ popFifo .v ⟨true, 3, true, 2⟩ = 18 ∧ pushFifo .v 2 = 10 := by decide
/-- 01, worked case under R18: link words. -/
theorem test_link_words : linkOk .v [0x50000000] = true ∧ lineNext [0x50000000] = .steered ∧ lineNext [0x08000000] = .none
    ∧ lineNext [0x64000005] = .at 5 ∧ linkOk .m [0x64000005] = true ∧ linkOk .c [0x50000000] = false := by decide
/-- 05, worked case under R122: the words of line 4 and their instructions. -/
theorem test_decode_worked_line :
    decode .c [0x60400400, 0x01000005] = .ok (.pbr m0 1 0x1000005) ∧ decode .c [0x0C009443] = .ok (.mul ⟨y0, true⟩ 5 2 3)
    ∧ decode .c [0x020018A0] = .ok (.add m0 6 5 0) ∧ decode .c [0x05002102] = .ok (.orG m0 8 8 2) := by decide +kernel
/-- 07: wcfg array, borrow, 4, -20; 11: wcfg array, stall, 3, -512. -/
theorem test_decode_walker : decode .w [0x01404000, 0x04FB0000] = .ok (.wcfg y0 ⟨false, true, false, 0, 4, 0x3EC⟩)
    ∧ decode .w [0x01400000, 0x03800000] = .ok (.wcfg y0 ⟨false, false, false, 0, 3, 0x200⟩) := by decide +kernel
/-- 07: mstr z1, d3, m.p0, row=64, n=32; mspr z0, cc=cc1. -/
theorem test_decode_matrix : decode .m [0x20809800, 0x20800000, 0, 0] = .ok (.mstr y0 ⟨1, 3, 0, 32, 64⟩ ⟨0, false, 0, 0, false, 0⟩)
    ∧ decode .m [0x22400000, 0x00000009] = .ok (.mspr y0 ⟨0, true, 1⟩) := by decide +kernel
/-- 02, worked case under R48: what a map refuses. -/
theorem test_fates : decode .c [0x01400000, 0] = .error .opcode ∧ decode .c [0x02080000] = .error .badField
    ∧ decode .w [0x06000000] = .error .opcode ∧ decode .v [0xF2C00000] = .error .lengthCode := by decide +kernel
/-- The table's numbering: MUL's word alone, its operand bits zero, decodes in the control stream. -/
theorem test_table_word : decodeTableWord 32 0x0C000000 = some (.mul m0 0 0 0)
    ∧ decodeTableWord 64 0x0000000000400003 = none := by decide +kernel
/-- withFetchWord: the next step issues the word placed; LI g1, 7 (R108). -/
theorem test_fetch_word : ((coreAt (State.reset.withFetchWord 64 0x0000000720400400) 0).stream .c).run = .run
    ∧ decodeHere ((coreAt (State.reset.withFetchWord 64 0x0000000720400400) 0).stream .c) .c = .ok (.li m0 1 7, 2) := by decide +kernel

/-! Worked cases of the spec. -/

/-- 08, under R227: CRC-32C of "123456789" in two parts, and WSUM over 4 + 4 bytes. -/
theorem test_chains :
    chainBytes true [0x35, 0x36, 0x37, 0x38, 0x39] (chainBytes true [0x31, 0x32, 0x33, 0x34] (0xFFFFFFFF, 0)) = (0x1CF96D7C, 9)
    ∧ chainBytes false [0x10, 0, 0, 0, 0x20, 0] (0, 0) = (80, 6) ∧ chainBytes false [1, 0] (80, 6) = (131152, 8) := by decide +kernel
/-- R393: CRC-64 of "123456789". -/
theorem test_crc64 : crc64 [0x31, 0x32, 0x33, 0x34, 0x35, 0x36, 0x37, 0x38, 0x39] = 0x995DC9BBDF1939FA := by decide +kernel
/-- 03, under R75: QN4 levels 13 and 2 of a block with c = 200 and S = 0.5. -/
theorem test_qn4 : expandE8m10 .qn4 13 ⟨200, 0x3F000000⟩ = 0x1F2C6 ∧ expandE8m10 .qn4 2 ⟨200, 0x3F000000⟩ = 0x5F2C6 := by decide +kernel
/-- 03, under R87: the MXINT8 block product in CANON. -/
theorem test_mxint8_block : (fp32F.round .rne 0 false (mxBlock false [64, 0xE0, 100] [10, 20, 0xFD] 0x81 0x7C)).1 = 0xBD160000 := by
  decide +kernel
/-- 03, under R88: 1,000.0 drains to E5M2 as 1,024 and to E4M3 as 448 with saturation; +infinity to FP16 without. -/
theorem test_drain : roundTag .e5m2 .rne 0 true (Val.ofInt 1000) = (0x64, false)
    ∧ roundTag .e4m3 .rne 0 true (Val.ofInt 1000) = (0x7E, true)
    ∧ roundTag .fp16 .rne 0 true (.inf false) = (0x7C00, false) := by decide +kernel
/-- 06, under R166: VRCP of 3.0 in FP16, VEXP2 of 3 in BF16, VLOG2 of 1. -/
theorem test_functions : (roundTag .fp16 .rne 0 false (fnVal .rcp (Tag.val .fp16 0x4200))).1 = 0x3555
    ∧ (roundTag .fp16 .ro 0 false (fnVal .rcp (Tag.val .fp16 0x4200))).1 = 0x3555
    ∧ (roundTag .bf16 .rne 0 false (fnVal .exp2 (Tag.val .bf16 0x4040))).1 = 0x4100
    ∧ (roundTag .bf16 .rne 0 false (fnVal .log2 (Tag.val .bf16 0x3F80))).1 = 0 := by decide +kernel
/-- 06, R159: VABS of -128 in INT8. -/
theorem test_vabs : signElem false .int8 false 0x80 = 0x80 ∧ signElem false .int8 true 0x80 = 0x7F := by decide +kernel
/-- 04, under R98: the canonical codes of a table. -/
theorem test_canon_codes : canonCodes [0, 0, 0, 0, 0, 4, 2, 1, 3, 4] = [(7, 1, 0), (6, 2, 0b10), (8, 3, 0b110), (5, 4, 0b1110), (9, 4, 0b1111)] := by
  decide +kernel
/-- 15, under R356: two writes to PROD in both orders. -/
theorem test_prod : putProd (putProd 0xFFFFFFF0 4) 0xFFFFFFF8 = 4 ∧ putProd (putProd 0xFFFFFFF0 0xFFFFFFF8) 4 = 4 := by decide
/-- 12, under R292: a window address. -/
theorem test_window : isWindow 0xFFC00B1234567800 = true ∧ windowChip 0xFFC00B1234567800 = 0x00B
    ∧ windowOfs 0xFFC00B1234567800 = 0x1234567800 := by decide
/-- 16, under R386: the four-level walk of ASID 0x025 and its two variants. -/
def tables (level2 : Dword) : List Host.Cell :=
  [(Config.asidTable + 8 * 0x25, (0x8000000010000000 : Dword)), (0x10006000, 0x00000800000000C7), (0x10004060, level2),
    (0x10002000, 0x10004001), (0x10000000, 0x10002001)].foldr (fun e m => memWrite m e.1 (leBytes 8 e.2.toNat)) []
theorem test_walk : walkTables { State.reset with mem := tables 0x10006001 } 0x30002468 0x25 = .leaf 0x10006000 0x00000800000000C7 3
    ∧ (leafPage 0x30002468 0x00000800000000C7 16).pa = 0x80000002468
    ∧ walkTables { State.reset with mem := tables 0x300000C7 } 0x30002468 0x25 = .leaf 0x10004060 0x300000C7 2
    ∧ (leafPage 0x30002468 0x300000C7 26).pa = 0x30002468
    ∧ walkTables { State.reset with mem := tables 0x300100C7 } 0x30002468 0x25 = .fault .ptbad 2 := by decide +kernel

/-! Witnesses: states and operands that meet the hypotheses of each clause. -/

/-- Reset with core 0, the running one, changed. -/
def put (f : Core → Core) : State := modCore State.reset 0 f
def link0 : Loc := ⟨4, 0, 1, 0, false⟩
/-- A core held by a blocking instruction. -/
def blocked (b : BlockKind) (k : Core) : Core := { k with block := some ⟨b, y0, link0, 1⟩ }
/-- A core at S. -/
def atSup (k : Core) : Core := { k with sr := { k.sr with mode := 1 } }
theorem held_of {s : State} {b : BlockKind} (h : (mine s).block = some ⟨b, y0, link0, 1⟩) : Held s b := ⟨_, _, _, h⟩
/-- A computation that ends well, in a value and state that `p` holds of. -/
def ends {α : Type} (x : EStateM.Result Stop State α) (p : α → State → Bool) : Bool :=
  match x with
  | .ok a s => p a s
  | .error _ _ => false
theorem of_ends {α : Type} {x : EStateM.Result Stop State α} {p : α → State → Bool} (h : ends x p = true) :
    ∃ a s, x = .ok a s ∧ p a s = true := by
  cases x with
  | ok a s => exact ⟨a, s, rfl, h⟩
  | error _ _ => simp [ends] at h
/-- A TLB entry for the 64 KiB page of `va` at `pa`, every permission, A and D set, with more leaf bits. -/
def pageOf (va pa : Nat) (extra : Dword) : TlbEntry := ⟨0, va / 2 ^ 16, 16, BitVec.ofNat 64 pa ||| 0xCF ||| extra⟩
/-- A core that reaches virtual 0x1_0000 at physical 0x2_0000, with g1 to g3 and b registers as given. -/
def mapped (k : Core) : Core := { k with tlb := [pageOf 0x10000 0x20000 0, pageOf 0xFFB0000000000000 0x30000 0x30] }
/-- An entry of a TLB serves a plain access of the running core. -/
def plainNow (s : State) (k : AccKind) (a : Dword) (n : Nat) (t : TlbEntry) : Bool :=
  let p := leafPage a t.leaf t.log2
  addressForm a && !isWindow a && tlbFind s s.cur.core.val (mine s).sr.asid a k == some t && leafPermits t.leaf (mine s).atS k
    && p.cls == 0 && p.cidx == 0 && usable p.pa && usable (p.pa + n - 1) && (List.range n).all fun i => !flawed s (p.pa + i)
theorem plain_of_tlb {s : State} {k : AccKind} {a : Dword} {n : Nat} (t : TlbEntry) (h : plainNow s k a n t = true) :
    PlainAccess s k a n (leafPage a t.leaf t.log2) := by
  simp only [plainNow, Bool.and_eq_true, Bool.not_eq_true', beq_iff_eq, List.all_eq_true, List.mem_range] at h
  obtain ⟨⟨⟨⟨⟨⟨⟨⟨h1, h2⟩, h3⟩, h4⟩, h5⟩, h6⟩, h7⟩, h8⟩, h9⟩ := h
  exact ⟨h1, h2, by simp [Mapped, h3, h4], h5, h6, h7, h8, h9⟩
/-- One TLB entry serves all the accesses of a unit: none of them changes the state. -/
def plainAll (s : State) (k : AccKind) (l : List (Dword × Nat)) (t : TlbEntry) : Bool :=
  l.all fun e => e.1.toNat % 65536 + e.2 ≤ 65536 && 0 < e.2 && plainNow s k e.1 e.2 t
/-- What they read, with their places. -/
def readBy (s : State) (l : List (Dword × Nat)) (t : TlbEntry) : List (Nat × List Byte) :=
  l.map fun e => let p := leafPage e.1 t.leaf t.log2; (p.pa, memRead s.mem p.pa e.2)
theorem accesses_of_tlb {s : State} {k : AccKind} (t : TlbEntry) : ∀ {l : List (Dword × Nat)}, plainAll s k l t = true →
    Accesses k s l (readBy s l t) s
  | [], _ => ⟨rfl, rfl⟩
  | (a, n) :: rest, h => by
    simp only [plainAll, List.all_cons, Bool.and_eq_true, decide_eq_true_eq] at h
    obtain ⟨⟨⟨h1, h2⟩, h3⟩, h4⟩ := h
    have hs : seen s k a = s := by
      simp only [plainNow, Bool.and_eq_true, beq_iff_eq] at h3
      simp [seen, h3.1.1.1.1.1.1.2]
    exact ⟨_, _, h1, h2, plain_of_tlb t h3, by rw [hs]; rfl, by rw [hs]; exact accesses_of_tlb t h4⟩
def pop0 : CM := ⟨⟨true, 1, true, 3⟩, true⟩

theorem witness_RegisterFormsWriteTheirResult : (mine State.reset).canIssue m0 [1, 2, 3] = true
    ∧ (mine (put fun k => { k with fifo := vset k.fifo (popFifo .c pop0.sync) 1 })).canIssue pop0 [31, 0, 31] = true := by decide +kernel
theorem witness_ImmediateFormsWriteTheirResult : (mine State.reset).canIssue m0 [31, 1] = true := by decide +kernel
theorem witness_UnaryAndConstantResults : (mine State.reset).canIssue m0 [31] = true ∧ (2 : BitVec 2) ≠ 3 := by decide +kernel
theorem witness_SlowResultsAreInFlight : (mine State.reset).sr.mode = 0
    ∧ (let s := put fun k => (k.putG 2 0x8000000000000000).putG 3 0xFFFFFFFFFFFFFFFF
       (mine s).canIssue m0 [1, 2, 3] = true ∧ (mine s).readG 2 = 0x8000000000000000 ∧ (mine s).readG 3 = 0xFFFFFFFFFFFFFFFF
       ∧ (mine s).readG 4 = 0) := by decide +kernel

/-- A valid handle of 2 slots, 1 of them filled, in core 0. -/
def ringed (k : Core) : Core := { k with cb := vset k.cb 15 ⟨0x80000000000, 256, 2, 0xFFFFFFFF, 0xFFFFFFFE, false, true, 0⟩ }
theorem witness_BlockingInstructionsAreHeld :
    (let s := put fun k => (ringed k).putG 1 2
     (mine s).canIssue m0 [1] = true ∧ AtU s ∧ (cbAt s 0 15).valid = true ∧ ((mine s).readG 1).toNat ≤ (cbAt s 0 15).nslot.toNat)
    ∧ (mine (put (blocked (.fence 5)))).block.isSome = true := by unfold AtU; decide +kernel

/-- A run region of 4 KiB of vault for core 0's operator. -/
def op0 : Operator := ⟨0x10000, false, 1, some 0, false, none, false, 0, none, .no, 0⟩
def stage0 : StageState := ⟨0, 0, false, 0, 0, 0x10000, 4, 0, 0, false, false, none, [], [], 0⟩
def region0 : Region :=
  { rid := 1, fn := 0, rcb := 0x40000, parent := 0, verify := false, chained := false, asid := 0, prio := 0, fdom := 1, cmin := 1
    cmax := 4, tickets := 1, dclass := 0, nstage := 2, vault := 4096, hbm := 0, fabric := 0, cost := 1, valloc := 0x80000000000
    span := 0, stagesAt := 0x41000, btab := 0x42000, nbund := 1, nextr := 0, graph := 0x43000, trig := 0x44000, handler := 0x10000
    cq := 0x45000, cqcap := 2, cqHead := 0, cqTail := 0, stages := [stage0, stage0], items := 1, run := none, runs := 0, pendTrig := none
    lastTrig := none, groups := [], removing := false, dead := false }
/-- Core 0 runs an operator of region 1, which stands as `r` says. -/
def running (r : Region) (f : Core → Core) : State :=
  { put (fun k => f { k with op := some op0, stage := some (1, 0) }) with regions := [r] }

theorem witness_FencesJoinsAndWaitsComplete :
    Held (put (blocked (.fence 1))) (.fence 1) ∧ controlDone (put (blocked (.fence 1))) 0 1 = true
    ∧ Held (put (blocked (.fence 0))) (.fence 0) ∧ controlDone (put (blocked (.fence 0))) 0 0 = true
    ∧ (let s := put fun k => { blocked (.fence 1) k with inflight := [⟨.g 1, 0, .remote 0, false, y0, link0, none, (8, false)⟩] }
       Held s (.fence 1) ∧ controlDone s 0 1 = false)
    ∧ (let s := put (blocked (.xfence 0 1 1))
       Held s (.xfence 0 1 1) ∧ xfenceReady s 0 0 1 = true ∧ canWriteBack s 0 = true ∧ (1 : BitVec 7).getLsbD 0 = true)
    ∧ Held (put (blocked (.rdv 15))) (.rdv 15)
    ∧ Held (put (blocked (.waitcc 7 0))) (.waitcc 7 0)
    ∧ Held (put (blocked (.steer 3 4))) (.steer 3 4) :=
  ⟨held_of (by decide +kernel), by decide +kernel, held_of (by decide +kernel), by decide +kernel, ⟨held_of (by decide +kernel), by decide +kernel⟩,
    ⟨held_of (by decide +kernel), by decide +kernel, by decide +kernel, by decide⟩, held_of (by decide +kernel), held_of (by decide +kernel),
    held_of (by decide +kernel)⟩

/-- A code line of an engine or the control stream: link word, then one NOP-like word. -/
def lineOf (w0 w1 : Word) : CodeLine := ⟨4, 0x10100, w0 :: w1 :: List.replicate 14 0, false⟩
theorem witness_ForkStartsTheMask :
    ((mine State.reset).canIssue m0 [] = true ∧ AtU State.reset ∧ (15 : BitVec 4) ≠ 0
      ∧ ∀ st ∈ maskStreams 15, ((mine State.reset).stream st).run = .idle ∨ ((mine State.reset).stream st).run = .faulted)
    ∧ (let s := put fun k => k.modStream .k fun x => { x with run := .ended }
       ∃ st ∈ maskStreams 8, ((mine s).stream st).run = .run ∨ ((mine s).stream st).run = .ended)
    ∧ (let s := put fun k => k.modStream .v fun x => { x with run := .run, next := .steered }
       canFetch (mine s) .v = true ∧ ((mine s).stream .v).next = .steered ∧ ((mine s).stream .v).steer = []) := by
  unfold AtU; decide +kernel

theorem witness_SteerQueuesAndCircularBuffers :
    (AtU State.reset ∧ (mine State.reset).canIssue m0 [1] = true ∧ ((mine State.reset).stream (engineOf 0)).steer.length < 8)
    ∧ (8 ≤ ((mine (put fun k => k.modStream (engineOf 3) fun x => { x with steer := List.replicate 8 4 })).stream (engineOf 3)).steer.length)
    ∧ (let s := put fun k => (ringed k).putG 1 1
       (cbAt s 0 15).valid = true ∧ ((mine s).readG 1).toNat ≤ (cbAt s 0 15).filled
       ∧ (((mine s).readG 1).toNat : Int) ≤ (cbAt s 0 15).free)
    ∧ (cbAt State.reset 0 0).valid = false
    ∧ (let s := put (blocked (.cbset 15 ⟨0, 0, false, 0, 0⟩))
       namesCb (mine s) 15 = false ∧ (sharedCb s 0 15).valid = false)
    ∧ (let f : CbsetF := ⟨0, 8, true, 4, 2⟩
       let s := running region0 (blocked (.cbset 15 f))
       namesCb (mine s) 15 = false ∧ regionOf s 0 = some region0
       ∧ f.offHi.toNat * 2 ^ 40 + f.offLo.toNat * 2 ^ 8 + 256 * f.slotu.toNat * f.nslot.toNat ≤ region0.vault
       ∧ cbConflict s 0 15 f.shr = false) := by unfold AtU; decide +kernel
theorem witness_held_of_circular_buffers : Held (put fun k => ringed (blocked (.cbwait 15 true 1) k)) (.cbwait 15 true 1)
    ∧ Held (put (blocked (.cbset 15 ⟨0, 0, false, 0, 0⟩))) (.cbset 15 ⟨0, 0, false, 0, 0⟩)
    ∧ Held (running region0 (blocked (.cbset 15 ⟨0, 8, true, 4, 2⟩))) (.cbset 15 ⟨0, 8, true, 4, 2⟩) :=
  ⟨held_of (by decide +kernel), held_of (by decide +kernel), held_of (by decide +kernel)⟩

/-! Accesses. -/

/-- Core 0 with g2 at the last doubleword of the mapped page and g3 all ones. -/
def access : State := put fun k => ((mapped k).putG 2 0x1FFF8).putG 3 0xFFFFFFFFFFFFFFFF

theorem witness_LoadsReturnMemory : (mine access).canIssue m0 [1, 2] = true ∧ (ea access 2 0).toNat % 8 = 0
    ∧ isWindow (ea access 2 0) = false ∧ (ctlRead access (ea access 2 0) 8).isSome = true
    ∧ (ctlRead access (ea access 2 (imm64 7)) 1).isSome = true ∧ ∃ p, PlainAccess access .read (ea access 2 0) 8 p :=
  ⟨by decide +kernel, by decide +kernel, by decide +kernel, by decide +kernel, by decide +kernel,
    _, plain_of_tlb (pageOf 0x10000 0x20000 0) (by decide +kernel)⟩
theorem witness_StoresWriteMemory : (mine access).canIssue m0 [2, 3] = true ∧ MemOk access ∧ (ea access 2 0).toNat % 8 = 0
    ∧ ∃ p, PlainAccess access .write (ea access 2 0) 8 p :=
  ⟨by decide +kernel, by unfold MemOk; decide +kernel, by decide +kernel, _, plain_of_tlb (pageOf 0x10000 0x20000 0) (by decide +kernel)⟩
theorem witness_MisalignedAccessesTrapAndPrefetchesDoNot : (mine access).canIssue m0 [1, 2, 3] = true
    ∧ (ea access 2 (imm64 7)).toNat % 8 ≠ 0 ∧ (ea access 2 (imm64 1)).toNat % 2 ≠ 0 ∧ m0.q = false := by decide +kernel
theorem witness_AtomicsReadAndWrite :
    let addr := (mine access).readG 2 + (0 : BitVec 24).signExtend 64
    MemOk access ∧ (mine access).canIssue m0 [1, 2, 3] = true ∧ addr.toNat % 8 = 0
    ∧ ∃ p, PlainAccess access .read addr 8 p ∧ Mapped access .write addr p :=
  ⟨by unfold MemOk; decide +kernel, by decide +kernel, by decide +kernel, _, plain_of_tlb (pageOf 0x10000 0x20000 0) (by decide +kernel),
    (plain_of_tlb (n := 8) (pageOf 0x10000 0x20000 0) (by decide +kernel)).2.2.1⟩
theorem witness_TranslationFollowsTheTables :
    ends (translate (some 0) 0x25 false .read 0x30002468 { State.reset with mem := tables 0x10006001 }) (fun p _ => p.pa == 0x80000002468) = true
    ∧ MemOk { State.reset with mem := tables 0x10006001 }
    ∧ (0xFF80000000000000 : Dword).extractLsb' 56 8 = 0xFF ∧ (0x0080000000000000 : Dword).extractLsb' 56 8 ≠ 0xFF
    ∧ (physDword State.reset (Config.asidTable + 8 * 2047)).getLsbD 63 = false ∧ flawed State.reset (Config.asidTable + 8 * 2047) = false := by
  unfold MemOk; decide +kernel

/-! Code, traps and special registers. -/

/-- Core 0 with an operator whose image is at the mapped page and holds `ws` as line 4; its streams as `f` says. -/
def coded (ws : List Word) (f : Core → Core) : State :=
  { put (fun k => f (mapped { k with op := some { op0 with rid := 0 } })) with
    mem := memWrite [] 0x20100 (List.flatMap (fun w : Word => leBytes 4 w.toNat) ws) }
def runs (st : StreamId) (n : NextLine) (steer : List (BitVec 24)) (k : Core) : Core :=
  k.modStream st fun x => { x with run := .run, next := n, steer := steer }

/-- The steered vector line of line 4 is fetched, by NEXT and from the steer queue. -/
theorem witness_LineFetchGoesOn :
    (let s := coded [0x50000000, 0xF0000000] (runs .v (.at 4) [5])
     canFetch (mine s) .v = true ∧ ((mine s).stream .v).next = .at 4
       ∧ ends (fetchCode 0 .v 4 s) (fun l _ => nextSlot l.words 1 == some 1) = true)
    ∧ (let s := coded [0x50000000, 0, 0xF0000000] (runs .v .steered [4, 5])
       ((mine s).stream .v).next = .steered ∧ ((mine s).stream .v).steer = [4, 5]
       ∧ ends (fetchCode 0 .v 4 s) (fun l _ => nextSlot l.words 1 == some 2) = true) := by decide +kernel
theorem witness_ForkStartsTheMask_steered :
    let s := coded [0x50000000, 0, 0xF0000000] (runs .v .steered [4, 5])
    canFetch (mine s) .v = true ∧ ((mine s).stream .v).next = .steered ∧ ((mine s).stream .v).steer = [4, 5]
      ∧ ∃ l, LineOf s .v 4 l ∧ nextSlot l.words 1 = some 2 := by
  refine ⟨by decide +kernel, by decide +kernel, by decide +kernel, ?_⟩
  obtain ⟨l, s1, h, p⟩ := of_ends (x := fetchCode 0 .v 4 (coded [0x50000000, 0, 0xF0000000] (runs .v .steered [4, 5])))
    (p := fun l _ => nextSlot l.words 1 == some 2) (by decide +kernel)
  exact ⟨l, Or.inr ⟨s1, h⟩, by simpa using p⟩
/-- The same line seen through the page that holds it. -/
theorem witness_LineAt :
    let s := coded [0x50000000, 0, 0xF0000000] (runs .v .steered [4, 5])
    LineAt s .v 4 ⟨4, 0x10100, lineWords 16 (memRead (marked s .fetch 0x10100).mem 0x20100 64), false⟩ :=
  ⟨rfl, by decide +kernel, by decide +kernel, by decide +kernel, by decide +kernel, by
    rw [if_neg (by decide +kernel)]
    exact ⟨by decide +kernel, _, plain_of_tlb (pageOf 0x10000 0x20000 0) (by decide +kernel), by congr 1⟩⟩
theorem witness_PrepareBranchWritesTarget : (mine State.reset).canIssue m0 [] = true ∧ (mine State.reset).canIssue m0 [31] = true := by
  decide +kernel
/-- Line 4 of the control stream: CALL b7, then BRA b7 in slot 2; b7 holds slot 2 of line 4, b0 holds 0. -/
def branching (slot : Nat) : State :=
  coded [0x00000004, 0x64000000, 0x64000000] fun k =>
    { (runs .c (.at 4) [] k).modStream .c (fun x => { x with line := some (lineOf 4 0x64000000), slot := slot }) with
      b := vset k.b 7 0x2000004 }
theorem witness_BranchesGoToTheirTarget : (mine (branching 1)).canIssue m0 [31] = true
    ∧ ends (fetchTarget 0 .c (((mine (branching 1)).readB 7).extractLsb' 0 24)
        (((mine (branching 1)).readB 7).extractLsb' 24 4).toNat (branching 1)) (fun _ _ => true) = true
    ∧ (mine (branching 1)).readG 0 = 0 ∧ 0 ≤ ((mine (branching 1)).readG 0).toInt ∧ ((mine (branching 1)).stream .c).line = some (lineOf 4 0x64000000)
    ∧ (mine ((put fun k => mapped { k.putG 1 0xFFFFFFFFFFFFFFFF with op := some { op0 with base := 0x10000, rid := 0 } }))).readB 3 = 0
    ∧ ends (fetchCode 0 .c 0 { put (fun k => mapped { k with op := some { op0 with rid := 0 } }) with mem := [] }) (fun _ _ => true) = true
    ∧ ((mine (put fun k => k.putG 1 0xFFFFFFFFFFFFFFFF)).readG 1).toInt < 0 := by decide +kernel

theorem witness_ResultsAndPushesLand :
    (let s := put fun k => { k.modStream .v (fun x => { x with held := [.push 3] }) with fifo := vset k.fifo (pushFifo .v 3) 14 }
     ((mine s).stream .v).held = [.push 3] ∧ (mine s).tokens (pushFifo .v 3) < 15)
    ∧ (let s := put fun k => { k with fifo := vset k.fifo (pushFifo .v 3) 15 }
       (mine s).tokens (pushFifo .v 3) = 15)
    ∧ (let e : InFlight := ⟨.g 31, 5, .cycles 0, false, y0, link0, none, (8, false)⟩
       let s := put fun k => { k with inflight := [{ e with val := 4 }, e, { e with dest := .g 1 }] }
       (mine s).inflight = [{ e with val := 4 }] ++ [e] ++ [{ e with dest := .g 1 }]
       ∧ ∀ x ∈ [{ e with dest := .g 1 }], ¬(x.dest = .g 31 ∧ x.wait = .cycles 0))
    ∧ (let e : InFlight := ⟨.g 31, 5, .ready, false, y0, link0, none, (8, false)⟩
       let s := put fun k => { k with inflight := [{ e with wait := .cycles 2 }, e, e] }
       (mine s).inflight = [{ e with wait := .cycles 2 }] ++ [e] ++ [e] ∧ (∀ x ∈ [{ e with wait := Await.cycles 2 }], x.wait ≠ .ready)
       ∧ (mine s).raising = none ∧ ({ e with fault := some ⟨.align, 0, 1, 0⟩ } : InFlight).fault = some ⟨.align, 0, 1, 0⟩)
    ∧ (mine State.reset).canIssue m0 [] = true := by decide +kernel

theorem witness_MfsReadsSpecialRegisters : (mine State.reset).canIssue m0 [1] = true ∧ NumberOk State.reset 0x12 ∧ NumberOk State.reset 0
    ∧ NumberOk (put atSup) 0x11 := by unfold NumberOk; decide +kernel
theorem witness_MtsWritesSpecialRegisters : (mine (put atSup)).canIssue m0 [31] = true ∧ NumberOk (put atSup) 0x01
    ∧ NumberOk State.reset 0x05 ∧ NumberOk (put atSup) 0x05 ∧ (0x11 : BitVec 8) ≠ 0x10 := by unfold NumberOk; decide +kernel
theorem witness_PrivilegeChecksHold : (mine State.reset).canIssue m0 [1] = true ∧ (mine State.reset).sr.mode = 0 ∧ m0.q = false
    ∧ 0x13 ≤ (0x13 : BitVec 8).toNat ∧ 0x13 ≤ (0xFF : BitVec 8).toNat
    ∧ (mine (put atSup)).sr.mode ≠ 0 ∧ (mine (put atSup)).popReady .c y0 = true ∧ (mine (put atSup)).inflight = [] := by decide +kernel
/-- A kernel header of 6 lines with entry 4 (R64), and its line 4, a control line that ends after a NOP. -/
def image : List Byte :=
  let guard := leBytes 4 0xFFFFFFFF ++ leBytes 60 0
  leBytes 4 0xE7A50001 ++ leBytes 4 1 ++ leBytes 4 6 ++ leBytes 4 4 ++ leBytes 48 0 ++ guard ++ guard ++ guard
    ++ leBytes 4 0x08000000 ++ leBytes 4 0x01000000
/-- A core that runs at U, in a region whose handler is mapped. -/
def trapping : State :=
  let s := put fun k => mapped { k with op := some op0 }
  { s with regions := [{ region0 with handler := 0x10000 }], mem := memWrite [] 0x20000 image }
theorem witness_TrapEntryState :
    (coreAt trapping 0).sr.mode = 0 ∧ (coreAt trapping 0).raising = none ∧ (coreAt trapping 0).inflight = []
    ∧ workDone trapping 0 = true ∧ (coreAt trapping 0).stopped = false
    ∧ (coreAt (raise trapping 0 .v ⟨.illegal, 0, 0x10104, 0⟩) 0).stopped = false := by decide +kernel
theorem witness_TrapsAreRaised : (mine State.reset).canIssue m0 [] = true
    ∧ ((mine (put atSup)).sr.mode ≠ 0 ∧ (mine (put atSup)).raising = none ∧ workDone (put atSup) 0 = true)
    ∧ (let s := put fun k => k.modStream .c fun x => { x with run := .run, line := some (lineOf 4 0x01400000) }
       ((mine s).stream .c).run = .run ∧ ((mine s).stream .c).line = some (lineOf 4 0x01400000))
    ∧ (mine State.reset).stopped = false ∧ (mine State.reset).limit = 0
    ∧ (let s := put fun k => ({ k with limit := 1 } : Core).modStream .k fun x => { x with run := .run, idle := 2 }
       (mine s).limit ≠ 0 ∧ ((mine s).stream .k).run = .run ∧ (mine s).limit.toNat < ((mine s).stream .k).idle
       ∧ ∀ t, streamNum t < streamNum .k → ((mine s).stream t).run ≠ .run) := by
  refine ⟨by decide +kernel, by decide +kernel, by decide +kernel, by decide +kernel, by decide +kernel, by decide +kernel, by decide +kernel,
    by decide +kernel, ?_⟩
  intro t; cases t <;> decide +kernel
/-- The handler's core after the trap of `trapping`, its frame as the hardware wrote it. -/
def trapped : State := raise trapping 0 .v ⟨.illegal, 0, 0x10104, 0⟩
theorem witness_TretRestoresTheKernel : (mine State.reset).canIssue m0 [] = true ∧ (mine State.reset).sr.mode = 0
    ∧ (let s := put fun k => { atSup k with sr := { (atSup k).sr with sstat := 0x8000000000010012 } }
       (mine s).canIssue m0 [] = true ∧ (mine s).sr.mode ≠ 0 ∧ (mine s).sr.sstat.getLsbD 1 = true)
    ∧ (mine trapped).canIssue m0 [] = true ∧ (mine trapped).sr.mode ≠ 0 ∧ (mine trapped).inflight = []
    ∧ (mine trapped).sr.sstat.extractLsb' 16 48 = 0 ∧ (mine trapped).sr.sstat.extractLsb' 4 10 = 0
    ∧ (mine trapped).sr.sstat.getLsbD 1 = false ∧ (mine trapped).sr.asidNext = none
    ∧ ∃ frame regs mem, frame = leBytes 512 ((mine trapped).frame.getD 0).toNat ∧ regs.length = 320
        ∧ Reads trapped (0xFFB0000000000000 + BitVec.ofNat 64 (1024 * trapped.cur.core.val)) 832 (frame ++ regs) mem := by
  refine ⟨by decide +kernel, by decide +kernel, by decide +kernel, by decide +kernel, by decide +kernel, by decide +kernel,
    by decide +kernel, by decide +kernel, by decide +kernel, by decide +kernel, ?_⟩
  obtain ⟨xs, s1, h, p⟩ := of_ends (x := memLoad 0 (trapArea 0) 832 trapped)
    (p := fun xs _ => xs.take 512 == leBytes 512 ((mine trapped).frame.getD 0).toNat && xs.length == 832) (by decide +kernel)
  simp only [Bool.and_eq_true, beq_iff_eq] at p
  have e1 : trapped.cur.core.val = 0 := by decide +kernel
  have e2 : (0xFFB0000000000000 : Dword) + BitVec.ofNat 64 (1024 * 0) = trapArea 0 := by decide +kernel
  refine ⟨xs.take 512, xs.drop 512, s1.mem, p.1, by simp [p.2], Or.inr ⟨s1, ?_, rfl⟩⟩
  rw [List.take_append_drop, e1, e2]
  exact h
theorem witness_EndEndsOrAbandons : (mine State.reset).canIssue m0 [] = true ∧ (mine State.reset).sr.mode = 0
    ∧ (mine trapped).canIssue m0 [] = true ∧ (mine trapped).sr.mode ≠ 0 := by decide +kernel
theorem witness_InstructionsWithoutEffect : (mine State.reset).canIssue m0 [] = true ∧ State.reset.cur.st = .c ∧ AtU State.reset
    ∧ (mine State.reset).version = none ∧ (mine State.reset).block = none ∧ moveTarget State.reset 0 = none := by unfold AtU; decide +kernel

/-! Phases, bundles, items, banks, operators and contexts. -/

theorem members_below {m : BitVec 512} {p : Nat → Prop} (h : ∀ c, c < 512 → m.getLsbD c = true → p c) (c : Nat) (hc : m.getLsbD c = true) :
    p c := by
  rcases Nat.lt_or_ge c 512 with h1 | h1
  · exact h c h1 hc
  · rw [BitVec.getLsbD_of_ge m c h1] at hc; cases hc

/-- Group 255 holds cores 0 and 1, both arrived. -/
def phased (arrived : BitVec 512) : State :=
  let s := modCore (put fun k => { blocked (.phase []) k with phaseArrived := true }) 1 fun k => { k with phaseArrived := true }
  { s with phase := vset s.phase 255 ⟨3, arrived, 7, 0, 0, false⟩ }
theorem witness_PhasesCommitTogether :
    ((mine State.reset).canIssue m0 [] = true ∧ AtU State.reset ∧ groupOf State.reset 0 = none)
    ∧ groupOf { State.reset with phase := vset State.reset.phase 255 ⟨3, 0, 7, 0, 0, false⟩ } 0 = some 255
    ∧ ((vget (phased 3).phase 255 PhaseGroup.reset).members ≠ 0
       ∧ (vget (phased 3).phase 255 PhaseGroup.reset).arrived = (vget (phased 3).phase 255 PhaseGroup.reset).members)
    ∧ (vget (phased 1).phase 255 PhaseGroup.reset).arrived ≠ (vget (phased 1).phase 255 PhaseGroup.reset).members
    ∧ (vget (phased 3).phase 255 PhaseGroup.reset).members.getLsbD 1 = true := by unfold AtU; decide +kernel
theorem witness_members_have_arrived :
    ∀ c, (vget (phased 3).phase 255 PhaseGroup.reset).members.getLsbD c = true → (coreAt (phased 3) c).phaseArrived = true :=
  members_below (by decide +kernel)
theorem witness_no_member_at_its_phase : ∀ c, (vget State.reset.phase 0 PhaseGroup.reset).members.getLsbD c = true →
    ∀ l, ∀ y n x, (coreAt State.reset c).block ≠ some ⟨.phase l, y, n, x⟩ := by
  refine members_below ?_
  intro c _ h
  exact absurd h (by revert c; decide +kernel)

/-- Bundle 0xA17 of region 1: one segment of one line at virtual 0x3000_0000, BUNDLED under index 0, on this chip; page tables for ASID 0. -/
def bundleMem : List Host.Cell :=
  let rows : List (Nat × List Byte) := [(Config.asidTable, leBytes 8 0x8000000010000000), (0x10006000, leBytes 8 0x50AC7),
    (0x10004060, leBytes 8 0x10006001), (0x10002000, leBytes 8 0x10004001), (0x10000000, leBytes 8 0x10002001),
    (0x42000, leBytes 4 0xA17 ++ leBytes 12 1 ++ leBytes 8 0x30000000 ++ leBytes 8 1)]
  rows.foldr (fun e m => memWrite m e.1 e.2) []
def bundling (f : Core → Core) (homes : List Home) : State := { running region0 f with mem := bundleMem, homes := homes }
def entry0 : BundleEntry := ⟨0xA17, 1, [⟨0x30000000, 1, 0⟩]⟩
def version2 : OpenVersion := ⟨0xA17, 0, 2, 0, [], false⟩
def home (seg : Nat) (st : HomeState) (decided : Bool) (opener : Option (BitVec 12 × BitVec 9)) : Home :=
  ⟨0xA17, seg, 1, 2, st, 0, 0, decided, 0x3, opener, false⟩
def awaiting (w : Await) (k : Core) : Core := { k with inflight := [⟨.g 31, 0, w, false, y0, link0, none, (8, false)⟩] }

theorem witness_BundlesOpenAndSeal :
    (let s := bundling (fun k => k.putG 1 0xA17) []
     (mine s).canIssue m0 [2, 1] = true ∧ regionOf s 0 = some region0 ∧ findBundle s region0 (((mine s).readG 1).setWidth 24) = some (0, entry0)
     ∧ entryOk s (region0.btab + 1040 * 0) entry0 = true ∧ pagesOk s 0 0 entry0 = true ∧ (mine s).version = none
     ∧ findBundle s region0 (((mine s).readG 2).setWidth 24) = none)
    ∧ (mine (bundling (fun k => { k with version := some version2 }) [])).version.isSome = true
    ∧ (let s := bundling (awaiting (.bopen 0xA17)) []
       (mine s).inflight = [⟨.g 31, 0, .bopen 0xA17, false, y0, link0, none, (8, false)⟩] ∧ findBundle s region0 0xA17 = some (0, entry0)
       ∧ (entry0.segs.map (·.chip)).head? = some s.fabric.group.self ∧ (mine s).raising = none ∧ (homeAt s 0xA17 0).lost = false
       ∧ (homeAt s 0xA17 0).opener = none)
    ∧ (let s := bundling (awaiting (.bopen 0xA17)) [home 0 .opened false (some (0, 1))]
       (homeAt s 0xA17 0).opener.isSome = true ∧ (homeAt s 0xA17 0).lost = false)
    ∧ (let s := bundling (fun k => { k with version := some version2 }) []
       (mine s).canIssue m0 [31] = true ∧ (mine s).version = some version2 ∧ version2.sealing = false)
    ∧ (let s := bundling (fun k => { awaiting .bseal k with version := some { version2 with sealing := true } }) [{ home 0 .idle false none with committed := 2 }]
       (mine s).version = some { version2 with sealing := true } ∧ (homeAt s 0xA17 0).opener = none
       ∧ (mine s).inflight = [⟨.g 31, 0, .bseal, false, y0, link0, none, (8, false)⟩] ∧ (mine s).raising = none) := by decide +kernel
def bstore0 : BStore := ⟨0, .v, 0xA17, 2, 0, 0x5007F, 0, [0xAB], none⟩
/-- Core 0 with version 2 of bundle 0xA17 open: line 0xA01 holds it, and its former bytes are retained; one more store is on its way. -/
def aborting (decided : Bool) : State :=
  { bundling (fun k => { k with version := some version2 }) [home 0 .opened decided (some (0, 0))] with
    tags := [(0xA01, ⟨1, 0xA17, 2, 0, 1, 1⟩)], retained := [(0xA01, 0x55)], bstores := [bstore0] }
/-- A tagged store of core 0 that is still to be sent. -/
def taggedOut : RemoteReq := ⟨1, .write, 0, .c, 0xFFC0050000010040, 1, 0, 0, [0xAB], 0, some (0xA17, 2, 0, 1), 0⟩
theorem witness_babort :
    (let s := aborting false
     (mine s).canIssue m0 [] = true ∧ AtU s ∧ (mine s).version = some version2 ∧ (homeAt s 0xA17 0).decided = false
     ∧ (∀ r ∈ s.fabric.waiting ++ s.fabric.inFlight, ¬(r.core = s.cur.core.val ∧ r.tagged.isSome = true))
     ∧ (∀ e ∈ (mine s).inflight, e.wait ≠ .bseal) ∧ s.homes ≠ [] ∧ s.bstores ≠ [] ∧ MemOk s
     ∧ atVersion (tagAt s 0xA01) 0xA17 none 2 = true ∧ kget s.retained 0xA01 = some 0x55)
    ∧ (homeAt (aborting true) 0xA17 0).decided = true
    ∧ (let s := { aborting false with fabric := { State.reset.fabric with waiting := [taggedOut] } }
       taggedOut ∈ s.fabric.waiting ∧ taggedOut.core = s.cur.core.val ∧ taggedOut.tagged.isSome = true
       ∧ (homeAt s 0xA17 0).decided = false) := by unfold AtU MemOk; decide +kernel

theorem witness_BundledStoresLandAndCommit :
    (let s := { bundling id [home 0 .opened false none] with bstores := [bstore0] }
     s.bstores = [bstore0] ∧ storeCanLand s bstore0 = true ∧ bstore0.pa / 128 = (bstore0.pa + bstore0.bytes.length - 1) / 128
     ∧ (homeAt s 0xA17 0).state = .opened ∧ (homeAt s 0xA17 0).opener = none ∧ MemOk s
     ∧ (if (tagAt s (0x5007F / 128)).kind = 1 then (tagAt s (0x5007F / 128)).ver else 0) ≠ bstore0.version
     ∧ newer 2 (homeAt s 0xA17 0).committed = true)
    ∧ (let s := bundling (fun k => { k with version := some version2 }) [home 0 .landed true (some (0, 0)), home 1 .landed false none]
       openVersionOf { s with mem := memWrite s.mem 0x42004 [2] } 0xA17 = some 2 ∧ (homeAt s 0xA17 0).decided = true
       ∧ (homeAt s 0xA17 1).committed ≠ 2 ∧ 1 < segsOfBundle { s with mem := memWrite s.mem 0x42004 [2] } 0xA17)
    ∧ (let s := bundling (fun k => { k with version := some version2 }) [home 0 .sealing false (some (0, 0)), home 1 .sealing false none]
       openVersionOf s 0xA17 = some 2 ∧ (homeAt s 0xA17 0).decided = false ∧ (homeAt s 0xA17 0).state = .sealing
       ∧ (homeAt s 0xA17 0).fmask.getLsbD 1 = true) := by unfold MemOk; decide +kernel

/-- The stage records of region 1: queues of 2 entries, up to 4 cores; stage 0's queue holds 0x1_0040 in its slot 1. -/
def stageMem : List Host.Cell :=
  let row (q : Nat) : List Byte := leBytes 16 0 ++ leBytes 8 q ++ leBytes 4 2 ++ leBytes 2 4 ++ leBytes 2 1 ++ leBytes 4 1
  let rows : List (Nat × List Byte) := [(0x41000, row 0x46000), (0x41040, row 0x46100), (0x46010, leBytes 8 0x10040)]
  rows.foldr (fun e m => memWrite m e.1 e.2) []
/-- Core 0 in stage `i` of region 1 whose stages stand as `x` and `y`. -/
def staged (i : Nat) (x y : StageState) (f : Core → Core) (g : Region → Region) : State :=
  { put (fun k => f { k with op := some { op0 with stage := some i }, stage := some (1, i) }) with
    regions := [g { region0 with stages := [x, y] }], mem := stageMem }
def stage1 : StageState := { stage0 with head := 1, tail := 2, cset := 1 }

theorem witness_ItemsAreTakenInOrder :
    (let s := staged 0 stage0 stage0 id id
     (mine s).canIssue m0 [1] = true ∧ AtU s ∧ onConsumer (mine s) = false ∧ moveTarget s 0 = none)
    ∧ (let s := staged 0 stage0 stage0 (fun k =>
          ({ k with op := some { op0 with fused := true }, splice := some ⟨[], [], [], false, .fp32⟩ } : Core).modStream .c
            fun x => { x with run := .run, line := some { lineOf 0x08000000 0 with side := true } }) id
       (mine s).canIssue m0 [1] = true ∧ onConsumer (mine s) = true)
    ∧ (let s := staged 0 stage1 stage0 (blocked (.item 31)) id
       (mine s).stage = some (1, 0) ∧ regionAt s 1 = some { region0 with stages := [stage1, stage0] }
       ∧ stageOf { region0 with stages := [stage1, stage0] } 0 = some stage1 ∧ stage1.head < stage1.tail)
    ∧ (stage0.head = stage0.tail ∧ stage0.stolen = [] ∧ stage0.closed = false ∧ { stage0 with closed := true }.closed = true
       ∧ { stage0 with stolen := [(5, 0xFFC0000000000040)] }.stolen = (5, 0xFFC0000000000040) :: [])
    ∧ (let s := staged 0 { stage0 with cset := 1 } { stage1 with head := 0, tail := 2 } id id
       AtU s ∧ moveTarget s 0 = some (1, 1) ∧ (mine s).canIssue m0 [] = true ∧ (mine s).canIssue m0 [1] = true
       ∧ onConsumer (mine s) = false) := by unfold AtU; decide +kernel
theorem witness_item_is_held : Held (staged 0 stage1 stage0 (blocked (.item 31)) id) (.item 31) := held_of (by decide +kernel)

/-- A core of the producer's half of a fused operator that holds an item. -/
def producing : State := staged 0 stage0 stage0 (fun k =>
  ({ k with op := some { op0 with fused := true, item := some 0x10040, producerItem := some 0x10040 }, splice := some ⟨[], [], [], false, .fp32⟩ } : Core).putG 1 0x10040) id
theorem witness_EmitsHandTheItemOn :
    (let s := staged 0 stage0 stage0 id id
     (mine s).canIssue m0 [1, 2] = true ∧ AtU s ∧ onProducer (mine s) = false ∧ (mine s).op = some op0 ∧ op0.stolen = false)
    ∧ (onProducer (mine producing) = true ∧ (mine producing).op.bind (·.producerItem) = some ((mine producing).readG 1)
       ∧ (mine producing).op.bind (·.producerItem) ≠ some ((mine producing).readG 2) ∧ (mine producing).canIssue m0 [3, 1] = true)
    ∧ (let s := staged 0 stage0 stage1 (blocked (.emit 31 0x10040)) id
       (mine s).op = some op0 ∧ op0.stage = some 0 ∧ stage0.fusedNext = false ∧ 0 + 1 < region0.nstage
       ∧ stage1.tail - stage1.head < stageQcap s region0 1 ∧ stageQcap s region0 1 ≤ { stage1 with head := 0 }.tail - { stage1 with head := 0 }.head)
    ∧ (1 + 1 = region0.nstage ∧ region0.chained = false ∧ region0.cqTail - region0.cqHead < region0.cqcap
       ∧ { region0 with cqTail := 2 }.cqcap ≤ { region0 with cqTail := 2 }.cqTail - { region0 with cqTail := 2 }.cqHead)
    ∧ (inGroup State.reset 0 = true ∧ inGroup State.reset 5 = false) := by unfold AtU; decide +kernel
/-- A region 2 with its door at bundle-free memory: the item's page is PLAIN, and the door is open or closed. -/
def door (cost : Nat) : State :=
  { staged 1 stage0 stage0 (blocked (.emit 31 0x30000000)) (fun r => { r with chained := true, nextr := 2 }) with
    regions := [{ region0 with stages := [stage0, stage0], chained := true, nextr := 2 }, { region0 with rid := 2, cost := cost }]
    mem := memWrite (memWrite bundleMem 0x10006000 (leBytes 8 0x500C7)) 0x41000 (leBytes 28 (2 * 2 ^ 192)) }
theorem witness_door_of_a_chained_region :
    regionAt (door 1) 2 = some { region0 with rid := 2 }
    ∧ ends (itemRecord { region0 with rid := 2 } 0x30000000 (door 1)) (fun _ s1 =>
        let cost := regionCost s1 { region0 with rid := 2 }
        doorOpen cost.2 { region0 with rid := 2 } cost.1) = true
    ∧ ends (itemRecord { region0 with rid := 2, cost := 2 ^ 40 } 0x30000000 (door (2 ^ 40)))
        (fun _ s1 =>
          let cost := regionCost s1 { region0 with rid := 2, cost := 2 ^ 40 }
          !doorOpen cost.2 { region0 with rid := 2, cost := 2 ^ 40 } cost.1) = true := by decide +kernel
/-- Core 0 at the EMIT of an item stolen from `chip`, which stands on its way back as `b`. -/
def givingBack (chip : Nat) (b : CarryBack) (f : Core → Core) : State :=
  put fun k => f { k with op := some { op0 with item := some 0x40, stolen := true, ownerChip := chip, back := b } }
theorem witness_stolen_emit :
    (let s := givingBack 5 .no id
     (mine s).canIssue m0 [1, 2] = true ∧ AtU s ∧ onProducer (mine s) = false ∧ (mine s).op.map (·.stolen) = some true)
    ∧ (mine (givingBack 5 .done (blocked (.emitStolen 1 0x10040)))).op.map (·.back) = some .done
    ∧ (let s := givingBack 0 .asked (blocked (.emitStolen 1 0x10040))
       (mine s).op.map (·.back) ≠ some .done ∧ inGroup s (BitVec.ofNat 12 0) = true)
    ∧ inGroup (givingBack 5 .asked (blocked (.emitStolen 1 0x10040))) (BitVec.ofNat 12 5) = false := by unfold AtU; decide +kernel
theorem witness_emit_is_held : Held (staged 0 stage0 stage1 (blocked (.emit 31 0x10040)) id) (.emit 31 0x10040)
    ∧ ∀ b, Held (givingBack 5 b (blocked (.emitStolen 1 0x10040))) (.emitStolen 1 0x10040) :=
  ⟨held_of (by decide +kernel), fun b => held_of (by cases b <;> decide +kernel)⟩

/-- A vector instruction that names v0, issued. -/
def naming (k : Core) : Core := k.modStream .v fun x => { x with op := .vec { VecOp.blank k y0 with kind := .move, a := 0, count := 2 } }
theorem witness_VectorBanksChangePower :
    (let s := put fun k => { (atSup k).putG 1 0xFFFFFFFFFFFFFF24 with sr := { (atSup k).sr with vbank := 0x90 } }
     (mine s).canIssue m0 [1] = true ∧ (mine s).sr.mode ≠ 0 ∧ ((mine s).stream .v).op = .none
     ∧ (∀ i, i < 4 → isLeaving (bankMove (mine s) i) = false) ∧ bankField (mine s).sr.vbank 3 = 2 ∧ bankField (mine s).sr.vbank 2 = 1)
    ∧ (let s := put fun k => (naming (atSup k)).putG 1 1
       (mine s).canIssue m0 [1] = true ∧ bankNamed (mine s) 0 = true ∧ bankField (mine s).sr.vbank 0 = 0
       ∧ ((mine s).readG 1).extractLsb' 0 2 = 1
       ∧ ∀ j, j < 4 → j ≠ 0 → ((mine s).readG 1).extractLsb' (2 * j) 2 = bankField (mine s).sr.vbank j)
    ∧ (let s := put fun k => setMove (blocked .vbank k) 3 (.leaving true)
       bankMove (mine s) 3 = .leaving true ∧ bankNamed (mine s) 3 = false ∧ ∀ j, j < 4 → j ≠ 3 → isLeaving (bankMove (mine s) j) = false)
    ∧ bankMove (mine (put fun k => setMove k 3 (.waking 0))) 3 = .waking 0
    ∧ bankMove (mine (put fun k => setMove k 3 (.ungating 0 true))) 3 = .ungating 0 true
    ∧ bankMove (mine (put fun k => setMove k 0 (.waking 1))) 0 = .waking (0 + 1)
    ∧ bankMove (mine (put fun k => setMove k 0 (.ungating 256 false))) 0 = .ungating (255 + 1) false := by decide +kernel
theorem witness_vbank_is_held : Held (put fun k => setMove (blocked .vbank k) 3 (.leaving true)) .vbank := held_of (by decide +kernel)

def launch0 : Launch := ⟨0x10000, 4, 5, true, 1, some 0, [1, 2, 3, 4], false, 0⟩
theorem witness_OperatorsRetireAndStart :
    canRetire (mine (put fun k => { k.modStream .c (fun x => { x with run := .ended }) with op := some op0 })) = true
    ∧ canRetire (mine (put fun k => { k.modStream .v (fun x => { x with run := .run }) with op := some op0 })) = false
    ∧ (let s := put fun k => { k with shadow := some launch0 }
       (mine s).op = none ∧ (mine s).stopped = false ∧ (mine s).saved = [] ∧ (mine s).shadow = some launch0 ∧ launch0.asid ≠ (mine s).sr.asid)
    ∧ (let s := put fun k => { k with shadow := some { launch0 with asid := 0, args := [] } }
       (mine s).shadow = some { launch0 with asid := 0, args := [] } ∧ (mine s).sr.asid = 0) := by decide +kernel

/-- Core 511 runs region 1's operator; the region has stopped with its fault domain. -/
def ordered : State := { modCore State.reset 511 (fun k => { k with op := some op0 }) with regions := [{ region0 with dead := true, hbm := 2 ^ 30 }] }
def area0 : Nat := 0x6000001000
theorem witness_PreemptionSavesTheContext :
    (regionOf ordered 511 = some { region0 with dead := true, hbm := 2 ^ 30 }
     ∧ regionAt ordered 1 = some { region0 with dead := true, hbm := 2 ^ 30 } ∧ areaBudget ordered { region0 with dead := true, hbm := 2 ^ 30 } = true
     ∧ (coreAt ordered 511).preempt = .none ∧ (coreAt ordered 511).stopped = false ∧ areaOk ordered 511 (0xC000001000) = true
     ∧ mayPreempt ordered 511 { region0 with dead := true, hbm := 2 ^ 30 } { region0 with dead := true, hbm := 2 ^ 30 } .faultDomain = true
     ∧ mayPreempt ordered 511 region0 region0 .faultDomain = false)
    ∧ (let s := put fun k => { atSup k with preempt := .pending area0 }
       (mine s).preempt = .pending area0 ∧ (mine s).sr.mode ≠ 0)
    ∧ (let s := put fun k => { k with preempt := .pending area0 }
       (mine s).preempt = .pending area0 ∧ AtU s ∧ (mine s).raising = none ∧ (mine s).stopped = false ∧ (mine s).op = none)
    ∧ (let s := put fun k => { k.modStream .c (fun x => { x with run := .run }) with preempt := .pending area0, op := some op0 }
       AtU s ∧ (mine s).raising = none ∧ ((mine s).stream .c).run ≠ .ended ∧ (mine s).op.isSome = true)
    ∧ (let s := put fun k => { k with preempt := .draining area0, op := some op0 }
       (mine s).preempt = .draining area0 ∧ (mine s).op = some op0 ∧ MemOk s ∧ (mine s).drained = true ∧ (mine s).stage = none
       ∧ (∀ x ∈ s.fabric.waiting ++ s.fabric.inFlight, x.core ≠ s.cur.core.val))
    ∧ (let s := put fun k => { k with preempt := .draining area0, op := some op0, inflight := [⟨.g 1, 0, .ready, false, y0, link0, none, (8, false)⟩] }
       (mine s).drained = false)
    ∧ (let x : SavedOp := ⟨area0, false, op0, 0, false, none, none, [], []⟩
       let s := { put (fun k => { k with saved := [x] }) with regions := [region0] }
       (mine s).op = none ∧ (mine s).stopped = false ∧ (mine s).saved = [x] ∧ (mine s).shadow = none ∧ mayResume s x = true
       ∧ contextFlaw s x.area = none) := by unfold AtU MemOk; decide +kernel

theorem witness_ModuleStoresAndChecks :
    ((mine (put fun k => { k with op := some op0 })).op.isSome = true ∧ (mine (put fun k => { k with op := some op0 })).stopped = false)
    ∧ (mine State.reset).op = none ∧ holdsAt 0 ≠ .nothing ∧ holdsAt 0x8007FFFFFFF ≠ .nothing
    ∧ (let m := memWrite [] Config.replicaTable (leBytes 8 2 ++ leBytes 8 0x100000 ++ leBytes 8 0x200000)
       let s : State := { State.reset with rstores := [⟨0, .k, 0, 0x100040, 1, 0, [1, 2], none⟩], mem := m }
       MemOk s ∧ 1 < (replicaEntry s 0).nrep ∧ (replicaEntry s 0).nrep ≤ 2 ∧ 0 < (replicaEntry s 0).nrep)
    ∧ (let s := { State.reset with fleet := { State.reset.fleet with bar2 := 0x80000000000 } }
       MemOk s ∧ 0xFFFFFFFFD + [1, 2, (3 : BitVec 8)].length ≤ 2 ^ 36
       ∧ (∀ i, i < [1, 2, (3 : BitVec 8)].length → usable (s.fleet.bar2 + 0xFFD + i) = true)) := by unfold MemOk; decide +kernel

/-! The vector engine. -/

/-- A tile descriptor (R41): BASE, dimensions, strides, tag code, kind and COUNT. -/
def tile (base dim0 dim1 s0 s1 code kind count : Nat) : BitVec 256 :=
  BitVec.ofNat 256 (base + dim0 * 2 ^ 64 + dim1 * 2 ^ 96 + s0 * 2 ^ 128 + s1 * 2 ^ 160 + code * 2 ^ 192 + kind * 2 ^ 197 + count * 2 ^ 224)
/-- Word 3 that awaits one slot of handle 15 and counts on counter 7, and one that does neither. -/
def long15 : LongF := ⟨0x100, true, 15, 1, true, 7⟩
def longNone : LongF := ⟨0x100, false, 0, 0, false, 0⟩
/-- A core whose descriptor `i` is `d` and whose engine parameters are zero. -/
def withD (d : BitVec 256) (k : Core) : Core := { ringed k with d := vset k.d 3 d }

theorem vrdOk_dense {d : BitVec 256} {ring : Option RingRef} {p : Dword} {step : BitVec 32} {n : Nat} (h : DescOk d) (k : (tileD d).kind = 0)
    (s : SpanOk ring p step n 256) : VrdOk d ring p step n := ⟨h, .inl ⟨k, s⟩⟩
theorem spanOk_none (p : Dword) (step : BitVec 32) (count n : Nat) : SpanOk none p step count n := nofun
theorem spanOk_some {r : RingRef} {p : Dword} {step : BitVec 32} {count n : Nat}
    (h : 0 ≤ p.toInt ∧ p.toInt + n ≤ r.wait.toNat * r.slotsz.toNat ∧ 0 ≤ p.toInt + (count - 1 : Nat) * step.toInt
      ∧ p.toInt + (count - 1 : Nat) * step.toInt + n ≤ r.wait.toNat * r.slotsz.toNat) : SpanOk (some r) p step count n := by
  intro _ e _; cases e; exact h

theorem witness_VectorInstructionsIssue : (mine State.reset).popReady .v y0 = true ∧ (mine State.reset).ccRoom none = true
    ∧ ({ State.reset with cur := { State.reset.cur with st := .m } }).cur.st = .m
    ∧ (mine ({ State.reset with cur := { State.reset.cur with st := .m } })).popReady .m y0 = true := by decide +kernel
theorem namedOn_of_banks {k : Core} (h : ∀ r, r < 32 → BankOn k r) (o : VecOp) : NamedOn k o :=
  fun _ => ⟨fun _ a => h _ a, fun _ b => h _ b, fun _ c => h _ c, fun _ => h _ o.d.isLt⟩
theorem witness_banks_are_on (o : VecOp) : NamedOn (mine State.reset) o := namedOn_of_banks (by unfold BankOn; decide +kernel) o

def ring15 : RingRef := ⟨15, 0x80000000000, 256, 2, 0xFFFFFFFE, 1⟩
def reads : State := put (withD (tile 0x10000 64 1 0 0 1 0 0))
theorem witness_VectorMemoryInstructionsIssue : (mine reads).popReady .v y0 = true ∧ (mine reads).ccRoom (ccOf true 7) = true
    ∧ (mine reads).ccRoom none = true ∧ DescOk ((mine reads).readD 3) ∧ gatherTag (tileD ((mine reads).readD 3)).tag = true
    ∧ (tileD ((mine reads).readD 3)).kind = 0 ∧ (mine reads).fusedNow = false ∧ RunRoom reads 3 ∧ ringOf reads long15 false = some ring15 := by
  unfold DescOk RunRoom; decide +kernel
theorem witness_rings_are_ready : RingReady reads long15 true ∧ RingReady reads long15 false ∧ RingReady reads longNone true :=
  ⟨fun _ => by decide +kernel, fun _ => by decide +kernel, nofun⟩
theorem witness_read_runs_are_accepted : VrdOk (tile 0x10000 64 1 0 0 1 0 0) none ((mine reads).readP .v 1) 256 4095
    ∧ VrdOk (tile 0x10000 64 1 0 0 1 0 0) (some ring15) ((mine reads).readP .v 1) 256 1 ∧ VrdOk (tile 0x10000 64 1 0 0 1 1 8) none 1 256 0 :=
  ⟨vrdOk_dense (by unfold DescOk; decide +kernel) (by decide +kernel) (spanOk_none _ _ _ _),
    vrdOk_dense (by unfold DescOk; decide +kernel) (by decide +kernel) (spanOk_some (by decide +kernel)),
    by unfold DescOk; decide +kernel, .inr (by decide +kernel)⟩

/-- Core 0 at iteration `j` of `o`. -/
def iterating (o : VecOp) (j : Nat) (f : Core → Core) : State :=
  put fun k => f (k.modStream .v fun x => { x with run := .run, op := .vec o, mpc := BitVec.ofNat 32 j })
def vblank : VecOp := VecOp.blank State.reset.cores[0] y0
/-- VADD q0, q0 of 2 iterations at its last one, to v31. -/
def vadd2 : VecOp := { vblank with kind := .bin .add, a := 48, b := 48, count := 2, d := 30, dv := true, dadv := true }
def seg (t : Tag) (v : Nat) : Seg := ⟨BitVec.ofNat 2048 v, t⟩
def vcvtUp : VecOp := { vblank with kind := .cvt .int32 1 false, a := 0, aadv := true, count := 32 }

def adding : State := iterating vadd2 1 fun k => { k with q := vset k.q 0 ⟨[seg .int8 0x7F], []⟩ }
theorem witness_VectorIterationsPushResults :
    (Iterates adding vadd2 1 ∧ plainKind vadd2.kind = true ∧ (vadd2.dv = true → BankOn (mine adding) (vadd2.dest 1))
     ∧ (vecResult vadd2 1 (seg .int8 0x7F) (seg .int8 0x7F) Seg.zero (vget (mine adding).h 0 Seg.zero)).isSome = true)
    ∧ vecResult vadd2 1 (seg .qn4 0) (seg .qn4 0) Seg.zero Seg.zero = none := by
  unfold Iterates BankOn
  decide +kernel
theorem witness_operands_are_there : Operand (mine adding) vadd2.kind.usesA vadd2.a vadd2.aadv 1 (seg .int8 0x7F)
    ∧ Operand (mine adding) (readsB vadd2 1) vadd2.b vadd2.badv 1 (seg .int8 0x7F)
    ∧ Operand (mine adding) vadd2.kind.usesC vadd2.c vadd2.cadv 1 Seg.zero :=
  ⟨by unfold Operand Source BankOn; decide +kernel, by unfold Operand Source BankOn; decide +kernel, by unfold Operand Source BankOn; decide +kernel⟩
theorem witness_conversion_iterates :
    (let o := { vcvtUp with usedA := 31, tag0A := some .fp32 }
       let s := iterating o 31 fun k => { k with v := vset k.v 31 (seg .fp32 0x3F800000) }
       Iterates s o 31 ∧ o.kind = .cvt .int32 1 false ∧ o.tag0A = some (seg .fp32 0).tag ∧ Source (mine s) o.a o.aadv 31 (seg .fp32 0x3F800000)
       ∧ (seg .fp32 0).tag.count = Tag.int32.count ∧ Tag.int32.isScaled = false ∧ (seg .fp32 0).tag.code = (1 : BitVec 5).toNat
       ∧ (o.dv = true → BankOn (mine s) (o.dest 31))) := by
  unfold Iterates Source BankOn
  decide +kernel

/-- A VWR of one iteration from v0 to a tile of FP16 at the mapped page's last 256 bytes. -/
def vwr1 (code : Nat) : VecOp :=
  { vblank with kind := .write true, a := 0, desc := tile 0x1FF00 64 1 0 0 code 0 0 }
def run1 (ring : Option RingRef) : ReadRun := ⟨tile 0x10000 64 1 0 0 1 0 0, 0, 256, 1, 0, 0, ring, none, false, .none⟩
def queued (r : ReadRun) : State := put fun k => { mapped k with q := vset k.q 3 ⟨[], [r]⟩ }

theorem witness_VectorMemoryIterations :
    (let s := iterating (vwr1 2) 0 fun k => { mapped k with v := vset k.v 0 (seg .fp32 0x3F800000) }
     MemOk s ∧ Iterates s (vwr1 2) 0 ∧ Source (mine s) (vwr1 2).a (vwr1 2).aadv 0 (seg .fp32 0x3F800000)
     ∧ (tileD (vwr1 2).desc).tag = .fp16 ∧ (vwrAddr (vwr1 2) 0).toNat % 16 = 0 ∧ (mine s).landing = [])
    ∧ (let s := put fun k => { k with landing := [⟨y0, some 7, none⟩] }
       (mine s).landing = [⟨y0, some 7, none⟩] ∧ (mine s).raising = none ∧ (∀ w ∈ s.rstores, w.core ≠ s.cur.core.val)
       ∧ (∀ b ∈ s.bstores, b.core ≠ s.cur.core.val)
       ∧ ∃ b ∈ ({ s with bstores := [bstore0] } : State).bstores, b.core = s.cur.core.val)
    ∧ (let s := queued (run1 none)
       (vget (mine s).q 3 ⟨[], []⟩).runs = run1 none :: [] ∧ (mine s).stopped = false ∧ (mine s).raising = none ∧ ((mine s).stream .v).run ≠ .faulted
       ∧ (addrAt ((tileD (run1 none).desc).base + (run1 none).off) 0).toNat % 16 = 0)
    ∧ (let s := queued (run1 (some ring15))
       s.bad = [] ∧ ∀ a ∈ ring15.bytes 0 256, usable a = true)
    ∧ ends (check 0 .read 0x10000 256 (queued (run1 none))) (fun l s1 => match l with | [p] => p.page.cls == 0 && s1.bad == [] | _ => false) = true := by
  unfold MemOk Iterates Source BankOn
  decide +kernel
/-- The accesses of both: the VWR's 128 or 256 bytes, and the read run's 256. -/
theorem witness_vector_accesses :
    (let s := iterating (vwr1 2) 0 fun k => { mapped k with v := vset k.v 0 (seg .fp32 0x3F800000) }
     Writes s (vwrAddr (vwr1 2) 0) (vwrLen (vwr1 2) (seg .fp32 0x3F800000)) 0x2FF00)
    ∧ (let s := iterating (vwr1 1) 0 fun k => { mapped k with v := vset k.v 0 (seg .fp32 0x3F800000) }
       Writes s (vwrAddr (vwr1 1) 0) (vwrLen (vwr1 1) (seg .fp32 0x3F800000)) 0x2FF00)
    ∧ ∃ xs mem, Reads (queued (run1 none)) (addrAt ((tileD (run1 none).desc).base + (run1 none).off) 0) 256 xs mem :=
  ⟨⟨by decide +kernel, _, plain_of_tlb (pageOf 0x10000 0x20000 0) (by decide +kernel), by decide +kernel⟩,
    ⟨by decide +kernel, _, plain_of_tlb (pageOf 0x10000 0x20000 0) (by decide +kernel), by decide +kernel⟩,
    _, _, .inl ⟨by decide +kernel, rfl, _, plain_of_tlb (pageOf 0x10000 0x20000 0) (by decide +kernel), rfl⟩⟩

theorem witness_VectorResultElements : Tag.bf16.isFp = true ∧ Tag.uint8.isInt = true ∧ (Tag.fp32 ≠ Tag.int32) ∧ Tag.int8 ≠ .invalid
    ∧ Tag.fp16.permutable = true ∧ Tag.fp16 ≠ .e8m10 ∧ maskFor Tag.index16 .fp16 = true ∧ Tag.index16.isMask = true
    ∧ ((5 : BitVec 4).toNat < 6 ∧ (6 : BitVec 4).toNat < 7) := by decide +kernel

/-! The walker and the matrix stream. -/

/-- A of two rows and one column, dense INT8 at 0x1_0000; B of one row and four columns, CBF-B INT8 at 0x1_0400, its element 5 in column 2. -/
def descA : BitVec 256 := tile 0x10000 1 2 1 16 9 0 0
def descB : BitVec 256 := tile 0x10400 4 1 0 0 9 1 1
def sparseMem : List Host.Cell :=
  memWrite [] 0x20400 ([1, 9, 0xBF, 0xC0] ++ leBytes 4 0 ++ leBytes 4 1 ++ leBytes 4 4 ++ leBytes 4 1 ++ leBytes 4 1 ++ leBytes 8 80
    ++ leBytes 16 3 ++ leBytes 4 1 ++ [0, 0xC1] ++ leBytes 6 0 ++ leBytes 4 16 ++ leBytes 8 4 ++ [5])
def withAB (k : Core) : Core := { ringed (mapped k) with d := vset (vset k.d 3 descA) 4 descB }
def walkF : WalkF := ⟨3, 4, true, 7⟩
def walk0 (waiting : Bool) : Walk := walkOp .dense y0 walkF waiting (withAB State.reset.cores[0])
def spr0 : MatOp := { MatOp.blank State.reset.cores[0] y0 (.spr 1) with started := false, cc := some 7 }
/-- Core 0 with walk `w` and matrix operation `o` on their running streams. -/
def arrays (w : EngineOp) (o : EngineOp) (f : Core → Core) : State :=
  { put (fun k => f (((withAB k).modStream .w fun x => { x with run := .run, op := w }).modStream .m fun x => { x with run := .run, op := o })) with
    mem := sparseMem }
def int8Tile (k : Core) : Core := { k with z := vset k.z 1 ⟨.int8, .int8, .canon, 0, []⟩ }

def listing : State := arrays .none .none fun k => { k with wcfg := { k.wcfg with mode := true, cbh := 15 } }
theorem witness_WalksIssueAndPrepareRounds : (mine listing).popReady .w y0 = true ∧ (mine listing).ccRoom (ccOf true 7) = true
    ∧ (mine listing).wcfg.mode = true ∧ (cbAt listing 0 (mine listing).wcfg.cbh).valid = true ∧ (mine (arrays .none .none id)).wcfg.mode = false := by
  decide +kernel
theorem witness_walk_descriptors_are_accepted : WalkOk .dense descA descB ∧ WalkOk .bmap descB (tile 0x10400 4 4 0 0 9 1 1)
    ∧ (mine listing).readD 3 = descA ∧ (mine listing).readD 4 = descB := by
  refine ⟨?_, ?_, by decide +kernel, by decide +kernel⟩ <;> unfold WalkOk DescOk <;> decide +kernel
def spr1 : MatOp := { spr0 with cc := none }
/-- An MSPR waits; the walk that issues next finds it. -/
def meeting : State := arrays .none (.mat spr1) fun k => { int8Tile k with d := vset (vset k.d 3 descB) 4 (tile 0x10400 4 4 0 0 9 1 1) }
theorem witness_walk_and_mspr_may_meet : MayMeet (mine (arrays (.walk (walk0 true)) (.mat spr0) int8Tile)) (walk0 true) spr0 1
    ∧ MayMeet (mine meeting) (walkOp .bmap y0 walkF true (mine meeting)) spr1 1 ∧ (mine meeting).wcfg.mode = false ∧ (mine meeting).popReady .w y0 = true := by
  refine ⟨⟨by decide +kernel, by decide +kernel, by decide +kernel, by decide +kernel, by decide +kernel, by decide +kernel, by decide +kernel, ?_, ?_⟩,
    ⟨by decide +kernel, by decide +kernel, by decide +kernel, by decide +kernel, by decide +kernel, by decide +kernel, by decide +kernel, ?_, ?_⟩,
    by decide +kernel, by decide +kernel⟩
  · unfold WalkOk DescOk; decide +kernel
  · unfold SparseOk; decide +kernel
  · unfold WalkOk DescOk; decide +kernel
  · unfold SparseOk; decide +kernel
theorem witness_rounds_have_pairs :
    let s := arrays (.walk (walk0 false)) .none id
    (walk0 false).waiting = false ∧ (walk0 false).ready = [] ∧ (walk0 false).cfg.mode = false ∧ (walk0 false).cfg.chk = false
    ∧ ((mine s).flow).isNone = true ∧ ((mine s).stream .w).op = .walk (walk0 false) ∧ (walk0 false).ended = false
    ∧ (mine s).stopped = false ∧ (mine s).raising = none ∧ ((mine s).stream .w).run = .run ∧ (walk0 false).recount = false
    ∧ ends (walkTiles 0 (walk0 false) s) (fun x s1 => ends (roundRows 0 (walk0 false) x 0 (windowRows (walk0 false)) s1) fun p _ => p.1.length == 2) = true
    ∧ ends (walkTiles 0 (walk0 false) s) (fun x s1 => ends (roundRows 0 (walk0 false) x 1 (windowRows (walk0 false)) s1) fun p _ => p.1.length == 0) = true := by
  decide +kernel

/-- B without rows or blocks, and its header. -/
def descB0 : BitVec 256 := tile 0x10400 4 0 0 0 9 1 0
def blockless : Walk := { walk0 false with descB := descB0 }
def blocklessState : State :=
  { arrays (.walk blockless) .none id with
    mem := memWrite [] 0x20400 ([1, 9, 0xBF, 0xC0] ++ leBytes 8 0 ++ leBytes 4 4 ++ leBytes 8 0 ++ leBytes 8 32) }
theorem witness_a_walk_without_blocks : MayPrepare blocklessState blockless ∧ blockless.cfg.chk = false ∧ (tileD blockless.descA).kind = 0
    ∧ (tileD blockless.descB).nblk = 0 ∧ HeadReads blocklessState (tileD blockless.descB) := by
  refine ⟨⟨by decide +kernel, by decide +kernel, by decide +kernel, by decide +kernel, by decide +kernel, by decide +kernel, ?_,
    by decide +kernel⟩, by decide +kernel, by decide +kernel, by decide +kernel, by decide +kernel, _,
    plain_of_tlb (pageOf 0x10000 0x20000 0) (by decide +kernel), ?_⟩
  · intro f h
    have : (mine blocklessState).flow = none := by decide +kernel
    rw [this] at h; cases h
  · unfold HeadOk; decide +kernel

def listWalk (ready : List Pair) (records : Nat) : Walk :=
  { walk0 false with cfg := ⟨true, false, false, 15, 0, 0⟩, ready := ready, records := records, ended := ready.isEmpty }
def pair0 (seq : Nat) (skipped : Bool) : Pair := ⟨127, 0, 3, 0, 0, seq, 0, skipped, [⟨2, 5, 0, 0, none⟩]⟩
/-- A flow at its first step: a pair on lane 127 about to complete, four in its row queue and 32 in the overflow queue. -/
def flow0 (walkDone : Bool) : Flow :=
  ⟨⟨false, true, false, 0, 0, 0⟩, .int8, .int8, 0, 37, walkDone,
    if walkDone then [] else [(127, (List.range 4).map fun i => pair0 (1 + i) false)],
    if walkDone then [] else (List.range 32).map fun i => pair0 (5 + i) false,
    if walkDone then [] else [⟨127, pair0 0 false, 1⟩], [], [], none, false⟩
/-- Core 0's cluster runs the flow: the core has the lease and the cluster the power token. -/
def flowing (d : Bool) : State :=
  modCluster (arrays .none (.mat { spr0 with started := true }) fun k => { int8Tile k with flow := some (flow0 d) }) 0
    fun l => { l with holder := some 0, token := true }

theorem witness_PairsFlowAndRecordsAreWritten :
    (let w := listWalk [pair0 0 true] 15
     let s := arrays (.walk w) .none id
     w.cfg.mode = true ∧ w.ready = pair0 0 true :: [] ∧ (pair0 0 true).skipped = true ∧ (mine s).stopped = false
     ∧ (pair0 0 false).skipped = false ∧ MemOk s ∧ (cbAt s 0 15).valid = true ∧ (w.records % 16 = 0 → 1 ≤ (cbAt s 0 15).free)
     ∧ (cbAt s 0 15).slotsz.toNat / 16 = 16
     ∧ ∀ i, i < 16 → usable ((cbAt s 0 15).base.toNat + (cbAt s 0 15).head.toNat % 2 * 256 + 16 * 15 + i) = true)
    ∧ 1 ≤ (cbAt (arrays .none .none id) 0 15).free
    ∧ (listWalk [] 16).ended = true ∧ (listWalk [] 16).records % 16 = 0
    ∧ ((mine (flowing false)).flow = some (flow0 false) ∧ sprTile (mine (flowing false)) = some 1 ∧ (flow0 false).walkDone = false
       ∧ (∀ w ∈ (flow0 false).lanes, ∀ x ∈ w.pair.brow, x.flaw = none) ∧ (∀ p ∈ (flow0 false).spill, ∀ x ∈ p.brow, x.flaw = none)
       ∧ ((flow0 false).lanes.filter fun w => w.left ≤ 1).length = 1 ∧ (flow0 false).spill.length = 32)
    ∧ flowHolds (flowing false) 0 = true ∧ flowHolds (flowing true) 0 = true
    ∧ (mine (put fun k => { k with wantLease := some 4096 })).wantLease ≠ none
    ∧ ((flow0 true).walkDone = true ∧ (flow0 true).drained = true ∧ ({ spr0 with started := true } : MatOp).started = true) := by
  unfold MemOk
  decide +kernel
theorem witness_row_queues_are_full : (∀ l, ∀ p ∈ (flow0 false).queue l, ∀ x ∈ p.brow, x.flaw = none) ∧ ∀ l, ((flow0 false).queue l).length ≤ 4 := by
  constructor <;> intro l <;> by_cases h : l = 127
  · subst h; decide +kernel
  · simp [Flow.queue, flow0, kget, Ne.symm h]
  · subst h; decide +kernel
  · simp [Flow.queue, flow0, kget, Ne.symm h]

def mat0 (kind : MatKind) : MatOp := MatOp.blank State.reset.cores[0] y0 kind
/-- A cluster whose array core `c` holds, its power token there or not. -/
def leased (c : Option Nat) (token : Bool) (s : State) : State :=
  { s with clusters := vset s.clusters 0 { Cluster.reset with holder := c, token := token } }
def mcfg0 : McfgF := ⟨1, 0, 0, 9, 12⟩

theorem witness_MatrixStateInstructions :
    ((mine State.reset).popReady .m y0 = true ∧ (clusterAt State.reset (clusterOf 0)).holder ≠ some 0)
    ∧ (let s := modCore State.reset 511 fun k => k.modStream .m fun x => { x with run := .run, op := .mat (mat0 (.lease 16)) }
       (clusterAt s 127).holder = none ∧ 8 ≤ (clusterAt s 127).sinceEnd ∧ 4 * 127 + ((clusterAt s 127).last + 1 + 3) % 4 = 511
       ∧ ((coreAt s 511).stream .m).op = .mat (mat0 (.lease 16)) ∧ askedLease (coreAt s 511) = some 16
       ∧ ∀ j, j < 3 → askedLease (coreAt s (508 + j)) = none)
    ∧ (let s := { State.reset with clusters := vset State.reset.clusters 0 { Cluster.reset with sinceEnd := 7 } }
       (clusterAt s 0).holder = none ∧ (clusterAt s 0).sinceEnd < 8)
    ∧ (clusterAt (leased (some 0) false State.reset) (clusterOf 0)).holder = some 0
    ∧ (matrixOperand (Tag.ofCode mcfg0.atag.toNat) = true ∧ matrixOperand (Tag.ofCode mcfg0.btag.toNat) = true
       ∧ (pairKind (Tag.ofCode mcfg0.atag.toNat) (Tag.ofCode mcfg0.btag.toNat)).isSome = true ∧ (mine State.reset).sr.verify = false)
    ∧ (let s := put fun k => k.modStream .m fun x => { x with run := .run, op := .mat (mat0 (.zero 1 0)) }
       ((mine s).stream .m).op = .mat (mat0 (.zero 1 0)) ∧ (mat0 (.zero 1 0)).kind = .zero 1 0 ∧ (mine s).stopped = false ∧ (mine s).raising = none)
    ∧ (mine State.reset).planeLoad = none
    ∧ (let s := { State.reset with clusters := vset State.reset.clusters 31 { Cluster.reset with waitToken := true }, dies := vset State.reset.dies 0 { Die.reset with tokens := [31] } }
       (clusterAt s 31).waitToken = true ∧ (clusterAt s 31).token = false ∧ (dieAt s (31 / 32)).tokens.contains (31 % 32) = true)
    ∧ (clusterAt (leased none true State.reset) 0).token = true := by decide +kernel

/-- INT8 operand tiles of 256 columns; a plane tile in a ring slot. -/
def plane0 : BitVec 256 := tile 0x10000 256 256 1 256 9 0 0
def mlds0 : MldsF := ⟨1, 3, 1, 256⟩
def mstr0 (n : Nat) : MstrF := ⟨1, 3, 1, BitVec.ofNat 8 n, 127⟩
def dense (f : Core → Core) : State := leased (some 0) true (put fun k => f { withD plane0 (int8Tile k) with tlb := (mapped k).tlb, w := vset k.w 0 ⟨.int8, [], []⟩ })
theorem rowsOk_none (t : TileD) (step : Int) (first count : Nat) (l : List (Option Nat)) : RowsOk t none step first count l := nofun
theorem rowsOk_some {t : TileD} {r : RingRef} {step : Int} {first count : Nat} {l : List (Option Nat)}
    (h : (l.all fun x => match x with
      | none => true
      | some n => (elemSpans t n).list.all fun e => r.holds (first * step + e.1) e.2 && r.holds ((first + count - 1 : Nat) * step + e.1) e.2) = true) :
    RowsOk t (some r) step first count l := by
  intro _ e _ n hn y hy i hi
  cases e
  have h1 := List.all_eq_true.mp (List.all_eq_true.mp h _ hn) y hy
  simp only [Bool.and_eq_true] at h1
  rcases hi with rfl | rfl
  · exact h1.1
  · exact h1.2

theorem witness_MatrixInstructionsIssue :
    (mine (dense id)).popReady .m y0 = true ∧ (mine (dense id)).planeLoad = none ∧ (mine (dense id)).ccRoom (ccOf true 7) = true
    ∧ HoldsLease (dense id) ∧ TokenOk (dense id) 65 ∧ TokenOk (leased (some 0) false (dense id)) 64
    ∧ (kofsOk .int8 (kofsOf ((mine (dense id)).readP .m 1)) = true ∧ (tileD plane0).tag = .int8)
    ∧ (let f : MconvF := ⟨1, 3, 1, 255, 0, 2, 2, 0, 0, 1, 1, 16, 14, true, 7⟩
       (f.kh1.toNat + 1) * (f.kw1.toNat + 1) * f.ch.toNat ≤ stepDepth (vget (mine (dense id)).z 1 Tile.zero).pair ∧ kofsOk .int8 f.ch.toNat = true)
    ∧ (let s := leased (some 3) false (dense id)
       (mine s).wantLease = none ∧ (clusterAt s (clusterOf 0)).holder ≠ some 0)
    ∧ (drainTag .int8 = true ∧ (vget (mine (dense id)).z 1 Tile.zero).tag ≠ .invalid ∧ (tileD plane0).kind = 0 ∧ (mine (dense id)).fusedNow = false)
    ∧ ((mine (dense id)).stream .w).op = .none := by
  unfold HoldsLease TokenOk
  decide +kernel
theorem witness_planes_and_rows_are_accepted :
    PlaneOk plane0 1 0 0 256 none ∧ PlaneOk (tile 0 64 256 1 64 9 0 0) 1 0 64 1 (some ring15) ∧ DenseOk (mine (dense id)) 1 plane0
    ∧ DescOk plane0 ∧ RingReady (dense id) long15 false ∧ RingReady (dense id) longNone true :=
  ⟨⟨by decide +kernel, by decide +kernel, by decide +kernel, by decide +kernel, by decide +kernel, rowsOk_none _ _ _ _ _⟩,
    ⟨by decide +kernel, by decide +kernel, by decide +kernel, by decide +kernel, by decide +kernel, rowsOk_some (by decide +kernel)⟩,
    ⟨by decide +kernel, by decide +kernel, fun _ => by decide +kernel, by decide +kernel, by decide +kernel, fun h => absurd h (by decide +kernel),
      by decide +kernel, fun p h => absurd h (by
        have e : (mine (dense id)).planeLoad = none := by decide +kernel
        rw [e]; exact nofun)⟩,
    by unfold DescOk; decide +kernel, fun _ => by decide +kernel, nofun⟩
theorem witness_mspr_meets_a_walk : MayMeet (mine (leased (some 0) true (arrays (.walk (walk0 true)) (.none) int8Tile))) (walk0 true) spr0 1 := by
  refine ⟨by decide +kernel, by decide +kernel, by decide +kernel, by decide +kernel, by decide +kernel, by decide +kernel, by decide +kernel, ?_, ?_⟩
  · unfold WalkOk DescOk; decide +kernel
  · unfold SparseOk; decide +kernel

def load0 : PlaneLoad := ⟨0, plane0, 0, 256, 0, none, none, link0, 0, y0, 255, 0, 0⟩
def step0 : MatOp := { mat0 (.str 1 127 1) with desc := plane0 }
def stepping : State := dense fun k => k.modStream .m fun x => { x with run := .run, op := .mat step0 }
/-- A drain of row 127 to one FP32 column; the tile's cells clear, or its first one poisoned. -/
def drn0 : MatOp := { mat0 (.drn 1 127 1 0) with desc := tile 0x1FFF0 1 1 4 16 1 0 0 }
def drained (poi : Bool) : State :=
  dense fun k => { (k.modStream .m fun x => { x with run := .run, op := .mat drn0 }) with
    z := vset k.z 1 ⟨.fp32, .fp32, .arrival, 0, if poi then [(32512, { Cell.zero with poi := true })] else []⟩ }
theorem witness_PlanesStepsAndDrains :
    (let s := dense fun k => { (k.modStream .m fun x => { x with run := .run }) with planeLoad := some load0 }
     (mine s).planeLoad = some load0 ∧ (mine s).stopped = false ∧ (mine s).raising = none ∧ load0.mpc < load0.ncol ∧ load0.mpc < 256)
    ∧ (let s := stepping
       ((mine s).stream .m).op = .mat step0 ∧ denseCount step0.kind = some 1 ∧ ((mine s).stream .m).mpc.toNat = 0)
    ∧ (let s := dense fun k => k.modStream .m fun x => { x with run := .run, op := .mat step0, mpc := 1 }
       1 ≤ ((mine s).stream .m).mpc.toNat)
    ∧ (let s := drained false
       ((mine s).stream .m).op = .mat drn0 ∧ drn0.landing = false ∧ ((mine s).stream .m).mpc.toNat = 0 ∧ MemOk s
       ∧ (tileD drn0.desc).tag.width ∈ [8, 16, 32, 64] ∧ (∀ j, j < 256 → ((vget (mine s).z 1 Tile.zero).cell (256 * (127 + 0) + j)).poi = false)
       ∧ drainCols (tileD drn0.desc) 0 = 1 ∧ drn0.fwd = none ∧ drainAligned (tileD drn0.desc) 0 = true)
    ∧ ((vget (mine (drained true)).z 1 Tile.zero).cell (256 * (127 + 0) + 0)).poi = true
    ∧ (let s := put fun k => k.modStream .m fun x => { x with op := .mat { drn0 with landing := true } }
       (mine s).raising = none ∧ (∀ w ∈ s.rstores, w.core ≠ 0) ∧ (∀ b ∈ s.bstores, b.core ≠ 0) ∧ remoteWritesOut s 0 .m = false) := by
  unfold MemOk
  decide +kernel
/-- A row of a plane or of a dense command that one TLB entry serves. -/
theorem rowReads_of_tlb {s : State} {d : TileD} {r : RowPlace} {ahead : List RowPlace} {l : List (Option Nat)} (t : TlbEntry)
    (hr : r.ring = none) (h : ((r :: ahead).all fun q => !isWindow q.at_) = true)
    (ha : plainAll s .read ((rowSpansOf d l).map fun e => (addrAt r.at_ e.1, e.2)) t = true) :
    ∃ xs, RowReads s d r ahead l xs s := by
  refine ⟨rowBuilt d l ((readBy s ((rowSpansOf d l).map fun e => (addrAt r.at_ e.1, e.2)) t).map (·.2)), fun q hq _ => by simpa using List.all_eq_true.mp h q hq, _, ?_, rfl⟩
  simp only [hr]
  exact ⟨_, accesses_of_tlb t ha, rfl⟩
/-- A row in a ring. -/
theorem rowReads_of_ring {s : State} {d : TileD} {r : RowPlace} {ahead : List RowPlace} {l : List (Option Nat)} {g : RingRef}
    (hr : r.ring = some g) (h : (ahead.all fun q => !isWindow q.at_) = true)
    (ha : ((rowSpansOf d l).all fun e => (g.bytes (r.off + e.1).toNat e.2).all fun pa => usable pa && !flawed s pa) = true) :
    ∃ xs, RowReads s d r ahead l xs s := by
  refine ⟨rowBuilt d l (((rowSpansOf d l).map fun e => g.bytes (r.off + e.1).toNat e.2).map fun l => l.map (memGet s.mem)), ?_, _, ?_, rfl⟩
  · rintro q (_ | ⟨_, hq⟩) hn
    · rw [hr] at hn; cases hn
    · simpa using List.all_eq_true.mp h q hq
  · simp only [hr]
    refine ⟨trivial, ?_, trivial⟩
    intro x hx pa hp
    obtain ⟨e, he, rfl⟩ := List.mem_map.mp hx
    simpa using List.all_eq_true.mp (List.all_eq_true.mp ha e he) pa hp
/-- A plane load from a slot of a ring. -/
def slot0 : PlaneLoad := { load0 with desc := tile 0 64 256 1 64 9 0 0, ring := some ring15, ncol := 1, mpc := 0 }
theorem witness_rows_are_read :
    (let s := dense fun k => { (k.modStream .m fun x => { x with run := .run }) with planeLoad := some load0 }
     ∃ xs, ColumnReads s load0 xs s)
    ∧ (∃ xs, StepReads stepping step0 0 1 127 xs stepping)
    ∧ (∃ xs, ColumnReads (dense id) slot0 xs (dense id))
    ∧ ∃ pas, DrainPlaces (drained false) (rowPlace (tileD drn0.desc) none (rowStepOf (tileD drn0.desc) 0) 0)
        (drainOrder (tileD drn0.desc) 0 [0, 0, 0, 0]) pas (drained false) ∧ pas.Nodup := by
  refine ⟨?_, ?_, ?_, _, .inl ⟨_, accesses_of_tlb (pageOf 0x10000 0x20000 0) (by decide +kernel), rfl⟩, by decide +kernel⟩
  · obtain ⟨xs, h⟩ := rowReads_of_tlb (s := dense fun k => { (k.modStream .m fun x => { x with run := .run }) with planeLoad := some load0 })
      (d := tileD load0.desc) (r := rowPlace (tileD load0.desc) none (rowStepOf (tileD load0.desc) load0.step) (rowOf load0.p + 255))
      (ahead := (unitsAhead 255 256).map fun u => rowPlace (tileD load0.desc) none (rowStepOf (tileD load0.desc) load0.step) (rowOf load0.p + u))
      (l := rowRange (tileD load0.desc) 0 128) (pageOf 0x10000 0x20000 0) (by decide +kernel) (by decide +kernel) (by decide +kernel)
    exact ⟨xs, .inl h⟩
  · obtain ⟨xs, h⟩ := rowReads_of_tlb (s := stepping) (d := tileD step0.desc)
      (r := rowPlace (tileD step0.desc) step0.ring (rowStepOf (tileD step0.desc) step0.step) (rowOf step0.p + 0))
      (ahead := (unitsAhead 0 1).map fun u => rowPlace (tileD step0.desc) step0.ring (rowStepOf (tileD step0.desc) step0.step) (rowOf step0.p + u))
      (l := rowRange (tileD step0.desc) (kofsOf step0.p) (stepDepth (vget (mine stepping).z (1 : BitVec 1).toNat Tile.zero).pair)) (pageOf 0x10000 0x20000 0) (by decide +kernel) (by decide +kernel) (by decide +kernel)
    exact ⟨xs, .inl ⟨rfl, rfl, h⟩⟩
  · obtain ⟨xs, h⟩ := rowReads_of_ring (s := dense id) (d := tileD slot0.desc)
      (r := rowPlace (tileD slot0.desc) slot0.ring (rowStepOf (tileD slot0.desc) slot0.step) 0)
      (ahead := (unitsAhead 0 1).map fun u => rowPlace (tileD slot0.desc) slot0.ring (rowStepOf (tileD slot0.desc) slot0.step) u)
      (l := rowRange (tileD slot0.desc) 0 128) (g := ring15) (by decide +kernel) (by decide +kernel) (by decide +kernel)
    exact ⟨xs, .inl h⟩

/-! The copy engine. -/

/-- Source rows of 16 INT8 elements at 0x1_0000, destination rows at 0x1_8000, indices of INT32 at 0x1_F000. -/
def src0 : BitVec 256 := tile 0x10000 16 4 1 16 9 0 0
def dst0 : BitVec 256 := tile 0x18000 16 4 1 16 9 0 0
def idx0 : BitVec 256 := tile 0x1F000 4 1 4 16 22 0 0
def copyF : KF := { kf0 with ds := 3, dd := 4, count := 4, ccen := true, ccn := 7, w2 := 0x50000010, ckm := 1, cksel := 2, ckop := 3 }
def rawF : KF := { copyF with count := 1, w2 := 64, ckop := 1 }
def withCopy (k : Core) : Core := { ringed (mapped k) with d := vset (vset (vset k.d 3 src0) 4 dst0) 5 idx0 }
def copying (o : CopyOp) (f : Core → Core) : State :=
  put fun k => f ((withCopy k).modStream .k fun x => { x with run := .run, op := .copy o, mpc := BitVec.ofNat 32 o.unit })
def base0 : State := put withCopy
/-- A transfer with no ring side has no slots to keep to. -/
theorem heldIn_none {t : TileD} (h : t.ring = none) (l : List (Int × Nat)) : HeldIn t l := fun r hr => by rw [h] at hr; cases hr
theorem heldIn_some {t : TileD} {r : RingRef} {l : List (Int × Nat)} (h : t.ring = some r) (hl : (l.all fun e => r.holds e.1 e.2) = true) :
    HeldIn t l := fun q hq e he => by rw [h] at hq; cases hq; exact List.all_eq_true.mp hl e he
theorem ringsOk_none {o : CopyOp} (hs : o.src.ring = none) (hd : o.dst.ring = none) : RingsOk o := by
  have a : ∀ l, HeldIn o.src l := heldIn_none hs
  have b : ∀ l, HeldIn o.dst l := heldIn_none hd
  unfold RingsOk
  cases o.kind <;> simp only [RowsHeldIn, a, b, and_self, or_true, implies_true]

/-- A KIMG, to INT1 with the raw samples or to another tag with the normalisation block at 0x1_0040. -/
def imgF : KF := { kf0 with ds := 3, dd := 4, dfmt := 13, w2 := 0x8000 }
def normed : State := put fun k => let k := withCopy k; { k with p := vset k.p 3 (vset (vget k.p 3 (.replicate 16 0)) 3 0x10040) }
theorem witness_CopyInstructionsIssue :
    ((mine base0).popReady .k y0 = true ∧ (mine base0).ccRoom (ccOf true 7) = true)
    ∧ (match copyChecks (transferOf base0 .two y0 { copyF with count := 5 }) base0 with
       | .error (.exc e) _ => e.cause == .desc && e.addr == 0x10000
       | _ => false) = true
    ∧ (match copyChecks (transferOf base0 .copy y0 { rawF with sfmt := 2, ckop := 2 }) base0 with
       | .error (.exc e) _ => e.cause == .desc
       | _ => false) = true
    ∧ ((transferOf base0 .img y0 imgF).td = .int1 ∧ imgCode (BitVec.ofNat 5 (transferOf base0 .img y0 imgF).td.code) = true
       ∧ imgF.w2.getLsbD 15 = true ∧ imgF.cben = false)
    ∧ (let o := transferOf normed .img y0 { imgF with dfmt := 3 }
       imgCode (BitVec.ofNat 5 o.td.code) = true ∧ o.td ≠ .int1 ∧ (o.par 3).toNat % 8 = 0) := by decide +kernel
theorem witness_copy_checks_pass : CopyOk (transferOf base0 .copy y0 rawF) ∧ CopyOk (transferOf base0 .two y0 { copyF with ckop := 1 })
    ∧ CopyOk (transferOf base0 .gath y0 { copyF with ckop := 1 }) ∧ CopyOk (transferOf base0 .fill y0 { kf0 with dd := 4, count := 4 })
    ∧ CopyOk (transferOf base0 .view y0 { copyF with count := 1, w2 := 0, ckop := 1 }) ∧ CopyOk (transferOf base0 .img y0 imgF)
    ∧ CopyOk (transferOf normed .img y0 { imgF with dfmt := 3 })
    ∧ CopyOk (transferOf base0 .copy y0 { rawF with cben := true, cbh := 15, wait := 1 }) := by
  refine ⟨⟨?_, ?_, ?_, ringsOk_none (by decide +kernel) (by decide +kernel)⟩, ⟨?_, ?_, ?_, ringsOk_none (by decide +kernel) (by decide +kernel)⟩,
    ⟨?_, ?_, ?_, ringsOk_none (by decide +kernel) (by decide +kernel)⟩, ⟨?_, ?_, ?_, ringsOk_none (by decide +kernel) (by decide +kernel)⟩,
    ⟨?_, ?_, ?_, ringsOk_none (by decide +kernel) (by decide +kernel)⟩, ⟨?_, ?_, ?_, ringsOk_none (by decide +kernel) (by decide +kernel)⟩,
    ⟨?_, ?_, ?_, ringsOk_none (by decide +kernel) (by decide +kernel)⟩,
    ⟨?_, ?_, ?_, .inr (.inr ⟨heldIn_some (r := ring15) (by decide +kernel) (by decide +kernel), heldIn_none (by decide +kernel) _⟩)⟩⟩ <;>
    first
    | (unfold NamedOk SideOk; decide +kernel)
    | (refine ⟨fun _ => ⟨?_, ?_, ?_, ?_, ?_, ?_⟩, ?_, ?_⟩ <;> decide +kernel)
    | (unfold RangesOk; decide +kernel)
theorem witness_normalisation_is_read : ∃ xs mem, Reads normed ((transferOf normed .img y0 { imgF with dfmt := 3 }).par 3) 24 xs mem :=
  ⟨_, _, .inl ⟨by decide +kernel, rfl, _, plain_of_tlb (pageOf 0x10000 0x20000 0) (by decide +kernel), rfl⟩⟩
theorem witness_copy_slots_are_ready : RingReady base0 (ringWord { copyF with cben := true, cbh := 15, wait := 1 }) true ∧ RingReady base0 (ringWord copyF) false :=
  ⟨fun _ => by decide +kernel, nofun⟩

/-- One TLB entry serves a unit's read and its write. -/
theorem readOk_of_tlb {s : State} {a : Dword} {n : Nat} (t : TlbEntry) (h : plainAll s .read [(a, n)] t = true) : ∃ xs, ReadOk s a n xs s :=
  ⟨_, .inl ⟨_, accesses_of_tlb t h⟩⟩
theorem writeOk_of_tlb {s : State} {a : Dword} {n : Nat} (t : TlbEntry) (h : plainAll s .write [(a, n)] t = true) :
    WriteOk s a n (leafPage a t.leaf t.log2).pa s := .inl ⟨_, accesses_of_tlb t h⟩
theorem moves_of_tlb {s : State} {a b : Dword} {n m : Nat} (t : TlbEntry) (ha : plainAll s .read [(a, n)] t = true)
    (hb : plainAll s .write [(b, m)] t = true) : ∃ xs, Moves s s a n xs b m (leafPage b t.leaf t.log2).pa :=
  ⟨_, _, .inl ⟨_, accesses_of_tlb t ha⟩, memRead_length _ _ _, writeOk_of_tlb t hb⟩
def page0 : TlbEntry := pageOf 0x10000 0x20000 0
theorem unitBegins_of {s : State} {o : CopyOp} (hs : s.soft = []) (h : ((mine s).stream .k).op = .copy o ∧ (mine s).stopped = false
      ∧ (mine s).raising = none ∧ ((mine s).stream .k).run = .run ∧ o.finished = false ∧ o.unit < o.units
      ∧ remoteWritesOut s s.cur.core.val .k = false) : UnitBegins s o :=
  ⟨h.1, h.2.1, h.2.2.1, h.2.2.2.1, h.2.2.2.2.1, h.2.2.2.2.2.1, (by rw [hs]; nofun), h.2.2.2.2.2.2⟩
def two0 : CopyOp := { transferOf base0 .two y0 copyF with unit := 3 }
def one0 : CopyOp := transferOf base0 .copy y0 rawF
def gath0 : CopyOp := { transferOf base0 .gath y0 copyF with unit := 3 }
def pf0 : CopyOp := { transferOf base0 .pf y0 copyF with unit := 3 }
def fill0 : CopyOp := { transferOf base0 .fill y0 { kf0 with dd := 4, count := 4 } with unit := 3 }
def ended0 : CopyOp := { one0 with finished := true, f := { rawF with ckop := 3 } }
theorem witness_CopyUnitsMoveBytesAndComplete : UnitBegins (copying one0 id) one0 ∧ UnitBegins (copying two0 id) two0
    ∧ UnitBegins (copying fill0 id) fill0 ∧ UnitBegins (copying gath0 id) gath0 ∧ UnitBegins (copying pf0 id) pf0 := by
  refine ⟨?_, ?_, ?_, ?_, ?_⟩ <;> exact unitBegins_of (by decide +kernel) (by decide +kernel)
theorem witness_units_move_plain_bytes :
    (one0.raw = true ∧ one0.ringS = none ∧ one0.ringD = none ∧ MemOk (copying one0 id))
    ∧ (two0.raw = true ∧ two0.src.tag = two0.ts ∧ two0.dst.tag = two0.td ∧ 0 < two0.nel)
    ∧ (fill0.f.ckm = 0 ∧ 0 < fill0.nel ∧ fill0.dst.tag = fill0.td)
    ∧ ((tileD gath0.descI).tag = .int32 ∧ (tileD gath0.descI).kind = 0 ∧ (tileD gath0.descI).s0 = 4 ∧ (gath0.src.dim1 : Int) ≤ 0 + 4) := by
  unfold MemOk
  decide +kernel
theorem witness_unit_accesses :
    (∃ xs, Moves (atUnit (copying one0 id) one0) (atUnit (copying one0 id) one0) (addrAt one0.src.base (one0.offS 0)) 64 xs
      (addrAt one0.dst.base (one0.offD 0)) 64 0x28000)
    ∧ (∃ xs, Moves (atUnit (copying two0 id) two0) (atUnit (copying two0 id) two0) (rowAddr two0.src 3 0) 16 xs (rowAddr two0.dst 3 0) 16 0x28030)
    ∧ WriteOk (atUnit (copying fill0 id) fill0) (rowAddr fill0.dst 3 0) 16 0x28030 (atUnit (copying fill0 id) fill0)
    ∧ (let s := atUnit { copying gath0 id with mem := memWrite [] 0x2F00C [4] } gath0
       ∃ xs, ReadOk s 0x1F00C 4 xs s ∧ xs = [4, 0, 0, 0]) :=
  ⟨moves_of_tlb page0 (by decide +kernel) (by decide +kernel), moves_of_tlb page0 (by decide +kernel) (by decide +kernel),
    writeOk_of_tlb page0 (by decide +kernel), _, .inl ⟨_, accesses_of_tlb page0 (by decide +kernel)⟩, by decide +kernel⟩
theorem witness_rows_are_plain : PlainRows two0.src ∧ PlainRows two0.dst ∧ PlainRows fill0.dst := by unfold PlainRows; decide +kernel
theorem witness_transfers_complete :
    (let s := copying ended0 id
     ended0.finished = true ∧ copyLanded s 0 = true ∧ (mine s).stopped = false ∧ vget (mine s).k 0 0 = vget (mine s).k 2 0
     ∧ vget (mine s).k 1 0 = vget (mine s).k 3 0 ∧ ended0.compared = false ∧ ended0.f.ckop.getLsbD 1 = true)
    ∧ vget (mine (copying ended0 fun k => { k with k := vset k.k 3 1 })).k 3 0 ≠ vget (mine base0).k 1 0
    ∧ (let o := { ended0 with f := { rawF with ckw := true }, p15 := 0x1FFE0 }
       o.p15.toNat % 8 = 0 ∧ o.f.ckw = true ∧ o.compared = false ∧ MemOk (copying o id))
    ∧ (let o := { ended0 with compared := true }
       o.compared = true ∧ o.mismatch = false ∧ ({ o with mismatch := true } : CopyOp).mismatch = true)
    ∧ (let r : RemoteReq := ⟨0, .write, 0, .k, 0xFFC0500000000000, 64, 0, 0, [], 0, none, 64⟩
       r ∈ ({ copying ended0 id with fabric := { State.reset.fabric with waiting := [r] } } : State).fabric.waiting
       ∧ r.core = 0 ∧ r.st = .k ∧ r.kind = .write) := by
  unfold MemOk
  decide +kernel
theorem witness_chains_are_written_out :
    let o := { ended0 with f := { rawF with ckw := true }, p15 := 0x1FFE0 }
    WriteOk (copying o id) o.p15 32 0x2FFE0 (copying o id) := writeOk_of_tlb page0 (by decide +kernel)

/-- A list of one entry: 16 bytes at virtual 0x1_0080, or 65 lines from there, each of a bundle of its own. -/
def viewing (n : Nat) : State :=
  { copying (transferOf base0 .view y0 { copyF with count := 1, w2 := 0, ckm := 0, cksel := 0, ckop := 0 }) id with
    mem := memWrite [] 0x20000 (leBytes 8 0x10080 ++ leBytes 4 n)
    tags := (List.range 65).map fun i => (0x401 + i, ⟨1, BitVec.ofNat 24 i, 3, 0, 0, 0⟩) }
def view0 : CopyOp := transferOf base0 .view y0 { copyF with count := 1, w2 := 0, ckm := 0, cksel := 0, ckop := 0 }
def bundlesIn (es : List (Dword × List ViewPart)) : Nat :=
  (((es.flatMap (·.2)).filter fun p => p.tag.kind == 1).map (·.tag.bid)).eraseDups.length
/-- A list of one entry of 16 bytes, no line of it bundled. -/
def viewPlain : State := { viewing 16 with tags := [] }
theorem witness_plain_views :
    ViewBegins viewPlain view0 ∧ [((0x10080 : Dword), (16, 0))].length = view0.count ∧ (∀ e, kget viewPlain.tags e = none)
    ∧ ∃ out, Accesses .read viewPlain [(view0.src.base + view0.par 0 + BitVec.ofNat 64 (16 * 0), 16), (0x10080, 16)] out viewPlain
        ∧ (out.getD 0 (0, [])).2 = leBytes 8 0x10080 ++ leBytes 4 16 ++ leBytes 4 0 :=
  ⟨by unfold ViewBegins; decide +kernel, by decide +kernel, fun _ => rfl, _, accesses_of_tlb page0 (by decide +kernel), by decide +kernel⟩
/-- A TIFF file of one white pixel in one strip; the page whose BASE it stands at. -/
def tiff0 : List Byte :=
  let row (tag type value : Nat) : List Byte := leBytes 2 tag ++ leBytes 2 type ++ leBytes 4 1 ++ leBytes 4 value
  [0x49, 0x49, 0x2A, 0] ++ leBytes 4 8 ++ leBytes 2 6 ++ row 256 3 1 ++ row 257 3 1 ++ row 259 3 4 ++ row 262 3 0 ++ row 273 4 86 ++ row 279 4 1
    ++ leBytes 4 0 ++ [0x80]
def pageDesc : BitVec 256 := tile 0x10000 87 1 1 87 9 0 0
def img0 : CopyOp :=
  { transferOf base0 .img y0 { kf0 with ds := 3, dd := 4, w2 := 0x400000 } with held := [], descS := pageDesc }
/-- The file decodes whenever T.6 decodes its strip, to one pixel. -/
theorem witness_pages_decode (rows : List (List Bool)) (h : Config.t6Rows [0x80] 1 1 = .ok rows) :
    ∃ p, decodePage tiff0 = .ok p ∧ p.width = 1 ∧ p.height = 1 := by
  have e1 : (signatures.findIdx? fun g => agree tiff0 g == g.length) = some 3 := by decide +kernel
  have e2 : Machine.tiffPage tiff0 false = .ok ⟨1, 1, true, 1, [((0, 0), (1, 1), (86, 1))]⟩ := by decide +kernel
  have e3 : (tiff0.drop 86).take 1 = [0x80] ∧ 86 + 1 ≤ tiff0.length := by decide +kernel
  refine ⟨_, by simp only [decodePage, e1, decodeTiff, e2, bind, Except.bind, tiffRows, accept, e3, if_true, decide_true]; rw [if_neg (by decide), h]; rfl, rfl, rfl⟩
def job0 : PageJob := ⟨64, 32, 3, 8, 0, false, 16, []⟩
def decoding (o : CopyOp) : State :=
  { copying o id with dies := vset State.reset.dies 0 { Die.reset with decoders := [none, some 0], kimgQueue := [(5, 3), (9, 1)] } }
theorem witness_ViewsAndPages :
    (((mine (viewing 16)).stream .k).op = .copy view0 ∧ view0.unit < view0.units ∧ view0.placed = none
       ∧ ends (readEntries ⟨[], []⟩ view0 1 (viewing 16)) (fun es _ => bundlesIn es == 1) = true)
    ∧ ends (readEntries ⟨[], []⟩ view0 1 (viewing 8320)) (fun es _ => bundlesIn es == 65) = true
    ∧ (let s := decoding img0
       (vget s.dies 0 Die.reset).kimgQueue = (5, 3) :: [(9, 1)] ∧ (vget s.dies 0 Die.reset).decoders[0]? = some none
       ∧ (vget s.dies 0 Die.reset).decoders.length = 2 ∧ img0.page = none ∧ img0.finished = false
       ∧ (vget s.dies (dieOf 0) Die.reset).decoders.contains (some 0) = true ∧ img0.td ≠ .int1 ∧ img0.f.w2.getLsbD 15 = false
       ∧ img0.f.w2.toNat / 2 ^ 16 = 64)
    ∧ (let o := { img0 with page := some job0, units := 1, unit := 1 }
       o.units ≤ o.unit ∧ MemOk (decoding o))
    ∧ (let patches (k : Nat) : Nat := ((6400 * k + 1023) / 1024) * ((3200 * k + 1023) / 1024)
       patches 16 ≤ 5000 ∧ ∀ j, j ≤ 64 → 16 < j → 5000 < patches j) := by
  unfold MemOk
  decide +kernel
theorem witness_page_accesses :
    (let s := { decoding img0 with mem := memWrite [] 0x20000 tiff0 }
     PageBegins s img0 ∧ ∃ xs, ReadOk s img0.pageAt img0.src.dim0 xs s ∧ xs = tiff0)
    ∧ (let o := { img0 with page := some job0, units := 1, unit := 0 }
       ∃ pa, WriteOk (decoding o) (o.recordAt + BitVec.ofNat 64 (32 + o.unit * job0.cols * patchBytes o job0))
         ((List.range job0.cols).flatMap (patchEntry o job0 o.unit)).length pa (decoding o))
    ∧ (let o := { img0 with page := some job0, units := 1, unit := 1 }
       ∃ pa, WriteOk (decoding o) o.recordAt 32 pa (decoding o)) :=
  ⟨⟨by unfold PageBegins; decide +kernel, _, .inl ⟨_, accesses_of_tlb page0 (by decide +kernel)⟩, by decide +kernel⟩,
    ⟨_, writeOk_of_tlb page0 (by decide +kernel)⟩, _, writeOk_of_tlb page0 (by decide +kernel)⟩

/-! Pages (R304). Worked by hand: a DC coefficient of 16 is 2 in every sample, and 8 at u = 1 gives 2 cos(pi/4) cos(pi/16) = 1.387 in
column 0. By 5/3, 10, 1, 12, 0 become 9 = 10 - floor(4 / 4), 12 = 12 - floor(3 / 4), 11 = 1 + floor(21 / 2) and 12 = 0 + floor(24 / 2). -/

theorem test_jpeg_sample : jpegRound 128 [(1000000, idct (16 :: List.replicate 63 0) 3 5)] = 130
    ∧ jpegRound 128 [(1000000, idct (0 :: 8 :: List.replicate 62 0) 0 5)] = 129
    ∧ jpegRound 128 [(1000000, idct (0 :: 8 :: List.replicate 62 0) 7 5)] = 127 := by decide +kernel
theorem test_lifting_of_jpeg2000 : synth true 0 [10, 1, 12, 0] = [9, 11, 12, 12] := by decide +kernel
theorem test_unknown_pages_are_refused : (match decodePage [0x49, 0x49, 0x2B, 0] with | .ok _ => 9 | .error i => i) = 2 := by decide +kernel

/-! Host queues, graphs and grants. -/

/-- A queue whose next command is the second entry of a ring of two at host address 0x9000. -/
def queue0 : HostQueue :=
  { HostQueue.reset with
    shadow := ⟨2, 1, 0x9000, 2, 1, 0x7FF, 0xA000, 2, 0⟩, accepted := true, disabled := false, prod := 0, cons := 0xFFFFFFFF }
/-- Queue 63 of function `fn` as `x`, its command `cmd`, over regions `rs`; an item record may stand at virtual 0x3000_0000. -/
def commanded (fn : Nat) (x : HostQueue) (cmd : List Byte) (rs : List Region) : State :=
  { State.reset with
    fns := vset State.reset.fns fn { HostFn.reset with queues := vset HostFn.reset.queues 63 x, asidLo := 1, asidHi := 3 }
    hostMem := memWrite [] 0x9040 cmd, regions := rs
    mem := memWrite (memWrite bundleMem 0x10006000 (leBytes 8 0x500C7)) 0x41000 (leBytes 28 (2 * 2 ^ 192)) }
def command (op rid : Nat) (a : Nat) : List Byte := leBytes 1 op ++ leBytes 1 0 ++ leBytes 2 rid ++ leBytes 4 0 ++ leBytes 8 a ++ leBytes 48 0
def graphRun (executed : Nat) : GraphRun := ⟨0, 0, 7, 4095, [(4095, 2)], executed, 0, .none⟩
/-- The page of an access of the front end that the tables of a state make plain. -/
def frontNow (s : State) (asid : BitVec 11) (atS : Bool) (k : AccKind) (a : Dword) (n : Nat) : Option Page :=
  match walkTables s a asid with
  | .leaf _ e l =>
    let p := leafPage a (markLeaf e k) (levelLog2 l)
    if addressForm a && !isWindow a && decide (a.toNat % 65536 + n ≤ 65536) && leafPermits e atS k && p.cls == 0 && p.cidx == 0 && usable p.pa
      && usable (p.pa + n - 1) && ((List.range n).all fun i => !flawed s (p.pa + i)) then some p else none
  | _ => none
theorem front_of {s : State} {asid : BitVec 11} {atS : Bool} {k : AccKind} {a : Dword} {n : Nat} {p : Page}
    (h : frontNow s asid atS k a n = some p) : FrontAccess s asid atS k a n p := by
  unfold frontNow at h
  split at h
  · rename_i ent e l hw
    dsimp only at h
    split at h
    · rename_i hc
      cases h
      simp only [Bool.and_eq_true, Bool.not_eq_true', beq_iff_eq, decide_eq_true_eq, List.all_eq_true, List.mem_range] at hc
      obtain ⟨⟨⟨⟨⟨⟨⟨⟨h1, h2⟩, h3⟩, h4⟩, h5⟩, h6⟩, h7⟩, h8⟩, h9⟩ := hc
      exact ⟨h1, h2, h3, ⟨ent, e, l, hw, h4, rfl⟩, h5, h6, h7, h8, h9⟩
    · cases h
  · cases h
/-- A root of 128 cores over the first vault, in the layout of R325. -/
def rcb0 : List Byte :=
  leBytes 2 9 ++ leBytes 14 0 ++ leBytes 4 0x3FF ++ leBytes 2 2 ++ [7, 255] ++ leBytes 2 128 ++ leBytes 2 512 ++ leBytes 2 65535 ++ [7, 16]
    ++ leBytes 8 0x10000 ++ leBytes 24 0 ++ leBytes 8 0x80000000000 ++ leBytes 8 0x41000 ++ leBytes 8 0x42000 ++ leBytes 8 0
    ++ leBytes 8 0x43000 ++ leBytes 8 0x44000 ++ leBytes 16 0 ++ leBytes 4 65535
def adding9 (cmin : Nat) : State :=
  let s := commanded 1 queue0 (command 4 0 0x48000) [{ region0 with cmin := cmin, vault := 0 }]
  { s with mem := memWrite s.mem 0x48000 rcb0 }

theorem witness_HostQueuesExecuteCommands :
    ((fnAt State.reset 63).flr = false ∧ (queueAt State.reset 63 63).qcb.seq.getLsbD 0 = false ∧ qcbOk { queue0.shadow with seq := 4 } = true
       ∧ qcbOk { queue0.shadow with depth := 3 } = false ∧ ({ queue0 with qcb := { queue0.shadow with seq := 3 } } : HostQueue).qcb.seq.getLsbD 0 = true)
    ∧ (let s := commanded 63 { queue0 with reread := some 0, qcb := { queue0.shadow with seq := 4 } } [] []
       (queueAt s 63 63).reread = some 0 ∧ (now0 s - 0).toNat < 1024 ∧ (queueAt s 63 63).qcb.seq.getLsbD 0 = false ∧ qcbOk (queueAt s 63 63).qcb = true
       ∧ 1024 ≤ (now0 { s with dies := vset s.dies 0 { Die.reset with cyc := 1024 } } - 0).toNat)
    ∧ (let s := commanded 0 queue0 (command 1 0 0x30000000) [region0]
       (headCommand s 0 63).isSome = true ∧ (headCommand s 0 63).map (fun xs => field xs 0 1) = some 1 ∧ regionAt s 1 = some region0
       ∧ asidAllowed s 0 region0.asid.toNat = true
       ∧ stageOf region0 0 = some stage0)
    ∧ (match itemRecord region0 0x30000020 (commanded 0 queue0 (command 1 1 0x30000020) [region0]) with
       | .ok _ _ => false
       | .error _ _ => true) = true
    ∧ (let s := commanded 1 queue0 (command 3 1 0) [region0]
       regionAt s 1 = some region0 ∧ ¬((fnAt s 1).asidLo ≤ region0.asid.toNat ∧ region0.asid.toNat < (fnAt s 1).asidHi))
    ∧ (regionAt (commanded 1 queue0 (command 2 5 0) [region0]) 5 = none ∧ (queueAt (commanded 1 queue0 (command 2 5 0) [region0]) 1 63).removal = false) := by
  decide +kernel
theorem witness_commands_of_every_kind :
    (let s := commanded 0 queue0 (command 2 1 77) [{ region0 with run := some (graphRun 1) }]
     (headCommand s 0 63).map (fun xs => (field xs 0 1, operandAt xs 8)) = some (2, 77)
     ∧ ({ region0 with run := some (graphRun 1) } : Region).lastTrig ≠ some (now0 s))
    ∧ (let s := commanded 0 queue0 (command 2 1 77) [{ region0 with run := some (graphRun 0), lastTrig := some 0 }]
       (graphRun 0).since = now0 s ∧ region0.pendTrig = none ∧ some (0 : Dword) = some (now0 s))
    ∧ (let s := commanded 0 queue0 (command 5 1 0) [region0]
       region0.removing = false ∧ (∀ x ∈ s.regions, x.parent = 0 ∨ x.parent ≠ region0.rcb) ∧ removalReady s 1 = true)
    ∧ (let s := commanded 0 { queue0 with removal := true } (command 5 1 0) []
       (queueAt s 0 63).removal = true ∧ regionAt s 1 = none ∧ (headCommand s 0 63).isSome = true)
    ∧ (∀ x ∈ (adding9 384).regions, ¬(x.rid = leValue (physRead (adding9 384) 0x48000 2) ∧ x.rcb = 0x48000))
    ∧ (match judgeRcb (adding9 384) 1 0x48000 with
       | .ok r => r.rid == 9 && r.cmin == 128
       | .error _ => false) = true
    ∧ (match judgeRcb (adding9 385) 1 0x48000 with
       | .ok _ => false
       | .error e => e == 3) = true
    ∧ (let xs := leBytes 1 6 ++ leBytes 7 0 ++ leBytes 8 7 ++ leBytes 8 9 ++ leBytes 8 10 ++ leBytes 32 0
       (headCommand (commanded 0 queue0 xs []) 0 63) = some xs ∧ field xs 8 1 < 8 ∧ operandAt xs 24 ≠ 0)
    ∧ (headCommand (commanded 0 queue0 (command 7 0 0) []) 0 63).map (fun xs => field xs 0 1) = some 7
    ∧ (let s := commanded 63 { queue0 with waiting := some (0xFFFFFFFF, 5), cprod := 0, ccons := 0xFFFFFFFF } [] []
       (queueAt s 63 63).waiting = some (0xFFFFFFFF, 5) ∧ ((queueAt s 63 63).cprod - (queueAt s 63 63).ccons).toNat < (queueAt s 63 63).shadow.cdepth.toNat
       ∧ (queueAt s 63 63).shadow.cdepth.toNat ≤ ((0 : BitVec 32) - 0xFFFFFFFE).toNat)
    ∧ Memory.wf (commanded 63 queue0 (command 1 0 1) []).hostMem = true := by decide +kernel

/-- Region 1 stands at node 4,095 of its graph, which reads `node`. -/
def atNode (node : List Byte) (g : GraphRun) (r : Region) : State :=
  let s := commanded 0 queue0 [] [{ r with run := some g }]
  { s with mem := memWrite s.mem (0x43000 + 32 * 4095) node, dies := vset s.dies 0 { Die.reset with cyc := 1024 } }
def nodeBytes (kind : Nat) (next a b c : Nat) : List Byte := leBytes 1 kind ++ leBytes 3 0 ++ leBytes 4 next ++ leBytes 8 a ++ leBytes 8 b ++ leBytes 8 c
def stands (kind : Nat) (s : State) (g : GraphRun) : Bool := (nodeAt s region0 g).map (·.kind) == some kind
def header0 : List Byte :=
  leBytes 4 0xE7A50001 ++ leBytes 2 1 ++ leBytes 2 0 ++ leBytes 4 5 ++ leBytes 4 4 ++ leBytes 48 0 ++ leBytes 4 0xFFFFFFFF ++ leBytes 60 0
    ++ leBytes 4 0xFFFFFFFF ++ leBytes 60 0 ++ leBytes 4 0xFFFFFFFF ++ leBytes 60 0

/-- A LAUNCH of the image at virtual 0x3000_0000 on cores 0 and 1. -/
def starting : State :=
  let s := atNode (nodeBytes 1 8 0x49000 0 0) (graphRun 0) region0
  { s with mem := memWrite (memWrite (memWrite (memWrite s.mem 0x10006000 (leBytes 8 0x500CF))
      0x49000 (leBytes 8 0 ++ leBytes 8 0x30000000 ++ leBytes 8 0x49100)) 0x49100 [3]) 0x50000 header0 }
theorem witness_GraphsRunAndCoresAreGranted :
    (stands 0 (atNode (nodeBytes 0 0 0 0 0) (graphRun 1048575) region0) (graphRun 1048575) = true
       ∧ nodeAt (atNode (nodeBytes 0 0 0 0 0) (graphRun 1048576) region0) region0 (graphRun 1048576) = none)
    ∧ (let s := atNode (nodeBytes 2 8 3 4095 0) (graphRun 0) region0
       stands 2 s (graphRun 0) = true ∧ (nodeAt s region0 (graphRun 0)).map (fun n => n.arg0) = some 3 ∧ (kget (graphRun 0).counters 4095).getD 0 < 3)
    ∧ (let s := atNode (nodeBytes 3 8 0x30000008 0 0) (graphRun 0) region0
       stands 3 s (graphRun 0) = true ∧ (graphRun 0).since ≠ now0 s)
    ∧ stands 4 (atNode (nodeBytes 4 8 0 0 0) (graphRun 0) region0) (graphRun 0) = true
    ∧ stands 4 (atNode (nodeBytes 4 8 1 0x30000008 0) (graphRun 0) region0) (graphRun 0) = true
    ∧ (let s := atNode (nodeBytes 5 8 1 0x30000008 9) (graphRun 0) region0
       stands 5 s (graphRun 0) = true ∧ MemOk s)
    ∧ (stands 1 starting (graphRun 0) = true ∧ BitVec.ofNat 512 (leValue (physRead starting 0x49100 64)) ≠ 0) := by
  unfold MemOk; decide +kernel
/-- The accesses of the front end: an item's record, the word of a node, a header. -/
theorem witness_front_end_accesses :
    (let s := commanded 0 queue0 (command 1 0 0x30000000) [region0]
     ∃ pa s1, ItemOk s region0 0x30000000 pa s1 ∧ doorOpen (regionCost s1 region0).2 region0 (regionCost s1 region0).1 = true)
    ∧ (let r := { region0 with cost := 2 ^ 40 }
       let s := commanded 0 queue0 (command 1 1 0x30000000) [r]
       ∃ pa s1, ItemOk s r 0x30000000 pa s1 ∧ doorOpen (regionCost s1 r).2 r (regionCost s1 r).1 = false)
    ∧ (let s := atNode (nodeBytes 3 8 0x30000008 0 0) (graphRun 0) region0
       ∃ pa s1, WordOk s region0 .read 0x30000008 pa s1 ∧ s1.regions = s.regions)
    ∧ (let s := atNode (nodeBytes 5 8 1 0x30000008 9) (graphRun 0) region0
       ∃ pa s1, WordOk s region0 .write 0x30000008 pa s1 ∧ s1.regions = s.regions ∧ region0.trig + 8 ≤ pa)
    ∧ ∃ h s1, HeaderReads starting region0 0x30000000 h s1 ∧ headerOk h = true ∧ s1.regions = starting.regions :=
  ⟨⟨_, _, .inl ⟨by decide +kernel, ⟨_, front_of (p := ⟨0x50000, 0, 0, false, false⟩) (by decide +kernel), rfl⟩, rfl⟩, by decide +kernel⟩,
    ⟨_, _, .inl ⟨by decide +kernel, ⟨_, front_of (p := ⟨0x50000, 0, 0, false, false⟩) (by decide +kernel), rfl⟩, rfl⟩, by decide +kernel⟩,
    ⟨_, _, .inl ⟨by decide +kernel, ⟨_, front_of (p := ⟨0x50008, 0, 0, false, false⟩) (by decide +kernel), rfl⟩, rfl⟩, by decide +kernel⟩,
    ⟨_, _, .inl ⟨by decide +kernel, ⟨_, front_of (p := ⟨0x50008, 0, 0, false, false⟩) (by decide +kernel), rfl⟩, rfl⟩, by decide +kernel, by decide +kernel⟩,
    _, _, .inl ⟨rfl, _, front_of (p := ⟨0x50000, 0, 0, false, false⟩) (by decide +kernel), rfl⟩, by decide +kernel, by decide +kernel⟩
def launching : GraphRun := { graphRun 0 with wait := .launch 0x30000000 4 [511] [1, 2, 3, 4] 8 }
theorem witness_runs_launches_and_grants :
    (let g := { graphRun 0 with wait := .word 0x30000008 0 0 8 }
     let s := atNode (nodeBytes 4 8 1 0x30000008 0) g region0
     (regionAt s 1).map (·.run) = some (some g) ∧ 1024 ≤ (now0 s - 0).toNat
     ∧ (frontNow s 0 true .read 0x30000008 8).isSome = true ∧ (now0 s - 1).toNat < 1024)
    ∧ (let g := { graphRun 0 with wait := .operators 8 }
       g.launched = 0 ∧ ({ g with launched := 1 } : GraphRun).launched ≠ 0
       ∧ (regionAt (atNode [] g region0) 1).map (·.run) = some (some g))
    ∧ (regionAt (atNode [] launching region0) 1 = some { region0 with run := some launching } ∧ (coreAt (atNode [] launching region0) 511).shadow = none
       ∧ (coreAt (modCore State.reset 511 fun k => { k with shadow := some launch0 }) 511).shadow.isSome = true)
    ∧ (let x := { stage1 with cset := 1 <<< 384 }
       let r := { region0 with stages := [x, stage0], items := 1 }
       let s0 := { State.reset with regions := [r], mem := stageMem }
       384 / 128 = 3 ∧ coreFree (coreAt s0 384) = true ∧ wantsCore s0 r 384 = true ∧ heldCores s0 1 < r.cmin ∧ bestStage s0 r 384 = some 0)
    ∧ (let x := { stage0 with closed := true }
       let r := { region0 with stages := [x, stage0] }
       let s := { State.reset with regions := [r] }
       stageOf r 0 = some x ∧ x.closed = true ∧ x.head = x.tail ∧ stageHolds s 1 0 = false ∧ stageOf r 1 = some stage0)
    ∧ (∀ x ∈ (commanded 0 queue0 [] [region0, { region0 with rid := 2, fdom := 2 }]).regions, x.rid = region0.rid → x = region0) := by decide +kernel

/-! The fleet operator, the fabric and regrouping. -/

def fleet (f : Fleet → Fleet) : State := { State.reset with fleet := f Fleet.reset }
def fabric (f : Fabric → Fabric) : State := { State.reset with fabric := f Fabric.reset }
/-- Port 63 of a fabric as `p`, with the fabric changed by `f`. -/
def port63 (p : Port) (f : Fabric → Fabric) : State := fabric fun x => f { x with ports := vset x.ports 63 p }
def heated (n : Nat) (throttled : Bool) (cool : Option Dword) : State :=
  { State.reset with dies := vset (vset State.reset.dies 3 { Die.reset with ntok := n, throttled := throttled, cool := cool }) 0 { Die.reset with cyc := 0x1000000 } }

theorem witness_FleetRegistersAndReports :
    ((1 ≤ ((1 : BitVec 32) - (fleet id).fleet.evprod).toNat ∧ ((1 : BitVec 32) - (fleet id).fleet.evprod).toNat < 2 ^ 31)
       ∧ ¬(1 ≤ ((0 : BitVec 32) - (fleet id).fleet.evprod).toNat))
    ∧ (let s := heated 32 false none
       100000 < 110000 ∧ (dieAt s 3).ntok = 32 ∧ (s.regions.map (·.rid)).Nodup)
    ∧ (let s := heated 16 true (some 0)
       94999 < 95000 ∧ (dieAt s 3).throttled = true ∧ (dieAt s 3).cool = some 0 ∧ 2 ^ 24 ≤ (now0 s - 0).toNat)
    ∧ ((dieAt (heated 16 true none) 3).throttled = true ∧ (dieAt (heated 16 true none) 3).cool = none)
    ∧ ((1 : BitVec 64).getLsbD 0 = true ∧ (fleet fun x => { x with attBusy := true }).fleet.attBusy = true ∧ (fleet id).fleet.attBusy = false)
    ∧ (2 ^ 20 ≤ (fleet fun x => { x with attBusy := true, leaf := 1048576 }).fleet.leaf
       ∧ (fleet fun x => { x with leaf := 1048575, attbuf := 0xFFFFFFFFFFFFC000 }).fleet.attbuf.toNat + 16384 ≤ 2 ^ 64 ∧ MemOk (fleet id))
    ∧ ((now0 State.reset).toNat < (((kget State.reset.fleet.telemetry 0).getD 0 : Dword).toNat + 1) * 2 ^ 20
       ∧ (((kget State.reset.fleet.telemetry 0).getD 0 : Dword).toNat + 1) * 2 ^ 20 ≤ (now0 (heated 16 true none)).toNat)
    ∧ (let s := commanded 63 { queue0 with qcb := { queue0.shadow with seq := 3 } } [] []
       63 % 2 = 1 ∧ (queueAt s 63 63).qcb.seq.getLsbD 0 = true)
    ∧ (let s := commanded 63 { queue0 with qcb := { queue0.shadow with seq := 4, depth := 3 } } [] []
       (queueAt s 63 63).qcb.seq.getLsbD 0 = false ∧ qcbOk (queueAt s 63 63).qcb = false)
    ∧ (queueAt (commanded 63 { queue0 with removal := true } (command 5 1 0) []) 63 63).removal = true := by
  unfold MemOk
  decide +kernel
/-- No queue but the 64th of a function is in the middle of a command. -/
theorem witness_no_command_in_progress (fn : Nat) (hf : fn < 64) (x : HostQueue) (hx : x.removal = false) (cmd : List Byte) (rs : List Region) :
    ∀ n q, (queueAt (commanded fn x cmd rs) n q).removal = false := by
  intro n q
  have h0 : ∀ q, (vget HostFn.reset.queues q HostQueue.reset).removal = false := by
    intro q
    rcases Nat.lt_or_ge q 64 with h | h
    · revert q; decide +kernel
    · rw [vget_of_le _ _ _ h]; rfl
  unfold queueAt fnAt commanded
  by_cases hn : n = fn
  · subst hn
    rw [vget_vset_self _ _ _ _ hf]
    by_cases hq : q = 63
    · subst hq; rw [vget_vset_self _ _ _ _ (by decide)]; exact hx
    · rw [vget_vset_ne _ _ _ _ _ hq]; exact h0 q
  · rw [vget_vset_ne _ _ _ _ _ hn]
    have : vget State.reset.fns n HostFn.reset = HostFn.reset := by
      rcases Nat.lt_or_ge n 64 with h | h
      · clear hn; revert n; decide +kernel
      · rw [vget_of_le _ _ _ h]
    rw [this]; exact h0 q

theorem witness_ResetsAndInvalidations :
    ((0x80010001 : BitVec 64).getLsbD 31 = true ∧ (invAt State.reset 63).job = none ∧ (invAt State.reset 64).job = none
       ∧ (let s := commanded 63 queue0 [] []
          (fnAt s 63).asidLo ≤ 1 ∧ 1 < (fnAt s 63).asidHi ∧ ¬(3 < (fnAt s 63).asidHi)))
    ∧ (invAt { State.reset with gheahInv := { InvBlock.reset with job := some (3, 0, 0) } } 64).job = some (3, 0, 0)
    ∧ (let s := commanded 63 queue0 [] [region0]
       (∀ r ∈ s.regions, ¬((fnAt s 63).asidLo ≤ r.asid.toNat ∧ r.asid.toNat < (fnAt s 63).asidHi)))
    ∧ (let s := commanded 63 queue0 [] [{ region0 with asid := 1 }]
       ∃ r ∈ s.regions, (fnAt s 63).asidLo ≤ r.asid.toNat ∧ r.asid.toNat < (fnAt s 63).asidHi)
    ∧ (State.reset.regions = [] ∧ State.reset.fleet.attBusy = false ∧ State.reset.fabric.rgState = .idle) := by decide +kernel
/-- The invalidation of Gheah's block, begun while a store was on its way. -/
def invalidating (out : List BStore) : State :=
  { State.reset with gheahInv := { InvBlock.reset with job := some (3, 0, 0), before := ([bstore0], []) }, bstores := out }
theorem witness_invalidations : Performed (invalidating []) 64 ∧ ¬Performed (invalidating [bstore0]) 64
    ∧ Performed (commanded 63 queue0 [] [region0]) 63 ∧ (∀ fn, fn < 64 → Performed State.reset fn)
    ∧ (invAt (invalidating []) 64).job = some (3, 0, 0) := by
  unfold Performed; decide +kernel

/-- A port whose four bands are lit, up, with credit on both channels. -/
def lit : Band := { Band.off with lit := 15, width := 4, mask := 0xFFFF }
def upPort : Port :=
  { Port.reset with
    state := .up, peer := 5, bands := .replicate 4 lit, commTx := true, commRx := true, credit := .replicate 2 2048, rxMask := .replicate 4 0xFFFF }
/-- A read of 16 bytes at 0x3000_0000 of this chip from chip 5. -/
def read0 : Packet := ⟨1, 0, 0, 5, 0, 7, false, false, 0, 0x3000000, 0, 0, 15, 0, []⟩
def hdr0 : LinkHdr := { flitHdr 0 with kind := 1, nslot := 1 }
/-- Its flit; the CRC is worked a quarter of the body at a time. -/
def flit0 : BitVec 1536 := flitOf hdr0 [packetHead read0]
def body0 : List Byte := leBytes 8 (linkWord hdr0).toNat ++ padTo 176 ([packetHead read0].flatMap fun x => leBytes 16 x.toNat)
theorem crc_part (xs : List Byte) (n v w : Nat) (h : (xs.take n).foldl crc64Byte v = w) : xs.foldl crc64Byte v = (xs.drop n).foldl crc64Byte w := by
  rw [← h, ← List.foldl_append, List.take_append_drop]
theorem crc_body0 : crc64 body0 = BitVec.ofNat 64 (263148486458024567 ^^^ (2 ^ 64 - 1)) := by
  unfold crc64
  rw [crc_part body0 46 _ 16423651064120615516 (by decide +kernel), crc_part _ 46 _ 1721634689779494311 (by decide +kernel),
    crc_part _ 46 _ 10176591699845131067 (by decide +kernel), crc_part _ 46 _ 263148486458024567 (by decide +kernel)]
  rfl
theorem flit0_eq : flit0 = BitVec.ofNat 1536 (leValue (body0 ++ leBytes 8 (263148486458024567 ^^^ (2 ^ 64 - 1)))) := by
  show BitVec.ofNat 1536 (leValue (body0 ++ leBytes 8 (crc64 body0).toNat)) = _
  rw [crc_body0]; rfl
/-- The flit is good; with another CRC it is not. -/
theorem witness_flits_are_good_or_bad : flitGood flit0 = true ∧ flitGood (flit0 ^^^ (1#1536 <<< 1535)) = false := by
  rw [flit0_eq]; decide +kernel

/-- A LINKID packet, which stays on its link. -/
def linkid0 : Packet := { read0 with ptype := 8, aux := 5, data := [0] }
theorem witness_LinksSendReceiveAndReplay :
    (let o : OutPacket := ⟨{ read0 with dst := 5, src := 0 }, [packetHead read0], 0⟩
     let p := { upPort with out := [o] }
     p.state = .up ∧ p.again = [] ∧ p.replay.length < 2048 ∧ (fabric id).fabric.silenced = false ∧ o.left ≠ [] ∧ o.left.length ≤ 11
     ∧ o.left.length ≤ vget p.credit o.pkt.vc.toNat 0 ∧ (∀ i, i < 4 → (p.bandAt i).usable = true) ∧ p.vigils = [] ∧ p.commTx = true
     ∧ p.commRx = true ∧ p.mgmt = [])
    ∧ (let o : OutPacket := ⟨linkid0, [packetHead linkid0, 0], 0⟩
       let p := { upPort with state := .dark, mgmt := [o] }
       p.state = .dark ∧ linkLocal o.pkt = true ∧ p.again = [] ∧ p.vigils = [] ∧ p.replay.length < 2048 ∧ o.left ≠ [] ∧ o.left.length ≤ 11
       ∧ o.left.length ≤ vget p.credit o.pkt.vc.toNat 0 ∧ (∀ i, i < 4 → (p.bandAt i).usable = true))
    ∧ (let s := port63 { upPort with sinceSend := 127 } id
       (portAt s 63).sendNext s = none ∧ 127 ≤ (portAt s 63).sinceSend ∧ (portAt s 63).freeBand.isSome = true)
    ∧ (let p := { upPort with gap := 256, sinceRpl := 1024, replay := [⟨0, 0⟩], sinceAck := 8192, fruitless := 62, silent := 65536 }
       256 ≤ p.gap ∧ 1024 ≤ p.sinceRpl ∧ p.replay ≠ [] ∧ 8192 ≤ p.sinceAck ∧ p.fruitless < 63 ∧ 2 ^ 16 ≤ p.silent)
    ∧ (upPort.sinceAck < 8192 ∧ upPort.silent < 2 ^ 16 ∧ { upPort with sinceRpl := 1023 }.sinceRpl < 1024)
    ∧ (vget upPort.rxMask 3 0 &&& 0x8000 ≠ 0 ∧ (upPort.bandAt 3).width ≠ 0 ∧ (upPort.bandAt 3).lit &&& wholeModules 0x00F0 ≠ 0)
    ∧ (let p := { upPort with bands := vset upPort.bands 3 { lit with relock := some 0 } }
       (p.bandAt 3).relock = some 0 ∧ p.state = .up ∧ ∀ i, i < 4 → (p.bandAt i).failed ≠ 15)
    ∧ (fabric id).fabric.rgState = .idle ∧ ((lanesOf 0xFF0F)[11]? = some 15 ∧ 3 * (lanesOf 0xFF0F).length + 11 < 48) := by decide +kernel

theorem replicate_full {α : Type} (n : Nat) (x : α) : n ≤ (List.replicate n x).length := by simp
theorem witness_flits_arrive :
    ((flitHdr flit0).kind = 1 ∧ (flitHdr flit0).rpl = false ∧ ((flitHdr flit0).seq - upPort.rxE).toNat = 0
       ∧ packetGood read0 = true ∧ packetGoal read0 = (fabric id).fabric.group.self ∧ read0.data.length = dataSlots read0
       ∧ (flitSlots flit0).take (flitHdr flit0).nslot = packetHead read0 :: read0.data ∧ read0.ptype ≠ 8 ∧ upPort.window = [] ∧ upPort.slots = [])
    ∧ 2 ^ 23 ≤ ((flitHdr flit0).seq - { upPort with rxE := 1 }.rxE).toNat
    ∧ (((flitHdr flit0).seq - { upPort with rxE := 0xFFFFC1 }.rxE).toNat = 63 ∧ ((flitHdr flit0).seq - { upPort with rxE := 0xFFFFFF }.rxE).toNat = 1) := by
  rw [flit0_eq]; decide +kernel
theorem witness_replay_buffer_is_full : 2048 ≤ ({ upPort with replay := List.replicate 2048 ⟨0, 0⟩ } : Port).replay.length :=
  replicate_full 2048 _

/-- A page of virtual 0x3000_0000 that may be reached by other chips, and a request that has been delivered. -/
def serving (p : Packet) (extra : Nat) : State :=
  { fabric fun x => { x with rxPackets := [p] } with mem := memWrite bundleMem 0x10006000 (leBytes 8 (0x500C7 + extra)) }
def req0 (k : ReqKind) (st : StreamId) : RemoteReq := ⟨7, k, 511, st, 0xFFC0050030000000, 16, 0, 0, [], 0, none, 0⟩
def answered0 (p : Packet) (r : RemoteReq) (f : Core → Core) : State :=
  { modCore State.reset 511 (fun k => f { k with op := some op0 }) with fabric := { Fabric.reset with rxPackets := [p], inFlight := [r] } }
def five : Member := ⟨5, 1, 0, 0, false⟩
def grouped (f : Fabric → Fabric) : State := fabric fun x => f { x with group := { x.group with members := x.group.members ++ [five] } }

theorem witness_RemoteRequestsAreServed :
    (let s := grouped fun x => { x with waiting := [req0 .read .v] }
     s.fabric.waiting.find? (fun r => (windowChip r.addr).toNat == 5) = some (req0 .read .v) ∧ s.fabric.frz = false ∧ inGroup s 5 = true
     ∧ s.fabric.silenced = false ∧ capAllows s (req0 .read .v) = true
     ∧ (peerOf s.fabric 5).outBytes + requestSize (req0 .read .v) ≤ (peerOf s.fabric 5).allow ∧ (peerOf s.fabric 5).trip = none)
    ∧ (let s := grouped fun x => { x with peers := [{ Peer.fresh 5 with outBytes := 4194300 }] }
       (peerOf s.fabric 5).allow < (peerOf s.fabric 5).outBytes + requestSize (req0 .read .v))
    ∧ (let s := { modCore State.reset 511 (fun k => { k with op := some op0 }) with fabric := { Fabric.reset with waiting := [req0 .write .c] } }
       inGroup s 5 = false ∧ (coreAt s 511).op.isSome = true ∧ (coreAt s 511).stopped = false ∧ capAllows s (req0 .write .c) = true)
    ∧ (let s := { modCore State.reset 511 (fun k => { k.modStream .v (fun x => { x with run := .run, op := .vec vblank }) with op := some op0 }) with
         fabric := { Fabric.reset with waiting := [req0 .read .v] } }
       inGroup s 5 = false ∧ takesFault (coreAt s 511) .v = true ∧ capAllows s (req0 .read .v) = true)
    ∧ (let s := serving read0 0x100
       packetNext s read0 1 = true)
    ∧ packetNext (serving read0 0) read0 1 = true
    ∧ (match serveRead read0.asid (packetWindow read0) (packetBytes read0) (serving read0 0) with
       | .error (.exc e) _ => e.cause == .remote
       | _ => false) = true
    ∧ (let p := { read0 with ptype := 3, soff := 3, data := [0x112233445566778899AABBCCDDEEFF00] }
       let s := serving p 0x100
       packetNext s p 3 = true ∧ p.aux = 0 ∧ p.soff.toNat + packetBytes p ≤ 16 * p.data.length ∧ MemOk s ∧ s.fabric.remembered = []
       ∧ awaitsLanding s p = false ∧ awaitsLanding { s with bstores := [{ bstore0 with ack := some p }] } p = true
       ∧ ∃ x ∈ [(⟨5, 7, 0, false⟩ : Remembered)], x.src = p.src ∧ x.tag = p.tag)
    ∧ (let p := { read0 with ptype := 5, eoff := 7, data := [5] }
       let s := serving p 0x100
       packetNext s p 5 = true ∧ s.fabric.remembered = []) := by
  unfold MemOk
  decide +kernel
theorem witness_accesses_at_the_target :
    (∃ xs s1, ReadsFor (serving read0 0x100) read0 xs s1)
    ∧ (∃ pg, FrontAccess (serving read0 0) 0 false .read (BitVec.ofNat 64 (packetOffset read0)) (packetBytes read0) pg ∧ pg.exp = false)
    ∧ (let p := { read0 with ptype := 3, soff := 3, data := [0x112233445566778899AABBCCDDEEFF00] }
       ∃ pg, TargetAccess (serving p 0x100) p .write (packetBytes p) pg)
    ∧ (let p := { read0 with ptype := 5, eoff := 7, data := [5] }
       ∃ old s1, PerformsFor (serving p 0x100) p old s1) :=
  ⟨⟨_, _, .inl ⟨rfl, ⟨0x50000, 0, 0, false, true⟩, ⟨front_of (by decide +kernel), rfl⟩, rfl⟩⟩,
    ⟨⟨0x50000, 0, 0, false, false⟩, front_of (by decide +kernel), rfl⟩,
    ⟨⟨0x50003, 0, 0, false, true⟩, front_of (by decide +kernel), rfl⟩,
    ⟨_, _, .inl ⟨⟨0x50000, 0, 0, false, true⟩, ⟨front_of (by decide +kernel), rfl⟩, rfl, ⟨0x50000, 0, 0, false, true⟩,
      ⟨front_of (by decide +kernel), rfl⟩, rfl⟩⟩⟩
theorem witness_answers_reach_their_makers :
    (let p := { read0 with ptype := 4, dst := 5, src := 0 }
     requestOf (answered0 p (req0 .write .v) id) p = some (req0 .write .v) ∧ packetNext (answered0 p (req0 .write .v) id) p 4 = true
     ∧ windowChip (req0 .write .v).addr ≠ (answered0 p (req0 .write .v) id).fabric.group.self
     ∧ (coreAt (answered0 p (req0 .write .v) id) 511).raising = none ∧ (coreAt (answered0 p (req0 .write .v) id) 511).block = none)
    ∧ (let p := { read0 with ptype := 2, dst := 5, src := 0, data := [9] }
       let s := answered0 p (req0 .read .v) (fun k => k.modStream .v fun x => { x with run := .run, op := .vec vblank })
       packetNext s p 2 = true ∧ requestOf s p = some (req0 .read .v) ∧ takesFault (coreAt s 511) .v = true)
    ∧ packetNext (answered0 { read0 with ptype := 7, dst := 5, src := 0 } (req0 .read .v) id) { read0 with ptype := 7, dst := 5, src := 0 } 7 = true
    ∧ (let p := { read0 with ptype := 6, dst := 5, src := 0, data := [9] }
       let e : InFlight := ⟨.g 31, 0, .remote 7, false, ⟨false, 0, false, 0⟩, link0, none, (8, false)⟩
       let s := answered0 p (req0 .atomic .c) (fun k => { k with inflight := [e] })
       packetNext s p 6 = true ∧ (coreAt s 511).raising = none ∧ (coreAt s 511).inflight = [e] ∧ e.sync.push = false
       ∧ e.wait = .remote (req0 .atomic .c).tag ∧ requestOf s p = some (req0 .atomic .c)) := by decide +kernel

/-- A plan of a group of this chip alone at 0x20_0000. -/
def planMem (epoch : Nat) : List Host.Cell :=
  let m := memWrite [] 0x200000 (leBytes 4 0xF4B00001 ++ leBytes 4 epoch ++ leBytes 2 0 ++ [1, 1, 1, 0, 0, 0] ++ leBytes 48 0)
  let m := (List.range 64).foldl (fun m n => memWrite m (0x200040 + 8 * n) [0xFF, 0x0F]) m
  memWrite m 0x200240 [0, 0x10]
def planned (epoch : Nat) : State := { State.reset with fabric := { Fabric.reset with rgplan := 0x200000 }, mem := planMem epoch }
def planBytes (epoch : Nat) : List Byte := memRead (planMem epoch) 0x200000 580 ++ List.replicate 16380 0
theorem planned_split (m : List Host.Cell) (a n k : Nat) (h : ∀ c ∈ m, c.1 < a + n) : memRead m a (n + k) = memRead m a n ++ List.replicate k 0 := by
  rw [memRead_append, memRead_above h]
theorem planned_read (e a n : Nat) : physRead (planned e) a n = memRead (planMem e) a n := by simp only [physRead, planned]
theorem planned_length : (16960 : Nat) = 580 + 16380 := by norm_num
theorem planned_bytes (e : Nat) (h : ∀ c ∈ planMem e, c.1 < 0x200000 + 580) : physRead (planned e) 0x200000 16960 = planBytes e := by
  rw [planned_read, planned_length, planned_split _ _ _ _ h, planBytes]
theorem witness_plans : physRead (planned 1) (planned 1).fabric.rgplan.toNat 16960 = planBytes 1
    ∧ physRead (planned 0) (planned 0).fabric.rgplan.toNat 16960 = planBytes 0 :=
  ⟨planned_bytes 1 (by decide +kernel), planned_bytes 0 (by decide +kernel)⟩
theorem witness_plan_is_good : (planned 1).fabric.rgplan.toNat % 64 = 0 ∧ planForm (planBytes 1) = true
    ∧ planValid (planned 1).fabric.group.self (planTable (planBytes 1)) (planLinks (planBytes 1)) = true
    ∧ (planTable (planBytes 1)).epoch ≠ (planned 1).fabric.group.epoch ∧ (planTable (planBytes 0)).epoch = (planned 0).fabric.group.epoch := by
  decide +kernel
def plan1 : GroupTable := { GroupTable.lone with epoch := 1 }
def regrouping (st : RgState) (p : Port) (f : Fabric → Fabric) : State :=
  port63 p fun x => f { x with rgState := st, plan := some plan1, planPorts := [(63, 5, 63)] }
theorem live_five : Live (grouped id) 5 := ⟨by decide +kernel, five, by decide +kernel, rfl, rfl⟩
theorem no_version (s : State) (h : s.cores = State.reset.cores) : NoVersionOpen s := by
  intro c
  have e : coreAt s c = coreAt State.reset c := by unfold coreAt; rw [h]
  rw [e]
  have g : ∀ n c, (Vector.replicate n Core.reset).toList.getD c Core.reset = Core.reset := by
    intro n c
    rw [List.getD_eq_getElem?_getD, Vector.toList_replicate, List.getElem?_replicate]; split <;> rfl
  exact (congrArg openOn (g 512 c)).trans rfl

theorem witness_GroupsFormAndRegroup :
    (2 ^ 20 ≤ (grouped fun x => { x with beat := 1048576 }).fabric.beat ∧ ∃ m ∈ (grouped id).fabric.group.members, m.chip ≠ (grouped id).fabric.group.self)
    ∧ ((grouped id).fabric.group.members.map (·.chip)).Nodup
    ∧ (4 * 2 ^ 20 ≤ (peerOf (grouped fun x => { x with peers := [{ Peer.fresh 5 with sinceBeat := 4194304 }] }).fabric 5).sinceBeat
       ∧ flightTo (grouped id).fabric 5 = [] ∧ (peerOf (grouped id).fabric 5).sinceBeat < 4 * 2 ^ 20 ∧ (7 : BitVec 32) ≠ (grouped id).fabric.group.epoch)
    ∧ 4096 ≤ (grouped fun x => { x with advertAge := 4096 }).fabric.advertAge
    ∧ (let s := { State.reset with regions := [region0], mem := stageMem }
       regionAt s 1 = some region0 ∧ stageOf region0 1 = some stage0 ∧ stageStealthr s region0 1 ≤ 1 ∧ 0 < stageStealthr s region0 1 ∧ spareCore s = true
       ∧ region0.dead = false ∧ region0.removing = false ∧ stage0.fusedPrev = false ∧ stage0.status = 0 ∧ s.fabric.rgState = .idle)
    ∧ (let s := { fabric (fun x => { x with stealReqs := [(5, 1, 1, 7)] }) with regions := [region0], mem := stageMem }
       s.fabric.stealReqs.find? (fun x => x.1 == 5 && x.2.1 == 1 && x.2.2.1 == 1) = some (5, 1, 1, 7) ∧ occOf region0 1 < stageStealthr s region0 1)
    ∧ (let s := { fabric (fun x => { x with lent := [(5, 1, 0, 0x10040)] }) with regions := [region0], mem := stageMem }
       stageOf region0 0 = some stage0 ∧ stage0.fusedNext = false ∧ 0 + 1 < region0.nstage ∧ occOf region0 1 < stageQcap s region0 1) := by decide +kernel
theorem witness_regrouping_states :
    (let s := fabric fun x => { x with rgState := .quiescing }
     s.fabric.settled = false ∧ s.fabric.inFlight = [] ∧ s.fabric.upPorts = [] ∧ ∀ m ∈ s.fabric.group.members, flightTo s.fabric m.chip = [])
    ∧ (fabric fun x => { x with rgState := .quiescing, inFlight := [req0 .read .v] }).fabric.inFlight ≠ []
    ∧ (let s := regrouping .quiescing upPort id
       s.fabric.upPorts ≠ [] ∧ ∀ n ∈ s.fabric.upPorts, (portAt s n).vigilTx = 0 ∧ (portAt s n).vigils = [])
    ∧ (let s := regrouping .quiescing { upPort with vigilTx := 1 } fun x => { x with settled := true, rxVigils := [(63, 1, 0)] }
       (63, 1, 0) ∈ s.fabric.rxVigils ∧ s.fabric.upPorts = [63] ∧ (portAt s 63).vigilTx = s.fabric.group.diameter ∧ (portAt s 63).vigils = [] ∧ s.fabric.group.diameter ≤ 24
       ∧ (portAt s 63).vigilRx < 1 ∧ 1 = s.fabric.group.diameter ∧ s.fabric.group.epoch = 0)
    ∧ (2 ^ 24 ≤ (fabric fun x => { x with rgCycles := 16777216 }).fabric.rgCycles ∧ (fabric id).fabric.rgCycles < 2 ^ 24)
    ∧ (let s := regrouping .dark { upPort with state := .dark } id
       s.fabric.rgState = .dark ∧ s.fabric.plan = some plan1 ∧ ∃ l ∈ s.fabric.planPorts, l.1 < 64
         ∧ ∃ b, b < 4 ∧ ((portAt s l.1).bandAt b).failed ≠ 15)
    ∧ (let s := regrouping .dark { upPort with state := .dark, bands := .replicate 4 { lit with failed := 15 } } id
       ∃ l ∈ s.fabric.planPorts, l.1 < 64 ∧ ∀ b, b < 4 → ((portAt s l.1).bandAt b).failed = 15)
    ∧ (let s := regrouping .relocking { upPort with state := .dark } fun x => { x with rgCycles := 4194304 }
       s.fabric.planPorts.find? (fun l => l.1 == 63) = some (63, 5, 63) ∧ (portAt s 63).state = .dark
       ∧ (5 : BitVec 12).toNat = 5 ∧ plan1.epoch = 1 ∧ 2 ^ 22 ≤ s.fabric.rgCycles ∧ openLinks s.fabric = [63])
    ∧ (let s := regrouping .relocking upPort id
       s.fabric.plan = some plan1 ∧ openLinks s.fabric = [] ∧ s.fabric.held = [] ∧ s.fabric.rgCycles < 2 ^ 22)
    ∧ ((portAt (port63 upPort id) 63).state = .up ∧ (port63 upPort id).fabric.plan = none) := by decide +kernel
theorem witness_no_version_is_open : NoVersionOpen (grouped id) ∧ NoVersionOpen (regrouping .relocking upPort id) :=
  ⟨no_version _ rfl, no_version _ rfl⟩
/-- Stage 1 of region 1 has lent nothing yet; its queue holds the item at virtual 0x3000_0000. -/
def stageL : StageState := { stage0 with tail := 1, arrives := [(0x30000000, 5)] }
def regionL : Region := { region0 with stages := [stage0, stageL] }
def lending : State :=
  { fabric (fun x => { x with stealReqs := [] }) with
    regions := [regionL]
    mem := [(0x41000, leBytes 24 (0x46000 * 2 ^ 128) ++ leBytes 4 2 ++ leBytes 2 4 ++ leBytes 2 1 ++ leBytes 4 1), (0x41040, leBytes 24 (0x46100 * 2 ^ 128) ++ leBytes 4 2
        ++ leBytes 2 4 ++ leBytes 2 1 ++ leBytes 4 1), (0x46100, leBytes 8 0x30000000), (0x10006000, leBytes 8 0x500C7)].foldl
      (fun m e => memWrite m e.1 e.2) bundleMem }
def lent : Bool :=
  match takeItem lending regionL 1 with
  | some (item, _, s2) => item == 0x30000000 && (frontNow s2 0 false .write item 64).isSome
  | none => false
theorem witness_steal_requests :
    (stageSteal lending regionL 1 = true ∧ stageStealthr lending regionL 1 ≤ occOf regionL 1 ∧ stageOf regionL 1 = some stageL
      ∧ stageL.kernid = 0 ∧ stageL.status = 0 ∧ regionAt lending 1 = some regionL ∧ MemOk lending)
    ∧ (∃ item arrive s2 pa s3, takeItem lending regionL 1 = some (item, arrive, s2) ∧ ItemOk s2 regionL item pa s3 ∧ item.toNat < 2 ^ 40)
    ∧ (let s := modCore State.reset 511 fun k => { k with op := some { op0 with back := .asked, item := some 0xFFC0050000010040 } }
       (coreAt s 511).op = some { op0 with back := .asked, item := some 0xFFC0050000010040 } ∧ op0.rid = 1 ∧ op0.stage = some 0
       ∧ windowOfs 0xFFC0050000010040 = (0x10040 : Dword).toNat) := by
  refine ⟨by unfold MemOk; decide +kernel, ?_, by decide +kernel⟩
  have h : lent = true := by decide +kernel
  unfold lent at h
  split at h
  · rename_i item arrive s2 e
    simp only [Bool.and_eq_true, beq_iff_eq] at h
    obtain ⟨rfl, h⟩ := h
    obtain ⟨p, hp⟩ := Option.isSome_iff_exists.mp h
    exact ⟨_, _, s2, p.pa, _, e, .inl ⟨by decide, ⟨p, front_of hp, rfl⟩, rfl⟩, by decide⟩
  · cases h

/-! Steps, and decoding against encoding. -/

/-- Core 0 stands at slot 1 of a line whose words are `w0` (the link word) and `w1`; PAD words follow. -/
def standing (w1 : Word) (rest : List Action) : State :=
  { put (fun k => k.modStream .c fun x => { x with run := .run, line := some (lineOf 0 w1), slot := 1 }) with inputs := .issue 0 .c :: rest }
theorem witness_StepRunsDecodedInstruction :
    (standing 0x02050C85 []).inputs = .issue 0 .c :: [] ∧ Ready (standing 0x02050C85 []) 0 .c (lineOf 0 0x02050C85)
    ∧ (match decode .c (lineRest (standing 0x02050C85 []) 0 .c (lineOf 0 0x02050C85)) with
       | .ok i => i.wf && decide (i.place = .one .c)
       | .error _ => false) = true
    ∧ (match decode .c (lineRest (standing 1 []) 0 .c (lineOf 0 1)) with
       | .ok _ => false
       | .error _ => true) = true
    ∧ ({ standing 0 [] with inputs := [.event 511 .roundPrepare] } : State).inputs = .event 511 .roundPrepare :: []
    ∧ Instr.roundPrepare.place = .event ∧ (Instr.nop m0).place ≠ .event
    ∧ ({ State.reset with inputs := [.tick 3] } : State).inputs = .tick 3 :: [] ∧ State.reset.inputs = [] := by
  unfold Ready; decide +kernel
theorem witness_stream_not_ready : ∀ l, ¬Ready State.reset 0 .c l := by
  intro l h
  exact absurd h.2.2.2.2.1 (by decide +kernel)
theorem witness_next_slot :
    let l : CodeLine := ⟨4, 0x10100, List.replicate 16 0x08000000, false⟩
    let s := put fun k => k.modStream .c fun x => { x with run := .run, line := some l, slot := 14 }
    (mine s).canIssue m0 [] = true ∧ ((mine s).stream .c).line = some l ∧ l.side = false
    ∧ nextSlot l.words (((mine s).stream .c).slot + 1) = some 15 := by decide +kernel
theorem witness_StepKeepsMemoryCanonical : MemOk (standing 0x02050C85 [])
    ∧ (match step (standing 0x02050C85 []) with
       | .next t => (mine t).stream .c != (mine State.reset).stream .c
       | _ => false) = true := by
  unfold MemOk; decide +kernel
theorem witness_DecodingInvertsEncoding : (Instr.add pop0 31 0 31).wf = true ∧ InMap (.add pop0 31 0 31) .c
    ∧ (Instr.kcopy y0 { kf0 with p := 13 }).wf = true ∧ InMap (.kcopy y0 { kf0 with p := 13 }) .k
    ∧ (Instr.hintLong y0 15 0xFFFF (.four 1 2 3)).wf = true ∧ InMap (.hintLong y0 15 0xFFFF (.four 1 2 3)) .w := by
  unfold InMap; decide +kernel

/-- Core 0 has come to the end of its cycle: the landing of pushes. -/
def late (s : State) : State := modCore s 0 fun k => { k with rank := 6 }
theorem witness_order_within_a_cycle :
    (Timely (standing 0x02050C85 []) 0 .c (.add pop0 3 4 5) ∧ Timely (standing 1 []) 0 .c .illegalInstruction
      ∧ ¬Timely (late (standing 0x02050C85 [])) 0 .c (.add pop0 3 4 5) ∧ movesShared (standing 0x02050C85 []) 0 (.add pop0 3 4 5) = false)
    ∧ (inOrder (standing 0 []) 511 .roundPrepare = true ∧ inOrder (late (standing 0 [])) 0 .roundPrepare = false)
    ∧ (eventRank (.scrub 0 .clean) = none ∧ queueRank 0 (.scrub 0 .clean) = none ∧ grantRank (.scrub 0 .clean) = none
      ∧ (Instr.scrub 0 .clean).place = .event)
    ∧ ({ State.reset with inputs := [.flip (.line 511 .k), .answerView ⟨[], []⟩, .placeBar2 0x80000000000] } : State).inputs
        = .flip (.line 511 .k) :: [.answerView ⟨[], []⟩, .placeBar2 0x80000000000]
    ∧ ({ State.reset with inputs := [.flip (.cell 511 1 32767 1), .flip .ecrc] } : State).inputs
        = .flip (.cell 511 1 32767 1) :: [.flip .ecrc] := by
  unfold Timely; decide +kernel
/-- R422 check 7: one flipped bit poisons a cell, two are not found. -/
theorem test_cell_parity :
    ((vget (coreAt (takeSoft State.reset (.cell 511 1 32767 1)) 511).z 1 Tile.zero).cell 32767).poi = true
    ∧ ((vget (coreAt (takeSoft State.reset (.cell 511 1 32767 3)) 511).z 1 Tile.zero).cell 32767).poi = false := by decide +kernel

end Sys2Proof.Tests
end

section
/-! SUPPORT. Decoded instructions are well-formed (R47). -/

namespace Sys2Proof

theorem wf_of_decode {st : StreamId} {ws : List Word} {i : Instr} (h : decode st ws = .ok i) : i.wf = true := by
  unfold decode at h
  split at h
  · cases h
  · split at h
    · cases h
    · split at h
      · cases h
      · split at h
        · cases h
        · split at h
          · cases h; assumption
          · cases h

end Sys2Proof
end

section
/-! SUPPORT. Running computations over State: what a sequence answers, what it may change of the state, and the answers of the
shared issues (`runX`, `ctlX`, `blocking`) for a computation whose answer is known. -/

namespace Sys2Proof.Machine

variable {α β : Type}

/-! Answers. -/

@[simp] theorem run_pure (a : α) (s : State) : (pure a : X α) s = .ok a s := rfl
@[simp] theorem run_get (s : State) : (get : X State) s = .ok s s := rfl
@[simp] theorem run_set (t s : State) : (set t : X Unit) s = .ok () t := rfl
@[simp] theorem run_modify (f : State → State) (s : State) : (modify f : X Unit) s = .ok () (f s) := rfl
@[simp] theorem run_me (s : State) : me s = .ok (coreAt s s.cur.core.val) s := rfl
@[simp] theorem run_myNumber (s : State) : myNumber s = .ok s.cur.core.val s := rfl
@[simp] theorem run_modMe (f : Core → Core) (s : State) : modMe f s = .ok () (modCore s s.cur.core.val f) := rfl

theorem run_bind (x : X α) (f : α → X β) (s : State) :
    (x >>= f) s = match x s with
      | .ok a t => f a t
      | .error e t => .error e t := by
  show EStateM.bind x f s = _
  unfold EStateM.bind
  cases x s <;> rfl

theorem run_bind_ok {x : X α} {f : α → X β} {s t : State} {a : α} (h : x s = .ok a t) : (x >>= f) s = f a t := by
  rw [run_bind, h]

theorem run_bind_error {x : X α} {f : α → X β} {s t : State} {e : Stop} (h : x s = .error e t) :
    (x >>= f) s = .error e t := by
  rw [run_bind, h]

theorem run_waitFor {b : Bool} (h : b = true) (s : State) : waitFor b s = .ok () s := by rw [h]; rfl
theorem run_require {b : Bool} (h : b = true) (c : Cause) (a : Dword) (s : State) : require b c a s = .ok () s := by
  rw [h]; rfl
theorem run_require_fails {b : Bool} (h : b = false) (c : Cause) (a : Dword) (s : State) :
    require b c a s = .error (.exc ⟨c, 0, a, 0⟩) s := by
  rw [h]; rfl
theorem run_notAtS {k : Core} (h : k.atS = false) (s : State) : notAtS k s = .ok () s := run_require (by rw [h]; rfl) _ _ s

/-! Frames: what a computation may do to the state, whether it succeeds or stops. -/

/-- The state that a computation leaves. -/
def left (r : EStateM.Result Stop State α) : State :=
  match r with
  | .ok _ t => t
  | .error _ t => t

/-- Every run of the computation leaves a state that `R` relates to the one it began in. -/
structure Frames (R : State → State → Prop) (x : X α) : Prop where
  ran : ∀ s, R s (left (x s))

theorem Frames.of_ok {R : State → State → Prop} {x : X α} (h : Frames R x) {s t : State} {a : α} (e : x s = .ok a t) :
    R s t := by
  have := h.ran s
  rwa [e] at this

/-- A relation of states that holds of doing nothing and of one change after another. -/
def Closed (R : State → State → Prop) : Prop := (∀ s, R s s) ∧ ∀ s t u, R s t → R t u → R s u

section
variable {R : State → State → Prop} (hR : Closed R)
include hR

theorem frames_pure (a : α) : Frames R (pure a : X α) := ⟨hR.1⟩
theorem frames_fail (c : Cause) (a : Dword) : Frames R (fail c a : X α) := ⟨hR.1⟩
theorem frames_require (b : Bool) (c : Cause) (a : Dword) : Frames R (require b c a) := by
  cases b <;> exact ⟨hR.1⟩
theorem frames_bind {x : X α} {f : α → X β} (hx : Frames R x) (hf : ∀ a, Frames R (f a)) : Frames R (x >>= f) := by
  refine ⟨fun s => ?_⟩
  have h := hx.ran s
  rw [run_bind]
  cases e : x s with
  | ok a t => rw [e] at h; exact hR.2 _ _ _ h ((hf a).ran t)
  | error e' t => rw [e] at h; exact h

theorem frames_fail_bind (c : Cause) (a : Dword) (f : α → X β) : Frames R ((fail c a : X α) >>= f) :=
  ⟨fun s => hR.1 s⟩

/-- A check made only under a condition, and what follows it. -/
theorem frames_ite_bind {b : Prop} [Decidable b] {x : X Unit} {f : Unit → X β} (hx : Frames R x) (hf : ∀ u, Frames R (f u)) :
    Frames R (if b then x >>= f else f ()) := by
  split
  · exact frames_bind hR hx hf
  · exact hf ()

end

/-- A computation that begins by reading the state. -/
theorem frames_get_bind {R : State → State → Prop} {f : State → X β} (hf : ∀ s, R s (left (f s s))) :
    Frames R (get >>= f) := ⟨hf⟩

/-! The shared issues. -/

theorem runX_ok {st : StreamId} {x : X Unit} {s t : State} {u : Unit} (h : x s = .ok u t) : runX st x s = .next t := by
  unfold runX; rw [h]

theorem runX_exc {st : StreamId} {x : X Unit} {s t : State} {e : Exc} (h : x s = .error (.exc e) t) :
    runX st x s = .next (raise t s.cur.core.val st e) := by
  unfold runX; rw [h]

/-- A control instruction whose check `x` succeeds retires in its issue cycle. -/
theorem ctlX_next {m : CM} {regs : List (BitVec 5)} {s t : State} {x : Core → X Unit}
    (hc : (coreAt s s.cur.core.val).canIssue m regs = true) (hx : x (coreAt s s.cur.core.val) s = .ok () t) :
    ctlX m regs s x = .next (modCore t t.cur.core.val fun k => (k.issue m s.cur.len).retire .c m.sync) :=
  runX_ok (by rw [run_bind_ok (run_me s), run_bind_ok (run_waitFor hc s), run_bind_ok hx, run_modMe])

/-- A control instruction whose check `x` faults raises it. -/
theorem ctlX_raises {m : CM} {regs : List (BitVec 5)} {s t : State} {x : Core → X Unit} {e : Exc}
    (hc : (coreAt s s.cur.core.val).canIssue m regs = true) (hx : x (coreAt s s.cur.core.val) s = .error (.exc e) t) :
    ctlX m regs s x = .next (raise t s.cur.core.val .c e) :=
  runX_exc (by rw [run_bind_ok (run_me s), run_bind_ok (run_waitFor hc s), run_bind_error hx])

/-- A blocking instruction whose check `x` answers what to wait for is held. -/
theorem blocking_next {m : CM} {regs : List (BitVec 5)} {s t : State} {x : Core → X BlockKind} {kind : BlockKind}
    (hc : (coreAt s s.cur.core.val).canIssue m regs = true) (hx : x (coreAt s s.cur.core.val) s = .ok kind t) :
    blocking m regs s x = .next (modCore t t.cur.core.val fun k => k.blockOn m s.cur.len kind) :=
  runX_ok (by rw [run_bind_ok (run_me s), run_bind_ok (run_waitFor hc s), run_bind_ok hx, run_modMe])

end Sys2Proof.Machine
end

section
/-! SUPPORT. Issue, retirement, held instructions and answered registers of the control stream: what each changes of its core, and
the frame of a control instruction (`CtlFrame`) built from its parts. -/

namespace Sys2Proof.Machine

/-! Streams of a core. -/

theorem Core.stream_modStream_self (k : Core) (st : StreamId) (f : Stream → Stream) :
    (k.modStream st f).stream st = f (k.stream st) :=
  vget_vmod_self _ _ _ _ (streamNum_lt st)

theorem Core.stream_takePop (k : Core) (st t : StreamId) (y : Sync) : (k.takePop st y).stream t = k.stream t := by
  simp [Core.stream]

theorem Core.stream_issue_self (k : Core) (m : CM) (len : Nat) :
    (k.issue m len).stream .c = (k.stream .c).step len :=
  (Core.stream_modStream_self _ _ _).trans (by rw [Core.stream_takePop])

theorem Core.stream_issue_ne (k : Core) (m : CM) (len : Nat) {t : StreamId} (h : t ≠ .c) :
    (k.issue m len).stream t = k.stream t :=
  (Core.stream_modStream_ne _ _ _ _ h).trans (Core.stream_takePop ..)

theorem Stream.bumpSeq_held (x : Stream) (side : Bool) : (x.bumpSeq side).held = x.held := by
  cases side <;> rfl
theorem Stream.bumpSeq_run (x : Stream) (side : Bool) : (x.bumpSeq side).run = x.run := by
  cases side <;> rfl
@[simp] theorem Stream.seek_held (x : Stream) (l : CodeLine) (n : Nat) : (x.seek l n).held = x.held := by
  unfold Stream.seek; split <;> rfl
@[simp] theorem Stream.seek_run (x : Stream) (l : CodeLine) (n : Nat) : (x.seek l n).run = x.run := by
  unfold Stream.seek; split <;> rfl
@[simp] theorem Stream.step_held (x : Stream) (len : Nat) : (x.step len).held = x.held := by
  unfold Stream.step; split <;> simp [Stream.bumpSeq_held]
@[simp] theorem Stream.step_run (x : Stream) (len : Nat) : (x.step len).run = x.run := by
  unfold Stream.step; split <;> simp [Stream.bumpSeq_run]

/-- A stream put at a slot that holds an instruction stands there. -/
theorem Stream.seek_of_nextSlot (x : Stream) {l : CodeLine} {n i : Nat} (h : nextSlot l.words n = some i) :
    x.seek l n = { x with line := some l, slot := i } := by
  unfold Stream.seek; rw [h]

/-! Retirement. -/

/-- The push that a retirement makes. -/
def pushOf (y : Sync) : List Retiring := if y.push then [.push y.pdst] else []

/-- A stream that still holds a line, or a push, is not settled to ENDED. -/
theorem Core.settle_of_held (k : Core) (st : StreamId) (h : (k.stream st).held ≠ []) : k.settle st = k := by
  have hf : (k.stream st).finished = false := by
    cases hh : (k.stream st).held with
    | nil => exact absurd hh h
    | cons => simp [Stream.finished, hh]
  simp [Core.settle, hf]

theorem Core.settle_of_line (k : Core) (st : StreamId) (h : (k.stream st).line.isSome = true) : k.settle st = k := by
  have hf : (k.stream st).finished = false := by
    cases hl : (k.stream st).line with
    | none => rw [hl] at h; cases h
    | some => simp [Stream.finished, hl]
  simp [Core.settle, hf]

theorem Core.stream_settle_self (k : Core) (st : StreamId) :
    ∃ r, (k.settle st).stream st = { k.stream st with run := r } := by
  unfold Core.settle
  split
  · exact ⟨.ended, Core.stream_modStream_self ..⟩
  · exact ⟨_, rfl⟩

theorem Core.retire_eq_settle (k : Core) (st : StreamId) (y : Sync) :
    k.retire st y = (k.modStream st fun x => { x with held := x.held ++ pushOf y }).settle st := by
  cases h : y.push with
  | true => simp [Core.retire, pushOf, h]
  | false =>
    have e : (k.modStream st fun x => { x with held := x.held ++ pushOf y }) = k := by
      simp [Core.modStream, pushOf, h]
    rw [e]
    simp [Core.retire, h]

/-- What a retirement leaves of its own stream: its push is held, and the stream may have ended. -/
theorem Core.stream_retire_self (k : Core) (st : StreamId) (y : Sync) :
    ∃ r, (k.retire st y).stream st = { k.stream st with held := (k.stream st).held ++ pushOf y, run := r } := by
  obtain ⟨r, h⟩ := Core.stream_settle_self (k.modStream st fun x => { x with held := x.held ++ pushOf y }) st
  exact ⟨r, by rw [Core.retire_eq_settle, h, Core.stream_modStream_self]⟩

theorem Core.retire_of_held (k : Core) (st : StreamId) (y : Sync) (h : (k.stream st).held ++ pushOf y ≠ []) :
    k.retire st y = k.modStream st fun x => { x with held := x.held ++ pushOf y } := by
  rw [Core.retire_eq_settle, Core.settle_of_held]
  rwa [Core.stream_modStream_self]

theorem Core.retire_of_line (k : Core) (st : StreamId) (y : Sync) (h : (k.stream st).line.isSome = true) :
    k.retire st y = k.modStream st fun x => { x with held := x.held ++ pushOf y } := by
  rw [Core.retire_eq_settle, Core.settle_of_line]
  rwa [Core.stream_modStream_self]

@[simp] theorem Core.readG_retire (k : Core) (st : StreamId) (y : Sync) (r : BitVec 5) :
    (k.retire st y).readG r = k.readG r := by simp [Core.readG]
@[simp] theorem Core.readG_issue (k : Core) (m : CM) (len : Nat) (r : BitVec 5) :
    (k.issue m len).readG r = k.readG r := by simp [Core.readG]

theorem Core.readG_writeG_self (k : Core) (n : BitVec 5) (x : Dword) (h : n ≠ 0) : (k.writeG n x).readG n = x :=
  Core.readG_putG_self k n x h
theorem Core.readG_writeG_ne (k : Core) (n r : BitVec 5) (x : Dword) (h : r ≠ n) : (k.writeG n x).readG r = k.readG r :=
  Core.readG_putG_ne k n r x h

/-! The end of the control stream's chain (R21, R134). -/

theorem Core.endChain_g (k : Core) : k.endChain.g = k.g := rfl
theorem Core.stream_endChain_ne (k : Core) {t : StreamId} (h : t ≠ .c) : k.endChain.stream t = k.stream t :=
  Core.stream_modStream_ne _ _ _ _ h

theorem Core.stream_endChain_of_nil (k : Core) (h : (k.stream .c).held = []) :
    k.endChain.stream .c = { k.stream .c with line := none, next := .none, run := .ended } := by
  rw [Core.endChain, Core.stream_modStream_self]
  simp [h]

theorem Core.stream_endChain_of_held (k : Core) (h : (k.stream .c).held ≠ []) :
    k.endChain.stream .c = { k.stream .c with line := none, next := .none, held := (k.stream .c).held ++ [.ends] } := by
  rw [Core.endChain, Core.stream_modStream_self]
  simp [h]

/-! Held instructions and their answers (R104). -/

theorem Core.blockOn_eq (k : Core) (m : CM) (len : Nat) (kind : BlockKind) :
    k.blockOn m len kind = { k with
      fifo := (k.blockOn m len kind).fifo, issued := true, streams := (k.blockOn m len kind).streams
      block := some ⟨kind, m.sync, (k.stream .c).here, len⟩ } := by
  unfold Core.blockOn
  rw [Core.takePop_only]; rfl

theorem Core.stream_blockOn_self (k : Core) (m : CM) (len : Nat) (kind : BlockKind) :
    (k.blockOn m len kind).stream .c = { k.stream .c with progress := true } :=
  (Core.stream_modStream_self _ _ _).trans (by rw [Core.stream_takePop])

theorem Core.stream_blockOn_ne (k : Core) (m : CM) (len : Nat) (kind : BlockKind) {t : StreamId} (h : t ≠ .c) :
    (k.blockOn m len kind).stream t = k.stream t :=
  (Core.stream_modStream_ne _ _ _ _ h).trans (Core.stream_takePop ..)

theorem Core.unblock_eq (k : Core) :
    k.unblock = { k with block := none, issued := k.unblock.issued, streams := k.unblock.streams } := by
  cases k with
  | mk =>
    unfold Core.unblock
    split
    · rename_i h
      cases h; rfl
    · rw [Core.retire_only]; rfl

@[simp] theorem Core.unblock_block (k : Core) : k.unblock.block = none := by rw [Core.unblock_eq]
@[simp] theorem Core.unblock_op (k : Core) : k.unblock.op = k.op := by rw [Core.unblock_eq]
@[simp] theorem Core.unblock_stage (k : Core) : k.unblock.stage = k.stage := by rw [Core.unblock_eq]
@[simp] theorem Core.readG_unblock (k : Core) (r : BitVec 5) : k.unblock.readG r = k.readG r := by
  rw [Core.unblock_eq]; rfl

theorem Core.arriveG_eq (k : Core) (a : BitVec 5) (x : Dword) :
    k.arriveG a x = { k with g := (k.arriveG a x).g, inflight := (k.arriveG a x).inflight } := by
  unfold Core.arriveG Core.overtake
  rw [Core.putG_only]

@[simp] theorem Core.arriveG_op (k : Core) (a : BitVec 5) (x : Dword) : (k.arriveG a x).op = k.op := by rw [Core.arriveG_eq]
@[simp] theorem Core.arriveG_stage (k : Core) (a : BitVec 5) (x : Dword) : (k.arriveG a x).stage = k.stage := by
  rw [Core.arriveG_eq]

theorem Core.readG_arriveG_self (k : Core) (a : BitVec 5) (x : Dword) (h : a ≠ 0) : (k.arriveG a x).readG a = x :=
  Core.readG_putG_self _ _ _ h

theorem Core.readG_arriveG_ne (k : Core) (a r : BitVec 5) (x : Dword) (h : r ≠ a) :
    (k.arriveG a x).readG r = k.readG r :=
  (Core.readG_putG_ne _ _ _ _ h).trans rfl

end Sys2Proof.Machine

namespace Sys2Proof.Claims

open Sys2Proof.Machine

/-! The running core after a change of it. -/

theorem mine_setCore (s : State) (k : Core) : mine (setCore s s.cur.core.val k) = k :=
  coreAt_setCore_self _ _ _ s.cur.core.isLt

theorem mine_modCore (s : State) (f : Core → Core) : mine (modCore s s.cur.core.val f) = f (mine s) :=
  coreAt_modCore_self _ _ _ s.cur.core.isLt

theorem onlyCore_setCore (s : State) (k : Core) : OnlyCore s (setCore s s.cur.core.val k) :=
  ⟨rfl, fun c h => coreAt_setCore_ne s _ c k h⟩

theorem onlyCore_modCore (s : State) (f : Core → Core) : OnlyCore s (modCore s s.cur.core.val f) :=
  ⟨rfl, fun c h => coreAt_modCore_ne s _ c f h⟩

/-! The frame of a control instruction, part by part. -/

/-- A core without the fields that a control instruction may change. -/
def bare (k : Core) : Core :=
  { k with g := .replicate 32 0, streams := .replicate 5 Stream.reset, fifo := .replicate 20 0, issued := false, inflight := [] }

theorem eq_of_bare_eq {k k' : Core} (h : bare k' = bare k) :
    k' = { k with g := k'.g, streams := k'.streams, fifo := k'.fifo, issued := k'.issued, inflight := k'.inflight } :=
  calc k' = { bare k' with g := k'.g, streams := k'.streams, fifo := k'.fifo, issued := k'.issued, inflight := k'.inflight } := rfl
    _ = { bare k with g := k'.g, streams := k'.streams, fifo := k'.fifo, issued := k'.issued, inflight := k'.inflight } := by rw [h]
    _ = _ := rfl

theorem bare_eq_of_ctlFrame {m : CM} {k k' : Core} (h : CtlFrame m k k') : bare k' = bare k := by
  obtain ⟨e, -⟩ := h
  rw [e]; rfl

theorem ctlFrame_issue (m : CM) (k : Core) (len : Nat) (h : k.popReady .c m.sync = true) : CtlFrame m k (k.issue m len) :=
  ⟨eq_of_bare_eq (by rw [Core.issue_only]; rfl), fun _ hs => Core.stream_issue_ne k m len hs,
    fun f _ => Core.tokens_takePop k .c m.sync f h⟩

theorem CtlFrame.retire {m : CM} {k k' : Core} (h : CtlFrame m k k') (y : Sync) : CtlFrame m k (k'.retire .c y) := by
  have he := bare_eq_of_ctlFrame h
  obtain ⟨-, hs, ht⟩ := h
  refine ⟨eq_of_bare_eq (by rw [← he, Core.retire_only]; rfl), fun st hst => ?_, fun f hf => ?_⟩
  · rw [Core.stream_retire_ne _ _ _ _ hst, hs st hst]
  · rw [← ht f hf]; simp [Core.tokens]

theorem CtlFrame.writeG {m : CM} {k k' : Core} (h : CtlFrame m k k') (a : BitVec 5) (x : Dword) :
    CtlFrame m k (k'.writeG a x) := by
  have he := bare_eq_of_ctlFrame h
  obtain ⟨-, hs, ht⟩ := h
  refine ⟨eq_of_bare_eq (by rw [← he, Core.writeG_only]; rfl), fun st hst => ?_, fun f hf => ?_⟩
  · rw [← hs st hst]; simp [Core.stream]
  · rw [← ht f hf]; simp [Core.tokens]

theorem popReady_of_canIssue {k : Core} {m : CM} {regs : List (BitVec 5)} (h : k.canIssue m regs = true) :
    k.popReady .c m.sync = true := by
  simp only [Core.canIssue, Bool.and_eq_true] at h
  exact h.1

/-- A control instruction without a result that issues and retires. -/
theorem ctlFrame_issue_retire {m : CM} {k : Core} {regs : List (BitVec 5)} (len : Nat) (h : k.canIssue m regs = true) :
    CtlFrame m k ((k.issue m len).retire .c m.sync) :=
  (ctlFrame_issue m k len (popReady_of_canIssue h)).retire _

/-! Held instructions. -/

/-- What a blocking instruction leaves of the running core, as `HeldAs` states it. -/
theorem heldAs_of_next {i : Instr} {m : CM} {regs : List (BitVec 5)} {ok : State → Prop} {kind : State → BlockKind}
    (h : ∀ s : State, (mine s).canIssue m regs = true → ok s →
      exec i s = .next (modCore s s.cur.core.val fun k => k.blockOn m s.cur.len (kind s))) :
    HeldAs i m regs ok kind := by
  intro s hc hok
  refine ⟨_, h s hc hok, onlyCore_modCore s _, ?_⟩
  rw [mine_modCore]
  exact ⟨Core.blockOn_eq .., Core.stream_blockOn_self .., fun _ hst => Core.stream_blockOn_ne _ _ _ _ hst,
    fun f _ => Core.tokens_takePop _ _ _ f (popReady_of_canIssue hc)⟩

/-- No control instruction issues while one is held. -/
theorem not_streamReady_of_held {s : State} {kind : BlockKind} (h : Held s kind) :
    streamReady s s.cur.core.val .c = false := by
  obtain ⟨y, l, n, hb⟩ := h
  simp only [mine] at hb
  simp [streamReady, hb]

theorem atS_of_atU {s : State} (h : AtU s) : (mine s).atS = false := by
  simp only [AtU] at h
  simp [Core.atS, h]

end Sys2Proof.Claims
end

section
/-! SUPPORT. What recording an event, a commit of results and the stop of a core leave (R369), and O22. -/

namespace Sys2Proof.Machine

/-! The special registers while results in flight are written. -/

theorem Core.complete_sr (k : Core) (e : InFlight) : (k.complete e).sr = k.sr := by
  unfold Core.complete Core.deliver
  cases e.dest <;> simp

theorem foldl_complete_sr (l : List InFlight) (k : Core) : (l.foldl Core.complete k).sr = k.sr := by
  induction l generalizing k with
  | nil => rfl
  | cons e l ih => rw [List.foldl_cons, ih, Core.complete_sr]

theorem coreAt_restorePop_sr (s : State) {c : Nat} (h : c < 512) (st : StreamId) (y : Sync) :
    (coreAt (restorePop s c st y) c).sr = (coreAt s c).sr := by
  unfold restorePop
  dsimp only
  split
  · rw [coreAt_modCore_self _ _ _ h]; rfl
  · rw [coreAt_modCore_self _ _ _ h]; simp

theorem coreAt_finishInflight_sr (s : State) {c : Nat} (h : c < 512) :
    (coreAt (finishInflight s c) c).sr = (coreAt s c).sr := by
  have landed : (coreAt (modCore s c fun k =>
      (landingOrder (k.inflight.filter fun e => e.fault.isNone)).foldl Core.complete { k with inflight := [] }) c).sr
        = (coreAt s c).sr := by
    rw [coreAt_modCore_self _ _ _ h, foldl_complete_sr]
  unfold finishInflight
  split
  · exact landed
  · rw [coreAt_modCore_self _ _ _ h, Core.modStream_sr, coreAt_restorePop_sr _ h, landed]

/-! A core that stops (R369, R374). -/

theorem coreAt_stopCore (s : State) {c : Nat} (h : c < 512) :
    coreAt (stopCore s c) c = { coreAt (withdrawPhase s c) c with
      stopped := true, raising := none, preempt := .none, sr := { (coreAt (withdrawPhase s c) c).sr with pend := false } } := by
  unfold stopCore
  split
  · exact coreAt_modCore_self _ _ _ h
  · exact coreAt_modCore_self _ _ _ h

/-- A raise at S whose core has nothing left to wait for is a handler fault. -/
theorem raise_of_atS {s : State} {c : Nat} {st : StreamId} {e : Exc} (h : c < 512) (hs : (coreAt s c).sr.mode ≠ 0)
    (hr : (coreAt s c).raising = none) (hw : workDone s c = true) :
    raise s c st e = handlerFault (finishInflight s c) c e.code e.addr := by
  have hS : (coreAt (finishInflight s c) c).atS = true := by
    rw [Core.atS, coreAt_finishInflight_sr s h]; simpa using hs
  simp [raise, hr, hw, trapEntry, hS]

/-! HANG (R134, R373). -/

theorem hung_eq_false {k : Core} {st : StreamId}
    (h : k.limit = 0 ∨ (k.stream st).run ≠ .run ∨ (k.stream st).idle ≤ k.limit.toNat) : hung k st = false := by
  rcases h with h | h | h
  · simp [hung, h]
  · simp [hung, h]
  · simp [hung, Nat.not_lt.mpr h]

theorem hung_eq_true {k : Core} {st : StreamId} (h0 : k.limit ≠ 0) (hr : (k.stream st).run = .run)
    (hi : k.limit.toNat < (k.stream st).idle) : hung k st = true := by
  simpa [hung, hr, hi] using h0

end Sys2Proof.Machine

namespace Sys2Proof.Claims

open Sys2Proof.Machine

theorem trap_completes_then_raises (m : CM) (code : BitVec 10) (s : State) (h : (mine s).canIssue m [] = true) :
    ∃ t, exec (.nop m) s = .next t ∧ OnlyCore s t ∧ CtlFrame m (mine s) (mine t) ∧ (mine t).g = (mine s).g
      ∧ (mine t).inflight = (mine s).inflight
      ∧ exec (.trap m code) s = .next (raise t s.cur.core.val .c ⟨.software, 0, code.setWidth 64, 0⟩) := by
  refine ⟨_, (exec_nop s m).trans (ctl_next m [] s _ h), onlyCore_setCore .., ?_⟩
  rw [mine_setCore]
  refine ⟨ctlFrame_issue_retire _ h, by simp [mine], by simp [mine], ?_⟩
  simp only [mine] at h
  simp [exec_trap, execTrap, h]

theorem raise_at_s_stops (s : State) (c : Nat) (st : StreamId) (e : Exc) (h : c < 512) (hs : (coreAt s c).sr.mode ≠ 0)
    (hr : (coreAt s c).raising = none) (hw : workDone s c = true) :
    (coreAt (raise s c st e) c).stopped = true ∧ (coreAt (raise s c st e) c).sr.pend = false
      ∧ (coreAt (raise s c st e) c).preempt = .none := by
  rw [raise_of_atS h hs hr hw, handlerFault, coreAt_stopCore _ h]
  exact ⟨rfl, rfl, rfl⟩

theorem refused_word_raises (s : State) (l : CodeLine) (hr : ((mine s).stream s.cur.st).run = .run)
    (hl : ((mine s).stream s.cur.st).line = some l) :
    exec .illegalInstruction s = .next (raise s s.cur.core.val s.cur.st
      ⟨.illegal, 0, l.addr + BitVec.ofNat 64 (4 * ((mine s).stream s.cur.st).slot), 0⟩) := by
  simp only [mine] at hr hl ⊢
  simp [exec_illegalInstruction, execIllegalInstruction, Stream.wordAddr, hr, hl]

theorem hang_waits (st : StreamId) (s : State)
    (h : (mine s).limit = 0 ∨ ((mine s).stream st).run ≠ .run ∨ ((mine s).stream st).idle ≤ (mine s).limit.toNat) :
    exec (.hangTimeout st) s = .next s := by
  have hh : hung (coreAt s s.cur.core.val) st = false := hung_eq_false h
  simp [exec_hangTimeout, execHangTimeout, hh]

theorem hang_raises (st : StreamId) (s : State) (hs : (mine s).stopped = false) (h0 : (mine s).limit ≠ 0)
    (hr : ((mine s).stream st).run = .run) (hi : (mine s).limit.toNat < ((mine s).stream st).idle)
    (low : ∀ t, streamNum t < streamNum st → ((mine s).stream t).run ≠ .run ∨ ((mine s).stream t).idle ≤ (mine s).limit.toNat) :
    exec (.hangTimeout st) s = .next (raise s s.cur.core.val st ⟨.hang, 0, 0, 0⟩) := by
  have hh : hung (coreAt s s.cur.core.val) st = true := hung_eq_true h0 hr hi
  have hl : ([StreamId.c, .w, .v, .m, .k].any fun t =>
      streamNum t < streamNum st && hung (coreAt s s.cur.core.val) t) = false := by
    rw [List.any_eq_false]
    intro t _ ht
    simp only [Bool.and_eq_true, decide_eq_true_eq] at ht
    obtain ⟨hlt, hung⟩ := ht
    rw [hung_eq_false (k := coreAt s s.cur.core.val) (Or.inr (low t hlt))] at hung
    cases hung
  simp only [mine] at hs
  simp only [exec_hangTimeout, execHangTimeout, hh, hs, hl]
  rfl

/-- Settles O22: each clause is the meaning of one instruction or event, and a raise at S comes to `stopCore`. -/
theorem trapsAreRaised : Obligations.TrapsAreRaised := by
  unfold Obligations.TrapsAreRaised
  exact ⟨⟨trap_completes_then_raises, raise_at_s_stops⟩, refused_word_raises,
    fun st s hs => ⟨hang_waits st s, hang_raises st s hs⟩⟩

end Sys2Proof.Claims
end

section
/-! SUPPORT. Regions and their stages under the front end's operations: which updates keep the cores, and what the counts of a
stage's queue read after each. -/

namespace Sys2Proof.Machine

/-! Steps of the front end that leave every core and the running one as they were. -/

/-- The cores stand as before, and so does the choice of the running one. -/
def SameCores (s t : State) : Prop := t.cur = s.cur ∧ ∀ d, coreAt t d = coreAt s d

theorem SameCores.refl (s : State) : SameCores s s := ⟨rfl, fun _ => rfl⟩

theorem SameCores.trans {s t u : State} (h : SameCores s t) (h' : SameCores t u) : SameCores s u :=
  ⟨h'.1.trans h.1, fun d => (h'.2 d).trans (h.2 d)⟩

theorem sameCores_of_eq {s t : State} (hcur : t.cur = s.cur) (hcores : t.cores = s.cores) : SameCores s t :=
  ⟨hcur, fun d => by rw [coreAt, hcores, coreAt]⟩

theorem noteTrigger_cur (s : State) (pa n : Nat) : (noteTrigger s pa n).cur = s.cur := by
  unfold noteTrigger; split <;> rfl
@[simp] theorem physWrite_cur (s : State) (pa : Nat) (xs : List Byte) : (physWrite s pa xs).cur = s.cur :=
  noteTrigger_cur ..

theorem sameCores_physWrite (s : State) (pa : Nat) (xs : List Byte) : SameCores s (physWrite s pa xs) :=
  sameCores_of_eq (physWrite_cur ..) (physWrite_cores ..)

theorem sameCores_modRegion (s : State) (n : Nat) (f : Region → Region) : SameCores s (modRegion s n f) :=
  sameCores_of_eq rfl rfl

theorem sameCores_modStage (s : State) (n i : Nat) (f : StageState → StageState) : SameCores s (modStage s n i f) :=
  sameCores_modRegion ..

theorem sameCores_writeOcc (s : State) (r : Region) (i : Nat) : SameCores s (writeOcc s r i) := by
  unfold writeOcc
  dsimp only
  split
  · exact (sameCores_physWrite ..).trans (sameCores_physWrite ..)
  · exact sameCores_physWrite ..

theorem sameCores_writeNcore (s : State) (rid i : Nat) : SameCores s (writeNcore s rid i) := by
  unfold writeNcore
  split
  · exact SameCores.refl s
  · dsimp only
    split
    · exact (sameCores_physWrite ..).trans (sameCores_physWrite ..)
    · exact sameCores_physWrite ..

theorem sameCores_insertItem (s : State) (r : Region) (i : Nat) (item arrive : Dword) :
    SameCores s (insertItem s r i item arrive) :=
  ((sameCores_physWrite ..).trans (sameCores_modStage ..)).trans (sameCores_writeOcc ..)

theorem sameCores_closeNext (s : State) (rid : Nat) (l : List Nat) : SameCores s (closeNext s rid l) := by
  induction l generalizing s with
  | nil => exact SameCores.refl s
  | cons i l ih =>
    unfold closeNext
    refine SameCores.trans ?_ (ih _)
    split
    · exact SameCores.refl s
    · split
      · split
        · exact sameCores_modStage ..
        · exact SameCores.refl s
      · exact SameCores.refl s

theorem sameCores_propagateClose (s : State) (rid : Nat) : SameCores s (propagateClose s rid) := sameCores_closeNext ..

/-- A core's binding changes nothing of any core but its stage. -/
theorem bindCore_cur (s : State) (c : Nat) (goal : Option (Nat × Nat)) : (bindCore s c goal).cur = s.cur := by
  unfold bindCore
  dsimp only
  split
  · rfl
  · cases (coreAt s c).stage <;> cases goal <;> simp only [(sameCores_writeNcore _ _ _).1, modCore_cur]

theorem coreAt_bindCore (s : State) {c : Nat} (h : c < 512) (goal : Option (Nat × Nat)) :
    coreAt (bindCore s c goal) c = { coreAt s c with stage := goal } := by
  have bound : coreAt (modCore s c fun k => { k with stage := goal }) c = { coreAt s c with stage := goal } :=
    coreAt_modCore_self _ _ _ h
  unfold bindCore
  dsimp only
  split
  · exact bound
  · cases (coreAt s c).stage <;> cases goal <;> simp only [(sameCores_writeNcore _ _ _).2, bound]

/-! Regions. -/

theorem triggerRegion_eq (now v : Dword) (r : Region) :
    triggerRegion now v r = { r with
      runs := (triggerRegion now v r).runs, run := (triggerRegion now v r).run
      pendTrig := (triggerRegion now v r).pendTrig, lastTrig := (triggerRegion now v r).lastTrig } := by
  unfold triggerRegion
  dsimp only
  split
  · rfl
  · split <;> rfl

/-- A store to memory does to each region nothing, or what a trigger does. -/
theorem physWrite_regions (s : State) (pa : Nat) (xs : List Byte) :
    ∃ g : Region → Region, (physWrite s pa xs).regions = s.regions.map g
      ∧ ∀ r, g r = r ∨ ∃ now v, g r = triggerRegion now v r := by
  unfold physWrite noteTrigger
  dsimp only
  split
  · exact ⟨id, (List.map_id _).symm, fun _ => .inl rfl⟩
  · refine ⟨_, rfl, fun r => ?_⟩
    split
    · exact .inr ⟨_, _, rfl⟩
    · exact .inl rfl

/-- What no trigger changes of a region reads after a store to memory as before. -/
theorem regionAt_physWrite {β : Type} (φ : Region → β) (hφ : ∀ now v r, φ (triggerRegion now v r) = φ r) (s : State)
    (pa : Nat) (xs : List Byte) (rid : Nat) :
    (regionAt (physWrite s pa xs) rid).map φ = (regionAt s rid).map φ := by
  obtain ⟨g, hg, hr⟩ := physWrite_regions s pa xs
  have keeps {γ : Type} (ψ : Region → γ) (hψ : ∀ now v r, ψ (triggerRegion now v r) = ψ r) (r : Region) : ψ (g r) = ψ r := by
    rcases hr r with h | ⟨now, v, h⟩
    · rw [h]
    · rw [h, hψ]
  have hrid : ∀ r, (g r).rid = r.rid := keeps (·.rid) fun now v r => by rw [triggerRegion_eq]
  simp only [regionAt, hg, List.find?_map, Option.map_map]
  have hp : ((fun r : Region => r.rid == rid) ∘ g) = fun r => r.rid == rid := by
    funext r; simp [hrid]
  have hf : φ ∘ g = φ := funext (keeps φ hφ)
  rw [hp, hf]

theorem find?_modFirst_rid (l : List Region) (n rid : Nat) (f : Region → Region) (hf : ∀ r, (f r).rid = r.rid) :
    (modFirst (fun r => r.rid == n) f l).find? (fun r => r.rid == rid)
      = if n = rid then (l.find? fun r => r.rid == rid).map f else l.find? fun r => r.rid == rid := by
  induction l with
  | nil => simp [modFirst]
  | cons r l ih =>
    by_cases hn : r.rid = n
    · by_cases h : n = rid
      · simp [modFirst, hn, h, hf]
      · simp [modFirst, hn, h, hf]
    · by_cases h : r.rid = rid
      · have hne : rid ≠ n := fun e => hn (h.trans e)
        simp [modFirst, h, hne, hne.symm]
      · simp [modFirst, hn, h, ih]

theorem regionAt_modRegion (s : State) (n rid : Nat) (f : Region → Region) (hf : ∀ r, (f r).rid = r.rid) :
    regionAt (modRegion s n f) rid = if n = rid then (regionAt s rid).map f else regionAt s rid :=
  find?_modFirst_rid s.regions n rid f hf

theorem regionAt_modRegion_self (s : State) (n : Nat) (f : Region → Region) (hf : ∀ r, (f r).rid = r.rid) :
    regionAt (modRegion s n f) n = (regionAt s n).map f := by
  rw [regionAt_modRegion s n n f hf, if_pos rfl]

theorem rid_of_regionAt {s : State} {rid : Nat} {r : Region} (h : regionAt s rid = some r) : r.rid = rid := by
  simpa using List.find?_some h

theorem stageOf_modify (r : Region) (i j : Nat) (f : StageState → StageState) :
    stageOf { r with stages := r.stages.modify i f } j = if i = j then (stageOf r j).map f else stageOf r j := by
  simp only [stageOf, List.getElem?_modify]
  split <;> simp

/-! The counts of a stage's queue (R332). -/

/-- HEAD and TAIL of a stage's input queue. -/
def StageState.counts (x : StageState) : Nat × Nat := (x.head, x.tail)

/-- The counts of stage `i` of region `rid`, if there is such a stage. -/
def stageCounts (s : State) (rid i : Nat) : Option (Nat × Nat) :=
  ((regionAt s rid).map fun r => (stageOf r i).map StageState.counts).join

theorem stageCounts_physWrite (s : State) (pa : Nat) (xs : List Byte) (rid i : Nat) :
    stageCounts (physWrite s pa xs) rid i = stageCounts s rid i :=
  congrArg Option.join (regionAt_physWrite _ (fun now v r => by rw [triggerRegion_eq]; rfl) s pa xs rid)

theorem stageCounts_modCore (s : State) (c : Nat) (f : Core → Core) (rid i : Nat) :
    stageCounts (modCore s c f) rid i = stageCounts s rid i := rfl

theorem stageCounts_modStage (s : State) (n j rid i : Nat) (f : StageState → StageState) (g : Nat × Nat → Nat × Nat)
    (h : ∀ x, (f x).counts = g x.counts) :
    stageCounts (modStage s n j f) rid i = if n = rid ∧ j = i then (stageCounts s rid i).map g else stageCounts s rid i := by
  unfold stageCounts modStage
  rw [regionAt_modRegion s n rid (fun r => { r with stages := r.stages.modify j f }) fun _ => rfl]
  by_cases hn : n = rid
  · cases hr : regionAt s rid with
    | none => simp
    | some r =>
      simp only [hn, if_true, Option.map_some, Option.join_some, stageOf_modify]
      by_cases hj : j = i
      · simp only [hj, if_true, Option.map_map, true_and]
        exact congrArg (Option.map · (stageOf r i)) (funext h)
      · simp [hj]
  · simp [hn]

theorem stageCounts_modStage_kept (s : State) (n j rid i : Nat) (f : StageState → StageState)
    (h : ∀ x, (f x).counts = x.counts) : stageCounts (modStage s n j f) rid i = stageCounts s rid i := by
  rw [stageCounts_modStage s n j rid i f id h]
  simp

theorem stageCounts_writeOcc (s : State) (r : Region) (j rid i : Nat) :
    stageCounts (writeOcc s r j) rid i = stageCounts s rid i := by
  unfold writeOcc
  dsimp only
  split
  · rw [stageCounts_physWrite, stageCounts_physWrite]
  · rw [stageCounts_physWrite]

theorem stageCounts_insertItem (s : State) (r : Region) (i : Nat) (item arrive : Dword) :
    stageCounts (insertItem s r i item arrive) r.rid i = (stageCounts s r.rid i).map fun c => (c.1, c.2 + 1) := by
  unfold insertItem
  dsimp only
  rw [stageCounts_writeOcc, stageCounts_modStage _ _ _ _ _ _ (fun c => (c.1, c.2 + 1)) fun _ => rfl, if_pos ⟨rfl, rfl⟩,
    putEntry, stageCounts_physWrite]

theorem stageCounts_closeNext (s : State) (n : Nat) (l : List Nat) (rid i : Nat) :
    stageCounts (closeNext s n l) rid i = stageCounts s rid i := by
  induction l generalizing s with
  | nil => rfl
  | cons j l ih =>
    unfold closeNext
    rw [ih]
    split
    · rfl
    · split
      · split
        · exact stageCounts_modStage_kept _ _ _ _ _ _ fun _ => rfl
        · rfl
      · rfl

theorem stageCounts_propagateClose (s : State) (n rid i : Nat) :
    stageCounts (propagateClose s n) rid i = stageCounts s rid i := stageCounts_closeNext ..

end Sys2Proof.Machine

namespace Sys2Proof.Claims

open Sys2Proof.Machine

theorem countsAre_iff (t : State) (rid i head tail : Nat) :
    CountsAre t rid i head tail ↔ stageCounts t rid i = some (head, tail) := by
  constructor
  · rintro ⟨r, x, ⟨hr, -, hx⟩, rfl, rfl⟩
    simp [stageCounts, hr, hx, StageState.counts]
  · intro h
    simp only [stageCounts, Option.join_eq_some_iff, Option.map_eq_some_iff] at h
    obtain ⟨r, hr, x, hx, hc⟩ := h
    cases hc
    exact ⟨r, x, ⟨hr, rid_of_regionAt hr, hx⟩, rfl, rfl⟩

theorem stageCounts_of_stageIs {s : State} {rid i : Nat} {r : Region} {x : StageState} (h : StageIs s rid i r x) :
    stageCounts s rid i = some (x.head, x.tail) :=
  (countsAre_iff ..).mp ⟨r, x, h, rfl, rfl⟩

/-! The answer of an ITEM or EMIT that completes. -/

/-- The running core of `s` after a change, in a state that has moved on from `s` elsewhere. -/
theorem mine_modCore_of_cur {s s1 : State} (h : s1.cur = s.cur) (f : Core → Core) :
    mine (modCore s1 s.cur.core.val f) = f (coreAt s1 s.cur.core.val) := by
  rw [mine, modCore_cur, h, coreAt_modCore_self _ _ _ s.cur.core.isLt]

theorem mine_modCore_modCore_of_cur {s s1 : State} (h : s1.cur = s.cur) (f g : Core → Core) :
    mine (modCore (modCore s1 s.cur.core.val f) s.cur.core.val g) = g (f (coreAt s1 s.cur.core.val)) := by
  rw [mine_modCore_of_cur (s1 := modCore s1 s.cur.core.val f) h, coreAt_modCore_self _ _ _ s.cur.core.isLt]

theorem readG_answer (k : Core) {a : BitVec 5} (x : Dword) (h : a ≠ 0) : ((k.arriveG a x).unblock).readG a = x := by
  rw [Core.readG_unblock, Core.readG_arriveG_self _ _ _ h]

theorem readG_answer_zero (k : Core) (a : BitVec 5) : ((k.arriveG a 0).unblock).readG a = 0 := by
  by_cases h : a = 0
  · rw [h]; rfl
  · exact readG_answer k 0 h

theorem otherG_answer {k0 k : Core} (a : BitVec 5) (x : Dword) (h : k.g = k0.g) : OtherG a k0 ((k.arriveG a x).unblock) := by
  intro r hr
  rw [Core.readG_unblock, Core.readG_arriveG_ne _ _ _ _ hr, Core.readG, h, Core.readG]

end Sys2Proof.Claims
end

section
/-! SUPPORT. ITEM and YIELD (R128, R130, R346): the answers of ITEM_RETURN by what it finds, and of an instruction at which the
core is moved; then O29. -/

namespace Sys2Proof.Machine

/-! Taking an item. -/

/-- The oldest entry of a queue that is not empty. -/
theorem takeItem_of_lt {s : State} {r : Region} {i : Nat} {x : StageState} (hx : stageOf r i = some x) (h : x.head < x.tail) :
    ∃ arrive, takeItem s r i = some (physDword s (stageQbase s r i + 16 * (x.head % stageQcap s r i)), arrive,
      writeOcc (modStage s r.rid i fun x => { x with head := x.head + 1, arrives := x.arrives.drop 1 }) r i) := by
  have hocc : x.occ ≠ 0 := by simp only [StageState.occ]; omega
  exact ⟨(x.arrives.head?.map Prod.snd).getD 0, by simp only [takeItem, hx, hocc, if_false]⟩

theorem takeItem_of_empty {s : State} {r : Region} {i : Nat} {x : StageState} (hx : stageOf r i = some x)
    (h : x.head = x.tail) : takeItem s r i = none := by
  simp [takeItem, hx, StageState.occ, h]

/-- The operator of a core that takes an item holds it. -/
theorem op_holdItem {k : Core} {o : Operator} (h : k.op = some o) (item : Dword) (chip : Option Nat) :
    ∃ o', (holdItem k item chip).op = some o' ∧ o'.item = some item ∧ o'.stolen = chip.isSome :=
  ⟨_, by rw [holdItem, h]; rfl, rfl, rfl⟩

/-! ITEM_RETURN, for a core that is held at its ITEM in a stage of an admitted region. -/

section
variable {s : State} {a : BitVec 5} {y : Sync} {l : Loc} {n rid i : Nat} {r : Region} {x : StageState}
variable (hb : (coreAt s s.cur.core.val).block = some ⟨.item a, y, l, n⟩)
  (hs : (coreAt s s.cur.core.val).stage = some (rid, i)) (hr : regionAt s rid = some r) (hx : stageOf r i = some x)
include hb hs hr

theorem itemReturn_of_entry {item arrive : Dword} {s1 : State} (ht : takeItem s r i = some (item, arrive, s1)) :
    exec .itemReturn s = .next (modCore (modCore s1 s.cur.core.val fun k => holdItem k item none) s.cur.core.val
      fun k => (k.arriveG a item).unblock) := by
  simp only [exec_itemReturn, execItemReturn, hb, hs, hr, ht]

include hx

theorem itemReturn_of_stolen (ht : takeItem s r i = none) {chip : Nat} {item : Dword} {rest : List (Nat × Dword)}
    (hst : x.stolen = (chip, item) :: rest) :
    exec .itemReturn s = .next (modCore (modCore (modStage s rid i fun x => { x with stolen := x.stolen.drop 1 })
      s.cur.core.val fun k => holdItem k item (some chip)) s.cur.core.val fun k => (k.arriveG a item).unblock) := by
  simp only [exec_itemReturn, execItemReturn, hb, hs, hr, ht, hx, hst, Option.bind_some, List.head?_cons]

theorem itemReturn_of_done (ht : takeItem s r i = none) (hst : x.stolen = []) (hd : inputDone x = true) :
    exec .itemReturn s = .next (modCore (modCore (bindCore s s.cur.core.val none) s.cur.core.val noItem) s.cur.core.val
      fun k => (k.arriveG a 0).unblock) := by
  simp only [exec_itemReturn, execItemReturn, hb, hs, hr, ht, hx, hst, hd, Option.bind_some, List.head?_nil, Option.map_some,
    Option.getD_some, if_true]

theorem itemReturn_of_open (ht : takeItem s r i = none) (hst : x.stolen = []) (hd : inputDone x = false) :
    exec .itemReturn s = .next s := by
  simp only [exec_itemReturn, execItemReturn, hb, hs, hr, ht, hx, hst, hd, Option.bind_some, List.head?_nil, Option.map_some,
    Option.getD_some]
  rfl

end

/-! The instruction at which a core is moved (R130). -/

theorem leaveForMove_next {m : CM} {regs : List (BitVec 5)} {goal : Nat × Nat} {s : State}
    (h : (coreAt s s.cur.core.val).canIssue m regs = true) :
    leaveForMove m regs goal s = .next (setCore s s.cur.core.val
      { (((coreAt s s.cur.core.val).issue m s.cur.len).retire .c m.sync).endChain with moveTo := some goal }) := by
  simp only [leaveForMove, h, if_true]

/-- An instruction that retires and ends the chain: the pushes still held stand before the end. -/
theorem Core.endChain_of_retire (k : Core) (y : Sync) :
    ((k.retire .c y).endChain.stream .c).line = none ∧ ((k.retire .c y).endChain.stream .c).next = .none
      ∧ if (k.stream .c).held ++ pushOf y = [] then
          ((k.retire .c y).endChain.stream .c).run = .ended ∧ ((k.retire .c y).endChain.stream .c).held = []
        else ((k.retire .c y).endChain.stream .c).run = (k.stream .c).run
          ∧ ((k.retire .c y).endChain.stream .c).held = (k.stream .c).held ++ pushOf y ++ [.ends] := by
  by_cases h : (k.stream .c).held ++ pushOf y = []
  · obtain ⟨r, hr⟩ := Core.stream_retire_self k .c y
    have hheld : ((k.retire .c y).stream .c).held = [] := by rw [hr]; exact h
    rw [Core.stream_endChain_of_nil _ hheld, if_pos h]
    exact ⟨rfl, rfl, rfl, hheld⟩
  · rw [Core.retire_of_held _ _ _ h, Core.stream_endChain_of_held, if_neg h, Core.stream_modStream_self]
    · exact ⟨rfl, rfl, rfl, rfl⟩
    · rwa [Core.stream_modStream_self]

theorem fusedNow_of_onConsumer {k : Core} (h : onConsumer k = true) : k.fusedNow = true := by
  simp only [onConsumer, Bool.and_eq_true] at h
  exact h.1

/-- A core that issues from its splice buffer runs a fused operator at U. -/
theorem op_of_fusedNow {k : Core} (h : k.fusedNow = true) : ∃ o, k.op = some o := by
  cases ho : k.op with
  | none => simp [Core.fusedNow, ho] at h
  | some o => exact ⟨o, rfl⟩

end Sys2Proof.Machine

namespace Sys2Proof.Claims

open Sys2Proof.Machine

/-! The running core after ITEM_RETURN. -/

/-- A core that has taken an item and answered its ITEM, in a state whose cores are those of `s`. -/
theorem mine_of_taken {s s1 : State} (h : SameCores s s1) (a : BitVec 5) (item : Dword) (chip : Option Nat) :
    mine (modCore (modCore s1 s.cur.core.val fun k => holdItem k item chip) s.cur.core.val
      fun k => (k.arriveG a item).unblock) = ((holdItem (mine s) item chip).arriveG a item).unblock := by
  rw [mine_modCore_modCore_of_cur h.1, h.2, mine]

theorem item_returns_oldest_entry (s : State) (a : BitVec 5) (rid i : Nat) (r : Region) (x : StageState) (ha : a ≠ 0)
    (hh : Held s (.item a)) (hs : (mine s).stage = some (rid, i)) (hi : StageIs s rid i r x) (hlt : x.head < x.tail) :
    ∃ t, exec .itemReturn s = .next t ∧ (mine t).block = none ∧ OtherG a (mine s) (mine t)
      ∧ (mine t).readG a = physDword s (stageQbase s r i + 16 * (x.head % stageQcap s r i))
      ∧ CountsAre t rid i (x.head + 1) x.tail
      ∧ ∀ o, (mine s).op = some o → ∃ o', (mine t).op = some o' ∧ o'.item = some ((mine t).readG a) ∧ o'.stolen = false := by
  obtain ⟨y, l, n, hb⟩ := hh
  have hcounts := stageCounts_of_stageIs hi
  obtain ⟨hr, hrid, hx⟩ := hi
  obtain ⟨arrive, ht⟩ := takeItem_of_lt (s := s) hx hlt
  have hsame := (sameCores_modStage s r.rid i fun x => { x with head := x.head + 1, arrives := x.arrives.drop 1 }).trans
    (sameCores_writeOcc _ r i)
  refine ⟨_, itemReturn_of_entry hb hs hr ht, ?_⟩
  rw [mine_of_taken hsame]
  have hg := readG_answer (holdItem (mine s) (physDword s (stageQbase s r i + 16 * (x.head % stageQcap s r i))) none)
    (physDword s (stageQbase s r i + 16 * (x.head % stageQcap s r i))) ha
  refine ⟨Core.unblock_block _, otherG_answer a _ rfl, hg, ?_, ?_⟩
  · rw [countsAre_iff, stageCounts_modCore, stageCounts_modCore, stageCounts_writeOcc,
      stageCounts_modStage _ _ _ _ _ _ (fun c => (c.1 + 1, c.2)) fun _ => rfl, if_pos ⟨hrid, rfl⟩, hcounts]
    rfl
  · intro o ho
    rw [hg]
    obtain ⟨o', ho', hitem, hst⟩ := op_holdItem ho _ none
    exact ⟨o', by rw [Core.unblock_op, Core.arriveG_op, ho'], hitem, hst⟩

theorem item_of_empty_queue (s : State) (a : BitVec 5) (rid i : Nat) (r : Region) (x : StageState) (ha : a ≠ 0)
    (hh : Held s (.item a)) (hs : (mine s).stage = some (rid, i)) (hi : StageIs s rid i r x) (he : x.head = x.tail) :
    (x.stolen = [] → x.closed = false → exec .itemReturn s = .next s)
    ∧ (x.stolen = [] → x.closed = true → ∃ t, exec .itemReturn s = .next t ∧ (mine t).block = none
        ∧ (mine t).readG a = 0 ∧ OtherG a (mine s) (mine t) ∧ (mine t).stage = none)
    ∧ (∀ chip item rest, x.stolen = (chip, item) :: rest → ∃ t, exec .itemReturn s = .next t ∧ (mine t).block = none
        ∧ (mine t).readG a = item ∧ CountsAre t rid i x.head x.tail) := by
  obtain ⟨y, l, n, hb⟩ := hh
  have hcounts := stageCounts_of_stageIs hi
  obtain ⟨hr, hrid, hx⟩ := hi
  have ht := takeItem_of_empty (s := s) hx he
  refine ⟨fun hst hc => ?_, fun hst hc => ?_, fun chip item rest hst => ?_⟩
  · exact itemReturn_of_open hb hs hr hx ht hst (by simp [inputDone, hc])
  · have hlt := s.cur.core.isLt
    refine ⟨_, itemReturn_of_done hb hs hr hx ht hst (by simp [inputDone, hc, hst, StageState.occ, he]), ?_⟩
    rw [mine_modCore_modCore_of_cur (bindCore_cur ..), coreAt_bindCore s hlt]
    exact ⟨Core.unblock_block _, readG_answer _ _ ha, otherG_answer a _ rfl, by simp [noItem]⟩
  · refine ⟨_, itemReturn_of_stolen hb hs hr hx ht hst, ?_⟩
    rw [mine_of_taken (sameCores_modStage ..)]
    refine ⟨Core.unblock_block _, readG_answer _ _ ha, ?_⟩
    rw [countsAre_iff, stageCounts_modCore, stageCounts_modCore, stageCounts_modStage_kept, hcounts]
    exact fun _ => rfl

/-! ITEM and YIELD at issue. -/

theorem item_is_held (m : CM) (a : BitVec 5) :
    HeldAs (.item m a) m [a] (fun s => AtU s ∧ onConsumer (mine s) = false ∧ moveTarget s s.cur.core.val = none)
      fun _ => .item a := by
  refine heldAs_of_next fun s hc ⟨hu, hcons, hmove⟩ => ?_
  have hS := atS_of_atU hu
  have hx : (do notAtS (coreAt s s.cur.core.val); pure (BlockKind.item a) : X BlockKind) s = .ok (.item a) s :=
    (run_bind_ok (run_notAtS hS s)).trans (run_pure ..)
  simp only [mine] at hS hcons hc
  simp only [exec_item, execItem, hS, hcons, hmove]
  exact blocking_next hc hx

theorem item_of_fused_consumer (m : CM) (a : BitVec 5) (s : State) (hc : (mine s).canIssue m [a] = true) (hu : AtU s)
    (hcons : onConsumer (mine s) = true) (ha : a ≠ 0) :
    ∃ t o, exec (.item m a) s = .next t ∧ OnlyCore s t ∧ CtlFrame m (mine s) (mine t) ∧ OtherG a (mine s) (mine t)
      ∧ (mine s).op = some o ∧ (mine t).readG a = o.producerItem.getD 0 := by
  have hS := atS_of_atU hu
  obtain ⟨o, ho⟩ := op_of_fusedNow (fusedNow_of_onConsumer hcons)
  have he : exec (.item m a) s
      = ctl m [a] s fun k => k.writeG a ((k.op.bind (·.producerItem)).getD 0) := by
    simp only [mine] at hS hcons
    simp [exec_item, execItem, hS, hcons]
  refine ⟨_, o, he.trans (ctl_next m [a] s _ hc), onlyCore_setCore .., ?_⟩
  rw [mine_setCore]
  refine ⟨((ctlFrame_issue m _ _ (popReady_of_canIssue hc)).writeG a _).retire _, fun r hr => ?_, ho, ?_⟩
  · rw [Core.readG_retire, Core.readG_writeG_ne _ _ _ _ hr, Core.readG_issue, mine]
  · rw [Core.readG_retire, Core.readG_writeG_self _ _ _ ha, Core.issue_op]
    simp only [mine] at ho
    simp [ho]

/-- What a core leaves that is moved at an instruction, as R130 has it: as at END, and its next stage is the goal. -/
theorem moved_core {m : CM} {regs : List (BitVec 5)} {s : State} {goal : Nat × Nat} {i : Instr}
    (he : exec i s = leaveForMove m regs goal s) (hc : (mine s).canIssue m regs = true) :
    ∃ t, exec i s = .next t ∧ OnlyCore s t ∧ ChainEnds t ((mine s).stream .c).run (((mine s).stream .c).held ++ pushOf m.sync)
      ∧ (mine t).moveTo = some goal ∧ (mine t).g = (mine s).g
      ∧ ∀ st, st ≠ .c → (mine t).stream st = (mine s).stream st := by
  refine ⟨_, he.trans (leaveForMove_next hc), onlyCore_setCore .., ?_⟩
  have hends := Core.endChain_of_retire ((mine s).issue m s.cur.len) m.sync
  rw [Core.stream_issue_self, Stream.step_held, Stream.step_run] at hends
  refine ⟨?_, ?_⟩
  · rw [ChainEnds, mine_setCore]
    exact hends
  · rw [mine_setCore]
    refine ⟨rfl, by simp [mine, Core.endChain_g], fun st hst => ?_⟩
    calc _ = (((mine s).issue m s.cur.len).retire .c m.sync).endChain.stream st := rfl
      _ = (mine s).stream st := by
        rw [Core.stream_endChain_ne _ hst, Core.stream_retire_ne _ _ _ _ hst, Core.stream_issue_ne _ _ _ hst]

theorem yield_moves {m : CM} {s : State} {goal : Nat × Nat} (hu : AtU s) (hm : moveTarget s s.cur.core.val = some goal) :
    exec (.yield m) s = leaveForMove m [] goal s := by
  have hS := atS_of_atU hu
  simp only [mine] at hS
  simp [exec_yield, execYield, hS, hm]

theorem item_moves {m : CM} {a : BitVec 5} {s : State} {goal : Nat × Nat} (hu : AtU s)
    (hm : moveTarget s s.cur.core.val = some goal) (hcons : onConsumer (mine s) = false) :
    exec (.item m a) s = leaveForMove m [a] goal s := by
  have hS := atS_of_atU hu
  simp only [mine] at hS hcons
  simp [exec_item, execItem, hS, hm, hcons]

/-- Settles O29: an ITEM is held, or moves the core, or reads its producer's item; ITEM_RETURN answers by what its stage's queue
holds. -/
theorem itemsAreTakenInOrder : Obligations.ItemsAreTakenInOrder := by
  unfold Obligations.ItemsAreTakenInOrder
  refine ⟨⟨fun s a h => not_streamReady_of_held h, item_is_held, item_of_fused_consumer, item_returns_oldest_entry,
    item_of_empty_queue⟩, fun m a s goal hu hm => ⟨fun hc => ?_, fun hc hcons => ?_⟩⟩
  · exact moved_core (yield_moves hu hm) hc
  · exact moved_core (item_moves hu hm hcons) hc

end Sys2Proof.Claims
end

section
/-! SUPPORT. What translation and code fetch may change (R386 to R388, R17): the TLBs, memory and the records of errors, and of the
cores only the TLB of the one that asks. Then the answers of an access to a PLAIN page. -/

namespace Sys2Proof.Machine

/-! Records leave the cores. -/

theorem sameCores_ringWrite (s : State) (base size n : Nat) (xs : List Byte) (k : Nat) :
    SameCores s (ringWrite s base size n xs k) := by
  induction k generalizing s n xs with
  | zero => exact SameCores.refl s
  | succ k ih => exact SameCores.trans (sameCores_of_eq rfl rfl) (ih ..)

theorem SameCores.fleet {s t : State} (h : SameCores s t) (f : Fleet) : SameCores s { t with fleet := f } := h

theorem sameCores_writeRecord (s : State) (e : EventRec) : SameCores s (writeRecord s e) := by
  unfold writeRecord
  dsimp only
  split
  · exact (SameCores.refl s).fleet _
  · split
    · exact (SameCores.refl s).fleet _
    · exact ((((SameCores.refl s).fleet _).trans (sameCores_ringWrite ..)).fleet _).fleet _

theorem sameCores_countUncorr (s : State) (pa : Nat) : SameCores s (countUncorr s pa) := by
  unfold countUncorr
  split
  · exact (SameCores.refl s).fleet _
  · exact (SameCores.refl s).fleet _
  · exact SameCores.refl s

theorem sameCores_uncorrRecord (s : State) (pa va : Nat) (core : Option Nat) : SameCores s (uncorrRecord s pa va core) :=
  (sameCores_countUncorr ..).trans (sameCores_writeRecord ..)

/-! The frame of translation. -/

/-- What a translation for core `c` may change of the cores: the TLB of that core. -/
def Translated (c : Option Nat) (s t : State) : Prop :=
  t.cur = s.cur ∧ ∀ d, ∃ l, coreAt t d = { coreAt s d with tlb := l } ∧ (c ≠ some d → l = (coreAt s d).tlb)

theorem SameCores.translated {s t : State} (h : SameCores s t) (c : Option Nat) : Translated c s t :=
  ⟨h.1, fun d => ⟨_, h.2 d, fun _ => rfl⟩⟩

theorem closed_translated (c : Option Nat) : Closed (Translated c) := by
  refine ⟨fun s => (SameCores.refl s).translated c, fun s t u ⟨hc, h⟩ ⟨hc', h'⟩ => ⟨hc'.trans hc, fun d => ?_⟩⟩
  obtain ⟨l, he, hl⟩ := h d
  obtain ⟨l', he', hl'⟩ := h' d
  rw [he] at he' hl'
  exact ⟨l', he', fun hne => (hl' hne).trans (hl hne)⟩

theorem Translated.sameCores {s t : State} (h : Translated none s t) : SameCores s t := by
  refine ⟨h.1, fun d => ?_⟩
  obtain ⟨l, he, hl⟩ := h.2 d
  rw [he, hl (by simp)]

theorem Translated.coreAt_ne {c d : Nat} {s t : State} (h : Translated (some c) s t) (hd : d ≠ c) : coreAt t d = coreAt s d := by
  obtain ⟨l, he, hl⟩ := h.2 d
  rw [he, hl fun e => hd (Option.some.inj e).symm]

theorem Translated.coreAt_eq {c d : Nat} {s t : State} (h : Translated (some c) s t) :
    ∃ l, coreAt t d = { coreAt s d with tlb := l } := by
  obtain ⟨l, he, -⟩ := h.2 d
  exact ⟨l, he⟩

theorem translated_tlbFill (s : State) (c : Nat) (t : TlbEntry) : Translated (some c) s (tlbFill s c t) := by
  refine ⟨rfl, fun d => ?_⟩
  change ∃ l, coreAt (modCore s c fun k => { k with tlb := tlbAdd 64 t k.tlb }) d = _ ∧ _
  by_cases hd : d = c
  · subst hd
    by_cases hlt : d < 512
    · exact ⟨_, coreAt_modCore_self _ _ _ hlt, fun h => absurd rfl h⟩
    · refine ⟨(coreAt s d).tlb, ?_, fun _ => rfl⟩
      simp [coreAt, modCore, vmod, hlt]
  · exact ⟨_, coreAt_modCore_ne _ _ _ _ hd, fun _ => rfl⟩

theorem frames_translate (c : Option Nat) (asid : BitVec 11) (atS : Bool) (k : AccKind) (a : Dword) :
    Frames (Translated c) (translate c asid atS k a) := by
  have hR := closed_translated c
  unfold translate
  refine frames_bind hR (frames_require hR _ _ _) fun _ => frames_get_bind fun s => ?_
  have marked (entry : Nat) (e : Dword) :
      Translated c s (if markLeaf e k = e then s else physWrite s entry (leBytes 8 (markLeaf e k).toNat)) := by
    split
    · exact hR.1 s
    · exact (sameCores_physWrite ..).translated c
  cases c with
  | none =>
    cases walkTables s a asid with
    | fault => exact hR.1 s
    | uncorr => exact (sameCores_uncorrRecord ..).translated none
    | machine => exact hR.1 s
    | leaf entry e level =>
      cases hp : leafPermits e atS k
      · simp only [hp]; exact hR.1 s
      · simp only [hp]; exact marked ..
  | some c =>
    dsimp only
    cases tlbFind s c asid a k with
    | some t =>
      cases hp : leafPermits t.leaf atS k
      · simp only [hp]; exact hR.1 s
      · simp only [hp]; exact hR.1 s
    | none =>
      cases walkTables s a asid with
      | fault => exact hR.1 s
      | uncorr => exact (sameCores_uncorrRecord ..).translated (some c)
      | machine => exact hR.1 s
      | leaf entry e level =>
        cases hp : leafPermits e atS k
        · simp only [hp]; exact hR.1 s
        · simp only [hp]; exact hR.2 _ _ _ (marked ..) (translated_tlbFill ..)

theorem frames_classCheck {R : State → State → Prop} (hR : Closed R) (c : Option Nat) (k : AccKind) (va : Dword) (n : Nat)
    (p : Page) : Frames R (classCheck c k va n p) := by
  unfold classCheck
  refine frames_get_bind fun s => ?_
  refine (frames_bind hR (frames_require hR _ _ _) fun _ => ?_).ran s
  dsimp only
  split
  · exact frames_fail_bind hR ..
  · split
    · exact frames_fail_bind hR ..
    · refine frames_ite_bind hR (frames_require hR _ _ _) fun _ => ?_
      split
      · exact frames_pure hR _
      · exact frames_require hR _ _ _
      · split
        · exact frames_require hR _ _ _
        · split
          · split
            · exact frames_require hR _ _ _
            · exact frames_fail hR _ _
          · exact frames_pure hR _

theorem frames_checkPieces (c : Option Nat) (asid : BitVec 11) (atS : Bool) (k : AccKind) (l : List (Dword × Nat)) :
    Frames (Translated c) (checkPieces c asid atS k l) := by
  have hR := closed_translated c
  induction l with
  | nil => exact frames_pure hR _
  | cons e l ih =>
    exact frames_bind hR (frames_require hR _ _ _) fun _ => frames_bind hR (frames_translate ..) fun _ =>
      frames_bind hR (frames_classCheck hR ..) fun _ => frames_bind hR ih fun _ => frames_pure hR _

theorem frames_fetchPieces (c : Nat) (ps : List Piece) (d : Option Nat) : Frames (Translated d) (fetchPieces c ps) := by
  have hR := closed_translated d
  unfold fetchPieces
  refine frames_get_bind fun s => ?_
  rw [run_bind]
  cases (ps.any fun q => replicaBusy s (some c) (some (dieOf c)) q.page q.n) with
  | true => exact hR.1 s
  | false =>
    change Translated d s (left ((_ : X (List Byte × Option Dword)) s))
    cases flawOf s (some (dieOf c)) ps with
    | none => exact hR.1 s
    | some f => exact (sameCores_uncorrRecord ..).translated d

theorem frames_lineParity (c : Nat) (st : StreamId) (a : Dword) (d : Option Nat) : Frames (Translated d) (lineParity c st a) := by
  unfold lineParity
  refine frames_get_bind fun s => ?_
  split
  · exact (sameCores_of_eq (s := s) rfl rfl).translated d
  · exact (closed_translated d).1 s

theorem frames_fetchLine (c : Nat) (a : Dword) : Frames (Translated (some c)) (fetchLine c a) := by
  have hR := closed_translated (some c)
  unfold fetchLine
  refine frames_get_bind fun s => ?_
  refine (frames_bind hR (frames_checkPieces ..) fun ps => frames_bind hR (frames_fetchPieces ..) fun r => ?_).ran s
  split
  · exact frames_pure hR _
  · exact frames_fail hR _ _

theorem frames_fetchCode (c : Nat) (st : StreamId) (idx : BitVec 24) : Frames (Translated (some c)) (fetchCode c st idx) := by
  have hR := closed_translated (some c)
  have checked (words : List Word) (a : Dword) (l : CodeLine) :
      Frames (Translated (some c)) (do lineParity c st a; require (linkOk st words) .fetch a; pure l) :=
    frames_bind hR (frames_lineParity ..) fun _ => frames_bind hR (frames_require hR _ _ _) fun _ => frames_pure hR _
  unfold fetchCode
  refine frames_get_bind fun s => Frames.ran ?_ s
  split
  · split
    · exact frames_bind hR (frames_pure hR _) fun words => checked words _ _
    · exact frames_fail_bind hR ..
  · exact frames_bind hR (frames_fetchLine ..) fun words => checked words _ _

theorem frames_fetchTarget (c : Nat) (st : StreamId) (idx : BitVec 24) (slot : Nat) :
    Frames (Translated (some c)) (fetchTarget c st idx slot) := by
  have hR := closed_translated (some c)
  exact frames_bind hR (frames_fetchCode ..) fun _ => frames_bind hR (frames_require hR _ _ _) fun _ => frames_pure hR _

end Sys2Proof.Machine
end

section
/-! SUPPORT. The answers of an access to a PLAIN page (R29, R235, R382, R386) and of the fetch of a line from one (R17). -/

namespace Sys2Proof.Machine

theorem memRead_eq_map (m : List Host.Cell) (a n : Nat) :
    memRead m a n = (List.range n).map fun i => memGet m (a + i) := by
  refine List.ext_getElem (by simp [memRead_length]) fun i h _ => ?_
  have h' := memRead_getD m a n i (by simpa [memRead_length] using h)
  simpa [List.getD, h] using h'

/-- An access within one 64 KiB unit is one piece. -/
theorem pieces_of_le {a : Dword} {n : Nat} (h : a.toNat % 65536 + n ≤ 65536) : pieces a n = [(a, n)] := by
  have hn : n ≤ 0x10000 - a.toNat % 0x10000 := by omega
  simp [pieces, piecesFrom, hn]

/-- The class checks of a PLAIN page whose bytes exist. -/
theorem run_classCheck_plain {p : Page} {n : Nat} (hcls : p.cls = 0) (hidx : p.cidx = 0) (hn : 0 < n)
    (hu : usable p.pa = true) (hu' : usable (p.pa + n - 1) = true) (c : Option Nat) (k : AccKind) (va : Dword) (s : State) :
    classCheck c k va n p s = .ok () s := by
  have hrow : classRowBad p = false := by simp [classRowBad, hcls, hidx]
  have hmax : max n 1 = n := by omega
  have hhole : firstHole p.pa (max n 1) = none := by simp [firstHole, hmax, hu, hu']
  have htag : badTag s p n = none := by simp [badTag, hcls]
  unfold classCheck
  rw [run_bind_ok (run_get s), run_bind_ok (run_require (by rw [hrow]; rfl) _ _ s), hhole]
  simp only [htag, hcls]
  cases k <;> rfl

theorem readAddr_plain {p : Page} (hcls : p.cls = 0) (s : State) (die : Option Nat) : readAddr s die p = p.pa := by
  simp [readAddr, hcls]

/-- The bytes of a PLAIN piece without uncorrectable granule. -/
theorem run_fetchPieces_plain {p : Page} {n : Nat} (hcls : p.cls = 0) (c : Nat) (a : Dword) (s : State)
    (hf : ∀ i, i < n → flawed s (p.pa + i) = false) :
    fetchPieces c [⟨a, n, p⟩] s = .ok (memRead s.mem p.pa n, none) s := by
  have hbusy : replicaBusy s (some c) (some (dieOf c)) p n = false := by simp [replicaBusy, hcls]
  have hflaw : pieceFlaw s (some (dieOf c)) ⟨a, n, p⟩ = none := by
    unfold pieceFlaw
    split
    · rfl
    · rw [List.find?_eq_none]
      intro i hi
      simp [readAddr_plain hcls, hf i (List.mem_range.mp hi)]
  have hbytes : pieceBytes s (some c) (some (dieOf c)) ⟨a, n, p⟩ = memRead s.mem p.pa n := by
    simp [pieceBytes, memRead_eq_map, classByte, hcls]
  unfold fetchPieces
  rw [run_bind_ok (run_get s), run_bind_ok (run_waitFor (by simp [hbusy]) s)]
  simp only [flawOf, hflaw, readPieces, hbytes, List.append_nil]
  rfl

/-! Marked tables and filled TLBs. -/

theorem flawed_physWrite {s : State} {x : Nat} (h : flawed s x = false) (pa : Nat) (xs : List Byte) :
    flawed (physWrite s pa xs) x = false := by
  have hb : (physWrite s pa xs).bad = repair s.bad pa xs.length := by
    unfold physWrite noteTrigger
    split <;> rfl
  simp only [flawed, List.contains_eq_mem, decide_eq_false_iff_not] at h ⊢
  rw [hb]
  exact fun hm => h (List.mem_of_mem_filter hm)

theorem physWrite_soft (s : State) (pa : Nat) (xs : List Byte) : (physWrite s pa xs).soft = s.soft := by
  unfold physWrite noteTrigger
  split <;> rfl

end Sys2Proof.Machine

namespace Sys2Proof.Claims

open Sys2Proof.Machine

theorem flawed_marked {s : State} {x : Nat} (h : flawed s x = false) (k : AccKind) (a : Dword) :
    flawed (marked s k a) x = false := by
  unfold marked
  split
  · split
    · exact h
    · exact flawed_physWrite h ..
  · exact h

theorem marked_soft (s : State) (k : AccKind) (a : Dword) : (marked s k a).soft = s.soft := by
  unfold marked
  split
  · split
    · rfl
    · exact physWrite_soft ..
  · rfl

/-- A translation's TLB entry apart, the state that it leaves is the one with the tables marked. -/
theorem seen_eq (s : State) (k : AccKind) (a : Dword) :
    (seen s k a).mem = (marked s k a).mem ∧ (seen s k a).bad = (marked s k a).bad ∧ (seen s k a).soft = (marked s k a).soft := by
  unfold seen
  split
  · simp [tlbFill]
  · rename_i hno
    have : marked s k a = s := by
      unfold marked
      split
      · rename_i htlb hleaf
        exact absurd hleaf (hno _ _ _ htlb)
      · rfl
    simp [this]

theorem flawed_seen {s : State} {x : Nat} (h : flawed s x = false) (k : AccKind) (a : Dword) :
    flawed (seen s k a) x = false := by
  rw [flawed, (seen_eq s k a).2.1]
  exact flawed_marked h k a

/-- A mapped address is translated to its page, and the tables are marked and the TLBs filled (R386 to R388). -/
theorem run_translate_of_mapped {s : State} {k : AccKind} {a : Dword} {p : Page} (hform : addressForm a = true)
    (hm : Mapped s k a p) :
    Machine.translate (some s.cur.core.val) (coreAsid s s.cur.core.val) (Machine.atS s s.cur.core.val) k a s
      = .ok p (seen s k a) := by
  change Machine.translate _ (mine s).sr.asid (mine s).atS k a s = _
  unfold Machine.translate
  rw [run_bind_ok (run_require hform _ _ s), run_bind_ok (run_get s)]
  simp only [Mapped] at hm
  dsimp only
  cases htlb : tlbFind s s.cur.core.val (mine s).sr.asid a k with
  | some t =>
    rw [htlb] at hm
    obtain ⟨hp, rfl⟩ := hm
    simp [seen, htlb, hp]
  | none =>
    rw [htlb] at hm
    obtain ⟨ent, e, l, hw, hp, rfl⟩ := hm
    simp [seen, marked, htlb, hw, hp, run_bind]

theorem run_checkPieces_plain {s : State} {k : AccKind} {a : Dword} {n : Nat} {p : Page} (h : PlainAccess s k a n p)
    (hn : 0 < n) :
    checkPieces (some s.cur.core.val) (coreAsid s s.cur.core.val) (Machine.atS s s.cur.core.val) k [(a, n)] s
      = .ok [⟨a, n, p⟩] (seen s k a) := by
  obtain ⟨hform, hwin, hm, hcls, hidx, hu, hu', -⟩ := h
  rw [checkPieces, run_bind_ok (run_require (by rw [hwin]; rfl) _ _ s), run_bind_ok (run_translate_of_mapped hform hm),
    run_bind_ok (run_classCheck_plain hcls hidx hn hu hu' ..), checkPieces, run_bind_ok (run_pure ..)]
  rfl

/-- A line on a PLAIN page that may be executed is fetched as memory holds it. -/
theorem run_fetchLine_plain {s : State} {a : Dword} {p : Page} (ha : a.toNat % 64 = 0) (h : PlainAccess s .fetch a 64 p) :
    fetchLine s.cur.core.val a s = .ok (lineWords 16 (memRead (marked s .fetch a).mem p.pa 64)) (seen s .fetch a) := by
  have hp : pieces a 64 = [(a, 64)] := pieces_of_le (by omega)
  have hchecked := run_checkPieces_plain h (by decide)
  obtain ⟨-, -, -, hcls, -, -, -, hclean⟩ := h
  have hf : ∀ i, i < 64 → flawed (seen s .fetch a) (p.pa + i) = false := fun i hi => flawed_seen (hclean i hi) ..
  unfold fetchLine
  rw [run_bind_ok (run_get s), hp, run_bind_ok hchecked, run_bind_ok (run_fetchPieces_plain hcls _ _ _ hf),
    (seen_eq s .fetch a).1]
  rfl

theorem run_lineParity {s : State} {c : Nat} {st : StreamId} (h : s.soft.contains (.line c st) = false) (a : Dword) :
    lineParity c st a s = .ok () s := by
  unfold lineParity
  rw [run_bind_ok (run_get s), h]
  rfl

/-- A line that is there is fetched (R17, R266). -/
theorem run_fetchCode_of_lineAt {s : State} {st : StreamId} {idx : BitVec 24} {l : CodeLine} (h : LineAt s st idx l) :
    ∃ s1, fetchCode s.cur.core.val st idx s = .ok l s1 := by
  obtain ⟨hidx, haddr, hside, hlink, hsoft, hwords⟩ := h
  have hl : (⟨idx, lineAddr s s.cur.core.val idx, l.words, lineSide (mine s) idx⟩ : CodeLine) = l := by
    rw [← haddr, ← hside, ← hidx]
  have checked (s1 : State) (h1 : s1.soft = s.soft) :
      (do lineParity s.cur.core.val st (lineAddr s s.cur.core.val idx)
          require (linkOk st l.words) .fetch (lineAddr s s.cur.core.val idx)
          pure l : X CodeLine) s1 = .ok l s1 := by
    rw [run_bind_ok (run_lineParity (by rw [h1]; exact hsoft) _), run_bind_ok (run_require hlink _ _ _), run_pure]
  unfold fetchCode
  rw [run_bind_ok (run_get s)]
  dsimp only
  by_cases hf : (mine s).fusedNow = true
  · rw [if_pos hf] at hwords
    simp only [mine] at hf hl hwords
    refine ⟨s, ?_⟩
    simp only [hf, if_true, hwords]
    rw [run_bind_ok (run_pure ..), hl]
    exact checked s rfl
  · rw [if_neg hf] at hwords
    obtain ⟨ha, p, hp, hw⟩ := hwords
    simp only [mine] at hf hl
    refine ⟨seen s .fetch (lineAddr s s.cur.core.val idx), ?_⟩
    simp only [hf]
    rw [if_neg (by decide), run_bind_ok (run_fetchLine_plain ha hp), ← hw, hl]
    exact checked _ ((seen_eq ..).2.2.trans (marked_soft ..))

theorem run_fetchCode_of_lineOf {s : State} {st : StreamId} {idx : BitVec 24} {l : CodeLine} (h : LineOf s st idx l) :
    ∃ s1, fetchCode s.cur.core.val st idx s = .ok l s1 :=
  h.elim run_fetchCode_of_lineAt id

theorem run_fetchTarget_of_targetOf {s : State} {n : BitVec 3} {l : CodeLine} (h : TargetOf s n l) :
    ∃ s1, fetchTarget s.cur.core.val .c (((mine s).readB n).extractLsb' 0 24) (((mine s).readB n).extractLsb' 24 4).toNat s
      = .ok l s1 := by
  rcases h with ⟨hl, hslot⟩ | h
  · obtain ⟨s1, h1⟩ := run_fetchCode_of_lineAt hl
    exact ⟨s1, by rw [fetchTarget, run_bind_ok h1, run_bind_ok (run_require hslot _ _ _), run_pure]⟩
  · exact h

end Sys2Proof.Claims
end

section
/-! SUPPORT. Branches (R106, R120 to R122): the answer of a taken branch, and what it leaves of the core; then O15. -/

namespace Sys2Proof.Machine

/-! The slots at which a line's instructions start (R44). -/

theorem le_of_mem_startsFrom {words : List Word} (fuel n : Nat) : ∀ i ∈ startsFrom fuel words n, n ≤ i := by
  induction fuel generalizing n with
  | zero => simp [startsFrom]
  | succ fuel ih =>
    intro i hi
    unfold startsFrom at hi
    split at hi
    · cases hi
    · split at hi
      · have := ih _ i hi; omega
      · split at hi
        · simp only [List.mem_singleton] at hi; omega
        · rename_i len _
          rcases List.mem_cons.mp hi with h | h
          · omega
          · have := ih _ i h; omega

/-- No instruction starts in the link word. -/
theorem starts_not_zero (words : List Word) : (starts words).contains 0 = false := by
  simp only [List.contains_eq_mem, decide_eq_false_iff_not]
  intro h
  have := le_of_mem_startsFrom 16 1 0 h
  omega

theorem extractLsb'_slot (b : BitVec 28) : (b.extractLsb' 24 4).toNat = b.toNat / 2 ^ 24 := by
  have := b.isLt
  simp only [BitVec.extractLsb'_toNat, Nat.shiftRight_eq_div_pow]
  omega

/-- CALL's return value by its line (R122). -/
theorem callLink_eq {x : Stream} {l : CodeLine} (h : x.line = some l) (len : Nat) :
    callLink x len = match nextSlot l.words (x.slot + len) with
      | some i => BitVec.ofNat 64 (i * 2 ^ 24 + l.idx.toNat)
      | none => if (l.words.getD 0 0).getLsbD 27 then 0
          else if (l.words.getD 0 0).getLsbD 28 then 0
          else BitVec.ofNat 64 (2 ^ 24 + ((l.words.getD 0 0).extractLsb' 0 24).toNat) := by
  unfold callLink lineNext
  rw [h]
  dsimp only
  cases nextSlot l.words (x.slot + len) with
  | some i => rfl
  | none =>
    dsimp only
    by_cases h27 : (l.words.getD 0 0).getLsbD 27 = true
    · rw [if_pos h27, if_pos h27]
    · rw [if_neg h27, if_neg h27]
      by_cases h28 : (l.words.getD 0 0).getLsbD 28 = true
      · rw [if_pos h28, if_pos h28]
      · rw [if_neg h28, if_neg h28]

/-- The core after a taken branch to slot `slot` of line `l`, before `f` writes its result and it retires. -/
def branched (k : Core) (m : CM) (len : Nat) (n : BitVec 3) (l : CodeLine) (slot : Nat) : Core :=
  ({ (k.issue m len).kill with stall := branchLoss k n } : Core).modStream .c fun x => { x with line := some l, slot := slot }

/-- A taken branch whose target is fetched goes there. -/
theorem takeBranch_next {m : CM} {n : BitVec 3} {regs : List (BitVec 5)} {f : Core → Core} {s s1 : State} {l : CodeLine}
    (hc : (coreAt s s.cur.core.val).canIssue m regs = true)
    (ht : fetchTarget s.cur.core.val .c (((coreAt s s.cur.core.val).readB n).extractLsb' 0 24)
      (((coreAt s s.cur.core.val).readB n).extractLsb' 24 4).toNat s = .ok l s1) :
    takeBranch m n regs f s = .next (modCore s1 s1.cur.core.val fun k =>
      (f (branched k m s.cur.len n l (((coreAt s s.cur.core.val).readB n).extractLsb' 24 4).toNat)).retire .c m.sync) :=
  runX_ok (by
    rw [run_bind_ok (run_me s), run_bind_ok (run_waitFor hc s), run_bind_ok (run_myNumber s)]
    dsimp only
    rw [run_bind_ok ht, run_modMe]
    rfl)

theorem takeBranch_raises {m : CM} {n : BitVec 3} {regs : List (BitVec 5)} {f : Core → Core} {s s1 : State} {e : Exc}
    (hc : (coreAt s s.cur.core.val).canIssue m regs = true)
    (ht : fetchTarget s.cur.core.val .c (((coreAt s s.cur.core.val).readB n).extractLsb' 0 24)
      (((coreAt s s.cur.core.val).readB n).extractLsb' 24 4).toNat s = .error (.exc e) s1) :
    takeBranch m n regs f s = .next (raise s1 s.cur.core.val .c e) :=
  runX_exc (by
    rw [run_bind_ok (run_me s), run_bind_ok (run_waitFor hc s), run_bind_ok (run_myNumber s)]
    dsimp only
    rw [run_bind_error ht])

/-- Slot 0 is no target. -/
theorem run_fetchTarget_zero {c : Nat} {st : StreamId} {idx : BitVec 24} {s s1 : State} {l : CodeLine}
    (h : fetchCode c st idx s = .ok l s1) : fetchTarget c st idx 0 s = .error (.exc ⟨.fetch, 0, l.addr, 0⟩) s1 := by
  rw [fetchTarget, run_bind_ok h, run_bind_error (run_require_fails (starts_not_zero _) ..)]

end Sys2Proof.Machine

namespace Sys2Proof.Claims

open Sys2Proof.Machine

theorem branchLoss_eq (k : Core) (n : BitVec 3) :
    branchLoss k n = match k.pbrSeq.find? fun e => e.1 == n with
      | none => 0
      | some e => 3 - ((k.stream .c).here.seq - e.2).toNat := by
  unfold branchLoss
  cases k.pbrSeq.find? fun e => e.1 == n <;> rfl

/-- What the result that a branch writes leaves alone: everything but general registers and the destinations in flight. -/
def LinksOnly (f : Core → Core) : Prop :=
  ∀ k : Core, (f k).streams = k.streams ∧ (f k).b = k.b ∧ (f k).sr = k.sr ∧ (f k).stall = k.stall
    ∧ (f k).inflight.map (·.q) = k.inflight.map (·.q)

theorem linksOnly_id : LinksOnly id := fun _ => ⟨rfl, rfl, rfl, rfl, rfl⟩

theorem linksOnly_writeG (a : BitVec 5) (x : Dword) : LinksOnly fun k => k.writeG a x := by
  refine fun k => ⟨Core.writeG_streams .., Core.writeG_b .., Core.writeG_sr .., Core.writeG_stall .., ?_⟩
  simp only [Core.writeG, List.map_map]
  refine List.map_congr_left fun e _ => ?_
  simp only [Function.comp]
  split <;> rfl

/-- The branching core once its squashable results are dropped: none is left, and every other one is (R106). -/
theorem squashed_inflight {k k' : Core} (h : k'.inflight.map (·.q) = (k.inflight.filter fun e => !e.q).map (·.q)) :
    (∀ e ∈ k'.inflight, e.q = false) ∧ k'.inflight.length = (k.inflight.filter fun e => !e.q).length := by
  refine ⟨fun e he => ?_, by simpa using congrArg List.length h⟩
  have hm : e.q ∈ (k.inflight.filter fun e => !e.q).map (·.q) := h ▸ List.mem_map_of_mem he
  obtain ⟨e', he', hq⟩ := List.mem_map.mp hm
  rw [← hq]
  simpa using (List.mem_filter.mp he').2

/-- Streams, squashable results and the pipeline's loss of a branching core. -/
theorem stream_branched_self (k : Core) (m : CM) (len : Nat) (n : BitVec 3) (l : CodeLine) (slot : Nat) :
    (branched k m len n l slot).stream .c = { (k.stream .c).step len with line := some l, slot := slot } := by
  rw [branched, Core.stream_modStream_self, ← Core.stream_issue_self k m len]
  rfl

theorem stream_branched_ne (k : Core) (m : CM) (len : Nat) (n : BitVec 3) (l : CodeLine) (slot : Nat) {st : StreamId}
    (h : st ≠ .c) : (branched k m len n l slot).stream st = k.stream st := by
  rw [branched, Core.stream_modStream_ne _ _ _ _ h, ← Core.stream_issue_ne k m len h]
  rfl

theorem branched_inflight (k : Core) (m : CM) (len : Nat) (n : BitVec 3) (l : CodeLine) (slot : Nat) :
    (branched k m len n l slot).inflight = k.inflight.filter fun e => !e.q := by
  simp [branched, Core.kill]

/-- What a taken branch leaves (`Branches`), and the registers of the core in which `f` writes its result. -/
theorem branches_of_target {m : CM} {n : BitVec 3} {regs : List (BitVec 5)} {f : Core → Core} {i : Instr} {s : State}
    {l : CodeLine} (he : exec i s = takeBranch m n regs f s) (hc : (mine s).canIssue m regs = true) (ht : TargetOf s n l)
    (hf : LinksOnly f) :
    ∃ t k, exec i s = .next t ∧ Branches s n l t ∧ k.g = (mine s).g ∧ (mine t).g = (f k).g := by
  obtain ⟨s1, h1⟩ := run_fetchTarget_of_targetOf ht
  have hframe := (frames_fetchTarget ..).of_ok h1
  obtain ⟨tlb, htlb⟩ := hframe.coreAt_eq (d := s.cur.core.val)
  have hnext := he.trans (takeBranch_next hc h1)
  rw [hframe.1, extractLsb'_slot] at hnext
  obtain ⟨k, hk⟩ : ∃ k, k = branched { coreAt s s.cur.core.val with tlb := tlb } m s.cur.len n l
      (((coreAt s s.cur.core.val).readB n).toNat / 2 ^ 24) := ⟨_, rfl⟩
  obtain ⟨hstreams, hb, hsr, hstall, hq⟩ := hf k
  have hself : k.stream .c
      = { ((mine s).stream .c).step s.cur.len with line := some l, slot := ((mine s).readB n).toNat / 2 ^ 24 } := by
    rw [hk, stream_branched_self]; rfl
  have hother (st : StreamId) (hst : st ≠ .c) : k.stream st = (mine s).stream st := by
    rw [hk, stream_branched_ne _ _ _ _ _ _ hst]; rfl
  have hstream (st : StreamId) : (f k).stream st = k.stream st := by rw [Core.stream, hstreams, Core.stream]
  have hretire := Core.retire_of_line (f k) .c m.sync (by rw [hstream, hself]; rfl)
  have hdrop : ((f k).retire .c m.sync).inflight.map (·.q) = ((mine s).inflight.filter fun e => !e.q).map (·.q) := by
    rw [Core.retire_inflight, hq, hk, branched_inflight]; rfl
  refine ⟨_, k, hnext, ?_, ?_, ?_⟩
  · rw [Branches, mine_modCore_of_cur hframe.1, htlb, ← hk]
    refine ⟨fun c hne => ?_, ?_, ?_, (squashed_inflight hdrop).1, (squashed_inflight hdrop).2, ?_, ?_, ?_, fun st hst => ?_⟩
    · rw [coreAt_modCore_ne _ _ _ _ hne, hframe.coreAt_ne hne]
    · rw [hretire, Core.stream_modStream_self, hstream, hself]
    · rw [hretire, Core.stream_modStream_self, hstream, hself]
    · rw [Core.retire_b, hb, hk]; simp [branched, mine]
    · rw [Core.retire_sr, hsr, hk]; simp [branched, mine]
    · rw [Core.retire_stall, hstall, hk]
      exact branchLoss_eq ..
    · rw [Core.stream_retire_ne _ _ _ _ hst, hstream, hother st hst]
  · simp [hk, branched, mine]
  · rw [mine_modCore_of_cur hframe.1, htlb, ← hk, Core.retire_g]

theorem readG_of_g_eq {k k' : Core} (h : k'.g = k.g) (r : BitVec 5) : k'.readG r = k.readG r := by
  rw [Core.readG, h, Core.readG]

/-- A branch whose condition is false, as R120 words the four conditions. -/
theorem branchTaken_false {cond : BitVec 2} {x : Dword}
    (h : (cond = 0 ∧ x ≠ 0) ∨ (cond = 1 ∧ x = 0) ∨ (cond = 2 ∧ 0 ≤ x.toInt) ∨ (cond = 3 ∧ x.toInt < 0)) :
    branchTaken cond x = false := by
  rcases h with ⟨rfl, h⟩ | ⟨rfl, h⟩ | ⟨rfl, h⟩ | ⟨rfl, h⟩ <;> simpa [branchTaken] using h

/-- A branch whose condition is true. -/
theorem branchTaken_true {cond : BitVec 2} {x : Dword}
    (h : (cond = 0 ∧ x = 0) ∨ (cond = 1 ∧ x ≠ 0) ∨ (cond = 2 ∧ x.toInt < 0) ∨ (cond = 3 ∧ 0 ≤ x.toInt)) :
    branchTaken cond x = true := by
  rcases h with ⟨rfl, h⟩ | ⟨rfl, h⟩ | ⟨rfl, h⟩ | ⟨rfl, h⟩ <;> simpa [branchTaken] using h

theorem exec_br_taken {m : CM} {n : BitVec 3} {b : BitVec 5} {cond : BitVec 2} {s : State}
    (h : branchTaken cond ((mine s).readG b) = true) : exec (.br m n b cond) s = takeBranch m n [b] id s := if_pos h

theorem exec_br_notTaken {m : CM} {n : BitVec 3} {b : BitVec 5} {cond : BitVec 2} {s : State}
    (h : branchTaken cond ((mine s).readG b) = false) : exec (.br m n b cond) s = ctl m [b] s id :=
  if_neg (by exact ne_true_of_eq_false h)

theorem exec_call_eq (m : CM) (n : BitVec 3) (s : State) : exec (.call m n) s = takeBranch m n [31]
    (fun k => k.writeG 31 (callLink ((mine s).stream .c) s.cur.len)) s := rfl

/-- Settles O15: a branch not taken only issues and retires; a taken one goes to its target (`branches_of_target`), and CALL's link
is the one result it writes. -/
theorem branchesGoToTheirTarget : Obligations.BranchesGoToTheirTarget := by
  refine fun m n b cond s s1 l => ⟨fun hc h => ?_, fun hc ht h => ?_, fun hc ht => ?_, fun hc h0 hl => ?_, fun hc ht => ?_⟩
  · refine ⟨_, (exec_br_notTaken (branchTaken_false h)).trans (ctl_next _ _ _ _ hc), onlyCore_setCore .., ?_, ?_, ?_⟩ <;>
      rw [mine_setCore]
    · exact ctlFrame_issue_retire _ hc
    · rw [Core.retire_g]; exact Core.issue_g ..
    · rw [Core.retire_inflight]; exact Core.issue_inflight ..
  · obtain ⟨t, k, hnext, hbr, hk, hg⟩ := branches_of_target (exec_br_taken (branchTaken_true h)) hc ht linksOnly_id
    exact ⟨t, hnext, hbr, hg.trans hk⟩
  · obtain ⟨t, k, hnext, hbr, hk, hg⟩ := branches_of_target (exec_bra s m n) hc ht linksOnly_id
    exact ⟨t, hnext, hbr, hg.trans hk⟩
  · refine takeBranch_raises hc ?_
    rw [show (coreAt s s.cur.core.val).readB n = 0 from h0]
    exact run_fetchTarget_zero hl
  · obtain ⟨t, k, hnext, hbr, hk, hg⟩ := branches_of_target (exec_call_eq m n s) hc ht (linksOnly_writeG _ _)
    have hread (r : BitVec 5) := readG_of_g_eq hg r
    refine ⟨t, hnext, hbr, fun r hr => ?_, fun l0 hl0 => ?_⟩
    · exact (hread r).trans ((Core.readG_writeG_ne _ _ _ _ hr).trans (readG_of_g_eq hk r))
    · exact (hread 31).trans ((Core.readG_writeG_self _ _ _ (by decide)).trans (callLink_eq hl0 _))

end Sys2Proof.Claims
end

section
/-! SUPPORT. FORK (R123): the streams it starts, and the lease it gives up for stream M; then O7. -/

namespace Sys2Proof.Machine

theorem Stream.start_start (x : Stream) (n : NextLine) : (x.start n).start n = x.start n := rfl

theorem stream_startSteered (sts : List StreamId) (k : Core) (t : StreamId) :
    (sts.foldl (fun k u => k.modStream u (·.start .steered)) k).stream t
      = if t ∈ sts then (k.stream t).start .steered else k.stream t := by
  induction sts generalizing k with
  | nil => simp
  | cons u rest ih =>
    rw [List.foldl_cons, ih]
    by_cases hu : t = u
    · subst hu
      simp [Core.stream_modStream_self, Stream.start_start]
    · simp [Core.stream_modStream_ne _ _ _ _ hu, hu]

/-- The lowest stream starts at LINE, the others from their queues, and no other stream changes (R123). -/
theorem stream_forkStreams (k : Core) (line : BitVec 24) {sts : List StreamId} (h : sts.Nodup) (t : StreamId) :
    (forkStreams k line sts).stream t
      = if t ∈ sts then (k.stream t).start (if sts.head? = some t then .at line else .steered) else k.stream t := by
  cases sts with
  | nil => simp [forkStreams]
  | cons u rest =>
    rw [forkStreams, stream_startSteered]
    by_cases hu : t = u
    · subst hu
      simp [Core.stream_modStream_self, (List.nodup_cons.mp h).1]
    · simp [Core.stream_modStream_ne _ _ _ _ hu, hu, Ne.symm hu]

/-- What no change of a stream touches, FORK leaves. -/
theorem forkStreams_kept {β : Type} (φ : Core → β) (hφ : ∀ k st f, φ (Core.modStream k st f) = φ k) (k : Core)
    (line : BitVec 24) (sts : List StreamId) : φ (forkStreams k line sts) = φ k := by
  have steered (sts : List StreamId) (k : Core) : φ (sts.foldl (fun k u => k.modStream u (·.start .steered)) k) = φ k := by
    induction sts generalizing k with
    | nil => rfl
    | cons u rest ih => rw [List.foldl_cons, ih, hφ]
  cases sts with
  | nil => rfl
  | cons u rest => rw [forkStreams, steered, hφ]

/-- A mask names each stream once, and never the control stream. -/
theorem maskStreams_nodup : ∀ mask : BitVec 4, (maskStreams mask).Nodup ∧ .c ∉ maskStreams mask := by decide

theorem sameCores_giveUpLease (s : State) (c : Nat) : SameCores s (giveUpLease s c) := by
  unfold giveUpLease endLease
  split
  · split
    · exact SameCores.refl s
    · exact sameCores_of_eq rfl rfl
  · exact SameCores.refl s

/-- The state in which a FORK of stream M has given up its core's lease. -/
def leaseGiven (s : State) : State :=
  modCore (giveUpLease s s.cur.core.val) s.cur.core.val fun k => { k with wantLease := none, leaseLeft := 0 }

/-- The state from which FORK starts its streams. -/
def forkFrom (s : State) (mask : BitVec 4) : State := if (maskStreams mask).contains .m then leaseGiven s else s

theorem forkFrom_cur (s : State) (mask : BitVec 4) : (forkFrom s mask).cur = s.cur := by
  unfold forkFrom
  split
  · exact (sameCores_giveUpLease ..).1
  · rfl

theorem coreAt_forkFrom_ne (s : State) (mask : BitVec 4) {c : Nat} (h : c ≠ s.cur.core.val) :
    coreAt (forkFrom s mask) c = coreAt s c := by
  unfold forkFrom
  split
  · rw [leaseGiven, coreAt_modCore_ne _ _ _ _ h, (sameCores_giveUpLease ..).2]
  · rfl

/-- Of the forking core, giving up the lease changes what it notes of the lease. -/
theorem coreAt_forkFrom_self (s : State) (mask : BitVec 4) :
    ∃ w n, coreAt (forkFrom s mask) s.cur.core.val = { coreAt s s.cur.core.val with wantLease := w, leaseLeft := n } := by
  unfold forkFrom
  split
  · exact ⟨none, 0, by rw [leaseGiven, coreAt_modCore_self _ _ _ s.cur.core.isLt, (sameCores_giveUpLease ..).2]⟩
  · exact ⟨_, _, rfl⟩

theorem execFork_busy {m : CM} {line : BitVec 24} {mask : BitVec 4} {s : State}
    (hc : (coreAt s s.cur.core.val).canIssue m [] = true) (hu : (coreAt s s.cur.core.val).atS = false)
    (h : ((maskStreams mask).any fun st => busyRun ((coreAt s s.cur.core.val).stream st).run) = true) :
    execFork m line mask s = .next (raise s s.cur.core.val .c ⟨.streambusy, 0, 0, 0⟩) :=
  runX_exc (by
    rw [run_bind_ok (run_me s), run_bind_ok (run_waitFor hc s), run_bind_ok (run_notAtS hu s),
      run_bind_error (run_require_fails (by rw [h]; rfl) ..)])

theorem execFork_next {m : CM} {line : BitVec 24} {mask : BitVec 4} {s : State}
    (hc : (coreAt s s.cur.core.val).canIssue m [] = true) (hu : (coreAt s s.cur.core.val).atS = false)
    (h : ((maskStreams mask).any fun st => busyRun ((coreAt s s.cur.core.val).stream st).run) = false) :
    execFork m line mask s = .next (modCore (forkFrom s mask) s.cur.core.val fun k =>
      (forkStreams (k.issue m s.cur.len) line (maskStreams mask)).retire .c m.sync) :=
  runX_ok (by
    rw [run_bind_ok (run_me s), run_bind_ok (run_waitFor hc s), run_bind_ok (run_notAtS hu s),
      run_bind_ok (run_require (by rw [h]; rfl) _ _ s)]
    by_cases hm : (maskStreams mask).contains .m = true
    · rw [if_pos hm, forkFrom, if_pos hm, run_bind_ok (run_modify ..)]
      rw [run_bind_ok (run_modMe ..), (sameCores_giveUpLease s s.cur.core.val).1]
      change modMe _ (leaseGiven s) = _
      rw [run_modMe, leaseGiven, modCore_cur, (sameCores_giveUpLease s s.cur.core.val).1]
    · rw [if_neg hm, forkFrom, if_neg hm]
      rfl)

end Sys2Proof.Machine

namespace Sys2Proof.Claims

open Sys2Proof.Machine

/-- A steered stream takes the head of its queue, and stands at the first instruction of that line. -/
theorem lineFetch_of_steered {st : StreamId} {s : State} {idx : BitVec 24} {rest : List (BitVec 24)} {l : CodeLine} {i : Nat}
    (hcan : canFetch (mine s) st = true) (hnext : ((mine s).stream st).next = .steered)
    (hsteer : ((mine s).stream st).steer = idx :: rest) (hl : LineOf s st idx l) (hi : nextSlot l.words 1 = some i) :
    ∃ t, exec (.lineFetch st) s = .next t
      ∧ (mine t).stream st = { (mine s).stream st with line := some l, slot := i, steer := rest } := by
  obtain ⟨s1, h1⟩ := run_fetchCode_of_lineOf hl
  have hframe := (frames_fetchCode ..).of_ok h1
  obtain ⟨tlb, htlb⟩ := hframe.coreAt_eq (d := s.cur.core.val)
  have hrun : execLineFetch st s = .next (modCore s1 s1.cur.core.val fun k =>
      (k.modStream st fun x => { x.seek l 1 with steer := rest }).settle st) := by
    simp only [mine] at hcan hnext hsteer
    unfold execLineFetch
    dsimp only
    rw [if_pos hcan, hnext]
    dsimp only
    rw [hsteer]
    exact runX_ok (by rw [run_bind_ok h1, run_modMe])
  refine ⟨_, hrun, ?_⟩
  rw [hframe.1, mine_modCore_of_cur hframe.1, Core.settle_of_line, Core.stream_modStream_self, Stream.seek_of_nextSlot _ hi, htlb]
  · rfl
  · rw [Core.stream_modStream_self, Stream.seek_of_nextSlot _ hi]; rfl

theorem lineFetch_waits {st : StreamId} {s : State} (hcan : canFetch (mine s) st = true)
    (hnext : ((mine s).stream st).next = .steered) (hsteer : ((mine s).stream st).steer = []) :
    exec (.lineFetch st) s = .next s := by
  simp only [mine] at hcan hnext hsteer
  change execLineFetch st s = _
  unfold execLineFetch
  dsimp only
  rw [if_pos hcan, hnext]
  dsimp only
  rw [hsteer]

theorem busyRun_any_iff (k : Core) (mask : BitVec 4) :
    ((maskStreams mask).any fun st => busyRun (k.stream st).run) = true
      ↔ ∃ st ∈ maskStreams mask, (k.stream st).run = .run ∨ (k.stream st).run = .ended := by
  simp [busyRun]

theorem not_busy_of_idle {k : Core} {mask : BitVec 4}
    (h : ∀ st ∈ maskStreams mask, (k.stream st).run = .idle ∨ (k.stream st).run = .faulted) :
    ((maskStreams mask).any fun st => busyRun (k.stream st).run) = false := by
  refine List.any_eq_false.mpr fun st hst => ?_
  rcases h st hst with h | h <;> simp [busyRun, h]

/-- A FORK whose mask is free starts its streams, and changes no other stream, register or core. -/
theorem fork_starts {m : CM} {line : BitVec 24} {mask : BitVec 4} {s : State} (hc : (mine s).canIssue m [] = true) (hu : AtU s)
    (h : ∀ st ∈ maskStreams mask, ((mine s).stream st).run = .idle ∨ ((mine s).stream st).run = .faulted) :
    ∃ t, exec (.fork m line mask) s = .next t ∧ (mine t).g = (mine s).g ∧ (mine t).inflight = (mine s).inflight
      ∧ (mine t).block = (mine s).block
      ∧ (∀ st, st ≠ .c → (mine t).stream st = if st ∈ maskStreams mask
          then ((mine s).stream st).start (if (maskStreams mask).head? = some st then .at line else .steered)
          else (mine s).stream st)
      ∧ ∀ c, c ≠ s.cur.core.val → coreAt t c = coreAt s c := by
  refine ⟨_, execFork_next hc (atS_of_atU hu) (not_busy_of_idle h), ?_⟩
  obtain ⟨w, n, hk⟩ := coreAt_forkFrom_self s mask
  rw [mine_modCore_of_cur (forkFrom_cur s mask), hk]
  refine ⟨?_, ?_, ?_, fun st hst => ?_, fun c hne => ?_⟩
  · rw [Core.retire_g, forkStreams_kept Core.g Core.modStream_g]; exact Core.issue_g ..
  · rw [Core.retire_inflight, forkStreams_kept Core.inflight Core.modStream_inflight]; exact Core.issue_inflight ..
  · rw [Core.retire_block, forkStreams_kept Core.block Core.modStream_block]; exact Core.issue_block ..
  · rw [Core.stream_retire_ne _ _ _ _ hst, stream_forkStreams _ _ (maskStreams_nodup mask).1, Core.stream_issue_ne _ _ _ hst]
    rfl
  · rw [coreAt_modCore_ne _ _ _ _ hne, coreAt_forkFrom_ne _ _ hne]

/-- Settles O7: the map refuses an empty mask, a steered stream takes the head of its queue (`lineFetch_of_steered`), and FORK
starts a free mask (`fork_starts`) or raises STREAMBUSY. -/
theorem forkStartsTheMask : Obligations.ForkStartsTheMask := by
  refine ⟨fun ws m line h => ?_, fun st s idx rest l i hcan hnext => ⟨lineFetch_waits hcan hnext, fun hsteer hl hi => ?_⟩,
    fun m line mask s hc hu _ => ⟨fun hidle => ?_, fun hbusy => ?_⟩⟩
  · have hwf : (m.sync.wf && (0 : BitVec 4) != 0) = true := wf_of_decode h
    simp at hwf
  · obtain ⟨t, ht, hx⟩ := lineFetch_of_steered hcan hnext hsteer hl hi
    have hrun : ((mine s).stream st).run = .run := by
      simp only [canFetch, Bool.and_eq_true, beq_iff_eq] at hcan
      exact hcan.1.2
    exact ⟨t, ht, by rw [hx], by rw [hx], by rw [hx]; exact hrun, by rw [hx]⟩
  · obtain ⟨t, ht, hg, hinflight, hblock, hstream, hcores⟩ := fork_starts (line := line) hc hu hidle
    have notC {st : StreamId} (h : st ∈ maskStreams mask) : st ≠ .c := fun e => (maskStreams_nodup mask).2 (e ▸ h)
    refine ⟨t, ht, hg, hinflight, hblock, fun st hst => ?_, fun st hne hst => ?_, hcores⟩
    · rw [hstream st (notC hst), if_pos hst]
      exact ⟨rfl, rfl, rfl, rfl⟩
    · rw [hstream st hne, if_neg hst]
  · exact execFork_busy hc (atS_of_atU hu) ((busyRun_any_iff ..).mpr hbusy)

end Sys2Proof.Claims
end

section
/-! SUPPORT. EMIT (R129, R267, R336, R353): the front end's reads at a region's door, and the answers of EMIT_ACCEPT by its
output; then O30. -/

namespace Sys2Proof.Machine

/-! The door: what its reads and an admission leave of the cores. -/

theorem frames_itemRecord (r : Region) (item : Dword) : Frames (Translated none) (itemRecord r item) := by
  have hR := closed_translated none
  unfold itemRecord
  exact frames_bind hR (frames_require hR _ _ _) fun _ => frames_bind hR (frames_translate ..) fun _ =>
    frames_bind hR (frames_classCheck hR ..) fun _ => frames_bind hR (frames_require hR _ _ _) fun _ => frames_pure hR _

theorem frames_frontRead (asid : BitVec 11) (atS : Bool) (k : AccKind) (a : Dword) (n : Nat) :
    Frames (Translated none) (frontRead asid atS k a n) := by
  have hR := closed_translated none
  unfold frontRead
  refine frames_bind hR (frames_checkPieces ..) fun ps => frames_get_bind fun s => ?_
  cases flawOf s none ps with
  | none => exact hR.1 s
  | some v => exact (sameCores_uncorrRecord ..).translated none

theorem frontOutcome_state {α : Type} (x : X α) (s : State) : (frontOutcome x s).2 = left (x s) := by
  unfold frontOutcome
  cases x s <;> rfl

theorem sameCores_headerRead (s : State) (asid : BitVec 11) (base : Dword) : SameCores s (headerRead s asid base) := by
  rw [headerRead, frontOutcome_state]
  exact ((frames_frontRead ..).ran s).sameCores

theorem sameCores_stageCost (s : State) (r : Region) (x : StageState) (i : Nat) : SameCores s (stageCost s r x i).2 := by
  have hread := sameCores_headerRead s r.asid (physDword s (stageRec r i))
  unfold stageCost
  dsimp only
  by_cases h : x.status = 3
  · rw [if_pos h]
    cases headerAt s r.asid (physDword s (stageRec r i)) with
    | none => dsimp only; exact hread
    | some h => dsimp only; exact hread
  · rw [if_neg h]
    exact SameCores.refl s

theorem sameCores_regionCost (s : State) (r : Region) : SameCores s (regionCost s r).2 := by
  have summed (l : List (StageState × Nat)) (a : Nat × State) (h : SameCores s a.2) :
      SameCores s (l.foldl (fun a x => let y := stageCost a.2 r x.1 x.2; (a.1 + y.1, y.2)) a).2 := by
    induction l generalizing a with
    | nil => exact h
    | cons x l ih => exact ih _ (h.trans (sameCores_stageCost ..))
  unfold regionCost
  split
  · exact SameCores.refl s
  · exact summed _ _ (SameCores.refl s)

/-- An open door admits the item, and leaves every core as it was. -/
theorem doorAdmit_of_open {s s1 : State} {rid pa : Nat} {item : Dword} {q : Region} (hq : regionAt s rid = some q)
    (hp : itemRecord q item s = .ok pa s1) (ho : doorOpen (regionCost s1 q).2 q (regionCost s1 q).1 = true) :
    ∃ t, doorAdmit s rid item = (0, t) ∧ SameCores s t := by
  have hsame := ((frames_itemRecord q item).of_ok hp).sameCores.trans (sameCores_regionCost s1 q)
  unfold doorAdmit
  simp only [hq, hp, ho, if_true]
  exact ⟨_, rfl, (((hsame.trans (sameCores_physWrite ..)).trans (sameCores_physWrite ..)).trans (sameCores_insertItem ..)).trans
    (sameCores_modRegion ..)⟩

/-- A refusal at a door is counted. -/
def countRefusal (s : State) : State := { s with fleet := { s.fleet with refused := s.fleet.refused + 1 } }

theorem sameCores_countRefusal (s : State) : SameCores s (countRefusal s) := sameCores_of_eq rfl rfl

theorem doorAdmit_of_closed {s s1 : State} {rid pa : Nat} {item : Dword} {q : Region} (hq : regionAt s rid = some q)
    (hp : itemRecord q item s = .ok pa s1) (ho : doorOpen (regionCost s1 q).2 q (regionCost s1 q).1 = false) :
    doorAdmit s rid item = (1, countRefusal s) := by
  unfold doorAdmit
  simp only [hq, hp, ho]
  rfl

/-! What becomes of an item at each output (R336). -/

section
variable {s : State} {r : Region} {i : Nat} {x : StageState} {item arrive : Dword}
variable (hx : stageOf r i = some x) (hf : x.fusedNext = false)
include hx hf

theorem nextStage_of_not_fused : nextStage r i = i + 1 := by
  simp [nextStage, hx, hf]

theorem handOn_of_room (hi : i + 1 < r.nstage) (hroom : stageRoom s r (i + 1) = true) :
    handOn s r i item arrive = .accepted (insertItem s r (i + 1) item arrive) := by
  simp [handOn, nextStage_of_not_fused hx hf, hi, hroom]

theorem handOn_of_no_room (hi : i + 1 < r.nstage) (hroom : stageRoom s r (i + 1) = false) :
    handOn s r i item arrive = .waits := by
  simp [handOn, nextStage_of_not_fused hx hf, hi, hroom]

theorem handOn_of_admitted (hi : i + 1 = r.nstage) (hch : r.chained = true) {t : State}
    (h : doorAdmit s r.nextr item = (0, t)) : handOn s r i item arrive = .accepted (itemDone t r.rid) := by
  simp [handOn, nextStage_of_not_fused hx hf, hi, hch, h]

theorem handOn_of_refused (hi : i + 1 = r.nstage) (hch : r.chained = true) {t : State}
    (h : doorAdmit s r.nextr item = (1, t)) : handOn s r i item arrive = .refused t := by
  simp [handOn, nextStage_of_not_fused hx hf, hi, hch, h]

theorem handOn_of_cq_room (hi : i + 1 = r.nstage) (hch : r.chained = false) (hroom : r.cqTail - r.cqHead < r.cqcap) :
    handOn s r i item arrive = .accepted (itemDone (modRegion (putEntry s r.cq r.cqcap r.cqTail item) r.rid
      fun r => { r with cqTail := r.cqTail + 1 }) r.rid) := by
  simp [handOn, nextStage_of_not_fused hx hf, hi, hch, hroom]

theorem handOn_of_cq_full (hi : i + 1 = r.nstage) (hch : r.chained = false) (hroom : r.cqcap ≤ r.cqTail - r.cqHead) :
    handOn s r i item arrive = .waits := by
  simp [handOn, nextStage_of_not_fused hx hf, hi, hch, Nat.not_lt.mpr hroom]

end

/-! EMIT_ACCEPT, for a core that is held at its EMIT in a stage of an admitted region. -/

/-- The state that an accepted EMIT leaves: its operator holds no item, its register answers 0, and closed inputs propagate. -/
def emitted (s : State) (c : Nat) (a : BitVec 5) (rid : Nat) : State :=
  propagateClose (modCore (modCore s c dropItem) c fun k => (k.arriveG a 0).unblock) rid

section
variable {s : State} {a : BitVec 5} {item : Dword} {y : Sync} {l : Loc} {n i : Nat} {r : Region} {o : Operator}
variable (hb : (coreAt s s.cur.core.val).block = some ⟨.emit a item, y, l, n⟩) (ho : (coreAt s s.cur.core.val).op = some o)
  (hi : o.stage = some i) (hr : regionAt s o.rid = some r)
include hb ho hi hr

theorem emitAccept_of_waits (h : handOn s r i item (arriveOf s r item) = .waits) : exec .emitAccept s = .next s := by
  simp only [exec_emitAccept, execEmitAccept, regionOf, hb, ho, hi, hr, h, Option.bind_some]

theorem emitAccept_of_refused {s1 : State} (h : handOn s r i item (arriveOf s r item) = .refused s1) :
    exec .emitAccept s = .next (modCore s1 s.cur.core.val fun k => (k.arriveG a 1).unblock) := by
  simp only [exec_emitAccept, execEmitAccept, regionOf, hb, ho, hi, hr, h, Option.bind_some]

theorem emitAccept_of_accepted {s1 : State} (h : handOn s r i item (arriveOf s r item) = .accepted s1) :
    exec .emitAccept s = .next (emitted s1 s.cur.core.val a r.rid) := by
  simp only [exec_emitAccept, execEmitAccept, regionOf, hb, ho, hi, hr, h, Option.bind_some, emitted]

end

theorem stageCounts_emitted (s : State) (c : Nat) (a : BitVec 5) (n rid i : Nat) :
    stageCounts (emitted s c a n) rid i = stageCounts s rid i := stageCounts_propagateClose ..

/-- What an input's closing does not touch of a region, an accepted EMIT leaves as the hand-over made it. -/
theorem regionAt_closeNext {β : Type} (φ : Region → β) (hφ : ∀ r l, φ { r with stages := l } = φ r) (s : State) (n : Nat)
    (l : List Nat) (rid : Nat) : (regionAt (closeNext s n l) rid).map φ = (regionAt s rid).map φ := by
  have kept (s : State) (j : Nat) (f : StageState → StageState) :
      (regionAt (modStage s n j f) rid).map φ = (regionAt s rid).map φ := by
    rw [modStage, regionAt_modRegion s n rid (fun r => { r with stages := r.stages.modify j f }) fun _ => rfl]
    split
    · rw [Option.map_map]
      exact congrArg (Option.map · _) (funext fun r => hφ r _)
    · rfl
  induction l generalizing s with
  | nil => rfl
  | cons j l ih =>
    unfold closeNext
    rw [ih]
    split
    · rfl
    · split
      · split
        · exact kept ..
        · rfl
      · rfl

/-- The tail of a region's completion queue and its count of items. -/
def Region.outcome (r : Region) : Nat × Nat := (r.cqTail, r.items)

/-- An item put on the completion queue is done for its region (R336). -/
theorem regionAt_emitted_cq {s : State} {rid : Nat} {r : Region} (hr : regionAt s rid = some r) (base cap m : Nat)
    (item : Dword) (c : Nat) (a : BitVec 5) :
    (regionAt (emitted (itemDone (modRegion (putEntry s base cap m item) rid fun r => { r with cqTail := r.cqTail + 1 }) rid)
      c a rid) rid).map Region.outcome = some (r.cqTail + 1, r.items - 1) := by
  rw [emitted, propagateClose, regionAt_closeNext Region.outcome fun _ _ => rfl]
  change (regionAt (itemDone _ rid) rid).map Region.outcome = _
  rw [itemDone, regionAt_modRegion_self _ _ (fun r => { r with items := r.items - 1 }) fun _ => rfl,
    regionAt_modRegion_self _ _ (fun r => { r with cqTail := r.cqTail + 1 }) fun _ => rfl]
  have hput : (regionAt (putEntry s base cap m item) rid).map Region.outcome = some (r.cqTail, r.items) := by
    rw [putEntry, regionAt_physWrite Region.outcome fun now v r => by rw [triggerRegion_eq]; rfl, hr]
    rfl
  cases hq : regionAt (putEntry s base cap m item) rid with
  | none => rw [hq] at hput; cases hput
  | some q =>
    rw [hq] at hput
    simp only [Option.map_some, Option.some.injEq, Region.outcome, Prod.mk.injEq] at hput
    simp [Region.outcome, hput]

/-! EMIT at issue. -/

theorem issue_writeG (k : Core) (m : CM) (len : Nat) (a : BitVec 5) (x : Dword) :
    (k.writeG a x).issue m len = (k.issue m len).writeG a x := by
  unfold Core.issue Core.writeG Core.putG Core.takePop Core.modStream
  by_cases h : a = 0
  · simp only [if_pos h]; split <;> rfl
  · simp only [if_neg h]; split <;> rfl

theorem readG_writeG_zero (k : Core) (a : BitVec 5) : (k.writeG a 0).readG a = 0 := by
  by_cases h : a = 0
  · rw [h]; rfl
  · exact Core.readG_writeG_self _ _ _ h

/-- A core whose operator has asked for the way back of its stolen item. -/
def askBack (k : Core) : Core := { k with op := k.op.map fun o => { o with back := .asked } }

/-- The state in which the EMIT of a stolen item has asked for its way back, once (R353). -/
def carried (s : State) (o : Operator) (item : Dword) : State :=
  if o.back = .no then
    modCore (sendMgmt s (.chip (BitVec.ofNat 12 o.ownerChip)) (.stolenBack o.rid (o.stage.getD 0) (BitVec.ofNat 64 (windowOfs item))))
      s.cur.core.val askBack
  else s

theorem run_carryBack {s : State} {o : Operator} (ho : (coreAt s s.cur.core.val).op = some o) (item : Dword) :
    carryBack item s = .ok () (carried s o item) := by
  unfold carryBack carried
  rw [run_bind_ok (run_me s), ho]
  dsimp only
  by_cases h : o.back = .no
  · rw [if_pos h, if_pos h]; rfl
  · rw [if_neg h, if_neg h]; rfl

theorem carried_cur (s : State) (o : Operator) (item : Dword) : (carried s o item).cur = s.cur := by
  unfold carried; split <;> rfl

theorem coreAt_carried_ne (s : State) (o : Operator) (item : Dword) {c : Nat} (h : c ≠ s.cur.core.val) :
    coreAt (carried s o item) c = coreAt s c := by
  unfold carried
  split
  · rw [coreAt_modCore_ne _ _ _ _ h]; rfl
  · rfl

/-- Of the emitting core, asking for the way back changes what its operator notes of it. -/
theorem coreAt_carried_self {s : State} {o : Operator} (ho : (coreAt s s.cur.core.val).op = some o) (item : Dword) :
    coreAt (carried s o item) s.cur.core.val
      = { coreAt s s.cur.core.val with op := some { o with back := if o.back = .no then .asked else o.back } } := by
  unfold carried
  by_cases h : o.back = .no
  · rw [if_pos h, coreAt_modCore_self _ _ _ s.cur.core.isLt, (sameCores_of_eq (sendMgmt_cur ..) (sendMgmt_cores ..)).2]
    simp only [askBack, ho, h, if_true, Option.map_some]
  · rw [if_neg h, if_neg h, ← ho]

/-- What the issue of an EMIT checks and notes before it is held (R129, R353). -/
def emitIssue (a b : BitVec 5) (k : Core) : X BlockKind := do
  notAtS k
  if (k.op.map (·.stolen)).getD false then do
    carryBack (k.readG b)
    pure (.emitStolen a (k.readG b))
  else pure (.emit a (k.readG b))

/-- What the EMIT of a fused producer checks and writes (R267). -/
def emitChecked (a b : BitVec 5) (k : Core) : X Unit := do
  require (some (k.readG b) == (k.op.bind (·.producerItem))) .splice 0
  modMe fun k => k.writeG a 0

section
variable {m : CM} {a b : BitVec 5} {s : State}

theorem exec_emit_of_not_producer (h : onProducer (coreAt s s.cur.core.val) = false) :
    exec (.emit m a b) s = blocking m [a, b] s (emitIssue a b) := by
  simp only [exec_emit, execEmit, h]
  rfl

theorem exec_emit_of_producer (h : onProducer (coreAt s s.cur.core.val) = true) :
    exec (.emit m a b) s = ctlX m [a, b] s (emitChecked a b) := by
  simp only [exec_emit, execEmit, h]
  rfl

theorem run_emitIssue_own {k : Core} (hu : k.atS = false) (hst : (k.op.map (·.stolen)).getD false = false) :
    emitIssue a b k s = .ok (.emit a (k.readG b)) s := by
  rw [emitIssue, run_bind_ok (run_notAtS hu s), hst]
  rfl

theorem run_emitIssue_stolen {o : Operator} (hu : (coreAt s s.cur.core.val).atS = false)
    (ho : (coreAt s s.cur.core.val).op = some o) (hst : o.stolen = true) :
    emitIssue a b (coreAt s s.cur.core.val) s
      = .ok (.emitStolen a ((coreAt s s.cur.core.val).readG b)) (carried s o ((coreAt s s.cur.core.val).readG b)) := by
  rw [emitIssue, run_bind_ok (run_notAtS hu s), if_pos (by rw [ho]; exact hst), run_bind_ok (run_carryBack ho _), run_pure]

theorem run_emitChecked_ok {k : Core} (h : k.op.bind (·.producerItem) = some (k.readG b)) :
    emitChecked a b k s = .ok () (modCore s s.cur.core.val fun k => k.writeG a 0) := by
  rw [emitChecked, run_bind_ok (run_require (by rw [h]; exact beq_self_eq_true _) _ _ s), run_modMe]

theorem run_emitChecked_fails {k : Core} (h : k.op.bind (·.producerItem) ≠ some (k.readG b)) :
    emitChecked a b k s = .error (.exc ⟨.splice, 0, 0, 0⟩) s :=
  run_bind_error (run_require_fails (beq_false_of_ne (Ne.symm h)) ..)

end

/-- The EMIT of a stolen item whose insertion is acknowledged (R353). -/
theorem emitAccept_of_carried {s : State} {a : BitVec 5} {rec : Dword} {y : Sync} {l : Loc} {n : Nat} {o : Operator}
    (hb : (coreAt s s.cur.core.val).block = some ⟨.emitStolen a rec, y, l, n⟩)
    (ho : (coreAt s s.cur.core.val).op = some o) (h : o.back = .done) :
    exec .emitAccept s = .next (modCore (modCore s s.cur.core.val dropItem) s.cur.core.val fun k => (k.arriveG a 0).unblock) := by
  simp [exec_emitAccept, execEmitAccept, hb, ho, h]

end Sys2Proof.Machine

namespace Sys2Proof.Claims

open Sys2Proof.Machine

/-! The running core after EMIT_ACCEPT. -/

theorem op_dropItem {k : Core} {o : Operator} (h : k.op = some o) : ∃ o', (dropItem k).op = some o' ∧ o'.item = none :=
  ⟨_, by rw [dropItem, h]; rfl, rfl⟩

theorem mine_emitted {s s1 : State} (h : SameCores s s1) (a : BitVec 5) (rid : Nat) :
    mine (emitted s1 s.cur.core.val a rid) = (((dropItem (mine s)).arriveG a 0).unblock) := by
  have hclose := sameCores_propagateClose
    (modCore (modCore s1 s.cur.core.val dropItem) s.cur.core.val fun k => (k.arriveG a 0).unblock) rid
  rw [mine, emitted, hclose.1, hclose.2, ← mine, mine_modCore_modCore_of_cur h.1, h.2, mine]

/-- An accepted EMIT answers 0, and its operator holds the item no longer. -/
theorem core_of_emitted {s s1 : State} {o : Operator} (h : SameCores s s1) (ho : (mine s).op = some o) (a : BitVec 5) (rid : Nat) :
    let t := emitted s1 s.cur.core.val a rid
    (mine t).block = none ∧ (mine t).readG a = 0 ∧ OtherG a (mine s) (mine t) ∧ ∃ o', (mine t).op = some o' ∧ o'.item = none := by
  obtain ⟨o', ho', hitem⟩ := op_dropItem ho
  dsimp only
  rw [mine_emitted h]
  exact ⟨Core.unblock_block _, readG_answer_zero .., otherG_answer a _ rfl, o', by rw [Core.unblock_op, Core.arriveG_op, ho'], hitem⟩

theorem emit_at_door (s s1 : State) (a : BitVec 5) (item : Dword) (o : Operator) (i pa : Nat) (r q : Region) (x : StageState)
    (hh : Held s (.emit a item)) (ho : (mine s).op = some o) (hi : o.stage = some i) (hst : StageIs s o.rid i r x)
    (hf : x.fusedNext = false) (hlast : i + 1 = r.nstage) (hch : r.chained = true) (hq : regionAt s r.nextr = some q)
    (hp : itemRecord q item s = .ok pa s1) :
    let cost := regionCost s1 q
    (doorOpen cost.2 q cost.1 = false → ∃ t, exec .emitAccept s = .next t ∧ (mine t).block = none ∧ (a ≠ 0 → (mine t).readG a = 1)
      ∧ OtherG a (mine s) (mine t) ∧ (mine t).op = some o ∧ t.regions = s.regions ∧ t.mem = s.mem)
    ∧ (doorOpen cost.2 q cost.1 = true → ∃ t o', exec .emitAccept s = .next t ∧ (mine t).block = none ∧ (mine t).readG a = 0
      ∧ OtherG a (mine s) (mine t) ∧ (mine t).op = some o' ∧ o'.item = none) := by
  obtain ⟨y, l, n, hb⟩ := hh
  obtain ⟨hr, -, hx⟩ := hst
  refine ⟨fun hclosed => ?_, fun hopen => ?_⟩
  · have hhand := handOn_of_refused (arrive := arriveOf s r item) hx hf hlast hch (doorAdmit_of_closed hq hp hclosed)
    refine ⟨_, emitAccept_of_refused hb ho hi hr hhand, ?_⟩
    rw [mine_modCore_of_cur (sameCores_countRefusal s).1, (sameCores_countRefusal s).2, ← mine]
    exact ⟨Core.unblock_block _, readG_answer _ _, otherG_answer a _ rfl, by rw [Core.unblock_op, Core.arriveG_op]; exact ho, rfl, rfl⟩
  · obtain ⟨t, ht, hsame⟩ := doorAdmit_of_open hq hp hopen
    have hhand := handOn_of_admitted (arrive := arriveOf s r item) hx hf hlast hch ht
    obtain ⟨hblock, hzero, hother, o', ho', hitem⟩ := core_of_emitted (hsame.trans (sameCores_modRegion ..)) ho a r.rid
    exact ⟨_, o', emitAccept_of_accepted hb ho hi hr hhand, hblock, hzero, hother, ho', hitem⟩

theorem stageRoom_eq (s : State) {r : Region} {j : Nat} {y : StageState} (hy : stageOf r j = some y) :
    stageRoom s r j = decide (y.tail - y.head < stageQcap s r j) := by
  simp [stageRoom, occOf, hy, StageState.occ]

theorem emit_to_next_stage (s : State) (a : BitVec 5) (item : Dword) (o : Operator) (i : Nat) (r : Region) (x y : StageState)
    (hh : Held s (.emit a item)) (ho : (mine s).op = some o) (hi : o.stage = some i) (hst : StageIs s o.rid i r x)
    (hf : x.fusedNext = false) (hlt : i + 1 < r.nstage) (hy : stageOf r (i + 1) = some y) :
    (y.tail - y.head < stageQcap s r (i + 1) → ∃ t, exec .emitAccept s = .next t ∧ (mine t).block = none
      ∧ (mine t).readG a = 0 ∧ OtherG a (mine s) (mine t) ∧ CountsAre t o.rid (i + 1) y.head (y.tail + 1)
      ∧ ∃ o', (mine t).op = some o' ∧ o'.item = none)
    ∧ (stageQcap s r (i + 1) ≤ y.tail - y.head → exec .emitAccept s = .next s) := by
  obtain ⟨b, l, n, hb⟩ := hh
  obtain ⟨hr, hrid, hx⟩ := hst
  have hroom := stageRoom_eq s hy
  refine ⟨fun h => ?_, fun h => ?_⟩
  · have hhand := handOn_of_room (item := item) (arrive := arriveOf s r item) hx hf hlt (hroom.trans (decide_eq_true h))
    obtain ⟨hblock, hzero, hother, hop⟩ := core_of_emitted (sameCores_insertItem s r (i + 1) item (arriveOf s r item)) ho a r.rid
    refine ⟨_, emitAccept_of_accepted hb ho hi hr hhand, hblock, hzero, hother, ?_, hop⟩
    rw [countsAre_iff, stageCounts_emitted, ← hrid, stageCounts_insertItem,
      stageCounts_of_stageIs (x := y) ⟨by rw [hrid]; exact hr, rfl, hy⟩]
    rfl
  · exact emitAccept_of_waits hb ho hi hr
      (handOn_of_no_room hx hf hlt (hroom.trans (decide_eq_false (Nat.not_lt.mpr h))))

theorem emit_to_completion_queue (s : State) (a : BitVec 5) (item : Dword) (o : Operator) (i : Nat) (r : Region) (x : StageState)
    (hh : Held s (.emit a item)) (ho : (mine s).op = some o) (hi : o.stage = some i) (hst : StageIs s o.rid i r x)
    (hf : x.fusedNext = false) (hlast : i + 1 = r.nstage) (hch : r.chained = false) :
    (r.cqTail - r.cqHead < r.cqcap → ∃ t r', exec .emitAccept s = .next t ∧ (mine t).block = none ∧ (mine t).readG a = 0
      ∧ OtherG a (mine s) (mine t) ∧ regionAt t o.rid = some r' ∧ r'.cqTail = r.cqTail + 1 ∧ r'.items = r.items - 1)
    ∧ (r.cqcap ≤ r.cqTail - r.cqHead → exec .emitAccept s = .next s) := by
  obtain ⟨b, l, n, hb⟩ := hh
  obtain ⟨hr, hrid, hx⟩ := hst
  refine ⟨fun h => ?_, fun h => emitAccept_of_waits hb ho hi hr (handOn_of_cq_full hx hf hlast hch h)⟩
  have hhand := handOn_of_cq_room (s := s) (item := item) (arrive := arriveOf s r item) hx hf hlast hch h
  have hsame := ((sameCores_physWrite s (r.cq + 16 * (r.cqTail % r.cqcap)) (leBytes 8 item.toNat ++ leBytes 8 (now0 s).toNat)).trans
    (sameCores_modRegion _ r.rid fun r => { r with cqTail := r.cqTail + 1 })).trans
    (sameCores_modRegion _ r.rid fun r => { r with items := r.items - 1 })
  obtain ⟨hblock, hzero, hother, -⟩ := core_of_emitted hsame ho a r.rid
  have hout := regionAt_emitted_cq hr r.cq r.cqcap r.cqTail item s.cur.core.val a
  rw [← hrid] at hout
  obtain ⟨r', hr', houtcome⟩ := Option.map_eq_some_iff.mp hout
  obtain ⟨htail, hitems⟩ := Prod.mk.inj houtcome
  exact ⟨_, r', emitAccept_of_accepted hb ho hi hr hhand, hblock, hzero, hother, by rw [← hrid]; exact hr', htail, hitems⟩

/-! The EMIT of a stolen item. -/

theorem emit_stolen_answers (s : State) (a : BitVec 5) (rec : Dword) (o : Operator) (item : Dword) (hh : Held s (.emitStolen a rec))
    (ho : (mine s).op = some o) (hitem : o.item = some item) :
    (o.back = .done → ∃ t, exec .emitAccept s = .next t ∧ (mine t).block = none
      ∧ (mine t).readG a = 0 ∧ OtherG a (mine s) (mine t) ∧ MemKept s t)
    ∧ (o.back ≠ .done → inGroup s (BitVec.ofNat 12 o.ownerChip) = true → exec .emitAccept s = .next s)
    ∧ (o.back ≠ .done → inGroup s (BitVec.ofNat 12 o.ownerChip) = false →
      exec .emitAccept s = .next (raise s s.cur.core.val .c ⟨.peer, 0, item, 0⟩)) := by
  obtain ⟨y, l, n, hb⟩ := hh
  simp only [mine] at ho hb
  refine ⟨fun h => ?_, fun h hg => ?_, fun h hg => ?_⟩
  · refine ⟨_, emitAccept_of_carried hb ho h, ?_⟩
    rw [mine_modCore_modCore_of_cur rfl]
    exact ⟨Core.unblock_block _, readG_answer_zero .., otherG_answer a _ rfl, fun _ => rfl, fun _ => rfl⟩
  · simp [exec_emitAccept, execEmitAccept, hb, ho, h, hg]
  · simp [exec_emitAccept, execEmitAccept, hb, ho, h, hg, hitem]

/-! EMIT at issue. -/

theorem emit_is_held (m : CM) (a b : BitVec 5) :
    HeldAs (.emit m a b) m [a, b] (fun s => AtU s ∧ onProducer (mine s) = false ∧ ∀ o, (mine s).op = some o → o.stolen = false)
      fun s => .emit a ((mine s).readG b) := by
  refine heldAs_of_next fun s hc ⟨hu, hprod, hown⟩ => ?_
  have hst : ((mine s).op.map (·.stolen)).getD false = false := by
    cases ho : (mine s).op with
    | none => rfl
    | some o => exact hown o ho
  exact (exec_emit_of_not_producer hprod).trans (blocking_next hc (run_emitIssue_own (atS_of_atU hu) hst))

theorem emit_stolen_is_carried (m : CM) (a b : BitVec 5) (s : State) (o : Operator) (hc : (mine s).canIssue m [a, b] = true)
    (hu : AtU s) (hprod : onProducer (mine s) = false) (ho : (mine s).op = some o) (hst : o.stolen = true) :
    ∃ t o', exec (.emit m a b) s = .next t ∧ Held t (.emitStolen a ((mine s).readG b)) ∧ (mine t).g = (mine s).g
      ∧ (mine t).op = some o' ∧ o'.item = o.item ∧ o'.stolen = true
      ∧ o'.back = (if o.back = .no then .asked else o.back) ∧ ∀ c, c ≠ s.cur.core.val → coreAt t c = coreAt s c := by
  have hrun := blocking_next hc (run_emitIssue_stolen (a := a) (b := b) (atS_of_atU hu) ho hst)
  rw [carried_cur] at hrun
  refine ⟨_, { o with back := if o.back = .no then .asked else o.back }, (exec_emit_of_not_producer hprod).trans hrun, ?_⟩
  rw [Held, mine_modCore_of_cur (carried_cur ..), coreAt_carried_self ho]
  refine ⟨⟨_, _, _, rfl⟩, by rw [Core.blockOn_eq]; rfl, by rw [Core.blockOn_eq], rfl, hst, rfl, fun c hne => ?_⟩
  rw [coreAt_modCore_ne _ _ _ _ hne, coreAt_carried_ne _ _ _ hne]

theorem emit_of_fused_producer (m : CM) (a b : BitVec 5) (s : State) (o : Operator) (hc : (mine s).canIssue m [a, b] = true)
    (hprod : onProducer (mine s) = true) (ho : (mine s).op = some o) :
    (o.producerItem = some ((mine s).readG b) → ∃ t, exec (.emit m a b) s = .next t ∧ OnlyCore s t
      ∧ CtlFrame m (mine s) (mine t) ∧ (mine t).readG a = 0 ∧ OtherG a (mine s) (mine t))
    ∧ (o.producerItem ≠ some ((mine s).readG b) →
      exec (.emit m a b) s = .next (raise s s.cur.core.val .c ⟨.splice, 0, 0, 0⟩)) := by
  have hitem : (mine s).op.bind (·.producerItem) = o.producerItem := by rw [ho]; rfl
  refine ⟨fun h => ?_, fun h => ?_⟩
  · have hrun := ctlX_next hc (run_emitChecked_ok (a := a) (hitem.trans h))
    refine ⟨_, (exec_emit_of_producer hprod).trans hrun, ?_⟩
    rw [modCore_cur, mine_modCore_modCore_of_cur rfl, issue_writeG]
    refine ⟨⟨rfl, fun d hd => ?_⟩, ((ctlFrame_issue m _ _ (popReady_of_canIssue hc)).writeG a 0).retire _, ?_, fun r hr => ?_⟩
    · rw [coreAt_modCore_ne _ _ _ _ hd, coreAt_modCore_ne _ _ _ _ hd]
    · rw [Core.readG_retire, readG_writeG_zero]
    · rw [Core.readG_retire, Core.readG_writeG_ne _ _ _ _ hr, Core.readG_issue, mine]
  · exact (exec_emit_of_producer hprod).trans (ctlX_raises hc (run_emitChecked_fails fun e => h (hitem.symm.trans e)))

/-- Settles O30: an EMIT is held, or checks its producer's item, or asks for its item's way back; EMIT_ACCEPT answers by what
becomes of the item at its output (`handOn`). -/
theorem emitsHandTheItemOn : Obligations.EmitsHandTheItemOn := by
  unfold Obligations.EmitsHandTheItemOn
  exact ⟨fun s a item h => not_streamReady_of_held h, emit_at_door, fun m a b => ⟨emit_is_held m a b, emit_stolen_is_carried m a b⟩,
    fun m a b s o hc _ hprod ho => emit_of_fused_producer m a b s o hc hprod ho,
    fun s a item o i r x y hh ho hi hst hf hlt hy _ => emit_to_next_stage s a item o i r x y hh ho hi hst hf hlt hy,
    emit_to_completion_queue, emit_stolen_answers⟩

end Sys2Proof.Claims
end

section
/-! SUPPORT. Engine instructions: what the shared issues answer (`engineNow`, `engineIssue`), and what issue and retirement
leave of their stream (R21, R27, R31), in the words of the statements (`DoneAtIssue`, `RetiredAt`, `Finished`). -/

namespace Sys2Proof.Machine

/-! One change of a core after another. -/

theorem vmod_vmod {α : Type} {n : Nat} (v : Vector α n) (i : Nat) (f g : α → α) :
    vmod (vmod v i g) i f = vmod v i fun x => f (g x) := by
  unfold vmod
  split <;> simp

theorem modCore_modCore (s : State) (c : Nat) (f g : Core → Core) :
    modCore (modCore s c g) c f = modCore s c fun k => f (g k) := by
  simp only [modCore, vmod_vmod]

/-! The point of issue. -/

/-- Issue moves a stream on alike whatever its operation and MPC are. -/
theorem Stream.step_setUp (x : Stream) (len : Nat) (o : EngineOp) :
    Stream.step { x with op := o, mpc := 0 } len = { x.step len with op := o, mpc := 0 } := by
  cases hl : x.line with
  | none => simp [Stream.step, hl, Stream.bumpSeq]
  | some l =>
    simp only [Stream.step, Stream.seek, Stream.bumpSeq, hl]
    cases l.side <;> cases nextSlot l.words (x.slot + len) <;> rfl

theorem Stream.of_finished {x : Stream} (h : x.finished = true) : x.line = none ∧ x.next = .none ∧ x.held = [] := by
  simp only [Stream.finished, Bool.and_eq_true, beq_iff_eq, Option.isNone_iff_eq_none, List.isEmpty_iff] at h
  obtain ⟨⟨⟨⟨-, hline⟩, hnext⟩, -⟩, hheld⟩ := h
  exact ⟨hline, hnext, hheld⟩

theorem Core.ccUp_only (k : Core) (n : Option (BitVec 3)) : k.ccUp n = { k with cc := (k.ccUp n).cc } := by
  cases n <;> rfl

theorem Core.ccUp_modStream_cc (k : Core) (n : Option (BitVec 3)) (st : StreamId) (f : Stream → Stream) :
    ((k.modStream st f).ccUp n).cc = (k.ccUp n).cc := by
  cases n <;> rfl

theorem Core.stream_ccUp (k : Core) (n : Option (BitVec 3)) (st : StreamId) : (k.ccUp n).stream st = k.stream st := by
  rw [Core.ccUp_only]; rfl

theorem Core.tokens_of_fifo {k k' : Core} (h : k'.fifo = k.fifo) (f : Nat) : k'.tokens f = k.tokens f := by
  rw [Core.tokens, h, Core.tokens]

theorem Core.popReady_of_fifo {k k' : Core} (h : k'.fifo = k.fifo) (st : StreamId) (y : Sync) :
    k'.popReady st y = k.popReady st y := by
  rw [Core.popReady, Core.tokens_of_fifo h, Core.popReady]

/-! Issue and retirement in one cycle. -/

/-- A core whose engine stream issues an instruction that retires at once: what `engineNow` ends with. -/
def Core.doneNow (k : Core) (st : StreamId) (y : Sync) (len : Nat) : Core :=
  ((k.takePop st y).modStream st (·.step len)).retire st y

theorem Core.doneNow_only (k : Core) (st : StreamId) (y : Sync) (len : Nat) :
    k.doneNow st y len = { k with streams := (k.doneNow st y len).streams, fifo := (k.doneNow st y len).fifo } := by
  unfold Core.doneNow
  rw [Core.retire_only, Core.takePop_only]; rfl

theorem Core.stream_doneNow_ne (k : Core) (st u : StreamId) (y : Sync) (len : Nat) (h : u ≠ st) :
    (k.doneNow st y len).stream u = k.stream u := by
  rw [Core.doneNow, Core.stream_retire_ne _ _ _ _ h, Core.stream_modStream_ne _ _ _ _ h, Core.stream_takePop]

theorem Core.tokens_doneNow (k : Core) (st : StreamId) (y : Sync) (len f : Nat) (h : k.popReady st y = true) :
    (k.doneNow st y len).tokens f = k.tokens f - if y.pop ∧ f = popFifo st y then 1 else 0 := by
  rw [← Core.tokens_takePop k st y f h]
  simp [Core.doneNow, Core.tokens]

/-- A stream at its retirement: its push is held, and where nothing else keeps it going it ends. -/
theorem Core.stream_retire_cases (k : Core) (st : StreamId) (y : Sync) :
    let x : Stream := { k.stream st with held := (k.stream st).held ++ pushOf y }
    (k.retire st y).stream st = x ∨ x.finished = true ∧ (k.retire st y).stream st = { x with run := .ended } := by
  rw [Core.retire_eq_settle, Core.settle, Core.stream_modStream_self]
  split
  case isTrue h =>
    rw [Bool.and_eq_true] at h
    exact .inr ⟨h.1, by rw [Core.stream_modStream_self, Core.stream_modStream_self]⟩
  case isFalse => exact .inl (Core.stream_modStream_self ..)

/-! The shared issues of engine streams. -/

/-- An engine instruction whose work at issue succeeds retires in its issue cycle. -/
theorem engineNow_next {st : StreamId} {y : Sync} {s t : State} {x : X Unit}
    (hp : (coreAt s s.cur.core.val).popReady st y = true) (hx : x s = .ok () t) :
    engineNow st y s x = .next (modCore t t.cur.core.val fun k => k.doneNow st y s.cur.len) :=
  runX_ok (by rw [run_bind_ok (run_me s), run_bind_ok (run_waitFor hp s), run_bind_ok hx, run_modMe]; rfl)

/-- An engine instruction waits while its token is missing or what it asks for at issue is not there. -/
theorem engineNow_waits {st : StreamId} {y : Sync} {s t : State} {x : X Unit} (hx : x s = .error .wait t) :
    engineNow st y s x = .next s := by
  cases hp : (coreAt s s.cur.core.val).popReady st y with
  | false => simp only [engineNow, runX, run_bind_ok (run_me s), hp]; rfl
  | true => simp only [engineNow, runX, run_bind_ok (run_me s), run_bind_ok (run_waitFor hp s), run_bind_error hx]

/-- The state in which an engine instruction's own part of issue runs: its stream's MPC is 0. -/
def mpcCleared (s : State) (st : StreamId) : State :=
  modCore s s.cur.core.val fun k => k.modStream st fun x => { x with mpc := 0 }

/-- An engine instruction that `x` sets up, without a change elsewhere, issues. -/
theorem engineIssue_next {st : StreamId} {y : Sync} {s : State} {x : X Unit} {g : Core → Core}
    (hp : (coreAt s s.cur.core.val).popReady st y = true)
    (hx : x (mpcCleared s st) = .ok () (modCore (mpcCleared s st) s.cur.core.val g)) :
    engineIssue st y s x = .next (modCore s s.cur.core.val fun k =>
      ((g (k.modStream st fun x => { x with mpc := 0 })).takePop st y).modStream st (·.step s.cur.len)) := by
  have hrun : engineIssue st y s x = .next (modCore (modCore (mpcCleared s st) s.cur.core.val g) s.cur.core.val fun k =>
      (k.takePop st y).modStream st (·.step s.cur.len)) :=
    runX_ok (by
      rw [run_bind_ok (run_me s), run_bind_ok (run_waitFor hp s), run_bind_ok (run_modMe _ s)]
      exact (run_bind_ok hx).trans (run_modMe ..))
  rw [hrun, mpcCleared, modCore_modCore, modCore_modCore]

end Sys2Proof.Machine

namespace Sys2Proof.Claims

open Sys2Proof.Machine

theorem retiredAt_doneNow (k : Core) (st : StreamId) (y : Sync) (len : Nat) :
    RetiredAt y len (k.stream st) ((k.doneNow st y len).stream st) := by
  have h := Core.stream_retire_cases ((k.takePop st y).modStream st (·.step len)) st y
  simp only [Core.stream_modStream_self, Core.stream_takePop, Stream.step_held] at h
  rw [Core.doneNow]
  rcases h with h | ⟨hf, h⟩
  · rw [h]
    exact ⟨rfl, .inl (Stream.step_run ..)⟩
  · obtain ⟨hline, hnext, hheld⟩ := Stream.of_finished hf
    rw [h]
    exact ⟨rfl, .inr ⟨rfl, hline, hnext, hheld⟩⟩

/-- A retirement without a counter, from a core that holds the pushes and counters of `k0`. -/
theorem finished_retire {k0 k : Core} {st : StreamId} (y : Sync) (hcc : k.cc = k0.cc)
    (hheld : (k.stream st).held = (k0.stream st).held) : Finished st y none k0 (k.retire st y) := by
  obtain ⟨r, hr⟩ := Core.stream_retire_self k st y
  have hown : ((k.retire st y).stream st).held = (k0.stream st).held ++ pushOf y := by rw [hr, hheld]
  dsimp only [Finished]
  by_cases h : (k0.stream st).held = []
  · rw [if_pos h]
    exact ⟨(Core.retire_cc ..).trans hcc, by rw [hown, h]; rfl⟩
  · rw [if_neg h]
    exact ⟨(Core.retire_cc ..).trans hcc, by rw [hown, List.append_nil]; rfl⟩

/-- An instruction whose work at issue changes the running core as `f` does, and neither its streams nor its tokens. -/
theorem doneAtIssue_of {i : Instr} {st : StreamId} {y : Sync} {ok : State → Prop} {f : State → Core → Core} {x : X Unit}
    (hi : ∀ s, exec i s = engineNow st y s x)
    (hx : ∀ s, ok s → ∃ g, x s = .ok () (modCore s s.cur.core.val g) ∧ g (mine s) = f s (mine s))
    (hkept : ∀ s k, (f s k).streams = k.streams ∧ (f s k).fifo = k.fifo) : DoneAtIssue i st y ok f := by
  intro s hp hok
  obtain ⟨g, hrun, hg⟩ := hx s hok
  obtain ⟨hstr, hfifo⟩ := hkept s (mine s)
  have hstream (u : StreamId) : (f s (mine s)).stream u = (mine s).stream u := by rw [Core.stream, hstr, Core.stream]
  have hp' := (Core.popReady_of_fifo hfifo st y).trans hp
  refine ⟨_, (hi s).trans (engineNow_next hp hrun), ?_⟩
  rw [modCore_cur, modCore_modCore, mine_modCore, hg]
  refine ⟨onlyCore_modCore .., Core.doneNow_only .., fun u hu => ?_, ?_, fun n _ => ?_⟩
  · rw [Core.stream_doneNow_ne _ _ _ _ _ hu, hstream]
  · rw [← hstream st]
    exact retiredAt_doneNow ..
  · rw [Core.tokens_doneNow _ _ _ _ _ hp', Core.tokens_of_fifo hfifo]

/-- An instruction whose set-up counts its counter up and puts its operation into its stream. -/
theorem issuesAs_of {i : Instr} {st : StreamId} {y : Sync} {cc : Option (BitVec 3)} {ok : State → Prop}
    {op : State → EngineOp} {x : X Unit} (hi : ∀ s, exec i s = engineIssue st y s x)
    (hx : ∀ s, ok s → ∃ g, x (mpcCleared s st) = .ok () (modCore (mpcCleared s st) s.cur.core.val g)
      ∧ g (mine (mpcCleared s st)) = ((mine (mpcCleared s st)).ccUp cc).modStream st fun x => { x with op := op s }) :
    IssuesAs i st y cc ok op := by
  intro s hp _ hok
  obtain ⟨g, hrun, hg⟩ := hx s hok
  refine ⟨_, (hi s).trans (engineIssue_next hp hrun), onlyCore_modCore .., ?_⟩
  rw [mpcCleared, mine_modCore] at hg
  rw [mine_modCore, hg]
  have hfifo : ((((mine s).modStream st fun x => { x with mpc := 0 }).ccUp cc).modStream st
      fun x => { x with op := op s }).fifo = (mine s).fifo := by rw [Core.ccUp_only]; rfl
  refine ⟨⟨?_, fun u hu => ?_, fun f _ => ?_⟩, ?_, ?_⟩
  · rw [Core.takePop_only, Core.ccUp_only]; rfl
  · rw [Core.stream_modStream_ne _ _ _ _ hu, Core.stream_takePop, Core.stream_modStream_ne _ _ _ _ hu, Core.stream_ccUp,
      Core.stream_modStream_ne _ _ _ _ hu]
  · have hp' := (Core.popReady_of_fifo hfifo st y).trans hp
    rw [← Core.tokens_of_fifo hfifo f]
    exact Core.tokens_takePop _ st y f hp'
  · rw [Core.modStream_cc, Core.takePop_cc, Core.modStream_cc, Core.ccUp_modStream_cc]
  · rw [Core.stream_modStream_self, Core.stream_takePop, Core.stream_modStream_self, Core.stream_ccUp,
      Core.stream_modStream_self]
    exact Stream.step_setUp ((mine s).stream st) s.cur.len (op s)

end Sys2Proof.Claims
end

section
/-! SUPPORT. The lease of the array and the power tokens (R186, R291): clusters and dies after a change, who is granted the array,
and what MREL and POWER_TOKEN_TAKE leave; then O42. -/

namespace Sys2Proof.Machine

/-! Clusters and dies by number. -/

@[simp] theorem clusterAt_modCluster_self (s : State) (cl : Nat) (f : Cluster → Cluster) (h : cl < 128) :
    clusterAt (modCluster s cl f) cl = f (clusterAt s cl) := vget_vmod_self _ _ _ _ h
@[simp] theorem clusterAt_modCore (s : State) (c cl : Nat) (f : Core → Core) :
    clusterAt (modCore s c f) cl = clusterAt s cl := rfl
@[simp] theorem clusterAt_modDie (s : State) (d cl : Nat) (f : Die → Die) : clusterAt (modDie s d f) cl = clusterAt s cl := rfl
@[simp] theorem coreAt_modCluster (s : State) (c cl : Nat) (f : Cluster → Cluster) :
    coreAt (modCluster s cl f) c = coreAt s c := rfl
@[simp] theorem dieAt_modDie_self (s : State) (d : Nat) (f : Die → Die) (h : d < 4) :
    dieAt (modDie s d f) d = f (dieAt s d) := vget_vmod_self _ _ _ _ h
@[simp] theorem dieAt_modCluster (s : State) (d cl : Nat) (f : Cluster → Cluster) :
    dieAt (modCluster s cl f) d = dieAt s d := rfl

theorem clusterOf_lt {c : Nat} (h : c < 512) : clusterOf c < 128 := by unfold clusterOf; omega

/-! Granting the array. -/

theorem askedLease_of_lease {k : Core} {o : MatOp} {n : Nat} (hs : k.stopped = false) (hr : k.raising = none)
    (hm : (k.stream .m).run = .run) (hop : (k.stream .m).op = .mat o) (hk : o.kind = .lease n) : askedLease k = some n := by
  simp [askedLease, hs, hr, hm, hop, hk]

/-- The core of a cluster that is asked in turn `j`, from the one after the last holder (R186). -/
def leaseTurn (s : State) (cl j : Nat) : Nat := 4 * cl + ((clusterAt s cl).last + 1 + j) % 4

theorem leaseTurn_lt (s : State) {cl : Nat} (h : cl < 128) (j : Nat) : leaseTurn s cl j < 512 := by
  unfold leaseTurn; omega

theorem nextHolder_of_first {s : State} {cl i n : Nat} (hi : i < 4) (h : askedLease (coreAt s (leaseTurn s cl i)) = some n)
    (hno : ∀ j, j < i → askedLease (coreAt s (leaseTurn s cl j)) = none) : nextHolder s cl = some (leaseTurn s cl i) := by
  have hfind : (List.range 4).find? ((fun c => (askedLease (coreAt s c)).isSome) ∘ leaseTurn s cl) = some i := by
    rw [List.find?_range_eq_some]
    exact ⟨by simp [h], by simpa using hi, fun j hj => by simp [hno j hj]⟩
  change ((List.range 4).map (leaseTurn s cl)).find? (fun c => (askedLease (coreAt s c)).isSome) = _
  rw [List.find?_map, hfind, Option.map_some]

theorem lapseLease_of_free {s : State} {cl : Nat} (h : (clusterAt s cl).holder = none) : lapseLease s cl = s := by
  simp only [lapseLease, h]

theorem leaseGrant_of_asked {s : State} {cl c n : Nat} (hfree : (clusterAt s cl).holder = none)
    (hend : 8 ≤ (clusterAt s cl).sinceEnd) (hnext : nextHolder s cl = some c) (hask : askedLease (coreAt s c) = some n) :
    exec (.leaseGrant cl) s
      = .next (modCore (modCluster s cl fun l => { l with holder := some c, left := n }) c leaseGranted) := by
  simp [exec_leaseGrant, execLeaseGrant, lapseLease_of_free hfree, hfree, hend, hnext, hask]

theorem leaseGrant_too_early {s : State} {cl : Nat} (hfree : (clusterAt s cl).holder = none)
    (hend : (clusterAt s cl).sinceEnd < 8) : exec (.leaseGrant cl) s = .next s := by
  simp [exec_leaseGrant, execLeaseGrant, lapseLease_of_free hfree, hfree, Nat.not_le.mpr hend]

/-- The MLEASE that a stream stands at, issued: it has moved on and runs nothing. -/
def leaseStep (x : Stream) : Stream := { x.step 1 with op := .none }

theorem leaseGranted_of_lease {k : Core} {o : MatOp} {n : Nat} (hop : (k.stream .m).op = .mat o) (hk : o.kind = .lease n) :
    leaseGranted k = ((k.takePop .m o.sync).modStream .m leaseStep).retire .m o.sync := by
  unfold leaseGranted leaseStep
  simp only [hop, hk]

theorem op_retire (k : Core) (st : StreamId) (y : Sync) : ((k.retire st y).stream st).op = (k.stream st).op := by
  obtain ⟨r, h⟩ := Core.stream_retire_self k st y
  rw [h]

/-! Giving the array up. -/

theorem clusterAt_giveUpLease (s : State) {c : Nat} (h : c < 512) :
    clusterAt (giveUpLease s c) (clusterOf c)
      = if (clusterAt s (clusterOf c)).holder = some c then
          { clusterAt s (clusterOf c) with holder := none, left := 0, last := c % 4, sinceEnd := 0 }
        else clusterAt s (clusterOf c) := by
  by_cases hc : (clusterAt s (clusterOf c)).holder = some c
  · simp [giveUpLease, endLease, hc, clusterOf_lt h]
  · simp [giveUpLease, hc]

/-! Power tokens. -/

theorem length_dropFirst_of_contains (l : List Nat) (a : Nat) (h : l.contains a = true) :
    (dropFirst (· == a) l).length + 1 = l.length := by
  induction l with
  | nil => simp at h
  | cons b l ih =>
    by_cases hb : b = a
    · simp [dropFirst, hb]
    · have hl : l.contains a = true := by simpa [Ne.symm hb] using h
      simpa [dropFirst, hb] using ih hl

theorem takeToken_of_waiting {s : State} {cl : Nat} (hw : (clusterAt s cl).waitToken = true)
    (ht : (clusterAt s cl).token = false) (hfree : (dieAt s (cl / 32)).tokens.contains (cl % 32) = true) :
    takeToken s cl = modDie (modCluster s cl fun l => { l with token := true, waitToken := false }) (cl / 32)
      fun y => { y with tokens := dropFirst (· == cl % 32) y.tokens } := by
  simp only [takeToken, hw, ht, hfree]; rfl

theorem takeToken_of_token {s : State} {cl : Nat} (h : (clusterAt s cl).token = true) : takeToken s cl = s := by
  simp [takeToken, h]

/-! Tile modes (R187). -/

theorem accModeOf_eq (b : BitVec 2) : accModeOf b = if b = 0 then .arrival else if b = 1 then .canon else .exact := by
  decide +revert

end Sys2Proof.Machine

namespace Sys2Proof.Claims

open Sys2Proof.Machine

/-! The lease. -/

theorem mlease_waits_at_issue (y : Sync) (n1 : BitVec 4) (s : State) (hp : (mine s).popReady .m y = true)
    (hno : (clusterAt s (clusterOf s.cur.core.val)).holder ≠ some s.cur.core.val) :
    ∃ t, exec (.mlease y n1) s = .next t ∧ OnlyCore s t ∧ ((mine s).stopped = false → (mine s).raising = none →
        ((mine s).stream .m).run = .run → askedLease (mine t) = some (n1.toNat + 1))
      ∧ ((mine t).stream .m).op = .mat { MatOp.blank (mine s) y (.lease (n1.toNat + 1)) with started := false }
      ∧ (mine t).fifo = (mine s).fifo ∧ (mine t).g = (mine s).g := by
  have hfree : ((clusterAt s (clusterOf s.cur.core.val)).holder != some s.cur.core.val) = true := by simpa using hno
  have hrun : exec (.mlease y n1) s = .next (modCore s s.cur.core.val fun k =>
      setMat { MatOp.blank (mine s) y (.lease (n1.toNat + 1)) with started := false }
        { k with wantLease := none, leaseLeft := 0 }) :=
    runX_ok (by
      simp only [mine] at hp ⊢
      rw [run_bind_ok (run_me s), run_bind_ok (run_waitFor hp s), run_bind_ok (run_myNumber s), run_bind_ok (run_get s),
        run_bind_ok (run_require hfree ..), run_modMe])
  refine ⟨_, hrun, onlyCore_modCore .., ?_⟩
  rw [mine_modCore, setMat]
  refine ⟨fun hs hr hm => ?_, ?_, rfl, rfl⟩
  · exact askedLease_of_lease hs hr (by rw [Core.stream_modStream_self]; exact hm)
      (by rw [Core.stream_modStream_self]) rfl
  · rw [Core.stream_modStream_self]

theorem array_is_granted (s : State) (cl i n : Nat) (o : MatOp) (hcl : cl < 128) (hi : i < 4)
    (hfree : (clusterAt s cl).holder = none) (hend : 8 ≤ (clusterAt s cl).sinceEnd)
    (hop : ((coreAt s (leaseTurn s cl i)).stream .m).op = .mat o) (hk : o.kind = .lease n)
    (hask : askedLease (coreAt s (leaseTurn s cl i)) = some n)
    (hno : ∀ j, j < i → askedLease (coreAt s (leaseTurn s cl j)) = none) :
    ∃ t, exec (.leaseGrant cl) s = .next t ∧ (clusterAt t cl).holder = some (leaseTurn s cl i) ∧ (clusterAt t cl).left = n
      ∧ ((coreAt t (leaseTurn s cl i)).stream .m).op = .none
      ∧ Finished .m o.sync none (coreAt s (leaseTurn s cl i)) (coreAt t (leaseTurn s cl i))
      ∧ ∀ c, c ≠ leaseTurn s cl i → coreAt t c = coreAt s c := by
  refine ⟨_, leaseGrant_of_asked hfree hend (nextHolder_of_first hi hask hno) hask, ?_⟩
  rw [clusterAt_modCore, clusterAt_modCluster_self _ _ _ hcl, coreAt_modCore_self _ _ _ (leaseTurn_lt s hcl i),
    coreAt_modCluster, leaseGranted_of_lease hop hk]
  refine ⟨rfl, rfl, ?_, finished_retire _ (by simp) ?_, fun c hc => coreAt_modCore_ne _ _ _ _ hc⟩
  · rw [op_retire, Core.stream_modStream_self]; rfl
  · rw [Core.stream_modStream_self, Core.stream_takePop]
    exact Stream.step_held ..

theorem mrel_gives_up (y : Sync) (s : State) (hp : (mine s).popReady .m y = true) :
    ∃ t, exec (.mrel y) s = .next t ∧ (clusterAt t (clusterOf s.cur.core.val)).holder ≠ some s.cur.core.val
      ∧ ((clusterAt s (clusterOf s.cur.core.val)).holder = some s.cur.core.val →
          (clusterAt t (clusterOf s.cur.core.val)).holder = none ∧ (clusterAt t (clusterOf s.cur.core.val)).sinceEnd = 0)
      ∧ (mine t).wantLease = none ∧ RetiredAt y s.cur.len ((mine s).stream .m) ((mine t).stream .m)
      ∧ (mine t).z = (mine s).z ∧ (mine t).w = (mine s).w ∧ (∀ c, c ≠ s.cur.core.val → coreAt t c = coreAt s c) := by
  have hlt := s.cur.core.isLt
  obtain ⟨hcur, hcores⟩ := sameCores_giveUpLease s s.cur.core.val
  have hrun : exec (.mrel y) s
      = .next (modCore (leaseGiven s) (leaseGiven s).cur.core.val fun k => k.doneNow .m y s.cur.len) :=
    engineNow_next hp (by rw [run_bind_ok (run_myNumber s), run_bind_ok (run_modify ..), run_modMe, hcur]; rfl)
  refine ⟨_, hrun, ?_⟩
  rw [leaseGiven, modCore_cur, hcur, modCore_modCore, mine_modCore_of_cur hcur, hcores, clusterAt_modCore,
    clusterAt_giveUpLease s hlt]
  refine ⟨?_, fun h => ?_, ?_, retiredAt_doneNow _ .m y s.cur.len, ?_, ?_, fun c hc => ?_⟩
  · split
    · exact nofun
    · assumption
  · rw [if_pos h]; exact ⟨rfl, rfl⟩
  · rw [Core.doneNow_only]
  · rw [Core.doneNow_only]; rfl
  · rw [Core.doneNow_only]; rfl
  · rw [coreAt_modCore_ne _ _ _ _ hc, hcores]

/-! The tiles and planes. -/

theorem mcfg_done_at_issue (y : Sync) (f : McfgF) : DoneAtIssue (.mcfg y f) .m y
    (fun s => matrixOperand (Tag.ofCode f.atag.toNat) = true ∧ matrixOperand (Tag.ofCode f.btag.toNat) = true
      ∧ (pairKind (Tag.ofCode f.atag.toNat) (Tag.ofCode f.btag.toNat)).isSome = true ∧ (f.mode = 0 → (mine s).sr.verify = false))
    fun _ k => { k with z := vmod k.z f.z.toNat fun t => { t with
      tag := Tag.ofCode f.atag.toNat, btag := Tag.ofCode f.btag.toNat, anchor := f.anchor
      mode := if f.mode = 0 then .arrival else if f.mode = 1 then .canon else .exact } } := by
  refine doneAtIssue_of (fun s => exec_mcfg s y f) (fun s ⟨ha, hb, hpair, hmode⟩ => ?_) fun _ _ => ⟨rfl, rfl⟩
  have hverify : (f.mode != 0 || !(coreAt s s.cur.core.val).sr.verify) = true := by
    rw [Bool.or_eq_true, bne_iff_ne, Bool.not_eq_true']
    by_cases h : f.mode = 0
    · exact .inr (hmode h)
    · exact .inl h
  refine ⟨_, by
    rw [run_bind_ok (run_me s), run_bind_ok (run_require ha ..), run_bind_ok (run_require hb ..),
      run_bind_ok (run_require hpair ..), run_bind_ok (run_require hverify ..), run_modMe], ?_⟩
  simp only [modTile, accModeOf_eq]

theorem mzero_issues (y : Sync) (z : BitVec 1) : IssuesAs (.mzero y z) .m y none (fun _ => True)
    fun s => .mat (MatOp.blank (mine s) y (.zero z 64)) := by
  refine issuesAs_of (fun s => exec_mzero s y z) fun s _ => ⟨_, run_modMe .., ?_⟩
  rw [setMat, MatOp.blank, mpcCleared, mine_modCore, Core.stream_modStream_self]
  rfl

theorem mzero_completes (s : State) (o : MatOp) (z : BitVec 1) (hop : ((mine s).stream .m).op = .mat o)
    (hk : o.kind = .zero z 0) (hs : (mine s).stopped = false) (hr : (mine s).raising = none)
    (hm : ((mine s).stream .m).run = .run) :
    ∃ t, exec .mzeroComplete s = .next t ∧ OnlyCore s t ∧ ((mine t).stream .m).op = .none
      ∧ Finished .m o.sync none (mine s) (mine t)
      ∧ (∀ n, (vget (mine t).z z.toNat Tile.zero).cell n = Cell.zero)
      ∧ (vget (mine t).z z.toNat Tile.zero).tag = (vget (mine s).z z.toNat Tile.zero).tag
      ∧ (vget (mine t).z z.toNat Tile.zero).mode = (vget (mine s).z z.toNat Tile.zero).mode
      ∧ ∀ i, i ≠ z.toNat → vget (mine t).z i Tile.zero = vget (mine s).z i Tile.zero := by
  have hrun : exec .mzeroComplete s = .next (modCore s s.cur.core.val fun k =>
      ((modTile z (fun t => { t with cells := [] }) k).modStream .m fun x => { x with op := .none, progress := true }).retire .m
        o.sync) := by
    simp only [mine] at hop hs hr hm
    simp [exec_mzeroComplete, execMzeroComplete, hop, hk, hs, hr, hm]
  refine ⟨_, hrun, onlyCore_modCore .., ?_⟩
  have hz : z.toNat < 2 := z.isLt
  rw [mine_modCore, Core.retire_z, Core.modStream_z, modTile, vget_vmod_self _ _ _ _ hz]
  refine ⟨?_, finished_retire _ rfl ?_, fun _ => rfl, rfl, rfl, fun i hi => vget_vmod_ne _ _ _ _ _ hi⟩
  · rw [op_retire, Core.stream_modStream_self]
  · rw [Core.stream_modStream_self]; rfl

theorem mswap_done_at_issue (y : Sync) : DoneAtIssue (.mswap y) .m y (fun s => (mine s).planeLoad = none)
    fun _ k => { k with w := vset (vset k.w 0 (vget k.w 1 Plane.zero)) 1 (vget k.w 0 Plane.zero) } := by
  refine doneAtIssue_of (fun s => exec_mswap s y) (fun s hload => ?_) fun _ _ => ⟨rfl, rfl⟩
  have hready : (coreAt s s.cur.core.val).planeLoad.isNone = true := Option.isNone_iff_eq_none.mpr hload
  exact ⟨_, by rw [run_bind_ok (run_me s), run_bind_ok (run_waitFor hready s), run_modMe], rfl⟩

theorem mswap_waits_for_mlds (y : Sync) (s : State) (h : (mine s).planeLoad.isSome = true) :
    exec (.mswap y) s = .next s := by
  have hload : (coreAt s s.cur.core.val).planeLoad.isNone = false := by
    rw [Option.isNone_eq_false_iff]; exact h
  refine engineNow_waits (t := s) ?_
  rw [run_bind_ok (run_me s), hload]
  rfl

/-! Power tokens. -/

theorem token_is_taken (s : State) (cl : Nat) (hcl : cl < 128) (hw : (clusterAt s cl).waitToken = true)
    (ht : (clusterAt s cl).token = false) (hfree : (dieAt s (cl / 32)).tokens.contains (cl % 32) = true) :
    ∃ t, exec (.powerTokenTake cl) s = .next t ∧ (clusterAt t cl).token = true ∧ (clusterAt t cl).waitToken = false
      ∧ (dieAt t (cl / 32)).tokens.length + 1 = (dieAt s (cl / 32)).tokens.length ∧ t.cores = s.cores := by
  have hdie : cl / 32 < 4 := by omega
  refine ⟨_, congrArg Host.Outcome.next (takeToken_of_waiting hw ht hfree), ?_⟩
  rw [clusterAt_modDie, clusterAt_modCluster_self _ _ _ hcl, dieAt_modDie_self _ _ _ hdie, dieAt_modCluster]
  exact ⟨rfl, rfl, length_dropFirst_of_contains _ _ hfree, rfl⟩

/-- Settles O42: the lease by who is asked in turn (`nextHolder_of_first`), the instructions done at issue by the core they leave
(`doneAtIssue_of`), and the token by the ring it leaves (`takeToken_of_waiting`). -/
theorem matrixStateInstructions : Obligations.MatrixStateInstructions := by
  unfold Obligations.MatrixStateInstructions
  exact ⟨mlease_waits_at_issue, array_is_granted, fun _ _ => leaseGrant_too_early, mrel_gives_up, mcfg_done_at_issue,
    mzero_issues, mzero_completes, mswap_done_at_issue, mswap_waits_for_mlds,
    fun s cl hcl => ⟨token_is_taken s cl hcl, fun h => congrArg Host.Outcome.next (takeToken_of_token h)⟩⟩

end Sys2Proof.Claims
end
